-- ==== Sys2Proof/Word.lean ====
section
/-! DEFINITION. The words of the block and the numbers of its units (spec/00_scope.md R6, R7; spec/01_organisation.md R13). -/
namespace Sys2Proof

/-- A 32-bit register word. -/
abbrev Word := BitVec 32
/-- One byte of a store (R7). -/
abbrev Byte := BitVec 8
/-- Array number, 0 to 1023 (R14). -/
abbrev Arr := BitVec 10
/-- Fabric identity of a control-port request (R401). -/
abbrev Fid := BitVec 16
/-- Tenancy number (R340). -/
abbrev Ten := BitVec 4
/-- Submission queue number (R269). -/
abbrev Queue := BitVec 6
/-- Register page number (R401). -/
abbrev PageNo := BitVec 8
/-- Ring port number (R298). -/
abbrev PortNo := BitVec 2
/-- Channel number of a ring port or of the memory port (R306, R320). -/
abbrev Chan := BitVec 4
/-- Array group number (R14). -/
abbrev Group := BitVec 4

end Sys2Proof
end

