-- ==== Sys2Proof/Syntax.lean ====
section
/-! DEFINITION. The commands of the block: one constructor of Instr for each row of spec/opcode_table.json. -/
namespace Sys2Proof

/-- How a register request arrives at the control port (R401, Table 17.4): a whole aligned word access, a byte or
halfword access, a request beyond the credits of its FID, or an undefined transaction kind. -/
inductive AccessForm where
  | word
  | narrow
  | beyondCredits
  | undefinedKind
deriving DecidableEq, Repr

/-- An answer other than OK to one of a unit's transactions (R323, R334): the transaction's number among those of the row, and
its STATUS, or none within RESP_TIMEOUT. -/
structure PortError where
  k : Nat
  status : BitVec 2
  late : Bool
deriving DecidableEq, Repr

/-- How the memory port answered the transactions of a dispatcher's or a vendor task's row (R335). An error to a number that the
row does not reach is none. -/
inductive PortAnswer where
  | ok
  | error (e : PortError)
deriving DecidableEq, Repr

/-- How the memory port answered a cache command's transactions (R209): all OK, an error to a row or trailer transaction in so
many attempts, to a structure read, or to a write of the publication. -/
inductive CacheAnswer where
  | ok
  | rowError (e : PortError) (times : BitVec 2)
  | structError (e : PortError)
  | pubError (e : PortError)
deriving DecidableEq, Repr

/-- The predicate field of a slot (R238). -/
structure Pred where
  pen : Bool
  cmp : BitVec 2
  neg : Bool
deriving DecidableEq, Repr

/-- The register fields of a vector operation (R246). -/
structure VFields where
  vd : BitVec 5
  va : BitVec 5
  vb : BitVec 5
  vc : BitVec 5
  bs : Bool
deriving DecidableEq, Repr

/-- The fields of an MMA (Table 10.5). -/
structure MmaFields where
  grp : BitVec 3
  m16 : Bool
  mhi : Bool
  n16 : Bool
  nhi : Bool
deriving DecidableEq, Repr

/-- The fields of a matrix-vector DOT (Table 10.5). -/
structure DotFields where
  mslot : BitVec 4
  qry : BitVec 4
  chunk : BitVec 5
  e0 : BitVec 7
deriving DecidableEq, Repr

/-- The fields of a matrix-vector AXPY (Table 10.5). -/
structure AxpyFields where
  mslot : BitVec 4
  qry : BitVec 4
  vreg : BitVec 5
deriving DecidableEq, Repr

/-- One ledger named by a swap, with its sign (Table 10.6). -/
structure LedgerSel where
  en : Bool
  ledger : BitVec 3
  neg : Bool
deriving DecidableEq, Repr

/-- An array-store tile address: TILE × 4,096, plus VALUE of PT when PTEN is set (Table 10.6, R241). -/
structure TileAddr where
  tile : BitVec 8
  pten : Bool
  pt : BitVec 4
deriving DecidableEq, Repr

/-- The destination of a swap (Tables 4.2, 10.6). -/
inductive SwapDest where
  | ledger (l1 l2 : LedgerSel)
  | store (at_ : TileAddr)
  | out (engine : BitVec 2)
  | discard
deriving DecidableEq, Repr

/-- The fields of a special-function operation (Table 10.7). -/
structure SfFields where
  fslot : BitVec 4
  form : BitVec 2
  sum : Bool
  mask : Bool
  guard : Bool
  srck : Bool
  src : BitVec 6
  dstk : Bool
  dst : BitVec 6
  dfmt : BitVec 3
deriving DecidableEq, Repr

/-- Form R of a scalar operation (R247). -/
structure RForm where
  sd : BitVec 5
  sa : BitVec 5
  sb : BitVec 5
deriving DecidableEq, Repr

/-- The fields of CMPSET (Table 10.9). -/
structure CmpSetFields where
  cmp : BitVec 2
  ct : BitVec 3
  rel : BitVec 3
  osrc : Bool
  imm : BitVec 12
deriving DecidableEq, Repr

/-- The fields of ASTG (Table 10.9). -/
structure AstgFields where
  sa : BitVec 5
  sb : BitVec 5
  vk : BitVec 5
  sm : BitVec 5
  rstcol : Bool
deriving DecidableEq, Repr

/-- How a memory response differs from its request, if it does (Table 13.3 reasons 2, 3 and 5). -/
inductive RespForm where
  | matching
  | wrongKind
  | dataToWrite
  | excessFlits
deriving DecidableEq, Repr

/-- The header and trailer fields of a Vrelir data packet (Table 12.1) and its payload bytes. -/
structure Packet where
  type : BitVec 4
  seq : BitVec 12
  cls : Bool
  chan : BitVec 4
  first : Bool
  last : Bool
  tag : BitVec 16
  msgId : BitVec 16
  pktIdx : BitVec 9
  nfl : BitVec 5
  srcPos : BitVec 10
  user : BitVec 32
  msgLen : BitVec 21
  hops : BitVec 10
  payload : List Byte
  ackSeq : BitVec 12
  ackV : Bool
  crc : BitVec 32
  hdrSpare : BitVec 370 := 0
  trlSpare : BitVec 467 := 0
deriving DecidableEq, Repr

/-- A Vrelir control flit (R301): the credit returns, the bytes 0x14 to 0x3B, and what a TRAIN flit carries and measures
(R305: RING_ID, RING_POS, and the round trip to the echo). `spare` is the reserved bits [31:16] of its first word, which nothing but
the CRC reads (R300). -/
structure CtlFlit where
  type : BitVec 4
  seq : BitVec 12
  credits : List Byte
  more : List Byte
  ringId : BitVec 16
  ringPos : BitVec 10
  rtt : Nat
  crc : BitVec 32
  spare : BitVec 16 := 0
deriving DecidableEq, Repr

/-- One refresh of the monitors (R380, Table 16.5). -/
structure MonSample where
  thermal : List (BitVec 16)
  voltage : List (BitVec 16)
  paceArray : List (BitVec 16)
  paceStore : List (BitVec 16)
deriving DecidableEq, Repr

/-- What the fuse interface presents at COLD reset (R101, R404, R423, R425). -/
structure FuseImage where
  records : List (Nat × BitVec 8)
  pmFid : Fid
  blockId : BitVec 64
  idcode : BitVec 31
  stepping : BitVec 8
  revision : BitVec 16
  romVerFtab : BitVec 16
  taLevel : BitVec 16
  romVerLib : BitVec 16
deriving DecidableEq, Repr

/-- An instrument of the IEEE 1687 network (R397). -/
inductive Instrument where
  | monitors
  | halt (on : Bool)
  | selfTest (on : Bool)
  | fuses
deriving DecidableEq, Repr

/-- The commands. Operands a, q, t, e, ch and p name an array, a queue, a tenancy, a stream engine, a channel and a
ring port; fid is the fabric identity of a host's request and v the word it writes. -/
inductive Instr where
  -- control port
  | doorbell (fid : Fid) (addr : BitVec 20) (cmd : BitVec 512)
  | registerWrite (fid : Fid) (addr : BitVec 20) (form : AccessForm) (v : Word)
  | loWordRead (fid : Fid) (addr : BitVec 20) (form : AccessForm)
  | expertUnlock (fid : Fid) (page : PageNo) (v : Word)
  | eventSend
  | eventAck
  | hostFidWrite (fid : Fid) (n : BitVec 4) (v : Word)
  | pmXfer (fid : Fid) (v : Word)
  -- command kinds (Table 11.2)
  | nop (q : Queue)
  | run (q : Queue) (ans : PortAnswer)
  | append (q : Queue) (ans : CacheAnswer)
  | fork (q : Queue) (ans : CacheAnswer)
  | commit (q : Queue) (ans : CacheAnswer)
  | free (q : Queue) (ans : CacheAnswer)
  | loadProgram (q : Queue) (ans : PortAnswer)
  | tableLoad (q : Queue) (ans : PortAnswer)
  | streamArm (q : Queue) (ans : PortAnswer)
  | readdress (q : Queue)
  | collect (q : Queue)
  | save (q : Queue) (ans : PortAnswer)
  | restore (q : Queue) (ans : PortAnswer)
  | meterRead (q : Queue)
  | commandAccept
  | taskDispatch (q : Queue) (ans : PortAnswer)
  | taskStart (a : Arr) (ans : PortAnswer)
  -- beats
  | beat (a : Arr)
  | frozenBeatComplete (a : Arr)
  | freezeLong (a : Arr)
  | wait (a : Arr) (n : Nat)
  -- feeders, array slot and landings
  | feederRead (a : Arr) (p : Pred) (sideB : Bool) (desc : BitVec 6) (kstep : BitVec 7)
  | feederDeliver (a : Arr)
  | mma (a : Arr) (p : Pred) (f : MmaFields)
  | mmaLand (a : Arr)
  | dot (a : Arr) (p : Pred) (f : DotFields)
  | axpy (a : Arr) (p : Pred) (f : AxpyFields)
  | mvLand (a : Arr) (close : Option (BitVec 4))
  | swap (a : Arr) (p : Pred) (grp : BitVec 3) (dest : SwapDest)
  | swapLand (a : Arr)
  | drainRow (a : Arr)
  | rowscale (a : Arr) (p : Pred) (grp : BitVec 3) (vreg : BitVec 5)
  | rowscaleLand (a : Arr)
  | gload (a : Arr) (p : Pred) (grp : BitVec 3) (src : TileAddr)
  | gloadComplete (a : Arr)
  -- special functions
  | specialFunctionIssue (a : Arr) (p : Pred) (f : SfFields)
  | evalResult (a : Arr)
  -- vector
  | operationLands (a : Arr)
  | fadd (a : Arr) (p : Pred) (f : VFields)
  | fsub (a : Arr) (p : Pred) (f : VFields)
  | fmul (a : Arr) (p : Pred) (f : VFields)
  | fma (a : Arr) (p : Pred) (f : VFields)
  | fnma (a : Arr) (p : Pred) (f : VFields)
  | fdiv (a : Arr) (p : Pred) (f : VFields)
  | fmax (a : Arr) (p : Pred) (f : VFields)
  | fmin (a : Arr) (p : Pred) (f : VFields)
  | fclt (a : Arr) (p : Pred) (f : VFields)
  | fsel (a : Arr) (p : Pred) (f : VFields)
  | cvt (a : Arr) (p : Pred) (f : VFields)
  | iand (a : Arr) (p : Pred) (f : VFields)
  | ior (a : Arr) (p : Pred) (f : VFields)
  | iadd (a : Arr) (p : Pred) (f : VFields)
  | iclt (a : Arr) (p : Pred) (f : VFields)
  | vld (a : Arr) (p : Pred) (vd : BitVec 5) (desc : BitVec 6)
  | vst (a : Arr) (p : Pred) (vs : BitVec 5) (desc : BitVec 6)
  | xsum (a : Arr) (p : Pred) (f : VFields)
  | bcast (a : Arr) (p : Pred) (f : VFields)
  | extr (a : Arr) (p : Pred) (f : VFields)
  | rsumrd (a : Arr) (p : Pred) (f : VFields)
  | rsumwr (a : Arr) (p : Pred) (f : VFields)
  | laneid (a : Arr) (p : Pred) (f : VFields)
  | gfrd (a : Arr) (p : Pred) (f : VFields)
  -- scalar and control
  | add (a : Arr) (p : Pred) (f : RForm)
  | sub (a : Arr) (p : Pred) (f : RForm)
  | andW (a : Arr) (p : Pred) (f : RForm)
  | orW (a : Arr) (p : Pred) (f : RForm)
  | xorW (a : Arr) (p : Pred) (f : RForm)
  | shl (a : Arr) (p : Pred) (f : RForm)
  | shr (a : Arr) (p : Pred) (f : RForm)
  | addi (a : Arr) (p : Pred) (sd sa : BitVec 5) (imm : BitVec 12)
  | lli (a : Arr) (p : Pred) (sd : BitVec 5) (imm : BitVec 16)
  | lui (a : Arr) (p : Pred) (sd : BitVec 5) (imm : BitVec 16)
  | mul (a : Arr) (p : Pred) (f : RForm)
  | ptset (a : Arr) (p : Pred) (pt : BitVec 4) (sa : BitVec 5)
  | ptcfg (a : Arr) (p : Pred) (pt : BitVec 4) (level : BitVec 2) (rewind : Bool) (sa : BitVec 5)
  | ptrd (a : Arr) (p : Pred) (sd : BitVec 5) (pt : BitVec 4)
  | ctset (a : Arr) (p : Pred) (ct : BitVec 3) (sa : BitVec 5)
  | ctadd (a : Arr) (p : Pred) (ct : BitVec 3) (imm : BitVec 16)
  | ctrd (a : Arr) (p : Pred) (sd : BitVec 5) (ct : BitVec 3)
  | cmpset (a : Arr) (p : Pred) (f : CmpSetFields)
  | repeatBody (a : Arr) (p : Pred) (body1 : BitVec 6) (csrc : Bool) (count1 : BitVec 12)
  | call (a : Arr) (p : Pred) (routine : BitVec 10)
  | ret (a : Arr) (p : Pred)
  | endTask (a : Arr) (p : Pred)
  | tepoch (a : Arr) (p : Pred)
  | astg (a : Arr) (p : Pred) (f : AstgFields)
  | dset (a : Arr) (p : Pred) (desc : BitVec 6) (sa : BitVec 5)
  | lbpost (a : Arr) (p : Pred) (obj : BitVec 13) (sa : BitVec 5)
  | lbwait (a : Arr) (p : Pred) (obj : BitVec 13) (sa : BitVec 5)
  | lbread (a : Arr) (p : Pred) (obj : BitVec 13) (sd : BitVec 5)
  | mbput (a : Arr) (p : Pred) (obj : BitVec 13) (sa : BitVec 5)
  | mbtake (a : Arr) (p : Pred) (obj : BitVec 13) (sd : BitVec 5)
  | collectionArrival (a : Arr) (p : Pred)
  | resume (fid : Fid) (g : Group) (v : Word)
  -- streams
  | sgo (a : Arr) (p : Pred) (e : BitVec 2) (entry : BitVec 5)
  | sadv (a : Arr) (p : Pred) (e : BitVec 2) (n1 : BitVec 8)
  | shalt (a : Arr) (p : Pred) (e : BitVec 2)
  | sfree (a : Arr) (p : Pred) (e : BitVec 2) (slot : BitVec 6)
  | scopy (a : Arr) (p : Pred) (e : BitVec 2) (dsrc ddst : BitVec 6)
  | streamMove (a : Arr) (e : BitVec 2)
  | streamNextbase (a : Arr) (e : BitVec 2)
  | streamPost (a : Arr) (e : BitVec 2)
  | sharedStoreDelivery (a : Arr) (arrived : Bool)
  -- memory port
  | memoryResponse (ch : Chan) (tag : BitVec 12) (status : BitVec 2) (form : RespForm)
  | memoryCreditReturn (ch : Chan) (n : Nat)
  | respTimeout (ch : Chan) (tag : BitVec 12)
  | orderedRelease (q : Queue)
  -- the array, with the answer to the reads of the walk
  | translationWalk (a : Arr × PortAnswer) (seq : BitVec 16) (page : BitVec 17)
  -- task ends: the answer to a vendor task's transactions; whether the receipt-log entry passes its parity check
  | taskEnd (a : Arr × PortAnswer)
  | attemptSeal (a : Arr)
  | abandonmentEnd (a : Arr × Bool)
  -- register rows
  | mbHput (fid : Fid) (v : Word)
  | letterboxSet (fid : Fid) (t : Ten) (slot : BitVec 8) (v : Word)
  | letterboxPost (fid : Fid) (t : Ten) (slot : BitVec 8) (v : Word)
  | dispStep (fid : Fid) (v : Word)
  | tenEnWrite (fid : Fid) (t : Ten) (v : Word)
  | hostMaskWrite (fid : Fid) (t : Ten) (v : Word)
  | poolEnWrite (fid : Fid) (v : Word)
  | initPool (fid : Fid) (v : Word)
  | initDone (pool : BitVec 4)
  | softBypWrite (fid : Fid) (g : Group) (v : Word)
  | audClear (fid : Fid) (g : Group) (v : Word)
  | flPop (fid : Fid) (v : Word)
  | dlPop (fid : Fid) (v : Word)
  | injArm (fid : Fid) (v : Word)
  | slFlush (fid : Fid) (v : Word)
  | phFlush (fid : Fid) (v : Word)
  | keyData (fid : Fid) (v : Word)
  | keyCommit (fid : Fid) (v : Word)
  | keyClear (fid : Fid) (v : Word)
  -- ring ports
  | linkEn (fid : Fid) (p : PortNo) (v : Word)
  | forceRetrain (fid : Fid) (p : PortNo) (v : Word)
  | retrain (p : PortNo)
  | chEnWrite (fid : Fid) (p : PortNo) (v : Word)
  | resSlotsWrite (fid : Fid) (p : PortNo) (v : Word)
  | credWrite (fid : Fid) (p : PortNo) (v : Word)
  | frameStart (p : PortNo)
  | sendMessageStart (p : PortNo) (ch : Chan)
  | dataPacket (p : PortNo) (pkt : Packet)
  | controlFlit (p : PortNo) (flit : CtlFlit)
  | landingStart (p : PortNo) (ch : Chan)
  | retryTimeout (p : PortNo)
  -- power and monitors
  | domReqWrite (fid : Fid) (v : Word)
  | powerAck (d : Nat)
  | domainSramZeroed (d : Nat)
  | pwrTimeout (d : Nat)
  | monitorRefresh (m : MonSample)
  | governorStep
  | meterApportion
  | capWindowEnd
  | thermalLimitStep (g : Group)
  | vmonOut (d : Nat)
  | vinSample (mv : Option (BitVec 16))
  | vinLost
  | holdExit
  | holdReq (fid : Fid) (v : Word)
  | tbLost
  -- resets
  | coldReset (cause : BitVec 2) (fuses : FuseImage)
  | blockReset (input : Option (Fid × Word))
  | blockDone
  | tenancyReset (fid : Fid) (v : Word)
  | tenDone
  | arrayReset (fid : Fid) (v : Word)
  | arrDone (failCol : Option (BitVec 4))
  | arrayRejoin (a : Arr)
  | unitReset (fid : Fid) (page : PageNo) (v : Word)
  -- debug
  | bypass
  | idcode
  | ieee1687Access (d : Nat) (ins : Instrument)
  | timeBaseValidRises
  | moduleLaneLoss (p : PortNo)
  | trainingAttemptIncomplete (p : PortNo)
deriving DecidableEq, Repr

end Sys2Proof
end

