-- ==== Sys2Proof/Config.lean ====
section
/-! DEFINITION. The figures of the T1024 (spec/01_organisation.md R13, spec/00_scope.md R3) and the values the spec leaves open,
as constants without a body. -/
namespace Sys2Proof

/-- The n-th byte drawn where the spec calls bytes unspecified (R10, R335); log 2. -/
opaque Config.freeByte : Nat → Byte
/-- The n-th word drawn where the spec states no value (log 2). -/
opaque Config.freeWord : Nat → Word
/-- Leakage term of a domain's power estimate in 0.1 W, from domain, the readings of its rail's two voltage monitors and its
hottest reading (R385, fused per part). -/
opaque Config.leakage : Nat → Nat → Nat → Nat → Nat
/-- Activity term of a domain's power estimate in 0.1 W, from domain, completed beats and bytes moved (R385, fused per part). -/
opaque Config.activity : Nat → Nat → Nat → Nat
/-- The lowest voltage code at which a domain's slowest line meets a pace in Mbeat/s, from domain, pace, what that line reads
now and what the rail reads now (R386, characterisation not given). -/
opaque Config.voltageFor : Nat → Nat → Nat → Nat → Nat
/-- The quadrant of a range reduction whose scaled argument is not finite (R112 gives none). -/
opaque Config.quadrant : Word → BitVec 2
/-- An element of the query file of a task, by task and index: no rule says what loads it (R104; log 40). -/
opaque Config.queryElem : Nat → Nat → BitVec 16
/-- Whether the query file of a task holds FP16 elements, or BF16 (R104; log 40). -/
opaque Config.queryFp16 : Nat → Bool
/-- The library ROM, by halfword address (R264: its contents are not given). -/
opaque Config.romHalf : Nat → BitVec 16

/-- Where a vendor routine stands in the library ROM, as a halfword address: taken modulo 0x10_0000, below which the ROM lies
(R264: not given; Table 10.17). -/
opaque Config.romBase : Nat → Nat
/-- The halfwords of a vendor routine (R264: not given). -/
opaque Config.romLen : Nat → Nat
/-- The program counter of a vendor routine in a beat: of an entry routine after so many beats of its task, of a helper with so many beats
left (R264: its words are not given). -/
opaque Config.romPc : Nat → Nat → Nat
/-- A vendor routine, so many beats into its task, still comes to the bundle of a vendor routine at a program counter (R264: its words are
not given). -/
opaque Config.romMeets : Nat → Nat → Nat → Nat → Bool
/-- The native words of a vendor routine (R264: not given). -/
opaque Config.romBundles : Nat → Nat

/-- Whether the carry that a DKV_IN value names, as it stands at a check, has a head dimension and a count of KV heads, by free-value
counter (R176: a carry holds neither). -/
opaque Config.carryMatches : Nat → Nat → Nat → Nat → Bool
/-- An element code of a draft row that was rewritten while a task reads it, by free-value counter, plane, place and element
(R223, R235). -/
opaque Config.draftCode : Nat → Nat → Nat → Nat → Nat

/-- FP32 word i of the gradient through the RMS normalisation of R157 of one query row, from the gradient with respect to its normalised
row, the row and the factor g: R157 gives the function, and no rule the roundings of its gradient (R264; log 33). -/
opaque Config.gradWord : List Word → List Word → Word → Nat → Word
/-- The FP32 sum of the terms of one element of DGAMMA, of which no rule gives the order (R264; log 33). -/
opaque Config.sumWord : List Word → Word

/-- Arrays of the block. -/
def Config.arrays : Nat := 1024
/-- Bytes of one array store (R13). -/
def Config.arrayStoreBytes : Nat := 0x100000
/-- Bytes of the shared store (R15). -/
def Config.sharedBytes : Nat := 0x10000000
/-- Receipt-log entries of one tenancy (R277). -/
def Config.receiptShare : Nat := 1024
/-- Receipt-log entries of the block (R366). -/
def Config.receiptEntries : Nat := 16384
/-- Entries of one submission queue (R270). -/
def Config.queueDepth : Nat := 256
/-- Handles of one mailbag (R282). -/
def Config.mailbagDepth : Nat := 64
/-- The latency profile of the part (R257). -/
def Config.profile : Nat := 1
/-- Tags of one memory channel (R323). -/
def Config.channelTags : Nat := 4096

end Sys2Proof
end

