-- ==== Sys2Proof/Machine/Table.lean ====
section
/-! DEFINITION. Sparse tables and byte stores: lists of (key, value) pairs in one canonical form. -/
namespace Sys2Proof.Machine

/-- A sparse table: keys strictly rising, no entry equal to the default of its table. -/
abbrev Tbl (α : Type) := List (Nat × α)

/-- The value at a key; the table's default `d` where nothing is listed. -/
def Tbl.get {α : Type} (d : α) (t : Tbl α) (k : Nat) : α :=
  match t with
  | [] => d
  | (k', v) :: r => if k' = k then v else Tbl.get d r k

/-- Puts `v` at `k`, keeping the keys rising. -/
def Tbl.insert {α : Type} (t : Tbl α) (k : Nat) (v : α) : Tbl α :=
  match t with
  | [] => [(k, v)]
  | (k', v') :: r =>
    if k < k' then (k, v) :: (k', v') :: r
    else if k = k' then (k, v) :: r
    else (k', v') :: Tbl.insert r k v

/-- Removes whatever stands at `k`. -/
def Tbl.erase {α : Type} (t : Tbl α) (k : Nat) : Tbl α := t.filter (fun e => decide (e.1 ≠ k))

/-- Writes `v` at `k`; writing the default removes the entry. -/
def Tbl.set {α : Type} [DecidableEq α] (d : α) (t : Tbl α) (k : Nat) (v : α) : Tbl α :=
  if v = d then t.erase k else t.insert k v

/-- Changes the value at `k` by `f`. -/
def Tbl.upd {α : Type} [DecidableEq α] (d : α) (t : Tbl α) (k : Nat) (f : α → α) : Tbl α :=
  t.set d k (f (t.get d k))

/-- The keys rise strictly. -/
def Tbl.rising {α : Type} (t : Tbl α) : Bool :=
  match t with
  | [] => true
  | [_] => true
  | a :: b :: r => decide (a.1 < b.1) && Tbl.rising (b :: r)

/-- The canonical form: rising keys, no default listed. -/
def Tbl.wf {α : Type} [DecidableEq α] (d : α) (t : Tbl α) : Bool :=
  Tbl.rising t && t.all (fun e => decide (e.2 ≠ d))

/-- Writes a list of values at successive keys. -/
def Tbl.setMany {α : Type} [DecidableEq α] (d : α) (t : Tbl α) (k : Nat) (vs : List α) : Tbl α :=
  match vs with
  | [] => t
  | v :: r => Tbl.setMany d (t.set d k v) (k + 1) r

/-- Reads `n` values at successive keys. -/
def Tbl.getMany {α : Type} (d : α) (t : Tbl α) (k n : Nat) : List α :=
  (List.range n).map (fun i => t.get d (k + i))

/-- Removes every entry with a key in `lo` to `hi - 1`. -/
def Tbl.clearRange {α : Type} (t : Tbl α) (lo hi : Nat) : Tbl α :=
  t.filter (fun e => decide (e.1 < lo ∨ hi ≤ e.1))

/-- Removes every entry whose key satisfies `p`. -/
def Tbl.clearWhere {α : Type} (t : Tbl α) (p : Nat → Bool) : Tbl α := t.filter (fun e => !p e.1)

/-- A byte store. What an unlisted address reads as is `Memory.blank`. -/
abbrev Memory := List Host.Cell

/-- What a byte that nothing has written reads as (log 1; DESIGN CHOICE for memory, R378 for the stores). -/
def Memory.blank : Byte := 0#8

/-- The canonical form of a byte store. -/
abbrev Memory.wf (m : Memory) : Bool := Tbl.wf Memory.blank m

/-- The byte at an address. -/
def Memory.byte (m : Memory) (a : Nat) : Byte := Tbl.get Memory.blank m a

/-- Writes one byte. -/
def Memory.put (m : Memory) (a : Nat) (b : Byte) : Memory := Tbl.set Memory.blank m a b

/-- `n` bytes from `a` upward. -/
def Memory.bytes (m : Memory) (a n : Nat) : List Byte := Tbl.getMany Memory.blank m a n

/-- Writes bytes from `a` upward. -/
def Memory.putBytes (m : Memory) (a : Nat) (bs : List Byte) : Memory := Tbl.setMany Memory.blank m a bs

/-- Zeroes the bytes `lo` to `hi - 1`. -/
def Memory.zeroRange (m : Memory) (lo hi : Nat) : Memory := Tbl.clearRange m lo hi

/-- Zeroes the bytes whose address satisfies `p`. -/
def Memory.zeroWhere (m : Memory) (p : Nat → Bool) : Memory := Tbl.clearWhere m p

/-- A little-endian number from its bytes (R7). -/
def leNat (bs : List Byte) : Nat :=
  match bs with
  | [] => 0
  | b :: r => b.toNat + 256 * leNat r

/-- The `n` little-endian bytes of a number (R7). -/
def leBytes (n v : Nat) : List Byte :=
  (List.range n).map (fun i => BitVec.ofNat 8 (v / 256 ^ i))

/-- Reads an `n`-byte little-endian number. -/
def Memory.le (m : Memory) (a n : Nat) : Nat := leNat (m.bytes a n)

/-- Writes an `n`-byte little-endian number. -/
def Memory.putLe (m : Memory) (a n v : Nat) : Memory := m.putBytes a (leBytes n v)

/-- Bits [msb:lsb] of a number (R6). -/
def bitsOf (v msb lsb : Nat) : Nat := v / 2 ^ lsb % 2 ^ (msb + 1 - lsb)

/-- Bit `i` of a number. -/
def bitOf (v i : Nat) : Bool := v / 2 ^ i % 2 == 1

/-- A signed number from its low `w` bits. -/
def signedOf (w v : Nat) : Int :=
  if v % 2 ^ w < 2 ^ (w - 1) then Int.ofNat (v % 2 ^ w) else Int.ofNat (v % 2 ^ w) - Int.ofNat (2 ^ w)

/-- One bit as a number. -/
def natOfBool (b : Bool) : Nat := if b then 1 else 0

/-- A saturating 32-bit count. -/
def satAdd32 (a b : Nat) : Nat := min (a + b) 0xFFFFFFFF

/-- Changes the element of a list at an index. -/
def listUpd {α : Type} (l : List α) (i : Nat) (f : α → α) : List α :=
  match l, i with
  | [], _ => []
  | a :: r, 0 => f a :: r
  | a :: r, n + 1 => a :: listUpd r n f

end Sys2Proof.Machine
end

