-- ==== Sys2Proof/Machine/Float.lean ====
section
/-! DEFINITION. The number formats and their exact arithmetic with one rounding (spec/03_numbers.md R48 to R53, R72, R73). -/
namespace Sys2Proof.Machine

/-- An exact value: NaN, a signed infinity, or (−1)^neg × mag × 2^exp; mag = 0 is a signed zero. -/
inductive Val where
  | nan
  | inf (neg : Bool)
  | fin (neg : Bool) (mag : Nat) (exp : Int)
deriving DecidableEq, Repr

/-- How a format treats its top codes (Table 3.1, Table 3.2). -/
inductive FmtKind where
  | ieee
  | e4m3
  | e2m1
deriving DecidableEq, Repr

/-- An element format of Table 3.1. -/
structure Fmt where
  ebits : Nat
  mbits : Nat
  bias : Nat
  kind : FmtKind
deriving DecidableEq, Repr

def fp32 : Fmt := ⟨8, 23, 127, .ieee⟩
def bf16 : Fmt := ⟨8, 7, 127, .ieee⟩
def fp16 : Fmt := ⟨5, 10, 15, .ieee⟩
def e5m2 : Fmt := ⟨5, 2, 15, .ieee⟩
def e4m3 : Fmt := ⟨4, 3, 7, .e4m3⟩
def e2m1 : Fmt := ⟨2, 1, 1, .e2m1⟩

/-- The bits of a format. -/
def Fmt.bits (f : Fmt) : Nat := 1 + f.ebits + f.mbits
/-- The bytes of one element (MX elements of 4 bits are handled by their owner). -/
def Fmt.bytes (f : Fmt) : Nat := f.bits / 8
/-- The exponent of the last place of a subnormal. -/
def Fmt.emin (f : Fmt) : Int := 1 - Int.ofNat f.bias - Int.ofNat f.mbits

/-- The canonical NaN (R49). E2M1 has none: 0 (R55). -/
def Fmt.canonNaN (f : Fmt) : Nat :=
  match f.kind with
  | .ieee => (2 ^ f.ebits - 1) * 2 ^ f.mbits + 2 ^ (f.mbits - 1)
  | .e4m3 => 0x7F
  | .e2m1 => 0

/-- The largest finite code, without its sign. -/
def Fmt.maxCode (f : Fmt) : Nat :=
  match f.kind with
  | .ieee => (2 ^ f.ebits - 1) * 2 ^ f.mbits - 1
  | .e4m3 => 0x7E
  | .e2m1 => 7

/-- The value of a code (R48). -/
def Fmt.decode (f : Fmt) (c : Nat) : Val :=
  let neg := bitOf c (f.ebits + f.mbits)
  let e := c / 2 ^ f.mbits % 2 ^ f.ebits
  let m := c % 2 ^ f.mbits
  let finite := if e = 0 then Val.fin neg m f.emin else Val.fin neg (2 ^ f.mbits + m) (f.emin + Int.ofNat (e - 1))
  match f.kind with
  | .ieee => if e = 2 ^ f.ebits - 1 then (if m = 0 then .inf neg else .nan) else finite
  | .e4m3 => if e = 15 ∧ m = 7 then .nan else finite
  | .e2m1 => finite

/-- The sign bit placed in a code. -/
def Fmt.signCode (f : Fmt) (neg : Bool) : Nat := if neg then 2 ^ (f.ebits + f.mbits) else 0

/-- floor(log2(n/d)) for n, d > 0. -/
def floorLog2 (n d : Nat) : Int :=
  let g : Int := Int.ofNat n.log2 - Int.ofNat d.log2
  let le : Bool := if 0 ≤ g then decide (d * 2 ^ g.toNat ≤ n) else decide (d ≤ n * 2 ^ (-g).toNat)
  if le then g else g - 1

/-- The code, without sign, of n/d × 2^x rounded once by roundTiesToEven (R50); may exceed `maxCode`. -/
def Fmt.roundCode (f : Fmt) (n d : Nat) (x : Int) : Nat :=
  if n = 0 then 0 else
  let q := max (floorLog2 n d + x - Int.ofNat f.mbits) f.emin
  let num := if q ≤ x then n * 2 ^ (x - q).toNat else n
  let den := if q ≤ x then d else d * 2 ^ (q - x).toNat
  let quo := num / den
  let rem := num % den
  let m := if den < 2 * rem ∨ (den = 2 * rem ∧ quo % 2 = 1) then quo + 1 else quo
  (q - f.emin).toNat * 2 ^ f.mbits + m

/-- Rounds ±n/d × 2^x to a format, with the overflow of Table 3.2. -/
def Fmt.roundRat (f : Fmt) (neg : Bool) (n d : Nat) (x : Int) : Nat :=
  let c := f.roundCode n d x
  f.signCode neg +
    (match f.kind with
     | .ieee => if f.maxCode < c then f.maxCode + 1 else c
     | _ => min c f.maxCode)

/-- Rounds an exact value to a format (R50, Table 3.2). -/
def Fmt.round (f : Fmt) (v : Val) : Nat :=
  match v with
  | .nan => f.canonNaN
  | .inf neg =>
    match f.kind with
    | .ieee => f.signCode neg + f.maxCode + 1
    | _ => f.canonNaN
  | .fin neg m x => f.roundRat neg m 1 x

/-- The exact product (R52, R61). -/
def Val.mul (a b : Val) : Val :=
  match a, b with
  | .nan, _ => .nan
  | _, .nan => .nan
  | .inf s, .inf t => .inf (s != t)
  | .inf s, .fin t m _ => if m = 0 then .nan else .inf (s != t)
  | .fin s m _, .inf t => if m = 0 then .nan else .inf (s != t)
  | .fin s m x, .fin t n y => .fin (s != t) (m * n) (x + y)

/-- The value with its sign inverted. -/
def Val.neg (a : Val) : Val :=
  match a with
  | .nan => .nan
  | .inf s => .inf (!s)
  | .fin s m x => .fin (!s) m x

/-- The magnitude. -/
def Val.abs (a : Val) : Val :=
  match a with
  | .nan => .nan
  | .inf _ => .inf false
  | .fin _ m x => .fin false m x

/-- The value times 2^n. -/
def Val.scale (a : Val) (n : Int) : Val :=
  match a with
  | .fin s m x => .fin s m (x + n)
  | v => v

/-- A finite value as an integer multiple of 2^x, where x is at most its exponent. -/
def Val.atExp (a : Val) (x : Int) : Int :=
  match a with
  | .fin s m y => let n := Int.ofNat (m * 2 ^ (y - x).toNat); if s then -n else n
  | _ => 0

/-- The smallest exponent among finite values. -/
def minExp (l : List Val) : Int :=
  l.foldl (fun x v => match v with | .fin _ _ y => min x y | _ => x) 0

def Val.isNaN (a : Val) : Bool := match a with | .nan => true | _ => false
def Val.isInf (a : Val) : Bool := match a with | .inf _ => true | _ => false
def Val.isFinite (a : Val) : Bool := match a with | .fin _ _ _ => true | _ => false
def Val.isZero (a : Val) : Bool := match a with | .fin _ m _ => m == 0 | _ => false
def Val.isNegZero (a : Val) : Bool := match a with | .fin s m _ => s && m == 0 | _ => false

/-- The exact sum of terms, with the special values of R61 and the zero sign of R52. -/
def exactSum (l : List Val) : Val :=
  if l.any Val.isNaN then .nan
  else if l.any (· == .inf false) && l.any (· == .inf true) then .nan
  else if l.any (· == .inf false) then .inf false
  else if l.any (· == .inf true) then .inf true
  else
    let x := minExp l
    let n : Int := l.foldl (fun acc v => acc + v.atExp x) 0
    if n = 0 then .fin (!l.isEmpty && l.all Val.isNegZero) 0 0
    else .fin (decide (n < 0)) n.natAbs x

/-- FP32 bits as an exact value. -/
def val32 (w : Word) : Val := fp32.decode w.toNat
/-- An exact value rounded to FP32. -/
def rne32 (v : Val) : Word := BitVec.ofNat 32 (fp32.round v)

/-- The FP32 canonical NaN (R49). -/
def nan32 : Word := 0x7FC00000#32
def one32 : Word := 0x3F800000#32
def inf32 : Word := 0x7F800000#32
def ninf32 : Word := 0xFF800000#32
def negZero32 : Word := 0x80000000#32

/-- FP32 addition, one rounding (R72). -/
def fadd (a b : Word) : Word := rne32 (exactSum [val32 a, val32 b])
/-- FP32 subtraction (R72). -/
def fsub (a b : Word) : Word := rne32 (exactSum [val32 a, (val32 b).neg])
/-- FP32 multiplication (R72). -/
def fmul (a b : Word) : Word := rne32 ((val32 a).mul (val32 b))
/-- a × b + c with one rounding (R72). -/
def ffma (a b c : Word) : Word := rne32 (exactSum [(val32 a).mul (val32 b), val32 c])
/-- −(a × b) + c with one rounding (R246). -/
def ffnma (a b c : Word) : Word := rne32 (exactSum [((val32 a).mul (val32 b)).neg, val32 c])

/-- The correctly rounded quotient in a format (R56, R58, R72). -/
def Fmt.div (f : Fmt) (a b : Val) : Nat :=
  match a, b with
  | .nan, _ => f.round .nan
  | _, .nan => f.round .nan
  | .inf _, .inf _ => f.round .nan
  | .inf s, .fin t _ _ => f.round (.inf (s != t))
  | .fin s _ _, .inf t => f.signCode (s != t)
  | .fin s m x, .fin t n y =>
    if n = 0 then (if m = 0 then f.round .nan else f.round (.inf (s != t)))
    else f.roundRat (s != t) m n (x - y)

/-- FP32 division, correctly rounded (R72). -/
def fdiv (a b : Word) : Word := BitVec.ofNat 32 (fp32.div (val32 a) (val32 b))

/-- a < b, exact; false where either is NaN; −0 and +0 are equal (R73). -/
def Val.lt (a b : Val) : Bool :=
  match a, b with
  | .nan, _ => false
  | _, .nan => false
  | .inf s, .inf t => s && !t
  | .inf s, .fin _ _ _ => s
  | .fin _ _ _, .inf t => !t
  | .fin s m x, .fin t n y =>
    let e := min x y
    decide ((Val.fin s m x).atExp e < (Val.fin t n y).atExp e)

/-- a ≤ b, false where either is NaN. -/
def Val.le (a b : Val) : Bool := !a.isNaN && !b.isNaN && !(b.lt a)

def flt (a b : Word) : Bool := (val32 a).lt (val32 b)
def fle (a b : Word) : Bool := (val32 a).le (val32 b)
def isNaN32 (a : Word) : Bool := (val32 a).isNaN
def isFinite32 (a : Word) : Bool := (val32 a).isFinite
def isZero32 (a : Word) : Bool := (val32 a).isZero

/-- Maximum: NaN if either is NaN, +0 above −0 (R73). -/
def fmax (a b : Word) : Word :=
  if isNaN32 a || isNaN32 b then nan32
  else if flt a b then b
  else if flt b a then a
  else if isZero32 a && a = negZero32 then b else a

/-- Minimum: NaN if either is NaN, −0 below +0 (R73). -/
def fmin (a b : Word) : Word :=
  if isNaN32 a || isNaN32 b then nan32
  else if flt a b then a
  else if flt b a then b
  else if isZero32 a && a = negZero32 then a else b

/-- The FP32 magnitude. -/
def fabs32 (a : Word) : Word := a &&& 0x7FFFFFFF#32
/-- The FP32 value with its sign inverted. -/
def fneg32 (a : Word) : Word := a ^^^ 0x80000000#32

/-- The format a descriptor's FMT or a DFMT code names for plain formats (Table 10.3). -/
def fmtOfCode (c : Nat) : Fmt :=
  match c with
  | 0 => fp32
  | 1 => bf16
  | 2 => fp16
  | 3 => e4m3
  | _ => e5m2

/-- FP32 converted to a plain format and held as FP32 again (R244, R246). -/
def cvtHeld (c : Nat) (a : Word) : Word :=
  if c = 0 then (if isNaN32 a then nan32 else a)
  else rne32 ((fmtOfCode c).decode ((fmtOfCode c).round (val32 a)))

/-- Floor of a finite value, as an integer. -/
def Val.floorInt (a : Val) : Int :=
  match a with
  | .fin s m x =>
    let n : Int := if s then -(Int.ofNat m) else Int.ofNat m
    if 0 ≤ x then n * Int.ofNat (2 ^ x.toNat) else n / Int.ofNat (2 ^ (-x).toNat)
  | _ => 0

/-- An integer as an exact value. -/
def Val.ofInt (n : Int) : Val := .fin (decide (n < 0)) n.natAbs 0

/-- A natural number converted to FP32 by RNE. -/
def natToFp32 (n : Nat) : Word := rne32 (.fin false n 0)

/-- The fixed five-level tree of R74 over a list of 2^k leaves: adjacent pairs are added at each level. -/
def treeLevel (l : List Word) : List Word :=
  match l with
  | a :: b :: r => fadd a b :: treeLevel r
  | r => r

/-- `n` levels of the tree. -/
def treeSum (n : Nat) (l : List Word) : Word :=
  match n with
  | 0 => l.headD 0#32
  | k + 1 => treeSum k (treeLevel l)

/-- The cross-lane sum of 32 lanes (R74). -/
def laneSum (l : List Word) : Word := treeSum 5 l

/-- One level of a maximum tree with the pairing of R74 (R230). -/
def maxLevel (l : List Word) : List Word :=
  match l with
  | a :: b :: r => fmax a b :: maxLevel r
  | r => r

/-- `n` levels of the maximum tree. -/
def treeMax (n : Nat) (l : List Word) : Word :=
  match n with
  | 0 => l.headD ninf32
  | k + 1 => treeMax k (maxLevel l)

end Sys2Proof.Machine
end

