-- ==== Sys2Proof/Machine/RegTable.lean ====
section
/-! DEFINITION. Every register field of the spec's register tables, as data (spec/17_register_pages.md R413 to R425 and
the tables each definition names). -/
namespace Sys2Proof.Machine

/-- The kinds of register page (Table 17.7). -/
inductive PageKind where
  | blk
  | pwr
  | mon
  | rst
  | ten
  | dsp
  | subq
  | lib
  | ftab
  | lbx
  | cache
  | walk
  | mport
  | ring
  | meter
  | fault
  | dlog
  | stamp
  | prog
  | time
  | cond
  | group
deriving DecidableEq, Repr

/-- Access codes (Table 17.6). -/
inductive Access where
  | rw
  | ro
  | wo
  | w1c
  | w1s
  | rwx
deriving DecidableEq, Repr

/-- Reset classes (R417); `none` for fields that hold no state. -/
inductive RClass where
  | c
  | b
  | t
  | u
  | f
  | none
deriving DecidableEq, Repr

/-- What one instance of a field belongs to: the object its page's selection names. -/
inductive Scope where
  | block
  | page
  | agent
  | array
  | ftArr
  | pool
  | routine
  | submitter
  | mailbag
  | tsDsp
  | queue
  | chan
  | memCh
  | tsMport
  | meterTen
  | stampTen
  | flSel
  | dlSel
  | dom
  | readerTen
deriving DecidableEq, Repr

/-- Who may write a field (R415 and the page's own rule): every mapped and bound host, the postmaster or a host of the
owning tenancy, the postmaster alone. -/
inductive WritePerm where
  | any
  | own
  | pm
deriving DecidableEq, Repr

/-- Who reads a field as other than zero (R343 and the page's own rule); `arrCur` and `violCh` are the fields that name an array
and a ring channel. -/
inductive Visible where
  | all
  | owner
  | pm
  | perArray
  | walkFault
  | errTen
  | arrCur
  | violCh
deriving DecidableEq, Repr

/-- One field of a register table. `stride` and `count` repeat it at off + stride × j for j < count. -/
structure FieldSpec where
  id : Nat
  page : PageKind
  off : Nat
  lsb : Nat
  width : Nat
  stride : Nat
  count : Nat
  acc : Access
  reset : Nat
  cls : RClass
  scope : Scope
  perm : WritePerm
  vis : Visible
deriving DecidableEq, Repr

/-- BLOCK_ID_LO (Table 17.9, R425). -/
def Reg.BLK_BLOCK_ID_LO : FieldSpec := ⟨0, .blk, 0x100, 0, 32, 0, 1, .ro, 0, .f, .block, .pm, .all⟩
/-- BLOCK_ID_HI (Table 17.9, R425). -/
def Reg.BLK_BLOCK_ID_HI : FieldSpec := ⟨1, .blk, 0x104, 0, 32, 0, 1, .ro, 0, .f, .block, .pm, .all⟩
/-- IDCODE_ONE (Table 17.9, R425). -/
def Reg.BLK_IDCODE_ONE : FieldSpec := ⟨2, .blk, 0x108, 0, 1, 0, 1, .ro, 1, .f, .block, .pm, .all⟩
/-- IDCODE (Table 17.9, R425). -/
def Reg.BLK_IDCODE : FieldSpec := ⟨3, .blk, 0x108, 1, 31, 0, 1, .ro, 0, .f, .block, .pm, .all⟩
/-- MEMBER (Table 17.9, R425). -/
def Reg.BLK_MEMBER : FieldSpec := ⟨4, .blk, 0x10C, 0, 4, 0, 1, .ro, 3, .f, .block, .pm, .all⟩
/-- STEPPING (Table 17.9, R425). -/
def Reg.BLK_STEPPING : FieldSpec := ⟨5, .blk, 0x10C, 8, 8, 0, 1, .ro, 0, .f, .block, .pm, .all⟩
/-- MY_FID (Table 17.9, R425). -/
def Reg.BLK_MY_FID : FieldSpec := ⟨6, .blk, 0x110, 0, 16, 0, 1, .ro, 0, .none, .block, .pm, .all⟩
/-- MY_AGENT (Table 17.9, R425). -/
def Reg.BLK_MY_AGENT : FieldSpec := ⟨7, .blk, 0x110, 16, 4, 0, 1, .ro, 0, .none, .block, .pm, .all⟩
/-- MAPPED (Table 17.9, R425). -/
def Reg.BLK_MAPPED : FieldSpec := ⟨8, .blk, 0x110, 20, 1, 0, 1, .ro, 0, .none, .block, .pm, .all⟩
/-- IS_PM (Table 17.9, R425). -/
def Reg.BLK_IS_PM : FieldSpec := ⟨9, .blk, 0x110, 21, 1, 0, 1, .ro, 0, .none, .block, .pm, .all⟩
/-- MY_TEN (Table 17.9, R425). -/
def Reg.BLK_MY_TEN : FieldSpec := ⟨10, .blk, 0x110, 22, 4, 0, 1, .ro, 0, .none, .block, .pm, .all⟩
/-- BOUND (Table 17.9, R425). -/
def Reg.BLK_BOUND : FieldSpec := ⟨11, .blk, 0x110, 26, 1, 0, 1, .ro, 0, .none, .block, .pm, .all⟩
/-- NEW_PM_FID (Table 17.9, R425). -/
def Reg.BLK_NEW_PM_FID : FieldSpec := ⟨12, .blk, 0x114, 0, 16, 0, 1, .wo, 0, .c, .block, .pm, .all⟩
/-- PM_KEY (Table 17.9, R425). -/
def Reg.BLK_PM_KEY : FieldSpec := ⟨13, .blk, 0x114, 24, 8, 0, 1, .wo, 0, .none, .block, .pm, .all⟩
/-- HOST_FID (Table 17.9, R425). -/
def Reg.BLK_HOST_FID : FieldSpec := ⟨14, .blk, 0x140, 0, 16, 4, 16, .rw, 0, .b, .block, .pm, .all⟩
/-- VALID (Table 17.9, R425). -/
def Reg.BLK_VALID : FieldSpec := ⟨15, .blk, 0x140, 16, 1, 4, 16, .rw, 0, .b, .block, .pm, .all⟩
/-- PV_CNT (Table 17.9, R425). -/
def Reg.BLK_PV_CNT : FieldSpec := ⟨16, .blk, 0x180, 0, 32, 0, 1, .ro, 0, .b, .block, .pm, .all⟩
/-- PV_ADDR (Table 17.9, R425). -/
def Reg.BLK_PV_ADDR : FieldSpec := ⟨17, .blk, 0x184, 0, 20, 0, 1, .ro, 0, .b, .block, .pm, .all⟩
/-- PV_REASON (Table 17.9, R425). -/
def Reg.BLK_PV_REASON : FieldSpec := ⟨18, .blk, 0x184, 20, 3, 0, 1, .ro, 0, .b, .block, .pm, .all⟩
/-- PV_VALID (Table 17.9, R425). -/
def Reg.BLK_PV_VALID : FieldSpec := ⟨19, .blk, 0x184, 31, 1, 0, 1, .w1c, 0, .b, .block, .pm, .all⟩
/-- PV_FID (Table 17.9, R425). -/
def Reg.BLK_PV_FID : FieldSpec := ⟨20, .blk, 0x188, 0, 16, 0, 1, .ro, 0, .b, .block, .pm, .all⟩
/-- EVQ_USED (Table 17.9, R425). -/
def Reg.BLK_EVQ_USED : FieldSpec := ⟨21, .blk, 0x18C, 0, 9, 0, 1, .ro, 0, .b, .block, .pm, .all⟩
/-- EVQ_CREDITS (Table 17.9, R425). -/
def Reg.BLK_EVQ_CREDITS : FieldSpec := ⟨22, .blk, 0x18C, 16, 9, 0, 1, .ro, 0, .b, .block, .pm, .all⟩
/-- ROUTE_DROP_CNT (Table 17.9, R425). -/
def Reg.BLK_ROUTE_DROP_CNT : FieldSpec := ⟨23, .blk, 0x190, 0, 32, 0, 1, .ro, 0, .b, .block, .pm, .all⟩
/-- EVT_LOST_CNT (Table 17.9, R425). -/
def Reg.BLK_EVT_LOST_CNT : FieldSpec := ⟨24, .blk, 0x194, 0, 32, 0, 1, .ro, 0, .b, .block, .pm, .all⟩
/-- MAP_REFUSED (Table 17.9, R425). -/
def Reg.BLK_MAP_REFUSED : FieldSpec := ⟨25, .blk, 0x198, 0, 1, 0, 1, .w1c, 0, .b, .block, .pm, .all⟩
/-- DOM_SEL (Table 16.9, R398). -/
def Reg.PWR_DOM_SEL : FieldSpec := ⟨26, .pwr, 0x100, 0, 5, 0, 1, .rw, 0, .b, .agent, .any, .all⟩
/-- DOM_REQ (Table 16.9, R398). -/
def Reg.PWR_DOM_REQ : FieldSpec := ⟨27, .pwr, 0x104, 0, 2, 0, 1, .rw, 2, .c, .dom, .pm, .all⟩
/-- DOM_STATE (Table 16.9, R398). -/
def Reg.PWR_DOM_STATE : FieldSpec := ⟨28, .pwr, 0x104, 2, 3, 0, 1, .ro, 0, .c, .dom, .pm, .all⟩
/-- REFUSED (Table 16.9, R398). -/
def Reg.PWR_REFUSED : FieldSpec := ⟨29, .pwr, 0x104, 5, 1, 0, 1, .ro, 0, .c, .dom, .pm, .all⟩
/-- WHY (Table 16.9, R398). -/
def Reg.PWR_WHY : FieldSpec := ⟨30, .pwr, 0x104, 6, 3, 0, 1, .ro, 0, .c, .dom, .pm, .all⟩
/-- V_REQ (Table 16.9, R398). -/
def Reg.PWR_V_REQ : FieldSpec := ⟨31, .pwr, 0x108, 0, 8, 0, 1, .ro, 0, .c, .dom, .pm, .all⟩
/-- PACE_TGT (Table 16.9, R398). -/
def Reg.PWR_PACE_TGT : FieldSpec := ⟨32, .pwr, 0x10C, 0, 11, 0, 1, .rw, 1000, .c, .dom, .pm, .all⟩
/-- P_EST (Table 16.9, R398). -/
def Reg.PWR_P_EST : FieldSpec := ⟨33, .pwr, 0x110, 0, 16, 0, 1, .ro, 0, .c, .dom, .pm, .all⟩
/-- POWER_CAP (Table 16.9, R398). -/
def Reg.PWR_POWER_CAP : FieldSpec := ⟨34, .pwr, 0x114, 0, 12, 0, 1, .rw, 1200, .c, .block, .pm, .all⟩
/-- P_TOTAL (Table 16.9, R398). -/
def Reg.PWR_P_TOTAL : FieldSpec := ⟨35, .pwr, 0x118, 0, 16, 0, 1, .ro, 0, .c, .block, .pm, .all⟩
/-- CAP_LIMIT (Table 16.9, R398). -/
def Reg.PWR_CAP_LIMIT : FieldSpec := ⟨36, .pwr, 0x118, 16, 11, 0, 1, .ro, 1300, .c, .block, .pm, .all⟩
/-- HOLD_REQ (Table 16.9, R398). -/
def Reg.PWR_HOLD_REQ : FieldSpec := ⟨37, .pwr, 0x11C, 0, 1, 0, 1, .rw, 0, .c, .block, .pm, .all⟩
/-- HOLD (Table 16.9, R398). -/
def Reg.PWR_HOLD : FieldSpec := ⟨38, .pwr, 0x11C, 1, 1, 0, 1, .ro, 0, .c, .block, .pm, .all⟩
/-- HOLD_WHY (Table 16.9, R398). -/
def Reg.PWR_HOLD_WHY : FieldSpec := ⟨39, .pwr, 0x11C, 2, 3, 0, 1, .ro, 0, .c, .block, .pm, .all⟩
/-- CAP_WINDOW (Table 16.10, R398). -/
def Reg.PWR_CAP_WINDOW : FieldSpec := ⟨40, .pwr, 0x900, 0, 16, 0, 1, .rwx, 100, .u, .block, .pm, .all⟩
/-- PWR_TIMEOUT (Table 16.10, R398). -/
def Reg.PWR_PWR_TIMEOUT : FieldSpec := ⟨41, .pwr, 0x904, 0, 16, 0, 1, .rwx, 1000, .u, .block, .pm, .all⟩
/-- V_OVR (Table 16.10, R398). -/
def Reg.PWR_V_OVR : FieldSpec := ⟨42, .pwr, 0x908, 0, 8, 0, 1, .rwx, 140, .u, .dom, .pm, .all⟩
/-- V_OVR_EN (Table 16.10, R398). -/
def Reg.PWR_V_OVR_EN : FieldSpec := ⟨43, .pwr, 0x908, 8, 1, 0, 1, .rwx, 0, .u, .dom, .pm, .all⟩
/-- MON_IDX (Table 16.11, R399). -/
def Reg.MON_MON_IDX : FieldSpec := ⟨44, .mon, 0x100, 0, 7, 0, 1, .rw, 0, .b, .agent, .any, .all⟩
/-- MON_KIND (Table 16.11, R399). -/
def Reg.MON_MON_KIND : FieldSpec := ⟨45, .mon, 0x100, 7, 2, 0, 1, .rw, 0, .b, .agent, .any, .all⟩
/-- READING (Table 16.11, R399). -/
def Reg.MON_READING : FieldSpec := ⟨46, .mon, 0x104, 0, 16, 0, 1, .ro, 0, .c, .block, .pm, .all⟩
/-- READING2 (Table 16.11, R399). -/
def Reg.MON_READING2 : FieldSpec := ⟨47, .mon, 0x104, 16, 16, 0, 1, .ro, 0, .c, .block, .pm, .all⟩
/-- TJ_HOT (Table 16.11, R399). -/
def Reg.MON_TJ_HOT : FieldSpec := ⟨48, .mon, 0x108, 0, 16, 0, 1, .ro, 0, .c, .block, .pm, .all⟩
/-- TJ_HOT_IDX (Table 16.11, R399). -/
def Reg.MON_TJ_HOT_IDX : FieldSpec := ⟨49, .mon, 0x108, 16, 6, 0, 1, .ro, 0, .c, .block, .pm, .all⟩
/-- TJ_THROTTLE (Table 16.11, R399). -/
def Reg.MON_TJ_THROTTLE : FieldSpec := ⟨50, .mon, 0x10C, 0, 16, 0, 1, .rw, 380, .c, .block, .pm, .all⟩
/-- TJ_CRIT (Table 16.11, R399). -/
def Reg.MON_TJ_CRIT : FieldSpec := ⟨51, .mon, 0x10C, 16, 16, 0, 1, .rw, 440, .c, .block, .pm, .all⟩
/-- VIN (Table 16.11, R399). -/
def Reg.MON_VIN : FieldSpec := ⟨52, .mon, 0x110, 0, 16, 0, 1, .ro, 0, .c, .block, .pm, .all⟩
/-- VIN_VALID (Table 16.11, R399). -/
def Reg.MON_VIN_VALID : FieldSpec := ⟨53, .mon, 0x110, 16, 1, 0, 1, .ro, 0, .c, .block, .pm, .all⟩
/-- VIN_WARN_LO (Table 16.11, R399). -/
def Reg.MON_VIN_WARN_LO : FieldSpec := ⟨54, .mon, 0x114, 0, 16, 0, 1, .rw, 46000, .c, .block, .pm, .all⟩
/-- VIN_WARN_HI (Table 16.11, R399). -/
def Reg.MON_VIN_WARN_HI : FieldSpec := ⟨55, .mon, 0x114, 16, 16, 0, 1, .rw, 56000, .c, .block, .pm, .all⟩
/-- VIN_HOLD (Table 16.11, R399). -/
def Reg.MON_VIN_HOLD : FieldSpec := ⟨56, .mon, 0x118, 0, 16, 0, 1, .rw, 42000, .c, .block, .pm, .all⟩
/-- VIN_RESUME (Table 16.11, R399). -/
def Reg.MON_VIN_RESUME : FieldSpec := ⟨57, .mon, 0x118, 16, 16, 0, 1, .rw, 44000, .c, .block, .pm, .all⟩
/-- HOLD_DWELL (Table 16.11, R399). -/
def Reg.MON_HOLD_DWELL : FieldSpec := ⟨58, .mon, 0x11C, 0, 16, 0, 1, .rw, 50, .c, .block, .pm, .all⟩
/-- V_WIN (Table 16.11, R399). -/
def Reg.MON_V_WIN : FieldSpec := ⟨59, .mon, 0x11C, 16, 8, 0, 1, .rw, 25, .c, .block, .pm, .all⟩
/-- VMON_OUT (Table 16.11, R399). -/
def Reg.MON_VMON_OUT : FieldSpec := ⟨60, .mon, 0x120, 0, 24, 0, 1, .w1c, 0, .c, .block, .pm, .all⟩
/-- BLOCK_GO (Table 16.12, R400). -/
def Reg.RST_BLOCK_GO : FieldSpec := ⟨61, .rst, 0x100, 0, 1, 0, 1, .wo, 0, .none, .block, .pm, .all⟩
/-- KEY (Table 16.12, R400). -/
def Reg.RST_KEY : FieldSpec := ⟨62, .rst, 0x100, 8, 8, 0, 1, .wo, 0, .none, .block, .pm, .all⟩
/-- TEN_NUM (Table 16.12, R400). -/
def Reg.RST_TEN_NUM : FieldSpec := ⟨63, .rst, 0x104, 0, 4, 0, 1, .wo, 0, .none, .block, .pm, .all⟩
/-- TEN_GO (Table 16.12, R400). -/
def Reg.RST_TEN_GO : FieldSpec := ⟨64, .rst, 0x104, 4, 1, 0, 1, .wo, 0, .none, .block, .pm, .all⟩
/-- ARR_NUM (Table 16.12, R400). -/
def Reg.RST_ARR_NUM : FieldSpec := ⟨65, .rst, 0x108, 0, 10, 0, 1, .wo, 0, .none, .block, .pm, .all⟩
/-- ARR_GO (Table 16.12, R400). -/
def Reg.RST_ARR_GO : FieldSpec := ⟨66, .rst, 0x108, 10, 1, 0, 1, .wo, 0, .none, .block, .pm, .all⟩
/-- BLOCK_BUSY (Table 16.12, R400). -/
def Reg.RST_BLOCK_BUSY : FieldSpec := ⟨67, .rst, 0x10C, 0, 1, 0, 1, .ro, 0, .c, .block, .pm, .all⟩
/-- TEN_BUSY (Table 16.12, R400). -/
def Reg.RST_TEN_BUSY : FieldSpec := ⟨68, .rst, 0x10C, 1, 1, 0, 1, .ro, 0, .c, .block, .pm, .all⟩
/-- ARR_BUSY (Table 16.12, R400). -/
def Reg.RST_ARR_BUSY : FieldSpec := ⟨69, .rst, 0x10C, 2, 1, 0, 1, .ro, 0, .c, .block, .pm, .all⟩
/-- REFUSED (Table 16.12, R400). -/
def Reg.RST_REFUSED : FieldSpec := ⟨70, .rst, 0x10C, 3, 1, 0, 1, .w1c, 0, .c, .block, .pm, .all⟩
/-- TEN_CUR (Table 16.12, R400). -/
def Reg.RST_TEN_CUR : FieldSpec := ⟨71, .rst, 0x10C, 16, 4, 0, 1, .ro, 0, .c, .block, .pm, .all⟩
/-- ARR_CUR (Table 16.12, R400). -/
def Reg.RST_ARR_CUR : FieldSpec := ⟨72, .rst, 0x110, 0, 10, 0, 1, .ro, 0, .c, .block, .pm, .arrCur⟩
/-- ARR_RESULT (Table 16.12, R400). -/
def Reg.RST_ARR_RESULT : FieldSpec := ⟨73, .rst, 0x110, 10, 2, 0, 1, .ro, 0, .c, .block, .pm, .all⟩
/-- ARR_FCOL (Table 16.12, R400). -/
def Reg.RST_ARR_FCOL : FieldSpec := ⟨74, .rst, 0x110, 12, 4, 0, 1, .ro, 0, .c, .block, .pm, .all⟩
/-- REJOIN_PEND (Table 16.12, R400). -/
def Reg.RST_REJOIN_PEND : FieldSpec := ⟨75, .rst, 0x110, 16, 1, 0, 1, .ro, 0, .c, .block, .pm, .all⟩
/-- COLD_CAUSE (Table 16.12, R400). -/
def Reg.RST_COLD_CAUSE : FieldSpec := ⟨76, .rst, 0x114, 0, 2, 0, 1, .ro, 0, .c, .block, .pm, .all⟩
/-- DBG_LOCK (Table 16.12, R400). -/
def Reg.RST_DBG_LOCK : FieldSpec := ⟨77, .rst, 0x118, 0, 1, 0, 1, .w1s, 0, .c, .block, .pm, .all⟩
/-- BIST_SKIP (Table 16.13, R400). -/
def Reg.RST_BIST_SKIP : FieldSpec := ⟨78, .rst, 0x900, 0, 1, 0, 1, .rwx, 0, .u, .block, .pm, .all⟩
/-- EN (Table 14.5, R354). -/
def Reg.TEN_EN : FieldSpec := ⟨79, .ten, 0x100, 0, 1, 0, 1, .rw, 0, .b, .page, .pm, .owner⟩
/-- CFG_OVERLAP (Table 14.5, R354). -/
def Reg.TEN_CFG_OVERLAP : FieldSpec := ⟨80, .ten, 0x100, 1, 1, 0, 1, .ro, 0, .b, .page, .pm, .owner⟩
/-- HOST_MASK (Table 14.5, R354). -/
def Reg.TEN_HOST_MASK : FieldSpec := ⟨81, .ten, 0x104, 0, 16, 0, 1, .rw, 0, .b, .page, .pm, .owner⟩
/-- ARR_UNITS_LO (Table 14.5, R354). -/
def Reg.TEN_ARR_UNITS_LO : FieldSpec := ⟨82, .ten, 0x108, 0, 32, 0, 1, .rw, 0, .b, .page, .pm, .owner⟩
/-- ARR_UNITS_HI (Table 14.5, R354). -/
def Reg.TEN_ARR_UNITS_HI : FieldSpec := ⟨83, .ten, 0x10C, 0, 32, 0, 1, .rw, 0, .b, .page, .pm, .owner⟩
/-- USABLE (Table 14.5, R354). -/
def Reg.TEN_USABLE : FieldSpec := ⟨84, .ten, 0x110, 0, 11, 0, 1, .ro, 0, .b, .page, .pm, .owner⟩
/-- SS_BASE (Table 14.5, R354). -/
def Reg.TEN_SS_BASE : FieldSpec := ⟨85, .ten, 0x114, 0, 12, 0, 1, .rw, 0, .b, .page, .pm, .owner⟩
/-- SS_SIZE (Table 14.5, R354). -/
def Reg.TEN_SS_SIZE : FieldSpec := ⟨86, .ten, 0x114, 16, 13, 0, 1, .rw, 0, .b, .page, .pm, .owner⟩
/-- LB_FIRST (Table 14.5, R354). -/
def Reg.TEN_LB_FIRST : FieldSpec := ⟨87, .ten, 0x118, 0, 13, 0, 1, .rw, 0, .b, .page, .pm, .owner⟩
/-- LB_SIZE (Table 14.5, R354). -/
def Reg.TEN_LB_SIZE : FieldSpec := ⟨88, .ten, 0x118, 16, 14, 0, 1, .rw, 0, .b, .page, .pm, .owner⟩
/-- MB_FIRST (Table 14.5, R354). -/
def Reg.TEN_MB_FIRST : FieldSpec := ⟨89, .ten, 0x11C, 0, 8, 0, 1, .rw, 0, .b, .page, .pm, .owner⟩
/-- MB_SIZE (Table 14.5, R354). -/
def Reg.TEN_MB_SIZE : FieldSpec := ⟨90, .ten, 0x11C, 8, 9, 0, 1, .rw, 0, .b, .page, .pm, .owner⟩
/-- WV_CNT (Table 14.5, R354). -/
def Reg.TEN_WV_CNT : FieldSpec := ⟨91, .ten, 0x120, 0, 32, 0, 1, .ro, 0, .t, .page, .pm, .owner⟩
/-- SV_CNT (Table 14.5, R354). -/
def Reg.TEN_SV_CNT : FieldSpec := ⟨92, .ten, 0x124, 0, 32, 0, 1, .ro, 0, .t, .page, .pm, .owner⟩
/-- VIOL_ADDR_LO (Table 14.5, R354). -/
def Reg.TEN_VIOL_ADDR_LO : FieldSpec := ⟨93, .ten, 0x128, 0, 32, 0, 1, .ro, 0, .t, .page, .pm, .owner⟩
/-- VIOL_ADDR_HI (Table 14.5, R354). -/
def Reg.TEN_VIOL_ADDR_HI : FieldSpec := ⟨94, .ten, 0x12C, 0, 16, 0, 1, .ro, 0, .t, .page, .pm, .owner⟩
/-- VIOL_KIND (Table 14.5, R354). -/
def Reg.TEN_VIOL_KIND : FieldSpec := ⟨95, .ten, 0x12C, 16, 2, 0, 1, .ro, 0, .t, .page, .pm, .owner⟩
/-- VIOL_VALID (Table 14.5, R354). -/
def Reg.TEN_VIOL_VALID : FieldSpec := ⟨96, .ten, 0x12C, 31, 1, 0, 1, .w1c, 0, .t, .page, .own, .owner⟩
/-- WBASE_LO (Table 14.5, R354). -/
def Reg.TEN_WBASE_LO : FieldSpec := ⟨97, .ten, 0x140, 12, 20, 16, 8, .rw, 0, .b, .page, .pm, .owner⟩
/-- WBASE_HI (Table 14.5, R354). -/
def Reg.TEN_WBASE_HI : FieldSpec := ⟨98, .ten, 0x144, 0, 16, 16, 8, .rw, 0, .b, .page, .pm, .owner⟩
/-- WEN (Table 14.5, R354). -/
def Reg.TEN_WEN : FieldSpec := ⟨99, .ten, 0x144, 31, 1, 16, 8, .rw, 0, .b, .page, .pm, .owner⟩
/-- WLIM_LO (Table 14.5, R354). -/
def Reg.TEN_WLIM_LO : FieldSpec := ⟨100, .ten, 0x148, 12, 20, 16, 8, .rw, 0, .b, .page, .pm, .owner⟩
/-- WLIM_HI (Table 14.5, R354). -/
def Reg.TEN_WLIM_HI : FieldSpec := ⟨101, .ten, 0x14C, 0, 16, 16, 8, .rw, 0, .b, .page, .pm, .owner⟩
/-- SUB_SEL (Table 11.7, R295). -/
def Reg.DSP_SUB_SEL : FieldSpec := ⟨102, .dsp, 0x100, 0, 8, 0, 1, .rw, 0, .b, .agent, .any, .all⟩
/-- SUB_EN (Table 11.7, R295). -/
def Reg.DSP_SUB_EN : FieldSpec := ⟨103, .dsp, 0x104, 0, 1, 0, 1, .rw, 0, .b, .submitter, .pm, .owner⟩
/-- SUB_TEN (Table 11.7, R295). -/
def Reg.DSP_SUB_TEN : FieldSpec := ⟨104, .dsp, 0x104, 1, 4, 0, 1, .rw, 0, .b, .submitter, .pm, .owner⟩
/-- SUB_ID (Table 11.7, R295). -/
def Reg.DSP_SUB_ID : FieldSpec := ⟨105, .dsp, 0x104, 16, 16, 0, 1, .rw, 0, .b, .submitter, .pm, .owner⟩
/-- SUB_HC_LO (Table 11.7, R295). -/
def Reg.DSP_SUB_HC_LO : FieldSpec := ⟨106, .dsp, 0x108, 0, 32, 0, 1, .ro, 0, .t, .submitter, .pm, .owner⟩
/-- SUB_HC_HI (Table 11.7, R295). -/
def Reg.DSP_SUB_HC_HI : FieldSpec := ⟨107, .dsp, 0x10C, 0, 16, 0, 1, .ro, 0, .t, .submitter, .pm, .owner⟩
/-- WIN_USED (Table 11.7, R295). -/
def Reg.DSP_WIN_USED : FieldSpec := ⟨108, .dsp, 0x110, 0, 7, 0, 1, .ro, 0, .t, .submitter, .pm, .owner⟩
/-- WIN_INFLIGHT (Table 11.7, R295). -/
def Reg.DSP_WIN_INFLIGHT : FieldSpec := ⟨109, .dsp, 0x110, 8, 7, 0, 1, .ro, 0, .t, .submitter, .pm, .owner⟩
/-- SUB_FLOOR_LO (Table 11.7, R295). -/
def Reg.DSP_SUB_FLOOR_LO : FieldSpec := ⟨110, .dsp, 0x114, 0, 32, 0, 1, .ro, 0, .t, .submitter, .pm, .owner⟩
/-- SUB_FLOOR_HI (Table 11.7, R295). -/
def Reg.DSP_SUB_FLOOR_HI : FieldSpec := ⟨111, .dsp, 0x118, 0, 16, 0, 1, .ro, 0, .t, .submitter, .pm, .owner⟩
/-- MB_SEL (Table 11.7, R295). -/
def Reg.DSP_MB_SEL : FieldSpec := ⟨112, .dsp, 0x11C, 0, 8, 0, 1, .rw, 0, .b, .agent, .any, .all⟩
/-- MB_COUNT (Table 11.7, R295). -/
def Reg.DSP_MB_COUNT : FieldSpec := ⟨113, .dsp, 0x120, 0, 7, 0, 1, .ro, 0, .t, .mailbag, .own, .owner⟩
/-- MB_WAITERS (Table 11.7, R295). -/
def Reg.DSP_MB_WAITERS : FieldSpec := ⟨114, .dsp, 0x120, 7, 6, 0, 1, .ro, 0, .t, .mailbag, .own, .owner⟩
/-- HPUT_DROP (Table 11.7, R295). -/
def Reg.DSP_HPUT_DROP : FieldSpec := ⟨115, .dsp, 0x120, 16, 1, 0, 1, .w1c, 0, .t, .mailbag, .own, .owner⟩
/-- MB_HPUT (Table 11.7, R295). -/
def Reg.DSP_MB_HPUT : FieldSpec := ⟨116, .dsp, 0x124, 0, 32, 0, 1, .wo, 0, .t, .mailbag, .own, .owner⟩
/-- TS_SEL (Table 11.7, R295). -/
def Reg.DSP_TS_SEL : FieldSpec := ⟨117, .dsp, 0x128, 0, 4, 0, 1, .rw, 0, .b, .agent, .any, .all⟩
/-- COL_GEN (Table 11.7, R295). -/
def Reg.DSP_COL_GEN : FieldSpec := ⟨118, .dsp, 0x12C, 0, 16, 0, 1, .ro, 0, .t, .tsDsp, .own, .owner⟩
/-- COL_ARRIVED (Table 11.7, R295). -/
def Reg.DSP_COL_ARRIVED : FieldSpec := ⟨119, .dsp, 0x12C, 16, 11, 0, 1, .ro, 0, .t, .tsDsp, .own, .owner⟩
/-- COL_NEED (Table 11.7, R295). -/
def Reg.DSP_COL_NEED : FieldSpec := ⟨120, .dsp, 0x130, 0, 11, 0, 1, .ro, 0, .t, .tsDsp, .own, .owner⟩
/-- DISP_HOLD (Table 11.7, R295). -/
def Reg.DSP_DISP_HOLD : FieldSpec := ⟨121, .dsp, 0x130, 16, 1, 0, 1, .ro, 0, .t, .tsDsp, .own, .owner⟩
/-- RCPT_USED (Table 11.7, R295). -/
def Reg.DSP_RCPT_USED : FieldSpec := ⟨122, .dsp, 0x134, 0, 11, 0, 1, .ro, 0, .t, .tsDsp, .own, .owner⟩
/-- DISP_PAUSE (Table 11.8, R295). -/
def Reg.DSP_DISP_PAUSE : FieldSpec := ⟨123, .dsp, 0x900, 0, 1, 0, 1, .rwx, 0, .u, .block, .pm, .all⟩
/-- DISP_STEP (Table 11.8, R295). -/
def Reg.DSP_DISP_STEP : FieldSpec := ⟨124, .dsp, 0x900, 1, 1, 0, 1, .wo, 0, .u, .block, .pm, .all⟩
/-- SQ_SEL (Table 11.9, R296). -/
def Reg.SUBQ_SQ_SEL : FieldSpec := ⟨125, .subq, 0x100, 0, 6, 0, 1, .rw, 0, .b, .agent, .any, .all⟩
/-- DEPTH (Table 11.9, R296). -/
def Reg.SUBQ_DEPTH : FieldSpec := ⟨126, .subq, 0x104, 0, 9, 0, 1, .ro, 0, .t, .queue, .own, .owner⟩
/-- EN (Table 11.9, R296). -/
def Reg.SUBQ_EN : FieldSpec := ⟨127, .subq, 0x104, 9, 1, 0, 1, .rw, 0, .t, .queue, .own, .owner⟩
/-- HELD (Table 11.9, R296). -/
def Reg.SUBQ_HELD : FieldSpec := ⟨128, .subq, 0x104, 10, 1, 0, 1, .ro, 0, .t, .queue, .own, .owner⟩
/-- TEN (Table 11.9, R296). -/
def Reg.SUBQ_TEN : FieldSpec := ⟨129, .subq, 0x104, 11, 4, 0, 1, .ro, 0, .f, .queue, .own, .owner⟩
/-- FREE (Table 11.9, R296). -/
def Reg.SUBQ_FREE : FieldSpec := ⟨130, .subq, 0x108, 0, 9, 0, 1, .ro, 256, .t, .queue, .own, .owner⟩
/-- ACCEPTED (Table 11.9, R296). -/
def Reg.SUBQ_ACCEPTED : FieldSpec := ⟨131, .subq, 0x10C, 0, 32, 0, 1, .ro, 0, .t, .queue, .own, .owner⟩
/-- OVERPOST_CNT (Table 11.9, R296). -/
def Reg.SUBQ_OVERPOST_CNT : FieldSpec := ⟨132, .subq, 0x110, 0, 32, 0, 1, .ro, 0, .t, .queue, .own, .owner⟩
/-- OP_SEQ_LO (Table 11.9, R296). -/
def Reg.SUBQ_OP_SEQ_LO : FieldSpec := ⟨133, .subq, 0x114, 0, 32, 0, 1, .ro, 0, .t, .queue, .own, .owner⟩
/-- OP_SEQ_HI (Table 11.9, R296). -/
def Reg.SUBQ_OP_SEQ_HI : FieldSpec := ⟨134, .subq, 0x118, 0, 16, 0, 1, .ro, 0, .t, .queue, .own, .owner⟩
/-- OP_SUB (Table 11.9, R296). -/
def Reg.SUBQ_OP_SUB : FieldSpec := ⟨135, .subq, 0x118, 16, 16, 0, 1, .ro, 0, .t, .queue, .own, .owner⟩
/-- OP_VALID (Table 11.9, R296). -/
def Reg.SUBQ_OP_VALID : FieldSpec := ⟨136, .subq, 0x11C, 0, 1, 0, 1, .w1c, 0, .t, .queue, .own, .owner⟩
/-- OP_PEND_LO (Table 11.9, R296). -/
def Reg.SUBQ_OP_PEND_LO : FieldSpec := ⟨137, .subq, 0x120, 0, 32, 0, 1, .w1c, 0, .b, .block, .own, .pm⟩
/-- OP_PEND_HI (Table 11.9, R296). -/
def Reg.SUBQ_OP_PEND_HI : FieldSpec := ⟨138, .subq, 0x124, 0, 32, 0, 1, .w1c, 0, .b, .block, .own, .pm⟩
/-- FD_HOST (Table 11.9, R296). -/
def Reg.SUBQ_FD_HOST : FieldSpec := ⟨139, .subq, 0x128, 0, 16, 0, 1, .ro, 0, .b, .block, .pm, .pm⟩
/-- FD_QUEUE (Table 11.9, R296). -/
def Reg.SUBQ_FD_QUEUE : FieldSpec := ⟨140, .subq, 0x128, 16, 6, 0, 1, .ro, 0, .b, .block, .pm, .pm⟩
/-- FD_VALID (Table 11.9, R296). -/
def Reg.SUBQ_FD_VALID : FieldSpec := ⟨141, .subq, 0x128, 31, 1, 0, 1, .w1c, 0, .b, .block, .pm, .pm⟩
/-- RT_SEL (Table 10.17, R265). -/
def Reg.LIB_RT_SEL : FieldSpec := ⟨142, .lib, 0x100, 0, 10, 0, 1, .rw, 0, .b, .agent, .any, .all⟩
/-- KIND (Table 10.17, R265). -/
def Reg.LIB_KIND : FieldSpec := ⟨143, .lib, 0x104, 0, 2, 0, 1, .ro, 0, .t, .routine, .pm, .owner⟩
/-- NARROW_OK (Table 10.17, R265). -/
def Reg.LIB_NARROW_OK : FieldSpec := ⟨144, .lib, 0x104, 2, 1, 0, 1, .ro, 0, .t, .routine, .pm, .owner⟩
/-- VENDOR (Table 10.17, R265). -/
def Reg.LIB_VENDOR : FieldSpec := ⟨145, .lib, 0x104, 3, 1, 0, 1, .ro, 0, .f, .routine, .pm, .owner⟩
/-- OWNER (Table 10.17, R265). -/
def Reg.LIB_OWNER : FieldSpec := ⟨146, .lib, 0x104, 4, 4, 0, 1, .ro, 0, .t, .routine, .pm, .owner⟩
/-- OLD_LIVE (Table 10.17, R265). -/
def Reg.LIB_OLD_LIVE : FieldSpec := ⟨147, .lib, 0x104, 8, 1, 0, 1, .ro, 0, .t, .routine, .pm, .owner⟩
/-- RT_BASE (Table 10.17, R265). -/
def Reg.LIB_RT_BASE : FieldSpec := ⟨148, .lib, 0x108, 0, 21, 0, 1, .ro, 0, .t, .routine, .pm, .owner⟩
/-- RT_LEN (Table 10.17, R265). -/
def Reg.LIB_RT_LEN : FieldSpec := ⟨149, .lib, 0x10C, 0, 20, 0, 1, .ro, 0, .t, .routine, .pm, .owner⟩
/-- RT_BUNDLES (Table 10.17, R265). -/
def Reg.LIB_RT_BUNDLES : FieldSpec := ⟨150, .lib, 0x110, 0, 19, 0, 1, .ro, 0, .t, .routine, .pm, .owner⟩
/-- PROFILE (Table 10.17, R265). -/
def Reg.LIB_PROFILE : FieldSpec := ⟨151, .lib, 0x114, 0, 32, 0, 1, .ro, 1, .f, .block, .pm, .all⟩
/-- ROM_VER (Table 10.17, R265). -/
def Reg.LIB_ROM_VER : FieldSpec := ⟨152, .lib, 0x118, 0, 16, 0, 1, .ro, 0, .f, .block, .pm, .all⟩
/-- RAM_FREE (Table 10.17, R265). -/
def Reg.LIB_RAM_FREE : FieldSpec := ⟨153, .lib, 0x11C, 0, 22, 0, 1, .ro, 2097152, .b, .block, .pm, .all⟩
/-- LARGEST_FREE (Table 10.17, R265). -/
def Reg.LIB_LARGEST_FREE : FieldSpec := ⟨154, .lib, 0x120, 0, 22, 0, 1, .ro, 2097152, .b, .block, .pm, .all⟩
/-- LOAD_CNT (Table 10.17, R265). -/
def Reg.LIB_LOAD_CNT : FieldSpec := ⟨155, .lib, 0x124, 0, 32, 0, 1, .ro, 0, .b, .block, .pm, .all⟩
/-- LL_ROUTINE (Table 10.17, R265). -/
def Reg.LIB_LL_ROUTINE : FieldSpec := ⟨156, .lib, 0x128, 0, 10, 0, 1, .ro, 0, .t, .readerTen, .own, .owner⟩
/-- LL_QUEUE (Table 10.17, R265). -/
def Reg.LIB_LL_QUEUE : FieldSpec := ⟨157, .lib, 0x128, 10, 6, 0, 1, .ro, 0, .t, .readerTen, .own, .owner⟩
/-- LL_STATUS (Table 10.17, R265). -/
def Reg.LIB_LL_STATUS : FieldSpec := ⟨158, .lib, 0x128, 16, 8, 0, 1, .ro, 0, .t, .readerTen, .own, .owner⟩
/-- LL_REASON (Table 10.17, R265). -/
def Reg.LIB_LL_REASON : FieldSpec := ⟨159, .lib, 0x128, 24, 4, 0, 1, .ro, 0, .t, .readerTen, .own, .owner⟩
/-- LL_VALID (Table 10.17, R265). -/
def Reg.LIB_LL_VALID : FieldSpec := ⟨160, .lib, 0x128, 31, 1, 0, 1, .w1c, 0, .t, .readerTen, .own, .owner⟩
/-- LW_ADDR (Table 10.18, R265). -/
def Reg.LIB_LW_ADDR : FieldSpec := ⟨161, .lib, 0x900, 0, 21, 0, 1, .rwx, 0, .u, .agent, .any, .all⟩
/-- LW_DATA (Table 10.18, R265). -/
def Reg.LIB_LW_DATA : FieldSpec := ⟨162, .lib, 0x904, 0, 32, 0, 1, .ro, 0, .u, .block, .pm, .all⟩
/-- FT_ARR (Table 5.11, R130). -/
def Reg.FTAB_FT_ARR : FieldSpec := ⟨163, .ftab, 0x100, 0, 10, 0, 1, .rw, 0, .b, .agent, .any, .all⟩
/-- ACTIVE (Table 5.11, R130). -/
def Reg.FTAB_ACTIVE : FieldSpec := ⟨164, .ftab, 0x104, 0, 1, 0, 1, .ro, 0, .t, .ftArr, .own, .owner⟩
/-- LOAD_PEND (Table 5.11, R130). -/
def Reg.FTAB_LOAD_PEND : FieldSpec := ⟨165, .ftab, 0x104, 1, 1, 0, 1, .ro, 0, .t, .ftArr, .own, .owner⟩
/-- EPOCH_CNT (Table 5.11, R130). -/
def Reg.FTAB_EPOCH_CNT : FieldSpec := ⟨166, .ftab, 0x104, 16, 16, 0, 1, .ro, 0, .t, .ftArr, .own, .owner⟩
/-- PROG_VALID0 (Table 5.11, R130). -/
def Reg.FTAB_PROG_VALID0 : FieldSpec := ⟨167, .ftab, 0x108, 0, 16, 0, 1, .ro, 63, .t, .ftArr, .own, .owner⟩
/-- TAB_VALID0 (Table 5.11, R130). -/
def Reg.FTAB_TAB_VALID0 : FieldSpec := ⟨168, .ftab, 0x108, 16, 16, 0, 1, .ro, 31, .t, .ftArr, .own, .owner⟩
/-- PROG_VALID1 (Table 5.11, R130). -/
def Reg.FTAB_PROG_VALID1 : FieldSpec := ⟨169, .ftab, 0x10C, 0, 16, 0, 1, .ro, 63, .t, .ftArr, .own, .owner⟩
/-- TAB_VALID1 (Table 5.11, R130). -/
def Reg.FTAB_TAB_VALID1 : FieldSpec := ⟨170, .ftab, 0x10C, 16, 16, 0, 1, .ro, 31, .t, .ftArr, .own, .owner⟩
/-- ROM_VER (Table 5.11, R130): read through FT_ARR like the words before it, so it is zero for an array of another tenancy. -/
def Reg.FTAB_ROM_VER : FieldSpec := ⟨171, .ftab, 0x110, 0, 16, 0, 1, .ro, 0, .f, .ftArr, .pm, .owner⟩
/-- TA_LEVEL (Table 5.11, R130). -/
def Reg.FTAB_TA_LEVEL : FieldSpec := ⟨172, .ftab, 0x110, 16, 16, 0, 1, .ro, 0, .f, .ftArr, .pm, .owner⟩
/-- LOAD_CNT (Table 5.11, R130). -/
def Reg.FTAB_LOAD_CNT : FieldSpec := ⟨173, .ftab, 0x114, 0, 32, 0, 1, .ro, 0, .t, .ftArr, .own, .owner⟩
/-- LAST_QUEUE (Table 5.11, R130). -/
def Reg.FTAB_LAST_QUEUE : FieldSpec := ⟨174, .ftab, 0x118, 0, 6, 0, 1, .ro, 0, .t, .readerTen, .own, .owner⟩
/-- LAST_FAULT (Table 5.11, R130). -/
def Reg.FTAB_LAST_FAULT : FieldSpec := ⟨175, .ftab, 0x118, 6, 1, 0, 1, .ro, 0, .t, .readerTen, .own, .owner⟩
/-- WIN_WORD (Table 5.12, R130). -/
def Reg.FTAB_WIN_WORD : FieldSpec := ⟨176, .ftab, 0x900, 0, 9, 0, 1, .rwx, 0, .u, .agent, .any, .all⟩
/-- WIN_SLOT (Table 5.12, R130). -/
def Reg.FTAB_WIN_SLOT : FieldSpec := ⟨177, .ftab, 0x900, 9, 4, 0, 1, .rwx, 0, .u, .agent, .any, .all⟩
/-- WIN_BANK (Table 5.12, R130). -/
def Reg.FTAB_WIN_BANK : FieldSpec := ⟨178, .ftab, 0x900, 13, 1, 0, 1, .rwx, 0, .u, .agent, .any, .all⟩
/-- FT_WIN_DATA (Table 5.12, R130). -/
def Reg.FTAB_FT_WIN_DATA : FieldSpec := ⟨179, .ftab, 0x904, 0, 32, 0, 1, .ro, 0, .u, .ftArr, .own, .owner⟩
/-- LBW_BASE (Table 11.10, R297). -/
def Reg.LBX_LBW_BASE : FieldSpec := ⟨180, .lbx, 0x040, 0, 13, 0, 1, .rw, 0, .b, .agent, .any, .all⟩
/-- LB_COUNT (Table 11.10, R297). -/
def Reg.LBX_LB_COUNT : FieldSpec := ⟨181, .lbx, 0x044, 0, 14, 0, 1, .ro, 0, .t, .page, .own, .owner⟩
/-- LB_SAT_REL (Table 11.10, R297). -/
def Reg.LBX_LB_SAT_REL : FieldSpec := ⟨182, .lbx, 0x048, 0, 13, 0, 1, .ro, 0, .t, .page, .own, .owner⟩
/-- LB_SAT_VALID (Table 11.10, R297). -/
def Reg.LBX_LB_SAT_VALID : FieldSpec := ⟨183, .lbx, 0x048, 31, 1, 0, 1, .w1c, 0, .t, .page, .own, .owner⟩
/-- VALUE (Table 11.10, R297). -/
def Reg.LBX_VALUE : FieldSpec := ⟨184, .lbx, 0x080, 0, 32, 8, 240, .rw, 0, .t, .page, .own, .owner⟩
/-- POST (Table 11.10, R297). -/
def Reg.LBX_POST : FieldSpec := ⟨185, .lbx, 0x084, 0, 32, 8, 240, .wo, 0, .t, .page, .own, .owner⟩
/-- POOL_SEL (Table 8.11, R224). -/
def Reg.CACHE_POOL_SEL : FieldSpec := ⟨186, .cache, 0x100, 0, 4, 0, 1, .rw, 0, .b, .agent, .any, .all⟩
/-- EN (Table 8.11, R224). -/
def Reg.CACHE_EN : FieldSpec := ⟨187, .cache, 0x104, 0, 1, 0, 1, .rw, 0, .t, .pool, .pm, .owner⟩
/-- INIT (Table 8.11, R224). -/
def Reg.CACHE_INIT : FieldSpec := ⟨188, .cache, 0x104, 1, 1, 0, 1, .w1s, 0, .t, .pool, .own, .owner⟩
/-- INIT_BUSY (Table 8.11, R224). -/
def Reg.CACHE_INIT_BUSY : FieldSpec := ⟨189, .cache, 0x104, 2, 1, 0, 1, .ro, 0, .t, .pool, .own, .owner⟩
/-- CFG_OVERLAP (Table 8.11, R224). -/
def Reg.CACHE_CFG_OVERLAP : FieldSpec := ⟨190, .cache, 0x104, 3, 1, 0, 1, .ro, 0, .t, .pool, .own, .owner⟩
/-- OWNER (Table 8.11, R224). -/
def Reg.CACHE_OWNER : FieldSpec := ⟨191, .cache, 0x104, 4, 4, 0, 1, .rw, 0, .b, .pool, .pm, .owner⟩
/-- FORMAT (Table 8.11, R224). -/
def Reg.CACHE_FORMAT : FieldSpec := ⟨192, .cache, 0x104, 8, 2, 0, 1, .rw, 0, .t, .pool, .own, .owner⟩
/-- DIM (Table 8.11, R224). -/
def Reg.CACHE_DIM : FieldSpec := ⟨193, .cache, 0x104, 10, 3, 0, 1, .rw, 3, .t, .pool, .own, .owner⟩
/-- PLANES (Table 8.11, R224). -/
def Reg.CACHE_PLANES : FieldSpec := ⟨194, .cache, 0x108, 0, 12, 0, 1, .rw, 1, .t, .pool, .own, .owner⟩
/-- HEADROOM (Table 8.11, R224). -/
def Reg.CACHE_HEADROOM : FieldSpec := ⟨195, .cache, 0x10C, 0, 32, 0, 1, .rw, 1073741824, .t, .pool, .own, .owner⟩
/-- SEQ_FIRST (Table 8.11, R224). -/
def Reg.CACHE_SEQ_FIRST : FieldSpec := ⟨196, .cache, 0x110, 0, 16, 0, 1, .rw, 0, .b, .pool, .pm, .owner⟩
/-- SEQ_COUNT (Table 8.11, R224). -/
def Reg.CACHE_SEQ_COUNT : FieldSpec := ⟨197, .cache, 0x110, 16, 16, 0, 1, .rw, 0, .b, .pool, .pm, .owner⟩
/-- DESC_BASE_LO (Table 8.11, R224). -/
def Reg.CACHE_DESC_BASE_LO : FieldSpec := ⟨198, .cache, 0x114, 0, 32, 0, 1, .rw, 0, .t, .pool, .own, .owner⟩
/-- DESC_BASE_HI (Table 8.11, R224). -/
def Reg.CACHE_DESC_BASE_HI : FieldSpec := ⟨199, .cache, 0x118, 0, 16, 0, 1, .rw, 0, .t, .pool, .own, .owner⟩
/-- FT_BASE_LO (Table 8.11, R224). -/
def Reg.CACHE_FT_BASE_LO : FieldSpec := ⟨200, .cache, 0x11C, 0, 32, 0, 1, .rw, 0, .t, .pool, .own, .owner⟩
/-- FT_BASE_HI (Table 8.11, R224). -/
def Reg.CACHE_FT_BASE_HI : FieldSpec := ⟨201, .cache, 0x120, 0, 16, 0, 1, .rw, 0, .t, .pool, .own, .owner⟩
/-- FRAME_BASE_LO (Table 8.11, R224). -/
def Reg.CACHE_FRAME_BASE_LO : FieldSpec := ⟨202, .cache, 0x124, 0, 32, 0, 1, .rw, 0, .t, .pool, .own, .owner⟩
/-- FRAME_BASE_HI (Table 8.11, R224). -/
def Reg.CACHE_FRAME_BASE_HI : FieldSpec := ⟨203, .cache, 0x128, 0, 16, 0, 1, .rw, 0, .t, .pool, .own, .owner⟩
/-- FRAME_COUNT (Table 8.11, R224). -/
def Reg.CACHE_FRAME_COUNT : FieldSpec := ⟨204, .cache, 0x12C, 0, 32, 0, 1, .rw, 0, .t, .pool, .own, .owner⟩
/-- NODE_BASE_LO (Table 8.11, R224). -/
def Reg.CACHE_NODE_BASE_LO : FieldSpec := ⟨205, .cache, 0x130, 0, 32, 0, 1, .rw, 0, .t, .pool, .own, .owner⟩
/-- NODE_BASE_HI (Table 8.11, R224). -/
def Reg.CACHE_NODE_BASE_HI : FieldSpec := ⟨206, .cache, 0x134, 0, 16, 0, 1, .rw, 0, .t, .pool, .own, .owner⟩
/-- NODE_COUNT (Table 8.11, R224). -/
def Reg.CACHE_NODE_COUNT : FieldSpec := ⟨207, .cache, 0x138, 0, 32, 0, 1, .rw, 0, .t, .pool, .own, .owner⟩
/-- FREE_FRAMES (Table 8.11, R224). -/
def Reg.CACHE_FREE_FRAMES : FieldSpec := ⟨208, .cache, 0x13C, 0, 32, 0, 1, .ro, 0, .t, .pool, .own, .owner⟩
/-- RETIRING (Table 8.11, R224). -/
def Reg.CACHE_RETIRING : FieldSpec := ⟨209, .cache, 0x140, 0, 32, 0, 1, .ro, 0, .t, .pool, .own, .owner⟩
/-- FREE_NODES (Table 8.11, R224). -/
def Reg.CACHE_FREE_NODES : FieldSpec := ⟨210, .cache, 0x144, 0, 32, 0, 1, .ro, 0, .t, .pool, .own, .owner⟩
/-- LIVE_SEQS (Table 8.11, R224). -/
def Reg.CACHE_LIVE_SEQS : FieldSpec := ⟨211, .cache, 0x148, 0, 17, 0, 1, .ro, 0, .t, .pool, .own, .owner⟩
/-- SAT_CNT (Table 8.11, R224). -/
def Reg.CACHE_SAT_CNT : FieldSpec := ⟨212, .cache, 0x14C, 0, 32, 0, 1, .ro, 0, .t, .pool, .own, .owner⟩
/-- LOW_MARK (Table 8.11, R224). -/
def Reg.CACHE_LOW_MARK : FieldSpec := ⟨213, .cache, 0x150, 0, 32, 0, 1, .rw, 0, .t, .pool, .own, .owner⟩
/-- ERR_SEQ (Table 8.11, R224). -/
def Reg.CACHE_ERR_SEQ : FieldSpec := ⟨214, .cache, 0x154, 0, 16, 0, 1, .ro, 0, .t, .pool, .own, .owner⟩
/-- ERR_STATUS (Table 8.11, R224). -/
def Reg.CACHE_ERR_STATUS : FieldSpec := ⟨215, .cache, 0x154, 16, 8, 0, 1, .ro, 0, .t, .pool, .own, .owner⟩
/-- ERR_QUEUE (Table 8.11, R224). -/
def Reg.CACHE_ERR_QUEUE : FieldSpec := ⟨216, .cache, 0x154, 24, 6, 0, 1, .ro, 0, .t, .pool, .own, .owner⟩
/-- ERR_VALID (Table 8.11, R224). -/
def Reg.CACHE_ERR_VALID : FieldSpec := ⟨217, .cache, 0x154, 31, 1, 0, 1, .w1c, 0, .t, .pool, .own, .owner⟩
/-- FREE_HEAD (Table 8.11, R224). -/
def Reg.CACHE_FREE_HEAD : FieldSpec := ⟨218, .cache, 0x158, 0, 32, 0, 1, .ro, 4294967295, .t, .pool, .own, .owner⟩
/-- NODE_HEAD (Table 8.11, R224). -/
def Reg.CACHE_NODE_HEAD : FieldSpec := ⟨219, .cache, 0x15C, 0, 32, 0, 1, .ro, 4294967295, .t, .pool, .own, .owner⟩
/-- COW_ALWAYS (Table 8.12, R224). -/
def Reg.CACHE_COW_ALWAYS : FieldSpec := ⟨220, .cache, 0x900, 0, 1, 0, 1, .rwx, 0, .u, .pool, .own, .owner⟩
/-- FENCE_PEND (Table 8.12, R224). -/
def Reg.CACHE_FENCE_PEND : FieldSpec := ⟨221, .cache, 0x904, 0, 32, 0, 1, .ro, 0, .t, .pool, .own, .owner⟩
/-- WALK_CNT (Table 8.13, R225). -/
def Reg.WALK_WALK_CNT : FieldSpec := ⟨222, .walk, 0x100, 0, 32, 0, 1, .ro, 0, .b, .block, .pm, .all⟩
/-- SL_HIT (Table 8.13, R225). -/
def Reg.WALK_SL_HIT : FieldSpec := ⟨223, .walk, 0x104, 0, 32, 0, 1, .ro, 0, .b, .block, .pm, .all⟩
/-- SL_MISS (Table 8.13, R225). -/
def Reg.WALK_SL_MISS : FieldSpec := ⟨224, .walk, 0x108, 0, 32, 0, 1, .ro, 0, .b, .block, .pm, .all⟩
/-- PH_MISS (Table 8.13, R225). -/
def Reg.WALK_PH_MISS : FieldSpec := ⟨225, .walk, 0x10C, 0, 32, 0, 1, .ro, 0, .b, .block, .pm, .all⟩
/-- NULL_READS (Table 8.13, R225). -/
def Reg.WALK_NULL_READS : FieldSpec := ⟨226, .walk, 0x110, 0, 32, 0, 1, .ro, 0, .b, .block, .pm, .all⟩
/-- INFLIGHT (Table 8.13, R225). -/
def Reg.WALK_INFLIGHT : FieldSpec := ⟨227, .walk, 0x114, 0, 7, 0, 1, .ro, 0, .b, .block, .pm, .all⟩
/-- WF_SEQ (Table 8.13, R225). -/
def Reg.WALK_WF_SEQ : FieldSpec := ⟨228, .walk, 0x118, 0, 16, 0, 1, .ro, 0, .b, .block, .pm, .walkFault⟩
/-- WF_REASON (Table 8.13, R225). -/
def Reg.WALK_WF_REASON : FieldSpec := ⟨229, .walk, 0x118, 16, 3, 0, 1, .ro, 0, .b, .block, .pm, .walkFault⟩
/-- WF_VALID (Table 8.13, R225). -/
def Reg.WALK_WF_VALID : FieldSpec := ⟨230, .walk, 0x118, 19, 1, 0, 1, .w1c, 0, .b, .block, .pm, .walkFault⟩
/-- WF_PAGE (Table 8.13, R225). -/
def Reg.WALK_WF_PAGE : FieldSpec := ⟨231, .walk, 0x11C, 0, 17, 0, 1, .ro, 0, .b, .block, .pm, .walkFault⟩
/-- WALK_LIMIT (Table 8.14, R225). -/
def Reg.WALK_WALK_LIMIT : FieldSpec := ⟨232, .walk, 0x900, 0, 7, 0, 1, .rwx, 64, .u, .block, .pm, .all⟩
/-- PREFETCH (Table 8.14, R225). -/
def Reg.WALK_PREFETCH : FieldSpec := ⟨233, .walk, 0x900, 7, 1, 0, 1, .rwx, 1, .u, .block, .pm, .all⟩
/-- SL_FLUSH (Table 8.14, R225). -/
def Reg.WALK_SL_FLUSH : FieldSpec := ⟨234, .walk, 0x904, 0, 1, 0, 1, .wo, 0, .u, .block, .pm, .all⟩
/-- PH_FLUSH (Table 8.14, R225). -/
def Reg.WALK_PH_FLUSH : FieldSpec := ⟨235, .walk, 0x904, 1, 1, 0, 1, .wo, 0, .u, .block, .pm, .all⟩
/-- CH_SEL (Table 13.4, R337). -/
def Reg.MPORT_CH_SEL : FieldSpec := ⟨236, .mport, 0x100, 0, 4, 0, 1, .rw, 0, .b, .agent, .any, .all⟩
/-- RD_BYTES_LO (Table 13.4, R337). -/
def Reg.MPORT_RD_BYTES_LO : FieldSpec := ⟨237, .mport, 0x104, 0, 32, 0, 1, .ro, 0, .b, .memCh, .pm, .all⟩
/-- RD_BYTES_HI (Table 13.4, R337). -/
def Reg.MPORT_RD_BYTES_HI : FieldSpec := ⟨238, .mport, 0x108, 0, 32, 0, 1, .ro, 0, .b, .memCh, .pm, .all⟩
/-- WR_BYTES_LO (Table 13.4, R337). -/
def Reg.MPORT_WR_BYTES_LO : FieldSpec := ⟨239, .mport, 0x10C, 0, 32, 0, 1, .ro, 0, .b, .memCh, .pm, .all⟩
/-- WR_BYTES_HI (Table 13.4, R337). -/
def Reg.MPORT_WR_BYTES_HI : FieldSpec := ⟨240, .mport, 0x110, 0, 32, 0, 1, .ro, 0, .b, .memCh, .pm, .all⟩
/-- OUTSTANDING (Table 13.4, R337). -/
def Reg.MPORT_OUTSTANDING : FieldSpec := ⟨241, .mport, 0x114, 0, 13, 0, 1, .ro, 0, .b, .memCh, .pm, .all⟩
/-- CH_ERR_CNT (Table 13.4, R337). -/
def Reg.MPORT_CH_ERR_CNT : FieldSpec := ⟨242, .mport, 0x118, 0, 32, 0, 1, .ro, 0, .b, .memCh, .pm, .all⟩
/-- TS_SEL (Table 13.4, R337). -/
def Reg.MPORT_TS_SEL : FieldSpec := ⟨243, .mport, 0x11C, 0, 4, 0, 1, .rw, 0, .b, .agent, .any, .all⟩
/-- STG_BASE (Table 13.4, R337). -/
def Reg.MPORT_STG_BASE : FieldSpec := ⟨244, .mport, 0x120, 0, 28, 0, 1, .rw, 0, .t, .tsMport, .own, .owner⟩
/-- STG_SIZE (Table 13.4, R337). -/
def Reg.MPORT_STG_SIZE : FieldSpec := ⟨245, .mport, 0x124, 0, 12, 0, 1, .rw, 0, .t, .tsMport, .own, .owner⟩
/-- OVF_BASE_LO (Table 13.4, R337). -/
def Reg.MPORT_OVF_BASE_LO : FieldSpec := ⟨246, .mport, 0x128, 0, 32, 0, 1, .rw, 0, .t, .tsMport, .own, .owner⟩
/-- OVF_BASE_HI (Table 13.4, R337). -/
def Reg.MPORT_OVF_BASE_HI : FieldSpec := ⟨247, .mport, 0x12C, 0, 16, 0, 1, .rw, 0, .t, .tsMport, .own, .owner⟩
/-- OVF_SIZE (Table 13.4, R337). -/
def Reg.MPORT_OVF_SIZE : FieldSpec := ⟨248, .mport, 0x130, 0, 32, 0, 1, .rw, 0, .t, .tsMport, .own, .owner⟩
/-- STG_USED (Table 13.4, R337). -/
def Reg.MPORT_STG_USED : FieldSpec := ⟨249, .mport, 0x134, 0, 32, 0, 1, .ro, 0, .t, .tsMport, .own, .owner⟩
/-- OVF_USED (Table 13.4, R337). -/
def Reg.MPORT_OVF_USED : FieldSpec := ⟨250, .mport, 0x138, 0, 32, 0, 1, .ro, 0, .t, .tsMport, .own, .owner⟩
/-- ERR_ADDR_LO (Table 13.4, R337). -/
def Reg.MPORT_ERR_ADDR_LO : FieldSpec := ⟨251, .mport, 0x13C, 0, 32, 0, 1, .ro, 0, .t, .block, .pm, .errTen⟩
/-- ERR_ADDR_HI (Table 13.4, R337). -/
def Reg.MPORT_ERR_ADDR_HI : FieldSpec := ⟨252, .mport, 0x140, 0, 16, 0, 1, .ro, 0, .t, .block, .pm, .errTen⟩
/-- ERR_STATUS (Table 13.4, R337). -/
def Reg.MPORT_ERR_STATUS : FieldSpec := ⟨253, .mport, 0x140, 16, 2, 0, 1, .ro, 0, .t, .block, .pm, .errTen⟩
/-- ERR_KIND (Table 13.4, R337). -/
def Reg.MPORT_ERR_KIND : FieldSpec := ⟨254, .mport, 0x140, 18, 2, 0, 1, .ro, 0, .t, .block, .pm, .errTen⟩
/-- ERR_SEALED (Table 13.4, R337). -/
def Reg.MPORT_ERR_SEALED : FieldSpec := ⟨255, .mport, 0x140, 20, 1, 0, 1, .ro, 0, .t, .block, .pm, .errTen⟩
/-- ERR_TEN (Table 13.4, R337). -/
def Reg.MPORT_ERR_TEN : FieldSpec := ⟨256, .mport, 0x140, 21, 4, 0, 1, .ro, 0, .t, .block, .pm, .errTen⟩
/-- ERR_VALID (Table 13.4, R337). -/
def Reg.MPORT_ERR_VALID : FieldSpec := ⟨257, .mport, 0x140, 31, 1, 0, 1, .w1c, 0, .t, .block, .pm, .errTen⟩
/-- VIOL_REASON (Table 13.4, R337). -/
def Reg.MPORT_VIOL_REASON : FieldSpec := ⟨258, .mport, 0x144, 0, 3, 0, 1, .ro, 0, .b, .block, .pm, .pm⟩
/-- VIOL_CH (Table 13.4, R337). -/
def Reg.MPORT_VIOL_CH : FieldSpec := ⟨259, .mport, 0x144, 3, 4, 0, 1, .ro, 0, .b, .block, .pm, .pm⟩
/-- VIOL_TAG (Table 13.4, R337). -/
def Reg.MPORT_VIOL_TAG : FieldSpec := ⟨260, .mport, 0x144, 7, 12, 0, 1, .ro, 0, .b, .block, .pm, .pm⟩
/-- VIOL_VALID (Table 13.4, R337). -/
def Reg.MPORT_VIOL_VALID : FieldSpec := ⟨261, .mport, 0x144, 31, 1, 0, 1, .w1c, 0, .b, .block, .pm, .pm⟩
/-- VIOL_CNT (Table 13.4, R337). -/
def Reg.MPORT_VIOL_CNT : FieldSpec := ⟨262, .mport, 0x148, 0, 32, 0, 1, .ro, 0, .b, .block, .pm, .pm⟩
/-- OFFLOAD_SHARE (Table 13.5, R337). -/
def Reg.MPORT_OFFLOAD_SHARE : FieldSpec := ⟨263, .mport, 0x900, 0, 4, 0, 1, .rwx, 2, .u, .block, .pm, .all⟩
/-- RESP_TIMEOUT (Table 13.5, R337). -/
def Reg.MPORT_RESP_TIMEOUT : FieldSpec := ⟨264, .mport, 0x904, 0, 16, 0, 1, .rwx, 1000, .u, .block, .pm, .all⟩
/-- LINK_EN (Table 12.4, R318). -/
def Reg.RING_LINK_EN : FieldSpec := ⟨265, .ring, 0x100, 0, 1, 0, 1, .rw, 0, .b, .page, .pm, .all⟩
/-- LINK_STATE (Table 12.4, R318). -/
def Reg.RING_LINK_STATE : FieldSpec := ⟨266, .ring, 0x100, 1, 3, 0, 1, .ro, 0, .b, .page, .pm, .all⟩
/-- FAIL_WHY (Table 12.4, R318). -/
def Reg.RING_FAIL_WHY : FieldSpec := ⟨267, .ring, 0x100, 4, 4, 0, 1, .ro, 0, .b, .page, .pm, .all⟩
/-- RING_ID (Table 12.4, R318). -/
def Reg.RING_RING_ID : FieldSpec := ⟨268, .ring, 0x104, 0, 16, 0, 1, .rw, 0, .b, .page, .pm, .all⟩
/-- RING_POS (Table 12.4, R318). -/
def Reg.RING_RING_POS : FieldSpec := ⟨269, .ring, 0x104, 16, 10, 0, 1, .rw, 0, .b, .page, .pm, .all⟩
/-- PEER_ID (Table 12.4, R318). -/
def Reg.RING_PEER_ID : FieldSpec := ⟨270, .ring, 0x108, 0, 16, 0, 1, .ro, 0, .b, .page, .pm, .all⟩
/-- PEER_POS (Table 12.4, R318). -/
def Reg.RING_PEER_POS : FieldSpec := ⟨271, .ring, 0x108, 16, 10, 0, 1, .ro, 0, .b, .page, .pm, .all⟩
/-- RTT_NS (Table 12.4, R318). -/
def Reg.RING_RTT_NS : FieldSpec := ⟨272, .ring, 0x10C, 0, 16, 0, 1, .ro, 0, .b, .page, .pm, .all⟩
/-- CH_SEL (Table 12.4, R318). -/
def Reg.RING_CH_SEL : FieldSpec := ⟨273, .ring, 0x110, 0, 5, 0, 1, .rw, 0, .b, .agent, .any, .all⟩
/-- CH_EN (Table 12.4, R318). -/
def Reg.RING_CH_EN : FieldSpec := ⟨274, .ring, 0x114, 0, 1, 0, 1, .rw, 0, .t, .chan, .own, .owner⟩
/-- CLASS (Table 12.4, R318). -/
def Reg.RING_CLASS : FieldSpec := ⟨275, .ring, 0x114, 1, 1, 0, 1, .rw, 0, .t, .chan, .own, .owner⟩
/-- GATED (Table 12.4, R318). -/
def Reg.RING_GATED : FieldSpec := ⟨276, .ring, 0x114, 2, 1, 0, 1, .rw, 1, .t, .chan, .own, .owner⟩
/-- RELAY_EN (Table 12.4, R318). -/
def Reg.RING_RELAY_EN : FieldSpec := ⟨277, .ring, 0x114, 3, 1, 0, 1, .rw, 0, .t, .chan, .own, .owner⟩
/-- RELAY_CH (Table 12.4, R318). -/
def Reg.RING_RELAY_CH : FieldSpec := ⟨278, .ring, 0x114, 4, 4, 0, 1, .rw, 0, .t, .chan, .own, .owner⟩
/-- CH_TEN (Table 12.4, R318). -/
def Reg.RING_CH_TEN : FieldSpec := ⟨279, .ring, 0x114, 8, 4, 0, 1, .rw, 0, .b, .chan, .pm, .owner⟩
/-- RES_SLOTS (Table 12.4, R318). -/
def Reg.RING_RES_SLOTS : FieldSpec := ⟨280, .ring, 0x114, 12, 5, 0, 1, .rw, 0, .b, .chan, .pm, .owner⟩
/-- MAILBAG (Table 12.4, R318). -/
def Reg.RING_MAILBAG : FieldSpec := ⟨281, .ring, 0x118, 0, 8, 0, 1, .rw, 0, .t, .chan, .own, .owner⟩
/-- LBX (Table 12.4, R318). -/
def Reg.RING_LBX : FieldSpec := ⟨282, .ring, 0x118, 8, 13, 0, 1, .rw, 0, .t, .chan, .own, .owner⟩
/-- TAG_LO (Table 12.4, R318). -/
def Reg.RING_TAG_LO : FieldSpec := ⟨283, .ring, 0x118, 21, 11, 0, 1, .rw, 0, .b, .chan, .pm, .owner⟩
/-- TAG_HI (Table 12.4, R318). -/
def Reg.RING_TAG_HI : FieldSpec := ⟨284, .ring, 0x11C, 0, 5, 0, 1, .rw, 0, .b, .chan, .pm, .owner⟩
/-- BUF_BASE (Table 12.4, R318). -/
def Reg.RING_BUF_BASE : FieldSpec := ⟨285, .ring, 0x120, 0, 28, 0, 1, .rw, 0, .t, .chan, .own, .owner⟩
/-- HDR_BASE (Table 12.4, R318). -/
def Reg.RING_HDR_BASE : FieldSpec := ⟨286, .ring, 0x124, 0, 28, 0, 1, .rw, 0, .t, .chan, .own, .owner⟩
/-- BUF_SIZE (Table 12.4, R318). -/
def Reg.RING_BUF_SIZE : FieldSpec := ⟨287, .ring, 0x128, 0, 4, 0, 1, .rw, 0, .t, .chan, .own, .owner⟩
/-- NBUF (Table 12.4, R318). -/
def Reg.RING_NBUF : FieldSpec := ⟨288, .ring, 0x128, 8, 8, 0, 1, .rw, 0, .t, .chan, .own, .owner⟩
/-- CRED (Table 12.4, R318). -/
def Reg.RING_CRED : FieldSpec := ⟨289, .ring, 0x128, 16, 11, 0, 1, .rw, 0, .t, .chan, .own, .owner⟩
/-- MSGS (Table 12.4, R318). -/
def Reg.RING_MSGS : FieldSpec := ⟨290, .ring, 0x12C, 0, 32, 0, 1, .ro, 0, .t, .chan, .own, .owner⟩
/-- RES_LATE (Table 12.4, R318). -/
def Reg.RING_RES_LATE : FieldSpec := ⟨291, .ring, 0x130, 0, 32, 0, 1, .ro, 0, .b, .chan, .own, .owner⟩
/-- TX_BYTES_LO (Table 12.4, R318). -/
def Reg.RING_TX_BYTES_LO : FieldSpec := ⟨292, .ring, 0x134, 0, 32, 0, 1, .ro, 0, .b, .page, .pm, .all⟩
/-- TX_BYTES_HI (Table 12.4, R318). -/
def Reg.RING_TX_BYTES_HI : FieldSpec := ⟨293, .ring, 0x138, 0, 32, 0, 1, .ro, 0, .b, .page, .pm, .all⟩
/-- RX_BYTES_LO (Table 12.4, R318). -/
def Reg.RING_RX_BYTES_LO : FieldSpec := ⟨294, .ring, 0x13C, 0, 32, 0, 1, .ro, 0, .b, .page, .pm, .all⟩
/-- RX_BYTES_HI (Table 12.4, R318). -/
def Reg.RING_RX_BYTES_HI : FieldSpec := ⟨295, .ring, 0x140, 0, 32, 0, 1, .ro, 0, .b, .page, .pm, .all⟩
/-- RETRIES (Table 12.4, R318). -/
def Reg.RING_RETRIES : FieldSpec := ⟨296, .ring, 0x144, 0, 32, 0, 1, .ro, 0, .b, .page, .pm, .all⟩
/-- CRC_ERR (Table 12.4, R318). -/
def Reg.RING_CRC_ERR : FieldSpec := ⟨297, .ring, 0x148, 0, 32, 0, 1, .ro, 0, .b, .page, .pm, .all⟩
/-- VIOL_CNT (Table 12.4, R318). -/
def Reg.RING_VIOL_CNT : FieldSpec := ⟨298, .ring, 0x14C, 0, 32, 0, 1, .ro, 0, .b, .page, .pm, .all⟩
/-- MSG_DROP_CNT (Table 12.4, R318). -/
def Reg.RING_MSG_DROP_CNT : FieldSpec := ⟨299, .ring, 0x150, 0, 32, 0, 1, .ro, 0, .b, .page, .pm, .all⟩
/-- VIOL_REASON (Table 12.4, R318). -/
def Reg.RING_VIOL_REASON : FieldSpec := ⟨300, .ring, 0x154, 0, 4, 0, 1, .ro, 0, .b, .page, .pm, .all⟩
/-- VIOL_CH (Table 12.4, R318). -/
def Reg.RING_VIOL_CH : FieldSpec := ⟨301, .ring, 0x154, 4, 4, 0, 1, .ro, 0, .b, .page, .pm, .violCh⟩
/-- VIOL_SEQ (Table 12.4, R318). -/
def Reg.RING_VIOL_SEQ : FieldSpec := ⟨302, .ring, 0x154, 8, 12, 0, 1, .ro, 0, .b, .page, .pm, .all⟩
/-- VIOL_VALID (Table 12.4, R318). -/
def Reg.RING_VIOL_VALID : FieldSpec := ⟨303, .ring, 0x154, 31, 1, 0, 1, .w1c, 0, .b, .page, .pm, .all⟩
/-- RES_FREE (Table 12.4, R318). -/
def Reg.RING_RES_FREE : FieldSpec := ⟨304, .ring, 0x158, 0, 5, 0, 1, .ro, 25, .b, .page, .pm, .all⟩
/-- CRED_FREE (Table 12.4, R318). -/
def Reg.RING_CRED_FREE : FieldSpec := ⟨305, .ring, 0x158, 16, 11, 0, 1, .ro, 1024, .b, .page, .pm, .all⟩
/-- NAK_LIMIT (Table 12.5, R318). -/
def Reg.RING_NAK_LIMIT : FieldSpec := ⟨306, .ring, 0x900, 0, 8, 0, 1, .rwx, 16, .u, .page, .pm, .all⟩
/-- FORCE_RETRAIN (Table 12.5, R318). -/
def Reg.RING_FORCE_RETRAIN : FieldSpec := ⟨307, .ring, 0x900, 8, 1, 0, 1, .wo, 0, .u, .page, .pm, .all⟩
/-- LOOPBACK (Table 12.5, R318). -/
def Reg.RING_LOOPBACK : FieldSpec := ⟨308, .ring, 0x900, 9, 1, 0, 1, .rwx, 0, .u, .page, .pm, .all⟩
/-- MT_SEL (Table 14.6, R355). -/
def Reg.METER_MT_SEL : FieldSpec := ⟨309, .meter, 0x100, 0, 4, 0, 1, .rw, 0, .b, .agent, .any, .all⟩
/-- CNT_LO (Table 14.6, R355). -/
def Reg.METER_CNT_LO : FieldSpec := ⟨310, .meter, 0x104, 0, 32, 8, 6, .ro, 0, .c, .meterTen, .pm, .owner⟩
/-- CNT_HI (Table 14.6, R355). -/
def Reg.METER_CNT_HI : FieldSpec := ⟨311, .meter, 0x108, 0, 32, 8, 6, .ro, 0, .c, .meterTen, .pm, .owner⟩
/-- UNASSIGNED_LO (Table 14.6, R355). -/
def Reg.METER_UNASSIGNED_LO : FieldSpec := ⟨312, .meter, 0x134, 0, 32, 0, 1, .ro, 0, .c, .block, .pm, .all⟩
/-- UNASSIGNED_HI (Table 14.6, R355). -/
def Reg.METER_UNASSIGNED_HI : FieldSpec := ⟨313, .meter, 0x138, 0, 32, 0, 1, .ro, 0, .c, .block, .pm, .all⟩
/-- MEPOCH (Table 14.6, R355). -/
def Reg.METER_MEPOCH : FieldSpec := ⟨314, .meter, 0x13C, 0, 16, 0, 1, .ro, 0, .c, .meterTen, .pm, .owner⟩
/-- READ_SEQ (Table 14.6, R355). -/
def Reg.METER_READ_SEQ : FieldSpec := ⟨315, .meter, 0x140, 0, 32, 0, 1, .ro, 0, .c, .meterTen, .pm, .owner⟩
/-- KEY_ID (Table 14.6, R355). -/
def Reg.METER_KEY_ID : FieldSpec := ⟨316, .meter, 0x144, 0, 16, 0, 1, .ro, 0, .c, .meterTen, .pm, .owner⟩
/-- KEY_VALID (Table 14.6, R355). -/
def Reg.METER_KEY_VALID : FieldSpec := ⟨317, .meter, 0x144, 16, 1, 0, 1, .ro, 0, .c, .meterTen, .pm, .owner⟩
/-- KEY_DATA (Table 14.6, R355). -/
def Reg.METER_KEY_DATA : FieldSpec := ⟨318, .meter, 0x148, 0, 32, 0, 1, .wo, 0, .c, .meterTen, .pm, .owner⟩
/-- KEY_COMMIT (Table 14.6, R355). -/
def Reg.METER_KEY_COMMIT : FieldSpec := ⟨319, .meter, 0x14C, 0, 1, 0, 1, .wo, 0, .c, .meterTen, .pm, .owner⟩
/-- KEY_CLEAR (Table 14.6, R355). -/
def Reg.METER_KEY_CLEAR : FieldSpec := ⟨320, .meter, 0x14C, 1, 1, 0, 1, .wo, 0, .c, .meterTen, .pm, .owner⟩
/-- KEY_ID_IN (Table 14.6, R355). -/
def Reg.METER_KEY_ID_IN : FieldSpec := ⟨321, .meter, 0x14C, 16, 16, 0, 1, .wo, 0, .c, .meterTen, .pm, .owner⟩
/-- FL_SEL (Table 15.8, R372). -/
def Reg.FAULT_FL_SEL : FieldSpec := ⟨322, .fault, 0x100, 0, 4, 0, 1, .rw, 0, .b, .agent, .any, .all⟩
/-- FL_COUNT (Table 15.8, R372). -/
def Reg.FAULT_FL_COUNT : FieldSpec := ⟨323, .fault, 0x104, 0, 5, 0, 1, .ro, 0, .t, .flSel, .own, .owner⟩
/-- FL_LOST (Table 15.8, R372). -/
def Reg.FAULT_FL_LOST : FieldSpec := ⟨324, .fault, 0x104, 16, 16, 0, 1, .ro, 0, .t, .flSel, .own, .owner⟩
/-- FL_POP (Table 15.8, R372). -/
def Reg.FAULT_FL_POP : FieldSpec := ⟨325, .fault, 0x108, 0, 1, 0, 1, .wo, 0, .t, .flSel, .own, .owner⟩
/-- FL_REC (Table 15.8, R372). -/
def Reg.FAULT_FL_REC : FieldSpec := ⟨326, .fault, 0x10C, 0, 32, 4, 8, .ro, 0, .t, .flSel, .own, .owner⟩
/-- QUAR_MAP (Table 15.8, R372). -/
def Reg.FAULT_QUAR_MAP : FieldSpec := ⟨327, .fault, 0x130, 0, 32, 4, 32, .ro, 0, .c, .block, .pm, .perArray⟩
/-- QUAR_CNT (Table 15.8, R372). -/
def Reg.FAULT_QUAR_CNT : FieldSpec := ⟨328, .fault, 0x1B0, 0, 11, 0, 1, .ro, 0, .c, .block, .pm, .pm⟩
/-- REPLAY_CNT (Table 15.8, R372). -/
def Reg.FAULT_REPLAY_CNT : FieldSpec := ⟨329, .fault, 0x1B4, 0, 32, 0, 1, .ro, 0, .b, .block, .pm, .pm⟩
/-- MOVE_CNT (Table 15.8, R372). -/
def Reg.FAULT_MOVE_CNT : FieldSpec := ⟨330, .fault, 0x1B8, 0, 32, 0, 1, .ro, 0, .b, .block, .pm, .pm⟩
/-- FAULTED_CNT (Table 15.8, R372). -/
def Reg.FAULT_FAULTED_CNT : FieldSpec := ⟨331, .fault, 0x1BC, 0, 32, 0, 1, .ro, 0, .b, .block, .pm, .pm⟩
/-- RCPT_USED (Table 15.8, R372). -/
def Reg.FAULT_RCPT_USED : FieldSpec := ⟨332, .fault, 0x1C0, 0, 15, 0, 1, .ro, 0, .b, .block, .pm, .pm⟩
/-- INJ_ARR (Table 15.9, R372). -/
def Reg.FAULT_INJ_ARR : FieldSpec := ⟨333, .fault, 0x900, 0, 10, 0, 1, .rwx, 0, .u, .block, .pm, .pm⟩
/-- INJ_CLASS (Table 15.9, R372). -/
def Reg.FAULT_INJ_CLASS : FieldSpec := ⟨334, .fault, 0x900, 10, 4, 0, 1, .rwx, 0, .u, .block, .pm, .pm⟩
/-- INJ_ARM (Table 15.9, R372). -/
def Reg.FAULT_INJ_ARM : FieldSpec := ⟨335, .fault, 0x900, 14, 1, 0, 1, .rwx, 0, .u, .block, .pm, .pm⟩
/-- RC_IDX (Table 15.9, R372). -/
def Reg.FAULT_RC_IDX : FieldSpec := ⟨336, .fault, 0x904, 0, 14, 0, 1, .rwx, 0, .u, .block, .pm, .pm⟩
/-- RC_WORD (Table 15.9, R372). -/
def Reg.FAULT_RC_WORD : FieldSpec := ⟨337, .fault, 0x908, 0, 32, 4, 16, .ro, 0, .u, .block, .pm, .pm⟩
/-- DL_SEL (Table 15.10, R373). -/
def Reg.DLOG_DL_SEL : FieldSpec := ⟨338, .dlog, 0x100, 0, 4, 0, 1, .rw, 0, .b, .agent, .any, .all⟩
/-- DL_COUNT (Table 15.10, R373). -/
def Reg.DLOG_DL_COUNT : FieldSpec := ⟨339, .dlog, 0x104, 0, 7, 0, 1, .ro, 0, .t, .dlSel, .own, .owner⟩
/-- DL_LOST (Table 15.10, R373). -/
def Reg.DLOG_DL_LOST : FieldSpec := ⟨340, .dlog, 0x104, 16, 16, 0, 1, .ro, 0, .t, .dlSel, .own, .owner⟩
/-- DL_POP (Table 15.10, R373). -/
def Reg.DLOG_DL_POP : FieldSpec := ⟨341, .dlog, 0x108, 0, 1, 0, 1, .wo, 0, .t, .dlSel, .own, .owner⟩
/-- DL_REC (Table 15.10, R373). -/
def Reg.DLOG_DL_REC : FieldSpec := ⟨342, .dlog, 0x10C, 0, 32, 4, 8, .ro, 0, .t, .dlSel, .own, .owner⟩
/-- DL_WAITING (Table 15.10, R373). -/
def Reg.DLOG_DL_WAITING : FieldSpec := ⟨343, .dlog, 0x12C, 0, 32, 0, 1, .ro, 0, .t, .dlSel, .own, .owner⟩
/-- TB_NOW_LO (Table 14.7, R356). -/
def Reg.STAMP_TB_NOW_LO : FieldSpec := ⟨344, .stamp, 0x100, 0, 32, 0, 1, .ro, 0, .c, .block, .pm, .all⟩
/-- TB_NOW_HI (Table 14.7, R356). -/
def Reg.STAMP_TB_NOW_HI : FieldSpec := ⟨345, .stamp, 0x104, 0, 32, 0, 1, .ro, 0, .c, .block, .pm, .all⟩
/-- TB_VALID (Table 14.7, R356). -/
def Reg.STAMP_TB_VALID : FieldSpec := ⟨346, .stamp, 0x108, 0, 1, 0, 1, .ro, 0, .c, .block, .pm, .all⟩
/-- ST_SEL (Table 14.7, R356). -/
def Reg.STAMP_ST_SEL : FieldSpec := ⟨347, .stamp, 0x10C, 0, 4, 0, 1, .rw, 0, .b, .agent, .any, .all⟩
/-- ST_BASE_LO (Table 14.7, R356). -/
def Reg.STAMP_ST_BASE_LO : FieldSpec := ⟨348, .stamp, 0x110, 5, 27, 0, 1, .rw, 0, .t, .stampTen, .own, .owner⟩
/-- ST_BASE_HI (Table 14.7, R356). -/
def Reg.STAMP_ST_BASE_HI : FieldSpec := ⟨349, .stamp, 0x114, 0, 16, 0, 1, .rw, 0, .t, .stampTen, .own, .owner⟩
/-- ST_COUNT (Table 14.7, R356). -/
def Reg.STAMP_ST_COUNT : FieldSpec := ⟨350, .stamp, 0x118, 0, 17, 0, 1, .rw, 0, .t, .stampTen, .own, .owner⟩
/-- ST_NEXT (Table 14.7, R356). -/
def Reg.STAMP_ST_NEXT : FieldSpec := ⟨351, .stamp, 0x11C, 0, 16, 0, 1, .ro, 0, .t, .stampTen, .own, .owner⟩
/-- ST_LOST (Table 14.7, R356). -/
def Reg.STAMP_ST_LOST : FieldSpec := ⟨352, .stamp, 0x120, 0, 32, 0, 1, .ro, 0, .t, .stampTen, .own, .owner⟩
/-- STATE (Table 10.19, R266). -/
def Reg.PROG_STATE : FieldSpec := ⟨353, .prog, 0x100, 0, 2, 0, 1, .ro, 0, .b, .array, .own, .owner⟩
/-- TEN (Table 10.19, R266). -/
def Reg.PROG_TEN : FieldSpec := ⟨354, .prog, 0x100, 2, 4, 0, 1, .ro, 0, .b, .array, .own, .owner⟩
/-- ROUTINE (Table 10.19, R266). -/
def Reg.PROG_ROUTINE : FieldSpec := ⟨355, .prog, 0x104, 0, 10, 0, 1, .ro, 0, .b, .array, .own, .owner⟩
/-- ENTRY (Table 10.19, R266). -/
def Reg.PROG_ENTRY : FieldSpec := ⟨356, .prog, 0x104, 10, 10, 0, 1, .ro, 0, .b, .array, .own, .owner⟩
/-- DEPTH (Table 10.19, R266). -/
def Reg.PROG_DEPTH : FieldSpec := ⟨357, .prog, 0x104, 20, 3, 0, 1, .ro, 0, .b, .array, .own, .owner⟩
/-- REP_DEPTH (Table 10.19, R266). -/
def Reg.PROG_REP_DEPTH : FieldSpec := ⟨358, .prog, 0x104, 23, 2, 0, 1, .ro, 0, .b, .array, .own, .owner⟩
/-- PC (Table 10.19, R266). -/
def Reg.PROG_PC : FieldSpec := ⟨359, .prog, 0x108, 0, 20, 0, 1, .ro, 0, .b, .array, .own, .owner⟩
/-- RECEIPT (Table 10.19, R266). -/
def Reg.PROG_RECEIPT : FieldSpec := ⟨360, .prog, 0x10C, 0, 14, 0, 1, .ro, 0, .b, .array, .own, .owner⟩
/-- QFILL (Table 10.19, R266). -/
def Reg.PROG_QFILL : FieldSpec := ⟨361, .prog, 0x10C, 14, 10, 0, 1, .ro, 0, .b, .array, .own, .owner⟩
/-- DL_CNT (Table 10.19, R266). -/
def Reg.PROG_DL_CNT : FieldSpec := ⟨362, .prog, 0x110, 0, 32, 0, 1, .ro, 0, .b, .array, .own, .owner⟩
/-- EVT_ARR_LO (Table 10.19, R266). -/
def Reg.PROG_EVT_ARR_LO : FieldSpec := ⟨363, .prog, 0x114, 0, 32, 0, 1, .w1c, 0, .b, .page, .own, .owner⟩
/-- EVT_ARR_HI (Table 10.19, R266). -/
def Reg.PROG_EVT_ARR_HI : FieldSpec := ⟨364, .prog, 0x118, 0, 32, 0, 1, .w1c, 0, .b, .page, .own, .owner⟩
/-- WIN_IDX (Table 10.20, R266). -/
def Reg.PROG_WIN_IDX : FieldSpec := ⟨365, .prog, 0x900, 0, 8, 0, 1, .rwx, 0, .u, .array, .own, .owner⟩
/-- WIN_CLASS (Table 10.20, R266). -/
def Reg.PROG_WIN_CLASS : FieldSpec := ⟨366, .prog, 0x900, 8, 3, 0, 1, .rwx, 0, .u, .array, .own, .owner⟩
/-- WIN_DATA (Table 10.20, R266). -/
def Reg.PROG_WIN_DATA : FieldSpec := ⟨367, .prog, 0x904, 0, 32, 0, 1, .ro, 0, .u, .array, .own, .owner⟩
/-- HALT_PC (Table 10.20, R266). -/
def Reg.PROG_HALT_PC : FieldSpec := ⟨368, .prog, 0x908, 0, 20, 0, 1, .rwx, 0, .u, .array, .own, .owner⟩
/-- HALT_ROUTINE (Table 10.20, R266). -/
def Reg.PROG_HALT_ROUTINE : FieldSpec := ⟨369, .prog, 0x908, 20, 10, 0, 1, .rwx, 0, .u, .array, .own, .owner⟩
/-- HALT_EN (Table 10.20, R266). -/
def Reg.PROG_HALT_EN : FieldSpec := ⟨370, .prog, 0x908, 30, 1, 0, 1, .rwx, 0, .u, .array, .own, .owner⟩
/-- RESUME (Table 10.20, R266). -/
def Reg.PROG_RESUME : FieldSpec := ⟨371, .prog, 0x908, 31, 1, 0, 1, .wo, 0, .u, .array, .own, .owner⟩
/-- BT_COUNT_LO (Table 2.5, R46). -/
def Reg.TIME_BT_COUNT_LO : FieldSpec := ⟨372, .time, 0x100, 0, 32, 0, 1, .ro, 0, .b, .array, .own, .owner⟩
/-- BT_COUNT_HI (Table 2.5, R46). -/
def Reg.TIME_BT_COUNT_HI : FieldSpec := ⟨373, .time, 0x104, 0, 32, 0, 1, .ro, 0, .b, .array, .own, .owner⟩
/-- BT_FROZEN_LO (Table 2.5, R46). -/
def Reg.TIME_BT_FROZEN_LO : FieldSpec := ⟨374, .time, 0x108, 0, 32, 0, 1, .ro, 0, .b, .array, .own, .owner⟩
/-- BT_FROZEN_HI (Table 2.5, R46). -/
def Reg.TIME_BT_FROZEN_HI : FieldSpec := ⟨375, .time, 0x10C, 0, 32, 0, 1, .ro, 0, .b, .array, .own, .owner⟩
/-- BT_HOLD (Table 2.5, R46). -/
def Reg.TIME_BT_HOLD : FieldSpec := ⟨376, .time, 0x110, 0, 32, 0, 1, .ro, 0, .b, .array, .own, .owner⟩
/-- FROZEN (Table 2.5, R46). -/
def Reg.TIME_FROZEN : FieldSpec := ⟨377, .time, 0x114, 0, 1, 0, 1, .ro, 0, .b, .array, .own, .owner⟩
/-- CAUSE (Table 2.5, R46). -/
def Reg.TIME_CAUSE : FieldSpec := ⟨378, .time, 0x114, 1, 5, 0, 1, .ro, 0, .b, .array, .own, .owner⟩
/-- WAIT_OBJ (Table 2.5, R46). -/
def Reg.TIME_WAIT_OBJ : FieldSpec := ⟨379, .time, 0x114, 16, 13, 0, 1, .ro, 0, .b, .array, .own, .owner⟩
/-- OBJ_KIND (Table 2.5, R46). -/
def Reg.TIME_OBJ_KIND : FieldSpec := ⟨380, .time, 0x114, 29, 2, 0, 1, .ro, 0, .b, .array, .own, .owner⟩
/-- FRZ_LIMIT (Table 2.5, R46). -/
def Reg.TIME_FRZ_LIMIT : FieldSpec := ⟨381, .time, 0x118, 0, 32, 0, 1, .rw, 16777216, .t, .array, .own, .owner⟩
/-- EVT_ARR_LO (Table 2.5, R46). -/
def Reg.TIME_EVT_ARR_LO : FieldSpec := ⟨382, .time, 0x11C, 0, 32, 0, 1, .w1c, 0, .b, .page, .own, .owner⟩
/-- EVT_ARR_HI (Table 2.5, R46). -/
def Reg.TIME_EVT_ARR_HI : FieldSpec := ⟨383, .time, 0x120, 0, 32, 0, 1, .w1c, 0, .b, .page, .own, .owner⟩
/-- AUDIT_EN (Table 2.6, R46). -/
def Reg.TIME_AUDIT_EN : FieldSpec := ⟨384, .time, 0x900, 0, 1, 0, 1, .rwx, 0, .u, .array, .own, .owner⟩
/-- HOLD_EN (Table 2.6, R46). -/
def Reg.TIME_HOLD_EN : FieldSpec := ⟨385, .time, 0x900, 1, 1, 0, 1, .rwx, 0, .u, .array, .own, .owner⟩
/-- KINDS (Table 2.6, R46). -/
def Reg.TIME_KINDS : FieldSpec := ⟨386, .time, 0x900, 4, 3, 0, 1, .rwx, 7, .u, .array, .own, .owner⟩
/-- COUNT (Table 2.6, R46). -/
def Reg.TIME_COUNT : FieldSpec := ⟨387, .time, 0x904, 0, 7, 0, 1, .ro, 0, .u, .array, .own, .owner⟩
/-- FULL (Table 2.6, R46). -/
def Reg.TIME_FULL : FieldSpec := ⟨388, .time, 0x904, 7, 1, 0, 1, .ro, 0, .u, .array, .own, .owner⟩
/-- LOST (Table 2.6, R46). -/
def Reg.TIME_LOST : FieldSpec := ⟨389, .time, 0x904, 16, 16, 0, 1, .ro, 0, .u, .array, .own, .owner⟩
/-- AUD_IDX (Table 2.6, R46). -/
def Reg.TIME_AUD_IDX : FieldSpec := ⟨390, .time, 0x908, 0, 6, 0, 1, .rwx, 0, .u, .agent, .any, .all⟩
/-- AUD_BEAT (Table 2.6, R46). -/
def Reg.TIME_AUD_BEAT : FieldSpec := ⟨391, .time, 0x90C, 0, 32, 0, 1, .ro, 0, .u, .array, .own, .owner⟩
/-- PC (Table 2.6, R46). -/
def Reg.TIME_PC : FieldSpec := ⟨392, .time, 0x910, 0, 20, 0, 1, .ro, 0, .u, .array, .own, .owner⟩
/-- SLOT (Table 2.6, R46). -/
def Reg.TIME_SLOT : FieldSpec := ⟨393, .time, 0x910, 20, 3, 0, 1, .ro, 0, .u, .array, .own, .owner⟩
/-- KIND (Table 2.6, R46). -/
def Reg.TIME_KIND : FieldSpec := ⟨394, .time, 0x910, 23, 3, 0, 1, .ro, 0, .u, .array, .own, .owner⟩
/-- SHORT (Table 2.6, R46). -/
def Reg.TIME_SHORT : FieldSpec := ⟨395, .time, 0x910, 26, 4, 0, 1, .ro, 0, .u, .array, .own, .owner⟩
/-- HELD (Table 2.6, R46). -/
def Reg.TIME_HELD : FieldSpec := ⟨396, .time, 0x910, 30, 1, 0, 1, .ro, 0, .u, .array, .own, .owner⟩
/-- VALID (Table 2.6, R46). -/
def Reg.TIME_VALID : FieldSpec := ⟨397, .time, 0x910, 31, 1, 0, 1, .ro, 0, .u, .array, .own, .owner⟩
/-- DEST (Table 2.6, R46). -/
def Reg.TIME_DEST : FieldSpec := ⟨398, .time, 0x914, 0, 20, 0, 1, .ro, 0, .u, .array, .own, .owner⟩
/-- DCLASS (Table 2.6, R46). -/
def Reg.TIME_DCLASS : FieldSpec := ⟨399, .time, 0x914, 20, 4, 0, 1, .ro, 0, .u, .array, .own, .owner⟩
/-- AUD_CLEAR (Table 2.6, R46). -/
def Reg.TIME_AUD_CLEAR : FieldSpec := ⟨400, .time, 0x918, 0, 1, 0, 1, .wo, 0, .u, .array, .own, .owner⟩
/-- NARROW (Table 4.8, R107). -/
def Reg.COND_NARROW : FieldSpec := ⟨401, .cond, 0x100, 0, 1, 0, 1, .ro, 0, .c, .array, .own, .owner⟩
/-- BYP_COL (Table 4.8, R107). -/
def Reg.COND_BYP_COL : FieldSpec := ⟨402, .cond, 0x100, 1, 4, 0, 1, .ro, 0, .c, .array, .own, .owner⟩
/-- BYP_SRC (Table 4.8, R107). -/
def Reg.COND_BYP_SRC : FieldSpec := ⟨403, .cond, 0x100, 5, 1, 0, 1, .ro, 0, .c, .array, .own, .owner⟩
/-- DEAD (Table 4.8, R107). -/
def Reg.COND_DEAD : FieldSpec := ⟨404, .cond, 0x100, 6, 1, 0, 1, .ro, 0, .c, .array, .own, .owner⟩
/-- FUSE_PERR (Table 4.8, R107). -/
def Reg.COND_FUSE_PERR : FieldSpec := ⟨405, .cond, 0x100, 7, 1, 0, 1, .ro, 0, .c, .array, .own, .owner⟩
/-- FUSE_REC (Table 4.8, R107). -/
def Reg.COND_FUSE_REC : FieldSpec := ⟨406, .cond, 0x104, 0, 8, 0, 1, .ro, 0, .f, .array, .own, .owner⟩
/-- TALLY_RUNS (Table 4.8, R107). -/
def Reg.COND_TALLY_RUNS : FieldSpec := ⟨407, .cond, 0x108, 0, 32, 0, 1, .ro, 0, .b, .array, .own, .owner⟩
/-- TALLY_MISS_CNT (Table 4.8, R107). -/
def Reg.COND_TALLY_MISS_CNT : FieldSpec := ⟨408, .cond, 0x10C, 0, 32, 0, 1, .ro, 0, .b, .array, .own, .owner⟩
/-- TALLY_SKIP (Table 4.8, R107). -/
def Reg.COND_TALLY_SKIP : FieldSpec := ⟨409, .cond, 0x110, 0, 32, 0, 1, .ro, 0, .b, .array, .own, .owner⟩
/-- MISS_ID (Table 4.8, R107). -/
def Reg.COND_MISS_ID : FieldSpec := ⟨410, .cond, 0x114, 0, 5, 0, 1, .ro, 0, .b, .array, .own, .owner⟩
/-- MISS_ROW (Table 4.8, R107). -/
def Reg.COND_MISS_ROW : FieldSpec := ⟨411, .cond, 0x114, 5, 5, 0, 1, .ro, 0, .b, .array, .own, .owner⟩
/-- SOURCE (Table 4.8, R107). -/
def Reg.COND_SOURCE : FieldSpec := ⟨412, .cond, 0x114, 10, 1, 0, 1, .ro, 0, .b, .array, .own, .owner⟩
/-- VALID (Table 4.8, R107). -/
def Reg.COND_VALID : FieldSpec := ⟨413, .cond, 0x114, 11, 1, 0, 1, .w1c, 0, .b, .array, .own, .owner⟩
/-- MISS_DELTA (Table 4.8, R107). -/
def Reg.COND_MISS_DELTA : FieldSpec := ⟨414, .cond, 0x118, 0, 32, 0, 1, .ro, 0, .b, .array, .own, .owner⟩
/-- BANK_REPEAT (Table 4.8, R107). -/
def Reg.COND_BANK_REPEAT : FieldSpec := ⟨415, .cond, 0x11C, 0, 32, 0, 1, .ro, 0, .b, .array, .own, .owner⟩
/-- EVT_ARR_LO (Table 4.8, R107). -/
def Reg.COND_EVT_ARR_LO : FieldSpec := ⟨416, .cond, 0x120, 0, 32, 0, 1, .w1c, 0, .b, .page, .own, .owner⟩
/-- EVT_ARR_HI (Table 4.8, R107). -/
def Reg.COND_EVT_ARR_HI : FieldSpec := ⟨417, .cond, 0x124, 0, 32, 0, 1, .w1c, 0, .b, .page, .own, .owner⟩
/-- SB_EN (Table 4.8, R107). -/
def Reg.COND_SB_EN : FieldSpec := ⟨418, .cond, 0x128, 0, 1, 0, 1, .rw, 0, .c, .array, .pm, .owner⟩
/-- SB_COL (Table 4.8, R107). -/
def Reg.COND_SB_COL : FieldSpec := ⟨419, .cond, 0x128, 1, 4, 0, 1, .rw, 0, .c, .array, .pm, .owner⟩
/-- SB_PEND (Table 4.8, R107). -/
def Reg.COND_SB_PEND : FieldSpec := ⟨420, .cond, 0x128, 5, 1, 0, 1, .ro, 0, .c, .array, .own, .owner⟩
/-- TALLY_K (Table 4.9, R107). -/
def Reg.COND_TALLY_K : FieldSpec := ⟨421, .cond, 0x900, 0, 3, 0, 1, .rwx, 3, .u, .array, .own, .owner⟩
/-- TALLY_EN (Table 4.9, R107). -/
def Reg.COND_TALLY_EN : FieldSpec := ⟨422, .cond, 0x900, 3, 1, 0, 1, .rwx, 1, .u, .array, .own, .owner⟩
/-- ARR_SEL (R424). -/
def Reg.GROUP_ARR_SEL : FieldSpec := ⟨423, .group, 0x040, 0, 6, 0, 1, .rw, 0, .b, .agent, .any, .all⟩

/-- The fields of a blk page, in ascending offset. -/
def blkFields : List FieldSpec :=
  [Reg.BLK_BLOCK_ID_LO, Reg.BLK_BLOCK_ID_HI, Reg.BLK_IDCODE_ONE, Reg.BLK_IDCODE, Reg.BLK_MEMBER,
   Reg.BLK_STEPPING, Reg.BLK_MY_FID, Reg.BLK_MY_AGENT, Reg.BLK_MAPPED, Reg.BLK_IS_PM,
   Reg.BLK_MY_TEN, Reg.BLK_BOUND, Reg.BLK_NEW_PM_FID, Reg.BLK_PM_KEY, Reg.BLK_HOST_FID,
   Reg.BLK_VALID, Reg.BLK_PV_CNT, Reg.BLK_PV_ADDR, Reg.BLK_PV_REASON, Reg.BLK_PV_VALID,
   Reg.BLK_PV_FID, Reg.BLK_EVQ_USED, Reg.BLK_EVQ_CREDITS, Reg.BLK_ROUTE_DROP_CNT, Reg.BLK_EVT_LOST_CNT,
   Reg.BLK_MAP_REFUSED]

/-- The fields of a pwr page, in ascending offset. -/
def pwrFields : List FieldSpec :=
  [Reg.PWR_DOM_SEL, Reg.PWR_DOM_REQ, Reg.PWR_DOM_STATE, Reg.PWR_REFUSED, Reg.PWR_WHY,
   Reg.PWR_V_REQ, Reg.PWR_PACE_TGT, Reg.PWR_P_EST, Reg.PWR_POWER_CAP, Reg.PWR_P_TOTAL,
   Reg.PWR_CAP_LIMIT, Reg.PWR_HOLD_REQ, Reg.PWR_HOLD, Reg.PWR_HOLD_WHY, Reg.PWR_CAP_WINDOW,
   Reg.PWR_PWR_TIMEOUT, Reg.PWR_V_OVR, Reg.PWR_V_OVR_EN]

/-- The fields of a mon page, in ascending offset. -/
def monFields : List FieldSpec :=
  [Reg.MON_MON_IDX, Reg.MON_MON_KIND, Reg.MON_READING, Reg.MON_READING2, Reg.MON_TJ_HOT,
   Reg.MON_TJ_HOT_IDX, Reg.MON_TJ_THROTTLE, Reg.MON_TJ_CRIT, Reg.MON_VIN, Reg.MON_VIN_VALID,
   Reg.MON_VIN_WARN_LO, Reg.MON_VIN_WARN_HI, Reg.MON_VIN_HOLD, Reg.MON_VIN_RESUME, Reg.MON_HOLD_DWELL,
   Reg.MON_V_WIN, Reg.MON_VMON_OUT]

/-- The fields of a rst page, in ascending offset. -/
def rstFields : List FieldSpec :=
  [Reg.RST_BLOCK_GO, Reg.RST_KEY, Reg.RST_TEN_NUM, Reg.RST_TEN_GO, Reg.RST_ARR_NUM,
   Reg.RST_ARR_GO, Reg.RST_BLOCK_BUSY, Reg.RST_TEN_BUSY, Reg.RST_ARR_BUSY, Reg.RST_REFUSED,
   Reg.RST_TEN_CUR, Reg.RST_ARR_CUR, Reg.RST_ARR_RESULT, Reg.RST_ARR_FCOL, Reg.RST_REJOIN_PEND,
   Reg.RST_COLD_CAUSE, Reg.RST_DBG_LOCK, Reg.RST_BIST_SKIP]

/-- The fields of a ten page, in ascending offset. -/
def tenFields : List FieldSpec :=
  [Reg.TEN_EN, Reg.TEN_CFG_OVERLAP, Reg.TEN_HOST_MASK, Reg.TEN_ARR_UNITS_LO, Reg.TEN_ARR_UNITS_HI,
   Reg.TEN_USABLE, Reg.TEN_SS_BASE, Reg.TEN_SS_SIZE, Reg.TEN_LB_FIRST, Reg.TEN_LB_SIZE,
   Reg.TEN_MB_FIRST, Reg.TEN_MB_SIZE, Reg.TEN_WV_CNT, Reg.TEN_SV_CNT, Reg.TEN_VIOL_ADDR_LO,
   Reg.TEN_VIOL_ADDR_HI, Reg.TEN_VIOL_KIND, Reg.TEN_VIOL_VALID, Reg.TEN_WBASE_LO, Reg.TEN_WBASE_HI,
   Reg.TEN_WEN, Reg.TEN_WLIM_LO, Reg.TEN_WLIM_HI]

/-- The fields of a dsp page, in ascending offset. -/
def dspFields : List FieldSpec :=
  [Reg.DSP_SUB_SEL, Reg.DSP_SUB_EN, Reg.DSP_SUB_TEN, Reg.DSP_SUB_ID, Reg.DSP_SUB_HC_LO,
   Reg.DSP_SUB_HC_HI, Reg.DSP_WIN_USED, Reg.DSP_WIN_INFLIGHT, Reg.DSP_SUB_FLOOR_LO, Reg.DSP_SUB_FLOOR_HI,
   Reg.DSP_MB_SEL, Reg.DSP_MB_COUNT, Reg.DSP_MB_WAITERS, Reg.DSP_HPUT_DROP, Reg.DSP_MB_HPUT,
   Reg.DSP_TS_SEL, Reg.DSP_COL_GEN, Reg.DSP_COL_ARRIVED, Reg.DSP_COL_NEED, Reg.DSP_DISP_HOLD,
   Reg.DSP_RCPT_USED, Reg.DSP_DISP_PAUSE, Reg.DSP_DISP_STEP]

/-- The fields of a subq page, in ascending offset. -/
def subqFields : List FieldSpec :=
  [Reg.SUBQ_SQ_SEL, Reg.SUBQ_DEPTH, Reg.SUBQ_EN, Reg.SUBQ_HELD, Reg.SUBQ_TEN,
   Reg.SUBQ_FREE, Reg.SUBQ_ACCEPTED, Reg.SUBQ_OVERPOST_CNT, Reg.SUBQ_OP_SEQ_LO, Reg.SUBQ_OP_SEQ_HI,
   Reg.SUBQ_OP_SUB, Reg.SUBQ_OP_VALID, Reg.SUBQ_OP_PEND_LO, Reg.SUBQ_OP_PEND_HI, Reg.SUBQ_FD_HOST,
   Reg.SUBQ_FD_QUEUE, Reg.SUBQ_FD_VALID]

/-- The fields of a lib page, in ascending offset. -/
def libFields : List FieldSpec :=
  [Reg.LIB_RT_SEL, Reg.LIB_KIND, Reg.LIB_NARROW_OK, Reg.LIB_VENDOR, Reg.LIB_OWNER,
   Reg.LIB_OLD_LIVE, Reg.LIB_RT_BASE, Reg.LIB_RT_LEN, Reg.LIB_RT_BUNDLES, Reg.LIB_PROFILE,
   Reg.LIB_ROM_VER, Reg.LIB_RAM_FREE, Reg.LIB_LARGEST_FREE, Reg.LIB_LOAD_CNT, Reg.LIB_LL_ROUTINE,
   Reg.LIB_LL_QUEUE, Reg.LIB_LL_STATUS, Reg.LIB_LL_REASON, Reg.LIB_LL_VALID, Reg.LIB_LW_ADDR,
   Reg.LIB_LW_DATA]

/-- The fields of a ftab page, in ascending offset. -/
def ftabFields : List FieldSpec :=
  [Reg.FTAB_FT_ARR, Reg.FTAB_ACTIVE, Reg.FTAB_LOAD_PEND, Reg.FTAB_EPOCH_CNT, Reg.FTAB_PROG_VALID0,
   Reg.FTAB_TAB_VALID0, Reg.FTAB_PROG_VALID1, Reg.FTAB_TAB_VALID1, Reg.FTAB_ROM_VER, Reg.FTAB_TA_LEVEL,
   Reg.FTAB_LOAD_CNT, Reg.FTAB_LAST_QUEUE, Reg.FTAB_LAST_FAULT, Reg.FTAB_WIN_WORD, Reg.FTAB_WIN_SLOT,
   Reg.FTAB_WIN_BANK, Reg.FTAB_FT_WIN_DATA]

/-- The fields of a lbx page, in ascending offset. -/
def lbxFields : List FieldSpec :=
  [Reg.LBX_LBW_BASE, Reg.LBX_LB_COUNT, Reg.LBX_LB_SAT_REL, Reg.LBX_LB_SAT_VALID, Reg.LBX_VALUE,
   Reg.LBX_POST]

/-- The fields of a cache page, in ascending offset. -/
def cacheFields : List FieldSpec :=
  [Reg.CACHE_POOL_SEL, Reg.CACHE_EN, Reg.CACHE_INIT, Reg.CACHE_INIT_BUSY, Reg.CACHE_CFG_OVERLAP,
   Reg.CACHE_OWNER, Reg.CACHE_FORMAT, Reg.CACHE_DIM, Reg.CACHE_PLANES, Reg.CACHE_HEADROOM,
   Reg.CACHE_SEQ_FIRST, Reg.CACHE_SEQ_COUNT, Reg.CACHE_DESC_BASE_LO, Reg.CACHE_DESC_BASE_HI, Reg.CACHE_FT_BASE_LO,
   Reg.CACHE_FT_BASE_HI, Reg.CACHE_FRAME_BASE_LO, Reg.CACHE_FRAME_BASE_HI, Reg.CACHE_FRAME_COUNT, Reg.CACHE_NODE_BASE_LO,
   Reg.CACHE_NODE_BASE_HI, Reg.CACHE_NODE_COUNT, Reg.CACHE_FREE_FRAMES, Reg.CACHE_RETIRING, Reg.CACHE_FREE_NODES,
   Reg.CACHE_LIVE_SEQS, Reg.CACHE_SAT_CNT, Reg.CACHE_LOW_MARK, Reg.CACHE_ERR_SEQ, Reg.CACHE_ERR_STATUS,
   Reg.CACHE_ERR_QUEUE, Reg.CACHE_ERR_VALID, Reg.CACHE_FREE_HEAD, Reg.CACHE_NODE_HEAD, Reg.CACHE_COW_ALWAYS,
   Reg.CACHE_FENCE_PEND]

/-- The fields of a walk page, in ascending offset. -/
def walkFields : List FieldSpec :=
  [Reg.WALK_WALK_CNT, Reg.WALK_SL_HIT, Reg.WALK_SL_MISS, Reg.WALK_PH_MISS, Reg.WALK_NULL_READS,
   Reg.WALK_INFLIGHT, Reg.WALK_WF_SEQ, Reg.WALK_WF_REASON, Reg.WALK_WF_VALID, Reg.WALK_WF_PAGE,
   Reg.WALK_WALK_LIMIT, Reg.WALK_PREFETCH, Reg.WALK_SL_FLUSH, Reg.WALK_PH_FLUSH]

/-- The fields of a mport page, in ascending offset. -/
def mportFields : List FieldSpec :=
  [Reg.MPORT_CH_SEL, Reg.MPORT_RD_BYTES_LO, Reg.MPORT_RD_BYTES_HI, Reg.MPORT_WR_BYTES_LO, Reg.MPORT_WR_BYTES_HI,
   Reg.MPORT_OUTSTANDING, Reg.MPORT_CH_ERR_CNT, Reg.MPORT_TS_SEL, Reg.MPORT_STG_BASE, Reg.MPORT_STG_SIZE,
   Reg.MPORT_OVF_BASE_LO, Reg.MPORT_OVF_BASE_HI, Reg.MPORT_OVF_SIZE, Reg.MPORT_STG_USED, Reg.MPORT_OVF_USED,
   Reg.MPORT_ERR_ADDR_LO, Reg.MPORT_ERR_ADDR_HI, Reg.MPORT_ERR_STATUS, Reg.MPORT_ERR_KIND, Reg.MPORT_ERR_SEALED,
   Reg.MPORT_ERR_TEN, Reg.MPORT_ERR_VALID, Reg.MPORT_VIOL_REASON, Reg.MPORT_VIOL_CH, Reg.MPORT_VIOL_TAG,
   Reg.MPORT_VIOL_VALID, Reg.MPORT_VIOL_CNT, Reg.MPORT_OFFLOAD_SHARE, Reg.MPORT_RESP_TIMEOUT]

/-- The fields of a ring page, in ascending offset. -/
def ringFields : List FieldSpec :=
  [Reg.RING_LINK_EN, Reg.RING_LINK_STATE, Reg.RING_FAIL_WHY, Reg.RING_RING_ID, Reg.RING_RING_POS,
   Reg.RING_PEER_ID, Reg.RING_PEER_POS, Reg.RING_RTT_NS, Reg.RING_CH_SEL, Reg.RING_CH_EN,
   Reg.RING_CLASS, Reg.RING_GATED, Reg.RING_RELAY_EN, Reg.RING_RELAY_CH, Reg.RING_CH_TEN,
   Reg.RING_RES_SLOTS, Reg.RING_MAILBAG, Reg.RING_LBX, Reg.RING_TAG_LO, Reg.RING_TAG_HI,
   Reg.RING_BUF_BASE, Reg.RING_HDR_BASE, Reg.RING_BUF_SIZE, Reg.RING_NBUF, Reg.RING_CRED,
   Reg.RING_MSGS, Reg.RING_RES_LATE, Reg.RING_TX_BYTES_LO, Reg.RING_TX_BYTES_HI, Reg.RING_RX_BYTES_LO,
   Reg.RING_RX_BYTES_HI, Reg.RING_RETRIES, Reg.RING_CRC_ERR, Reg.RING_VIOL_CNT, Reg.RING_MSG_DROP_CNT,
   Reg.RING_VIOL_REASON, Reg.RING_VIOL_CH, Reg.RING_VIOL_SEQ, Reg.RING_VIOL_VALID, Reg.RING_RES_FREE,
   Reg.RING_CRED_FREE, Reg.RING_NAK_LIMIT, Reg.RING_FORCE_RETRAIN, Reg.RING_LOOPBACK]

/-- The fields of a meter page, in ascending offset. -/
def meterFields : List FieldSpec :=
  [Reg.METER_MT_SEL, Reg.METER_CNT_LO, Reg.METER_CNT_HI, Reg.METER_UNASSIGNED_LO, Reg.METER_UNASSIGNED_HI,
   Reg.METER_MEPOCH, Reg.METER_READ_SEQ, Reg.METER_KEY_ID, Reg.METER_KEY_VALID, Reg.METER_KEY_DATA,
   Reg.METER_KEY_COMMIT, Reg.METER_KEY_CLEAR, Reg.METER_KEY_ID_IN]

/-- The fields of a fault page, in ascending offset. -/
def faultFields : List FieldSpec :=
  [Reg.FAULT_FL_SEL, Reg.FAULT_FL_COUNT, Reg.FAULT_FL_LOST, Reg.FAULT_FL_POP, Reg.FAULT_FL_REC,
   Reg.FAULT_QUAR_MAP, Reg.FAULT_QUAR_CNT, Reg.FAULT_REPLAY_CNT, Reg.FAULT_MOVE_CNT, Reg.FAULT_FAULTED_CNT,
   Reg.FAULT_RCPT_USED, Reg.FAULT_INJ_ARR, Reg.FAULT_INJ_CLASS, Reg.FAULT_INJ_ARM, Reg.FAULT_RC_IDX,
   Reg.FAULT_RC_WORD]

/-- The fields of a dlog page, in ascending offset. -/
def dlogFields : List FieldSpec :=
  [Reg.DLOG_DL_SEL, Reg.DLOG_DL_COUNT, Reg.DLOG_DL_LOST, Reg.DLOG_DL_POP, Reg.DLOG_DL_REC,
   Reg.DLOG_DL_WAITING]

/-- The fields of a stamp page, in ascending offset. -/
def stampFields : List FieldSpec :=
  [Reg.STAMP_TB_NOW_LO, Reg.STAMP_TB_NOW_HI, Reg.STAMP_TB_VALID, Reg.STAMP_ST_SEL, Reg.STAMP_ST_BASE_LO,
   Reg.STAMP_ST_BASE_HI, Reg.STAMP_ST_COUNT, Reg.STAMP_ST_NEXT, Reg.STAMP_ST_LOST]

/-- The fields of a prog page, in ascending offset. -/
def progFields : List FieldSpec :=
  [Reg.PROG_STATE, Reg.PROG_TEN, Reg.PROG_ROUTINE, Reg.PROG_ENTRY, Reg.PROG_DEPTH,
   Reg.PROG_REP_DEPTH, Reg.PROG_PC, Reg.PROG_RECEIPT, Reg.PROG_QFILL, Reg.PROG_DL_CNT,
   Reg.PROG_EVT_ARR_LO, Reg.PROG_EVT_ARR_HI, Reg.PROG_WIN_IDX, Reg.PROG_WIN_CLASS, Reg.PROG_WIN_DATA,
   Reg.PROG_HALT_PC, Reg.PROG_HALT_ROUTINE, Reg.PROG_HALT_EN, Reg.PROG_RESUME]

/-- The fields of a time page, in ascending offset. -/
def timeFields : List FieldSpec :=
  [Reg.TIME_BT_COUNT_LO, Reg.TIME_BT_COUNT_HI, Reg.TIME_BT_FROZEN_LO, Reg.TIME_BT_FROZEN_HI, Reg.TIME_BT_HOLD,
   Reg.TIME_FROZEN, Reg.TIME_CAUSE, Reg.TIME_WAIT_OBJ, Reg.TIME_OBJ_KIND, Reg.TIME_FRZ_LIMIT,
   Reg.TIME_EVT_ARR_LO, Reg.TIME_EVT_ARR_HI, Reg.TIME_AUDIT_EN, Reg.TIME_HOLD_EN, Reg.TIME_KINDS,
   Reg.TIME_COUNT, Reg.TIME_FULL, Reg.TIME_LOST, Reg.TIME_AUD_IDX, Reg.TIME_AUD_BEAT,
   Reg.TIME_PC, Reg.TIME_SLOT, Reg.TIME_KIND, Reg.TIME_SHORT, Reg.TIME_HELD,
   Reg.TIME_VALID, Reg.TIME_DEST, Reg.TIME_DCLASS, Reg.TIME_AUD_CLEAR]

/-- The fields of a cond page, in ascending offset. -/
def condFields : List FieldSpec :=
  [Reg.COND_NARROW, Reg.COND_BYP_COL, Reg.COND_BYP_SRC, Reg.COND_DEAD, Reg.COND_FUSE_PERR,
   Reg.COND_FUSE_REC, Reg.COND_TALLY_RUNS, Reg.COND_TALLY_MISS_CNT, Reg.COND_TALLY_SKIP, Reg.COND_MISS_ID,
   Reg.COND_MISS_ROW, Reg.COND_SOURCE, Reg.COND_VALID, Reg.COND_MISS_DELTA, Reg.COND_BANK_REPEAT,
   Reg.COND_EVT_ARR_LO, Reg.COND_EVT_ARR_HI, Reg.COND_SB_EN, Reg.COND_SB_COL, Reg.COND_SB_PEND,
   Reg.COND_TALLY_K, Reg.COND_TALLY_EN]

/-- The fields of a group page, in ascending offset. -/
def groupFields : List FieldSpec :=
  [Reg.GROUP_ARR_SEL]

/-- The fields of a page of the given kind. -/
def pageFields (p : PageKind) : List FieldSpec :=
  match p with
  | .blk => blkFields
  | .pwr => pwrFields
  | .mon => monFields
  | .rst => rstFields
  | .ten => tenFields
  | .dsp => dspFields
  | .subq => subqFields
  | .lib => libFields
  | .ftab => ftabFields
  | .lbx => lbxFields
  | .cache => cacheFields
  | .walk => walkFields
  | .mport => mportFields
  | .ring => ringFields
  | .meter => meterFields
  | .fault => faultFields
  | .dlog => dlogFields
  | .stamp => stampFields
  | .prog => progFields
  | .time => timeFields
  | .cond => condFields
  | .group => groupFields

/-- Every field of the register tables. -/
def allFields : List FieldSpec :=
  blkFields ++ pwrFields ++ monFields ++ rstFields ++ tenFields ++ dspFields ++ subqFields ++ libFields ++ ftabFields ++ lbxFields ++ cacheFields ++ walkFields ++ mportFields ++ ringFields ++ meterFields ++ faultFields ++ dlogFields ++ stampFields ++ progFields ++ timeFields ++ condFields ++ groupFields

/-- Register fields that hold a value other than their reset value, by `FieldSpec.key`. -/
abbrev Regs := Tbl Nat

/-- The storage key of instance `i` of a field; `j` numbers its repetitions. -/
def FieldSpec.key (f : FieldSpec) (i : Nat) (j : Nat := 0) : Nat := f.id * 2 ^ 40 + i * 2 ^ 8 + j

/-- The value of a field instance: its reset value unless another was stored. -/
def Regs.get (r : Regs) (f : FieldSpec) (i : Nat) (j : Nat := 0) : Nat := Tbl.get f.reset r (f.key i j) % 2 ^ f.width

/-- Stores a value, cut to the field's width. -/
def Regs.set (r : Regs) (f : FieldSpec) (i : Nat) (v : Nat) (j : Nat := 0) : Regs :=
  Tbl.set f.reset r (f.key i j) (v % 2 ^ f.width)

/-- Adds to a counter field, saturating at its width. -/
def Regs.bump (r : Regs) (f : FieldSpec) (i : Nat) (n : Nat := 1) : Regs :=
  r.set f i (min (r.get f i + n) (2 ^ f.width - 1))

/-- The field a storage key belongs to. -/
def fieldOfKey (k : Nat) : Option FieldSpec := allFields.find? (fun f => f.id == k / 2 ^ 40)
/-- The instance a storage key belongs to. -/
def instOfKey (k : Nat) : Nat := k / 2 ^ 8 % 2 ^ 32

/-- Returns to reset every field instance that `sel` picks. -/
def Regs.reset (r : Regs) (sel : FieldSpec → Nat → Bool) : Regs :=
  r.filter (fun e => match fieldOfKey e.1 with
    | some f => !(sel f (instOfKey e.1))
    | none => true)

end Sys2Proof.Machine
end

