-- ==== Sys2Proof/Machine/State.lean ====
section
/-! DEFINITION. The state of the T1024 as plain data, and the state after COLD reset. -/
namespace Sys2Proof.Machine

/-- Why the machine stops with a fault. -/
inductive Fault where
  /-- Raised by a command that names a power domain, or a monitor of one, above 23, which Table 16.1 does not have. Safe. -/
  | noSuchDomain
deriving DecidableEq, Repr

/-- Why a command has no meaning. -/
inductive Refusal where
  /-- Raised by an arm of `exec` that has no meaning yet, with its mnemonic. Safe. -/
  | notModelled (mnemonic : String)
deriving DecidableEq, Repr

/-! ### Arrays -/

/-- The slice a feeder presents: format code of Table 10.3 (1 to 4) and codes of its elements, row i, step e at i × k + e. -/
structure Slice where
  code : Nat := 1
  elems : List Nat := []
deriving DecidableEq, Repr

/-- A pointer register (R237). -/
structure Pointer where
  value : Nat := 0
  base : Nat := 0
  inc : Word := 0
  level : Nat := 0
  rewind : Bool := false
deriving DecidableEq, Repr

/-- A comparator: relation, counter, operand and result (R239). -/
structure Comparator where
  rel : Nat := 0
  ct : Nat := 0
  osrc : Bool := false
  imm : Nat := 0
  result : Bool := false
deriving DecidableEq, Repr

/-- What the tally decision needs to know of a run (R94). -/
structure RunInfo where
  landings : Nat := 0
  scales : Nat := 0
  loaded : Bool := false
deriving DecidableEq, Repr

/-- The run that the drain unit is taking from the shadow bank (R83). -/
structure Drain where
  grp : Nat := 0
  dest : SwapDest := .discard
  tile : Nat := 0
  info : RunInfo := {}
  scale : List (Nat × Word) := []
deriving DecidableEq, Repr

/-- A user function slot: the 288 words of its image (Table 5.9); all zero when empty. -/
structure FuncImage where
  words : List Word := []
deriving DecidableEq, Repr

/-- A destination that audit and hold mode watch (DCLASS of Table 2.6). -/
inductive Dest where
  | s (n : Nat)
  | v (n : Nat)
  | pt (n : Nat)
  | ct (n : Nat)
  | cmp (n : Nat)
  | grp (n : Nat)
  | store (a : Nat)
deriving DecidableEq, Repr

/-- What an operation in flight does when it lands. -/
inductive Landing where
  | sreg (r : Nat) (v : Word)
  | vreg (r : Nat) (v : List Word)
  | rsumW (v : List Word)
  | eval (vals : List Word) (sum : Bool) (toReg : Option Nat)
  | ptset (n : Nat) (v : Nat)
  | ptcfg (n : Nat) (inc : Word) (level : Nat) (rewind : Bool)
  | counter (n : Nat) (v : Word)
  | cmpCfg (n : Nat) (c : Comparator)
  | cmpEval (n : Nat) (r : Bool)
  | desc (n : Nat) (ws : List Word)
  | bytes (cells : List (Nat × List Byte))
  | shared (addr : Nat) (bs : List Byte)
  | feeder (sideB : Bool) (sl : Slice)
  | mma (a b : Slice) (f : MmaFields)
  | dotAdd (f : DotFields) (x : List (List Nat)) (q : List Nat)
  | axpyAdd (f : AxpyFields) (x : List (List Nat)) (p : List Word)
  | rowscale (g : Nat) (fs : List Word)
  | swap (g : Nat) (d : SwapDest) (tile : Nat)
  | drain (row : Nat)
  | loadRow (g : Nat) (addr : Nat) (row : Nat) (got : List Word)
  | guard (lanes : List Nat)
  | deliver (targets : List Nat) (addr : Nat) (bs : List Byte) (win : Option Nat)
  | astg (mu gd : Word) (ks : List Word) (sm : Nat) (rst : Bool)
  | epoch
  | rsumAdd (v : List Word)
deriving DecidableEq, Repr

/-- Where an operation in flight comes from, as audit mode logs it: the beat and the program counter of its bundle, its slot, and whether
hold mode kept the bundle back (Table 2.6). -/
structure Origin where
  beat : Nat := 0
  pc : Nat := 0
  slot : Nat := 0
  held : Bool := false
deriving DecidableEq, Repr

/-- An operation in flight: beats left until it lands, its place in the order of R37 and Table 4.4, what it does, the
stream engine and MOVE number it belongs to (engine 4: none), the waves completed since it issued, and in audit mode where it comes
from (R43). -/
structure Flight where
  left : Nat
  rank : Nat
  op : Landing
  eng : Nat := 4
  no : Nat := 0
  age : Nat := 0
  org : Origin := {}
deriving DecidableEq, Repr

/-- An operation of the present beat that waits for something outside the array (R32). -/
inductive Stalled where
  | feederRead (sideB : Bool) (desc : Nat) (kstep : Nat)
  | dotRead (f : DotFields)
  | axpyRead (f : AxpyFields)
  | drainOut (engine : Nat) (row : Nat)
  | outbound (engine : Nat)
  | atomic (engine : Nat)
  | lbWait (obj : Nat) (target : Nat)
  | mbTake (obj : Nat) (sd : Nat)
  | mbPut (obj : Nat) (h : Word)
  | arrive
  | nextBase (engine : Nat)
  | staging
deriving DecidableEq, Repr

/-- What the sequencer of an array does (STATE of Table 10.19). -/
inductive SeqState where
  | idle
  | running
  | ending
  | halted
deriving DecidableEq, Repr

/-- An open REPEAT: its first body word, body length, iterations left and level (R249). -/
structure Rep where
  start : Nat
  body : Nat
  iters : Nat
  level : Nat
deriving DecidableEq, Repr

/-- One call frame (R251). -/
structure Frame where
  routine : Nat
  pc : Nat
  byCall : Bool
  version : Nat
  reps : List Rep := []
deriving DecidableEq, Repr

/-- Where the sequencer goes after the present bundle (R249, R251, R252). -/
inductive Flow where
  | next
  | open_ (body iters : Nat)
  | skip (body : Nat)
  | call (routine version : Nat)
  | ret
  | stop
deriving DecidableEq, Repr

/-- An entry of the audit log (Table 2.6). -/
structure AuditEntry where
  beat : Nat
  pc : Nat
  slot : Nat
  kind : Nat
  short : Nat
  held : Bool
  dest : Dest
deriving DecidableEq, Repr

/-- A dead-letter entry (Table 15.6). -/
structure DeadLetter where
  cause : Nat
  slot : Nat
  ten : Nat
  arr : Nat
  attempt : Nat
  pc : Nat
  routine : Nat
  beat : Nat
  receipt : Nat
  word : Nat
deriving DecidableEq, Repr

/-- The arming of a stream engine (R292, Table 11.3). -/
structure Arming where
  armed : Bool := false
  free : Bool := false
  slotCode : Nat := 0
  winSlots : Nat := 1
  winBase : Nat := 0
  rate : Nat := 0
  scope : Nat := 0
  half : Nat := 0
  image : List Word := []
deriving DecidableEq, Repr

/-- A stream engine (R288): program and base registers come with the arming image. -/
structure Engine where
  arm : Arming := {}
  sb : List Nat := []
  ix : List Nat := [0, 0, 0, 0]
  loops : List (Nat × Nat × Nat) := []
  started : Bool := false
  pc : Nat := 0
  steps : Nat := 0
  halting : Bool := false
  credit : Nat := 0
  nextSlot : Nat := 0
  filled : List Nat := []
  filling : List (Nat × Nat) := []
  outbound : List Byte := []
  posts : List (Nat × Nat × Nat × Nat) := []
  txnNo : Nat := 0
  word : Nat := 0
deriving DecidableEq, Repr

/-- A load or setting that waits for an array's task boundary (R125, R293, R47, R108, R266). -/
inductive BoundaryLoad where
  | tables (cid : Nat) (mode : Nat) (images : List (Nat × List Word))
  | arm (cid : Nat) (engine : Nat) (arm : Arming)
  | readdress (cid : Nat) (engine : Nat) (vals : List (Nat × Nat))
deriving DecidableEq, Repr

/-- The program-visible registers of an array (R237). -/
structure ProgRegs where
  s : Tbl Word := []
  v : Tbl Word := []
  pt : Tbl Pointer := []
  ct : Tbl Word := []
  cmp : Tbl Comparator := []
  desc : Tbl Word := []
  amu : Word := 0
  agrd : Word := 0
  aks : Tbl Word := []
  amsk : Nat := 0
  acol : Nat := 0
  presA : Slice := {}
  presB : Slice := {}
  rsum : Tbl Word := []
  guard : Tbl Bool := []
deriving DecidableEq, Repr

/-- The accumulators of an array: groups and shadow (element g × 1,024 + row × 32 + column, shadow is group 8),
ledgers, tally values (row g × 32 + row) and run statistics (R66, R80, R93). -/
structure Accs where
  grp : Tbl Word := []
  hi : Tbl Word := []
  lo : Tbl Word := []
  tt : Tbl Word := []
  tg : Tbl Word := []
  run : Tbl RunInfo := []
  drain : Option Drain := none
  swapBusy : Nat := 0
deriving DecidableEq, Repr

/-- The matrix-vector path (R104 to R106). `entries` are the accumulator entries that each open accumulation has touched, rising,
and `axpy` the queries that an AXPY has touched. `query` lists the query elements that something has written; the others are the
free elements of the task that `queryGen` names (log 40). While a slot is being filled with the codes of a scaled row, `expand` has
their width and how many of them the row holds, and `scales` the scales of their groups of 32 that have arrived (slot × 8 + group). -/
structure MatVec where
  query : Tbl (BitVec 16) := []
  queryGen : Nat := 0
  slots : Tbl (BitVec 16) := []
  filled : List Nat := []
  filling : List (Nat × Nat) := []
  expand : Tbl (Nat × Nat) := []
  scales : Tbl Word := []
  acc : Tbl Word := []
  t : Tbl Word := []
  g : Tbl Word := []
  issues : Tbl Nat := []
  axpy : List Nat := []
  entries : Tbl (List Nat) := []
  next : Nat := 0
  owner : Tbl Nat := []
deriving DecidableEq, Repr

/-- The function banks of an array (R123, R130). -/
structure Banks where
  user : Tbl FuncImage := []
  active : Bool := false
  epochs : Nat := 0
  loads : Nat := 0
deriving DecidableEq, Repr

/-- The sequencer of an array (R249 to R254). `queue` is the instruction queue: the routine and the number of each native word in it (R13,
R253; log 49). Of the present beat, `arrived` says that its COLLECT has arrived, `heldParts` are the parts of its bundle that hold mode has
kept it back for (R44), `lbMet` that a post has satisfied its LBWAIT (R280, R284), and `helperHit` that a write the caller issued landed on
what the vendor helper uses (R263). -/
structure Seq where
  state : SeqState := .idle
  routine : Nat := 0
  entry : Nat := 0
  version : Nat := 0
  pc : Nat := 0
  byCall : Bool := false
  calls : List Frame := []
  reps : List Rep := []
  stall : Nat := 0
  waitLeft : Nat := 0
  pos : Nat := 0
  issued : List Nat := []
  flow : Flow := .next
  resumed : Bool := false
  held : Bool := false
  heldParts : List Nat := []
  touched : List Nat := []
  helper : Option (Nat × Nat) := none
  helperHit : Bool := false
  arrived : Bool := false
  lbMet : Bool := false
  queue : List (Nat × Nat) := []
deriving DecidableEq, Repr

/-- Counters and records of an array's register pages (Tables 2.5, 2.6, 4.8, 10.19). -/
structure ArrCounters where
  beats : Nat := 0
  frozen : Nat := 0
  hold : Nat := 0
  tallyRuns : Nat := 0
  tallyMiss : Nat := 0
  tallySkip : Nat := 0
  missId : Nat := 0
  missRow : Nat := 0
  missSource : Bool := false
  missValid : Bool := false
  missDelta : Word := 0
  bankRepeat : Nat := 0
  dlCount : Nat := 0
deriving DecidableEq, Repr

/-- The settings in force on an array, taken up at its task boundary (R47, R108, R266); `win` is the register
window selection, WIN_IDX + 256 × WIN_CLASS. -/
structure ArrModes where
  audit : Bool := false
  hold : Bool := false
  kinds : Nat := 7
  tallyK : Nat := 3
  tallyEn : Bool := true
  haltPc : Nat := 0
  haltRoutine : Nat := 0
  haltEn : Bool := false
  win : Nat := 0
deriving DecidableEq, Repr

/-- Everything one array holds. `stalled` are the operations sent as commands of their own, and the engine steps, that wait in the present
beat; `frozenOn` is what the bundle of the present beat waits for, no part of which has issued (R33). `ahead` are the prefetched pages, as
(tenancy, sequence, page), that no stream has used yet (R205), `missed` the pages whose walk found no frame and whose stream has not read
the null page yet, and `began` the active bank and the base registers of the engines with which the task began on the array (R360). -/
structure ArrayState where
  regs : ProgRegs := {}
  acc : Accs := {}
  mv : MatVec := {}
  store : Memory := []
  banks : Banks := {}
  engines : Tbl Engine := []
  flight : List Flight := []
  seq : Seq := {}
  ctr : ArrCounters := {}
  modes : ArrModes := {}
  stalled : List Stalled := []
  frozenOn : List Stalled := []
  slip : Bool := false
  frzLen : Nat := 0
  longRaised : Bool := false
  audit : List AuditEntry := []
  auditLost : Nat := 0
  dead : List DeadLetter := []
  pigeon : List (Nat × Nat × Nat × Nat) := []
  ahead : List (Nat × Nat × Nat) := []
  missed : List (Nat × Nat × Nat) := []
  loads : List BoundaryLoad := []
  placed : List Nat := []
  task : Option Nat := none
  began : Bool × List (List Nat) := (false, [])
  abandon : Option Nat := none
  fail : Option (Nat × Nat) := none
  vdivBusy : Nat := 0
deriving DecidableEq, Repr

/-- What is wrong with, or pending on, an array (R98 to R103, R364, R391, R392). -/
structure ArrCond where
  softEn : Bool := false
  softCol : Nat := 0
  softPend : Bool := false
  applied : Option Nat := none
  quarantined : Bool := false
  rejoin : Bool := false
deriving DecidableEq, Repr

/-! ### Dispatcher -/

/-- A cache snapshot of a sequence (R205): its lengths, and for each page below the written top what a walk finds, as
(WF_REASON or 0, frame) (R222); `dir` is its directory node, and `stale` are the planes and positions rewritten since, as (first
plane, planes, first position, positions) (R223). -/
structure Snap where
  seq : Nat
  pool : Nat
  len : Nat
  wtop : Nat
  dlen : Nat
  dir : Nat := 0
  pages : List (Nat × Nat) := []
  stale : List (Nat × Nat × Nat × Nat) := []
deriving DecidableEq, Repr

/-- A journalled synchronisation effect (R287). -/
inductive JEntry where
  | post
  | put
  | take (h : Word)
  | arrive
  | streamPost (made : Bool)
deriving DecidableEq, Repr

/-- The task parameters of a receipt-log entry (Table 15.2). -/
structure TaskParams where
  tile : Nat := 0
  entry : Nat := 0
  pos : Nat := 0
  head : Nat := 0
  pass : Nat := 0
  kind : Nat := 0
deriving DecidableEq, Repr

/-- A task a command has formed and not dispatched: its index, parameters, array, cost and the index it waits for. -/
structure Plan where
  index : Nat
  params : TaskParams := {}
  array : Nat := 0
  cost : Nat := 0
  after : List Nat := []
deriving DecidableEq, Repr

/-- A receipt-log entry and what the dispatcher tracks of its task (R366). `prior` is memory as the reads of the previous step's result
found it, once an epilogue that merges has issued them (R171, R172), and `verify` says that it is a task of a verify command, whose drafts
end with the sequence's next command (R235). -/
structure Task where
  cid : Nat
  ten : Nat
  queue : Nat
  index : Nat
  tasks : Nat
  routine : Nat
  version : Nat
  params : TaskParams := {}
  state : Nat := 1
  attempt : Nat := 1
  moved : Bool := false
  array : Nat
  cost : Nat := 0
  argAddr : Nat
  argLen : Nat
  s4 : Nat := 0
  snaps : List Snap := []
  journal : List JEntry := []
  jpos : Nat := 0
  jover : Bool := false
  staged : Nat := 0
  tbeats : Nat := 0
  ended : Bool := false
  failed : Option Nat := none
  writes : Nat := 0
  status : Nat := 0
  caught : Nat := 0
  order : Nat := 0
  prior : Option Memory := none
  verify : Bool := false
deriving DecidableEq, Repr

/-- How far an accepted command has come. -/
inductive CmdPhase where
  | waiting
  | running
  | loading
  | holding
deriving DecidableEq, Repr

/-- An accepted command that has not completed. `cursor` is the release cursor of ordered commit, and `awaiting` the (array, task) pairs
sealed ahead of it (R330); `formed` is every task it was formed into, and `segs` what its tasks left in its staging area, by task, which is
kept here and takes no byte of the shared store, since no rule places the area (R177, the model's choice, log 33); `sub` is the submitter
record that holds its postmark (R271), `ranOn` the array that ran each sealed task (R182), `entries` its entry records as the dispatcher
read them (R434), `outs` its outputs: whether in the shared store, address and length (R363), and `verify` says that it is a verify command
(R234). -/
structure Cmd where
  cid : Nat
  queue : Nat
  agent : Nat
  bytes : BitVec 512
  phase : CmdPhase := .waiting
  plans : List Plan := []
  tasks : Nat := 0
  sealedIdx : List Nat := []
  status : Nat := 0
  faulted : Bool := false
  replays : Nat := 0
  info : Nat := 0
  start : Nat := 0
  startBad : Bool := false
  begun : Bool := false
  beats : Nat := 0
  ordered : Bool := false
  collective : Bool := false
  routine : Nat := 0
  left : List Nat := []
  snaps : List Snap := []
  cursor : Nat := 0
  awaiting : List (Nat × Nat) := []
  segs : List (Nat × List Word) := []
  formed : List Plan := []
  reading : List Byte := []
  entries : List Byte := []
  sub : Nat := 256
  mergeIn : Bool := false
  ranOn : List (Nat × Nat) := []
  outs : List (Bool × Nat × Nat) := []
  verify : Bool := false
deriving DecidableEq, Repr

/-- The state of a postmark in a submitter's window (R271). -/
structure WinEntry where
  seqno : Nat
  done : Bool
  status : Nat
deriving DecidableEq, Repr

/-- A submitter record (R271). -/
structure SubRec where
  hc : Nat := 0
  floor : Nat := 0
  window : List WinEntry := []
deriving DecidableEq, Repr

/-- A submission queue: commands with the host agent that placed each (R270). -/
structure SubQueue where
  entries : List (BitVec 512 × Nat) := []
deriving DecidableEq, Repr

/-- A mailbag: its handles, each with the task whose seal it waits for (R310), and the waiting takes and puts in the
order in which they reached it (R282). -/
structure Mailbag where
  handles : List (Word × Option Nat) := []
  takers : List Nat := []
  putters : List Nat := []
deriving DecidableEq, Repr

/-- A tenancy's collection (R284). -/
structure Collection where
  gen : Nat := 0
  arrived : List Nat := []
deriving DecidableEq, Repr

/-- A replaced translation of a routine, which tasks dispatched before its replacement still run (R258). -/
structure OldCode where
  version : Nat
  words : List (List (BitVec 16))
  base : Nat
  size : Nat
  kind : Nat
deriving DecidableEq, Repr

/-- A routine in library RAM (R256 to R258); `words` are its native long words in halfwords. -/
structure Routine where
  kind : Nat := 0
  narrowOk : Bool := false
  owner : Nat := 0
  base : Nat := 0
  size : Nat := 0
  words : List (List (BitVec 16)) := []
  old : List OldCode := []
  version : Nat := 0
deriving DecidableEq, Repr

/-! ### Cache unit -/

/-- A fence on a frame: the sequence, and the tasks it still waits for (R220). -/
structure Fence where
  pool : Nat
  frame : Nat
  seq : Nat
  waits : List Nat
deriving DecidableEq, Repr

/-! ### Memory port -/

/-- Who issued a memory transaction: a task, the release of a command's contributions, or the dispatcher or cache unit. -/
inductive TxnOwner where
  | task (a : Nat) (rid : Nat) (engine : Nat)
  | release (cid : Nat)
  | unit
  | row (who : Nat)
deriving DecidableEq, Repr

/-- Where the bytes of a read go; `staged` names the staged contributions of one MOVE, `count` orders from `base` on, and `mvScale`
the scales of the codes of an input slot, from byte `off` on: the page's FP32 scale, or E8M0 codes. -/
inductive TxnDst where
  | none
  | store (a : Nat) (addr : Nat)
  | window (a : Nat) (engine : Nat) (slot : Nat) (addr : Nat)
  | mvSlot (a : Nat) (slot : Nat) (off : Nat)
  | mvExp (a : Nat) (slot : Nat) (elem : Nat) (bits : Nat)
  | mvScale (a : Nat) (slot : Nat) (off : Nat) (page : Bool)
  | shared (addr : Nat)
  | memory (addr : Nat)
  | staged (base count addr : Nat)
  | area (order : Nat)
deriving DecidableEq, Repr

/-- What a transaction reads of a cache source: sequence, plane, position and bytes of its first row, and the offset there of the
first byte that is delivered (R205, R223). -/
structure RowSrc where
  seq : Nat
  plane : Nat
  pos : Nat
  rowBytes : Nat
  off : Nat := 0
deriving DecidableEq, Repr

/-- A memory transaction (R322, R323); kind 0 READ, 1 WRITE, 2 ATOMIC_ADD_F32. Of the bytes read, `keep` from `skip` on
are delivered. `done` says that its channel has carried it out; then `data` holds the bytes a READ found (R324, R327), and `since` has
the ranges, as (address, bytes), that later writes have written (R335). `need` is how many bytes of an offload MOVE's write its reads
have still to bring (R332). -/
structure Txn where
  kind : Nat
  addr : Nat
  size : Nat
  ten : Nat
  cls : Nat
  owner : TxnOwner
  dst : TxnDst := .none
  data : List Byte := []
  no : Nat := 0
  skip : Nat := 0
  keep : Nat := 256
  row : Option RowSrc := none
  done : Bool := false
  need : Nat := 0
  since : List (Nat × Nat) := []
deriving DecidableEq, Repr

/-- One channel of the memory port. While requests of CLASS 2 wait, `wheel` counts the flits served and `wheel2` those of that
class, and `rr` is the requester whose turn it is in each class (R333); `got` are the requesters that a credit is kept for, whose row is
still to be carried out (log 8). -/
structure MemChan where
  out : List (Nat × Txn) := []
  wait : List Txn := []
  credits : Nat := 4096
  grant : Nat := 4096
  wheel : Nat := 0
  wheel2 : Nat := 0
  rr : List Nat := [0, 0, 0]
  got : List Nat := []
deriving DecidableEq, Repr

/-- A staged atomic contribution (R328) of task `idx` of a command, from MOVE `no` of stream engine `eng` (4: none) of array `arr`. It
occupies `units` of the tenancy's staging area, or of the overflow area where it is spilled; `begun` says that its release has been issued,
`reads` are the reads of the area that it still waits for, and `released` that its atomic add has been sent. -/
structure Contribution where
  cid : Nat
  rid : Nat
  order : Nat
  ten : Nat
  addr : Nat
  data : List Byte
  spilled : Bool
  units : List Nat := []
  arr : Nat := 0
  eng : Nat := 4
  no : Nat := 0
  begun : Bool := false
  reads : Nat := 0
  released : Bool := false
  ready : Bool := false
  idx : Nat := 0
deriving DecidableEq, Repr

/-- A POST of a stream program that waits for the acceptance of staged atomic adds alone (R288, R325): the receipt-log entry and the
tenancy of its task, letterbox, amount, and the orders of the contributions; `kept` says that the task has sealed. -/
structure HeldPost where
  rid : Nat
  ten : Nat
  lb : Nat
  amount : Nat
  waits : List Nat
  kept : Bool := false
deriving DecidableEq, Repr

/-! ### Ring ports -/

/-- Link states (Table 12.4). -/
inductive LinkState where
  | down
  | training
  | up
  | retrain
  | failed
deriving DecidableEq, Repr

/-- A message being sent (R309); `relay` names the receive channel and buffer of a relayed one (R314), and `no` numbers the
messages of a port. -/
structure SendMsg where
  ch : Nat
  msgId : Nat
  payload : Nat
  len : Nat
  user : Word
  hops : Nat
  srcPos : Nat
  next : Nat := 0
  relay : Option (Nat × Nat) := none
  no : Nat := 0
deriving DecidableEq, Repr

/-- A packet held for retry (R303), with the number of its message. -/
structure HeldPkt where
  pkt : Packet
  ch : Nat
  resend : Bool := false
  no : Nat := 0
deriving DecidableEq, Repr

/-- A send channel. -/
structure SendChan where
  credits : Nat := 0
  nextId : Nat := 0
deriving DecidableEq, Repr

/-- A receive channel: messages landed since the enable, the one landing, the packets in the landing store, the handle
held for mailbag room, and the buffers a relay still reads (R311, R312, R314); how many of the packets were accepted before
the link started afresh, and owe no credit (R315); and the messages already counted as discarded of which packets still
come (R316). -/
structure RecvChan where
  k : Nat := 0
  begun : Bool := false
  nextPkt : Nat := 0
  msgId : Nat := 0
  msgLen : Nat := 0
  discard : Bool := false
  lastId : Option Nat := none
  owed : Nat := 0
  used : Nat := 0
  stash : List Packet := []
  heldHandle : Option Word := none
  relaying : List Nat := []
  kept : Nat := 0
  lost : List Nat := []
deriving DecidableEq, Repr

/-- A ring port. -/
structure Port where
  link : LinkState := .down
  attempts : Nat := 0
  txTotal : Nat := 0
  rxSeq : Nat := 0
  ackDue : Bool := false
  nakDue : Bool := false
  naks : Nat := 0
  nakSeq : Nat := 0
  crcFrame : Nat := 0
  retry : List HeldPkt := []
  msgs : List SendMsg := []
  send : Tbl SendChan := []
  recv : Tbl RecvChan := []
  rr : Nat := 0
  nextMsg : Nat := 0
deriving DecidableEq, Repr

/-! ### Control port, power, meter, logs -/

/-- An event context of a page (R420). -/
structure EvtCtx where
  raw : Word := 0
  en : Word := 0
  route : Word := 0
deriving DecidableEq, Repr

/-- An event message (R409): KIND, the words of its payload. -/
structure EvtMsg where
  kind : Nat
  fid : Nat
  payload : List Word
deriving DecidableEq, Repr

/-- The event partition of one host agent (R411). -/
structure AgentQ where
  msgs : List EvtMsg := []
  lost : Nat := 0
deriving DecidableEq, Repr

/-- The answer of the control port to the last request (Table 17.2). -/
structure Answer where
  status : Nat := 0
  data : Word := 0
deriving DecidableEq, Repr

/-- The control fabric port. -/
structure CtlPort where
  ctx : Tbl EvtCtx := []
  expert : List Nat := []
  latches : Tbl Nat := []
  evq : Tbl AgentQ := []
  credits : Nat := 16
  grant : Nat := 16
  outstanding : Nat := 0
  rr : Nat := 0
  answer : Answer := {}
  sentMsg : Option EvtMsg := none
deriving DecidableEq, Repr

/-- Domain states (Table 16.9). -/
inductive DomState where
  | off
  | poweringUp
  | run
  | rest
  | retain
  | poweringDown
  | failed
deriving DecidableEq, Repr

/-- A power domain (R375 to R379): the transition's target, whether its rail is up and its SRAM is being zeroed, and whether
its transition waits for REST. -/
structure Domain where
  state : DomState := .off
  req : Nat := 2
  from_ : DomState := .off
  acked : Bool := false
  refused : Bool := false
  why : Nat := 0
  vcode : Nat := 0
  waiting : Bool := false
deriving DecidableEq, Repr

/-- The fuse shadow (R101). -/
structure Fuses where
  records : Tbl Nat := []
  pmFid : Nat := 0
  blockId : Nat := 0
  idcode : Nat := 0
  stepping : Nat := 0
  revision : Nat := 0
  romVerFtab : Nat := 0
  taLevel : Nat := 0
  romVerLib : Nat := 0
deriving DecidableEq, Repr

/-- Monitors, hold and governor (R380 to R387). -/
structure Monitors where
  thermal : List (BitVec 16) := []
  voltage : List (BitVec 16) := []
  paceArr : List (BitVec 16) := []
  paceStore : List (BitVec 16) := []
  brownout : Bool := false
  hot : Bool := false
  vinGood : Nat := 0
  vinBad : Nat := 0
  vmonBad : Tbl Nat := []
  thermLimit : Tbl Nat := []
  paceLimit : Tbl Nat := []
  capSum : Nat := 0
  capCount : Nat := 0
deriving DecidableEq, Repr

/-- The meter account of one tenancy (R345 to R353). -/
structure Account where
  beats : Nat := 0
  frozen : Nat := 0
  memBytes : Nat := 0
  ringBytes : Nat := 0
  energyUj : Nat := 0
  commands : Nat := 0
  mepoch : Nat := 0
  readSeq : Nat := 0
  keyId : Nat := 0
  key : Option Nat := none
deriving DecidableEq, Repr

/-- The meter: the accounts, and since the last apportioning what accrued by (domain, tenancy), the arrays that accrued
anything (R346), and the completed beats of each array group and the bytes through each other domain (R385). -/
structure Meter where
  acct : Tbl Account := []
  accrued : Tbl Nat := []
  busy : List Nat := []
  work : Tbl Nat := []
  unassignedUj : Nat := 0
  shift : List Word := []
deriving DecidableEq, Repr

/-- A fault record (Table 15.5). -/
structure FaultRec where
  cls : Nat
  ten : Nat
  arr : Nat
  action : Nat
  attempt : Nat
  moved : Bool
  receipt : Nat
  routine : Nat
  seqno : Nat
  submitter : Nat
  detail : Nat
  beat : Nat
  time : Nat
deriving DecidableEq, Repr

/-- A partition of the fault log (R368). -/
structure FaultPart where
  recs : List FaultRec := []
  lost : Nat := 0
deriving DecidableEq, Repr

/-- A partition of the dead-letter log (R369). -/
structure DeadPart where
  recs : List DeadLetter := []
  lost : Nat := 0
deriving DecidableEq, Repr

/-- Resets in progress (R389 to R394). -/
structure Resets where
  ten : Option Nat := none
  arr : Option Nat := none
  block : Bool := false
deriving DecidableEq, Repr

/-- The debug segment (R397): the instruction, what its data register shifts out (a readout, value by value), and the domains
whose halt, whose self-test control and whose segment insertion bit are set. -/
structure Debug where
  ir : Nat := 0
  dr : Nat := 0
  out : List Nat := []
  halts : List Nat := []
  tests : List Nat := []
  inserted : List Nat := []
deriving DecidableEq, Repr

/-- The time base (R348). -/
structure TimeBase where
  count : Nat := 0
  valid : Bool := false
deriving DecidableEq, Repr

/-- The dispatcher (R269 to R287). -/
structure Dispatcher where
  queues : Tbl SubQueue := []
  subs : Tbl SubRec := []
  cmds : List Cmd := []
  tasks : Tbl (Option Task) := []
  nextCid : Nat := 0
  rr : Nat := 0
  lbx : Tbl Word := []
  mbx : Tbl Mailbag := []
  coll : Tbl Collection := []
  lib : Tbl Routine := []
  libVersion : Nat := 0
deriving DecidableEq, Repr

/-- A walk in flight (R205): the array and the task that it serves, the tenancy, the snapshot and the page. -/
structure Walk where
  arr : Nat
  rid : Nat
  ten : Nat
  snap : Snap
  page : Nat
deriving DecidableEq, Repr

/-- The cache unit's own state (R205, R220). -/
structure CacheUnit where
  fences : List Fence := []
  second : List (Nat × Nat × Nat × Nat) := []
  walks : List Walk := []
deriving DecidableEq, Repr

/-- The memory port. -/
structure MPort where
  chans : Tbl MemChan := []
  staged : List Contribution := []
  posts : List HeldPost := []
deriving DecidableEq, Repr

/-- The machine: everything the spec gives the block, the memory behind its port, and the queue of waiting commands. -/
structure State where
  pending : List Instr := []
  freeCtr : Nat := 0
  regs : Regs := []
  ctl : CtlPort := {}
  fuses : Fuses := {}
  doms : Tbl Domain := []
  mon : Monitors := {}
  tb : TimeBase := {}
  meter : Meter := {}
  disp : Dispatcher := {}
  arrs : Tbl ArrayState := []
  conds : Tbl ArrCond := []
  shared : Memory := []
  mem : Memory := []
  cache : CacheUnit := {}
  mport : MPort := {}
  ring : Tbl Port := []
  faults : Tbl FaultPart := []
  letters : Tbl DeadPart := []
  resets : Resets := {}
  segment : Debug := {}
deriving DecidableEq, Repr

/-- The machine right after COLD reset: every domain but AON (23) is OFF (R396), every register field holds the reset
value of its table, and no store lists a byte. -/
def State.reset : State :=
  { doms := [(23, { state := .run, req := 0 })]
    regs := Regs.set [] Reg.RST_COLD_CAUSE 0 1 }

end Sys2Proof.Machine
end

