-- ==== Sys2Proof/Machine/Flags.lean ====
section
/-! DEFINITION. Comparators, predicates and the tally decision (spec/10_instructions.md R238, R239; spec/04_arrays.md R94). -/
namespace Sys2Proof.Machine

/-- The relation of a comparator (R239): 0 FALSE, 1 EQ, 2 NE, 3 LT, 4 GE, 5 LE, 6 GT, 7 TRUE. -/
def relHolds (rel : Nat) (a b : Nat) : Bool :=
  match rel with
  | 0 => false
  | 1 => decide (a = b)
  | 2 => decide (a ≠ b)
  | 3 => decide (a < b)
  | 4 => decide (b ≤ a)
  | 5 => decide (a ≤ b)
  | 6 => decide (b < a)
  | _ => true

/-- The value of a counter. -/
def ProgRegs.counter (r : ProgRegs) (n : Nat) : Word := Tbl.get 0 r.ct n
/-- A comparator. -/
def ProgRegs.comparator (r : ProgRegs) (n : Nat) : Comparator := Tbl.get {} r.cmp n
/-- The operand a comparator compares with: its immediate, or the counter it names. -/
def ProgRegs.cmpOperand (r : ProgRegs) (c : Comparator) : Nat :=
  if c.osrc then (r.counter c.imm).toNat else c.imm
/-- The result a comparator's configuration gives on the present counters. -/
def ProgRegs.evalCmp (r : ProgRegs) (c : Comparator) : Bool :=
  relHolds c.rel (r.counter c.ct).toNat (r.cmpOperand c)
/-- Comparators that read counter `n`. -/
def ProgRegs.readers (r : ProgRegs) (n : Nat) : List Nat :=
  (List.range 4).filter (fun i => let c := r.comparator i; c.ct == n || (c.osrc && c.imm == n))

/-- Whether a predicated operation issues (R238). -/
def ProgRegs.predTrue (r : ProgRegs) (p : Pred) : Bool :=
  !p.pen || (r.comparator p.cmp.toNat).result != p.neg

/-- The outcome of the tally decision. -/
inductive Tally where
  | unchecked
  | pass
  | mismatch
deriving DecidableEq, Repr

/-- The threshold θ of R94 for the factor `k` (TALLY_K), l + w = `n`, and gauge `g`. -/
def tallyTheta (k n : Nat) (g : Word) : Word :=
  let a := fmul (natToFp32 k) (natToFp32 n)
  let b := fmul (fmul a 0x33800000#32) g
  fmax b (rne32 (.fin false n (-149)))

/-- The tally decision for one drained row (R94). -/
def tallyDecide (k n : Nat) (s t g : Word) : Tally :=
  if !isFinite32 g then .unchecked
  else if isFinite32 s && isFinite32 t && fle (fabs32 (fsub s t)) (tallyTheta k n g) then .pass
  else .mismatch

/-- The landing beats and row-scales a run counts, with 32 for a group load (R94). -/
def RunInfo.l (r : RunInfo) : Nat := r.landings + r.scales + (if r.loaded then 32 else 0)

end Sys2Proof.Machine
end

