-- ==== Sys2Proof/Machine/Operands.lean ====
section
/-! DEFINITION. The program-visible registers of an array, operand descriptors, effective addresses, lane access and the
slices of the feeders (spec/10_instructions.md R237 to R246; spec/03_numbers.md R54, R59). -/
namespace Sys2Proof.Machine

/-! ### Registers -/

/-- A scalar register; S0 reads as 0. -/
def ArrayState.sreg (A : ArrayState) (r : Nat) : Word := if r = 0 then 0 else Tbl.get 0 A.regs.s r
/-- Writes a scalar register; S0 ignores writes. -/
def ArrayState.setS (A : ArrayState) (r : Nat) (v : Word) : ArrayState :=
  if r = 0 then A else { A with regs := { A.regs with s := Tbl.set 0 A.regs.s r v } }
/-- Lane `i` of a vector register. -/
def ArrayState.vlane (A : ArrayState) (r i : Nat) : Word := Tbl.get 0 A.regs.v (32 * r + i)
/-- The 32 lanes of a vector register. -/
def ArrayState.vreg (A : ArrayState) (r : Nat) : List Word := Tbl.getMany 0 A.regs.v (32 * r) 32
/-- Writes the lanes of a vector register. -/
def ArrayState.setV (A : ArrayState) (r : Nat) (l : List Word) : ArrayState :=
  { A with regs := { A.regs with v := Tbl.setMany 0 A.regs.v (32 * r) l } }
/-- A pointer register. -/
def ArrayState.ptr (A : ArrayState) (n : Nat) : Pointer := Tbl.get {} A.regs.pt n
/-- Changes a pointer register. -/
def ArrayState.onPtr (A : ArrayState) (n : Nat) (f : Pointer → Pointer) : ArrayState :=
  { A with regs := { A.regs with pt := Tbl.upd {} A.regs.pt n f } }
/-- Writes a counter. -/
def ArrayState.setCt (A : ArrayState) (n : Nat) (v : Word) : ArrayState :=
  { A with regs := { A.regs with ct := Tbl.set 0 A.regs.ct n v } }
/-- Writes a comparator. -/
def ArrayState.setCmp (A : ArrayState) (n : Nat) (c : Comparator) : ArrayState :=
  { A with regs := { A.regs with cmp := Tbl.set {} A.regs.cmp n c } }
/-- One lane of RSUM. -/
def ArrayState.rsum (A : ArrayState) (i : Nat) : Word := Tbl.get 0 A.regs.rsum i
/-- Writes RSUM. -/
def ArrayState.setRsum (A : ArrayState) (l : List Word) : ArrayState :=
  { A with regs := { A.regs with rsum := Tbl.setMany 0 A.regs.rsum 0 l } }
/-- A stream engine. -/
def ArrayState.eng (A : ArrayState) (e : Nat) : Engine := Tbl.get {} A.engines e
/-- Replaces a stream engine. -/
def ArrayState.setEng (A : ArrayState) (e : Nat) (x : Engine) : ArrayState :=
  { A with engines := Tbl.set {} A.engines e x }

/-! ### Descriptors (Table 10.3) -/

/-- An operand descriptor. -/
structure Descr where
  base : Nat
  space : Nat
  pten : Bool
  pt : Nat
  fmt : Nat
  column : Bool
  tgt : Nat
  rstride : Nat
  lstride : Nat
  rows : Nat
  rowLen : Nat
  scale : Nat
  sstride : Nat
deriving DecidableEq, Repr

/-- The descriptor that four words spell. -/
def Descr.ofWords (w0 w1 w2 w3 : Nat) : Descr :=
  { base := bitsOf w0 27 0, space := bitsOf w0 29 28, pten := bitOf w0 30
    pt := bitsOf w1 3 0, fmt := bitsOf w1 6 4, column := bitOf w1 7, tgt := bitsOf w1 8 8
    rstride := (let r := bitsOf w1 31 16; if r = 0 then 65536 else r)
    lstride := bitsOf w2 15 0
    rows := (let r := bitsOf w2 23 16; if r = 0 then 256 else r)
    rowLen := (let r := bitsOf w2 31 24; if r = 0 then 8192 else 32 * r)
    scale := bitsOf w3 19 0, sstride := bitsOf w3 31 20 }

/-- A descriptor of an array. -/
def ArrayState.descr (A : ArrayState) (d : Nat) : Descr :=
  let w := fun i => (Tbl.get (0 : Word) A.regs.desc (4 * d + i)).toNat
  Descr.ofWords (w 0) (w 1) (w 2) (w 3)

/-- What the pointer of a descriptor adds. -/
def ArrayState.ptrValue (A : ArrayState) (d : Descr) : Nat := if d.pten then (A.ptr d.pt).value else 0
/-- The effective address of an operation in the array store (R241). -/
def ArrayState.eaStore (A : ArrayState) (d : Descr) (off : Nat) : Nat := (d.base + A.ptrValue d + off) % 2 ^ 20
/-- The effective address in the shared store (R241). -/
def ArrayState.eaShared (A : ArrayState) (d : Descr) (off : Nat) : Nat := (d.base + A.ptrValue d + off) % 2 ^ 28

/-- Reads bytes of the array store; addresses wrap at its size. -/
def ArrayState.load (A : ArrayState) (a n : Nat) : List Byte :=
  (List.range n).map (fun i => A.store.byte ((a + i) % 2 ^ 20))
/-- Reads a little-endian number of the array store. -/
def ArrayState.loadLe (A : ArrayState) (a n : Nat) : Nat := leNat (A.load a n)
/-- Reads a 32-bit word of the array store. -/
def ArrayState.loadW (A : ArrayState) (a : Nat) : Word := BitVec.ofNat 32 (A.loadLe a 4)
/-- Writes bytes of the array store; addresses wrap at its size. -/
def ArrayState.save (A : ArrayState) (a : Nat) (bs : List Byte) : ArrayState :=
  if a % 2 ^ 20 + bs.length ≤ 2 ^ 20 then { A with store := A.store.putBytes (a % 2 ^ 20) bs }
  else
    let k := 2 ^ 20 - a % 2 ^ 20
    { A with store := (A.store.putBytes (a % 2 ^ 20) (bs.take k)).putBytes 0 (bs.drop k) }

/-! ### Lane access (R244, R246) -/

/-- Bytes of one element of a plain format code (Table 10.3: 0 FP32 to 4 E5M2). -/
def plainBytes (c : Nat) : Nat := (fmtOfCode c).bytes

/-- A lane access with this descriptor is legal (Table 10.4). -/
def Descr.laneOk (d : Descr) : Bool := d.space == 0 && decide (d.fmt ≤ 4)

/-- The address lane `r` uses. -/
def ArrayState.laneAddr (A : ArrayState) (d : Descr) (r : Nat) : Nat := A.eaStore d (r * d.lstride)

/-- A lane read, converted exactly to FP32. -/
def ArrayState.laneRead (A : ArrayState) (d : Descr) : List Word :=
  (List.range 32).map (fun r =>
    let c := A.loadLe (A.laneAddr d r) (plainBytes d.fmt)
    if d.fmt = 0 then BitVec.ofNat 32 c else rne32 ((fmtOfCode d.fmt).decode c))

/-- The bytes a lane write stores, by Table 3.2 for the descriptor's format. -/
def ArrayState.laneCells (A : ArrayState) (d : Descr) (fmt : Nat) (l : List Word) : List (Nat × List Byte) :=
  (List.range 32).map (fun r =>
    (A.laneAddr d r,
      leBytes (plainBytes fmt) ((fmtOfCode fmt).round (val32 (l.getD r 0)))))

/-! ### Stream windows (R291) -/

/-- Bytes of a window slot: 256 × 2^code, codes 6 and 7 acting as 5. -/
def Arming.slotSize (x : Arming) : Nat := 256 * 2 ^ (min x.slotCode 5)
/-- The array-store address of a window slot. -/
def Arming.slotAddr (x : Arming) (slot : Nat) : Nat := (x.winBase + slot * x.slotSize) % 2 ^ 20
/-- The window slot that an offset touches, from the first slot a descriptor names. -/
def Arming.slotOf (x : Arming) (first off : Nat) : Nat := (first + off / x.slotSize) % x.winSlots

/-- The array-store address of an offset in space 2 (BASE[1:0] names the engine, BASE[7:2] the first slot). -/
def ArrayState.winAddr (A : ArrayState) (d : Descr) (off : Nat) : Nat :=
  let x := (A.eng (d.base % 4)).arm
  (x.slotAddr (x.slotOf (d.base / 4 % 64) off) + off % x.slotSize) % 2 ^ 20

/-- Every window slot that `n` bytes at an offset touch is filled. -/
def ArrayState.winFilled (A : ArrayState) (d : Descr) (off n : Nat) : Bool :=
  let e := A.eng (d.base % 4)
  let ok := fun o => e.filled.contains (e.arm.slotOf (d.base / 4 % 64) o)
  ok off && (n ≤ 1 || ok (off + n - 1))

/-! ### Feeder slices (R91, R242) -/

/-- The bits of one stored element of a format code (Table 10.3; 6 is MXFP4). -/
def storedBits (fmt : Nat) : Nat :=
  match fmt with
  | 0 => 32
  | 1 => 16
  | 2 => 16
  | 6 => 4
  | _ => 8

/-- A format code is scaled (Table 10.3). -/
def isScaled (fmt : Nat) : Bool := decide (5 ≤ fmt)

/-- The format the cells get: the expansion target of a scaled format, else the stored one. -/
def Descr.cellFmt (d : Descr) : Nat := if isScaled d.fmt then (if d.tgt = 1 then 3 else 1) else d.fmt
/-- Products per cell and beat (R78): 4 for a 16-bit class, 8 for an FP8 class. -/
def kOf (code : Nat) : Nat := if code ≤ 2 then 4 else 8
/-- An operand class: true for FP8. -/
def isFp8 (code : Nat) : Bool := decide (3 ≤ code)

/-- The value of an E8M0 scale code (R48). -/
def e8m0 (c : Nat) : Val := if c = 0xFF then .nan else .fin false 1 (Int.ofNat c - 127)

/-- The offset in bits, from the effective address at offset 0, of the element of tile row `i` and step element `e`. -/
def Descr.elemBitOff (d : Descr) (kstep i e : Nat) : Nat :=
  let n := kstep * kOf d.cellFmt + e
  if d.column then 8 * (n * d.rstride) + i * storedBits d.fmt
  else 8 * (i * d.rstride) + n * storedBits d.fmt

/-- The scale of an element of a scaled format (Table 10.3): the page's FP32, or the E8M0 of its tile row and block. -/
def ArrayState.elemScale (A : ArrayState) (d : Descr) (kstep i e : Nat) : Val :=
  let n := kstep * kOf d.cellFmt + e
  if d.fmt = 7 then val32 (A.loadW d.scale)
  else
    let row := if d.column then n else i
    let col := if d.column then i else n
    e8m0 (A.loadLe ((d.scale + row * d.sstride + col / 32) % 2 ^ 20) 1)

/-- The code of one element, expanded under R59 where its format is scaled. -/
def ArrayState.elemCode (A : ArrayState) (d : Descr) (kstep i e : Nat) : Nat :=
  let b := d.elemBitOff kstep i e
  let addr := if d.space = 2 then A.winAddr d (A.ptrValue d + b / 8) else A.eaStore d (b / 8)
  let raw := A.loadLe addr ((storedBits d.fmt + 7) / 8)
  let code := if d.fmt = 6 then raw / 2 ^ (b % 8) % 16 else raw
  if isScaled d.fmt then
    let v := (if d.fmt = 6 then e2m1 else e4m3).decode code
    (fmtOfCode d.cellFmt).round (v.mul (A.elemScale d kstep i e))
  else code

/-- The slice of reduction step `kstep`: 32 rows of k elements. -/
def ArrayState.slice (A : ArrayState) (d : Descr) (kstep : Nat) : Slice :=
  { code := d.cellFmt
    elems := (List.range 32).flatMap (fun i => (List.range (kOf d.cellFmt)).map (fun e => A.elemCode d kstep i e)) }

/-- The window slots a slice reads are all filled; an array-store slice always is (R91). -/
def ArrayState.sliceReady (A : ArrayState) (d : Descr) (kstep : Nat) : Bool :=
  d.space != 2 || (List.range 32).all (fun i => (List.range (kOf d.cellFmt)).all (fun e =>
    let b := d.elemBitOff kstep i e
    A.winFilled d (A.ptrValue d + b / 8) ((storedBits d.fmt + 7) / 8)))

/-- Feeders read the array store and stream windows only (Table 10.4). -/
def Descr.feederOk (d : Descr) : Bool := d.space == 0 || d.space == 2

/-- Element (i, e) of a slice as an exact value; a slice that holds none yet is +0. -/
def Slice.val (x : Slice) (i e : Nat) : Val :=
  (fmtOfCode x.code).decode (x.elems.getD (i * kOf x.code + e) 0)

/-- The 32-byte units of the array store that an access touches, for R90. -/
def unitsOf (a n : Nat) : List Nat :=
  if n = 0 then [] else (List.range ((a + n - 1) / 32 + 1 - a / 32)).map (fun i => (a / 32 + i) % 32768)

end Sys2Proof.Machine
end

