-- ==== Sys2Proof/Machine/Accum.lean ====
section
/-! DEFINITION. Accumulator groups, ledgers, tally and the matrix-vector file as arithmetic on data (spec/03_numbers.md R61 to
R70; spec/04_arrays.md R82 to R106). -/
namespace Sys2Proof.Machine

/-- Number of the shadow bank beside the eight groups. -/
def shadow : Nat := 8

/-- An accumulator element. -/
def Accs.elem (x : Accs) (g r c : Nat) : Word := Tbl.get 0 x.grp (g * 1024 + r * 32 + c)
/-- A row of a group. -/
def Accs.row (x : Accs) (g r : Nat) : List Word := Tbl.getMany 0 x.grp (g * 1024 + r * 32) 32
/-- Writes the first elements of a row of a group. -/
def Accs.setRow (x : Accs) (g r : Nat) (l : List Word) : Accs :=
  { x with grp := Tbl.setMany 0 x.grp (g * 1024 + r * 32) l }
/-- Tally values of a row. -/
def Accs.tallyT (x : Accs) (g r : Nat) : Word := Tbl.get 0 x.tt (g * 32 + r)
def Accs.tallyG (x : Accs) (g r : Nat) : Word := Tbl.get 0 x.tg (g * 32 + r)
def Accs.setTally (x : Accs) (g r : Nat) (t w : Word) : Accs :=
  { x with tt := Tbl.set 0 x.tt (g * 32 + r) t, tg := Tbl.set 0 x.tg (g * 32 + r) w }
/-- The statistics of the run a group accumulates. -/
def Accs.info (x : Accs) (g : Nat) : RunInfo := Tbl.get {} x.run g
def Accs.setInfo (x : Accs) (g : Nat) (i : RunInfo) : Accs := { x with run := Tbl.set {} x.run g i }
/-- A ledger element; −0 where nothing was promoted (R66). -/
def Accs.hiAt (x : Accs) (l r c : Nat) : Word := Tbl.get negZero32 x.hi (l * 1024 + r * 32 + c)
def Accs.loAt (x : Accs) (l r c : Nat) : Word := Tbl.get negZero32 x.lo (l * 1024 + r * 32 + c)
def Accs.setLedger (x : Accs) (l r c : Nat) (h w : Word) : Accs :=
  { x with hi := Tbl.set negZero32 x.hi (l * 1024 + r * 32 + c) h, lo := Tbl.set negZero32 x.lo (l * 1024 + r * 32 + c) w }

/-- Exact value of a list of codes' sum, rounded once to FP32. -/
def sum32 (l : List Val) : Word := rne32 (exactSum l)

/-- Rows an MMA shape covers (R92). -/
def mmaRows (f : MmaFields) : List Nat :=
  if f.m16 then (List.range 16).map (· + (if f.mhi then 16 else 0)) else List.range 32
/-- Logical columns an MMA shape covers, 30 at most on a narrowed array (R92, R98). -/
def mmaCols (f : MmaFields) (narrow : Bool) : List Nat :=
  (if f.n16 then (List.range 16).map (· + (if f.nhi then 16 else 0)) else List.range 32).filter
    (fun c => !narrow || decide (c < 30))

/-- One MMA landing: each element with one rounding (R61), and the tally of its rows (R93). -/
def Accs.mma (x : Accs) (narrow : Bool) (a b : Slice) (f : MmaFields) : Accs :=
  let g := f.grp.toNat
  let ks := List.range (kOf a.code)
  let cols := mmaCols f narrow
  let w := ks.map (fun i => sum32 (cols.map (fun j => b.val j i)))
  let w' := ks.map (fun i => sum32 (cols.map (fun j => (b.val j i).abs)))
  let step := fun (x : Accs) (r : Nat) =>
    let x := cols.foldl (fun (x : Accs) (j : Nat) =>
      let v := sum32 (val32 (x.elem g r j) :: ks.map (fun i => (a.val r i).mul (b.val j i)))
      { x with grp := Tbl.set 0 x.grp (g * 1024 + r * 32 + j) v }) x
    x.setTally g r
      (sum32 (val32 (x.tallyT g r) :: ks.map (fun i => (a.val r i).mul (val32 (w.getD i 0)))))
      (sum32 (val32 (x.tallyG g r) :: ks.map (fun i => (a.val r i).abs.mul (val32 (w'.getD i 0)))))
  let x := (mmaRows f).foldl step x
  x.setInfo g { x.info g with landings := (x.info g).landings + 1 }

/-- A ledger row holds an element other than (−0, −0) (R70). -/
def Accs.ledgerOpen (x : Accs) (l r : Nat) : Bool :=
  (List.range 32).any (fun c => x.hiAt l r c != negZero32 || x.loAt l r c != negZero32)

/-- Scales a row of a ledger. -/
def Accs.scaleLedger (x : Accs) (l r : Nat) (f : Word) : Accs :=
  (List.range 32).foldl (fun x c => x.setLedger l r c (fmul (x.hiAt l r c) f) (fmul (x.loAt l r c) f)) x

/-- A row-scale of a group: elements, tally, the bound ledger and a draining run of the group (R63, R70, R88).
The ledger bound to group g is n = g for every program, a hand-written one too (R66, R186; DESIGN CHOICE, log 49). -/
def Accs.rowscale (x : Accs) (g : Nat) (fs : List Word) : Accs :=
  let step := fun (x : Accs) (r : Nat) =>
    let f := fs.getD r 0
    let x := x.setRow g r ((x.row g r).map (fun e => fmul e f))
    let x := x.setTally g r (fmul (x.tallyT g r) f) (fmul (x.tallyG g r) (fabs32 f))
    if x.ledgerOpen g r then x.scaleLedger g r f else x
  let x := (List.range 32).foldl step x
  let x := x.setInfo g { x.info g with scales := (x.info g).scales + 1 }
  match x.drain with
  | some d => if d.grp == g then
      { x with drain := some { d with scale := d.scale ++ (List.range 32).map (fun r => (r, fs.getD r 0)) } } else x
  | none => x

/-- Exchanges block `g` of `w` keys with the top block of the table. -/
def Tbl.swapTop {α : Type} (t : Tbl α) (w g top : Nat) : Tbl α :=
  let lo := t.filter (fun e => decide (e.1 < g * w))
  let own := t.filter (fun e => decide (g * w ≤ e.1) && decide (e.1 < (g + 1) * w))
  let mid := t.filter (fun e => decide ((g + 1) * w ≤ e.1) && decide (e.1 < top * w))
  let up := t.filter (fun e => decide (top * w ≤ e.1))
  lo ++ up.map (fun e => (e.1 - (top - g) * w, e.2)) ++ mid ++ own.map (fun e => (e.1 + (top - g) * w, e.2))

/-- A swap lands: the group and the shadow bank exchange contents and tally values, and the drain begins (R82, R83). -/
def Accs.swap (x : Accs) (g : Nat) (d : SwapDest) (tile : Nat) : Accs :=
  { x with
    grp := Tbl.swapTop x.grp 1024 g shadow
    tt := Tbl.swapTop x.tt 32 g shadow
    tg := Tbl.swapTop x.tg 32 g shadow
    run := Tbl.set {} x.run g {}
    drain := some { grp := g, dest := d, tile := tile, info := x.info g } }

/-- Promotion of a drained run value into a ledger element (R67). -/
def promote (hi lo r : Word) : Word × Word :=
  if !isFinite32 hi || !isFinite32 r then (fadd hi r, 0)
  else
    let s := fadd hi r
    if !isFinite32 s then (s, 0)
    else
      let bp := fsub s hi
      let e := fadd (fsub hi (fsub s bp)) (fsub r bp)
      (s, fadd lo e)

/-- Promotes a drained row into one ledger with its sign; a negative sign makes the zero of positions 30 and 31 of a narrowed
array -0 (R99; log 13). -/
def Accs.promoteRow (x : Accs) (sel : LedgerSel) (r : Nat) (l : List Word) : Accs :=
  if sel.en then
    let n := sel.ledger.toNat
    (List.range 32).foldl (fun x c =>
      let v := l.getD c 0
      let p := promote (x.hiAt n r c) (x.loAt n r c) (if sel.neg then fneg32 v else v)
      x.setLedger n r c p.1 p.2) x
  else x

/-- The live elements of a drained row in logical column order, +0 in positions 30 and 31 of a narrowed array (R94, R99). -/
def Accs.liveRow (x : Accs) (narrow : Bool) (g r : Nat) : List Word :=
  let l := x.row g r
  if narrow then l.take 30 ++ [0, 0] else l

/-- A drained row with the row-scales that landed while it was draining (R70). -/
def Drain.scaled (d : Drain) (r : Nat) (l : List Word) : List Word :=
  d.scale.foldl (fun l e => if e.1 = r then l.map (fun v => fmul v e.2) else l) l

/-- Sets a shadow row and its tally values to +0 (R83). -/
def Accs.clearShadowRow (x : Accs) (r : Nat) : Accs :=
  { x with
    grp := Tbl.clearRange x.grp (shadow * 1024 + r * 32) (shadow * 1024 + r * 32 + 32)
    tt := Tbl.erase x.tt (shadow * 32 + r)
    tg := Tbl.erase x.tg (shadow * 32 + r) }

/-- A group load completes: the tile replaces the group, and its tally is set (R86, R95); positions 30 and 31 of a
narrowed array are ignored (R99). -/
def Accs.loaded (x : Accs) (narrow : Bool) (g : Nat) (tile : List Word) : Accs :=
  let x := (List.range 32).foldl (fun (x : Accs) r =>
    let l := (tile.drop (32 * r)).take 32
    let l' := if narrow then l.take 30 else l
    let leaves := if narrow then l.take 30 ++ [0, 0] else l
    (x.setRow g r l').setTally g r (laneSum leaves) (laneSum (leaves.map fabs32))) x
  x.setInfo g { loaded := true }

/-- Ledger collapse (R71). -/
def Accs.collapse (x : Accs) (l r c : Nat) : Word :=
  let h := x.hiAt l r c
  let w := x.loAt l r c
  if isZero32 w then h else fadd h w

/-! ### The matrix-vector path (R104 to R106) -/

/-- An entry of the accumulator file. No operation of Tables 10.8 and 10.9 names one, so a program reads it nowhere (log 49). -/
def MatVec.entry (m : MatVec) (n lane : Nat) : Word := Tbl.get 0 m.acc (n * 32 + lane)
/-- Codes 8n to 8n + 7 of a query vector. -/
def MatVec.queryChunk (m : MatVec) (q c : Nat) : List Nat :=
  (List.range 8).map (fun e =>
    let i := q * 256 + 8 * c + e
    (Tbl.get (Config.queryElem m.queryGen i) m.query i).toNat)
/-- The eight elements a slot gives a lane. -/
def MatVec.slotLanes (m : MatVec) (slot : Nat) : List (List Nat) :=
  (List.range 32).map (fun i => (Tbl.getMany 0 m.slots (slot * 256 + 8 * i) 8).map BitVec.toNat)

/-- BF16 codes as exact values. -/
def bfVals (l : List Nat) : List Val := l.map bf16.decode

/-- Adds to the tally lane of a query (R106). -/
def MatVec.addTally (m : MatVec) (q : Nat) (dt dg : List Val) : MatVec :=
  { m with
    t := Tbl.set 0 m.t q (sum32 (val32 (Tbl.get 0 m.t q) :: dt))
    g := Tbl.set 0 m.g q (sum32 (val32 (Tbl.get 0 m.g q) :: dg))
    issues := Tbl.upd 0 m.issues q (· + 1) }

/-- The accumulation of a query touches entries of the accumulator file. -/
def MatVec.touch (m : MatVec) (q : Nat) (l : List Nat) : MatVec :=
  let old := Tbl.get [] m.entries q
  { m with entries := Tbl.set [] m.entries q ((List.range 128).filter (fun n => old.contains n || l.contains n)) }

/-- A DOT lands (Table 4.7). -/
def MatVec.dot (m : MatVec) (f : DotFields) (x : List (List Nat)) (qs : List Nat) : MatVec :=
  let q := f.qry.toNat
  let qv := qs.map (if Config.queryFp16 m.queryGen then fp16 else bf16).decode
  let n := f.e0.toNat + q
  let m1 := (List.range 32).foldl (fun (m : MatVec) i =>
    let v := sum32 (val32 (m.entry n i) :: List.zipWith Val.mul (bfVals (x.getD i [])) qv)
    { m with acc := Tbl.set 0 m.acc (n * 32 + i) v }) m
  let w := (List.range 8).map (fun e => sum32 (x.map (fun l => bf16.decode (l.getD e 0))))
  let w' := (List.range 8).map (fun e => sum32 (x.map (fun l => (bf16.decode (l.getD e 0)).abs)))
  (m1.addTally q (List.zipWith Val.mul qv (w.map val32)) (List.zipWith Val.mul (qv.map Val.abs) (w'.map val32))).touch q [n]

/-- An AXPY lands (Table 4.7). -/
def MatVec.axpyAdd (m : MatVec) (f : AxpyFields) (x : List (List Nat)) (p : List Word) : MatVec :=
  let q := f.qry.toNat
  let m1 := (List.range 32).foldl (fun (m : MatVec) i =>
    (List.range 8).foldl (fun (m : MatVec) e =>
      let v := sum32 [val32 (m.entry (8 * q + e) i), (val32 (p.getD i 0)).mul (bf16.decode ((x.getD i []).getD e 0))]
      { m with acc := Tbl.set 0 m.acc ((8 * q + e) * 32 + i) v }) m) m
  let u := x.map (fun l => sum32 (bfVals l))
  let u' := x.map (fun l => sum32 ((bfVals l).map Val.abs))
  let pv := p.map val32
  { (m1.addTally q (List.zipWith Val.mul pv (u.map val32)) (List.zipWith Val.mul (pv.map Val.abs) (u'.map val32))).touch q
      ((List.range 8).map (8 * q + ·)) with
    axpy := if m1.axpy.contains q then m1.axpy else m1.axpy ++ [q] }

/-- Levels of a pairwise tree over `n` leaves. -/
def treeLevels (n : Nat) : Nat := if n ≤ 1 then 0 else Nat.log2 (n - 1) + 1

/-- The R74 sum over the entries that a query's accumulation touched (R106). The leaves stand by lane and within a lane by
entry, and +0 fills the tree; the spec gives no order (log 49). -/
def MatVec.rowSum (m : MatVec) (q : Nat) : Word :=
  let l := Tbl.get [] m.entries q
  let leaves := (List.range 32).flatMap (fun i => l.map (fun n => m.entry n i))
  let k := treeLevels leaves.length
  treeSum k (leaves ++ List.replicate (2 ^ k - leaves.length) 0)

end Sys2Proof.Machine
end

