-- ==== Sys2Proof/Machine/Rate.lean ====
section
/-! DEFINITION. Rate programs, rate tables and the vendor functions (spec/05_functions.md R111 to R116, R126, R129). -/
namespace Sys2Proof.Machine

/-! ### Vendor tables (R116): the procedure's result, computed from the exact functions -/

/-- Segments 0 to 15 of vendor table 0 (exp2): knot, value, slope (Table 5.5, R116). -/
def vendorSegs0a : List (Word × Word × Word) :=
  [(0x00000000#32, 0x3F800000#32, 0x3F355860#32), (0x3D800000#32, 0x3F85AAC3#32, 0x3F3D5FE0#32), (0x3E000000#32, 0x3F8B95C2#32, 0x3F45C220#32),
   (0x3E400000#32, 0x3F91C3D3#32, 0x3F4E83A0#32), (0x3E800000#32, 0x3F9837F0#32, 0x3F57A840#32), (0x3EA00000#32, 0x3F9EF532#32, 0x3F6134A0#32),
   (0x3EC00000#32, 0x3FA5FED7#32, 0x3F6B2D00#32), (0x3EE00000#32, 0x3FAD583F#32, 0x3F759680#32), (0x3F000000#32, 0x3FB504F3#32, 0x3F803B10#32),
   (0x3F100000#32, 0x3FBD08A4#32, 0x3F85E860#32), (0x3F200000#32, 0x3FC5672A#32, 0x3F8BD620#32), (0x3F300000#32, 0x3FCE248C#32, 0x3F920710#32),
   (0x3F400000#32, 0x3FD744FD#32, 0x3F987E20#32), (0x3F500000#32, 0x3FE0CCDF#32, 0x3F9F3E80#32), (0x3F600000#32, 0x3FEAC0C7#32, 0x3FA64B60#32),
   (0x3F700000#32, 0x3FF5257D#32, 0x3FADA830#32)]

/-- Segments 0 to 15 of vendor table 1 (log2): knot, value, slope (Table 5.5, R116). -/
def vendorSegs1a : List (Word × Word × Word) :=
  [(0x3F800000#32, 0x00000000#32, 0x3FB31FB8#32), (0x3F880000#32, 0x3DB31FB8#32, 0x3FA8E1EC#32), (0x3F900000#32, 0x3E2E00D2#32, 0x3F9FBFC8#32),
   (0x3F980000#32, 0x3E7DE0B6#32, 0x3F978D9C#32), (0x3FA00000#32, 0x3EA4D3C2#32, 0x3F902848#32), (0x3FA80000#32, 0x3EC8DDD4#32, 0x3F89732C#32),
   (0x3FB00000#32, 0x3EEB3A9F#32, 0x3F8356C4#32), (0x3FB80000#32, 0x3F060828#32, 0x3F7B7F20#32), (0x3FC00000#32, 0x3F15C01A#32, 0x3F713A80#32),
   (0x3FC80000#32, 0x3F24D3C2#32, 0x3F67C420#32), (0x3FD00000#32, 0x3F335004#32, 0x3F5F04B0#32), (0x3FD80000#32, 0x3F41404F#32, 0x3F56E810#32),
   (0x3FE00000#32, 0x3F4EAED0#32, 0x3F4F5D40#32), (0x3FE80000#32, 0x3F5BA4A4#32, 0x3F485570#32), (0x3FF00000#32, 0x3F6829FB#32, 0x3F41C3B0#32),
   (0x3FF80000#32, 0x3F744636#32, 0x3F3B9CA0#32)]

/-- Segments 0 to 15 of vendor table 2 (tanh): knot, value, slope (Table 5.5, R116). -/
def vendorSegs2a : List (Word × Word × Word) :=
  [(0x00000000#32, 0x00000000#32, 0x3F7EACC9#32), (0x3E000000#32, 0x3DFEACC9#32, 0x3F76EB21#32), (0x3E800000#32, 0x3E7ACBF5#32, 0x3F685292#32),
   (0x3EC00000#32, 0x3EB77A9F#32, 0x3F548000#32), (0x3F000000#32, 0x3EEC9A9F#32, 0x3F3D677C#32), (0x3F200000#32, 0x3F0DFA3F#32, 0x3F24F700#32),
   (0x3F400000#32, 0x3F22991F#32, 0x3F0CD048#32), (0x3F600000#32, 0x3F343328#32, 0x3EEC4AE0#32), (0x3F800000#32, 0x3F42F7D6#32, 0x3EC36850#32),
   (0x3F900000#32, 0x3F4F2E5B#32, 0x3E9FAC30#32), (0x3FA00000#32, 0x3F59291E#32, 0x3E813350#32), (0x3FB00000#32, 0x3F613C53#32, 0x3E4F6F20#32),
   (0x3FC00000#32, 0x3F67B7CC#32, 0x3E257620#32), (0x3FD00000#32, 0x3F6CE37D#32, 0x3E035000#32), (0x3FE00000#32, 0x3F70FDFD#32, 0x3DCF9480#32),
   (0x3FF00000#32, 0x3F743C4F#32, 0x3DA38D00#32)]

/-- Segments 16 to 31 of vendor table 2 (tanh): knot, value, slope (Table 5.5, R116). -/
def vendorSegs2b : List (Word × Word × Word) :=
  [(0x40000000#32, 0x3F76CA83#32, 0x3D655A00#32), (0x40100000#32, 0x3F7A5FEB#32, 0x3D0CB580#32), (0x40200000#32, 0x3F7C92C1#32, 0x3CABE200#32),
   (0x40300000#32, 0x3F7DEA85#32, 0x3C516400#32), (0x40400000#32, 0x3F7EBBE9#32, 0x3BFEA800#32), (0x40500000#32, 0x3F7F3B3D#32, 0x3B9AB200#32),
   (0x40600000#32, 0x3F7F8896#32, 0x3B3BD800#32), (0x40700000#32, 0x3F7FB78C#32, 0x3AE40000#32), (0x40800000#32, 0x3F7FD40C#32, 0x3A5E4000#32),
   (0x40900000#32, 0x3F7FEFD4#32, 0x39A39000#32), (0x40A00000#32, 0x3F7FFA0D#32, 0x38F0C000#32), (0x40B00000#32, 0x3F7FFDD0#32, 0x38310000#32),
   (0x40C00000#32, 0x3F7FFF32#32, 0x37320000#32), (0x40E00000#32, 0x3F7FFFE4#32, 0x35C00000#32), (0x41000000#32, 0x3F7FFFFC#32, 0x34C00000#32),
   (0x41080000#32, 0x3F7FFFFF#32, 0x33FAFAF4#32)]

/-- Segments 0 to 15 of vendor table 3 (logistic): knot, value, slope (Table 5.5, R116). -/
def vendorSegs3a : List (Word × Word × Word) :=
  [(0x00000000#32, 0x3F000000#32, 0xBE7EACC8#32), (0x3E800000#32, 0x3EE02A67#32, 0xBE76EB20#32), (0x3F000000#32, 0x3EC14D03#32, 0xBE685290#32),
   (0x3F400000#32, 0x3EA442B1#32, 0xBE548000#32), (0x3F800000#32, 0x3E89B2B1#32, 0xBE3D6784#32), (0x3FA00000#32, 0x3E640B81#32, 0xBE24F6FC#32),
   (0x3FC00000#32, 0x3E3ACDC2#32, 0xBE0CD04C#32), (0x3FE00000#32, 0x3E1799AF#32, 0xBDEC4AD4#32), (0x40000000#32, 0x3DF420A9#32, 0xBDC36850#32),
   (0x40100000#32, 0x3DC34695#32, 0xBD9FAC30#32), (0x40200000#32, 0x3D9B5B89#32, 0xBD81334E#32), (0x40300000#32, 0x3D761D6B#32, 0xBD4F6F24#32),
   (0x40400000#32, 0x3D4241A2#32, 0xBD257638#32), (0x40500000#32, 0x3D18E414#32, 0xBD034FE8#32), (0x40600000#32, 0x3CF02034#32, 0xBCCF94A8#32),
   (0x40700000#32, 0x3CBC3B0A#32, 0xBCA38CE4#32)]

/-- Segments 16 to 31 of vendor table 3 (logistic): knot, value, slope (Table 5.5, R116). -/
def vendorSegs3b : List (Word × Word × Word) :=
  [(0x40800000#32, 0x3C9357D1#32, 0xBC655A1C#32), (0x40900000#32, 0x3C340294#32, 0xBC0CB574#32), (0x40A00000#32, 0x3BDB4FB4#32, 0xBBABE1D4#32),
   (0x40B00000#32, 0x3B855ECA#32, 0xBB5163B0#32), (0x40C00000#32, 0x3B220BBC#32, 0xBAFEA84E#32), (0x40D00000#32, 0x3AC4C351#32, 0xBA9AB306#32),
   (0x40E00000#32, 0x3A6ED39C#32, 0xBA3BD686#32), (0x40F00000#32, 0x3A10E859#32, 0xB9E3FD86#32), (0x41000000#32, 0x39AFD1EF#32, 0xB95E4063#32),
   (0x41100000#32, 0x3901637B#32, 0xB8A3922A#32), (0x41200000#32, 0x383E6998#32, 0xB7F0B928#32), (0x41300000#32, 0x378C1A08#32, 0xB7311F08#32),
   (0x41400000#32, 0x36CE2A10#32, 0xB6825206#32), (0x41500000#32, 0x3617B014#32, 0xB5BFC512#32), (0x41600000#32, 0x355F362C#32, 0xB50D18BB#32),
   (0x41700000#32, 0x34A43AE2#32, 0xB4A43AE2#32)]

/-- Segments 0 to 15 of vendor table 4 (sine): knot, value, slope (Table 5.5, R116). -/
def vendorSegs4a : List (Word × Word × Word) :=
  [(0x00000000#32, 0x00000000#32, 0x3FC90AB0#32), (0x3C800000#32, 0x3CC90AB0#32, 0x3FC8EBB0#32), (0x3D000000#32, 0x3D48FB30#32, 0x3FC8ADB4#32),
   (0x3D400000#32, 0x3D96A905#32, 0x3FC850C4#32), (0x3D800000#32, 0x3DC8BD36#32, 0x3FC7D4F4#32), (0x3DA00000#32, 0x3DFAB273#32, 0x3FC73A4C#32),
   (0x3DC00000#32, 0x3E164083#32, 0x3FC680F8#32), (0x3DE00000#32, 0x3E2F10A2#32, 0x3FC5A900#32), (0x3E000000#32, 0x3E47C5C2#32, 0x3FC4B288#32),
   (0x3E100000#32, 0x3E605C13#32, 0x3FC39DC8#32), (0x3E200000#32, 0x3E78CFCC#32, 0x3FC26AD0#32), (0x3E300000#32, 0x3E888E93#32, 0x3FC119E0#32),
   (0x3E400000#32, 0x3E94A031#32, 0x3FBFAB40#32), (0x3E500000#32, 0x3EA09AE5#32, 0x3FBE1EF0#32), (0x3E600000#32, 0x3EAC7CD4#32, 0x3FBC7560#32),
   (0x3E700000#32, 0x3EB8442A#32, 0x3FBAAEB0#32)]

/-- Segments 16 to 31 of vendor table 4 (sine): knot, value, slope (Table 5.5, R116). -/
def vendorSegs4b : List (Word × Word × Word) :=
  [(0x3E800000#32, 0x3EC3EF15#32, 0x3FB8CB50#32), (0x3E880000#32, 0x3ECF7BCA#32, 0x3FB6CB60#32), (0x3E900000#32, 0x3EDAE880#32, 0x3FB4AF50#32),
   (0x3E980000#32, 0x3EE63375#32, 0x3FB27750#32), (0x3EA00000#32, 0x3EF15AEA#32, 0x3FB023D0#32), (0x3EA80000#32, 0x3EFC5D27#32, 0x3FADB530#32),
   (0x3EB00000#32, 0x3F039C3D#32, 0x3FAB2BC0#32), (0x3EB80000#32, 0x3F08F59B#32, 0x3FA887E0#32), (0x3EC00000#32, 0x3F0E39DA#32, 0x3FA5CA00#32),
   (0x3EC80000#32, 0x3F13682A#32, 0x3FA2F2C0#32), (0x3ED00000#32, 0x3F187FC0#32, 0x3FA00220#32), (0x3ED80000#32, 0x3F1D7FD1#32, 0x3F9CF900#32),
   (0x3EE00000#32, 0x3F226799#32, 0x3F99D7A0#32), (0x3EE80000#32, 0x3F273656#32, 0x3F969E80#32), (0x3EF00000#32, 0x3F2BEB4A#32, 0x3F934E20#32),
   (0x3EF80000#32, 0x3F3085BB#32, 0x3F8FE700#32)]

/-- Segments 32 to 47 of vendor table 4 (sine): knot, value, slope (Table 5.5, R116). -/
def vendorSegs4c : List (Word × Word × Word) :=
  [(0x3F000000#32, 0x3F3504F3#32, 0x3F8C69E0#32), (0x3F040000#32, 0x3F396842#32, 0x3F88D6E0#32), (0x3F080000#32, 0x3F3DAEF9#32, 0x3F852EE0#32),
   (0x3F0C0000#32, 0x3F41D870#32, 0x3F817260#32), (0x3F100000#32, 0x3F45E403#32, 0x3F7B43C0#32), (0x3F140000#32, 0x3F49D112#32, 0x3F737C00#32),
   (0x3F180000#32, 0x3F4D9F02#32, 0x3F6B8EC0#32), (0x3F1C0000#32, 0x3F514D3D#32, 0x3F637D00#32), (0x3F200000#32, 0x3F54DB31#32, 0x3F5B4880#32),
   (0x3F240000#32, 0x3F584853#32, 0x3F52F1C0#32), (0x3F280000#32, 0x3F5B941A#32, 0x3F4A7AC0#32), (0x3F2C0000#32, 0x3F5EBE05#32, 0x3F41E4C0#32),
   (0x3F300000#32, 0x3F61C598#32, 0x3F393040#32), (0x3F340000#32, 0x3F64AA59#32, 0x3F305FC0#32), (0x3F380000#32, 0x3F676BD8#32, 0x3F2773C0#32),
   (0x3F3C0000#32, 0x3F6A09A7#32, 0x3F1E6DC0#32)]

/-- Segments 48 to 63 of vendor table 4 (sine): knot, value, slope (Table 5.5, R116). -/
def vendorSegs4d : List (Word × Word × Word) :=
  [(0x3F400000#32, 0x3F6C835E#32, 0x3F155000#32), (0x3F440000#32, 0x3F6ED89E#32, 0x3F0C1A80#32), (0x3F480000#32, 0x3F710908#32, 0x3F02CFC0#32),
   (0x3F4C0000#32, 0x3F731447#32, 0x3EF2E200#32), (0x3F500000#32, 0x3F74FA0B#32, 0x3EDFFE00#32), (0x3F540000#32, 0x3F76BA07#32, 0x3ECCF880#32),
   (0x3F580000#32, 0x3F7853F8#32, 0x3EB9D280#32), (0x3F5C0000#32, 0x3F79C79D#32, 0x3EA69080#32), (0x3F600000#32, 0x3F7B14BE#32, 0x3E933500#32),
   (0x3F640000#32, 0x3F7C3B28#32, 0x3E7F8400#32), (0x3F680000#32, 0x3F7D3AAC#32, 0x3E587800#32), (0x3F6C0000#32, 0x3F7E1324#32, 0x3E314900#32),
   (0x3F700000#32, 0x3F7EC46D#32, 0x3E0A0000#32), (0x3F740000#32, 0x3F7F4E6D#32, 0x3DC54400#32), (0x3F780000#32, 0x3F7FB10F#32, 0x3D6CD000#32),
   (0x3F7C0000#32, 0x3F7FEC43#32, 0x3C9DE800#32)]

/-- A vendor table: segments, end knot and end value (Table 5.5). -/
def vendorTable (n : Nat) : List (Word × Word × Word) × Word × Word :=
  match n with
  | 0 => (vendorSegs0a, 0x3F800000#32, 0x40000000#32)
  | 1 => (vendorSegs1a, 0x40000000#32, 0x3F800000#32)
  | 2 => (vendorSegs2a ++ vendorSegs2b, 0x411028F6#32, 0x3F800000#32)
  | 3 => (vendorSegs3a ++ vendorSegs3b, 0x41800000#32, 0#32)
  | 4 => (vendorSegs4a ++ (vendorSegs4b ++ (vendorSegs4c ++ vendorSegs4d)), 0x3F800000#32, 0x3F800000#32)
  | _ => ([], 0#32, 0#32)

/-- The steps of a vendor program and its constant K0 (Table 5.4). -/
def vendorProgram (n : Nat) : List Word × Word :=
  match n with
  | 0 => ([0x00000001#32, 0x00001002#32, 0x00425303#32, 0x00003304#32], 0x3FB8AA3B#32)
  | 1 => ([0x00000021#32, 0x01001002#32, 0x00425303#32, 0x00003314#32], 0#32)
  | 2 => ([0x00000011#32, 0x02001002#32, 0x00425303#32, 0x00000006#32], 0#32)
  | 3 => ([0x00000011#32, 0x03001002#32, 0x00425303#32, 0x00000026#32], 0#32)
  | 4 => ([0x00000031#32, 0x04001002#32, 0x00425303#32, 0x00000016#32], 0x3F22F983#32)
  | 5 => ([0x00000041#32, 0x04001002#32, 0x00425303#32, 0x00000016#32], 0x3F22F983#32)
  | _ => ([], 0#32)

/-- The image of a vendor slot in the layout of Table 5.9. -/
def vendorImage (n : Nat) : List Word :=
  let t := vendorTable n
  let p := vendorProgram n
  [BitVec.ofNat 32 (p.1.length + 256 * t.1.length), 0, 0, 0] ++ (p.2 :: List.replicate 7 0) ++
    (p.1 ++ List.replicate (16 - p.1.length) 0) ++ [t.2.1, t.2.2, 0, 0] ++
    t.1.flatMap (fun g => [g.1, g.2.1, g.2.2, 0]) ++ List.replicate (4 * (64 - t.1.length)) 0

/-! ### Images (Table 5.9) -/

/-- The bits of word `i` of a function image that Table 5.9 defines, and R112 within a step; the others are reserved and read zero
(R8). -/
def imgMask (i : Nat) : Word :=
  if i = 0 then 0x7F1F#32 else if i < 4 ∨ i = 30 ∨ i = 31 ∨ (32 ≤ i ∧ i % 4 = 3) then 0
  else if 12 ≤ i ∧ i < 28 then 0x0FFFFFFF#32 else 0xFFFFFFFF#32

/-- A function image without its reserved bits. -/
def maskImage (l : List Word) : List Word := ((List.range l.length).zip l).map (fun w => w.2 &&& imgMask w.1)

/-- Word `i` of an image; an empty slot reads 0. -/
def imgWord (img : List Word) (i : Nat) : Word := img.getD i 0
/-- STEPS, values above 16 acting as 16 (R129). -/
def imgSteps (img : List Word) : Nat := min ((imgWord img 0).toNat % 32) 16
/-- SEGS, values above 64 acting as 64 (R129). -/
def imgSegs (img : List Word) : Nat := min (bitsOf (imgWord img 0).toNat 14 8) 64
/-- Steps for latency and occupancy: STEPS raised to at least 4 (R109, R126). -/
def imgLatency (img : List Word) : Nat := max (imgSteps img) 4

/-- The image of a function slot in a bank of an array: 0 to 5 vendor, 6 to 15 user (R123). -/
def Banks.image (b : Banks) (bank slot : Nat) : List Word :=
  if slot < 6 then vendorImage slot else (Tbl.get {} b.user (bank * 16 + slot)).words

/-! ### Evaluation (R111 to R114) -/

/-- The evaluation registers (Table 5.1). -/
structure Eval where
  x : Word
  a : Word
  t : Word := 0
  v : Word := 0
  c : Word := 0
  m : Word := 0
  n : Word := 0
  w : Word := 0
  sg : Bool
  q : Nat := 0
  e : Bool := false
deriving DecidableEq, Repr

/-- A register by its code; codes 8 to 15 are the constants. -/
def Eval.get (r : Eval) (img : List Word) (c : Nat) : Word :=
  match c with
  | 0 => r.x
  | 1 => r.a
  | 2 => r.t
  | 3 => r.v
  | 4 => r.c
  | 5 => r.m
  | 6 => r.n
  | 7 => r.w
  | k => imgWord img (4 + (k - 8))

/-- Writes a register; read-only ones ignore it. -/
def Eval.put (r : Eval) (c : Nat) (v : Word) : Eval :=
  match c with
  | 1 => { r with a := v }
  | 2 => { r with t := v }
  | 3 => { r with v := v }
  | 4 => { r with c := v }
  | 5 => { r with m := v }
  | 6 => { r with n := v }
  | 7 => { r with w := v }
  | _ => r

/-- An early result (R114). -/
def Eval.early (r : Eval) (v : Word) : Eval := { r with v := v, e := true }

/-- Floor of an FP32 value; zeros, infinities and NaN stay. -/
def floor32 (y : Word) : Word :=
  match val32 y with
  | .fin s m x => if m = 0 then y else if 0 ≤ x then y else rne32 (Val.ofInt (Val.fin s m x).floorInt)
  | .inf _ => y
  | .nan => nan32

/-- Range-reduce (Table 5.2, OP 1). -/
def Eval.rangeReduce (r : Eval) (form : Nat) (k : Word) : Eval :=
  match form with
  | 0 =>
    if isNaN32 r.x then r.early nan32
    else
      let y := fmul r.x k
      if y = inf32 then r.early inf32
      else if y = ninf32 then r.early 0
      else
        let n := floor32 y
        { r with n := n, a := fsub y n }
  | 1 => if isNaN32 r.x then r.early nan32 else { r with a := fabs32 r.x }
  | 2 =>
    match val32 r.x with
    | .nan => r.early nan32
    | .inf s => r.early (if s then nan32 else inf32)
    | .fin s m x =>
      if m = 0 then r.early ninf32
      else if s then r.early nan32
      else
        { r with n := rne32 (Val.ofInt (Int.ofNat (Nat.log2 m) + x)), a := rne32 (.fin false m (-(Int.ofNat (Nat.log2 m)))) }
  | 3 | 4 =>
    if !isFinite32 r.x then r.early nan32
    else if form == 3 && isZero32 r.x then r.early r.x
    else
      let y := fmul r.x k
      let n := floor32 y
      let f := fsub y n
      let q := match val32 n with
        | .fin s m x => (((Val.fin s m x).floorInt + (if form = 4 then 1 else 0)) % 4).toNat
        | _ => (Config.quadrant y).toNat
      { r with q := q, a := if q % 2 = 1 then fsub one32 f else f }
  | _ => r

/-- Knot, value and slope of segment `j` of an image. -/
def imgSeg (img : List Word) (j : Nat) : Word × Word × Word :=
  (imgWord img (32 + 4 * j), imgWord img (33 + 4 * j), imgWord img (34 + 4 * j))

/-- The highest segment whose knot does not exceed the argument, or 0. -/
def lookupSeg (img : List Word) (a : Word) (n : Nat) : Nat :=
  match n with
  | 0 => 0
  | k + 1 => if fle (imgSeg img k).1 a then k else lookupSeg img a k

/-- The table lookup (R113). -/
def Eval.lookup (r : Eval) (tab : List Word) (a : Word) : Eval :=
  if isNaN32 a || imgSegs tab == 0 then r.early nan32
  else if fle (imgWord tab 28) a then { r with t := 0, c := imgWord tab 29, m := 0 }
  else
    let g := imgSeg tab (lookupSeg tab a (imgSegs tab))
    { r with t := fsub a g.1, c := g.2.1, m := g.2.2 }

/-- POW2: the value times 2^floor(N), the exponent clamped to ±300 (Table 5.2). -/
def pow2Scale (v n : Word) : Word :=
  match val32 n with
  | .nan => nan32
  | .inf s => rne32 ((val32 v).scale (if s then -300 else 300))
  | x => rne32 ((val32 v).scale (max (-300) (min 300 x.floorInt)))

/-- One step of a program on the function images of a bank. -/
def Eval.step (r : Eval) (img : List Word) (tab : Nat → List Word) (w : Word) : Eval :=
  let f := fun (msb lsb : Nat) => bitsOf w.toNat msb lsb
  let form := f 7 4
  let dst := f 11 8
  let sa := r.get img (f 15 12)
  let sb := r.get img (f 19 16)
  let sc := r.get img (f 23 20)
  let k := imgWord img (4 + f 26 24)
  if r.e then r
  else match f 3 0 with
    | 1 => r.rangeReduce form k
    | 2 => if form = 0 then r.lookup (tab (f 27 24)) sa else r
    | 3 => if form = 0 then r.put dst (ffma sa sb sc) else r
    | 4 => if form = 0 then r.put dst (pow2Scale sa r.n) else if form = 1 then r.put dst (fadd sa r.n) else r
    | 5 =>
      match form with
      | 0 => r.put dst (if flt sa k then sb else sc)
      | 1 => r.put dst (if fle k sa then sb else sc)
      | 2 => r.put dst (if isNaN32 sa then sb else sc)
      | 3 => r.put dst (if isZero32 sa then sb else sc)
      | _ => r
    | 6 =>
      match form with
      | 0 => if isNaN32 r.v then r else { r with v := fabs32 r.v ||| (if r.sg then negZero32 else 0) }
      | 1 => if isNaN32 r.v || decide (r.q < 2) then r else { r with v := fneg32 r.v }
      | 2 => if flt 0 r.x then { r with v := fsub one32 r.v } else r
      | _ => r
    | _ => r

/-- The result of a program image on an argument; an empty program returns the canonical NaN (R126). -/
def evalImage (img : List Word) (tab : Nat → List Word) (x : Word) : Word :=
  if imgSteps img = 0 then nan32
  else
    let r0 : Eval := { x := x, a := x, sg := x.getLsbD 31 }
    (((img.drop 12).take (imgSteps img)).foldl (fun r w => Eval.step r img tab w) r0).v

/-- A built-in function by its slot. -/
def builtin (slot : Nat) (x : Word) : Word := evalImage (vendorImage slot) vendorImage x
def fnExp (x : Word) : Word := builtin 0 x
def fnLog2 (x : Word) : Word := builtin 1 x
def fnTanh (x : Word) : Word := builtin 2 x
def fnLogistic (x : Word) : Word := builtin 3 x
def fnSin (x : Word) : Word := builtin 4 x
def fnCos (x : Word) : Word := builtin 5 x

/-! ### The argument stage (R135) -/

/-- RNE(v × μ + κ). -/
def argFma (v mu kappa : Word) : Word := ffma v mu kappa
/-- RNE((v − σ) × μ), exact inside. -/
def argSubMul (v sigma mu : Word) : Word := rne32 ((exactSum [val32 v, (val32 sigma).neg]).mul (val32 mu))

/-! ### Row preparation (R157) -/

/-- How a row is prepared. -/
structure Prep where
  norm : Bool := false
  gamma : Option (List Word) := none
  eps : Word := 0x35800000#32
  rot : Nat := 0
  rotDims : Nat := 0
  halves : Bool := false
deriving DecidableEq, Repr

/-- The factor g of the RMS normalisation of a row (R157 step 2). -/
def rmsFactor (p : Prep) (x : List Word) : Word :=
  let r := x.foldl (fun r v => ffma v v r) 0
  let ms := fdiv r (natToFp32 x.length)
  fnExp (argFma (fnLog2 (fadd ms p.eps)) 0xBEB17218#32 0)

/-- The RMS normalisation of a row (R157 step 2). -/
def rmsNorm (p : Prep) (x : List Word) : List Word :=
  if p.norm then
    let g := rmsFactor p x
    let y := x.map (fun v => fmul v g)
    match p.gamma with
    | some gm => List.zipWith fmul y gm
    | none => y
  else x

/-- The rotation of pair i with its cosine and sine (R157 step 3). -/
def rotPair (p : Prep) (cs sn : Word) (i : Nat) (x : List Word) : List Word :=
  let ia := if p.halves then i else 2 * i
  let ib := if p.halves then i + p.rotDims / 2 else 2 * i + 1
  let xv := x.getD ia 0
  let yv := x.getD ib 0
  (x.set ia (ffma xv cs (fneg32 (fmul yv sn)))).set ib (ffma yv cs (fmul xv sn))

/-- The cosine and sine of pair i: from a table, or computed from the angle (R157). `w` reads FP32 word k of ROT_SRC. -/
def rotCosSin (p : Prep) (pos : Nat) (w : Nat → Word) (i : Nat) : Word × Word :=
  if p.rot = 1 then
    let k := pos * (p.rotDims / 2) + i
    (w (2 * k), w (2 * k + 1))
  else
    let th := fmul (natToFp32 pos) (w i)
    (fnCos th, fnSin th)

/-- A row prepared by R157. -/
def prepRow (p : Prep) (pos : Nat) (w : Nat → Word) (x : List Word) : List Word :=
  let y := rmsNorm p x
  if p.rot = 0 then y
  else (List.range (p.rotDims / 2)).foldl (fun y i =>
    let c := rotCosSin p pos w i
    rotPair p c.1 c.2 i y) y

end Sys2Proof.Machine
end

