-- ==== Sys2Proof/Machine/Ops.lean ====
section
/-! DEFINITION. The named operations over the state: registers, hosts, tenancies, stores, events and logs. -/
namespace Sys2Proof.Machine

/-! ### Registers -/

/-- The value of a register field instance. -/
def State.reg (s : State) (f : FieldSpec) (i : Nat := 0) (j : Nat := 0) : Nat := Regs.get s.regs f i j
/-- A one-bit field as a Bool. -/
def State.flag (s : State) (f : FieldSpec) (i : Nat := 0) (j : Nat := 0) : Bool := s.reg f i j == 1
/-- Writes a register field instance. -/
def State.setReg (s : State) (f : FieldSpec) (i v : Nat) (j : Nat := 0) : State := { s with regs := Regs.set s.regs f i v j }
/-- Adds to a saturating counter field. -/
def State.bump (s : State) (f : FieldSpec) (i : Nat := 0) (n : Nat := 1) : State := { s with regs := Regs.bump s.regs f i n }
/-- Adds 1 to a wrapping counter field. -/
def State.bumpWrap (s : State) (f : FieldSpec) (i : Nat := 0) : State := s.setReg f i (s.reg f i + 1)

/-! ### Free values (log 2) -/

/-- The free byte the next draw gives. -/
def State.freeByte (s : State) : Byte := Config.freeByte s.freeCtr
/-- The free word the next draw gives. -/
def State.freeWord (s : State) : Word := Config.freeWord s.freeCtr
/-- Advances past a drawn free value. -/
def State.drew (s : State) (n : Nat := 1) : State := { s with freeCtr := s.freeCtr + n }

/-! ### Units -/

/-- The state of an array. -/
def State.arr (s : State) (a : Nat) : ArrayState := Tbl.get {} s.arrs a
/-- Replaces the state of an array. -/
def State.setArr (s : State) (a : Nat) (A : ArrayState) : State := { s with arrs := Tbl.set {} s.arrs a A }
/-- Changes the state of an array. -/
def State.onArr (s : State) (a : Nat) (f : ArrayState → ArrayState) : State := s.setArr a (f (s.arr a))
/-- The condition of an array. -/
def State.cond (s : State) (a : Nat) : ArrCond := Tbl.get {} s.conds a
/-- Changes the condition of an array. -/
def State.onCond (s : State) (a : Nat) (f : ArrCond → ArrCond) : State :=
  { s with conds := Tbl.set {} s.conds a (f (s.cond a)) }
/-- A power domain. -/
def State.dom (s : State) (d : Nat) : Domain := Tbl.get {} s.doms d
/-- Replaces a power domain. -/
def State.setDom (s : State) (d : Nat) (x : Domain) : State := { s with doms := Tbl.set {} s.doms d x }
/-- Changes the dispatcher. -/
def State.onDisp (s : State) (f : Dispatcher → Dispatcher) : State := { s with disp := f s.disp }
/-- A submission queue. -/
def State.queue (s : State) (q : Nat) : SubQueue := Tbl.get {} s.disp.queues q
def State.setQueue (s : State) (q : Nat) (x : SubQueue) : State :=
  s.onDisp fun d => { d with queues := Tbl.set {} d.queues q x }
/-- A mailbag, by absolute number. -/
def State.bag (s : State) (m : Nat) : Mailbag := Tbl.get {} s.disp.mbx m
def State.setBag (s : State) (m : Nat) (x : Mailbag) : State :=
  s.onDisp fun d => { d with mbx := Tbl.set {} d.mbx m x }
/-- A letterbox, by absolute number. -/
def State.lb (s : State) (n : Nat) : Word := Tbl.get 0 s.disp.lbx n
def State.setLb (s : State) (n : Nat) (v : Word) : State := s.onDisp fun d => { d with lbx := Tbl.set 0 d.lbx n v }
/-- A tenancy's collection. -/
def State.collection (s : State) (t : Nat) : Collection := Tbl.get {} s.disp.coll t
def State.setCollection (s : State) (t : Nat) (c : Collection) : State :=
  s.onDisp fun d => { d with coll := Tbl.set {} d.coll t c }
/-- A submitter record. -/
def State.subRec (s : State) (i : Nat) : SubRec := Tbl.get {} s.disp.subs i
def State.setSubRec (s : State) (i : Nat) (r : SubRec) : State :=
  s.onDisp fun d => { d with subs := Tbl.set {} d.subs i r }
/-- A receipt-log entry. -/
def State.task (s : State) (r : Nat) : Option Task := Tbl.get none s.disp.tasks r
def State.setTask (s : State) (r : Nat) (t : Option Task) : State :=
  s.onDisp fun d => { d with tasks := Tbl.set none d.tasks r t }
def State.onTask (s : State) (r : Nat) (f : Task → Task) : State := s.setTask r ((s.task r).map f)
/-- An accepted command. -/
def State.cmd (s : State) (c : Nat) : Option Cmd := s.disp.cmds.find? (fun x => x.cid == c)
def State.onCmd (s : State) (c : Nat) (f : Cmd → Cmd) : State :=
  s.onDisp fun d => { d with cmds := d.cmds.map (fun x => if x.cid == c then f x else x) }
/-- A library routine in RAM. -/
def State.routine (s : State) (r : Nat) : Routine := Tbl.get {} s.disp.lib r
def State.setRoutine (s : State) (r : Nat) (x : Routine) : State :=
  s.onDisp fun d => { d with lib := Tbl.set {} d.lib r x }
/-- A ring port. -/
def State.port (s : State) (p : Nat) : Port := Tbl.get {} s.ring p
def State.setPort (s : State) (p : Nat) (x : Port) : State := { s with ring := Tbl.set {} s.ring p x }
def State.onPort (s : State) (p : Nat) (f : Port → Port) : State := s.setPort p (f (s.port p))
/-- A channel of the memory port. -/
def State.chan (s : State) (c : Nat) : MemChan := Tbl.get {} s.mport.chans c
def State.setChan (s : State) (c : Nat) (x : MemChan) : State :=
  { s with mport := { s.mport with chans := Tbl.set {} s.mport.chans c x } }
/-- A tenancy's meter account. -/
def State.acct (s : State) (t : Nat) : Account := Tbl.get {} s.meter.acct t
def State.onAcct (s : State) (t : Nat) (f : Account → Account) : State :=
  { s with meter := { s.meter with acct := Tbl.upd {} s.meter.acct t f } }

/-! ### Power domains of units (Table 16.1) -/

def domSS0 : Nat := 16
def domSS1 : Nat := 17
def domDSP : Nat := 18
def domKVC : Nat := 19
def domMPT : Nat := 20
def domRNA : Nat := 21
def domRNB : Nat := 22
def domAON : Nat := 23

/-- RUN and REST together are called ON (R375). -/
def DomState.on (d : DomState) : Bool := d == .run || d == .rest
/-- Whether a domain is ON. -/
def State.domOn (s : State) (d : Nat) : Bool := (s.dom d).state.on
/-- The array group of an array (R14). -/
def groupOf (a : Nat) : Nat := a / 64
/-- Whether an array's group is ON. -/
def State.arrOn (s : State) (a : Nat) : Bool := s.domOn (groupOf a)
/-- The domain of a shared-store half (R15). -/
def halfDom (addr : Nat) : Nat := if addr < 0x08000000 then domSS0 else domSS1

/-! ### Hosts and tenancies -/

/-- The host agent that an FID maps to (R404). -/
def State.agentOf (s : State) (fid : Nat) : Option Nat :=
  if s.reg Reg.BLK_HOST_FID 0 0 = fid then some 0
  else (List.range 16).find? (fun n => n != 0 && s.reg Reg.BLK_HOST_FID 0 n == fid && s.flag Reg.BLK_VALID 0 n)

/-- Whether a host agent's entry is valid; entry 0 always is (Table 17.9). -/
def State.mapped (s : State) (n : Nat) : Bool := n == 0 || s.flag Reg.BLK_VALID 0 n

/-- The tenancy a host agent is bound to, through HOST_MASK alone (R338). -/
def State.tenOfAgent (s : State) (n : Nat) : Option Nat :=
  (List.range 16).find? (fun t => bitOf (s.reg Reg.TEN_HOST_MASK t) n)

/-- A tenancy exists when its EN is set. -/
def State.tenEn (s : State) (t : Nat) : Bool := s.flag Reg.TEN_EN t

/-- The 64 unit bits of a tenancy (Table 14.5). -/
def State.units (s : State) (t : Nat) : Nat := s.reg Reg.TEN_ARR_UNITS_LO t + 2 ^ 32 * s.reg Reg.TEN_ARR_UNITS_HI t

/-- Whether an array lies in a tenancy's units. -/
def State.holdsArr (s : State) (t a : Nat) : Bool := bitOf (s.units t) (a / 16)

/-- The enabled tenancy whose units hold an array. -/
def State.tenOfArr (s : State) (a : Nat) : Option Nat :=
  (List.range 16).find? (fun t => s.tenEn t && s.holdsArr t a)

/-- The fuse record of an array (Table 4.6). -/
def State.fuseRec (s : State) (a : Nat) : Nat := Tbl.get 0 s.fuses.records a

/-- Number of ones in the low `n` bits. -/
def popCount (n v : Nat) : Nat := ((List.range n).filter (bitOf v)).length

/-- A fuse record fails parity, or is treated so: BYPASS set and VALID clear (R102). -/
def fuseBad (r : Nat) : Bool := popCount 8 r % 2 == 1 || (bitOf r 5 && !bitOf r 0)
/-- The cell column a good fuse record bypasses. -/
def fuseCol (r : Nat) : Option Nat := if bitOf r 5 && !fuseBad r then some (bitsOf r 4 1) else none

/-- The bypassed cell column of an array, by fuse or by an applied soft bypass (R98, R103). -/
def State.bypCol (s : State) (a : Nat) : Option Nat :=
  match fuseCol (s.fuseRec a) with
  | some c => some c
  | none => (s.cond a).applied
/-- The array presents 30 columns. -/
def State.narrow (s : State) (a : Nat) : Bool := (s.bypCol a).isSome
/-- The array is dead (R102). -/
def State.isDead (s : State) (a : Nat) : Bool :=
  let r := s.fuseRec a
  bitOf r 6 || fuseBad r ||
    (match fuseCol r, (s.cond a).applied with
     | some c, some d => c != d
     | _, _ => false)

/-- An array can be used: not dead, not quarantined, not awaiting rejoin, and under no ARRAY reset (R341, R391). -/
def State.fit (s : State) (a : Nat) : Bool :=
  !s.isDead a && !(s.cond a).quarantined && !(s.cond a).rejoin && s.resets.arr != some a

/-- A unit of arrays is open to a tenancy that names it: one that is not enabled, which nothing has checked, has no part in what an
enabled one holds (R340, R343). -/
def State.unitOpen (s : State) (t u : Nat) : Bool :=
  s.tenEn t || !(List.range 16).any (fun v => s.tenEn v && bitOf (s.units v) u)

/-- The usable arrays of a tenancy in ascending number (R341). -/
def State.usable (s : State) (t : Nat) : List Nat :=
  ((List.range 64).filter (fun u => bitOf (s.units t) u && s.unitOpen t u)).flatMap
    (fun u => ((List.range 16).map (fun i => 16 * u + i)).filter s.fit)

/-- The position of an array in a list. -/
def indexOf (l : List Nat) (a : Nat) : Nat :=
  match l with
  | [] => 0
  | b :: r => if b = a then 0 else indexOf r a + 1

/-! ### Windows and ranges (R342) -/

/-- Window w of a tenancy holds an address. -/
def State.inWindowNo (s : State) (t w a : Nat) : Bool :=
  let base := s.reg Reg.TEN_WBASE_LO t w * 2 ^ 12 + s.reg Reg.TEN_WBASE_HI t w * 2 ^ 32
  let lim := s.reg Reg.TEN_WLIM_LO t w * 2 ^ 12 + s.reg Reg.TEN_WLIM_HI t w * 2 ^ 32
  s.flag Reg.TEN_WEN t w && decide (base ≤ a) && decide (a < lim)
/-- An address lies within the tenancy's memory. -/
def State.inWindow (s : State) (t a : Nat) : Bool := (List.range 8).any (fun w => s.inWindowNo t w a)
/-- Every byte of a range lies within the tenancy's memory: its ends lie there, and so does each page between. -/
def State.spanInWindow (s : State) (t a n : Nat) : Bool :=
  n == 0 || (s.inWindow t a && s.inWindow t (a + n - 1) &&
    (List.range ((a + n - 1) / 4096 - a / 4096)).all (fun i => s.inWindow t ((a / 4096 + 1 + i) * 4096)))
/-- An object of a tenancy's range is open to it: the range of a tenancy that is not enabled, which nothing has checked, gives
no part in what an enabled one holds (R340, R343). -/
def State.openTo (s : State) (t : Nat) (first size : FieldSpec) (n : Nat) : Bool :=
  s.tenEn t || !(List.range 16).any (fun u => s.tenEn u && decide (s.reg first u ≤ n) && decide (n < s.reg first u + s.reg size u))
/-- A shared-store address lies within the tenancy's range and in a half that is ON (R342, R377). -/
def State.inShared (s : State) (t a : Nat) : Bool :=
  decide (s.reg Reg.TEN_SS_BASE t * 65536 ≤ a) &&
  decide (a < (s.reg Reg.TEN_SS_BASE t + s.reg Reg.TEN_SS_SIZE t) * 65536) && s.domOn (halfDom a) &&
  s.openTo t Reg.TEN_SS_BASE Reg.TEN_SS_SIZE (a / 65536)
/-- Every byte of a range lies in the tenancy's shared-store range. -/
def State.spanInShared (s : State) (t a n : Nat) : Bool :=
  n == 0 || (s.inShared t a && s.inShared t (a + n - 1))
/-- A relative letterbox number is in the tenancy's range. -/
def State.lbxIn (s : State) (t n : Nat) : Bool :=
  decide (n < s.reg Reg.TEN_LB_SIZE t) && s.openTo t Reg.TEN_LB_FIRST Reg.TEN_LB_SIZE (s.reg Reg.TEN_LB_FIRST t + n)
/-- The absolute number of a relative letterbox. -/
def State.lbxAbs (s : State) (t n : Nat) : Nat := s.reg Reg.TEN_LB_FIRST t + n
/-- A relative mailbag number is in the tenancy's range. -/
def State.mbxIn (s : State) (t n : Nat) : Bool :=
  decide (n < s.reg Reg.TEN_MB_SIZE t) && s.openTo t Reg.TEN_MB_FIRST Reg.TEN_MB_SIZE (s.reg Reg.TEN_MB_FIRST t + n)
/-- The absolute number of a relative mailbag. -/
def State.mbxAbs (s : State) (t n : Nat) : Nat := s.reg Reg.TEN_MB_FIRST t + n
/-- An absolute number lies in a tenancy's range of letterboxes or mailbags. -/
def State.inRange (s : State) (t : Nat) (first size : FieldSpec) (n : Nat) : Bool :=
  decide (s.reg first t ≤ n) && decide (n < s.reg first t + s.reg size t) && s.openTo t first size n
/-- An absolute mailbag is the tenancy's. -/
def State.bagOf (s : State) (t m : Nat) : Bool := s.inRange t Reg.TEN_MB_FIRST Reg.TEN_MB_SIZE m
/-- The tenancy whose range holds an absolute mailbag. -/
def State.tenOfBag (s : State) (m : Nat) : Option Nat := (List.range 16).find? (fun t => s.bagOf t m)

/-! ### Events (R409 to R422) -/

/-- Page numbers (Table 17.7). -/
def pgBLK : Nat := 0x00
def pgPWR : Nat := 0x01
def pgMON : Nat := 0x02
def pgRST : Nat := 0x03
def pgTEN (t : Nat) : Nat := 0x04 + t
def pgDSP : Nat := 0x14
def pgSUBQ : Nat := 0x15
def pgLIB : Nat := 0x16
def pgFTAB : Nat := 0x17
def pgLBX (t : Nat) : Nat := 0x18 + t
def pgCACHE : Nat := 0x28
def pgWALK : Nat := 0x29
def pgMPORT : Nat := 0x2A
def pgRING (p : Nat) : Nat := 0x2B + p
def pgMETER : Nat := 0x2F
def pgFAULT : Nat := 0x30
def pgDLOG : Nat := 0x31
def pgSTAMP : Nat := 0x32
def pgPROG (g : Nat) : Nat := 0x40 + 4 * g
def pgTIME (g : Nat) : Nat := 0x41 + 4 * g
def pgCOND (g : Nat) : Nat := 0x42 + 4 * g

/-- The block context (R420). -/
def ctxBlock : Nat := 16

/-- An event context. -/
def State.ctx (s : State) (page c : Nat) : EvtCtx := Tbl.get {} s.ctl.ctx (page * 17 + c)
def State.setCtx (s : State) (page c : Nat) (x : EvtCtx) : State :=
  { s with ctl := { s.ctl with ctx := Tbl.set {} s.ctl.ctx (page * 17 + c) x } }
/-- PG_EVT_OUT. -/
def EvtCtx.out (x : EvtCtx) : Word := x.raw &&& x.en
/-- The partition of a host agent in the event queue. -/
def State.agentQ (s : State) (n : Nat) : AgentQ := Tbl.get {} s.ctl.evq n
def State.setAgentQ (s : State) (n : Nat) (q : AgentQ) : State :=
  { s with ctl := { s.ctl with evq := Tbl.set {} s.ctl.evq n q } }

/-- Messages one partition holds (R411). -/
def agentQDepth : Nat := 16

/-- The agents a PAGE message of a context goes to (R422). -/
def State.routeTargets (s : State) (c : Nat) (x : EvtCtx) : List Nat :=
  let agent := x.route.toNat % 16
  if c = ctxBlock then [agent]
  else if bitOf x.route.toNat 4 then (List.range 16).filter (fun n => s.tenOfAgent n == some c)
  else [agent]

/-- Whether a PAGE message of context c may go to agent n (R422). -/
def State.mayRoute (s : State) (c n : Nat) : Bool :=
  n == 0 || (c != ctxBlock && s.tenOfAgent n == some c && s.mapped n)

/-- The payload of a PAGE message (Table 17.3). -/
def pageMsg (page c : Nat) (out new : Word) (time : Nat) : EvtMsg :=
  { kind := 0, fid := 0
    payload := [BitVec.ofNat 32 (page + (if c = ctxBlock then 2 ^ 12 else c * 2 ^ 8)), out, new, BitVec.ofNat 32 time] }

/-- The time a message or record carries: the count, or 0 while the time base is not valid (R348). -/
def State.now (s : State) : Nat := if s.tb.valid then s.tb.count else 0

/-- The jobs that raising an event makes: set bits of a context, or send one message to an agent. -/
inductive EvtJob where
  | set (page c : Nat) (bits : Word)
  | send (n : Nat) (m : EvtMsg)
  | drop

/-- The messages of a context whose OUT bits `new` have risen. Whether the agent of a tenancy's context may have its message
counts when it is sent; the block context's goes to the postmaster or nowhere (R421, R422). -/
def State.evtJobs (s : State) (page c : Nat) (x : EvtCtx) (new : Word) : List EvtJob :=
  (s.routeTargets c x).map (fun n =>
    if c = ctxBlock ∧ n ≠ 0 then EvtJob.drop else EvtJob.send n (pageMsg page c x.out new s.now))

/-- Sets raw bits in a context and gives the messages that follow (R420, R421). -/
def State.setEvtBits (s : State) (page c : Nat) (bits : Word) : State × List EvtJob :=
  let x := s.ctx page c
  let x' := { x with raw := x.raw ||| bits }
  let s' := s.setCtx page c x'
  let new := x'.out &&& ~~~ x.out
  if new = 0 then (s', []) else (s', s.evtJobs page c x' new)

/-- Carries out event jobs. A message that finds its partition full is counted and raises EVT_LOST (R411); one that
may not be sent adds to ROUTE_DROP (R410, R422). `fuel` bounds the chain; each event bit sets at most once. -/
def State.runEvts (fuel : Nat) (jobs : List EvtJob) (s : State) : State :=
  match fuel, jobs with
  | 0, _ => s
  | _, [] => s
  | k + 1, .set page c bits :: r =>
    let x := s.setEvtBits page c bits
    x.1.runEvts k (x.2 ++ r)
  | k + 1, .send n m :: r =>
    let q := s.agentQ n
    if q.msgs.length < agentQDepth then (s.setAgentQ n { q with msgs := q.msgs ++ [m] }).runEvts k r
    else ((s.setAgentQ n { q with lost := min (q.lost + 1) 0xFFFF }).bump Reg.BLK_EVT_LOST_CNT).runEvts k
      (.set pgBLK ctxBlock 2#32 :: r)
  | k + 1, .drop :: r => (s.bump Reg.BLK_ROUTE_DROP_CNT).runEvts k (.set pgBLK ctxBlock 8#32 :: r)

/-- Enough for every chain: at most 17 messages and their consequences. -/
def evtFuel : Nat := 128

/-- Raises event bits of a page together, attributable to tenancy `t` if one is given (R420, R421). -/
def State.raiseBits (s : State) (page : Nat) (bits : Word) (t : Option Nat) : State :=
  (match t with | some n => s.runEvts evtFuel [.set page n bits] | none => s).runEvts evtFuel [.set page ctxBlock bits]
/-- Raises one event bit of a page. -/
def State.raise (s : State) (page : Nat) (bit : Nat) (t : Option Nat) : State := s.raiseBits page (BitVec.ofNat 32 (2 ^ bit)) t

/-- Sends a message to a host agent (R411). -/
def State.sendMsg (s : State) (n : Nat) (m : EvtMsg) : State := s.runEvts evtFuel [.send n m]
/-- Counts a message that is not sent (R410). -/
def State.dropMsg (s : State) : State := s.runEvts evtFuel [.drop]

/-! ### Violation records of a tenancy (R342) -/

/-- Records an access outside the windows (kinds 0, 1) or the shared-store range (2, 3). -/
def State.violate (s : State) (t addr kind : Nat) : State :=
  let s := if kind < 2 then s.bump Reg.TEN_WV_CNT t else s.bump Reg.TEN_SV_CNT t
  let s := if s.flag Reg.TEN_VIOL_VALID t then s
    else (((s.setReg Reg.TEN_VIOL_ADDR_LO t addr).setReg Reg.TEN_VIOL_ADDR_HI t (addr / 2 ^ 32)).setReg
      Reg.TEN_VIOL_KIND t kind).setReg Reg.TEN_VIOL_VALID t 1
  s.raise (pgTEN t) (if kind < 2 then 0 else 1) (some t)

/-! ### The meter's counts (R345) -/

/-- Adds to what a tenancy accrued in a domain since the last apportioning (R346). -/
def State.accrue (s : State) (d t n : Nat) : State :=
  { s with meter := { s.meter with accrued := Tbl.upd 0 s.meter.accrued (d * 16 + t) (· + n) } }
/-- Adds to the completed beats of a group, or to the bytes through another domain (R385). -/
def State.worked (s : State) (d n : Nat) : State := { s with meter := { s.meter with work := Tbl.upd 0 s.meter.work d (· + n) } }
/-- An array accrued something since the last apportioning (R346). -/
def State.wasBusy (s : State) (a : Nat) : State :=
  { s with meter := { s.meter with busy := if s.meter.busy.contains a then s.meter.busy else a :: s.meter.busy } }
/-- Memory bytes carrying a tenancy's TEN (R345). -/
def State.chargeMem (s : State) (t n : Nat) : State :=
  ((s.onAcct t fun a => { a with memBytes := (a.memBytes + n) % 2 ^ 64 }).accrue domMPT t n).worked domMPT n
/-- Ring payload bytes of a tenancy. -/
def State.chargeRing (s : State) (p t n : Nat) : State :=
  let d := if p < 2 then domRNA else domRNB
  ((s.onAcct t fun a => { a with ringBytes := (a.ringBytes + n) % 2 ^ 64 }).accrue d t n).worked d n
/-- Completed beats of a tenancy's task on an array. -/
def State.chargeBeats (s : State) (a t n : Nat) : State :=
  (((s.onAcct t fun x => { x with beats := (x.beats + n) % 2 ^ 64 }).accrue (groupOf a) t n).worked (groupOf a) n).wasBusy a
/-- Frozen pace periods and hold beats of a tenancy's task. -/
def State.chargeFrozen (s : State) (a t n : Nat) : State :=
  ((s.onAcct t fun x => { x with frozen := (x.frozen + n) % 2 ^ 64 }).accrue (groupOf a) t n).wasBusy a
/-- A command taken from the head of a tenancy's queue. -/
def State.chargeCommand (s : State) (t : Nat) : State :=
  ((s.onAcct t fun x => { x with commands := (x.commands + 1) % 2 ^ 64 }).accrue domKVC t 1).accrue domDSP t 1
/-- Bytes of a tenancy through a shared-store half. -/
def State.chargeShared (s : State) (addr t n : Nat) : State := (s.accrue (halfDom addr) t n).worked (halfDom addr) n

/-! ### Dispatcher and cache-unit access to memory -/

/-- Bytes the dispatcher or cache unit reads from memory for a tenancy. -/
def State.readMem (s : State) (a n : Nat) : List Byte := s.mem.bytes a n
/-- A little-endian number in memory. -/
def State.memLe (s : State) (a n : Nat) : Nat := s.mem.le a n
/-- The channel that serves an address (R321). -/
def chanOfAddr (a : Nat) : Nat := Nat.xor (a / 256 % 16) (a / 4096 % 16)
/-- Adds to a 64-bit counter kept as a LO and a HI field. -/
def State.bump64 (s : State) (lo hi : FieldSpec) (i n : Nat) : State :=
  let v := s.reg lo i + 2 ^ 32 * s.reg hi i + n
  (s.setReg lo i v).setReg hi i (v / 2 ^ 32)
/-- The 64-byte lines of a range, by address. -/
def linesOf (a n : Nat) : List Nat := if n = 0 then [] else (List.range ((a + n - 1) / 64 + 1 - a / 64)).map (fun i => (a / 64 + i) * 64)
/-- A request that is answered within its row spends a credit of its channel; one beyond those that the channel holds spends a credit
that the controller has returned during the row, which is the model's choice (R323; log 8). -/
def State.spend (s : State) (c : Nat) : State := s.setChan c { s.chan c with credits := (s.chan c).credits - 1 }
/-- Counts a range read by the dispatcher or cache unit on its channels, and charges it to a tenancy (R323, R345). -/
def State.chargeRead (s : State) (t a n : Nat) : State :=
  (linesOf a n).foldl (fun (s : State) l =>
    ((s.spend (chanOfAddr l)).bump64 Reg.MPORT_RD_BYTES_LO Reg.MPORT_RD_BYTES_HI (chanOfAddr l) 64).chargeMem t 64) s
/-- The same for a range written. -/
def State.chargeWrite (s : State) (t a n : Nat) : State :=
  (linesOf a n).foldl (fun (s : State) l =>
    ((s.spend (chanOfAddr l)).bump64 Reg.MPORT_WR_BYTES_LO Reg.MPORT_WR_BYTES_HI (chanOfAddr l) 64).chargeMem t 64) s
/-- Event bits of the MPORT page. -/
def evMemErr : Nat := 0
def evMemViol : Nat := 1
def evMemTimeout : Nat := 2
def evOvfFull : Nat := 3

/-- A response with STATUS other than OK is recorded (R335); `held` says that it answers a released atomic add. -/
def State.portErr (s : State) (addr kind t status : Nat) (held : Bool) : State :=
  let s := s.bump Reg.MPORT_CH_ERR_CNT (chanOfAddr addr)
  let s := if s.flag Reg.MPORT_ERR_VALID then s
    else ((((((s.setReg Reg.MPORT_ERR_ADDR_LO 0 addr).setReg Reg.MPORT_ERR_ADDR_HI 0 (addr / 2 ^ 32)).setReg
      Reg.MPORT_ERR_STATUS 0 status).setReg Reg.MPORT_ERR_KIND 0 kind).setReg Reg.MPORT_ERR_SEALED 0
      (natOfBool held)).setReg Reg.MPORT_ERR_TEN 0 t).setReg Reg.MPORT_ERR_VALID 0 1
  s.raise pgMPORT evMemErr (some t)

/-- The STATUS that an error counts as: OTHER where no response came in time (R334). -/
def errCode (e : PortError) : Nat := if e.late then 3 else e.status.toNat

/-- An error to a unit's transaction at an address is recorded; a late one raises TIMEOUT (R334, R335). -/
def State.unitError (s : State) (t addr kind : Nat) (e : PortError) : State :=
  (if e.late then s.raise pgMPORT evMemTimeout (some t) else s).portErr addr kind t (errCode e) false

/-- What the error of an answer names among some addresses, in order. -/
def answered (ans : PortAnswer) (l : List Nat) : Option (Nat × PortError) :=
  match ans with
  | .ok => none
  | .error e => (l[e.k]?).map (fun a => (a, e))

/-- An answer as the transactions after the first `n` of its row see it. -/
def answerPast (n : Nat) (ans : PortAnswer) : PortAnswer :=
  match ans with
  | .ok => .ok
  | .error e => if n ≤ e.k then .error { e with k := e.k - n } else .ok

/-- A unit reads a range: its lines are counted and charged, and an error among them is recorded. The second component says that
every line was answered OK. -/
def State.unitRead (s : State) (t a n : Nat) (ans : PortAnswer) : State × Bool :=
  let s := s.chargeRead t a n
  match answered ans (linesOf a n) with
  | none => (s, true)
  | some (l, e) => (s.unitError t l 0 e, false)

/-- A write that its channel has carried out notes a later write of some of its bytes (R335). -/
def Txn.overwritten (t : Txn) (a n : Nat) : Txn :=
  if t.done && t.kind != 0 && decide (a < t.addr + t.size) && decide (t.addr < a + n) then { t with since := t.since ++ [(a, n)] } else t
/-- The writes that the channels have carried out, and that have no response yet, note a write of a range. -/
def State.noteWritten (s : State) (a n : Nat) : State :=
  { s with mport := { s.mport with chans := s.mport.chans.map (fun e =>
      (e.1, { e.2 with out := e.2.out.map (fun o => (o.1, o.2.overwritten a n)) })) } }
/-- Writes bytes to memory for a tenancy, charged to it. -/
def State.writeMem (s : State) (t a : Nat) (bs : List Byte) : State :=
  ({ s with mem := s.mem.putBytes a bs }.noteWritten a bs.length).chargeWrite t a bs.length
/-- Writes `n` bytes of zeros to memory for a tenancy, charged to it. -/
def State.clearMem (s : State) (t a n : Nat) : State :=
  ({ s with mem := s.mem.zeroRange a (a + n) }.noteWritten a n).chargeWrite t a n
/-- Bytes cut at the 64-byte lines of the addresses they go to. -/
def cutLines (a : Nat) (bs : List Byte) : List (Nat × List Byte) :=
  (linesOf a bs.length).map (fun l => (max l a, (bs.drop (l - a)).take (l + 64 - max l a)))

/-! ### Letterboxes (R280) -/

/-- The tenancy of the task running on an array, else the tenancy that holds the array. -/
def State.tenRunning (s : State) (a : Nat) : Nat :=
  match (s.arr a).task with
  | some r => match s.task r with
    | some t => t.ten
    | none => (s.tenOfArr a).getD 0
  | none => (s.tenOfArr a).getD 0

/-- The waits of arrays that a letterbox's value now satisfies; each stays satisfied, even if a later set lowers the value. -/
def State.lbLatch (s : State) (n : Nat) : State :=
  let met := fun (a : Nat) (x : Stalled) => match x with
    | .lbWait o target => s.lbxAbs (s.tenRunning a) o == n && decide (target ≤ (s.lb n).toNat)
    | _ => false
  { s with arrs := s.arrs.map (fun e =>
      if (e.2.stalled ++ e.2.frozenOn).any (met e.1) then (e.1, { e.2 with seq := { e.2.seq with lbMet := true } }) else e) }

/-- Sets a letterbox. -/
def State.putLb (s : State) (n : Nat) (v : Word) : State := (s.setLb n v).lbLatch n

/-- Posts to a letterbox, saturating; a saturating post is recorded and raises LB_SAT. -/
def State.postLb (s : State) (t n v : Nat) : State :=
  let abs := s.lbxAbs t n
  let sum := (s.lb abs).toNat + v
  if sum < 2 ^ 32 then s.putLb abs (BitVec.ofNat 32 sum)
  else ((((s.putLb abs 0xFFFFFFFF#32).setReg Reg.LBX_LB_SAT_REL t n).setReg Reg.LBX_LB_SAT_VALID t 1).raise
    (pgLBX t) 0 (some t))

/-! ### Dead letters (R369) -/

/-- The partition of a tenancy in the dead-letter log. -/
def State.deadPart (s : State) (t : Nat) : DeadPart := Tbl.get {} s.letters t
def State.setDeadPart (s : State) (t : Nat) (p : DeadPart) : State := { s with letters := Tbl.set {} s.letters t p }

/-- Entries of one partition of the dead-letter log. -/
def deadPartDepth : Nat := 64

/-- Moves an array's buffered entries, in order, into their partitions while those have room. -/
def State.moveDead (a : Nat) (l : List DeadLetter) (s : State) : State :=
  match l with
  | [] => s.onArr a fun A => { A with dead := [] }
  | e :: r =>
    let p := s.deadPart e.ten
    if p.recs.length < deadPartDepth then
      let s' := s.setDeadPart e.ten { p with recs := p.recs ++ [e] }
      (if p.recs.isEmpty then s'.raise pgDLOG 0 (some e.ten) else s').moveDead a r
    else s.onArr a fun A => { A with dead := e :: r }

/-! ### The fault log (R368) -/

def State.faultPart (s : State) (t : Nat) : FaultPart := Tbl.get {} s.faults t
def State.setFaultPart (s : State) (t : Nat) (p : FaultPart) : State := { s with faults := Tbl.set {} s.faults t p }

/-- Records of one partition of the fault log. -/
def faultPartDepth : Nat := 16

/-- Writes a fault record; a full partition keeps its oldest records. -/
def State.logFault (s : State) (r : FaultRec) : State :=
  let p := s.faultPart r.ten
  if p.recs.length < faultPartDepth then s.setFaultPart r.ten { p with recs := p.recs ++ [r] }
  else (s.setFaultPart r.ten { p with lost := min (p.lost + 1) 0xFFFF }).raise pgFAULT 3 (some r.ten)

/-! ### Command words -/

/-- Bits [off×8 + msb : off×8 + lsb] of a command (Tables 11.1, 11.3). -/
def cmdBits (c : BitVec 512) (off msb lsb : Nat) : Nat := bitsOf c.toNat (8 * off + msb) (8 * off + lsb)
def cmdKind (c : BitVec 512) : Nat := cmdBits c 0 7 0
def cmdBarrier (c : BitVec 512) : Bool := bitOf c.toNat 8
def cmdStamp (c : BitVec 512) : Bool := bitOf c.toNat 9
def cmdEvent (c : BitVec 512) : Bool := bitOf c.toNat 10
def cmdCollective (c : BitVec 512) : Bool := bitOf c.toNat 11
def cmdLbx (c : BitVec 512) : Nat := cmdBits c 4 12 0
def cmdAdd (c : BitVec 512) : Nat := cmdBits c 4 23 16
def cmdSeqno (c : BitVec 512) : Nat := cmdBits c 8 47 0
def cmdSubmitter (c : BitVec 512) : Nat := cmdBits c 8 63 48
def cmdCplAddr (c : BitVec 512) : Nat := cmdBits c 0x10 47 0

/-- The tenancy of a queue (R269). -/
def tenOfQueue (q : Nat) : Nat := q / 4

/-- One period of the 1 GHz time base passes; the count moves only while the time base is valid (R348; log 5). -/
def State.tick (s : State) : State :=
  if s.tb.valid then { s with tb := { s.tb with count := (s.tb.count + 1) % 2 ^ 64 } } else s

/-- Removes the first element that satisfies `p`. -/
def removeFirst {α : Type} (p : α → Bool) (l : List α) : List α :=
  match l with
  | [] => []
  | x :: r => if p x then r else x :: removeFirst p r

end Sys2Proof.Machine
end

