-- ==== Sys2Proof/Machine/Channel.lean ====
section
/-! DEFINITION. The channels of the memory port: tags, credits, arbitration, and the writes that a unit has made
(spec/13_memory_port.md R321 to R324, R333). -/
namespace Sys2Proof.Machine

/-- The array that owns a transaction; the units are requester 1024 (R333). -/
def TxnOwner.requester (o : TxnOwner) : Nat :=
  match o with
  | .task a _ _ => a
  | .release _ => 1024
  | .unit => 1024
  | .row who => who

/-- A transaction of an engine of an array. -/
def TxnOwner.ofEngine (o : TxnOwner) (a e : Nat) : Bool :=
  match o with
  | .task b _ k => b == a && k == e
  | _ => false

/-- A transaction of a task on an array. -/
def TxnOwner.ofArray (o : TxnOwner) (a : Nat) : Bool :=
  match o with
  | .task b _ _ => b == a
  | _ => false

/-- Free tags of a channel: the lowest tag not outstanding, if any (R323). -/
def MemChan.freeTag (c : MemChan) : Option Nat :=
  if Config.channelTags ≤ c.out.length then none
  else (List.range (c.out.length + 1)).find? (fun t => !c.out.any (fun o => o.1 == t))

/-- The waiting transactions that may go: of each requester's engine the first, in program order, but for an offload MOVE's write
that its reads have not brought all its bytes yet (R324, R329, R332). -/
def MemChan.heads (c : MemChan) : List Txn :=
  (c.wait.foldl (fun (l : List Txn) t => if l.any (fun u => decide (u.owner = t.owner)) then l else l ++ [t]) []).filter
    (fun t => t.need == 0)

/-- The waiting transaction a channel serves next: CLASS 2 while it has had less than its share of the flits, else the lowest
class; within a class the next requester after the last of that class served (R333). -/
def MemChan.pick (c : MemChan) (share : Nat) : Option Txn :=
  let w := c.heads
  let has := fun k => w.any (fun t => t.cls == k)
  let cls := if share ≠ 0 && has 2 && decide (16 * c.wheel2 ≤ share * c.wheel) then 2 else if has 0 then 0 else if has 1 then 1 else 2
  let dist := fun (t : Txn) => (t.owner.requester + 1025 - c.rr.getD cls 0) % 1025
  (w.filter (fun t => t.cls == cls)).foldl (fun (b : Option Txn) t => match b with
    | none => some t
    | some u => if dist t < dist u then some t else some u) none

/-- A channel sends a transaction under a tag; the request of a row that is still to be carried out has a credit kept for it. -/
def MemChan.send (c : MemChan) (tag : Nat) (t : Txn) : MemChan :=
  let wait := removeFirst (fun u => decide (u = t)) c.wait
  let n := t.size / 64
  let counts := wait.any (fun u => u.cls == 2)
  let x := match t.owner with
    | .row who => { c with got := c.got ++ [who] }
    | _ => { c with out := c.out ++ [(tag, t)] }
  { x with
    wait := wait, credits := c.credits - 1, rr := c.rr.set t.cls ((t.owner.requester + 1) % 1025)
    wheel := if counts then c.wheel + n else 0, wheel2 := if counts then c.wheel2 + (if t.cls = 2 then n else 0) else 0 }

/-- The bytes that a transaction carries when it is sent; those of a row are counted when it is carried out. -/
def Txn.sent (t : Txn) : Nat :=
  match t.owner with
  | .row _ => 0
  | _ => t.size

/-- Issues waiting transactions of a channel while it has credits and tags (R323). -/
def State.pumpChan (fuel : Nat) (c : Nat) (s : State) : State :=
  match fuel with
  | 0 => s
  | n + 1 =>
    let x := s.chan c
    if x.credits = 0 then s
    else match x.freeTag, x.pick (s.reg Reg.MPORT_OFFLOAD_SHARE) with
      | some tag, some t => (((s.setChan c (x.send tag t)).chargeMem t.ten t.sent).pumpChan n c)
      | _, _ => s

/-- More than the transactions a channel can issue at once. -/
def pumpFuel : Nat := 4097

/-- Hands a transaction to its channel. -/
def State.submitTxn (s : State) (t : Txn) : State :=
  let c := chanOfAddr t.addr
  let x := s.chan c
  (s.setChan c { x with wait := x.wait ++ [t] }).pumpChan pumpFuel c

/-- The dispatcher or the cache unit writes bytes for a tenancy, as CLASS 1 writes of the lines they lie in: they reach memory at once,
and a response to each line is still to come (R333 to R335; log 8). -/
def State.postWrite (s : State) (t a : Nat) (bs : List Byte) : State :=
  (linesOf a bs.length).foldl (fun (s : State) l =>
    s.submitTxn { kind := 1, addr := l, size := 64, ten := t, cls := 1, owner := .unit, data := s.mem.bytes l 64, done := true })
    ({ s with mem := s.mem.putBytes a bs }.noteWritten a bs.length)

/-- The same of the cache unit's structures: a line outside the tenancy's windows is not reached (R199; log 8). -/
def State.unitWrite (s : State) (t a : Nat) (bs : List Byte) : State :=
  (cutLines a bs).foldl (fun (s : State) p => if s.inWindow t p.1 then s.postWrite t p.1 p.2 else s) s

/-! ### Rows whose transactions are answered within them (R323, R333; log 8) -/

/-- A channel can send no request now: it has no credit or no tag. -/
def MemChan.full (x : MemChan) : Bool := x.credits == 0 || x.freeTag.isNone
/-- A requester's row waits at a channel for its turn, or has a credit kept. -/
def MemChan.asked (x : MemChan) (who : Nat) : Bool := x.got.contains who || x.wait.any (fun t => decide (t.owner = .row who))
/-- The request of a requester's row joins those that wait, in its class. -/
def MemChan.ask (x : MemChan) (who cls : Nat) : MemChan :=
  if x.asked who then x
  else { x with wait := x.wait ++ [{ kind := cls, addr := 0, size := 64, ten := 0, cls := cls, owner := .row who }] }
/-- Withdraws the request of a requester's row, with the credits kept for it. -/
def MemChan.unask (x : MemChan) (who : Nat) : MemChan :=
  { x with
    wait := x.wait.filter (fun t => decide (t.owner ≠ .row who)), got := x.got.filter (fun w => w != who)
    credits := x.credits + (x.got.filter (fun w => w == who)).length }

/-- The same at every channel. -/
def State.unask (s : State) (who : Nat) : State :=
  if s.mport.chans.any (fun e => e.2.asked who) then
    { s with mport := { s.mport with chans := (s.mport.chans.map (fun e => (e.1, e.2.unask who))).filter (fun e => decide (e.2 ≠ {})) } }
  else s

/-- The bytes that a channel has counted. -/
def State.carried (s : State) (c : Nat) : List Nat :=
  [Reg.MPORT_RD_BYTES_LO, Reg.MPORT_RD_BYTES_HI, Reg.MPORT_WR_BYTES_LO, Reg.MPORT_WR_BYTES_HI].map (fun f => s.reg f c)

/-- A row of an array, or of the units (1024), whose transactions are answered within it. While a channel that they use can send no
request nothing of the row takes place, and its request waits there for its turn (R323, R333; log 8). -/
def State.portRow (s : State) (who cls : Nat) (f : State → State) : State :=
  let t := s.unask who
  let u := f t
  let short := (List.range 16).filter (fun c => decide (t.carried c ≠ u.carried c) && (t.chan c).full)
  if short.isEmpty then u else short.foldl (fun (s : State) c => s.setChan c ((s.chan c).ask who cls)) s

/-- What stands for the units among the requesters (R333). -/
def unitWho : Nat := 1024

end Sys2Proof.Machine
end

