-- ==== Sys2Proof/Machine/Tasks.lean ====
section
/-! DEFINITION. Routines, eligible arrays, failed checks and the start of abandonment (spec/15_faults_and_replay.md R357 to
R365, R368; spec/11_queues_and_sync.md R279; spec/10_instructions.md R259, R264). -/
namespace Sys2Proof.Machine

/-! ### Routines (Table 10.16) -/

/-- The kind of a vendor routine: 0 reserved, 1 entry, 2 helper, 3 internal. -/
def vendorKind (r : Nat) : Nat :=
  if r ≤ 9 then 1 else if 16 ≤ r ∧ r ≤ 18 then 3 else if 64 ≤ r ∧ r ≤ 69 then 2 else 0

/-- The halfword address of a vendor routine: the ROM lies below 0x10_0000 (Table 10.17). -/
def romBase (r : Nat) : Nat := Config.romBase r % 2 ^ 20

/-- A vendor routine supports narrowed arrays. -/
def vendorNarrow (r : Nat) : Bool := vendorKind r != 0 && r != 2 && r != 18

/-- The kind of a routine. -/
def State.routineKind (s : State) (r : Nat) : Nat := if r < 256 then vendorKind r else (s.routine r).kind
/-- A routine declares support for narrowed arrays. -/
def State.narrowOk (s : State) (r : Nat) : Bool := if r < 256 then vendorNarrow r else (s.routine r).narrowOk
/-- A routine is a vendor routine or belongs to the tenancy. -/
def State.mayUse (s : State) (t r : Nat) : Bool :=
  decide (r < 256) || ((s.routine r).kind != 0 && (s.routine r).owner == t)

/-- The translation of a routine that a task dispatched under a library version runs (R258): the newest one not above
it, or the present one where the routine had none then. -/
def State.translationAt (s : State) (r v : Nat) : OldCode :=
  let x := s.routine r
  let now : OldCode := { version := x.version, words := x.words, base := x.base, size := x.size, kind := x.kind }
  if x.version ≤ v then now else (x.old.reverse.find? (fun o => decide (o.version ≤ v))).getD now

/-- The native words of a routine for a task of a library version. -/
def State.routineWords (s : State) (r v : Nat) : List (List (BitVec 16)) := (s.translationAt r v).words
/-- The halfword address of that translation. -/
def State.routineBase (s : State) (r v : Nat) : Nat := (s.translationAt r v).base
/-- The kind of a routine for a task of a library version. -/
def State.kindAt (s : State) (r v : Nat) : Nat := if r < 256 then vendorKind r else (s.translationAt r v).kind

/-! ### Eligible arrays (R279) -/

/-- The arrays eligible for a RUN of a routine, in ascending number. -/
def State.eligible (s : State) (t r : Nat) : List Nat :=
  (s.usable t).filter (fun a => s.narrowOk r || !s.narrow a)

/-- Receipt-log entries held by tasks placed on an array. -/
def State.tasksOn (s : State) (a : Nat) : List (Nat × Task) :=
  s.disp.tasks.filterMap (fun e => match e.2 with
    | some t => if t.array == a then some (e.1, t) else none
    | none => none)

/-- The assigned cost still to run on an array (R365). -/
def State.costOn (s : State) (a : Nat) : Nat := (s.tasksOn a).foldl (fun n e => n + e.2.cost) 0

/-- The array of a list with the least cost still to run, the lowest-numbered on a tie. -/
def State.leastLoaded (s : State) (l : List Nat) : Option Nat :=
  match l with
  | [] => none
  | a :: r => match s.leastLoaded r with
    | none => some a
    | some b => if s.costOn b < s.costOn a then some b else some a

/-! ### Events and dead letters of arrays -/

/-- The three AGRP pages that raise per-array events. -/
inductive ArrPage where
  | prog
  | time
  | cond
deriving DecidableEq, Repr

/-- The page of a group. -/
def ArrPage.page (p : ArrPage) (g : Nat) : Nat :=
  match p with
  | .prog => pgPROG g
  | .time => pgTIME g
  | .cond => pgCOND g
/-- The EVT_ARR field an array's bit lies in. -/
def ArrPage.field (p : ArrPage) (a : Nat) : FieldSpec :=
  match p, decide (a % 64 < 32) with
  | .prog, true => Reg.PROG_EVT_ARR_LO
  | .prog, false => Reg.PROG_EVT_ARR_HI
  | .time, true => Reg.TIME_EVT_ARR_LO
  | .time, false => Reg.TIME_EVT_ARR_HI
  | .cond, true => Reg.COND_EVT_ARR_LO
  | .cond, false => Reg.COND_EVT_ARR_HI

/-- Sets a bit of a number. -/
def setBit (v i : Nat) : Nat := if bitOf v i then v else v + 2 ^ i
/-- Clears a bit of a number. -/
def clearBit (v i : Nat) : Nat := if bitOf v i then v - 2 ^ i else v

/-- Raises a per-array event: the array's EVT_ARR bit and the page's event bit (Tables 2.7, 4.8, 10.19). -/
def State.raiseArr (s : State) (p : ArrPage) (bit a : Nat) : State :=
  let f := p.field a
  let g := groupOf a
  (s.setReg f g (setBit (s.reg f g) (a % 32))).raise (p.page g) bit (s.tenOfArr a)

/-- Entries of an array's dead-letter buffer (R369). -/
def deadBufDepth : Nat := 16

/-- The program counter the logs show: word index, and bit 19 for a routine entered by CALL (R254). -/
def Seq.pcWord (q : Seq) : Nat := q.pc % 2 ^ 19 + (if q.byCall then 2 ^ 19 else 0)

/-- Writes a dead-letter entry for a skipped operation (R259, R369). -/
def State.deadLetter (s : State) (a cause slot word : Nat) : State :=
  let A := s.arr a
  let ten := s.tenRunning a
  let att := match A.task with | some r => (match s.task r with | some t => t.attempt | none => 1) | none => 1
  let e : DeadLetter :=
    { cause := cause, slot := slot, ten := ten, arr := a, attempt := att, pc := A.seq.pcWord, routine := A.seq.routine
      beat := A.ctr.beats % 2 ^ 32, receipt := A.task.getD 0, word := word }
  let s := s.onArr a fun A => { A with ctr := { A.ctr with dlCount := satAdd32 A.ctr.dlCount 1 } }
  let s := s.raiseArr .prog 0 a
  if A.dead.length < deadBufDepth then (s.setArr a { s.arr a with dead := A.dead ++ [e] }).moveDead a (A.dead ++ [e])
  else
    let p := s.deadPart ten
    (s.setDeadPart ten { p with lost := min (p.lost + 1) 0xFFFF }).raise pgDLOG 1 (some ten)

/-- Dead-letter causes (Table 10.14). -/
def dlReservedOp : Nat := 0x01
def dlClassMix : Nat := 0x02
def dlBadDesc : Nat := 0x03
def dlBadFmt : Nat := 0x04
def dlBusy : Nat := 0x05
def dlSwapSpacing : Nat := 0x06
def dlCallDepth : Nat := 0x07
def dlCallTarget : Nat := 0x08
def dlObjRange : Nat := 0x09
def dlEngineState : Nat := 0x0A
def dlQueryRange : Nat := 0x0B

/-! ### Failed checks -/

/-- A class counts against the array (Table 15.1). -/
def countsAgainst (cls : Nat) : Bool := decide (1 ≤ cls ∧ cls ≤ 5)

/-- What follows a failure of a task (R362, R363, R368): 0 replay, 1 quarantine and move, 2 the command ends FAULTED. -/
def failAction (t : Task) (cls : Nat) : Nat :=
  if t.jover || cls == 8 then 2
  else if t.attempt < 4 then 0
  else if countsAgainst cls && !t.moved then 1
  else 2

/-- The fault record of a task's failed check (Table 15.5). -/
def State.faultRecOf (s : State) (a rid : Nat) (t : Task) (cls action detail : Nat) : FaultRec :=
  let c := (s.cmd t.cid).map (·.bytes)
  { cls := cls, ten := t.ten, arr := a, action := action, attempt := t.attempt, moved := t.moved, receipt := rid
    routine := t.routine, seqno := (c.map cmdSeqno).getD 0, submitter := (c.map cmdSubmitter).getD 0
    detail := detail, beat := (s.arr a).seq.pos, time := s.now % 2 ^ 32 }

/-- What abandonment leaves of an array: no operation in flight but shared-store writes, empty accumulators and feeder
registers, stopped engines (R359). -/
def ArrayState.abandoned (A : ArrayState) : ArrayState :=
  { A with
    flight := A.flight.filter (fun f => match f.op with | .shared _ _ => true | _ => false)
    acc := {}
    mv := { A.mv with acc := [], t := [], g := [], issues := [], axpy := [] }
    regs := { A.regs with presA := {}, presB := {} }
    engines := (A.engines.map (fun e => (e.1, { e.2 with steps := 0, started := false, loops := [], filling := [], posts := [] }))).filter
      (fun e => decide (e.2 ≠ {}))
    stalled := [], frozenOn := [], slip := false, abandon := some 32, fail := none, vdivBusy := 0 }

/-- Drops the data of the reads a task has outstanding, and with it the writes of offload MOVEs that it was to fill; its other writes
still complete (R359). -/
def State.dropReads (s : State) (a : Nat) : State :=
  let f : Txn → Txn := fun x => if x.owner.ofArray a && x.kind == 0 then { x with dst := .none } else x
  let s := s.unask a
  { s with mport := { s.mport with
      chans := s.mport.chans.map (fun e =>
        (e.1, { e.2 with
          out := e.2.out.map (fun o => (o.1, f o.2))
          wait := (e.2.wait.filter (fun x => !(x.owner.ofArray a && x.need != 0))).map f })) } }

/-- Discards a task's staged contributions that are not yet eligible for release, and the posts that wait for them (R328, R359). -/
def State.dropStaged (s : State) (rid : Nat) : State :=
  ({ s with mport := { s.mport with
      staged := s.mport.staged.filter (fun c => !(c.rid == rid && !c.ready))
      posts := s.mport.posts.filter (fun p => !(p.rid == rid && !p.kept)) } }).onTask rid
    (fun t => { t with staged := 0 })

/-- The array abandons the attempt that runs on it (R359); `rec` is the failed check, if one caused it. -/
def State.beginAbandon (s : State) (a : Nat) (why : Option (Nat × Nat)) : State :=
  match (s.arr a).task with
  | none => s
  | some rid =>
    match s.task rid with
    | none => s
    | some t =>
      let s := match why with
        | some (cls, detail) =>
          (s.logFault (s.faultRecOf a rid t cls (failAction t cls) detail)).onTask rid
            (fun t => { t with failed := some cls })
        | none => s
      (((s.onTask rid fun t => { t with state := 3 }).dropStaged rid).dropReads a).onArr a ArrayState.abandoned

/-- An attempt runs on the array and is not being abandoned. -/
def State.attempting (s : State) (a : Nat) : Bool :=
  let A := s.arr a
  A.abandon.isNone && (match A.task with
    | some r => (match s.task r with | some t => t.state == 2 && t.failed.isNone | none => false)
    | none => false)

/-- A check of the running attempt fails. Abandonment begins when the beat completes; of two checks in one beat the
lowest class is recorded (R367). -/
def State.failCheck (s : State) (a cls detail : Nat) : State :=
  if s.attempting a then
    s.onArr a fun A => { A with fail := match A.fail with
      | some (c, d) => if cls < c then some (cls, detail) else some (c, d)
      | none => some (cls, detail) }
  else s

/-- A check of the running attempt fails between beats, so abandonment begins at once. -/
def State.failNow (s : State) (a cls detail : Nat) : State :=
  if s.attempting a then
    match (s.arr a).fail with
    | some (c, d) => s.beginAbandon a (some (if cls < c then (cls, detail) else (c, d)))
    | none => s.beginAbandon a (some (cls, detail))
  else s

/-- An injection is armed for a check of a class on an array, and an attempt runs there (R372). -/
def State.injected (s : State) (a cls : Nat) : Bool :=
  s.flag Reg.FAULT_INJ_ARM && s.reg Reg.FAULT_INJ_ARR == a && s.reg Reg.FAULT_INJ_CLASS == cls && s.attempting a

/-- A check of a class takes place on an array: an armed injection makes it fail once (R372). -/
def State.checkPoint (s : State) (a cls detail : Nat) : State :=
  if s.injected a cls then
    (s.setReg Reg.FAULT_INJ_ARM 0 0).failCheck a cls detail
  else s

/-- The same of a check of a unit that has no addresses: the record's DETAIL is free (Table 15.5; log 22). -/
def State.checkUnit (s : State) (a cls : Nat) : State :=
  if s.injected a cls then (s.checkPoint a cls s.freeWord.toNat).drew else s

end Sys2Proof.Machine
end

