-- ==== Sys2Proof/Machine/Mail.lean ====
section
/-! DEFINITION. Shared-store accesses, mailbags and the ring ports' landing and sending (spec/11_queues_and_sync.md R282;
spec/12_mail_train.md; spec/14_tenancy.md R342). -/
namespace Sys2Proof.Machine

/-! ### Shared store -/

/-- Reads bytes of the shared store for a tenancy, one 64-byte line at a time: a line outside its range delivers +0 and is
recorded (R17, R342). -/
def State.sharedRead (s : State) (t a n : Nat) : List Byte × State :=
  let lines := if n = 0 then [] else List.range ((a + n - 1) / 64 + 1 - a / 64)
  let s' := lines.foldl (fun s i =>
    let l := (a / 64 + i) * 64 % 2 ^ 28
    if s.inShared t l then s.chargeShared l t 64 else s.violate t l 2) s
  ((List.range n).map (fun i => let b := (a + i) % 2 ^ 28; if s.inShared t b then s.shared.byte b else 0#8), s')

/-- Writes bytes of the shared store for a tenancy; a line outside its range is discarded and recorded (R342). A write of part of
a line writes its own bytes and leaves the others as they are, which is the model's choice (R17; log 49). -/
def State.sharedWrite (s : State) (t a : Nat) (bs : List Byte) : State :=
  let n := bs.length
  let lines := if n = 0 then [] else List.range ((a + n - 1) / 64 + 1 - a / 64)
  let cells := ((List.range n).zip bs).filter (fun c => s.inShared t ((a + c.1) % 2 ^ 28))
  let s' := lines.foldl (fun s i =>
    let l := (a / 64 + i) * 64 % 2 ^ 28
    if s.inShared t l then s.chargeShared l t 64 else s.violate t l 3) s
  { s' with shared := cells.foldl (fun m c => m.put ((a + c.1) % 2 ^ 28) c.2) s'.shared }

/-! ### Mailbags (R282) -/

/-- Handles one mailbag holds. -/
def bagDepth : Nat := Config.mailbagDepth

/-- Instance number of a ring channel's fields. -/
def chanInst (p c : Nat) (recv : Bool) : Nat := p * 32 + (if recv then 16 else 0) + c

/-- The tenancy a ring channel is bound to. -/
def State.chanTen (s : State) (p c : Nat) (recv : Bool) : Nat := s.reg Reg.RING_CH_TEN (chanInst p c recv)
/-- The absolute mailbag of a ring channel, if it lies in the tenancy's range (R319). -/
def State.chanBag (s : State) (p c : Nat) (recv : Bool) : Option Nat :=
  let t := s.chanTen p c recv
  let m := s.reg Reg.RING_MAILBAG (chanInst p c recv)
  if s.mbxIn t m then some (s.mbxAbs t m) else none
/-- The relative letterbox of a ring channel, if it lies in the tenancy's range. -/
def State.chanLbx (s : State) (p c : Nat) (recv : Bool) : Option Nat :=
  let n := s.reg Reg.RING_LBX (chanInst p c recv)
  if s.lbxIn (s.chanTen p c recv) n then some n else none
/-- A ring channel is enabled. -/
def State.chanEn (s : State) (p c : Nat) (recv : Bool) : Bool := s.flag Reg.RING_CH_EN (chanInst p c recv)

/-- All (port, channel) pairs. -/
def allChans : List (Nat × Nat) := (List.range 4).flatMap (fun p => (List.range 16).map (fun c => (p, c)))

/-- A mailbag feeds an enabled GATED send channel (R310). -/
def State.bagGated (s : State) (m : Nat) : Bool :=
  allChans.any (fun x => s.chanEn x.1 x.2 false && s.flag Reg.RING_GATED (chanInst x.1 x.2 false) &&
    s.chanBag x.1 x.2 false == some m)

/-- Puts a handle; `by_` is the task that puts it, whose seal a gated channel waits for (R310). -/
def State.bagPut (s : State) (m : Nat) (h : Word) (by_ : Option Nat) : State :=
  let b := s.bag m
  s.setBag m { b with handles := b.handles ++ [(h, by_)] }

/-- Puts of receive channels that wait for room in a mailbag (R312). -/
def State.heldPuts (s : State) (m : Nat) : Nat :=
  (allChans.filter (fun x => (Tbl.get {} (s.port x.1).recv x.2).heldHandle.isSome && s.chanBag x.1 x.2 true == some m)).length

/-- Lets receive channels whose handle waits for room in a mailbag put it (R312). -/
def State.refillBag (s : State) (m : Nat) : State :=
  allChans.foldl (fun s x =>
    let r := Tbl.get {} (s.port x.1).recv x.2
    match r.heldHandle with
    | some h =>
      if s.chanBag x.1 x.2 true == some m && decide ((s.bag m).handles.length < bagDepth) then
        (s.bagPut m h none).onPort x.1 fun P => { P with recv := Tbl.set {} P.recv x.2 { r with heldHandle := none } }
      else s
    | none => s) s

/-- A waiting requester takes the handle that its place in the queue gives it; `none` while there is none for it. -/
def State.bagTake (s : State) (m who : Nat) : Option (Word × State) :=
  let b := s.bag m
  let takers := if b.takers.contains who then b.takers else b.takers ++ [who]
  let i := indexOf takers who
  match b.handles[i]? with
  | some (h, _) =>
    some (h, (s.setBag m { b with handles := b.handles.eraseIdx i, takers := takers.filter (fun x => x != who) }).refillBag m)
  | none => none

/-- Records that a take waits. -/
def State.bagWaitTake (s : State) (m who : Nat) : State :=
  let b := s.bag m
  if b.takers.contains who then s else s.setBag m { b with takers := b.takers ++ [who] }

/-- A waiting put goes in when its place in the queue has room; `none` otherwise. -/
def State.bagTryPut (s : State) (m who : Nat) (h : Word) (by_ : Option Nat) : Option State :=
  let b := s.bag m
  let putters := if b.putters.contains who then b.putters else b.putters ++ [who]
  if b.handles.length + indexOf putters who < bagDepth then
    some ((s.setBag m { b with putters := putters.filter (fun x => x != who) }).bagPut m h by_)
  else none

/-- Records that a put waits. -/
def State.bagWaitPut (s : State) (m who : Nat) : State :=
  let b := s.bag m
  if b.putters.contains who then s else s.setBag m { b with putters := b.putters ++ [who] }

/-- Withdraws requesters from every mailbag's waiting lists. -/
def State.bagLeave (s : State) (p : Nat → Bool) : State :=
  let f := fun (b : Mailbag) => { b with takers := b.takers.filter (fun x => !p x), putters := b.putters.filter (fun x => !p x) }
  s.onDisp fun d => { d with mbx := (d.mbx.map (fun e => (e.1, f e.2))).filter (fun e => decide (e.2 ≠ {})) }

/-- Withdraws everything of some arrays. -/
def State.bagForget (s : State) (p : Nat → Bool) : State := s.bagLeave (fun x => p (x / 8))

/-- What stands for a command among the takers of a mailbag, for one of its sources: beyond what stands for any array. -/
def cmdWho (cid src : Nat) : Nat := (cid + 1) * 2 ^ 20 + src
/-- Withdraws everything that a command waits for. -/
def State.bagQuit (s : State) (cid : Nat) : State := s.bagLeave (fun x => x / 2 ^ 20 == cid + 1)

/-- What marks a handle whose task has ended without a seal. No task has this receipt-log entry. -/
def unsealedMark : Nat := 2 ^ 16

/-- The seal of a task releases the handles it put into gated channels; its end without a seal discards them (R310). Those
it put elsewhere stay, marked, for a gated channel that is enabled later discards them too. -/
def State.bagSettle (s : State) (rid : Nat) (isSealed : Bool) : State :=
  let f := fun (m : Nat) (b : Mailbag) =>
    if isSealed then { b with handles := b.handles.map (fun h => if h.2 == some rid then (h.1, none) else h) }
    else if s.bagGated m then { b with handles := b.handles.filter (fun h => h.2 != some rid) }
    else { b with handles := b.handles.map (fun h => if h.2 == some rid then (h.1, some unsealedMark) else h) }
  s.onDisp fun d => { d with mbx := (d.mbx.map (fun e => (e.1, f e.1 e.2))).filter (fun e => decide (e.2 ≠ {})) }

/-- A gated channel discards the handles of tasks that ended without a seal (R310). -/
def State.bagPurge (s : State) (m : Nat) : State :=
  s.setBag m { s.bag m with handles := (s.bag m).handles.filter (fun h => h.2 != some unsealedMark) }

/-! ### CRC-32C (R300) -/

/-- One bit of the reflected Castagnoli division. -/
def crcBit (c : BitVec 32) : BitVec 32 := if c.getLsbD 0 then (c >>> 1) ^^^ 0x82F63B78#32 else c >>> 1
/-- One byte. -/
def crcByte (c : BitVec 32) (b : Byte) : BitVec 32 :=
  crcBit (crcBit (crcBit (crcBit (crcBit (crcBit (crcBit (crcBit (c ^^^ b.setWidth 32))))))))
/-- CRC-32C of a byte string. -/
def crc32c (bs : List Byte) : BitVec 32 := ~~~ (bs.foldl crcByte 0xFFFFFFFF#32)

/-- The bytes a data packet's CRC covers: header, payload and trailer bytes 0x00 to 0x3B (Table 12.1), the reserved bits
among them, which nothing else reads. -/
def packetBytes (p : Packet) : List Byte :=
  let h := fun (hi lo : Nat) => bitsOf p.hdrSpare.toNat hi lo
  leBytes 4 (p.type.toNat + 16 * p.seq.toNat + 2 ^ 16 * natOfBool p.cls + 2 ^ 17 * p.chan.toNat +
    2 ^ 21 * natOfBool p.first + 2 ^ 22 * natOfBool p.last + 2 ^ 23 * h 8 0) ++
  leBytes 4 (p.tag.toNat + 2 ^ 16 * p.msgId.toNat) ++
  leBytes 4 (p.pktIdx.toNat + 2 ^ 9 * p.nfl.toNat + 2 ^ 14 * h 10 9 + 2 ^ 16 * p.srcPos.toNat + 2 ^ 26 * h 16 11) ++
  leBytes 4 p.user.toNat ++ leBytes 4 (p.msgLen.toNat + 2 ^ 21 * p.hops.toNat + 2 ^ 31 * h 17 17) ++ leBytes 44 (h 369 18) ++
  p.payload ++ leBytes 4 (p.ackSeq.toNat + 2 ^ 12 * natOfBool p.ackV + 2 ^ 13 * bitsOf p.trlSpare.toNat 18 0) ++
  leBytes 56 (bitsOf p.trlSpare.toNat 466 19)

/-- The bytes a control flit's CRC covers (R301). -/
def flitBytes (f : CtlFlit) : List Byte := leBytes 4 (f.type.toNat + 16 * f.seq.toNat + 2 ^ 16 * f.spare.toNat) ++ f.credits ++ f.more

/-! ### Ports -/

/-- A receive channel. -/
def State.recvChan (s : State) (p c : Nat) : RecvChan := Tbl.get {} (s.port p).recv c
def State.setRecv (s : State) (p c : Nat) (r : RecvChan) : State :=
  s.onPort p fun P => { P with recv := Tbl.set {} P.recv c r }
/-- A send channel. -/
def State.sendChan (s : State) (p c : Nat) : SendChan := Tbl.get {} (s.port p).send c
def State.setSend (s : State) (p c : Nat) (r : SendChan) : State :=
  s.onPort p fun P => { P with send := Tbl.set {} P.send c r }

/-- Event bits of a RING page. -/
def evLinkDown : Nat := 0
def evLinkUp : Nat := 1
def evRetrain : Nat := 2
def evRingViol : Nat := 3
def evMsgDrop : Nat := 4
def evResRefused : Nat := 5

/-- A port's event, attributable to a channel's tenancy where one is given. -/
def State.raiseRing (s : State) (p bit : Nat) (t : Option Nat) : State := s.raise (pgRING p) bit t

/-- A discarded message (R319, R316, R309). -/
def State.msgDrop (s : State) (p t : Nat) : State :=
  (s.bump Reg.RING_MSG_DROP_CNT p).raiseRing p evMsgDrop (some t)

/-- A ring partner violation (Table 12.2). -/
def State.ringViol (s : State) (p reason c seq : Nat) : State :=
  let s := s.bump Reg.RING_VIOL_CNT p
  let s := if s.flag Reg.RING_VIOL_VALID p then s
    else (((s.setReg Reg.RING_VIOL_REASON p reason).setReg Reg.RING_VIOL_CH p c).setReg Reg.RING_VIOL_SEQ p seq).setReg
      Reg.RING_VIOL_VALID p 1
  s.raiseRing p evRingViol none

/-- Enters retraining (R305). -/
def State.enterRetrain (s : State) (p : Nat) : State :=
  if (s.port p).link == .up then
    (s.onPort p fun P => { P with link := .retrain, attempts := 0, naks := 0 }).raiseRing p evRetrain none
  else s

/-- The port fails with a reason (R305); a link that had been up goes down. -/
def State.linkFail (s : State) (p why : Nat) : State :=
  let was := (s.port p).link
  let s := (s.onPort p fun P => { P with link := .failed }).setReg Reg.RING_FAIL_WHY p why
  if was == .up || was == .retrain then s.raiseRing p evLinkDown none else s

/-- Bytes of a receive buffer: 4 KiB × 2^code, codes above 8 acting as 8 (Table 12.4). -/
def State.bufSize (s : State) (p c : Nat) : Nat := 4096 * 2 ^ (min (s.reg Reg.RING_BUF_SIZE (chanInst p c true)) 8)
/-- Receive buffers; 0 means 256. -/
def State.nbuf (s : State) (p c : Nat) : Nat :=
  let n := s.reg Reg.RING_NBUF (chanInst p c true)
  if n = 0 then 256 else n
/-- Address of the buffer of message k; bits [5:0] of the base are ignored. -/
def State.bufAddr (s : State) (p c k : Nat) : Nat :=
  s.reg Reg.RING_BUF_BASE (chanInst p c true) / 64 * 64 + k % s.nbuf p c * s.bufSize p c
/-- Address of the header slot of message k. -/
def State.hdrAddr (s : State) (p c k : Nat) : Nat :=
  s.reg Reg.RING_HDR_BASE (chanInst p c true) / 64 * 64 + k % s.nbuf p c * 64

/-- Message k of a receive channel may begin to land (R311, R314). -/
def State.mayLand (s : State) (p c : Nat) : Bool :=
  let r := s.recvChan p c
  let t := s.chanTen p c true
  r.heldHandle.isNone && !r.relaying.contains (r.k % s.nbuf p c) &&
    (match s.chanLbx p c true with
     | some n => decide (r.k + 1 ≤ (s.lb (s.lbxAbs t n)).toNat + s.nbuf p c)
     | none => true)

/-- A message joins the queue of a port under the port's next number. -/
def Port.queueMsg (P : Port) (m : SendMsg) : Port := { P with msgs := P.msgs ++ [{ m with no := P.nextMsg }], nextMsg := P.nextMsg + 1 }

/-- Queues a landed message for its relay (R314). A relay channel that is not enabled, belongs to another tenancy or names no
letterbox of it discards the message (R306, R319). -/
def State.relay (s : State) (p c : Nat) (m : Packet) (k : Nat) : State :=
  let i := chanInst p c true
  if s.flag Reg.RING_RELAY_EN i && decide (0 < m.hops.toNat) then
    let out := s.reg Reg.RING_RELAY_CH i
    if !s.chanEn p out false || s.chanTen p out false != s.chanTen p c true || (s.chanLbx p out false).isNone then
      s.msgDrop p (s.chanTen p c true)
    else
    let snd := s.sendChan p out
    let msg : SendMsg :=
      { ch := out, msgId := snd.nextId, payload := s.bufAddr p c k, len := m.msgLen.toNat, user := m.user
        hops := m.hops.toNat - 1, srcPos := m.srcPos.toNat, relay := some (c, k % s.nbuf p c) }
    let s := (s.setSend p out { snd with nextId := (snd.nextId + 1) % 65536 }).onPort p fun P => P.queueMsg msg
    let r := s.recvChan p c
    s.setRecv p c { r with relaying := r.relaying ++ [k % s.nbuf p c] }
  else s

/-- The last packet of a message has been written: header slot, handle, count and relay (R311). -/
def State.messageLanded (s : State) (p c : Nat) (m : Packet) : State :=
  let t := s.chanTen p c true
  let r := s.recvChan p c
  let k := r.k
  let hdr := leBytes 4 m.msgLen.toNat ++ leBytes 4 m.user.toNat ++ leBytes 4 m.srcPos.toNat ++ leBytes 4 m.msgId.toNat ++
    leBytes 4 m.hops.toNat ++ leBytes 44 0
  let h := BitVec.ofNat 32 (s.bufAddr p c k % 2 ^ 28)
  let s := s.sharedWrite t (s.hdrAddr p c k % 2 ^ 28) hdr
  let s := s.setRecv p c { r with k := k + 1, begun := false, nextPkt := 0, lastId := some m.msgId.toNat }
  let s := s.setReg Reg.RING_MSGS (chanInst p c true) (s.reg Reg.RING_MSGS (chanInst p c true) + 1)
  let s := match s.chanBag p c true with
    | some b => if (s.bag b).handles.length < bagDepth then s.bagPut b h none
      else (let r := s.recvChan p c; s.setRecv p c { r with heldHandle := some h })
    | none => s
  s.relay p c m k

/-- Packets of a message. -/
def pktCount (len : Nat) : Nat := (len + 2047) / 2048
/-- Payload bytes of packet i. -/
def pktLen (len i : Nat) : Nat := min 2048 (len - 2048 * i)

/-- A packet is consistent with the message it belongs to (Table 12.2 reason 1). -/
def RecvChan.consistent (r : RecvChan) (m : Packet) : Bool :=
  let len := m.msgLen.toNat
  let i := m.pktIdx.toNat
  (if r.begun && !r.discard then !m.first && i == r.nextPkt && m.msgId.toNat == r.msgId && len == r.msgLen else m.first && i == 0) &&
    decide (i < pktCount len) && m.last == (i + 1 == pktCount len) && decide (m.nfl.toNat + 1 = (pktLen len i + 63) / 64) &&
    decide (m.payload.length = 64 * (m.nfl.toNat + 1))

/-- A message whose MSG_ID lies among the 256 IDs up to the last completed one was already delivered (R315). -/
def RecvChan.isOld (r : RecvChan) (id : Nat) : Bool :=
  match r.lastId with
  | some l => decide ((l + 65536 - id) % 65536 < 256)
  | none => false

/-- A packet leaves the landing store: its credit is returned (R304), unless the link has started afresh since (R315). -/
def RecvChan.freed (r : RecvChan) : RecvChan :=
  if 0 < r.kept then { r with kept := r.kept - 1 } else { r with used := r.used - 1, owed := r.owed + 1 }
def State.freeSlot (s : State) (p c : Nat) : State := s.setRecv p c (s.recvChan p c).freed

/-- A message of a receive channel is discarded: MSG_DROP counts it once, whichever of its packets show it (R316). -/
def State.loseMsg (s : State) (p c id : Nat) : State :=
  let r := s.recvChan p c
  if r.lost.contains id then s
  else (s.msgDrop p (s.chanTen p c true)).setRecv p c { r with lost := r.lost ++ [id] }

/-- Another enabled receive channel of the same tenancy has a buffer over a byte of the shared store (R319). -/
def State.otherBuffer (s : State) (p c b : Nat) : Bool :=
  allChans.any (fun x => (x.1 != p || x.2 != c) && s.chanEn x.1 x.2 true && s.chanTen x.1 x.2 true == s.chanTen p c true &&
    decide ((b + 2 ^ 28 - s.bufAddr x.1 x.2 0 % 2 ^ 28) % 2 ^ 28 < s.nbuf x.1 x.2 * s.bufSize x.1 x.2))

/-- Payload lands in a buffer: where the buffers of two channels overlap, free bytes (R311, R319). -/
def State.landPayload (s : State) (p c a : Nat) (bs : List Byte) : State :=
  let t := s.chanTen p c true
  let hits := (List.range bs.length).map (fun i => s.otherBuffer p c ((a + i) % 2 ^ 28))
  if hits.any id then
    (s.sharedWrite t a (((List.range bs.length).zip (hits.zip bs)).map (fun x =>
      if x.2.1 then Config.freeByte (s.freeCtr + x.1) else x.2.2))).drew bs.length
  else s.sharedWrite t a bs

/-- A packet of the message that the channel is discarding. -/
def RecvChan.tail (r : RecvChan) (m : Packet) : Bool := r.begun && r.discard && !m.first && m.msgId.toNat == r.msgId
/-- The channel discards the message that a packet belongs to. -/
def RecvChan.drop (r : RecvChan) (m : Packet) : RecvChan :=
  { r with
    begun := !m.last, discard := !m.last, nextPkt := 0, msgId := m.msgId.toNat, msgLen := m.msgLen.toNat
    lost := if m.last then r.lost.erase m.msgId.toNat else r.lost }

/-- Takes an accepted packet of an enabled channel out of the landing store: it begins, continues or discards its
message (R311, R312, R315, R316, R319). A packet of TYPE 0 stands for one dropped at acceptance and holds no slot. -/
def State.landPacket (s : State) (p c : Nat) (m : Packet) : State :=
  let t := s.chanTen p c true
  let r0 := s.recvChan p c
  if m.type = 0 then s.setRecv p c (r0.drop m)
  else
  let s := s.freeSlot p c
  let r := s.recvChan p c
  let discard := fun (s : State) => s.setRecv p c ((s.recvChan p c).drop m)
  if r0.tail m then discard s
  else if !r0.consistent m then discard ((s.ringViol p 1 c m.seq.toNat).loseMsg p c m.msgId.toNat)
  else
    let old := m.first && r.isOld m.msgId.toNat
    let bad := decide (s.bufSize p c < m.msgLen.toNat) || (s.chanBag p c true).isNone || (s.chanLbx p c true).isNone
    if old then discard s
    else if m.first && bad then discard (s.loseMsg p c m.msgId.toNat)
    else
      let s := s.setRecv p c { r with begun := !m.last, nextPkt := if m.last then 0 else m.pktIdx.toNat + 1, msgId := m.msgId.toNat, msgLen := m.msgLen.toNat, discard := false }
      let n := pktLen m.msgLen.toNat m.pktIdx.toNat
      let bs := m.payload.take n
      let s := ((s.landPayload p c ((s.bufAddr p c r.k + 2048 * m.pktIdx.toNat) % 2 ^ 28) bs).bump64 Reg.RING_RX_BYTES_LO
        Reg.RING_RX_BYTES_HI p n).chargeRing p t n
      if m.last then s.messageLanded p c m else s

/-- Lands the packets a channel holds, as far as its letterbox, buffers and mailbag allow. -/
def State.landStash (fuel : Nat) (p c : Nat) (s : State) : State :=
  match fuel with
  | 0 => s
  | n + 1 =>
    let r := s.recvChan p c
    match r.stash with
    | [] => s
    | m :: rest =>
      if m.first && m.type ≠ 0 && !s.mayLand p c then s
      else ((s.setRecv p c { r with stash := rest }).landPacket p c m).landStash n p c

/-- Lands what every receive channel of a tenancy holds. -/
def State.landAll (s : State) : State :=
  allChans.foldl (fun s x => if (s.recvChan x.1 x.2).stash.isEmpty then s else s.landStash 1024 x.1 x.2) s

/-- A post by an array or stream, after which waiting ring messages may land (R280, R311). -/
def State.postAndLand (s : State) (t n v : Nat) : State := (s.postLb t n v).landAll

end Sys2Proof.Machine
end

