-- ==== Sys2Proof/Machine/Pool.lean ====
section
/-! DEFINITION. Cache pools, their structures in memory, snapshots, translation and quantisation (spec/08_paged_cache.md
R196 to R206, R220 to R225; spec/03_numbers.md R54 to R58). -/
namespace Sys2Proof.Machine

/-! ### Quantisation (R55 to R58) -/

/-- floor(log2 |v|) of a finite non-zero value. -/
def Val.log2 (v : Val) : Int :=
  match v with
  | .fin _ m x => Int.ofNat (Nat.log2 m) + x
  | _ => 0

/-- The larger magnitude of two exact values. -/
def Val.maxAbs (a b : Val) : Val := if a.abs.lt b.abs then b.abs else a.abs

/-- One MX block of exact values: its scale code and the element codes (R55, R56). `emax` is 8 for E4M3 and 2 for E2M1. -/
def mxVals (elem : Fmt) (emax : Int) (vs : List Val) : Nat × List Nat :=
  if vs.any (fun v => !v.isFinite) then (0xFF, vs.map (fun _ => 0))
  else
    let amax := vs.foldl Val.maxAbs (.fin false 0 0)
    if amax.isZero then (0, vs.map elem.round)
    else
      let e := max (amax.log2 - emax) (-127)
      ((e + 127).toNat, vs.map (fun v => elem.round (v.scale (-e))))

/-- One MX block of FP32 words. -/
def mxBlock (elem : Fmt) (emax : Int) (xs : List Word) : Nat × List Nat := mxVals elem emax (xs.map val32)

/-- The greatest magnitude of some values; NaN where one is not finite. -/
def amaxOf (vs : List Val) : Val := if vs.any (fun v => !v.isFinite) then .nan else vs.foldl Val.maxAbs (.fin false 0 0)

/-- A scale by R57 for a format whose greatest value is `top`. A rounded quotient of minus infinity gives NaN as well
(DESIGN CHOICE, log 49). -/
def scaleOf (top : Word) (amax : Val) (h : Word) : Word :=
  if amax.isZero then one32
  else if !amax.isFinite || !isFinite32 h then nan32
  else
    let s := BitVec.ofNat 32 (fp32.div (amax.mul (val32 h)) (val32 top))
    if !isFinite32 s then nan32 else fmax s 0x00800000#32

/-- The scale of a page-scaled half (R57). -/
def pageScale (amax h : Word) : Word := scaleOf 0x43E00000#32 (val32 amax) h

/-- A page-scaled element (R58). -/
def psCode (x s : Val) : Nat := e4m3.div x s
/-- The exact quotient of a finite element and a finite scale has magnitude above 448 (R214). -/
def psSaturates (x s : Val) : Bool := x.isFinite && s.isFinite && (s.abs.mul (.fin false 448 0)).lt x.abs

/-- Bytes of codes of 4, 8, 16 or 32 bits, the lower-numbered code in the lower bits (R7, R54). -/
def packCodes (bits : Nat) (l : List Nat) : List Byte :=
  if bits = 4 then (List.range ((l.length + 1) / 2)).map (fun i => BitVec.ofNat 8 (l.getD (2 * i) 0 % 16 + 16 * (l.getD (2 * i + 1) 0 % 16)))
  else l.flatMap (leBytes (bits / 8))

/-- `n` codes from bytes. -/
def unpackCodes (bits n : Nat) (bs : List Byte) : List Nat :=
  if bits = 4 then (List.range n).map (fun i => (bs.getD (i / 2) 0).toNat / (if i % 2 = 0 then 1 else 16) % 16)
  else (List.range n).map (fun i => leNat ((bs.drop (i * (bits / 8))).take (bits / 8)))

/-! ### Pools (R196, R197, Table 8.11) -/

/-- A pool's configuration; `fmt` 0 BF16, 1 page-scaled FP8, 2 MXFP8, 3 MXFP4; sequences `first` to `stop` − 1. -/
structure Pool where
  p : Nat
  t : Nat
  fmt : Nat
  d : Nat
  planes : Nat
  headroom : Word
  first : Nat
  stop : Nat
  desc : Nat
  ft : Nat
  frame : Nat
  frames : Nat
  node : Nat
  nodes : Nat
  cow : Bool
deriving DecidableEq, Repr

/-- The head dimension of DIM. -/
def dimOf (c : Nat) : Nat := [32, 64, 96, 128, 192, 256, 512, 128].getD c 128

/-- A pool as its registers give it. -/
def State.pool (s : State) (p : Nat) : Pool :=
  let at_ := fun lo hi (k : Nat) => (s.reg lo p + 2 ^ 32 * s.reg hi p) / 2 ^ k * 2 ^ k
  let f := s.reg Reg.CACHE_SEQ_FIRST p
  let n := s.reg Reg.CACHE_SEQ_COUNT p
  { p := p, t := s.reg Reg.CACHE_OWNER p, fmt := s.reg Reg.CACHE_FORMAT p, d := dimOf (s.reg Reg.CACHE_DIM p)
    planes := (let k := s.reg Reg.CACHE_PLANES p; if k = 0 then 4096 else k)
    headroom := BitVec.ofNat 32 (s.reg Reg.CACHE_HEADROOM p)
    first := f, stop := min (f + (if n = 0 then 65536 else n)) 65536
    desc := at_ Reg.CACHE_DESC_BASE_LO Reg.CACHE_DESC_BASE_HI 6
    ft := at_ Reg.CACHE_FT_BASE_LO Reg.CACHE_FT_BASE_HI 3
    frame := at_ Reg.CACHE_FRAME_BASE_LO Reg.CACHE_FRAME_BASE_HI 6
    frames := min (s.reg Reg.CACHE_FRAME_COUNT p) 0xFFFFFFFE
    node := at_ Reg.CACHE_NODE_BASE_LO Reg.CACHE_NODE_BASE_HI 12
    nodes := s.reg Reg.CACHE_NODE_COUNT p
    cow := s.flag Reg.CACHE_COW_ALWAYS p }

/-- Bits of a stored element. -/
def Pool.bits (x : Pool) : Nat := [16, 8, 8, 4].getD x.fmt 16
/-- E of Table 8.1. -/
def Pool.eBytes (x : Pool) : Nat := 2 * x.d * x.bits
/-- S of Table 8.1. -/
def Pool.sBytes (x : Pool) : Nat := if 2 ≤ x.fmt then (16 * (x.d / 32) + 63) / 64 * 64 else 0
/-- PAGE_BYTES. -/
def Pool.pageBytes (x : Pool) : Nat := 2 * x.eBytes + 2 * x.sBytes + 64
/-- Address of a page of a frame. -/
def Pool.pageAt (x : Pool) (f plane : Nat) : Nat := x.frame + (f * x.planes + plane) * x.pageBytes
/-- Address of a half of a page: 0 K, 1 V. -/
def Pool.halfAt (x : Pool) (f plane half : Nat) : Nat := x.pageAt f plane + half * (x.eBytes + x.sBytes)
/-- Bytes of a row's elements. -/
def Pool.rowBytes (x : Pool) : Nat := x.eBytes / 16
/-- Bytes of a row's scales. -/
def Pool.rowScales (x : Pool) : Nat := if 2 ≤ x.fmt then x.d / 32 else 0
/-- Address of a row's elements. -/
def Pool.rowAt (x : Pool) (f plane half q : Nat) : Nat := x.halfAt f plane half + q % 16 * x.rowBytes
/-- Address of a row's scales. -/
def Pool.rowScaleAt (x : Pool) (f plane half q : Nat) : Nat := x.halfAt f plane half + x.eBytes + q % 16 * x.rowScales
/-- Address of a page trailer. -/
def Pool.trailerAt (x : Pool) (f plane : Nat) : Nat := x.pageAt f plane + 2 * x.eBytes + 2 * x.sBytes
/-- Address of a descriptor. -/
def Pool.descAt (x : Pool) (seq : Nat) : Nat := x.desc + (seq - x.first) * 64
/-- Address of a frame-table entry. -/
def Pool.fteAt (x : Pool) (f : Nat) : Nat := x.ft + 8 * f
/-- Address of entry `i` of a node. -/
def Pool.entryAt (x : Pool) (n i : Nat) : Nat := x.node + n * 4096 + 8 * i
/-- A pool's range holds a sequence. -/
def Pool.holds (x : Pool) (seq : Nat) : Bool := decide (x.first ≤ seq) && decide (seq < x.stop)

/-- The tenancy's enabled pool that holds a sequence, or the status that says why there is none (Table 8.10). -/
def State.poolOf (s : State) (t seq : Nat) : Except Nat Nat :=
  let own := (List.range 16).filter (fun p => s.reg Reg.CACHE_OWNER p == t && (s.pool p).holds seq)
  match own.find? (fun p => s.flag Reg.CACHE_EN p) with
  | some p => .ok p
  | none => .error (if own.isEmpty then 0x31 else 0x30)

/-! ### Structures (Tables 8.4 to 8.8) -/

/-- A sequence descriptor. -/
structure Dsc where
  live : Bool := false
  sat : Bool := false
  nonfin : Bool := false
  pool : Nat := 0
  len : Nat := 0
  wtop : Nat := 0
  dlen : Nat := 0
  dir : Nat := 0
  pages : Nat := 0
  origin : Nat := 0
  forked : Bool := false
  originLen : Nat := 0
  seqno : Nat := 0
  sub : Nat := 0
  tag : Nat := 0
deriving DecidableEq, Repr

/-- The descriptor that 64 bytes spell. -/
def Dsc.ofNat (v : Nat) : Dsc :=
  let f := fun (off msb lsb : Nat) => bitsOf v (8 * off + msb) (8 * off + lsb)
  { live := f 0 1 0 == 1, sat := bitOf v 2, nonfin := bitOf v 3, pool := f 0 7 4, len := f 4 21 0, wtop := f 8 21 0
    dlen := f 0xC 4 0, dir := f 0x10 31 0, pages := f 0x14 17 0, origin := f 0x18 15 0, forked := bitOf v (8 * 0x18 + 16)
    originLen := f 0x1C 21 0, seqno := f 0x20 47 0, sub := f 0x26 15 0, tag := f 0x38 31 0 }

/-- The 64 bytes of a descriptor, reserved bits 0. -/
def Dsc.bytes (d : Dsc) : List Byte :=
  leBytes 4 (natOfBool d.live + 4 * natOfBool d.sat + 8 * natOfBool d.nonfin + 16 * d.pool) ++ leBytes 4 d.len ++
  leBytes 4 d.wtop ++ leBytes 4 d.dlen ++ leBytes 4 d.dir ++ leBytes 4 d.pages ++
  leBytes 4 (d.origin + 2 ^ 16 * natOfBool d.forked) ++ leBytes 4 d.originLen ++ leBytes 6 d.seqno ++ leBytes 2 d.sub ++
  leBytes 16 0 ++ leBytes 4 d.tag ++ leBytes 4 0

/-- A frame-table entry. -/
structure Fte where
  refcnt : Nat
  fstate : Nat
  fenced : Bool
  next : Nat
deriving DecidableEq, Repr

def Fte.ofNat (v : Nat) : Fte :=
  { refcnt := bitsOf v 15 0, fstate := bitsOf v 17 16, fenced := bitOf v 18, next := bitsOf v 63 32 }
def Fte.toNat (e : Fte) : Nat := e.refcnt + 2 ^ 16 * e.fstate + 2 ^ 18 * natOfBool e.fenced + 2 ^ 32 * e.next

/-- A page trailer. -/
structure Trailer where
  isOpen : Bool := false
  satK : Bool := false
  satV : Bool := false
  nonfin : Bool := false
  scaleK : Word := one32
  scaleV : Word := one32
  amaxK : Word := 0
  amaxV : Word := 0
  plane : Nat
  seq : Nat
  page : Nat
deriving DecidableEq, Repr

def Trailer.ofNat (v : Nat) : Trailer :=
  let w := fun (off : Nat) => BitVec.ofNat 32 (v / 2 ^ (8 * off))
  { isOpen := bitOf v 0, satK := bitOf v 1, satV := bitOf v 2, nonfin := bitOf v 3, scaleK := w 4, scaleV := w 8
    amaxK := w 0xC, amaxV := w 0x10, plane := (w 0x14).toNat % 4096, seq := (w 0x18).toNat % 65536
    page := (w 0x1C).toNat % 2 ^ 17 }
def Trailer.bytes (x : Trailer) : List Byte :=
  leBytes 4 (natOfBool x.isOpen + 2 * natOfBool x.satK + 4 * natOfBool x.satV + 8 * natOfBool x.nonfin) ++
  leBytes 4 x.scaleK.toNat ++ leBytes 4 x.scaleV.toNat ++ leBytes 4 x.amaxK.toNat ++ leBytes 4 x.amaxV.toNat ++
  leBytes 4 x.plane ++ leBytes 4 x.seq ++ leBytes 4 x.page ++ leBytes 32 0

/-! ### Walks and snapshots (R205) -/

/-- What a walk for a page finds: (0, frame), or a WF_REASON of Table 8.13: 1 window, 2 node out of range, 3 frame out of
range, 4 invalid entry. -/
def State.walkPage (s : State) (x : Pool) (dir n : Nat) : Nat × Nat :=
  let da := x.entryAt dir (n / 512)
  if x.nodes ≤ dir then (2, 0)
  else if !s.spanInWindow x.t da 8 then (1, 0)
  else
    let de := s.memLe da 8
    if !bitOf de 0 then (4, 0)
    else if x.nodes ≤ de / 2 ^ 32 then (2, 0)
    else
      let la := x.entryAt (de / 2 ^ 32) (n % 512)
      if !s.spanInWindow x.t la 8 then (1, 0)
      else
        let le := s.memLe la 8
        if !bitOf le 0 then (4, 0) else if x.frames ≤ le / 2 ^ 32 then (3, 0) else (0, le / 2 ^ 32)

/-- The snapshot the dispatcher takes of a sequence for a task, or the status that ends the command (R205). -/
def State.snapshot (s : State) (t seq : Nat) : Except Nat Snap :=
  match s.poolOf t seq with
  | .error _ => .error 0x31
  | .ok p =>
    let x := s.pool p
    if !s.domOn domKVC then .error 0x31
    else if !s.spanInWindow x.t (x.descAt seq) 64 then .error 0x38
    else
      let d := Dsc.ofNat (s.memLe (x.descAt seq) 64)
      if d.live then
        .ok { seq := seq, pool := p, len := d.len, wtop := d.wtop, dlen := d.dlen
              dir := d.dir, pages := (List.range ((d.wtop + 15) / 16)).map (s.walkPage x d.dir) }
      else .ok { seq := seq, pool := p, len := 0, wtop := 0, dlen := 0 }

/-- The frame a snapshot gives a page, if the page is not the null page. -/
def Snap.frame (x : Snap) (n : Nat) : Option Nat :=
  match x.pages[n]? with
  | some (0, f) => some f
  | _ => none

/-- Event bits of the CACHE page. -/
def evCmdErr : Nat := 0
def evSaturated : Nat := 1
def evLowFrames : Nat := 2
def evInitDone : Nat := 3
def evPoolOverlap : Nat := 4

/-- Records a walk fault (Table 8.13); the record is held until cleared. -/
def State.walkFault (s : State) (t seq page reason : Nat) : State :=
  let s := if s.flag Reg.WALK_WF_VALID then s
    else (((s.setReg Reg.WALK_WF_SEQ 0 seq).setReg Reg.WALK_WF_REASON 0 reason).setReg Reg.WALK_WF_PAGE 0 page).setReg
      Reg.WALK_WF_VALID 0 1
  s.raise pgWALK 0 (some t)

/-- Sets and ways of the second level, and translations of one pigeonhole buffer (R205). -/
def secondSets : Nat := 1024
def secondWays : Nat := 8
def pigeonDepth : Nat := 32

/-- The set of the second level that holds a translation (DESIGN CHOICE, log 49: the spec gives no index function). -/
def secondSet (e : Nat × Nat × Nat × Nat) : Nat := (e.2.1 + e.2.2.1) % secondSets

/-- A list of translations of limited length with an entry put last, the oldest leaving first. -/
def lruPut (n : Nat) (l : List (Nat × Nat × Nat × Nat)) (e : Nat × Nat × Nat × Nat) : List (Nat × Nat × Nat × Nat) :=
  let l := l.filter (fun x => x != e) ++ [e]
  l.drop (l.length - n)

/-- The second level with an entry put last in its set, the oldest of that set leaving first. -/
def secondPut (l : List (Nat × Nat × Nat × Nat)) (e : Nat × Nat × Nat × Nat) : List (Nat × Nat × Nat × Nat) :=
  l.filter (fun x => secondSet x != secondSet e) ++ lruPut secondWays (l.filter (fun x => secondSet x == secondSet e)) e

/-- A list of translations holds one for a page. -/
def lruFind (l : List (Nat × Nat × Nat × Nat)) (t seq page : Nat) : Option (Nat × Nat × Nat × Nat) :=
  l.find? (fun x => x.1 == t && x.2.1 == seq && x.2.2.1 == page)

/-- Puts a translation into an array's pigeonhole buffer. -/
def State.installPigeon (s : State) (a : Nat) (e : Nat × Nat × Nat × Nat) : State :=
  s.onArr a fun A => { A with pigeon := lruPut pigeonDepth A.pigeon e }

/-- The addresses that are read for a page's entry: the directory entry and, where that names a leaf, the entry there. -/
def State.entryReads (s : State) (P : Pool) (dir page : Nat) : List Nat :=
  let da := P.entryAt dir (page / 512)
  if P.nodes ≤ dir || !s.spanInWindow P.t da 8 then []
  else
    let de := s.memLe da 8
    let la := P.entryAt (de / 2 ^ 32) (page % 512)
    if !bitOf de 0 || P.nodes ≤ de / 2 ^ 32 || !s.spanInWindow P.t la 8 then [da] else [da, la]

/-- The addresses that a walk reads. -/
def State.walkReads (s : State) (x : Snap) (page : Nat) : List Nat := s.entryReads (s.pool x.pool) x.dir page

/-- What a walk reads is counted and charged (R205, R345). -/
def State.chargeWalk (s : State) (t : Nat) (x : Snap) (page : Nat) : State :=
  (s.walkReads x page).foldl (fun (s : State) a => s.chargeRead t a 8) s

/-- A walk: the directory entry and the leaf line; all eight valid translations of the line are installed in the second
level (R205). Gives what the page's own entry holds. -/
def State.walk (s : State) (t : Nat) (x : Snap) (page : Nat) : (Nat × Nat) × State :=
  let line := (List.range 8).map (fun i => page / 8 * 8 + i)
  let s := (s.bump Reg.WALK_WALK_CNT).chargeWalk t x page
  let s := line.foldl (fun (s : State) n => match x.frame n with
    | some f => { s with cache := { s.cache with second := secondPut s.cache.second (t, x.seq, n, f) } }
    | none => s) s
  ((x.pages[page]?).getD (4, 0), s)

/-- A second-level lookup for a page below the written top: a hit, or a miss that walks (R205). -/
def State.secondLevel (s : State) (a t : Nat) (x : Snap) (page : Nat) : State :=
  match lruFind s.cache.second t x.seq page with
  | some e => (s.bump Reg.WALK_SL_HIT).installPigeon a e
  | none =>
    let r := (s.bump Reg.WALK_SL_MISS).walk t x page
    if r.1.1 = 0 then r.2.installPigeon a (t, x.seq, page, r.1.2)
    else (r.2.walkFault t x.seq page r.1.1).bump Reg.WALK_NULL_READS

/-- The stream of an array uses a translation for the first time, or a vendor task does: the page after it is wanted (R205). -/
def State.wantsNext (s : State) (a t : Nat) (x : Snap) (page : Nat) : Bool :=
  s.flag Reg.WALK_PREFETCH && decide (page + 1 < (x.wtop + 15) / 16) &&
    (lruFind (s.arr a).pigeon t x.seq (page + 1)).isNone && (x.frame (page + 1)).isSome

/-- A page has been used; it is not ahead of its stream any more. -/
def State.usedPage (s : State) (a t : Nat) (x : Snap) (page : Nat) : State :=
  s.onArr a fun A => { A with ahead := A.ahead.filter (fun k => k != (t, x.seq, page)) }

/-- The prefetch of the page after one that a vendor task uses for the first time (R205). -/
def State.prefetch (s : State) (a t : Nat) (x : Snap) (page : Nat) : State :=
  let s := s.usedPage a t x page
  if s.wantsNext a t x page then
    (s.secondLevel a t x (page + 1)).onArr a fun A => { A with ahead := A.ahead ++ [(t, x.seq, page + 1)] }
  else s

/-- Translation of a page for a vendor task, whose walks end within its row (log 8); the first use of a page, prefetched or not,
prefetches the next (R205). -/
def State.translate (s : State) (a t : Nat) (x : Snap) (page : Nat) : State :=
  if (x.wtop + 15) / 16 ≤ page then s.bump Reg.WALK_NULL_READS
  else match lruFind (s.arr a).pigeon t x.seq page with
    | some e =>
      let s := s.installPigeon a e
      if (s.arr a).ahead.contains (t, x.seq, page) then s.prefetch a t x page else s
    | none => ((s.bump Reg.WALK_PH_MISS).secondLevel a t x page).prefetch a t x page

/-! ### Walks in flight (R205, R225) -/

/-- Walks that may be in flight (Table 8.14). -/
def State.walkLimit (s : State) : Nat := max 1 (min (s.reg Reg.WALK_WALK_LIMIT) 64)

/-- A walk for a page is in flight. -/
def State.walking (s : State) (t seq page : Nat) : Bool :=
  s.cache.walks.any (fun w => w.ten == t && w.snap.seq == seq && w.page == page)

/-- A second-level miss starts a walk for an array, if fewer than the limit are in flight and none is for the page. -/
def State.startWalk (s : State) (a t : Nat) (x : Snap) (page : Nat) : State :=
  if s.walking t x.seq page || decide (s.walkLimit ≤ s.cache.walks.length) then s
  else
    let s := s.bump Reg.WALK_SL_MISS
    { s with cache := { s.cache with walks := s.cache.walks ++ [{ arr := a, rid := (s.arr a).task.getD 0, ten := t, snap := x, page := page }] } }

/-- The prefetch of the page after one that a stream uses for the first time: a second-level hit is put ahead of the stream, and a miss
starts a walk (R205). -/
def State.prefetchNext (s : State) (a t : Nat) (x : Snap) (page : Nat) : State :=
  let s := s.usedPage a t x page
  if s.wantsNext a t x page then
    match lruFind s.cache.second t x.seq (page + 1) with
    | some e => ((s.bump Reg.WALK_SL_HIT).installPigeon a e).onArr a fun A => { A with ahead := A.ahead ++ [(t, x.seq, page + 1)] }
    | none => s.startWalk a t x (page + 1)
  else s

/-- Translation of a page for an array's stream (R205). The second component says that the stream may read: a page that misses both
levels waits for its walk. -/
def State.seek (s : State) (a t : Nat) (x : Snap) (page : Nat) : State × Bool :=
  let key := (t, x.seq, page)
  if (x.wtop + 15) / 16 ≤ page then (s.bump Reg.WALK_NULL_READS, true)
  else match lruFind (s.arr a).pigeon t x.seq page with
    | some e =>
      let s := s.installPigeon a e
      (if (s.arr a).ahead.contains key then s.prefetchNext a t x page else s, true)
    | none =>
      if (s.arr a).missed.contains key then
        ((s.bump Reg.WALK_NULL_READS).onArr a fun A => { A with missed := A.missed.filter (fun k => k != key) }, true)
      else match lruFind s.cache.second t x.seq page with
        | some e => ((((s.bump Reg.WALK_PH_MISS).bump Reg.WALK_SL_HIT).installPigeon a e).prefetchNext a t x page, true)
        | none =>
          let u := s.startWalk a t x page
          (if u.cache.walks.length = s.cache.walks.length then u else u.bump Reg.WALK_PH_MISS, false)

/-- The array of a walk still runs the task that it serves. -/
def State.walkLive (s : State) (w : Walk) : Bool := (s.arr w.arr).task == some w.rid

/-- A walk whose reads are answered ends: its translations are installed, and the page is at hand for the stream that waits; a page
without a frame is a walk fault, and the stream reads the null page (R205). -/
def State.endWalk (s : State) (w : Walk) : State :=
  let key := (w.ten, w.snap.seq, w.page)
  let r := s.walk w.ten w.snap w.page
  if r.1.1 = 0 then
    if s.walkLive w then
      (r.2.installPigeon w.arr (w.ten, w.snap.seq, w.page, r.1.2)).onArr w.arr fun A =>
        { A with ahead := A.ahead.filter (fun k => k != key) ++ [key] }
    else r.2
  else
    let u := r.2.walkFault w.ten w.snap.seq w.page r.1.1
    if s.walkLive w then u.onArr w.arr fun A => { A with missed := A.missed ++ [key] } else u

/-- A walk leaves those in flight, with the answer to its reads: an error is recorded, and fails the check of class MEMORY of the task
that it serves (R335). -/
def State.finishWalk (s : State) (w : Walk) (ans : PortAnswer) : State :=
  let s := { s with cache := { s.cache with walks := removeFirst (fun v => decide (v = w)) s.cache.walks } }
  let inj := s.walkLive w && s.injected w.arr 7
  let s := if inj then s.setReg Reg.FAULT_INJ_ARM 0 0 else s
  match answered (if inj then .error { k := 0, status := 3, late := false } else ans) (s.walkReads w.snap w.page) with
  | some (x, e) =>
    let s := ((s.bump Reg.WALK_WALK_CNT).chargeWalk w.ten w.snap w.page).unitError w.ten x 0 e
    if s.walkLive w then s.failNow w.arr 7 (x % 2 ^ 48 + errCode e * 2 ^ 48) else s
  | none => s.endWalk w

/-- Drops the translations of pages of a sequence from every buffer (R206). -/
def State.invalidate (s : State) (t seq : Nat) (pages : List Nat) : State :=
  let keep := fun (l : List (Nat × Nat × Nat × Nat)) =>
    l.filter (fun e => !(e.1 == t && e.2.1 == seq && pages.contains e.2.2.1))
  { s with
    cache := { s.cache with second := keep s.cache.second }
    arrs := (s.arrs.map (fun e => (e.1, { e.2 with pigeon := keep e.2.pigeon }))).filter (fun e => decide (e.2 ≠ {})) }

/-! ### Draft rows rewritten under a task (R223, R235) -/

/-- Marks positions of a sequence as rewritten in the snapshots of the tasks that have not ended, or of the verify tasks among them
(R223, R235). -/
def State.markStale (s : State) (p seq : Nat) (verify : Bool) (m : Nat × Nat × Nat × Nat) : State :=
  let mark := fun (x : Snap) => if x.pool = p ∧ x.seq = seq then { x with stale := x.stale ++ [m] } else x
  let f := fun (t : Task) => if verify && !t.verify then t else { t with snaps := t.snaps.map mark }
  s.onDisp fun d => { d with tasks := d.tasks.map (fun e => (e.1, e.2.map f)) }

/-- A draft element that the snapshot's task reads may have been rewritten since the task was dispatched (R223, R235). -/
def Snap.rewritten (x : Snap) (plane q : Nat) : Bool :=
  decide (x.len ≤ q) && x.stale.any (fun m => decide (m.1 ≤ plane) && decide (plane < m.1 + m.2.1) && decide (m.2.2.1 ≤ q) &&
    decide (q < m.2.2.1 + m.2.2.2))

/-! ### Rows of a cache source (R205) -/

/-- A byte of memory as a tenancy reads it: +0 outside its windows (R342). -/
def State.seenByte (s : State) (t a : Nat) : Byte := if s.inWindow t (a % 2 ^ 48) then s.mem.byte (a % 2 ^ 48) else 0
/-- Bytes of memory as a tenancy reads them. -/
def State.seen (s : State) (t a n : Nat) : List Byte := (List.range n).map (fun i => s.seenByte t (a + i))
/-- A little-endian number so read. -/
def State.seenLe (s : State) (t a n : Nat) : Nat := leNat (s.seen t a n)

/-- Codes and scales of the row at a position of a plane, as the pool's tenancy reads them (R342): `none` scale codes for BF16, the
page's FP32 scale for page-scaled FP8, E8M0 codes for MX. The last component says that the null page was read. The codes of a
rewritten draft row, and its own scales, are free. -/
def State.cacheRow (s : State) (x : Snap) (plane half q : Nat) : List Nat × List Nat × Bool :=
  let P := s.pool x.pool
  let nullRow := (List.replicate P.d 0, if P.fmt = 1 then [one32.toNat] else List.replicate P.rowScales 0, true)
  if x.wtop ≤ q then nullRow
  else match x.frame (q / 16) with
    | none => nullRow
    | some f =>
      let open_ := fun (i : Nat) => Config.draftCode s.freeCtr plane (2 * q + half) i
      let codes := if x.rewritten plane q then (List.range P.d).map (fun i => open_ i % 2 ^ P.bits)
        else unpackCodes P.bits P.d (s.seen P.t (P.rowAt f plane half q) P.rowBytes)
      let scales :=
        if P.fmt = 1 then [s.seenLe P.t (P.trailerAt f plane + 4 + 4 * half) 4]
        else if x.rewritten plane q then (List.range P.rowScales).map (fun i => open_ (P.d + i) % 256)
        else (s.seen P.t (P.rowScaleAt f plane half q) P.rowScales).map BitVec.toNat
      (codes, scales, false)

/-! ### Fences (R220) -/

/-- Changes a pool's counter field. -/
def State.addReg (s : State) (f : FieldSpec) (p n : Nat) : State := s.setReg f p (s.reg f p + n)
def State.subReg (s : State) (f : FieldSpec) (p n : Nat) : State := s.setReg f p (s.reg f p - n)

/-- A pool's frames with a fence pending. -/
def State.fencedFrames (s : State) (p : Nat) : List Nat :=
  ((s.cache.fences.filter (fun f => f.pool == p)).map (·.frame)).eraseDups

/-- A frame's last fence passes: FENCED clears, and a RETIRING frame goes to the head of the free list. An entry outside the
owner's windows is not reached (R199). -/
def State.passFrame (s : State) (x : Pool) (f : Nat) : State :=
  if !s.spanInWindow x.t (x.fteAt f) 8 then s
  else
    let e := Fte.ofNat (s.memLe (x.fteAt f) 8)
    let s := s.chargeRead x.t (x.fteAt f) 8
    if e.fstate = 2 then
      let s := s.unitWrite x.t (x.fteAt f) (leBytes 8 (Fte.toNat { refcnt := 0, fstate := 0, fenced := false, next := s.reg Reg.CACHE_FREE_HEAD x.p }))
      ((s.setReg Reg.CACHE_FREE_HEAD x.p f).addReg Reg.CACHE_FREE_FRAMES x.p 1).subReg Reg.CACHE_RETIRING x.p 1
    else s.unitWrite x.t (x.fteAt f) (leBytes 8 (Fte.toNat { e with fenced := false }))

/-- Raises LOW_FRAMES when the count of free frames has fallen below the mark (Table 8.11). -/
def State.lowFrames (s : State) (p before : Nat) : State :=
  let m := s.reg Reg.CACHE_LOW_MARK p
  if m ≠ 0 ∧ s.reg Reg.CACHE_FREE_FRAMES p < m ∧ m ≤ before then s.raise pgCACHE evLowFrames (some (s.reg Reg.CACHE_OWNER p))
  else s

/-- Passes the fences that wait for nothing any more (R220). -/
def State.passFences (s : State) : State :=
  let finished := s.cache.fences.filter (fun f => f.waits.isEmpty)
  let left := s.cache.fences.filter (fun f => !f.waits.isEmpty)
  let passed := (finished.map (fun f => (f.pool, f.frame))).eraseDups.filter
    (fun k => !left.any (fun f => f.pool == k.1 && f.frame == k.2))
  passed.foldl (fun s k => s.passFrame (s.pool k.1) k.2) { s with cache := { s.cache with fences := left } }

/-- A task has ended for good: the fences that waited for it wait no more (R220). -/
def State.fenceTaskEnd (s : State) (rid : Nat) : State :=
  let l := s.cache.fences.map (fun f => { f with waits := f.waits.filter (fun r => r != rid) })
  ({ s with cache := { s.cache with fences := l } }).passFences

end Sys2Proof.Machine
end

