-- ==== Sys2Proof/Machine/MemTxn.lean ====
section
/-! DEFINITION. Memory-port transactions: their effects, delivery, staging and errors (spec/13_memory_port.md R320 to R336). -/
namespace Sys2Proof.Machine

/-- Adds FP32 elements to memory, one rounding each (R327). -/
def addF32 (m : Memory) (a : Nat) (bs : List Byte) : Memory :=
  (List.range (bs.length / 4)).foldl (fun (m : Memory) i =>
    let v := BitVec.ofNat 32 (leNat ((bs.drop (4 * i)).take 4))
    m.putLe (a + 4 * i) 4 (fadd (BitVec.ofNat 32 (m.le (a + 4 * i) 4)) v).toNat) m

/-- The effect of an accepted write or atomic add on memory. -/
def Txn.apply (t : Txn) (m : Memory) : Memory :=
  match t.kind with
  | 1 => m.putBytes t.addr t.data
  | 2 => addF32 m t.addr t.data
  | _ => m

/-- A transaction with its effect on memory: a READ takes the bytes it finds, after the adds of its own engine before it that memory does
not have yet. -/
def Txn.perform (t : Txn) (adds : List Contribution) (m : Memory) : Memory × Txn :=
  if t.done then (m, t)
  else if t.kind = 0 then
    (m, { t with done := true, data := (adds.foldl (fun (m : Memory) c => addF32 m c.addr c.data) m).bytes t.addr t.size })
  else (t.apply m, { t with done := true })

/-- The staged contributions that a read of a stream engine follows, in their order: those of an earlier MOVE of that engine, of
its task or of one that has sealed, to a line that it reads (R324). -/
def Txn.follows (t : Txn) (l : List Contribution) : List Contribution :=
  l.filter (fun c => t.owner.ofEngine c.arr c.eng && (c.ready || decide (c.no < t.no)) && decide (c.addr < t.addr + t.size) &&
    decide (t.addr < c.addr + c.data.length))

/-- The add of a contribution is among some transactions that have been carried out. -/
def Contribution.reached (c : Contribution) (l : List (Nat × Txn)) : Bool :=
  l.any (fun o => o.2.done && o.2.kind == 2 && o.2.no == c.order)

/-- Carries out the transactions of a channel up to a tag, in the order in which they reached it (R324, R327; log 15); the writes before
each note what it writes, and `held` are the staged contributions. -/
def runTxns (held : List Contribution) (tag : Nat) (m : Memory) (pre l : List (Nat × Txn)) : Memory × List (Nat × Txn) :=
  match l with
  | [] => (m, pre)
  | (g, t) :: r =>
    let x := t.perform ((t.follows held).filter (fun c => !c.reached pre)) m
    let seen := (if t.done || t.kind != 1 then pre else pre.map (fun o => (o.1, o.2.overwritten t.addr t.size))) ++ [(g, x.2)]
    if g = tag then (x.1, seen ++ r) else runTxns held tag x.1 seen r

/-- The same in the state. -/
def State.carryOut (s : State) (c tag : Nat) : State :=
  let r := runTxns s.mport.staged tag s.mem [] (s.chan c).out
  { s with mem := r.1 }.setChan c { s.chan c with out := r.2 }

/-! ### Delivery of read bytes -/

/-- Writes 16-bit codes into a matrix-vector input slot at a byte offset (R104). -/
def MatVec.putSlot (m : MatVec) (slot off : Nat) (bs : List Byte) : MatVec :=
  { m with slots := Tbl.setMany 0 m.slots (slot * 256 + off / 2) ((unpackCodes 16 (bs.length / 2) bs).map (BitVec.ofNat 16)) }

/-- Puts the codes of a scaled cache row into an input slot, from an element on; they are expanded when the slot is filled (R104). -/
def MatVec.putCodes (m : MatVec) (slot elem bits : Nat) (bs : List Byte) : MatVec :=
  let codes := (unpackCodes bits (8 * bs.length / bits) bs).map (BitVec.ofNat 16)
  { m with slots := Tbl.setMany 0 m.slots (slot * 256 + elem) (codes.take (256 - elem)) }

/-- An E8M0 code as the FP32 pattern of its value (R48). -/
def e8m0Word (c : Nat) : Word := rne32 (e8m0 c)

/-- Scales of the codes of an input slot arrive, from byte `off` on: the page's FP32 scale, which every group of 32 has, or one E8M0
code a group. -/
def MatVec.putScales (m : MatVec) (slot off : Nat) (page : Bool) (bs : List Byte) : MatVec :=
  let l := if page then List.replicate 8 (BitVec.ofNat 32 (leNat bs)) else bs.map (fun b => e8m0Word b.toNat)
  { m with scales := Tbl.setMany 0 m.scales (slot * 8 + (if page then 0 else off)) l }

/-- Expands the codes in a slot that is filled into BF16 elements, each the product of its code and its scale, rounded once (R59, R104). -/
def MatVec.expandSlot (m : MatVec) (slot : Nat) : MatVec :=
  let x := Tbl.get (0, 0) m.expand slot
  if x.1 = 0 then m
  else
    let fmt := if x.1 = 4 then e2m1 else e4m3
    let vals := (List.range x.2).map (fun i => BitVec.ofNat 16 (bf16.round
      ((fmt.decode (Tbl.get 0 m.slots (slot * 256 + i)).toNat).mul (val32 (Tbl.get 0 m.scales (slot * 8 + i / 32))))))
    { m with slots := Tbl.setMany 0 m.slots (slot * 256) vals, expand := Tbl.set (0, 0) m.expand slot (0, 0) }

/-- One arrival of a slot being filled; the slot is filled at the last one. -/
def arrive (filling : List (Nat × Nat)) (filled : List Nat) (slot : Nat) : List (Nat × Nat) × List Nat :=
  match filling.find? (fun f => f.1 == slot) with
  | some (_, n) =>
    if n ≤ 1 then (filling.filter (fun f => f.1 != slot), if filled.contains slot then filled else filled ++ [slot])
    else (filling.map (fun f => if f.1 == slot then (slot, n - 1) else f), filled)
  | none => (filling, filled)

/-- One arrival at an input slot, which expands the codes it may hold when it is filled. -/
def MatVec.arriveAt (m : MatVec) (slot : Nat) : MatVec :=
  let r := arrive m.filling m.filled slot
  let m' := { m with filling := r.1, filled := r.2 }
  if r.2.contains slot && !m.filled.contains slot then m'.expandSlot slot else m'

/-- The transactions of a memory range in ascending address: (address, size), 256-byte blocks covered whole, else lines (R322). -/
def cutRange (fuel a stop : Nat) : List (Nat × Nat) :=
  match fuel with
  | 0 => []
  | n + 1 =>
    if stop ≤ a then []
    else if a % 256 = 0 ∧ a + 256 ≤ stop then (a, 256) :: cutRange n (a + 256) stop
    else (a, 64) :: cutRange n (a + 64) stop

/-- The bytes of `bs`, which stand at `dst`, laid over those of a range of memory addresses. -/
def overlay (addr : Nat) (data : List Byte) (dst : Nat) (bs : List Byte) : List Byte :=
  (List.range data.length).map (fun i =>
    if dst ≤ addr + i ∧ addr + i < dst + bs.length then bs.getD (addr + i - dst) 0 else data.getD i 0)

/-- Bytes arrive in an array store, in an access of its banks in the present beat (R90). -/
def State.storeArrival (s : State) (a addr : Nat) (bs : List Byte) : State :=
  s.onArr a fun A =>
    let B := A.save addr bs
    { B with seq := { B.seq with touched := B.seq.touched ++ unitsOf (addr % 2 ^ 20) bs.length } }

/-- Bytes of an offload MOVE reach its waiting write: those that belong to it are laid over, and it needs so many fewer (R332). -/
def Txn.fill (t : Txn) (addr : Nat) (bs : List Byte) : Txn :=
  let lo := max addr t.addr
  let hi := min (addr + bs.length) (t.addr + t.size)
  if t.need = 0 ∨ hi ≤ lo then t else { t with data := overlay t.addr t.data addr bs, need := t.need - (hi - lo) }

/-- Bytes of MOVE `no` of an owner reach its waiting writes, which go when they have all theirs (R324, R332). -/
def State.fillWrites (s : State) (o : TxnOwner) (no addr : Nat) (bs : List Byte) : State :=
  let f := fun (t : Txn) =>
    if t.owner = o ∧ t.no = no then (t.fill addr bs).fill 0 (bs.drop (2 ^ 48 - addr)) else t
  (List.range 16).foldl (fun (s : State) c => s.pumpChan pumpFuel c)
    { s with mport := { s.mport with chans := s.mport.chans.map (fun e => (e.1, { e.2 with wait := e.2.wait.map f })) } }

/-- Delivers read bytes to their destination (R291, R322); those of an array pass its engine's buffer, with a check (Table 15.1). -/
def State.deliverRead (s : State) (t : Txn) (all : List Byte) : State :=
  let bs := (all.drop t.skip).take t.keep
  match t.dst with
  | .none => s
  | .store a addr => (s.storeArrival a addr bs).checkUnit a 4
  | .staged base count dst =>
    { s with mport := { s.mport with staged := s.mport.staged.map (fun (c : Contribution) =>
        if base ≤ c.order ∧ c.order < base + count then { c with data := overlay c.addr c.data dst bs } else c) } }
  | .window a e slot addr =>
    ((s.storeArrival a addr bs).onArr a fun A =>
      let x := A.eng e
      let r := arrive x.filling x.filled slot
      A.setEng e { x with filling := r.1, filled := r.2 }).checkUnit a 4
  | .mvSlot a slot off => (s.onArr a fun A => { A with mv := (A.mv.putSlot slot off bs).arriveAt slot }).checkUnit a 4
  | .mvExp a slot elem bits => (s.onArr a fun A => { A with mv := (A.mv.putCodes slot elem bits bs).arriveAt slot }).checkUnit a 4
  | .mvScale a slot off page => (s.onArr a fun A => { A with mv := (A.mv.putScales slot off page bs).arriveAt slot }).checkUnit a 4
  | .shared addr => s.sharedWrite t.ten addr bs
  | .area order =>
    { s with mport := { s.mport with staged := s.mport.staged.map (fun (c : Contribution) =>
        if c.order = order then { c with reads := c.reads - 1 } else c) } }
  | .memory addr => s.fillWrites t.owner t.no addr bs

/-- An output of a command is noted: what it holds is unspecified if the command ends FAULTED (R363). -/
def State.noteOut (s : State) (rid : Nat) (shared : Bool) (a n : Nat) : State :=
  match s.task rid with
  | some k => s.onCmd k.cid fun c => { c with outs := c.outs ++ [(shared, a, n)] }
  | none => s

/-- The same of the task on an array. -/
def State.noteShared (s : State) (a addr n : Nat) : State :=
  match (s.arr a).task with
  | some r => s.noteOut r true addr n
  | none => s

/-- The output that a transaction of a task writes, if it writes one. -/
def Txn.output (t : Txn) (s : State) : State :=
  match t.owner, t.dst with
  | .task _ rid _, .shared a => s.noteOut rid true a t.keep
  | .task _ rid _, _ => if t.kind = 0 then s else s.noteOut rid false t.addr t.size
  | _, _ => s

/-- Issues a task's transaction, or delivers +0 and records the violation where it leaves the windows (R342). -/
def State.issueTxn (s : State) (t : Txn) : State :=
  let s := t.output s
  if s.spanInWindow t.ten t.addr t.size then s.submitTxn t
  else
    let s := s.violate t.ten t.addr (if t.kind = 0 then 0 else 1)
    if t.kind = 0 then s.deliverRead t (List.replicate t.size 0) else s

/-! ### Records -/

/-- A memory partner violation (Table 13.3). -/
def State.memViol (s : State) (reason c tag : Nat) : State :=
  let s := s.bump Reg.MPORT_VIOL_CNT
  let s := if s.flag Reg.MPORT_VIOL_VALID then s
    else (((s.setReg Reg.MPORT_VIOL_REASON 0 reason).setReg Reg.MPORT_VIOL_CH 0 c).setReg Reg.MPORT_VIOL_TAG 0 tag).setReg
      Reg.MPORT_VIOL_VALID 0 1
  s.raise pgMPORT evMemViol none

/-! ### Staging (R328) -/

/-- 64-byte units a staged contribution occupies. -/
def stagedUnits (n : Nat) : Nat := if n = 256 then 5 else 2

/-- Units a tenancy uses in the staging area, or in the overflow area. -/
def State.stagedUse (s : State) (t : Nat) (spilled : Bool) : Nat :=
  (s.mport.staged.filter (fun c => c.ten == t && c.spilled == spilled)).foldl (fun n c => n + stagedUnits c.data.length) 0

/-- Units of an area. -/
def State.stageRoom (s : State) (t : Nat) (spilled : Bool) : Nat :=
  1024 * (if spilled then s.reg Reg.MPORT_OVF_SIZE t else s.reg Reg.MPORT_STG_SIZE t)

/-- A contribution fits an area. -/
def State.stageFits (s : State) (t n : Nat) (spilled : Bool) : Bool :=
  decide (s.stagedUse t spilled + stagedUnits n ≤ s.stageRoom t spilled)

/-- The lowest `n` units of an area that no contribution of a tenancy occupies (log 39). -/
def State.freeUnits (s : State) (t n : Nat) (spilled : Bool) : List Nat :=
  let used := (s.mport.staged.filter (fun c => c.ten == t && c.spilled == spilled)).flatMap (·.units)
  ((List.range (used.length + n)).filter (fun u => !used.contains u)).take n

/-- A number above those of every staged contribution. -/
def State.nextOrder (s : State) : Nat := s.mport.staged.foldl (fun n c => max n (c.order + 1)) 0

/-- The transactions that move a contribution between the port and its units of the overflow area: 256-byte and 64-byte ones where
its units follow each other, else one a unit (R322). -/
def State.areaPieces (s : State) (t : Nat) (units : List Nat) : List (Nat × Nat) :=
  let base := s.reg Reg.MPORT_OVF_BASE_LO t / 4096 * 4096 + 2 ^ 32 * s.reg Reg.MPORT_OVF_BASE_HI t
  let u := units.headD 0
  (if units = (List.range units.length).map (u + ·) then cutRange 6 (base + 64 * u) (base + 64 * (u + units.length))
   else units.map (fun v => (base + 64 * v, 64))).filter (fun p => s.spanInWindow t p.1 p.2)

/-- A spill writes a contribution to the overflow area, in CLASS 2; how its bytes lie there is not stated, so they are free (R328;
log 39). -/
def State.spillWrite (s : State) (rid : Nat) (c : Contribution) : State :=
  let a := ((s.task rid).map (·.array)).getD 0
  (s.areaPieces c.ten c.units).foldl (fun (s : State) p =>
    (s.drew p.2).submitTxn { kind := 1, addr := p.1, size := p.2, ten := c.ten, cls := 2, owner := .task a rid 4
                             data := (List.range p.2).map (fun i => Config.freeByte (s.freeCtr + i)) }) s

/-- A contribution occupies its units of the shared-store staging area, where those lie in the tenancy's range; how its bytes lie there
is not stated, so they are free (R328, R342; log 39). -/
def State.stageWrite (s : State) (c : Contribution) : State :=
  c.units.foldl (fun (s : State) u =>
    let a := s.reg Reg.MPORT_STG_BASE c.ten / 64 * 64 + 64 * u
    if s.spanInShared c.ten a 64 then
      ({ s with shared := s.shared.putBytes a ((List.range 64).map (fun i => Config.freeByte (s.freeCtr + i))) }).drew 64
    else s) s

/-- Stages an atomic add of a task, of MOVE `no` of engine `e` (4: of a vendor task); `none` while both areas are full (R328). -/
def State.stageAdd (s : State) (cid rid t e no addr : Nat) (bs : List Byte) : Option State :=
  let idx := ((s.task rid).map (·.index)).getD 0
  let new := fun (sp : Bool) =>
    ({ cid := cid, rid := rid, order := s.nextOrder, ten := t, addr := addr, data := bs, spilled := sp, idx := idx
       arr := ((s.task rid).map (·.array)).getD 0, eng := e, no := no
       units := s.freeUnits t (stagedUnits bs.length) sp } : Contribution)
  let put := fun (c : Contribution) =>
    ({ s with mport := { s.mport with staged := s.mport.staged ++ [c] } } : State).onTask rid
      fun x => { x with staged := x.staged + 64 * stagedUnits bs.length }
  if s.stageFits t bs.length false then some ((put (new false)).stageWrite (new false))
  else if s.stageFits t bs.length true then
    let s' : State := (put (new true)).spillWrite rid (new true)
    some (if s'.stagedUse t true = s'.stageRoom t true then s'.raise pgMPORT evOvfFull (some t) else s')
  else none

/-- Changes a staged contribution. -/
def State.onStaged (s : State) (order : Nat) (f : Contribution → Contribution) : State :=
  { s with mport := { s.mport with staged := s.mport.staged.map (fun (x : Contribution) => if x.order == order then f x else x) } }

/-- Sends a contribution's atomic add. -/
def State.sendAdd (s : State) (c : Contribution) : State :=
  (s.onStaged c.order fun x => { x with released := true }).submitTxn
    { kind := 2, addr := c.addr, size := c.data.length, ten := c.ten, cls := 1, owner := .release c.cid, data := c.data, no := c.order }

/-- Sends the adds of a command whose release has been issued, each task's in its staging order: a spilled one once it has been
read back (R328, R329). -/
def State.sendReleased (s : State) (cid : Nat) : State :=
  ((s.mport.staged.filter (fun c => c.cid == cid && c.begun && !c.released)).foldl (fun (r : List Nat × State) c =>
    if r.1.contains c.idx then r
    else if c.reads ≠ 0 then (c.idx :: r.1, r.2)
    else (r.1, r.2.sendAdd c)) ([], s)).2

/-- The release of a contribution is issued: a spilled one is read back from the overflow area, in CLASS 2 (R328). -/
def State.beginRelease (s : State) (c : Contribution) : State :=
  let l := if c.spilled then s.areaPieces c.ten c.units else []
  l.foldl (fun (s : State) p =>
    s.submitTxn { kind := 0, addr := p.1, size := p.2, ten := c.ten, cls := 2, owner := .release c.cid, dst := .area c.order, no := c.order })
    (s.onStaged c.order fun x => { x with begun := true, reads := l.length })

/-- Issues the release of the eligible contributions of a task (R329). -/
def State.releaseTask (s : State) (cid idx : Nat) : State :=
  ((s.mport.staged.filter (fun c => c.cid == cid && c.idx == idx && c.ready && !c.begun)).foldl State.beginRelease s).sendReleased cid

/-- Inserts a pair in ascending order. -/
def insertPair (x : Nat × Nat) (l : List (Nat × Nat)) : List (Nat × Nat) :=
  match l with
  | [] => [x]
  | y :: r => if x.1 < y.1 ∨ (x.1 = y.1 ∧ x.2 < y.2) then x :: y :: r else if x = y then y :: r else y :: insertPair x r

/-- The sealed tasks of a tenancy whose contributions are still to be released, in release order (R329, R330). -/
def State.unreleased (s : State) (t : Nat) : List (Nat × Nat) :=
  (s.mport.staged.filter (fun c => c.ten == t && c.ready && !c.released)).foldl (fun l c => insertPair (c.cid, c.idx) l) []

/-- Releases the contributions of a tenancy's sealed tasks one task at a time, the next once every add of the one before has been sent. -/
def State.releaseAll (fuel : Nat) (s : State) (t : Nat) : State :=
  match fuel with
  | 0 => s
  | n + 1 =>
    if s.mport.staged.any (fun c => c.ten == t && c.begun && !c.released) then s
    else match s.unreleased t with
      | [] => s
      | x :: _ => (s.releaseTask x.1 x.2).releaseAll n t

/-- The same as far as it goes now; a tenancy reset releases them so (R330, R390). -/
def State.releaseOn (s : State) (t : Nat) : State := s.releaseAll (s.unreleased t).length t

/-- A tenancy reset that runs goes on releasing. -/
def State.releaseReset (s : State) : State :=
  match s.resets.ten with
  | some t => s.releaseOn t
  | none => s

/-- Makes the held posts that wait for nothing any more, in their order (R288, R325). -/
def State.duePosts (s : State) : State :=
  (s.mport.posts.filter (fun p => p.waits.isEmpty)).foldl (fun (s : State) p => s.postAndLand p.ten p.lb p.amount)
    { s with mport := { s.mport with posts := s.mport.posts.filter (fun p => !p.waits.isEmpty) } }

/-- Frees the staged contribution that a released transaction carried (R329), and makes the posts that waited for it. -/
def State.unstage (s : State) (no : Nat) : State :=
  ({ s with mport := { s.mport with
      staged := s.mport.staged.filter (fun c => c.order != no)
      posts := s.mport.posts.map (fun (p : HeldPost) => { p with waits := p.waits.filter (fun n => n != no) }) } }).duePosts

/-- The posts that wait for an add whose response is an error are not made: it is never accepted (R325). -/
def State.losePosts (s : State) (no : Nat) : State :=
  { s with mport := { s.mport with posts := s.mport.posts.filter (fun p => !p.waits.contains no) } }

/-- A sealed task's contributions become eligible for release (R358). -/
def State.stageReady (s : State) (rid : Nat) : State :=
  { s with mport := { s.mport with
      staged := s.mport.staged.map (fun (c : Contribution) => if c.rid == rid then { c with ready := true } else c)
      posts := s.mport.posts.map (fun (p : HeldPost) => if p.rid == rid then { p with kept := true } else p) } }

/-- The transactions of a task that have no response yet and satisfy `p`. -/
def State.outstanding (s : State) (p : Txn → Bool) : Bool :=
  s.mport.chans.any (fun e => e.2.wait.any p || e.2.out.any (fun o => p o.2))

/-- A task of an array still has writes without a response. -/
def State.writesOut (s : State) (a : Nat) : Bool :=
  s.outstanding (fun t => t.owner.ofArray a &&
    (t.kind != 0 || (match t.dst with | .memory _ => true | .shared _ => true | .staged _ _ _ => true | _ => false)))

end Sys2Proof.Machine
end

