-- ==== Sys2Proof/Machine/Slots.lean ====
section
/-! DEFINITION. The encodings of the slots of a bundle (spec/10_instructions.md R236 to R254): the operation a slot word starts, the
word that spells an operation, and what each operation reads and writes for audit and hold mode. -/
namespace Sys2Proof.Machine

/-- The parts of a bundle in issue order: 0 stream, 1 feeder A, 2 feeder B, 3 product half and 7 group half of the array
slot, 4 special function, 5 vector, 6 scalar/control. -/
abbrev Part := Nat

/-- The slot number that the logs show for a part. -/
def slotNo (k : Part) : Nat := if k = 7 then 3 else k

/-- What a slot word starts. -/
inductive SlotOp where
  | nop
  | reserved (p : Pred)
  | op (i : Instr)
deriving DecidableEq, Repr

/-- Field of `n` bits from bit `lsb`. -/
def fld (w : BitVec 32) (lsb n : Nat) : BitVec n := w.extractLsb' lsb n
/-- One bit as a Bool. -/
def flag (w : BitVec 32) (i : Nat) : Bool := w.getLsbD i
/-- The predicate field (R238). -/
def predOf (w : BitVec 32) : Pred := { pen := flag w 0, cmp := fld w 1 2, neg := flag w 3 }
/-- The opcode field. -/
def opOf (w : BitVec 32) : Nat := (fld w 4 6).toNat

/-- Stream slot (Table 10.10). -/
def decodeStream (a : Arr) (w : BitVec 32) : SlotOp :=
  let p := predOf w
  let e := fld w 10 2
  match opOf w with
  | 1 => .op (.sgo a p e (fld w 12 5))
  | 2 => .op (.sadv a p e (fld w 12 8))
  | 3 => .op (.shalt a p e)
  | 4 => .op (.sfree a p e (fld w 12 6))
  | 5 => .op (.scopy a p e (fld w 12 6) (fld w 18 6))
  | _ => .reserved p

/-- Product half of the array slot (Table 10.5). -/
def decodeProduct (a : Arr) (w : BitVec 32) : SlotOp :=
  let p := predOf w
  match (fld w 4 3).toNat with
  | 0 => .nop
  | 1 => .op (.mma a p { grp := fld w 7 3, m16 := flag w 10, mhi := flag w 11, n16 := flag w 12, nhi := flag w 13 })
  | 2 => .op (.dot a p { mslot := fld w 7 4, qry := fld w 11 4, chunk := fld w 15 5, e0 := fld w 20 7 })
  | 3 => .op (.axpy a p { mslot := fld w 7 4, qry := fld w 11 4, vreg := fld w 15 5 })
  | _ => .reserved p

/-- Destination of a swap (Table 10.6). -/
def decodeDest (w : BitVec 32) : SwapDest :=
  match (fld w 10 2).toNat with
  | 0 => .ledger { en := flag w 12, ledger := fld w 13 3, neg := flag w 16 } { en := flag w 17, ledger := fld w 18 3, neg := flag w 21 }
  | 1 => .store { tile := fld w 12 8, pten := flag w 20, pt := fld w 21 4 }
  | 2 => .out (fld w 12 2)
  | _ => .discard

/-- Group half of the array slot (Table 10.6). -/
def decodeGroup (a : Arr) (w : BitVec 32) : SlotOp :=
  let p := predOf w
  match (fld w 4 3).toNat with
  | 0 => .nop
  | 1 => .op (.swap a p (fld w 7 3) (decodeDest w))
  | 2 => .op (.rowscale a p (fld w 7 3) (fld w 10 5))
  | 3 => .op (.gload a p (fld w 7 3) { tile := fld w 10 8, pten := flag w 18, pt := fld w 19 4 })
  | _ => .reserved p

/-- Special-function slot (Table 10.7). -/
def decodeSf (a : Arr) (w : BitVec 32) : SlotOp :=
  .op (.specialFunctionIssue a (predOf w)
    { fslot := fld w 4 4, form := fld w 8 2, sum := flag w 10, mask := flag w 11, guard := flag w 12, srck := flag w 13
      src := fld w 14 6, dstk := flag w 20, dst := fld w 21 6, dfmt := fld w 27 3 })

/-- Vector slot (Table 10.8). -/
def decodeVector (a : Arr) (w : BitVec 32) : SlotOp :=
  let p := predOf w
  let f : VFields := { vd := fld w 10 5, va := fld w 15 5, vb := fld w 20 5, vc := fld w 25 5, bs := flag w 30 }
  match opOf w with
  | 0x00 => .nop
  | 0x01 => .op (.fadd a p f)
  | 0x02 => .op (.fsub a p f)
  | 0x03 => .op (.fmul a p f)
  | 0x04 => .op (.fma a p f)
  | 0x05 => .op (.fnma a p f)
  | 0x06 => .op (.fdiv a p f)
  | 0x07 => .op (.fmax a p f)
  | 0x08 => .op (.fmin a p f)
  | 0x09 => .op (.fclt a p f)
  | 0x0A => .op (.fsel a p f)
  | 0x0B => .op (.cvt a p f)
  | 0x0C => .op (.iand a p f)
  | 0x0D => .op (.ior a p f)
  | 0x0E => .op (.iadd a p f)
  | 0x0F => .op (.iclt a p f)
  | 0x10 => .op (.vld a p (fld w 10 5) (fld w 15 6))
  | 0x11 => .op (.vst a p (fld w 10 5) (fld w 15 6))
  | 0x12 => .op (.xsum a p f)
  | 0x13 => .op (.bcast a p f)
  | 0x14 => .op (.extr a p f)
  | 0x15 => .op (.rsumrd a p f)
  | 0x16 => .op (.rsumwr a p f)
  | 0x17 => .op (.laneid a p f)
  | 0x18 => .op (.gfrd a p f)
  | _ => .reserved p

/-- Scalar/control slot (Table 10.9). -/
def decodeScalar (a : Arr) (w : BitVec 32) : SlotOp :=
  let p := predOf w
  let r : RForm := { sd := fld w 10 5, sa := fld w 15 5, sb := fld w 20 5 }
  match opOf w with
  | 0x00 => .nop
  | 0x01 => .op (.add a p r)
  | 0x02 => .op (.sub a p r)
  | 0x03 => .op (.andW a p r)
  | 0x04 => .op (.orW a p r)
  | 0x05 => .op (.xorW a p r)
  | 0x06 => .op (.shl a p r)
  | 0x07 => .op (.shr a p r)
  | 0x08 => .op (.addi a p (fld w 10 5) (fld w 15 5) (fld w 20 12))
  | 0x09 => .op (.lli a p (fld w 10 5) (fld w 15 16))
  | 0x0A => .op (.lui a p (fld w 10 5) (fld w 15 16))
  | 0x0B => .op (.mul a p r)
  | 0x10 => .op (.ptset a p (fld w 10 4) (fld w 14 5))
  | 0x11 => .op (.ptcfg a p (fld w 10 4) (fld w 14 2) (flag w 16) (fld w 17 5))
  | 0x12 => .op (.ptrd a p (fld w 10 5) (fld w 15 4))
  | 0x14 => .op (.ctset a p (fld w 10 3) (fld w 13 5))
  | 0x15 => .op (.ctadd a p (fld w 10 3) (fld w 13 16))
  | 0x16 => .op (.ctrd a p (fld w 10 5) (fld w 15 3))
  | 0x18 => .op (.cmpset a p { cmp := fld w 10 2, ct := fld w 12 3, rel := fld w 15 3, osrc := flag w 18, imm := fld w 19 12 })
  | 0x20 => .op (.repeatBody a p (fld w 10 6) (flag w 16) (fld w 17 12))
  | 0x21 => .op (.call a p (fld w 10 10))
  | 0x22 => .op (.ret a p)
  | 0x23 => .op (.endTask a p)
  | 0x24 => .op (.tepoch a p)
  | 0x25 => .op (.astg a p { sa := fld w 10 5, sb := fld w 15 5, vk := fld w 20 5, sm := fld w 25 5, rstcol := flag w 30 })
  | 0x26 => .op (.dset a p (fld w 10 6) (fld w 16 5))
  | 0x28 => .op (.lbpost a p (fld w 10 13) (fld w 23 5))
  | 0x29 => .op (.lbwait a p (fld w 10 13) (fld w 23 5))
  | 0x2A => .op (.lbread a p (fld w 10 13) (fld w 23 5))
  | 0x2B => .op (.mbput a p (fld w 10 13) (fld w 23 5))
  | 0x2C => .op (.mbtake a p (fld w 10 13) (fld w 23 5))
  | 0x2D => .op (.collectionArrival a p)
  | _ => .reserved p

/-- The operation that the word of a part starts. -/
def decodePart (a : Arr) (k : Part) (w : BitVec 32) : SlotOp :=
  match k with
  | 0 => decodeStream a w
  | 1 => .op (.feederRead a (predOf w) false (fld w 4 6) (fld w 10 7))
  | 2 => .op (.feederRead a (predOf w) true (fld w 4 6) (fld w 10 7))
  | 3 => decodeProduct a w
  | 4 => decodeSf a w
  | 5 => decodeVector a w
  | 6 => decodeScalar a w
  | 7 => decodeGroup a w
  | _ => .nop

/-! ### The words of operations -/

/-- The bits of a predicate field. -/
def predBits (p : Pred) : BitVec 4 := BitVec.ofBool p.neg ++ p.cmp ++ BitVec.ofBool p.pen

/-- A vector word: opcode and register fields. -/
def vWord (op : BitVec 6) (p : Pred) (f : VFields) : BitVec 32 :=
  0#1 ++ BitVec.ofBool f.bs ++ f.vc ++ f.vb ++ f.va ++ f.vd ++ op ++ predBits p
/-- A scalar word of form R. -/
def rWord (op : BitVec 6) (p : Pred) (f : RForm) : BitVec 32 := 0#7 ++ f.sb ++ f.sa ++ f.sd ++ op ++ predBits p
/-- A scalar word with an object number and a register. -/
def objWord (op : BitVec 6) (p : Pred) (obj : BitVec 13) (r : BitVec 5) : BitVec 32 :=
  0#4 ++ r ++ obj ++ op ++ predBits p
/-- A stream word. -/
def streamWord (op : BitVec 6) (p : Pred) (e : BitVec 2) (rest : BitVec 20) : BitVec 32 := rest ++ e ++ op ++ predBits p

/-- DEST and the bits above it of a SWAP (Table 10.6). -/
def destBits (d : SwapDest) : BitVec 22 :=
  match d with
  | .ledger l1 l2 =>
    0#10 ++ BitVec.ofBool l2.neg ++ l2.ledger ++ BitVec.ofBool l2.en ++ BitVec.ofBool l1.neg ++ l1.ledger ++
      BitVec.ofBool l1.en ++ 0#2
  | .store t => 0#7 ++ t.pt ++ BitVec.ofBool t.pten ++ t.tile ++ 1#2
  | .out e => 0#18 ++ e ++ 2#2
  | .discard => 0#20 ++ 3#2

/-- The part and the word that spell an operation of a bundle; none for a command that is no operation of a bundle. -/
def slotWord (i : Instr) : Option (Part × BitVec 32) :=
  match i with
  | .sgo _ p e entry => some (0, streamWord 1#6 p e (0#15 ++ entry))
  | .sadv _ p e n1 => some (0, streamWord 2#6 p e (0#12 ++ n1))
  | .shalt _ p e => some (0, streamWord 3#6 p e 0#20)
  | .sfree _ p e slot => some (0, streamWord 4#6 p e (0#14 ++ slot))
  | .scopy _ p e ds dd => some (0, streamWord 5#6 p e (0#8 ++ dd ++ ds))
  | .feederRead _ p b d k => some (if b then 2 else 1, 0#15 ++ k ++ d ++ predBits p)
  | .mma _ p f =>
    some (3, 0#18 ++ BitVec.ofBool f.nhi ++ BitVec.ofBool f.n16 ++ BitVec.ofBool f.mhi ++ BitVec.ofBool f.m16 ++ f.grp ++
      1#3 ++ predBits p)
  | .dot _ p f => some (3, 0#5 ++ f.e0 ++ f.chunk ++ f.qry ++ f.mslot ++ 2#3 ++ predBits p)
  | .axpy _ p f => some (3, 0#12 ++ f.vreg ++ f.qry ++ f.mslot ++ 3#3 ++ predBits p)
  | .swap _ p g d => some (7, destBits d ++ g ++ 1#3 ++ predBits p)
  | .rowscale _ p g v => some (7, 0#17 ++ v ++ g ++ 2#3 ++ predBits p)
  | .gload _ p g t => some (7, 0#9 ++ t.pt ++ BitVec.ofBool t.pten ++ t.tile ++ g ++ 3#3 ++ predBits p)
  | .specialFunctionIssue _ p f =>
    some (4, 0#2 ++ f.dfmt ++ f.dst ++ BitVec.ofBool f.dstk ++ f.src ++ BitVec.ofBool f.srck ++ BitVec.ofBool f.guard ++
      BitVec.ofBool f.mask ++ BitVec.ofBool f.sum ++ f.form ++ f.fslot ++ predBits p)
  | .fadd _ p f => some (5, vWord 0x01#6 p f)
  | .fsub _ p f => some (5, vWord 0x02#6 p f)
  | .fmul _ p f => some (5, vWord 0x03#6 p f)
  | .fma _ p f => some (5, vWord 0x04#6 p f)
  | .fnma _ p f => some (5, vWord 0x05#6 p f)
  | .fdiv _ p f => some (5, vWord 0x06#6 p f)
  | .fmax _ p f => some (5, vWord 0x07#6 p f)
  | .fmin _ p f => some (5, vWord 0x08#6 p f)
  | .fclt _ p f => some (5, vWord 0x09#6 p f)
  | .fsel _ p f => some (5, vWord 0x0A#6 p f)
  | .cvt _ p f => some (5, vWord 0x0B#6 p f)
  | .iand _ p f => some (5, vWord 0x0C#6 p f)
  | .ior _ p f => some (5, vWord 0x0D#6 p f)
  | .iadd _ p f => some (5, vWord 0x0E#6 p f)
  | .iclt _ p f => some (5, vWord 0x0F#6 p f)
  | .vld _ p vd d => some (5, 0#11 ++ d ++ vd ++ 0x10#6 ++ predBits p)
  | .vst _ p vs d => some (5, 0#11 ++ d ++ vs ++ 0x11#6 ++ predBits p)
  | .xsum _ p f => some (5, vWord 0x12#6 p f)
  | .bcast _ p f => some (5, vWord 0x13#6 p f)
  | .extr _ p f => some (5, vWord 0x14#6 p f)
  | .rsumrd _ p f => some (5, vWord 0x15#6 p f)
  | .rsumwr _ p f => some (5, vWord 0x16#6 p f)
  | .laneid _ p f => some (5, vWord 0x17#6 p f)
  | .gfrd _ p f => some (5, vWord 0x18#6 p f)
  | .add _ p f => some (6, rWord 0x01#6 p f)
  | .sub _ p f => some (6, rWord 0x02#6 p f)
  | .andW _ p f => some (6, rWord 0x03#6 p f)
  | .orW _ p f => some (6, rWord 0x04#6 p f)
  | .xorW _ p f => some (6, rWord 0x05#6 p f)
  | .shl _ p f => some (6, rWord 0x06#6 p f)
  | .shr _ p f => some (6, rWord 0x07#6 p f)
  | .addi _ p sd sa imm => some (6, imm ++ sa ++ sd ++ 0x08#6 ++ predBits p)
  | .lli _ p sd imm => some (6, 0#1 ++ imm ++ sd ++ 0x09#6 ++ predBits p)
  | .lui _ p sd imm => some (6, 0#1 ++ imm ++ sd ++ 0x0A#6 ++ predBits p)
  | .mul _ p f => some (6, rWord 0x0B#6 p f)
  | .ptset _ p pt sa => some (6, 0#13 ++ sa ++ pt ++ 0x10#6 ++ predBits p)
  | .ptcfg _ p pt l r sa => some (6, 0#10 ++ sa ++ BitVec.ofBool r ++ l ++ pt ++ 0x11#6 ++ predBits p)
  | .ptrd _ p sd pt => some (6, 0#13 ++ pt ++ sd ++ 0x12#6 ++ predBits p)
  | .ctset _ p ct sa => some (6, 0#14 ++ sa ++ ct ++ 0x14#6 ++ predBits p)
  | .ctadd _ p ct imm => some (6, 0#3 ++ imm ++ ct ++ 0x15#6 ++ predBits p)
  | .ctrd _ p sd ct => some (6, 0#14 ++ ct ++ sd ++ 0x16#6 ++ predBits p)
  | .cmpset _ p f => some (6, 0#1 ++ f.imm ++ BitVec.ofBool f.osrc ++ f.rel ++ f.ct ++ f.cmp ++ 0x18#6 ++ predBits p)
  | .repeatBody _ p b c n => some (6, 0#3 ++ n ++ BitVec.ofBool c ++ b ++ 0x20#6 ++ predBits p)
  | .call _ p r => some (6, 0#12 ++ r ++ 0x21#6 ++ predBits p)
  | .ret _ p => some (6, 0#22 ++ 0x22#6 ++ predBits p)
  | .endTask _ p => some (6, 0#22 ++ 0x23#6 ++ predBits p)
  | .tepoch _ p => some (6, 0#22 ++ 0x24#6 ++ predBits p)
  | .astg _ p f => some (6, 0#1 ++ BitVec.ofBool f.rstcol ++ f.sm ++ f.vk ++ f.sb ++ f.sa ++ 0x25#6 ++ predBits p)
  | .dset _ p d sa => some (6, 0#11 ++ sa ++ d ++ 0x26#6 ++ predBits p)
  | .lbpost _ p o sa => some (6, objWord 0x28#6 p o sa)
  | .lbwait _ p o sa => some (6, objWord 0x29#6 p o sa)
  | .lbread _ p o sd => some (6, objWord 0x2A#6 p o sd)
  | .mbput _ p o sa => some (6, objWord 0x2B#6 p o sa)
  | .mbtake _ p o sd => some (6, objWord 0x2C#6 p o sd)
  | .collectionArrival _ p => some (6, 0#22 ++ 0x2D#6 ++ predBits p)
  | _ => none

/-- The array, predicate and part of an operation of a bundle. -/
def slotPred (i : Instr) : Option Pred := (slotWord i).map (fun x => predOf x.2)

/-! ### Sources and destinations (R36, R43, R44) -/

/-- Array-store bytes as destinations. -/
def storeDests (a n : Nat) : List Dest := (List.range n).map (fun i => .store ((a + i) % 2 ^ 20))

/-- The array-store bytes a lane access touches. -/
def ArrayState.laneDests (A : ArrayState) (d : Descr) : List Dest :=
  (List.range 32).flatMap (fun r => storeDests (A.laneAddr d r) (plainBytes d.fmt))

/-- The scale bytes that a feeder reads with the elements of a scaled format (Table 10.3). -/
def Descr.scaleDests (d : Descr) (kstep : Nat) : List Dest :=
  if !isScaled d.fmt then []
  else if d.fmt = 7 then storeDests d.scale 4
  else ((List.range 32).flatMap (fun i => (List.range (kOf d.cellFmt)).flatMap (fun e =>
    let n := kstep * kOf d.cellFmt + e
    storeDests (d.scale + (if d.column then n else i) * d.sstride + (if d.column then i else n) / 32) 1))).eraseDups

/-- The pointer a descriptor reads. -/
def Descr.ptDests (d : Descr) : List Dest := if d.pten then [.pt d.pt] else []

/-- What an operation reads in its issue beat, beyond its predicate. -/
def ArrayState.opReads (A : ArrayState) (i : Instr) : List Dest :=
  let lane := fun (n : BitVec 6) => let d := A.descr n.toNat; d.ptDests ++ A.laneDests d
  let vb := fun (f : VFields) => if f.bs then Dest.s f.vb.toNat else Dest.v f.vb.toNat
  let v2 := fun (f : VFields) => [Dest.v f.va.toNat, vb f]
  let v3 := fun (f : VFields) => [Dest.v f.va.toNat, vb f, Dest.v f.vc.toNat]
  let r2 := fun (f : RForm) => [Dest.s f.sa.toNat, Dest.s f.sb.toNat]
  match i with
  | .feederRead _ _ _ desc k =>
    let d := A.descr desc.toNat
    d.ptDests ++ (List.range 32).flatMap (fun r => (List.range (kOf d.cellFmt)).flatMap (fun e =>
      let b := d.elemBitOff k.toNat r e
      storeDests (if d.space = 2 then A.winAddr d (A.ptrValue d + b / 8) else A.eaStore d (b / 8)) ((storedBits d.fmt + 7) / 8))) ++
      d.scaleDests k.toNat
  | .axpy _ _ f => [.v f.vreg.toNat]
  | .swap _ _ _ (.store t) => if t.pten then [.pt t.pt.toNat] else []
  | .rowscale _ _ _ v => [.v v.toNat]
  | .gload _ _ _ t =>
    (if t.pten then [.pt t.pt.toNat] else []) ++
      storeDests (t.tile.toNat * 4096 + (if t.pten then (A.ptr t.pt.toNat).value else 0)) 256
  | .specialFunctionIssue _ _ f =>
    (if f.srck then lane f.src else [.v (f.src.toNat % 32)]) ++ (if f.dstk then (A.descr f.dst.toNat).ptDests else []) ++
      (if f.mask then (List.range 32).flatMap (fun r => storeDests (A.regs.amsk + 4 * r) 4) else [])
  | .fadd _ _ f | .fsub _ _ f | .fmul _ _ f | .fdiv _ _ f | .fmax _ _ f | .fmin _ _ f | .fclt _ _ f => v2 f
  | .iand _ _ f | .ior _ _ f | .iadd _ _ f | .iclt _ _ f => v2 f
  | .fma _ _ f | .fnma _ _ f | .fsel _ _ f => v3 f
  | .cvt _ _ f | .extr _ _ f => if f.bs then v2 f else [.v f.va.toNat]
  | .xsum _ _ f | .rsumwr _ _ f => [.v f.va.toNat]
  | .vld _ _ _ d => lane d
  | .vst _ _ vs d => .v vs.toNat :: (A.descr d.toNat).ptDests
  | .bcast _ _ f => [.s f.va.toNat]
  | .add _ _ f | .sub _ _ f | .andW _ _ f | .orW _ _ f | .xorW _ _ f | .shl _ _ f | .shr _ _ f | .mul _ _ f => r2 f
  | .addi _ _ _ sa _ => [.s sa.toNat]
  | .lui _ _ sd _ => [.s sd.toNat]
  | .ptset _ _ _ sa | .ptcfg _ _ _ _ _ sa | .ctset _ _ _ sa => [.s sa.toNat]
  | .dset _ _ _ sa => .s sa.toNat :: storeDests ((A.sreg sa.toNat).toNat / 16 * 16) 16
  | .ptrd _ _ _ pt => [.pt pt.toNat]
  | .ctadd _ _ ct _ | .ctrd _ _ _ ct => [.ct ct.toNat]
  | .cmpset _ _ f => .ct f.ct.toNat :: (if f.osrc then [.ct (f.imm.toNat % 8)] else [])
  | .repeatBody _ _ _ c n => if c then [.ct (n.toNat % 8)] else []
  | .astg _ _ f => [.s f.sa.toNat, .s f.sb.toNat, .v f.vk.toNat, .s f.sm.toNat]
  | .lbpost _ _ _ sa | .lbwait _ _ _ sa | .mbput _ _ _ sa => [.s sa.toNat]
  | .scopy _ _ _ x y =>
    let d := A.descr x.toNat
    d.ptDests ++ (A.descr y.toNat).ptDests ++
      (if d.space = 0 then (List.range d.rows).flatMap (fun r => storeDests (A.eaStore d (r * d.rstride)) d.rowLen) else [])
  | _ => []

/-- What a landing writes, of the destinations that R36 names. -/
def Landing.dests (x : Landing) : List Dest :=
  match x with
  | .sreg r _ => if r = 0 then [] else [.s r]
  | .vreg r _ => [.v r]
  | .eval _ _ (some r) => [.v r]
  | .ptset n _ => [.pt n]
  | .ptcfg n _ _ _ => [.pt n]
  | .counter n _ => [.ct n]
  | .cmpCfg n _ => [.cmp n]
  | .cmpEval n _ => [.cmp n]
  | .bytes cells => cells.flatMap (fun c => storeDests c.1 c.2.length)
  | .deliver _ addr bs _ => storeDests addr bs.length
  | _ => []

/-- Array-store bytes that the drain of a run into a tile has still to write: cell row `r` and those after it, of which the
first lands `left` beats from now. -/
def drainDests (tile r left : Nat) : List (Nat × List Dest) :=
  (List.range (16 - r)).map (fun i => (left + i, storeDests (tile + 256 * (r + i)) 256))

/-- The writes in flight of an operation in flight, each with the beats until it lands (R36, R83): what it writes itself, and
what the drain it stands for has still to send to a tile. -/
def ArrayState.writesOf (A : ArrayState) (f : Flight) : List (Nat × List Dest) :=
  match f.op with
  | .drain r => (match A.acc.drain with
    | some d => (match d.dest with | .store _ => drainDests d.tile r (f.left + 2) | _ => [])
    | none => [])
  | .swap _ (.store _) tile => drainDests tile 0 (f.left + 2)
  | x => [(f.left, x.dests)]

end Sys2Proof.Machine
end

