-- ==== Sys2Proof/Machine/Streams.lean ====
section
/-! DEFINITION. Stream engines: programs, steps, windows, outbound buffers, posts and the journal
(spec/11_queues_and_sync.md R287 to R294). -/
namespace Sys2Proof.Machine

/-! ### The running task -/

/-- The task that runs on an array, with its receipt-log index. -/
def State.taskOf (s : State) (a : Nat) : Option (Nat × Task) :=
  match (s.arr a).task with
  | some r => (s.task r).map (fun t => (r, t))
  | none => none

/-- The receipt-log index of the task on an array, 0 while there is none. -/
def State.ridOf (s : State) (a : Nat) : Nat := (s.arr a).task.getD 0

/-- Entries of a task's journal (R287). -/
def journalDepth : Nat := 256

/-- The journalled effect that the next synchronisation operation of a replayed attempt meets. -/
def State.journalNext (s : State) (a : Nat) : Option JEntry :=
  match s.taskOf a with
  | some (_, t) => t.journal[t.jpos]?
  | none => none

/-- Passes a journalled effect. -/
def State.journalPass (s : State) (a : Nat) : State := s.onTask (s.ridOf a) fun t => { t with jpos := t.jpos + 1 }

/-- Journals an effect; the 257th makes the task unreplayable. -/
def State.journalAdd (s : State) (a : Nat) (e : JEntry) : State :=
  s.onTask (s.ridOf a) fun t =>
    if t.journal.length < journalDepth then { t with journal := t.journal ++ [e], jpos := t.jpos + 1 }
    else { t with jover := true }

/-- Marks a journalled stream post as made. -/
def State.journalMade (s : State) (a i : Nat) : State :=
  s.onTask (s.ridOf a) fun t => { t with journal := listUpd t.journal i (fun _ => .streamPost true) }

/-! ### Stream instructions (Table 11.6) -/

/-- The fields of a MOVE. -/
structure Move where
  src : Nat
  dst : Nat
  ssb : Nat
  dsb : Nat
  deliv : Nat
  half : Nat
  bytes : Nat
deriving DecidableEq, Repr

/-- A stream instruction. -/
inductive StreamOp where
  | stop
  | move (m : Move)
  | loop (ix count : Nat)
  | next (ix : Nat)
  | nextBase (sb mb : Nat)
  | post (lb amount : Nat)
  | reserved
deriving DecidableEq, Repr

/-- The instruction that 64 bits spell. -/
def decodeStreamInstr (v : Nat) : StreamOp :=
  match v % 16 with
  | 0 => .stop
  | 1 => .move
      { src := bitsOf v 6 4, dst := bitsOf v 9 7, ssb := bitsOf v 12 10, dsb := bitsOf v 15 13, deliv := bitsOf v 17 16
        half := bitsOf v 18 18, bytes := (let n := bitsOf v 27 20; if n = 0 then 16384 else 64 * n) }
  | 2 => .loop (bitsOf v 5 4) (bitsOf v 17 6 + 1)
  | 3 => .next (bitsOf v 5 4)
  | 4 => .nextBase (bitsOf v 6 4) (bitsOf v 14 7)
  | 5 => .post (bitsOf v 16 4) (bitsOf v 24 17)
  | _ => .reserved

/-- The 64 bits of instruction `i` of an engine's program. -/
def Engine.word64 (x : Engine) (i : Nat) : Nat :=
  (x.arm.image.getD (2 * i) 0).toNat + 2 ^ 32 * (x.arm.image.getD (2 * i + 1) 0).toNat

/-- The instruction at an engine's program counter; beyond the last instruction the program ends. -/
def Engine.cur (x : Engine) : StreamOp := if x.pc < 32 then decodeStreamInstr (x.word64 x.pc) else .stop

/-- The base registers that an arming image gives (R293). -/
def Arming.bases (x : Arming) : List Nat :=
  (List.range 8).map (fun i =>
    ((x.image.getD (64 + 2 * i) 0).toNat + 2 ^ 32 * (x.image.getD (65 + 2 * i) 0).toNat) % 2 ^ 48)

/-- Σ IXn × stride over the open loops, for the source or the destination (R288). -/
def Engine.offset (x : Engine) (dest : Bool) : Int :=
  x.loops.foldl (fun (n : Int) l =>
    let w := x.word64 l.2.2
    let st := if dest then signedOf 21 (bitsOf w 59 39) else signedOf 21 (bitsOf w 38 18)
    n + Int.ofNat (x.ix.getD l.1 0) * st) 0

/-- The address a MOVE names, modulo 2^48. -/
def Engine.addr (x : Engine) (sb : Nat) (dest : Bool) : Nat :=
  ((Int.ofNat (x.sb.getD sb 0) + 32 * x.offset dest) % 2 ^ 48).toNat

/-- The engine stops. -/
def Engine.stop (x : Engine) : Engine := { x with started := false, steps := 0, loops := [], halting := false }

/-- Changes a stream engine of an array. -/
def State.onEng (s : State) (a e : Nat) (f : Engine → Engine) : State := s.onArr a fun A => A.setEng e (f (A.eng e))
/-- A stream engine of an array. -/
def State.engine (s : State) (a e : Nat) : Engine := (s.arr a).eng e

/-! ### Between steps -/

/-- Where an engine stands after the instructions between steps. -/
inductive EngAt where
  | move (m : Move)
  | stopped
  | waits (mb : Nat)
deriving DecidableEq, Repr

/-- Enough for every nest of loops. -/
def streamFuel : Nat := 2 ^ 52

/-- A requester of a mailbag: engines are 0 to 3 of an array, its scalar slot is 4 (R282). -/
def bagWho (a k : Nat) : Nat := a * 8 + k

/-- Executes LOOP, NEXT, POST and, if `base` is set, NEXTBASE up to the next MOVE (R288, R290). -/
def State.between (fuel : Nat) (a e : Nat) (base : Bool) (s : State) : State × EngAt :=
  match fuel with
  | 0 => (s, .waits 0)
  | n + 1 =>
    let x := s.engine a e
    let t := s.tenRunning a
    let adv := fun (y : Engine) => { y with pc := y.pc + 1 }
    match x.cur with
    | .stop => (s.onEng a e Engine.stop, .stopped)
    | .reserved => ((s.deadLetter a dlReservedOp 0 x.word).onEng a e Engine.stop, .stopped)
    | .move m => (s, .move m)
    | .loop ix count =>
      (s.onEng a e fun y => { adv y with loops := y.loops.filter (fun l => l.1 != ix) ++ [(ix, count, y.pc)] }).between n a e base
    | .next ix =>
      match x.loops.find? (fun l => l.1 == ix) with
      | none => (s.onEng a e adv).between n a e base
      | some (_, count, at_) =>
        let v := x.ix.getD ix 0 + 1
        if count ≤ v then
          (s.onEng a e fun y => { adv y with
            ix := listUpd y.ix ix (fun _ => 0), loops := y.loops.filter (fun l => l.1 != ix) }).between n a e base
        else (s.onEng a e fun y => { y with ix := listUpd y.ix ix (fun _ => v), pc := at_ + 1 }).between n a e base
    | .nextBase sb mb =>
      if !base then (s, .waits mb)
      else if !s.mbxIn t mb then ((s.deadLetter a dlObjRange 0 x.word).onEng a e adv).between n a e base
      else
        let put := fun (s : State) (h : Word) =>
          (s.onEng a e fun y => { adv y with sb := listUpd y.sb sb (fun _ => h.toNat) }).between n a e base
        match s.bagTake (s.mbxAbs t mb) (bagWho a e) with
        | some (h, s') => put s' h
        | none => (s.bagWaitTake (s.mbxAbs t mb) (bagWho a e), .waits mb)
    | .post lb amount =>
      if !s.lbxIn t lb then ((s.deadLetter a dlObjRange 0 x.word).onEng a e adv).between n a e base
      else
        let q := fun (s : State) (i : Nat) =>
          s.onEng a e fun y => { adv y with posts := y.posts ++ [(lb, amount, y.txnNo, i)] }
        match s.taskOf a, s.journalNext a with
        | some (_, _), some (.streamPost true) => ((s.journalPass a).onEng a e adv).between n a e base
        | some (_, tk), some _ => (q (s.journalPass a) tk.jpos).between n a e base
        | some (_, tk), none => (q (s.journalAdd a (.streamPost false)) tk.jpos).between n a e base
        | none, _ => (q s journalDepth).between n a e base

/-! ### Posts -/

/-- Every MOVE of an engine numbered below `upTo` has been accepted at its destination. -/
def State.movesDone (s : State) (a e upTo : Nat) : Bool :=
  !(s.arr a).flight.any (fun f => f.eng == e && decide (f.no < upTo)) &&
  !s.outstanding (fun t => t.owner.ofEngine a e && decide (t.no < upTo))

/-- The staged adds that the MOVEs of an engine numbered below `upTo` have made in the running attempt (R325). -/
def State.addsBefore (s : State) (a e upTo : Nat) : List Nat :=
  (s.mport.staged.filter (fun c => c.rid == s.ridOf a && !c.ready && c.eng == e && decide (c.no < upTo))).map (·.order)

/-- Makes a post of an engine, or holds it until its staged adds are accepted (R288, R325; log 15). -/
def State.makePost (s : State) (a e lb amount upTo i : Nat) : State :=
  let l := s.addsBefore a e upTo
  if l.isEmpty then (s.journalMade a i).postAndLand (s.tenRunning a) lb amount
  else { s with mport := { s.mport with posts := s.mport.posts ++
    [{ rid := s.ridOf a, ten := s.tenRunning a, lb := lb, amount := amount, waits := l }] } }

/-- Makes the posts of an engine that are due, in order (R288, R325). -/
def State.enginePosts (fuel : Nat) (a e : Nat) (s : State) : State :=
  match fuel with
  | 0 => s
  | n + 1 =>
    match (s.engine a e).posts with
    | [] => s
    | (lb, amount, upTo, i) :: r =>
      if s.movesDone a e upTo then
        ((s.onEng a e fun y => { y with posts := r }).makePost a e lb amount upTo i).enginePosts n a e
      else s

/-- Makes the due posts of every engine of an array. -/
def State.runPosts (s : State) (a : Nat) : State :=
  (List.range 4).foldl (fun (s : State) e => s.enginePosts (s.engine a e).posts.length a e) s

/-! ### MOVE -/

/-- Beats a shared-store delivery takes (Table 1.2). -/
def deliveryBeats (a addr deliv : Nat) : Nat :=
  if deliv = 2 then 14
  else if decide (groupOf a < 8) == decide (addr < 0x08000000) then 8 else 12

/-- The arrays a delivery reaches: the array itself, or the tenancy's arrays of its group or of the block (R19, R20). What
DELIV 3 does, and that a circular delivery leaves out dead arrays alone, are the model's choices (log 49). -/
def State.targets (s : State) (a deliv : Nat) : List Nat :=
  match s.tenOfArr a with
  | none => [a]
  | some t =>
    let all := ((List.range 64).filter (bitOf (s.units t))).flatMap (fun u => (List.range 16).map (fun i => 16 * u + i))
    match deliv with
    | 0 => [a]
    | 1 => all.filter (fun b => groupOf b == groupOf a && !s.isDead b)
    | 2 => all.filter (fun b => !s.isDead b)
    | _ => [a]

/-- Bytes of an outbound buffer (R288). -/
def outboundBytes : Nat := 8192

/-- Bytes an engine's outbound buffer holds, with the writes that have not been sent. -/
def State.outboundUse (s : State) (a e : Nat) : Nat :=
  (s.engine a e).outbound.length +
  s.mport.chans.foldl (fun n c => c.2.wait.foldl (fun n t =>
    if t.kind == 1 && t.cls == 1 && t.owner.ofEngine a e then n + t.size else n) n) 0

/-- Whether a MOVE follows a path of Table 1.3: source and destination codes. Pages of the cache lie in memory, a window slot
lies in the array store, and a matrix-vector slot is filled from memory alone (R22, R104). -/
def movePath (src dst : Nat) : Bool :=
  match src with
  | 0 => dst < 6
  | 1 => [0, 1, 3, 4].contains dst
  | 2 => [0, 1, 2].contains dst
  | 3 => dst < 6
  | 4 => [0, 1, 2, 3, 4].contains dst
  | _ => false

/-- What became of a MOVE; one that waits may have started a walk. -/
inductive MoveEnd where
  | done (s : State)
  | frozen (why : Stalled)
  | waits (s : State)

/-- One piece of a MOVE whose source lies in memory: offset in the MOVE, address and size of the transaction, and the
bytes of it that belong to the MOVE. -/
structure Piece where
  off : Nat
  addr : Nat
  size : Nat
  skip : Nat
  keep : Nat
deriving DecidableEq, Repr

/-- The transactions that read `n` bytes from `start` (R322). -/
def memPieces (start n : Nat) : List Piece :=
  if n = 0 then []
  else
    let lo := start / 64 * 64
    let hi := (start + n + 63) / 64 * 64
    (cutRange (n / 64 + 4) lo hi).map (fun p =>
      let b := max start p.1
      let t := min (start + n) (p.1 + p.2)
      { off := b - start, addr := p.1, size := p.2, skip := b - p.1, keep := t - b })

/-- Where a MOVE puts its bytes, with the slot it fills. -/
inductive MoveDst where
  | memory (addr : Nat)
  | shared (addr : Nat)
  | store (addr : Nat)
  | window (slot addr size : Nat)
  | mv (slot : Nat)
  | staged (base count addr : Nat)
deriving DecidableEq, Repr

/-- The destination takes bytes at an offset (R288). -/
def MoveDst.takes (d : MoveDst) (off : Nat) : Bool :=
  match d with
  | .window _ _ size => decide (off < size)
  | .mv _ => decide (off < 512)
  | _ => true

/-- The arrivals that fill the slot of a destination: one for each piece that it takes, and one more. -/
def MoveDst.arrivals (d : MoveDst) (l : List Piece) : Nat := (l.filter (fun p => d.takes p.off)).length + 1

/-- The destination of the bytes at an offset; `none` for the bytes that are dropped (R288). -/
def MoveDst.at_ (d : MoveDst) (a e off : Nat) : TxnDst :=
  match d with
  | .memory x => .memory ((x + off) % 2 ^ 48)
  | .shared x => .shared ((x + off) % 2 ^ 28)
  | .store x => .store a ((x + off) % 2 ^ 20)
  | .window slot x _ => if d.takes off then .window a e slot ((x + off) % 2 ^ 20) else .none
  | .mv slot => if d.takes off then .mvSlot a slot off else .none
  | .staged base count x => .staged base count (x + off)

/-- The bytes at an offset that fit in the destination. -/
def MoveDst.fit (d : MoveDst) (off n : Nat) : Nat :=
  match d with
  | .window _ _ size => min n (size - off)
  | .mv _ => min n (512 - off)
  | _ => n

/-- Opens the slot a MOVE fills, with so many arrivals to come. -/
def State.openSlot (s : State) (a e : Nat) (d : MoveDst) (n : Nat) : State :=
  match d with
  | .window slot _ _ => s.onEng a e fun x => { x with filling := x.filling ++ [(slot, n)], nextSlot := (slot + 1) % x.arm.winSlots }
  | .mv slot => s.onArr a fun A => { A with mv := { A.mv with
      filling := A.mv.filling ++ [(slot, n)], next := (slot + 1) % 16, owner := Tbl.set 0 A.mv.owner slot (e + 1)
      expand := Tbl.set (0, 0) A.mv.expand slot (0, 0) } }
  | _ => s

/-- An input slot of the matrix-vector path holds +0, and takes `n` codes of `bits` bits each (R104). -/
def State.codeSlot (s : State) (a slot bits n : Nat) : State :=
  s.onArr a fun A => { A with mv := { A.mv with
    slots := Tbl.clearRange A.mv.slots (slot * 256) (slot * 256 + 256), expand := Tbl.set (0, 0) A.mv.expand slot (bits, n) } }

/-- One arrival at the slot a MOVE fills. -/
def State.closeSlot (s : State) (a e : Nat) (d : MoveDst) : State :=
  match d with
  | .window slot _ _ => s.onEng a e fun x =>
      let r := arrive x.filling x.filled slot
      { x with filling := r.1, filled := r.2 }
  | .mv slot => s.onArr a fun A => { A with mv := A.mv.arriveAt slot }
  | _ => s

/-- Issues the reads of a MOVE from memory, or from the rows of a cache source (R322). -/
def State.issueReads (s : State) (a e no cls : Nat) (d : MoveDst) (l : List Piece) (row : Option RowSrc := none) : State :=
  let t := s.tenRunning a
  l.foldl (fun (s : State) p =>
    s.issueTxn { kind := 0, addr := p.addr % 2 ^ 48, size := p.size, ten := t, cls := cls, owner := .task a (s.ridOf a) e
                 dst := d.at_ a e p.off, no := no, skip := p.skip, keep := d.fit p.off p.keep,
                 row := row.map (fun r => { r with off := p.off }) }) s

/-- Issues the writes of a MOVE into memory, of a class (R322, R333). -/
def State.issueWrites (s : State) (a e no cls addr : Nat) (bs : List Byte) : State :=
  let t := s.tenRunning a
  let lo := addr / 64 * 64
  (cutRange (bs.length / 64 + 4) lo (lo + bs.length)).foldl (fun (s : State) p =>
    s.issueTxn { kind := 1, addr := p.1 % 2 ^ 48, size := p.2, ten := t, cls := cls, owner := .task a (s.ridOf a) e
                 data := (bs.drop (p.1 - lo)).take p.2, no := no }) s

/-- The owner of the transactions of an engine. -/
def State.moveOwner (s : State) (a e : Nat) : TxnOwner := .task a (s.ridOf a) e

/-- Issues the writes of an offload MOVE of `n` bytes to an address, which wait for the bytes that its reads bring (R322, R332). -/
def State.offloadWrites (s : State) (a e no addr n : Nat) : State :=
  let t := s.tenRunning a
  (cutRange (n / 64 + 4) addr (addr + n)).foldl (fun (s : State) p =>
    s.issueTxn { kind := 1, addr := p.1 % 2 ^ 48, size := p.2, ten := t, cls := 2, owner := s.moveOwner a e
                 data := List.replicate p.2 0, no := no, need := p.2 }) s

/-- Issues the reads of a MOVE, and the writes of an offload one: those follow the reads on each channel, and the reads outside the
windows, which bring +0 at once, follow them (R324, R332; log 49). -/
def State.issueMove (s : State) (a e no bytes : Nat) (d : MoveDst) (l : List Piece) (row : Option RowSrc := none) : State :=
  match d with
  | .memory x =>
    let t := s.tenRunning a
    let near := fun (p : Piece) => s.spanInWindow t (p.addr % 2 ^ 48) p.size
    (((s.issueReads a e no 2 d (l.filter near) row).offloadWrites a e no x bytes).issueReads a e no 2 d (l.filter (fun p => !near p)) row)
  | _ => s.issueReads a e no 0 d l row

/-- Puts bytes at an offset of a MOVE's destination at once; those of an atomic add are its contributions' already. -/
def State.putDirect (s : State) (a e no : Nat) (d : MoveDst) (off : Nat) (bs : List Byte) : State :=
  match d with
  | .memory x => s.fillWrites (s.moveOwner a e) no ((x + off) % 2 ^ 48) bs
  | .shared x => (s.noteShared a ((x + off) % 2 ^ 28) bs.length).sharedWrite (s.tenRunning a) ((x + off) % 2 ^ 28) bs
  | .store x => s.storeArrival a (x + off) bs
  | .window _ x size => s.storeArrival a (x + off) (bs.take (size - off))
  | .mv slot => s.onArr a fun A => { A with mv := A.mv.putSlot slot off (bs.take (512 - off)) }
  | .staged _ _ _ => s

/-- Stages the atomic adds of MOVE `no` of an engine; `none` while the areas are full (R328). -/
def State.stageMove (s : State) (a e no addr : Nat) (bs : List Byte) : Option State :=
  let t := s.tenRunning a
  let lo := addr / 64 * 64
  let cid := match s.taskOf a with | some (_, x) => x.cid | none => 0
  (cutRange (bs.length / 64 + 4) lo (lo + bs.length)).foldl (fun (r : Option State) p =>
    match r with
    | none => none
    | some s =>
      if s.spanInWindow t (p.1 % 2 ^ 48) p.2 then
        (s.noteOut (s.ridOf a) false (p.1 % 2 ^ 48) p.2).stageAdd cid (s.ridOf a) t e no (p.1 % 2 ^ 48) ((bs.drop (p.1 - lo)).take p.2)
      else some (s.violate t (p.1 % 2 ^ 48) 1)) (some s)

/-- A cache source: the byte address of a position's row in a region, the bytes that the page holds from there, the bits of an
element, and for a region to be expanded the address of the scale of its first element, with whether that is the page's;
`scaleRow` is how many scale bytes a row has (R205, R289). -/
structure CacheSrc where
  start : Nat
  valid : Nat
  bits : Nat
  scale : Option (Nat × Bool)
  scaleRow : Nat
  row : RowSrc
deriving DecidableEq, Repr

/-- What a MOVE from a cache source finds: `none` for the null page, whether the name is bad, and whether the MOVE waits for a walk. -/
structure CacheFind where
  src : Option CacheSrc := none
  bad : Bool := false
  waits : Bool := false
  state : State

/-- The snapshot that an array's task has of a sequence (R205). -/
def State.snapOf (s : State) (a seq : Nat) : Option Snap :=
  match s.taskOf a with
  | some (_, x) => x.snaps.find? (fun (y : Snap) => y.seq == seq)
  | none => none

/-- The row of a position in a region of a page, for a MOVE (R197, R205, R289). -/
def Pool.source (P : Pool) (x : Snap) (f plane half q : Nat) (scales : Bool) : CacheSrc :=
  let row := if scales then P.rowScales else P.rowBytes
  let start := if scales then P.rowScaleAt f plane half q else P.rowAt f plane half q
  { start := start
    valid := if 16 * (q / 16 + 1) ≤ x.wtop then P.pageAt f plane + P.pageBytes - start else (x.wtop - q) * row
    bits := if scales then 16 else P.bits
    scale := if scales ∨ P.fmt = 0 then none
      else if P.fmt = 1 then some (P.trailerAt f plane + 4 + 4 * half, true)
      else some (P.rowScaleAt f plane half q, false)
    scaleRow := P.rowScales
    row := { seq := x.seq, plane := plane, pos := q, rowBytes := row } }

/-- Finds what a MOVE from a cache source reads: it names the sequence and the plane, and the offset the position (R205, R289). -/
def State.cacheSrc (s : State) (a sbv half : Nat) (pos : Int) : CacheFind :=
  let plane := bitsOf sbv 27 16
  match s.snapOf a (sbv % 65536) with
  | none => { bad := true, state := s }
  | some x =>
    let P := s.pool x.pool
    if P.planes ≤ plane then { bad := true, state := s }
    else if pos < 0 then { state := s.bump Reg.WALK_NULL_READS }
    else
      let q := pos.toNat
      let r := s.seek a (s.tenRunning a) x (q / 16)
      if !r.2 then { waits := true, state := r.1 }
      else if x.wtop ≤ q then { state := r.1 }
      else match x.frame (q / 16) with
        | none => { state := r.1 }
        | some f => { src := some (P.source x f plane half q (decide (2 ≤ P.fmt) && bitOf sbv 47)), state := r.1 }

/-- Issues the reads of a MOVE from a cache row into a matrix-vector slot, whose codes are to be expanded to BF16: those of the codes,
then those of their scales (R59, R104). -/
def State.issueExpanded (s : State) (a e no slot : Nat) (c : CacheSrc) (l sl : List Piece) (page : Bool) : State :=
  let t := s.tenRunning a
  let s := l.foldl (fun (s : State) p =>
    let i := 8 * p.off / c.bits
    s.issueTxn { kind := 0, addr := p.addr % 2 ^ 48, size := p.size, ten := t, cls := 0, owner := s.moveOwner a e
                 dst := if i < 256 then .mvExp a slot i c.bits else .none
                 no := no, skip := p.skip, keep := p.keep, row := some { c.row with off := p.off } }) s
  sl.foldl (fun (s : State) p =>
    s.issueTxn { kind := 0, addr := p.addr % 2 ^ 48, size := p.size, ten := t, cls := 0, owner := s.moveOwner a e
                 dst := .mvScale a slot p.off page, no := no, skip := p.skip, keep := p.keep
                 row := if page then none else some { c.row with rowBytes := c.scaleRow, off := p.off } }) s

/-- The task on an array gets a status that its command's completion reports; BAD_SEQ comes before CACHE_SHORT (R205, R289, R437). -/
def State.taskStatus (s : State) (a status : Nat) : State :=
  s.onTask (s.ridOf a) fun t => { t with status := if t.status = 0 ∨ t.status = 0x01 then status else t.status }

/-- Adds a flight to an array. -/
def State.launch (s : State) (a : Nat) (f : Flight) : State := s.onArr a fun A => { A with flight := A.flight ++ [f] }

/-- The free bytes a draw gives. -/
def State.freeBytes (s : State) (n : Nat) : List Byte × State :=
  ((List.range n).map (fun i => Config.freeByte (s.freeCtr + i)), s.drew n)

/-- The bytes of a MOVE from a cache source: those of the row found, and +0 for the rest (R205, R289). A slot that is filled in full
counts one arrival for each of its transactions, and one for the rest. -/
def State.moveFound (s : State) (a e no : Nat) (m : Move) (d : MoveDst) (c : Option CacheSrc) : State :=
  match c with
  | none => (((s.openSlot a e d 1).issueMove a e no m.bytes d []).putDirect a e no d 0 (List.replicate m.bytes 0)).closeSlot a e d
  | some c =>
    let n := min m.bytes c.valid
    let l := memPieces c.start n
    let plain :=
      (((s.openSlot a e d (d.arrivals l)).issueMove a e no m.bytes d l (some c.row)).putDirect a e no d n
        (List.replicate (m.bytes - n) 0)).closeSlot a e d
    match d, c.scale with
    | .mv slot, some (at_, page) =>
      let elems := min 256 (8 * n / c.bits)
      let sl := memPieces at_ (if page then 4 else (elems + 31) / 32)
      (((s.openSlot a e d ((l.filter (fun p => decide (8 * p.off / c.bits < 256))).length + sl.length + 1)).codeSlot a slot c.bits elems).issueExpanded a e no slot c l sl page).closeSlot a e d
    | _, _ => plain

/-- The status that a MOVE from a cache source gives its task (R205, R289). -/
def CacheFind.noted (r : CacheFind) (a bytes : Nat) : State :=
  let short := match r.src with | none => true | some c => decide (c.valid < bytes)
  if r.bad then r.state.taskStatus a 0x31 else if short then r.state.taskStatus a 0x01 else r.state

/-- A MOVE from a cache source (R288, R289). -/
def State.moveCache (s : State) (a e no : Nat) (m : Move) (d : MoveDst) : MoveEnd :=
  let x := s.engine a e
  let r := s.cacheSrc a (x.sb.getD m.ssb 0) m.half (x.offset false)
  if r.waits then .waits r.state else .done ((r.noted a m.bytes).moveFound a e no m d r.src)

/-- The arrays that take the bytes of a MOVE: those its DELIV names, but the drain unit sends only to its own array's store
(Table 1.3). -/
def State.moveTargets (s : State) (a : Nat) (m : Move) : List Nat := if m.src = 4 then [a] else s.targets a m.deliv

/-- Bytes of a MOVE to the memory port pass its engine's buffer, with a check; those of the outbound buffer were checked as they left it
(Table 15.1). -/
def State.sentBytes (s : State) (a : Nat) (m : Move) : State := if m.src = 4 then s else s.checkUnit a 4

/-- A MOVE whose source bytes are at hand: from the shared store, the array store or the outbound buffer. `lat` is the
latency of a delivery to an array store; a shared-store write takes effect at the end of the issue beat (log 49). -/
def State.moveBytes (s : State) (a e no lat : Nat) (m : Move) (bs : List Byte) : MoveEnd :=
  let x := s.engine a e
  let t := x.addr m.dsb true
  match m.dst with
  | 0 =>
    if m.src ≠ 4 ∧ outboundBytes < s.outboundUse a e + min m.bytes outboundBytes then .frozen (.outbound e)
    else .done ((s.issueWrites a e no 1 t bs).sentBytes a m)
  | 1 => match s.stageMove a e no t bs with
    | some s' => .done (s'.sentBytes a m)
    | none => .frozen (.atomic e)
  | 2 => .done (s.launch a { left := 1, rank := 0, op := .shared (t % 2 ^ 28) bs, eng := e, no := no })
  | 3 => .done (s.launch a { left := lat, rank := 0, op := .deliver (s.moveTargets a m) (t % 2 ^ 20) bs none, eng := e, no := no })
  | _ =>
    let slot := x.nextSlot
    let s := s.openSlot a e (.window slot (x.arm.slotAddr slot) x.arm.slotSize) 1
    .done (s.launch a { left := lat, rank := 0, eng := e, no := no
                        op := .deliver (s.moveTargets a m) (x.arm.slotAddr slot) (bs.take x.arm.slotSize) (some slot) })

/-- The destination of a MOVE from memory or the cache; none while the slot it would fill is not free (R291). -/
def State.moveDst (s : State) (a e : Nat) (m : Move) : Option MoveDst :=
  let x := s.engine a e
  let busy := fun (l : List (Nat × Nat)) (f : List Nat) (n : Nat) => l.any (fun y => y.1 == n) || f.contains n
  match m.dst with
  | 0 => some (.memory (x.addr m.dsb true / 64 * 64))
  | 2 => some (.shared (x.addr m.dsb true % 2 ^ 28))
  | 3 => some (.store (x.addr m.dsb true % 2 ^ 20))
  | 4 => if busy x.filling x.filled x.nextSlot then none
         else some (.window x.nextSlot (x.arm.slotAddr x.nextSlot) x.arm.slotSize)
  | _ => let v := (s.arr a).mv
         if busy v.filling v.filled v.next then none else some (.mv v.next)

/-- A MOVE from memory or the cache into an atomic add: its contributions are staged at once, and the bytes read fill them
(R22, R328). -/
def State.moveAdd (s : State) (a e no : Nat) (m : Move) : MoveEnd :=
  let x := s.engine a e
  let t := x.addr m.dsb true / 64 * 64
  let go := fun (s : State) (f : State → MoveDst → MoveEnd) =>
    match s.stageMove a e no t (List.replicate m.bytes 0) with
    | none => .frozen (.atomic e)
    | some s' => f s' (.staged s.nextOrder (s'.nextOrder - s.nextOrder) t)
  if m.src = 3 then
    let r := s.cacheSrc a (x.sb.getD m.ssb 0) m.half (x.offset false)
    if r.waits then .waits r.state else go (r.noted a m.bytes) fun s d => .done (s.moveFound a e no m d r.src)
  else go s fun s d => .done (s.issueReads a e no 0 d (memPieces (x.addr m.ssb false / 64 * 64) m.bytes))

/-- What a MOVE takes from the array store or the outbound buffer of its array; none while a FREE engine's buffer holds less.
The store's bytes are checked as they are read, and the buffer's as they are sent (Table 15.1). -/
def State.moveSource (s : State) (a e : Nat) (m : Move) : Option (List Byte × State) :=
  let x := s.engine a e
  if m.src = 2 then
    let addr := x.addr m.ssb false % 2 ^ 20
    some ((s.arr a).load addr m.bytes, s.checkPoint a 3 addr)
  else if x.arm.free ∧ x.outbound.length < m.bytes then none
  else
    let fr := s.freeBytes (m.bytes - x.outbound.length)
    some (x.outbound.take m.bytes ++ fr.1, (fr.2.onEng a e fun y => { y with outbound := y.outbound.drop m.bytes }).checkUnit a 4)

/-- What follows a MOVE that is carried out. -/
def MoveEnd.andThen (r : MoveEnd) (f : State → State) : MoveEnd :=
  match r with
  | .done s => .done (f s)
  | o => o

/-- A MOVE whose source bytes are at hand, taken from the array store or the outbound buffer. -/
def State.moveOut (s : State) (a e no lat : Nat) (m : Move) : MoveEnd :=
  match s.moveSource a e m with
  | none => .waits s
  | some r => r.2.moveBytes a e no lat m r.1

/-- A MOVE that reads or writes the shared store, at an address of it, in the half its arming names (R292). -/
def State.moveShared (s : State) (a e no sa : Nat) (m : Move) : MoveEnd :=
  let x := s.engine a e
  match m.src with
  | 1 =>
    if m.dst = 4 ∧ (s.moveDst a e m).isNone then .waits s
    else
      let r := s.sharedRead (s.tenRunning a) sa m.bytes
      (r.2.checkPoint a 6 sa).moveBytes a e no (deliveryBeats a sa m.deliv) m r.1
  | 3 => s.moveCache a e no m (.shared sa)
  | 0 => .done (s.issueReads a e no 0 (.shared sa) (memPieces (x.addr m.ssb false / 64 * 64) m.bytes))
  | _ => s.moveOut a e no 1 m

/-- A MOVE into a place that it fills from memory or the cache (R291, R322). -/
def State.moveIn (s : State) (a e no : Nat) (m : Move) (d : MoveDst) : MoveEnd :=
  if m.src = 3 then s.moveCache a e no m d
  else
    let l := memPieces ((s.engine a e).addr m.ssb false / 64 * 64) m.bytes
    .done (((s.openSlot a e d (d.arrivals l)).issueMove a e no m.bytes d l).closeSlot a e d)

/-- Carries out one MOVE of an engine (R288 to R292). A MOVE along no path of Table 1.3 is skipped as RESERVED_OP, and one
whose DELIV reaches further than its SCOPE is carried out (log 49). -/
def State.runMove (s : State) (a e : Nat) (m : Move) : MoveEnd :=
  let x := s.engine a e
  let no := x.txnNo
  let step := fun (s : State) => s.onEng a e fun y => { y with pc := y.pc + 1, steps := y.steps - 1, txnNo := no + 1 }
  if !movePath m.src m.dst then .done (step (s.deadLetter a dlReservedOp 0 x.word))
  else if m.src = 1 ∨ m.dst = 2 then
    let sa := (if m.src = 1 then x.addr m.ssb false else x.addr m.dsb true) % 2 ^ 28
    let half := if sa < 0x08000000 then 0 else 1
    if x.arm.half ≠ half ∨ x.credit < m.bytes then .done (step (s.deadLetter a dlBusy 0 x.word))
    else (s.moveShared a e no sa m).andThen fun s => step (s.onEng a e fun y => { y with credit := y.credit - m.bytes })
  else if m.src = 2 ∨ m.src = 4 then
    if m.dst = 4 ∧ (s.moveDst a e m).isNone then .waits s else (s.moveOut a e no 2 m).andThen step
  else if m.dst = 1 then (s.moveAdd a e no m).andThen step
  else match s.moveDst a e m with
    | none => .waits s
    | some d => (s.moveIn a e no m d).andThen step

/-! ### Steps -/

/-- After its last step a halting engine stops; it waits for no handle any more. -/
def State.settleHalt (s : State) (a e : Nat) : State :=
  let x := s.engine a e
  if x.halting && x.steps == 0 then (s.onEng a e Engine.stop).bagLeave (fun w => w == bagWho a e) else s

/-- One step of an engine: the instructions before it, then the MOVE. Gives what stops it, if anything does:
`some (some w)` a freeze, `some none` a slot that is not free or the end of the program. -/
def State.engineStep (s : State) (a e : Nat) : State × Option (Option Stalled) :=
  let r := s.between streamFuel a e true
  match r.2 with
  | .stopped => (r.1, some none)
  | .waits _ => (r.1, some (some (.nextBase e)))
  | .move m => match r.1.runMove a e m with
    | .done s' => (s', none)
    | .frozen w => (r.1, some (some w))
    | .waits s' => (s', some none)

/-- The steps that SADV gave an engine; a freeze cause is added to the array's (R290). -/
def State.engineSteps (fuel : Nat) (a e : Nat) (s : State) : State :=
  match fuel with
  | 0 => s
  | n + 1 =>
    if !(s.engine a e).started then s
    else if (s.engine a e).steps = 0 then ((s.between streamFuel a e false).1).settleHalt a e
    else
      let due := (s.engine a e).steps
      let w := (s.engine a e).word
      let r := s.engineStep a e
      match r.2 with
      | none => r.1.engineSteps n a e
      | some (some why) =>
        r.1.onArr a fun A => { A with stalled := if A.stalled.contains why then A.stalled else A.stalled ++ [why] }
      | some none =>
        if !(r.1.engine a e).started && decide (0 < due) then r.1.deadLetter a dlEngineState 0 w else r.1

/-- More than the steps one SADV gives. -/
def stepFuel : Nat := 1024

/-- Every engine of an array takes up the steps it still has to do. -/
def State.retrySteps (s : State) (a : Nat) : State :=
  (List.range 4).foldl (fun (s : State) e =>
    if (s.engine a e).steps = 0 then s else s.engineSteps stepFuel a e) s

/-- Returns a slot that an engine filled: an input slot of the matrix-vector path that it filled, else a slot of its
window (R291). -/
def State.freeWinSlot (s : State) (a e slot : Nat) : State :=
  s.onArr a fun A =>
    if slot < 16 && A.mv.filled.contains slot && Tbl.get 0 A.mv.owner slot == e + 1 then
      { A with mv := { A.mv with filled := A.mv.filled.filter (fun n => n != slot), owner := Tbl.set 0 A.mv.owner slot 0 } }
    else
      let x := A.eng e
      A.setEng e { x with filled := x.filled.filter (fun n => n != slot) }

/-- Starts an engine's program (R288, R291). -/
def State.startEngine (s : State) (a e entry : Nat) : State :=
  s.onArr a fun A =>
    let mine := fun n => Tbl.get 0 A.mv.owner n == e + 1
    let mv := { A.mv with filled := A.mv.filled.filter (fun n => !mine n), filling := A.mv.filling.filter (fun f => !mine f.1) }
    let x := A.eng e
    let y := { x with
      started := true, pc := entry, steps := 0, halting := false, ix := [0, 0, 0, 0], loops := [], nextSlot := 0
      filled := [], filling := [], sb := if x.sb = [] then x.arm.bases else x.sb }
    { A.setEng e y with mv := mv }

/-- Returns credit to the paced engines when a beat completes (R292). -/
def ArrayState.gainCredit (A : ArrayState) : ArrayState :=
  (List.range 4).foldl (fun (A : ArrayState) e =>
    let x := A.eng e
    if x.arm.armed && !x.arm.free then A.setEng e { x with credit := min 16384 (x.credit + 32 * x.arm.rate) } else A) A

/-- A point copy between two descriptors (R248): its rows, read in the issue beat; a shared-store write takes effect at the
end of that beat, and a copy within one store, no row of Table 1.3, is carried out, both the model's choices (R22; log 49). -/
def State.scopyRun (s : State) (a e : Nat) (ds dd : Descr) : State :=
  let t := s.tenRunning a
  let A := s.arr a
  (List.range ds.rows).foldl (fun (s : State) i =>
    let off := i * ds.rstride
    let to_ := if dd.space = 1 then A.eaShared dd (i * dd.rstride) else A.eaStore dd (i * dd.rstride)
    let r := if ds.space = 1 then
        let x := s.sharedRead t (A.eaShared ds off) ds.rowLen
        (x.1, x.2.checkPoint a 6 (A.eaShared ds off))
      else (A.load (A.eaStore ds off) ds.rowLen, s.checkPoint a 3 (A.eaStore ds off))
    let lat := if dd.space = 1 then 1 else if ds.space = 1 then deliveryBeats a (A.eaShared ds off) 0 else 2
    let op := if dd.space = 1 then Landing.shared to_ r.1 else if ds.space = 1 then Landing.deliver [a] to_ r.1 none
      else Landing.bytes [(to_, r.1)]
    r.2.launch a { left := lat, rank := 0, op := op, eng := e, no := (s.engine a e).txnNo }) s

end Sys2Proof.Machine
end

