-- ==== Sys2Proof/Machine/Issue.lean ====
section
/-! DEFINITION. Issue of the operations of a bundle (spec/10_instructions.md R236 to R252; spec/04_arrays.md R78 to R106;
spec/05_functions.md R109 to R126; spec/11_queues_and_sync.md R280 to R291; spec/02_beats.md R36 to R45). -/
namespace Sys2Proof.Machine

/-! ### When an array issues -/

/-- Some cause of hold is present (R384). -/
def State.hold (s : State) : Bool := s.mon.brownout || s.mon.hot || s.flag Reg.PWR_HOLD_REQ

/-- An external stop of an array: power hold, a debug halt, quarantine, a halt point, or abandonment that waits for
writes (R32, R266, R359). -/
def State.extStop (s : State) (a : Nat) : Bool :=
  s.hold || s.segment.halts.contains (groupOf a) || (s.cond a).quarantined || (s.arr a).seq.state == .halted ||
    (s.arr a).abandon == some 0

/-- The array stands before its halt point (R266). -/
def ArrayState.atHalt (A : ArrayState) : Bool :=
  A.modes.haltEn && !A.seq.resumed && A.seq.routine == A.modes.haltRoutine && A.seq.pcWord == A.modes.haltPc

/-- The array is in a beat in which it may issue operations: it runs, nothing freezes it, it does not stand before its halt
point, and no WAIT, group load or vendor helper occupies the beat (R27, R29, R33, R264, R266). -/
def State.canIssue (s : State) (a : Nat) : Bool :=
  let A := s.arr a
  s.arrOn a && A.seq.state == .running && A.abandon.isNone && !s.extStop a && !A.slip && A.stalled.isEmpty && A.frzLen == 0 &&
    !A.atHalt && A.seq.helper.isNone && A.seq.waitLeft == 0 && (A.seq.stall == 0 || A.seq.stall == 16)

/-- Records the 32-byte units of the array store that an access uses in this beat (R90). -/
def State.touch (s : State) (a : Nat) (units : List Nat) : State :=
  s.onArr a fun A => { A with seq := { A.seq with touched := A.seq.touched ++ units } }

/-- Distinct units of a list of array-store bytes. -/
def unitsOfDests (l : List Dest) : List Nat :=
  (l.filterMap (fun d => match d with | .store x => some (x / 32) | _ => none)).eraseDups

/-! ### Feeders -/

/-- Free elements of a slice whose format is no operand format (log 2). -/
def State.freeSlice (s : State) : Slice × State :=
  ({ code := 1, elems := (List.range 128).map (fun i => (Config.freeWord (s.freeCtr + i)).toNat % 65536) }, s.drew 128)

/-- The first array-store address that a slice of one reduction step is read from (R91). -/
def ArrayState.feederAddr (A : ArrayState) (d : Descr) (kstep : Nat) : Nat :=
  let b := d.elemBitOff kstep 0 0 / 8
  if d.space = 2 then A.winAddr d (A.ptrValue d + b) else A.eaStore d b

/-- A feeder reads a slice and launches its delivery (R91, R242). -/
def State.feederGo (s : State) (a : Nat) (sideB : Bool) (desc kstep : Nat) : State :=
  let A := s.arr a
  let d := A.descr desc
  let s := s.touch a (unitsOfDests (A.opReads (.feederRead (BitVec.ofNat 10 a) ⟨false, 0, false⟩ sideB (BitVec.ofNat 6 desc) (BitVec.ofNat 7 kstep))))
  let r := if d.fmt = 0 then s.freeSlice else (A.slice d kstep, s)
  (r.2.checkPoint a 3 (A.feederAddr d kstep)).launch a { left := 2, rank := if sideB then 2 else 1, op := .feeder sideB r.1 }

/-- Adds a cause of freeze to the present beat. -/
def State.stallOn (s : State) (a : Nat) (w : Stalled) : State :=
  s.onArr a fun A => { A with stalled := if A.stalled.contains w then A.stalled else A.stalled ++ [w] }

/-- Feeder operation (R242). -/
def State.issueFeeder (s : State) (a w : Nat) (sideB : Bool) (desc : BitVec 6) (kstep : BitVec 7) : State :=
  let d := (s.arr a).descr desc.toNat
  if !d.feederOk then s.deadLetter a dlBadDesc (if sideB then 2 else 1) w
  else if (s.arr a).sliceReady d kstep.toNat then s.feederGo a sideB desc.toNat kstep.toNat
  else s.stallOn a (.feederRead sideB desc.toNat kstep.toNat)

/-! ### Array slot -/

/-- MMA (R60, R78, R92). -/
def State.issueMma (s : State) (a w : Nat) (f : MmaFields) : State :=
  let r := (s.arr a).regs
  if isFp8 r.presA.code != isFp8 r.presB.code then s.deadLetter a dlClassMix 3 w
  else s.launch a { left := 4, rank := 3, op := .mma r.presA r.presB f }

/-- A DOT reads its slot and query (R105). -/
def State.dotGo (s : State) (a : Nat) (f : DotFields) : State :=
  let m := (s.arr a).mv
  s.launch a { left := 6, rank := 3, op := .dotAdd f (m.slotLanes f.mslot.toNat) (m.queryChunk f.qry.toNat f.chunk.toNat) }

/-- DOT (R105; Table 10.5). -/
def State.issueDot (s : State) (a w : Nat) (f : DotFields) : State :=
  if 127 < f.e0.toNat + f.qry.toNat then s.deadLetter a dlQueryRange 3 w
  else if (s.arr a).mv.filled.contains f.mslot.toNat then s.dotGo a f
  else s.stallOn a (.dotRead f)

/-- An AXPY reads its slot and factors (R105). -/
def State.axpyGo (s : State) (a : Nat) (f : AxpyFields) : State :=
  let A := s.arr a
  s.launch a { left := 6, rank := 3, op := .axpyAdd f (A.mv.slotLanes f.mslot.toNat) (A.vreg f.vreg.toNat) }

/-- AXPY (R105; Table 10.5). -/
def State.issueAxpy (s : State) (a : Nat) (f : AxpyFields) : State :=
  if (s.arr a).mv.filled.contains f.mslot.toNat then s.axpyGo a f else s.stallOn a (.axpyRead f)

/-- The array-store address of a tile field (Table 10.6, R241). -/
def ArrayState.tileAddr (A : ArrayState) (t : TileAddr) : Nat :=
  (t.tile.toNat * 4096 + (if t.pten then (A.ptr t.pt.toNat).value else 0)) % 2 ^ 20

/-- Beats between two swaps of an array (R85). -/
def swapSpacing : Nat := 16

/-- SWAP (R82 to R85). -/
def State.issueSwap (s : State) (a w : Nat) (g : BitVec 3) (d : SwapDest) : State :=
  let A := s.arr a
  if A.acc.swapBusy ≠ 0 then s.deadLetter a dlSwapSpacing 3 w
  else
    let tile := match d with | .store t => A.tileAddr t | _ => 0
    (s.onArr a fun A => { A with acc := { A.acc with swapBusy := swapSpacing } }).launch a
      { left := 1, rank := 5, op := .swap g.toNat d tile }

/-- ROWSCALE (R88). -/
def State.issueRowscale (s : State) (a : Nat) (g : BitVec 3) (v : BitVec 5) : State :=
  s.launch a { left := 2, rank := 4, op := .rowscale g.toNat ((s.arr a).vreg v.toNat) }

/-- GLOAD: the first rows are read in the issue beat, and the array issues nothing for 16 beats (R29, R86). -/
def State.issueGload (s : State) (a : Nat) (g : BitVec 3) (t : TileAddr) : State :=
  let addr := (s.arr a).tileAddr t
  (s.onArr a fun A => { A with seq := { A.seq with stall := 16 } }).launch a
    { left := 0, rank := 6, op := .loadRow g.toNat addr 0 [] }

/-! ### Special function (R109, R110, R135, R136, R244, R245) -/

/-- Evaluations that occupy a slot in this beat. -/
def ArrayState.evalBusy (A : ArrayState) : Nat :=
  (A.flight.filter (fun f => (match f.op with | .eval _ _ _ => true | _ => false) && decide (0 < f.left))).length

/-- Beats until the last of the adds to RSUM in flight lands (R137). -/
def ArrayState.sumsDue (A : ArrayState) : Nat :=
  A.flight.foldl (fun n f => match f.op with | .eval _ true _ | .rsumAdd _ => max n f.left | _ => n) 0

/-- The landings of an evaluation of `n` beats: its add to RSUM comes after those that issued before it, so it lands apart where one of
them lands later than its result (R137; log 49). -/
def ArrayState.evalFlights (A : ArrayState) (n : Nat) (vals : List Word) (sum : Bool) (reg : Option Nat) : List Flight :=
  if sum && decide (n < A.sumsDue) then
    [{ left := n, rank := 8, op := .eval vals false reg }, { left := A.sumsDue, rank := 8, op := .rsumAdd vals }]
  else [{ left := n, rank := 8, op := .eval vals sum reg }]

/-- The lanes whose bit of the keep tile is 0 (R245). -/
def ArrayState.maskedLanes (A : ArrayState) : List Nat :=
  (List.range 32).filter (fun r => !bitOf (A.loadLe ((A.regs.amsk + 4 * r) % 2 ^ 20) 4) A.regs.acol)

/-- The argument of lane `r` (R135, R245). -/
def ArrayState.sfArg (A : ArrayState) (f : SfFields) (masked : List Nat) (v : Word) (r : Nat) : Word :=
  if masked.contains r then ninf32
  else
    let k := Tbl.get 0 A.regs.aks r
    match f.form.toNat with
    | 0 => v
    | 1 => argFma v A.regs.amu k
    | _ => argSubMul v k A.regs.amu

/-- Special-function operation. Its accesses to the array store count for a bank conflict where they are those of its source and its result,
and not those of a keep tile's mask words, which is the model's choice (R90; log 49). -/
def State.issueSf (s : State) (a w : Nat) (f : SfFields) : State :=
  let A := s.arr a
  let ds := A.descr f.src.toNat
  let dd := A.descr f.dst.toNat
  if f.form.toNat = 3 then s.deadLetter a dlReservedOp 4 w
  else if 5 ≤ f.dfmt.toNat then s.deadLetter a dlBadFmt 4 w
  else if (f.srck && !ds.laneOk) || (f.dstk && !dd.laneOk) then s.deadLetter a dlBadDesc 4 w
  else if 8 ≤ A.evalBusy then s.deadLetter a dlBusy 4 w
  else
    let vs := if f.srck then A.laneRead ds else A.vreg (f.src.toNat % 32)
    let masked := if f.mask then A.maskedLanes else []
    let args := (List.range 32).map (fun r => A.sfArg f masked (vs.getD r 0) r)
    let hit := if f.guard then (List.range 32).filter (fun r => !masked.contains r && flt A.regs.agrd (args.getD r 0)) else []
    let bank := if A.banks.active then 1 else 0
    let img := A.banks.image bank f.fslot.toNat
    let vals := args.map (fun x => cvtHeld f.dfmt.toNat (evalImage img (A.banks.image bank) x))
    let n := 2 * imgLatency img
    let s := if f.srck then (s.touch a (unitsOfDests (A.laneDests ds))).checkPoint a 3 (A.eaStore ds 0) else s
    let s := if f.mask then s.checkPoint a 3 (A.regs.amsk % 2 ^ 20) else s
    let s := (A.evalFlights n vals f.sum (if f.dstk then none else some (f.dst.toNat % 32))).foldl (fun (s : State) x => s.launch a x) s
    let s := if f.dstk then s.launch a { left := n + 2, rank := 8, op := .bytes (A.laneCells dd f.dfmt.toNat vals) } else s
    let s := if hit.isEmpty then s else s.launch a { left := 1, rank := 8, op := .guard hit }
    s.onArr a fun A => { A with regs := { A.regs with acol := (A.regs.acol + 1) % 32 } }

/-! ### Vector (R246) -/

/-- Operand VB: a vector register, or a scalar broadcast with BS. -/
def ArrayState.vbLane (A : ArrayState) (f : VFields) (i : Nat) : Word :=
  if f.bs then A.sreg f.vb.toNat else A.vlane f.vb.toNat i

/-- The place among landings of what the vector slot issues (Table 2.4). -/
def laneRank : Nat := 9

/-- Launches a write of a vector register. -/
def State.launchV (s : State) (a lat : Nat) (vd : BitVec 5) (l : List Word) : State :=
  s.launch a { left := lat, rank := laneRank, op := .vreg vd.toNat l }

/-- A lane operation of VA and VB. -/
def State.vec2 (s : State) (a : Nat) (f : VFields) (lat : Nat) (g : Word → Word → Word) : State :=
  let A := s.arr a
  s.launchV a lat f.vd ((List.range 32).map (fun i => g (A.vlane f.va.toNat i) (A.vbLane f i)))

/-- A lane operation of VA, VB and VC. -/
def State.vec3 (s : State) (a : Nat) (f : VFields) (lat : Nat) (g : Word → Word → Word → Word) : State :=
  let A := s.arr a
  s.launchV a lat f.vd ((List.range 32).map (fun i => g (A.vlane f.va.toNat i) (A.vbLane f i) (A.vlane f.vc.toNat i)))

/-- FSEL's choice: a NaN counts as not zero. -/
def selectLane (x y z : Word) : Word := if isZero32 x then z else y

/-- FDIV, one per lane every 4 beats (R38). -/
def State.issueFdiv (s : State) (a w : Nat) (f : VFields) : State :=
  if (s.arr a).vdivBusy ≠ 0 then s.deadLetter a dlBusy 5 w
  else (s.vec2 a f 12 fdiv).onArr a fun A => { A with vdivBusy := 4 }

/-- What the VB field of CVT or EXTR codes: the field itself, or the broadcast scalar with BS. -/
def ArrayState.vbCode (A : ArrayState) (f : VFields) : Nat := if f.bs then (A.sreg f.vb.toNat).toNat else f.vb.toNat

/-- CVT. -/
def State.issueCvt (s : State) (a w : Nat) (f : VFields) : State :=
  let A := s.arr a
  if 5 ≤ A.vbCode f then s.deadLetter a dlBadFmt 5 w
  else s.launchV a 3 f.vd ((A.vreg f.va.toNat).map (cvtHeld (A.vbCode f)))

/-- VLD. -/
def State.issueVld (s : State) (a w : Nat) (vd : BitVec 5) (desc : BitVec 6) : State :=
  let A := s.arr a
  let d := A.descr desc.toNat
  if !d.laneOk then s.deadLetter a dlBadDesc 5 w
  else ((s.touch a (unitsOfDests (A.laneDests d))).checkPoint a 3 (A.eaStore d 0)).launchV a 2 vd (A.laneRead d)

/-- VST. -/
def State.issueVst (s : State) (a w : Nat) (vs : BitVec 5) (desc : BitVec 6) : State :=
  let A := s.arr a
  let d := A.descr desc.toNat
  if !d.laneOk then s.deadLetter a dlBadDesc 5 w
  else s.launch a { left := 2, rank := laneRank, op := .bytes (A.laneCells d d.fmt (A.vreg vs.toNat)) }

/-- EXTR. -/
def State.issueExtr (s : State) (a : Nat) (f : VFields) : State :=
  let A := s.arr a
  s.launch a { left := 3, rank := laneRank, op := .sreg f.vd.toNat (A.vlane f.va.toNat (A.vbCode f % 32)) }

/-! ### Scalar and control (R247 to R252) -/

/-- Launches a write of a scalar register. -/
def State.launchS (s : State) (a : Nat) (sd : BitVec 5) (v : Word) : State :=
  s.launch a { left := 1, rank := 10, op := .sreg sd.toNat v }

/-- A scalar operation of form R. -/
def State.scal2 (s : State) (a : Nat) (f : RForm) (g : Word → Word → Word) : State :=
  let A := s.arr a
  s.launchS a f.sd (g (A.sreg f.sa.toNat) (A.sreg f.sb.toNat))

/-- Launches an operation of the scalar slot. -/
def State.launchX (s : State) (a lat : Nat) (op : Landing) : State := s.launch a { left := lat, rank := 10, op := op }

/-- Sets where the sequencer goes after the present bundle. -/
def State.flow (s : State) (a : Nat) (f : Flow) : State := s.onArr a fun A => { A with seq := { A.seq with flow := f } }

/-- CMPSET: the new configuration, evaluated on the counters of the issue beat (R239). -/
def State.issueCmpset (s : State) (a : Nat) (f : CmpSetFields) : State :=
  let A := s.arr a
  let c : Comparator :=
    { rel := f.rel.toNat, ct := f.ct.toNat, osrc := f.osrc, imm := if f.osrc then f.imm.toNat % 8 else f.imm.toNat }
  s.launchX a 1 (.cmpCfg f.cmp.toNat { c with result := A.regs.evalCmp c })

/-- REPEAT: its iteration count, 0 for one that skips its body (R249). -/
def ArrayState.repeatCount (A : ArrayState) (csrc : Bool) (count1 : BitVec 12) : Nat :=
  if csrc then (A.regs.counter (count1.toNat % 8)).toNat else count1.toNat + 1

/-- REPEAT. -/
def State.issueRepeat (s : State) (a : Nat) (body1 : BitVec 6) (csrc : Bool) (count1 : BitVec 12) : State :=
  let n := (s.arr a).repeatCount csrc count1
  if n = 0 then s.flow a (.skip (body1.toNat + 1)) else s.flow a (.open_ (body1.toNat + 1) n)

/-- CALL of a helper routine (R251, R258, R264). -/
def State.issueCall (s : State) (a w : Nat) (r : BitVec 10) : State :=
  if 4 ≤ (s.arr a).seq.calls.length then s.deadLetter a dlCallDepth 6 w
  else if s.kindAt r.toNat (s.arr a).seq.version ≠ 2 ∨ !s.mayUse (s.tenRunning a) r.toNat then s.deadLetter a dlCallTarget 6 w
  else s.flow a (.call r.toNat (s.arr a).seq.version)

/-- RET: at depth 0 it acts as END (R251). -/
def State.issueRet (s : State) (a : Nat) : State :=
  s.flow a (if (s.arr a).seq.calls.isEmpty then .stop else .ret)

/-- ASTG (R245). -/
def State.issueAstg (s : State) (a : Nat) (f : AstgFields) : State :=
  let A := s.arr a
  s.launchX a 1 (.astg (A.sreg f.sa.toNat) (A.sreg f.sb.toNat) (A.vreg f.vk.toNat) ((A.sreg f.sm.toNat).toNat % 2 ^ 20) f.rstcol)

/-- The bits of a descriptor word that Table 10.3 defines; the others are reserved and read zero (R8, R240). -/
def descMask (word : Nat) : Word := match word with | 0 => 0x7FFFFFFF#32 | 1 => 0xFFFF01FF#32 | _ => 0xFFFFFFFF#32

/-- DSET: reads the 16 bytes at SA, bits [3:0] ignored; lands at issue + 2. -/
def State.issueDset (s : State) (a : Nat) (desc : BitVec 6) (sa : BitVec 5) : State :=
  let A := s.arr a
  let at_ := (A.sreg sa.toNat).toNat / 16 * 16 % 2 ^ 20
  (s.checkPoint a 3 at_).launchX a 2 (.desc desc.toNat ((List.range 4).map (fun i => A.loadW (at_ + 4 * i) &&& descMask i)))

/-- LBPOST (R280, R287); a memory- or cache-sourced MOVE into the shared store that is still outstanding does not hold it, which
is the model's choice (R18; log 49). -/
def State.issueLbpost (s : State) (a w : Nat) (obj : BitVec 13) (sa : BitVec 5) : State :=
  let t := s.tenRunning a
  if !s.lbxIn t obj.toNat then s.deadLetter a dlObjRange 6 w
  else match s.journalNext a with
    | some _ => s.journalPass a
    | none => (s.journalAdd a .post).postAndLand t obj.toNat ((s.arr a).sreg sa.toNat).toNat

/-- A letterbox has reached a target. -/
def State.lbReached (s : State) (a obj target : Nat) : Bool :=
  decide (target ≤ (s.lb (s.lbxAbs (s.tenRunning a) obj)).toNat)

/-- LBWAIT: a wait that is satisfied stays so for its beat (R280). -/
def State.issueLbwait (s : State) (a w : Nat) (obj : BitVec 13) (sa : BitVec 5) : State :=
  let v := ((s.arr a).sreg sa.toNat).toNat
  if !s.lbxIn (s.tenRunning a) obj.toNat then s.deadLetter a dlObjRange 6 w
  else if s.lbReached a obj.toNat v || (s.arr a).seq.lbMet then s.onArr a fun A => { A with seq := { A.seq with lbMet := true } }
  else s.stallOn a (.lbWait obj.toNat v)

/-- LBREAD. -/
def State.issueLbread (s : State) (a w : Nat) (obj : BitVec 13) (sd : BitVec 5) : State :=
  let t := s.tenRunning a
  if !s.lbxIn t obj.toNat then s.deadLetter a dlObjRange 6 w else s.launchS a sd (s.lb (s.lbxAbs t obj.toNat))

/-- A put that may wait; `none` while the mailbag is full. -/
def State.putGo (s : State) (a obj : Nat) (h : Word) : Option State :=
  (s.bagTryPut (s.mbxAbs (s.tenRunning a) obj) (bagWho a 4) h (s.arr a).task).map (fun s => s.journalAdd a .put)

/-- MBPUT (R282, R287). -/
def State.issueMbput (s : State) (a w : Nat) (obj : BitVec 13) (sa : BitVec 5) : State :=
  let t := s.tenRunning a
  let h := (s.arr a).sreg sa.toNat
  if !s.mbxIn t obj.toNat then s.deadLetter a dlObjRange 6 w
  else match s.journalNext a with
    | some _ => s.journalPass a
    | none => match s.putGo a obj.toNat h with
      | some s' => s'
      | none => (s.bagWaitPut (s.mbxAbs t obj.toNat) (bagWho a 4)).stallOn a (.mbPut obj.toNat h)

/-- A take that may wait; `none` while the mailbag is empty. -/
def State.takeGo (s : State) (a obj sd : Nat) : Option State :=
  (s.bagTake (s.mbxAbs (s.tenRunning a) obj) (bagWho a 4)).map (fun r =>
    (r.2.journalAdd a (.take r.1)).launchX a 1 (.sreg sd r.1))

/-- MBTAKE (R282, R287). -/
def State.issueMbtake (s : State) (a w : Nat) (obj : BitVec 13) (sd : BitVec 5) : State :=
  let t := s.tenRunning a
  if !s.mbxIn t obj.toNat then s.deadLetter a dlObjRange 6 w
  else match s.journalNext a with
    | some (.take h) => (s.journalPass a).launchX a 1 (.sreg sd.toNat h)
    | some _ => s.journalPass a
    | none => match s.takeGo a obj.toNat sd.toNat with
      | some s' => s'
      | none => (s.bagWaitTake (s.mbxAbs t obj.toNat) (bagWho a 4)).stallOn a (.mbTake obj.toNat sd.toNat)

/-- A generation completes when the arrivals reach the usable arrays of the tenancy (R284). -/
def State.collectCheck (s : State) (t : Nat) : State :=
  let c := s.collection t
  if !c.arrived.isEmpty && decide ((s.usable t).length ≤ c.arrived.length) then
    s.setCollection t { gen := (c.gen + 1) % 65536, arrived := [] }
  else s

/-- An array arrives at its tenancy's collection: journalled, counted, and the generation completes if it is the last (R284). -/
def State.arriveAt (s : State) (a : Nat) : State :=
  let t := s.tenRunning a
  let c := s.collection t
  ((s.journalAdd a .arrive).setCollection t { c with arrived := c.arrived.filter (fun b => b != a) ++ [a] }).collectCheck t

/-- COLLECT: arrive, and freeze until the generation completes (R284, R287). The COLLECT of a bundle whose beat is frozen has
arrived when the beat is met again. -/
def State.issueCollect (s : State) (a : Nat) : State :=
  let t := s.tenRunning a
  if (s.arr a).seq.arrived then (if (s.collection t).arrived.contains a then s.stallOn a .arrive else s)
  else match s.journalNext a with
  | some _ => s.journalPass a
  | none =>
    let s := s.arriveAt a
    if (s.collection t).arrived.contains a then s.stallOn a .arrive else s

/-! ### Stream slot (R248, R288 to R291) -/

/-- A stream operation on an engine that holds a started program. -/
def State.onStarted (s : State) (a w : Nat) (e : BitVec 2) (f : State → State) : State :=
  if (s.engine a e.toNat).started then f s else s.deadLetter a dlEngineState 0 w

/-- SADV: a PACED engine executes its next N steps in this beat; a FREE one runs by itself (R290). -/
def State.issueSadv (s : State) (a w : Nat) (e : BitVec 2) (n1 : BitVec 8) : State :=
  s.onStarted a w e fun s =>
    if (s.engine a e.toNat).arm.free then s
    else (s.onEng a e.toNat fun x => { x with steps := x.steps + n1.toNat + 1, word := w }).engineSteps stepFuel a e.toNat

/-- SHALT: the engine stops after the steps it has issued. -/
def State.issueShalt (s : State) (a w : Nat) (e : BitVec 2) : State :=
  s.onStarted a w e fun s => (s.onEng a e.toNat fun x => { x with halting := true }).settleHalt a e.toNat

/-- SCOPY. -/
def State.issueScopy (s : State) (a w : Nat) (e : BitVec 2) (dsrc ddst : BitVec 6) : State :=
  s.onStarted a w e fun s =>
    let A := s.arr a
    let ds := A.descr dsrc.toNat
    let dd := A.descr ddst.toNat
    if 2 ≤ ds.space ∨ 2 ≤ dd.space then s.deadLetter a dlBadDesc 0 w else s.scopyRun a e.toNat ds dd

/-! ### One operation -/

/-- Starts an operation whose predicate holds; `w` is its native slot word. -/
def State.issueInstr (s : State) (a w : Nat) (i : Instr) : State :=
  let A := s.arr a
  match i with
  | .feederRead _ _ b d k => s.issueFeeder a w b d k
  | .mma _ _ f => s.issueMma a w f
  | .dot _ _ f => s.issueDot a w f
  | .axpy _ _ f => s.issueAxpy a f
  | .swap _ _ g d => s.issueSwap a w g d
  | .rowscale _ _ g v => s.issueRowscale a g v
  | .gload _ _ g t => s.issueGload a g t
  | .specialFunctionIssue _ _ f => s.issueSf a w f
  | .fadd _ _ f => s.vec2 a f 3 fadd
  | .fsub _ _ f => s.vec2 a f 3 fsub
  | .fmul _ _ f => s.vec2 a f 3 fmul
  | .fma _ _ f => s.vec3 a f 3 ffma
  | .fnma _ _ f => s.vec3 a f 3 (fun x y z => ffma (fneg32 x) y z)
  | .fdiv _ _ f => s.issueFdiv a w f
  | .fmax _ _ f => s.vec2 a f 3 fmax
  | .fmin _ _ f => s.vec2 a f 3 fmin
  | .fclt _ _ f => s.vec2 a f 3 (fun x y => if flt x y then one32 else 0)
  | .fsel _ _ f => s.vec3 a f 3 selectLane
  | .cvt _ _ f => s.issueCvt a w f
  | .iand _ _ f => s.vec2 a f 3 (· &&& ·)
  | .ior _ _ f => s.vec2 a f 3 (· ||| ·)
  | .iadd _ _ f => s.vec2 a f 3 (· + ·)
  | .iclt _ _ f => s.vec2 a f 3 (fun x y => if x < y then 1 else 0)
  | .vld _ _ vd d => s.issueVld a w vd d
  | .vst _ _ vs d => s.issueVst a w vs d
  | .xsum _ _ f => s.launchV a 15 f.vd (List.replicate 32 (laneSum (A.vreg f.va.toNat)))
  | .bcast _ _ f => s.launchV a 3 f.vd (List.replicate 32 (A.sreg f.va.toNat))
  | .extr _ _ f => s.issueExtr a f
  | .rsumrd _ _ f => s.launchV a 3 f.vd ((List.range 32).map A.rsum)
  | .rsumwr _ _ f => s.launch a { left := 3, rank := laneRank, op := .rsumW (A.vreg f.va.toNat) }
  | .laneid _ _ f => s.launchV a 3 f.vd ((List.range 32).map natToFp32)
  | .gfrd _ _ f => s.launchV a 3 f.vd ((List.range 32).map (fun i => if Tbl.get false A.regs.guard i then one32 else 0))
  | .add _ _ f => s.scal2 a f (· + ·)
  | .sub _ _ f => s.scal2 a f (· - ·)
  | .andW _ _ f => s.scal2 a f (· &&& ·)
  | .orW _ _ f => s.scal2 a f (· ||| ·)
  | .xorW _ _ f => s.scal2 a f (· ^^^ ·)
  | .shl _ _ f => s.scal2 a f (fun x y => x <<< (y.toNat % 32))
  | .shr _ _ f => s.scal2 a f (fun x y => x >>> (y.toNat % 32))
  | .addi _ _ sd sa imm => s.launchS a sd (A.sreg sa.toNat + imm.signExtend 32)
  | .lli _ _ sd imm => s.launchS a sd (imm.setWidth 32)
  | .lui _ _ sd imm => s.launchS a sd (imm ++ (A.sreg sd.toNat).setWidth 16)
  | .mul _ _ f => s.scal2 a f (· * ·)
  | .ptset _ _ pt sa => s.launchX a 1 (.ptset pt.toNat ((A.sreg sa.toNat).toNat % 2 ^ 28))
  | .ptcfg _ _ pt l r sa => s.launchX a 1 (.ptcfg pt.toNat (A.sreg sa.toNat) (l.toNat % 3) r)
  | .ptrd _ _ sd pt => s.launchS a sd (BitVec.ofNat 32 (A.ptr pt.toNat).value)
  | .ctset _ _ ct sa => s.launchX a 1 (.counter ct.toNat (A.sreg sa.toNat))
  | .ctadd _ _ ct imm => s.launchX a 1 (.counter ct.toNat (A.regs.counter ct.toNat + imm.signExtend 32))
  | .ctrd _ _ sd ct => s.launchS a sd (A.regs.counter ct.toNat)
  | .cmpset _ _ f => s.issueCmpset a f
  | .repeatBody _ _ b c n => s.issueRepeat a b c n
  | .call _ _ r => s.issueCall a w r
  | .ret _ _ => s.issueRet a
  | .endTask _ _ => s.flow a .stop
  | .tepoch _ _ => s.launchX a 1 .epoch
  | .astg _ _ f => s.issueAstg a f
  | .dset _ _ d sa => s.issueDset a d sa
  | .lbpost _ _ o sa => s.issueLbpost a w o sa
  | .lbwait _ _ o sa => s.issueLbwait a w o sa
  | .lbread _ _ o sd => s.issueLbread a w o sd
  | .mbput _ _ o sa => s.issueMbput a w o sa
  | .mbtake _ _ o sd => s.issueMbtake a w o sd
  | .collectionArrival _ _ => s.issueCollect a
  | .sgo _ _ e entry => s.startEngine a e.toNat entry.toNat
  | .sadv _ _ e n1 => s.issueSadv a w e n1
  | .shalt _ _ e => s.issueShalt a w e
  | .sfree _ _ e slot => s.onStarted a w e fun s => (s.freeWinSlot a e.toNat slot.toNat).retrySteps a
  | .scopy _ _ e x y => s.issueScopy a w e x y
  | _ => s

/-- A predicated operation issues only if its predicate holds; a REPEAT that does not issue skips its body (R238, R249). -/
def State.issueOne (s : State) (a w : Nat) (p : Pred) (i : Instr) : State :=
  if (s.arr a).regs.predTrue p then s.issueInstr a w i
  else match i with
    | .repeatBody _ _ b _ _ => s.flow a (.skip (b.toNat + 1))
    | _ => s

/-! ### Hazards (R36, R37, R43, R44) -/

/-- A hazard: kind 1 EARLY_READ, 2 COLLISION, 3 OVERTAKE; beats short; destination; of a write that overtakes, where it comes from. -/
structure Hazard where
  kind : Nat
  short : Nat
  dest : Dest
  org : Option Origin := none
deriving DecidableEq, Repr

/-- The first destination two lists share. -/
def common (l m : List Dest) : Option Dest := l.find? (fun d => m.contains d)

/-- Reads made `after` beats from now that are short of a write in flight (R36). -/
def ArrayState.shortOf (A : ArrayState) (rs : List Dest) (after : Nat) : List Hazard :=
  (A.flight.filter (fun f => f.age != 0)).flatMap (fun f => (A.writesOf f).filterMap (fun w =>
    if w.1 ≤ after then none
    else (common rs w.2).map (fun d => { kind := 1, short := min (w.1 - after) 15, dest := d })))

/-- The rows that a group load reads in the beats after its issue, each with its beat (R86). -/
def ArrayState.laterReads (A : ArrayState) (i : Instr) : List (Nat × List Dest) :=
  match i with
  | .gload _ _ _ t => (List.range 15).map (fun r => (r + 1, storeDests (A.tileAddr t + 256 * (r + 1)) 256))
  | _ => []

/-- The reads of an operation that are short of a write in flight (R36); `more` are those a stream engine makes for it. -/
def ArrayState.earlyReads (A : ArrayState) (p : Pred) (i : Instr) (more : List Dest) : List Hazard :=
  let go := A.regs.predTrue p
  A.shortOf ((if p.pen then [Dest.cmp p.cmp.toNat] else []) ++ (if go then A.opReads i ++ more else [])) 0 ++
    (if go then (A.laterReads i).flatMap (fun r => A.shortOf r.2 r.1) else [])

/-- The hazards between new writes and the writes in flight before them (R37). A write in flight that lands after a new one overtakes
it; the two issued in different beats (R43). -/
def ArrayState.writeHazards (A : ArrayState) (free : Nat) (old new : List Flight) : List Hazard :=
  new.flatMap (fun n => (A.writesOf n).flatMap (fun x => old.flatMap (fun f => (A.writesOf f).filterMap (fun w =>
    match common x.2 w.2 with
    | none => none
    | some d =>
      if w.1 = x.1 then some { kind := 2, short := (Config.freeWord free).toNat % 16, dest := d }
      else if x.1 < w.1 ∧ f.age ≠ 0 then some { kind := 3, short := min (w.1 - x.1) 15, dest := d, org := some f.org }
      else none))))

/-- Entries of an audit log (Table 2.6). -/
def auditDepth : Nat := 64

/-- Where the operations come from that part `k` issues in the present beat. -/
def ArrayState.origin (A : ArrayState) (k : Nat) : Origin :=
  { beat := A.ctr.beats % 2 ^ 32, pc := A.seq.pcWord, slot := slotNo k, held := !A.seq.heldParts.isEmpty }

/-- The operations of an array in flight, from the `n`-th on, come from there. -/
def State.markNew (s : State) (a n : Nat) (o : Origin) : State :=
  s.onArr a fun A => { A with flight := A.flight.take n ++ (A.flight.drop n).map (fun (f : Flight) => { f with org := o }) }

/-- Logs one hazard, if audit mode logs its kind: of the bundle that overtakes, or of part `k` of the present one (R43). -/
def State.auditOne (s : State) (a k : Nat) (held : Bool) (h : Hazard) : State :=
  let A := s.arr a
  let o := h.org.getD { A.origin k with held := held }
  if !A.modes.audit || !bitOf A.modes.kinds (h.kind - 1) then s
  else if auditDepth ≤ A.audit.length then s.onArr a fun A => { A with auditLost := min (A.auditLost + 1) 0xFFFF }
  else
    let e : AuditEntry :=
      { beat := o.beat, pc := o.pc, slot := o.slot, kind := h.kind, short := h.short, held := o.held, dest := h.dest }
    let s := s.onArr a fun A => { A with audit := A.audit ++ [e] }
    let s := if A.audit.isEmpty then s.raiseArr .time 3 a else s
    if A.audit.length + 1 = auditDepth then s.raiseArr .time 2 a else s

/-- Logs hazards of a part. -/
def State.auditAll (s : State) (a k : Nat) (held : Bool) (l : List Hazard) : State :=
  l.foldl (fun (s : State) h => s.auditOne a k held h) s

/-- The array-store bytes that the next `n` steps of an engine read (R36). -/
def State.stepReads (n a e : Nat) (s : State) : List Dest :=
  match n with
  | 0 => []
  | k + 1 =>
    let r := s.between streamFuel a e true
    match r.2 with
    | .move m =>
      let x := r.1.engine a e
      (if m.src = 2 then storeDests (x.addr m.ssb false) m.bytes else []) ++
        (match r.1.runMove a e m with
         | .done s' => s'.stepReads k a e
         | _ => [])
    | _ => []

/-- The array-store bytes that a stream engine reads in the issue beat of an operation (R290). -/
def State.engineReads (s : State) (a : Nat) (i : Instr) : List Dest :=
  match i with
  | .sadv _ _ e n1 => if (s.engine a e.toNat).started && !(s.engine a e.toNat).arm.free then s.stepReads (n1.toNat + 1) a e.toNat else []
  | _ => []

/-- The hazards an operation of the present bundle meets: its reads, then its writes. -/
def State.hazards (s : State) (a w : Nat) (p : Pred) (i : Instr) : List Hazard :=
  let A := s.arr a
  let t := s.issueOne a w p i
  let new := (t.arr a).flight.drop A.flight.length
  A.earlyReads p i (s.engineReads a i) ++ A.writeHazards t.freeCtr A.flight new

/-- Hold mode keeps a bundle back for this hazard: a read short of its write, or a collision (R44). -/
def Hazard.holds (h : Hazard) : Bool := decide (h.kind ≤ 2)

/-- Hold mode keeps back an operation with these hazards (R44). -/
def mustHold (l : List Hazard) : Bool := l.any Hazard.holds

/-- Logs the hazards of the writes that `t` has launched since `s` for a part of the bundle (R43). -/
def State.auditNew (s : State) (a k : Nat) (t : State) : State :=
  let A := s.arr a
  if A.modes.audit then
    ((t.drew 1).markNew a A.flight.length (A.origin k)).auditAll a k (!A.seq.heldParts.isEmpty) (A.writeHazards t.freeCtr A.flight ((t.arr a).flight.drop A.flight.length))
  else t

/-- Issues an operation and, in audit mode, logs its hazards. -/
def State.issueAudited (s : State) (a k w : Nat) (p : Pred) (i : Instr) : State :=
  if (s.arr a).modes.audit then
    (((s.issueOne a w p i).drew 1).markNew a (s.arr a).flight.length ((s.arr a).origin k)).auditAll a k (!(s.arr a).seq.heldParts.isEmpty) (s.hazards a w p i)
  else s.issueOne a w p i

end Sys2Proof.Machine
end

