-- ==== Sys2Proof/Machine/Beats.lean ====
section
/-! DEFINITION. The beat wave: landings, the drain, freezes and the sequencer (spec/02_beats.md R27 to R47;
spec/04_arrays.md R79 to R106; spec/10_instructions.md R249 to R253). -/
namespace Sys2Proof.Machine

/-! ### Landings -/

/-- A group load of group `g` is in flight (R87). -/
def ArrayState.loading (A : ArrayState) (g : Nat) : Bool :=
  A.flight.any (fun f => match f.op with | .loadRow h _ _ _ => h == g | _ => false)

/-- Changes the accumulators of an array. -/
def State.onAcc (s : State) (a : Nat) (f : Accs → Accs) : State := s.onArr a fun A => { A with acc := f A.acc }
/-- Changes the program-visible registers of an array. -/
def State.onRegs (s : State) (a : Nat) (f : ProgRegs → ProgRegs) : State := s.onArr a fun A => { A with regs := f A.regs }

/-- Bytes that become visible in the array store: a write uses its bank in the beat in which it becomes visible, which is the model's choice
(R90; log 49). -/
def State.landBytes (s : State) (a : Nat) (cells : List (Nat × List Byte)) : State :=
  (s.touch a ((cells.flatMap (fun c => unitsOf (c.1 % 2 ^ 20) c.2.length)).eraseDups)).onArr a fun A =>
    cells.foldl (fun (A : ArrayState) c => A.save c.1 c.2) A

/-- A shared-store delivery reaches its targets; `win` is the window slot it fills in the array that asked for it (R19, R40). A
frozen array accepts it at once, into bytes that the frozen beat reads too, which is the model's choice (R33; log 49). -/
def State.landDelivery (s : State) (a e : Nat) (targets : List Nat) (addr : Nat) (bs : List Byte) (win : Option Nat) : State :=
  let s := targets.foldl (fun (s : State) b => s.landBytes b [(addr, bs)]) s
  match win with
  | some slot => s.onEng a e fun x =>
      let r := arrive x.filling x.filled slot
      { x with filling := r.1, filled := r.2 }
  | none => s

/-- A counter lands: the comparators that read it hold the new result a beat later (R239). -/
def State.landCounter (s : State) (a n : Nat) (v : Word) : State :=
  s.onArr a fun A =>
    let B := A.setCt n v
    let l : List Flight := (B.regs.readers n).map (fun c =>
      { left := 1, rank := 0, op := .cmpEval c (B.regs.evalCmp (B.regs.comparator c)), age := 1 })
    { B with flight := B.flight ++ l }

/-- The MISS_INFO word of a mismatch (Table 4.8). -/
def missWord (id row : Nat) (mv : Bool) : Nat := id + 2 ^ 5 * row + 2 ^ 10 * natOfBool mv + 2 ^ 11

/-- The outcome of a tally decision is counted, recorded and, for a mismatch, a failed check (R94, R96, R106). -/
def State.tallyOutcome (s : State) (a : Nat) (o : Tally) (id row : Nat) (mv : Bool) (delta : Word) : State :=
  let detail := missWord id row mv + 2 ^ 32 * delta.toNat
  match o with
  | .unchecked => s.onArr a fun A => { A with ctr := { A.ctr with tallySkip := satAdd32 A.ctr.tallySkip 1 } }
  | .pass => s.onArr a fun A => { A with ctr := { A.ctr with tallyRuns := satAdd32 A.ctr.tallyRuns 1 } }
  | .mismatch =>
    let s := s.onArr a fun A =>
      let c := { A.ctr with tallyRuns := satAdd32 A.ctr.tallyRuns 1, tallyMiss := satAdd32 A.ctr.tallyMiss 1 }
      { A with ctr :=
          if c.missValid then c
          else { c with missId := id, missRow := row, missSource := mv, missValid := true, missDelta := delta } }
    (s.raiseArr .cond 0 a).failCheck a 1 detail

/-- The decision of a tally check that takes place: an armed injection of class TALLY makes it a mismatch, once, as a real
fault would (R372). -/
def State.tallyCheck (s : State) (a : Nat) (o : Tally) (id row : Nat) (mv : Bool) (delta : Word) : State :=
  if o != .unchecked && s.injected a 1 then (s.setReg Reg.FAULT_INJ_ARM 0 0).tallyOutcome a .mismatch id row mv delta
  else s.tallyOutcome a o id row mv delta

/-- Decides one drained row of the shadow bank (R94). -/
def State.checkRow (s : State) (a : Nat) (d : Drain) (r : Nat) : State :=
  let A := s.arr a
  let nar := s.narrow a
  let sum := laneSum (A.acc.liveRow nar shadow r)
  let t := A.acc.tallyT shadow r
  let o := if A.modes.tallyEn then
      tallyDecide (A.modes.tallyK + 1) (d.info.l + (if nar then 30 else 32)) sum t (A.acc.tallyG shadow r)
    else .unchecked
  s.tallyCheck a o d.grp r false (fsub sum t)

/-- FP32 words in little-endian bytes. -/
def wordBytes (l : List Word) : List Byte := l.flatMap (fun w => leBytes 4 w.toNat)

/-- Sends one output row of the shadow bank to the run's destination (Table 4.2, R66, R70, R99). -/
def State.sendRow (s : State) (a : Nat) (d : Drain) (r : Nat) : State :=
  let l := (s.arr a).acc.liveRow (s.narrow a) shadow r
  match d.dest with
  | .ledger l1 l2 =>
    let x := d.scaled r l
    let v := if s.narrow a then x.take 30 ++ [0, 0] else x
    s.onAcc a fun x => (x.promoteRow l1 r v).promoteRow l2 r v
  | .store _ => s.launch a { left := 2, rank := 3, op := .bytes [((d.tile + 128 * r) % 2 ^ 20, wordBytes l)], age := 1 }
  | .out e => s.onEng a e.toNat fun x => { x with outbound := x.outbound ++ wordBytes l }
  | .discard => s

/-- A swap's run is checked against the tally unless it is dropped by DISCARD (Table 4.2). -/
def destChecked (d : SwapDest) : Bool :=
  match d with
  | .discard => false
  | _ => true

/-- The drain unit takes cell row `r` of the shadow bank (R83). -/
def State.drainRow (s : State) (a r : Nat) : State :=
  match (s.arr a).acc.drain with
  | none => s
  | some d =>
    let full := match d.dest with | .out e => decide (outboundBytes < s.outboundUse a e.toNat + 256) | _ => false
    if full then
      s.stallOn a (.drainOut (match d.dest with | .out e => e.toNat | _ => 0) r)
    else
      let row := fun (s : State) (p : Nat) =>
        let s := if destChecked d.dest then s.checkRow a d p else s
        (s.sendRow a d p).onAcc a fun x => x.clearShadowRow p
      let s := row (row ((s.checkUnit a 2).checkUnit a 4) (2 * r)) (2 * r + 1)
      if r < 15 then s.launch a { left := 1, rank := 7, op := .drain (r + 1), age := 1 }
      else s.onAcc a fun x => { x with drain := none }

/-- A group load reads output rows 2r and 2r + 1 of its tile; after the last the tile replaces the group (R86, R95). -/
def State.loadRows (s : State) (a g addr r : Nat) (got : List Word) : State :=
  let A := s.arr a
  let l := got ++ (List.range 64).map (fun i => A.loadW ((addr + 256 * r + 4 * i) % 2 ^ 20))
  let s := (s.touch a (unitsOf ((addr + 256 * r) % 2 ^ 20) 256)).checkPoint a 3 (addr + 256 * r)
  if r < 15 then s.launch a { left := 1, rank := 6, op := .loadRow g addr (r + 1) l, age := 1 }
  else (s.checkUnit a 2).onAcc a fun x => x.loaded (s.narrow a) g l

/-- An evaluation finishes: RSUM adds its converted results, and a register takes them (R137, R244). -/
def State.landEval (s : State) (a : Nat) (vals : List Word) (sum : Bool) (toReg : Option Nat) : State :=
  s.onArr a fun A =>
    let A := if sum then A.setRsum ((List.range 32).map (fun i => fadd (A.rsum i) (vals.getD i 0))) else A
    match toReg with
    | some r => A.setV r vals
    | none => A

/-- Loads the argument stage (R245). -/
def ProgRegs.argStage (r : ProgRegs) (mu gd : Word) (ks : List Word) (sm : Nat) (rst : Bool) : ProgRegs :=
  { r with amu := mu, agrd := gd, aks := Tbl.setMany 0 r.aks 0 ks, amsk := sm, acol := if rst then 0 else r.acol }

/-- The bytes of a result reach the array store by a checked transfer (Table 15.1). -/
def State.landChecked (s : State) (a : Nat) (cells : List (Nat × List Byte)) : State := (s.landBytes a cells).checkUnit a 4

/-- A scalar register takes a value; one from a lane comes by a checked transfer (Table 15.1). -/
def State.landScalar (s : State) (a r : Nat) (v : Word) (lane : Bool) : State :=
  let t := s.onArr a fun A => A.setS r v
  if lane then t.checkUnit a 4 else t

/-- One operation in flight lands. -/
def State.land (s : State) (a : Nat) (f : Flight) : State :=
  match f.op with
  | .sreg r v => s.landScalar a r v (f.rank == laneRank)
  | .vreg r v => (s.onArr a fun A => A.setV r v).checkUnit a 4
  | .rsumW v => (s.onArr a fun A => A.setRsum v).checkUnit a 4
  | .eval vals sum toReg => (s.landEval a vals sum toReg).checkUnit a 4
  | .rsumAdd vals => (s.landEval a vals true none).checkUnit a 4
  | .ptset n v => s.onArr a fun A => A.onPtr n fun p => { p with value := v, base := v }
  | .ptcfg n inc l r => s.onArr a fun A => A.onPtr n fun p => { p with inc := inc, level := l, rewind := r }
  | .counter n v => s.landCounter a n v
  | .cmpCfg n c => s.onArr a fun A => A.setCmp n c
  | .cmpEval n r => s.onArr a fun A => A.setCmp n { A.regs.comparator n with result := r }
  | .desc n ws => s.onRegs a fun r => { r with desc := Tbl.setMany 0 r.desc (4 * n) ws }
  | .bytes cells => s.landChecked a cells
  | .shared addr bs => ((s.noteShared a addr bs.length).sharedWrite (s.tenRunning a) addr bs).checkUnit a 4
  | .feeder b sl => (s.onRegs a fun r => if b then { r with presB := sl } else { r with presA := sl }).checkUnit a 4
  | .mma x y m => if (s.arr a).loading m.grp.toNat then s else (s.onAcc a fun c => c.mma (s.narrow a) x y m).checkUnit a 2
  | .dotAdd m x q => (s.onArr a fun A => { A with mv := A.mv.dot m x q }).checkUnit a 2
  | .axpyAdd m x p => (s.onArr a fun A => { A with mv := A.mv.axpyAdd m x p }).checkUnit a 2
  | .rowscale g fs => if (s.arr a).loading g then s else (s.onAcc a fun c => c.rowscale g fs).checkUnit a 2
  | .swap g d tile => (s.onAcc a fun c => c.swap g d tile).launch a { left := 0, rank := 7, op := .drain 0, age := 1 }
  | .drain r => s.drainRow a r
  | .loadRow g addr r got => s.loadRows a g addr r got
  | .guard lanes => s.onRegs a fun r => { r with guard := lanes.foldl (fun t i => Tbl.set false t i true) r.guard }
  | .deliver ts addr bs win => (s.landDelivery a f.eng ts addr bs win).checkUnit a 4
  | .astg mu gd ks sm rst => s.onRegs a fun r => r.argStage mu gd ks sm rst
  | .epoch => s.onArr a fun A => { A with banks := { A.banks with active := !A.banks.active, epochs := (A.banks.epochs + 1) % 65536 } }

/-- Operations that land at the end of a beat: products, row-scales, swaps, group loads and the drain (Table 4.4, R83). -/
def Landing.late (x : Landing) : Bool :=
  match x with
  | .mma _ _ _ => true
  | .dotAdd _ _ _ => true
  | .axpyAdd _ _ _ => true
  | .rowscale _ _ => true
  | .swap _ _ _ => true
  | .loadRow _ _ _ _ => true
  | .drain _ => true
  | _ => false

/-- The first of the due flights of a kind in the order of R37 and Table 4.4. -/
def firstDue (p : Flight → Bool) (l : List Flight) : Option Flight :=
  l.foldl (fun (b : Option Flight) f =>
    if f.left = 0 && p f then
      (match b with
       | none => some f
       | some g => if f.rank < g.rank then some f else some g)
    else b) none

/-- Codes and scale bytes of a row of exact values in a format of Table 10.3 with a headroom (R71, R160). -/
def quantVals (fmt : Nat) (h : Word) (vs : List Val) : List Byte × List Byte :=
  let blocks := (List.range (vs.length / 32)).map (fun j => (vs.drop (32 * j)).take 32)
  match fmt with
  | 3 => let sc := scaleOf 0x43E00000#32 (amaxOf vs) h
         (vs.flatMap (fun v => leBytes 1 (psCode v (val32 sc))), leBytes 4 sc.toNat)
  | 4 => let sc := scaleOf 0x47600000#32 (amaxOf vs) h
         (vs.flatMap (fun v => leBytes 1 (e5m2.div v (val32 sc))), leBytes 4 sc.toNat)
  | 5 => let bl := blocks.map (mxVals e4m3 8)
         (bl.flatMap (fun b => packCodes 8 b.2), bl.flatMap (fun b => leBytes 1 b.1))
  | 6 => let bl := blocks.map (mxVals e2m1 2)
         (bl.flatMap (fun b => packCodes 4 b.2), bl.flatMap (fun b => leBytes 1 b.1))
  | n => (vs.flatMap (fun v => leBytes (plainBytes n) ((fmtOfCode n).round v)), [])

/-- The same of a row of FP32 words. -/
def quantRow (fmt : Nat) (h : Word) (l : List Word) : List Byte × List Byte := quantVals fmt h (l.map val32)

/-- Array-store bytes of 32 rows of `n` bytes that a descriptor names. -/
def ArrayState.tileDests (A : ArrayState) (desc n : Nat) : List Dest :=
  let d := A.descr desc
  (List.range 32).flatMap (fun i => storeDests (A.eaStore d (i * d.rstride)) n)

/-- Array-store bytes of the tile in a plain format that a descriptor names. -/
def ArrayState.plainDests (A : ArrayState) (desc : Nat) : List Dest := A.tileDests desc (32 * plainBytes (A.descr desc).fmt)

/-- Array-store bytes of the 32 quantised rows, with their scales, that D1 names (R160). -/
def ArrayState.quantDests (A : ArrayState) : List Dest :=
  let d := A.descr 1
  let q := quantRow d.fmt 0 (List.replicate 32 0)
  A.tileDests 1 q.1.length ++ (List.range 32).flatMap (fun i => storeDests (d.scale + i * d.sstride) q.2.length)

/-- The array-store tiles that a vendor helper reads and writes (Table 10.16). -/
def ArrayState.helperTiles (A : ArrayState) (r : Nat) : List Dest :=
  match r with
  | 65 | 66 => A.tileDests 0 128
  | 67 => A.plainDests 0 ++ A.plainDests 1
  | 68 => A.plainDests 0 ++ A.quantDests
  | 69 => A.tileDests 0 128 ++ A.tileDests 1 64 ++ A.tileDests 2 64
  | _ => []

/-- A drain sends its rows to a ledger. -/
def Drain.feeds (d : Drain) (l : Nat) : Bool :=
  match d.dest with
  | .ledger x y => (x.en && x.ledger.toNat == l) || (y.en && y.ledger.toNat == l)
  | _ => false

/-- A flight lands on state that vendor helper `r` uses (R263). -/
def ArrayState.helperUses (A : ArrayState) (r : Nat) (f : Flight) : Bool :=
  match f.op with
  | .desc n _ => n < 32
  | .astg _ _ _ _ _ => true
  | .drain _ => r == 65 && A.acc.drain.any (fun d => d.feeds ((A.sreg 8).toNat % 8))
  | .rowscale g _ => r == 65 && g == (A.sreg 8).toNat % 8
  | x => x.dests.any (fun d => match d with
    | .s n => 8 ≤ n && n < 24
    | .v n => n < 24
    | .pt n => n < 8
    | .ct n => n < 4
    | .cmp n => n < 2
    | d => (A.helperTiles r).contains d)

/-- Notes a landing on what the vendor helper that runs uses; one that lands as the helper begins is seen by all of it. -/
def ArrayState.noteHelper (A : ArrayState) (f : Flight) : ArrayState :=
  match A.seq.helper with
  | some (r, n) => if n != 0 && A.helperUses r f then { A with seq := { A.seq with helperHit := true } } else A
  | none => A

/-- A flight leaves those of its array and lands; what it starts comes from its bundle (R43). -/
def State.landOne (s : State) (a : Nat) (f : Flight) : State :=
  let u := s.onArr a fun A => ({ A with flight := removeFirst (fun g => decide (g = f)) A.flight } : ArrayState).noteHelper f
  let t := u.land a f
  if (u.arr a).modes.audit then t.markNew a (u.arr a).flight.length f.org else t

/-- Lands the first due flight of a kind; `none` if there is none. -/
def State.landFirst (s : State) (a : Nat) (p : Flight → Bool) : Option State :=
  (firstDue p (s.arr a).flight).map (s.landOne a)

/-- Lands every due flight of a kind. -/
def State.landAllDue (fuel : Nat) (a : Nat) (p : Flight → Bool) (s : State) : State :=
  match fuel with
  | 0 => s
  | n + 1 => match s.landFirst a p with
    | none => s
    | some s' => s'.landAllDue n a p

/-- More landings than one beat can have: the flights, and the drain row that a swap starts. -/
def State.landFuel (s : State) (a : Nat) : Nat := (s.arr a).flight.length + 2

/-- Landings at the start of a beat, which the operations issued in it already see (R27). -/
def State.landEarly (s : State) (a : Nat) : State :=
  if (s.arr a).slip then s else s.landAllDue (s.landFuel a) a (fun f => !f.op.late)
/-- Landings at the end of a beat. A drain row that waits for its outbound buffer lands no more. -/
def State.landLate (s : State) (a : Nat) : State := s.landAllDue (s.landFuel a) a (fun f => f.op.late)

/-! ### Explicit rows -/

/-- Logs what hold mode keeps the present bundle back for, each part's once (R43, R44). The writes that it overtakes are logged when it
issues. -/
def State.auditHeld (s : State) (a : Nat) (l : List (Part × Hazard)) : State :=
  let m := l.filter (fun h => h.2.holds && !(s.arr a).seq.heldParts.contains h.1)
  (m.foldl (fun (s : State) h => s.auditOne a h.1 true h.2) s).onArr a fun A =>
    { A with seq := { A.seq with heldParts := A.seq.heldParts ++ (m.map (·.1)).eraseDups } }

/-- Issues an operation of the present beat as its own command. -/
def State.issueRow (s : State) (a : Nat) (i : Instr) : State :=
  match slotWord i with
  | none => s
  | some (k, w) =>
    let s := s.landEarly a
    let p := predOf w
    let w := if k = 7 then 2 ^ 32 * w.toNat else w.toNat
    if !s.canIssue a || (s.arr a).seq.issued.contains k then s
    else if (s.arr a).modes.hold && mustHold (s.hazards a w p i) then
      (s.auditHeld a ((s.hazards a w p i).map (fun h => (k, h)))).onArr a fun A => { A with seq := { A.seq with held := true } }
    else (s.issueAudited a k w p i).onArr a fun A => { A with seq := { A.seq with issued := A.seq.issued ++ [k] } }

/-! ### The sequencer -/

/-- Halfword `i` of a native word. -/
def half (w : List (BitVec 16)) (i : Nat) : Nat := (w.getD i 0).toNat

/-- The parts of a native word in the order they issue, each with its number, its word, and the whole slot word for the
logs (R254). The stream slot issues last: no operation of a bundle sees what another does. -/
def wordParts (w : List (BitVec 16)) : List (Part × BitVec 32 × Nat) :=
  let mask := half w 0 % 128
  let before := fun n => (List.range n).foldl (fun i k => if bitOf mask k then i + (if k = 3 then 4 else 2) else i) 1
  let w32 := fun i => half w i + 2 ^ 16 * half w (i + 1)
  let slot := fun n => w32 (before n)
  let one := fun n => if bitOf mask n then [(n, BitVec.ofNat 32 (slot n), slot n)] else []
  let arr := if bitOf mask 3 then
      let v := slot 3 + 2 ^ 32 * w32 (before 3 + 2)
      [(3, BitVec.ofNat 32 (slot 3), v), (7, BitVec.ofNat 32 (w32 (before 3 + 2)), v)]
    else []
  one 1 ++ one 2 ++ arr ++ one 4 ++ one 5 ++ one 6 ++ one 0

/-- Beats that a native word occupies: n for a WAIT word, else 1. -/
def wordBeats (w : List (BitVec 16)) : Nat := if bitOf (half w 0) 12 then half w 1 + 1 else 1

/-- The operations of the parts of a native word that have not issued as their own commands. -/
def State.partOps (s : State) (a : Nat) (w : List (BitVec 16)) : List (Part × Nat × SlotOp) :=
  if bitOf (half w 0) 12 then []
  else ((wordParts w).filter (fun x => !(s.arr a).seq.issued.contains x.1)).map (fun x =>
    (x.1, x.2.2, decodePart (BitVec.ofNat 10 a) x.1 x.2.1))

/-- A part of a bundle is an MBPUT. -/
def isPut (x : Part × Nat × SlotOp) : Bool := match x.2.2 with | .op (.mbput _ _ _ _) => true | _ => false

/-- The parts of a bundle but for the stream slot and an MBPUT, in issue order. -/
def plainParts (l : List (Part × Nat × SlotOp)) : List (Part × Nat × SlotOp) := l.filter (fun x => x.1 != 0 && !isPut x)

/-- The parts of a bundle in the order in which they take effect. No operation sees what another of its bundle does, so the
stream slot comes after those whose sources it changes, and an MBPUT after a NEXTBASE that may take from its mailbag (R236). -/
def issueOrder (l : List (Part × Nat × SlotOp)) : List (Part × Nat × SlotOp) :=
  plainParts l ++ l.filter (fun x => x.1 == 0) ++ l.filter (fun x => x.1 != 0 && isPut x)

/-- Issues one part of a bundle. -/
def State.issuePart (s : State) (a : Nat) (x : Part × Nat × SlotOp) : State :=
  match x.2.2 with
  | .nop => s
  | .reserved p => if (s.arr a).regs.predTrue p then s.deadLetter a dlReservedOp (slotNo x.1) x.2.1 else s
  | .op i => s.issueAudited a x.1 x.2.1 ((slotPred i).getD ⟨false, 0, false⟩) i

/-- Issues parts of a bundle in turn. -/
def State.issueParts (s : State) (a : Nat) (l : List (Part × Nat × SlotOp)) : State := l.foldl (fun (s : State) x => s.issuePart a x) s

/-- The native word of the present bundle, if the routine holds one there. -/
def State.nativeWord (s : State) (a : Nat) : Option (List (BitVec 16)) :=
  let q := (s.arr a).seq
  (s.routineWords q.routine q.version)[q.pc]?

/-- Native words that an instruction queue holds (Table 1.1). -/
def queueWords : Nat := 512

/-- The CALL or the RET of a native word: its predicate, and the routine that it calls. -/
def flowOf (w : List (BitVec 16)) : Option (Pred × Option Nat) :=
  if bitOf (half w 0) 12 then none
  else ((wordParts w).filter (fun x => x.1 == 6)).findSome? (fun x => match decodePart 0 x.1 x.2.1 with
    | .op (.call _ p r) => some (p, some r.toNat)
    | .op (.ret _ p) => some (p, none)
    | _ => none)

/-- A way that the sequencer may go on: the routine, its next word, and where it returns to. -/
structure Path where
  routine : Nat
  pc : Nat
  returns : List (Nat × Nat) := []

/-- Where a path goes on when its routine returns. -/
def Path.back (x : Path) : List Path :=
  match x.returns with
  | [] => []
  | r :: l => [{ routine := r.1, pc := r.2, returns := l }]

/-- Where a path goes on after a native word: behind a predicated CALL or RET both ways (R253). -/
def Path.after (x : Path) (w : List (BitVec 16)) : List Path :=
  let next : Path := { x with pc := x.pc + 1 }
  match flowOf w with
  | none => [next]
  | some (p, r) =>
    let gone := match r with
      | some r => [{ routine := r, pc := 0, returns := (x.routine, x.pc + 1) :: x.returns }]
      | none => x.back
    if p.pen then gone ++ [next] else gone

/-- The native words, `fuel` at most, that some paths issue next, in issue order and in turn for the paths (R253). -/
def State.wordsAhead (s : State) (version fuel : Nat) (l : List Path) : List (Nat × Nat) :=
  match fuel with
  | 0 => []
  | n + 1 => match l with
    | [] => []
    | x :: r => match (s.routineWords x.routine version)[x.pc]? with
      | none => s.wordsAhead version n (r ++ x.back)
      | some w => (x.routine, x.pc) :: s.wordsAhead version n (r ++ x.after w)

/-- The words of the open REPEAT bodies that have issued already; the queue keeps them for the next iterations (R253). -/
def Seq.openBodies (q : Seq) : List (Nat × Nat) :=
  let body := fun (r : Nat) (reps : List Rep) (pc : Nat) =>
    let first := reps.foldl (fun m x => min m x.start) pc
    (List.range (pc - first)).map (fun i => (r, first + i))
  q.calls.flatMap (fun f => body f.routine f.reps f.pc) ++ body q.routine q.reps q.pc

/-- What the dispatcher has delivered into an array's instruction queue: from the entry routine while it abandons an attempt (R359), else
the open bodies and the words that issue next (R13, R253). -/
def State.delivered (s : State) (a : Nat) : List (Nat × Nat) :=
  let A := s.arr a
  let q := A.seq
  if A.abandon.isSome then s.wordsAhead q.version queueWords [{ routine := q.entry, pc := 0 }]
  else
    let at_ : Path := { routine := q.routine, pc := q.pc, returns := q.calls.reverse.map (fun f => (f.routine, f.pc)) }
    (q.openBodies ++ s.wordsAhead q.version queueWords [at_]).take queueWords

/-- The dispatcher delivers native words into an array's instruction queue, ahead of their issue (R253). -/
def State.deliverWords (s : State) (a : Nat) : State :=
  let l := s.delivered a
  s.onArr a fun A => { A with seq := { A.seq with queue := l } }

/-- The instruction queue holds the present native word. -/
def ArrayState.queued (A : ArrayState) : Bool := A.seq.queue.contains (A.seq.routine, A.seq.pc)

/-- The hazards of a whole bundle, each with its part: each operation against the writes in flight and those of the parts
before it. -/
def State.bundleHazards (s : State) (a : Nat) (l : List (Part × Nat × SlotOp)) : List (Part × Hazard) :=
  match l with
  | [] => []
  | x :: r =>
    (match x.2.2 with
     | .op i => (s.hazards a x.2.1 ((slotPred i).getD ⟨false, 0, false⟩) i).map (fun h => (x.1, h))
     | _ => []) ++ (s.issuePart a x).bundleHazards a r

/-- A beat in which a group load lets no bundle issue: one of the 15 after its issue (R29). -/
def ArrayState.loadBeat (A : ArrayState) : Bool := A.seq.stall != 0 && A.seq.stall < 16 && !A.seq.issued.contains 8

/-- What the sequencer does in the present beat. -/
inductive Fetch where
  /-- It issues nothing: a WAIT, a helper or a group load occupies the beat, or the program has ended. -/
  | idle
  /-- It issues these parts of a bundle that occupies so many beats. -/
  | bundle (ops : List (Part × Nat × SlotOp)) (beats : Nat)
  /-- Hold mode keeps the bundle back (R44). -/
  | hold (s : State)
  /-- The halt point freezes the array (R266). -/
  | halt (s : State)
  /-- The native word is not present in its issue beat (R253). -/
  | late

/-- The bundle of the present beat (R28, R29, R44, R253, R266). -/
def State.fetch (s : State) (a : Nat) : Fetch :=
  let A := s.arr a
  if A.seq.issued.contains 8 || A.seq.state != .running || A.seq.waitLeft != 0 || A.abandon.isSome ||
      (A.seq.helper.isSome && (A.loadBeat || !A.atHalt)) then .idle
  else
    let w := s.nativeWord a
    if A.loadBeat && !(w.any (fun x => bitOf (half x 0) 12)) then .idle
    else if A.atHalt then
      .halt ((s.onArr a fun A => { A with seq := { A.seq with state := .halted } }).raiseArr .prog 1 a)
    else match w with
      | none => .bundle [] 1
      | some w =>
        if !A.queued then .late
        else
          let ops := s.partOps a w
          let hz := if A.modes.hold then s.bundleHazards a ops else []
          if A.modes.hold && mustHold (hz.map (·.2)) then
            .hold (s.auditHeld a hz)
          else .bundle ops (wordBeats w)

/-- Marks the present bundle as fetched: a code check of its word, and the beats it occupies (Table 15.1). -/
def State.markFetched (s : State) (a beats : Nat) : State :=
  (s.checkUnit a 5).onArr a fun A =>
    { A with seq := { A.seq with issued := A.seq.issued ++ [8], waitLeft := if 1 < beats then beats else A.seq.waitLeft } }

/-! ### Freezes (R32 to R34) -/

/-- The part of a bundle whose operation waits for a cause. -/
def Stalled.part (x : Stalled) : Part :=
  match x with
  | .feederRead b _ _ => if b then 2 else 1
  | .dotRead _ | .axpyRead _ => 3
  | .drainOut _ _ => 7
  | .outbound _ | .atomic _ | .nextBase _ | .staging => 0
  | .lbWait _ _ | .mbTake _ _ | .mbPut _ _ | .arrive => 6

/-- The stream engine whose step waits, if a cause is one of an engine. -/
def Stalled.engine (x : Stalled) : Option Nat :=
  match x with
  | .outbound e | .atomic e | .nextBase e => some e
  | _ => none

/-- Retries what an operation of an array waits for; `none` while it still waits. The steps of engines are `engineAgain`'s. -/
def State.retry (s : State) (a : Nat) (x : Stalled) : Option State :=
  match x with
  | .feederRead b d k =>
    if (s.arr a).sliceReady ((s.arr a).descr d) k then some (s.feederGo a b d k) else none
  | .dotRead f => if (s.arr a).mv.filled.contains f.mslot.toNat then some (s.dotGo a f) else none
  | .axpyRead f => if (s.arr a).mv.filled.contains f.mslot.toNat then some (s.axpyGo a f) else none
  | .drainOut e r => if outboundBytes < s.outboundUse a e + 256 then none else some (s.drainRow a r)
  | .lbWait o v => if s.lbReached a o v || (s.arr a).seq.lbMet then some s else none
  | .mbTake o sd => (s.takeGo a o sd).map (s.auditNew a x.part)
  | .mbPut o h => s.putGo a o h
  | .arrive => if (s.collection (s.tenRunning a)).arrived.contains a then none else some s
  | .outbound _ | .atomic _ | .nextBase _ => some s
  | .staging => none

/-- An engine takes one step, or freezes its array with what stops it (R290, R328). -/
def State.oneStep (s : State) (a e : Nat) : State :=
  let r := s.engineStep a e
  match r.2 with
  | some (some why) => r.1.stallOn a why
  | _ => r.1.settleHalt a e

/-- What an engine does up to its next MOVE, or freezes its array with (R288, R290). -/
def State.upToMove (s : State) (a e : Nat) : State :=
  let r := s.between streamFuel a e true
  match r.2 with
  | .waits _ => r.1.stallOn a (.nextBase e)
  | _ => r.1

/-- Steps of an engine that wait are taken up again; a step that still waits stays a cause (R290). -/
def State.engineAgain (s : State) (a e : Nat) (x : Stalled) : State :=
  if (s.engine a e).arm.free then (match x with | .nextBase _ => s.upToMove a e | _ => s.oneStep a e)
  else s.auditNew a 0 (s.engineSteps stepFuel a e)

/-- The engines that some causes name take up their steps. -/
def State.enginesAgain (s : State) (a : Nat) (l : List Stalled) : State :=
  l.foldl (fun (s : State) x => match x.engine with | some e => s.engineAgain a e x | none => s) s

/-- Retries every cause of the present beat, each on what those before it left. Nothing but an engine's own steps goes on
while some cause stays (R34). -/
def State.retryStalls (s : State) (a : Nat) : State :=
  let l := (s.arr a).stalled
  let own := l.filter (fun x => x.engine.isNone)
  let keep := fun (s : State) (m : List Stalled) => s.onArr a fun A => { A with stalled := m }
  match own.foldl (fun (r : Option State) x => r.bind (fun t => t.retry a x)) (some (keep s [])) with
  | none => s
  | some t =>
    let u := t.enginesAgain a l
    if (u.arr a).stalled.isEmpty then u else (keep s own).enginesAgain a l

/-- A cause of freeze has not cleared (R32, R46). -/
def State.waitsFor (s : State) (a : Nat) (x : Stalled) : Bool :=
  let t := s.onArr a fun A => { A with stalled := [] }
  match x.engine with
  | some e => ((t.engineAgain a e x).arr a).stalled.any (fun y => y.engine == some e)
  | none => (t.retry a x).isNone


/-- Some cause freezes the array in the present beat (R32). -/
def State.frozenBy (s : State) (a : Nat) : Bool :=
  !(s.arr a).stalled.isEmpty || !(s.arr a).frozenOn.isEmpty || (s.arr a).slip || s.extStop a

/-- Lands the first due operation of a kind as its own command; while the array is frozen nothing moves (R33). -/
def State.landRow (s : State) (a : Nat) (p : Landing → Bool) : State :=
  if !s.arrOn a || s.frozenBy a then s else (s.landFirst a (fun f => p f.op)).getD s

/-- One pace period of a freeze passes (R31, R46; FREEZE_LONG in the period in which the length equals FRZ_LIMIT, so a limit
lowered below the running length raises none, which is the model's choice: log 49). -/
def State.freezeOne (s : State) (a : Nat) : State :=
  let s := s.onArr a fun A => { A with ctr := { A.ctr with frozen := (A.ctr.frozen + 1) % 2 ^ 64 }, frzLen := A.frzLen + 1 }
  let s := if (s.arr a).task.isSome then s.chargeFrozen a (s.tenRunning a) 1 else s
  let lim := s.reg Reg.TIME_FRZ_LIMIT a
  if lim ≠ 0 ∧ (s.arr a).frzLen = lim ∧ !(s.arr a).longRaised then
    (s.onArr a fun A => { A with longRaised := true }).raiseArr .time 0 a
  else s

/-- What an operation that waits makes known outside the array while its beat is frozen: its place among a mailbag's
requesters (R282), or its arrival (R284). -/
def State.makeKnown (s : State) (a : Nat) (x : Stalled) : State :=
  match x with
  | .mbTake o _ => s.bagWaitTake (s.mbxAbs (s.tenRunning a) o) (bagWho a 4)
  | .mbPut o _ => s.bagWaitPut (s.mbxAbs (s.tenRunning a) o) (bagWho a 4)
  | .arrive =>
    if (s.arr a).seq.arrived then s
    else (s.arriveAt a).onArr a fun A => { A with seq := { A.seq with arrived := true } }
  | _ => s

/-- The beat is frozen for causes of its bundle and of its landings; nothing of the bundle stays (R33) but that a wait was
satisfied (R280). -/
def State.freezeFor (s : State) (a : Nat) (l : List Stalled) (lbMet : Bool) : State :=
  ((l.foldl (fun (s : State) x => s.makeKnown a x) s).onArr a fun A =>
    { A with frozenOn := l, seq := { A.seq with lbMet := lbMet } }).freezeOne a

/-- The beat is frozen for every cause that an attempt `t` at it met (R32, R46). -/
def State.freezeOn (s t : State) (a : Nat) : State := s.freezeFor a (t.arr a).stalled (t.arr a).seq.lbMet

/-- A delivery or a native word is late: freeze with cause SLIP, PACE_SLIP and a class 9 record (R42, R253, R368). -/
def State.slipBegin (s : State) (a : Nat) : State :=
  let s := (s.onArr a fun A => { A with slip := true }).raiseArr .time 1 a
  let detail := (Config.freeWord s.freeCtr).toNat + 2 ^ 32 * (Config.freeWord (s.freeCtr + 1)).toNat
  match s.taskOf a with
  | some (rid, t) => (s.drew 2).logFault (s.faultRecOf a rid t 9 3 detail)
  | none => s

/-! ### Completion of a beat -/

/-- Every flight advances one stage. -/
def advanceFlights (l : List Flight) : List Flight := l.map (fun (f : Flight) => { f with left := f.left - 1, age := f.age + 1 })

/-- Throughput counters advance. -/
def ArrayState.advanceUnits (A : ArrayState) : ArrayState :=
  { A with
    flight := advanceFlights A.flight
    vdivBusy := A.vdivBusy - 1
    acc := { A.acc with swapBusy := A.acc.swapBusy - 1 }
    seq := { A.seq with stall := A.seq.stall - 1 } }

/-- Two accesses of one beat used one bank (R90). -/
def bankClash (units : List Nat) : Bool :=
  let banks := units.map (· % 32)
  decide (banks.eraseDups.length < banks.length)

/-- Pointers of a level step after an iteration (R250). -/
def ArrayState.stepPointers (A : ArrayState) (level : Nat) : ArrayState :=
  (List.range 16).foldl (fun (A : ArrayState) n =>
    if (A.ptr n).level = level then
      A.onPtr n fun p => { p with value := ((Int.ofNat p.value + signedOf 32 p.inc.toNat) % 2 ^ 28).toNat }
    else A) A

/-- Pointers of a level with REWIND take their base when its REPEAT issues (R250). -/
def ArrayState.rewindPointers (A : ArrayState) (level : Nat) : ArrayState :=
  (List.range 16).foldl (fun (A : ArrayState) n =>
    if (A.ptr n).level = level ∧ (A.ptr n).rewind then A.onPtr n fun p => { p with value := p.base } else A) A

/-- Closes the REPEAT bodies that end before the program counter, stepping their pointers; an iteration left starts the
body again (R249, R250). -/
def ArrayState.closeReps (fuel : Nat) (A : ArrayState) : ArrayState :=
  match fuel with
  | 0 => A
  | n + 1 =>
    match A.seq.reps.getLast? with
    | none => A
    | some r =>
      if A.seq.pc = r.start + r.body then
        let B := A.stepPointers r.level
        if 1 < r.iters then
          { B with seq := { B.seq with pc := r.start, reps := B.seq.reps.dropLast ++ [{ r with iters := r.iters - 1 }] } }
        else ArrayState.closeReps n { B with seq := { B.seq with reps := B.seq.reps.dropLast } }
      else A

/-- A sequencer at a bundle after the present one. -/
def ArrayState.goto (A : ArrayState) (pc : Nat) : ArrayState :=
  ArrayState.closeReps 4 { A with seq := { A.seq with pc := pc } }

/-- Beats a vendor helper takes, from S8 (Table 10.16). -/
def helperBeats (r s8 : Nat) : Nat :=
  match r with
  | 64 => 16 * s8 + 1
  | 65 => 36
  | 66 => 48
  | 67 => 140
  | 68 => 200
  | _ => 72

/-- Enters a routine by CALL (R251). A vendor helper begins in the next beat: its count of beats is 0 until then. -/
def ArrayState.enter (A : ArrayState) (r v : Nat) : ArrayState :=
  let q := A.seq
  let f : Frame := { routine := q.routine, pc := q.pc + 1, byCall := q.byCall, version := q.version, reps := q.reps }
  let h := if r < 256 then some (r, 0) else none
  { A with seq := { q with
      calls := q.calls ++ [f], routine := r, version := v, pc := 0, byCall := true, reps := [], helper := h, helperHit := false } }

/-- Leaves a routine by RET (R251). -/
def ArrayState.leave (A : ArrayState) : ArrayState :=
  match A.seq.calls.getLast? with
  | none => { A with seq := { A.seq with state := .ending } }
  | some f =>
    ({ A with seq := { A.seq with
        calls := A.seq.calls.dropLast, routine := f.routine, version := f.version, byCall := f.byCall, reps := f.reps, helper := none, helperHit := false } }).goto f.pc

/-- Where the sequencer goes when a beat completes (R249 to R252). -/
def ArrayState.follow (A : ArrayState) : ArrayState :=
  let q := A.seq
  match q.flow with
  | .next => A.goto (q.pc + 1)
  | .open_ body iters =>
    let lv := q.reps.length + 1
    let B := A.rewindPointers lv
    { B with seq := { B.seq with pc := q.pc + 1, reps := q.reps ++ [{ start := q.pc + 1, body := body, iters := iters, level := lv }] } }
  | .skip body => A.goto (q.pc + 1 + body)
  | .call r v => A.enter r v
  | .ret => A.leave
  | .stop => { A with seq := { q with state := .ending } }

/-! ### Vendor helpers (Table 10.16) -/

/-- One row of a 32 × 32 tile named by a descriptor, in element order. -/
def ArrayState.tileRow (A : ArrayState) (d : Descr) (r : Nat) : List Word :=
  let b := plainBytes d.fmt
  (List.range 32).map (fun c =>
    let x := A.loadLe (A.eaStore d (r * d.rstride + c * b)) b
    if d.fmt = 0 then BitVec.ofNat 32 x else rne32 ((fmtOfCode d.fmt).decode x))

/-- Writes one row of a tile in the descriptor's plain format. -/
def ArrayState.putTileRow (A : ArrayState) (d : Descr) (r : Nat) (l : List Word) : ArrayState :=
  A.save (A.eaStore d (r * d.rstride)) (l.flatMap (fun w => leBytes (plainBytes d.fmt) ((fmtOfCode d.fmt).round (val32 w))))

/-- What a vendor helper leaves when it returns; H_SWAP_LEDGERS acts through its swaps alone. -/
def ArrayState.helperDone (A : ArrayState) (r : Nat) : ArrayState :=
  let d0 := A.descr 0
  let d1 := A.descr 1
  let rows := List.range 32
  match r with
  | 65 =>
    let l := (A.sreg 8).toNat % 8
    let B := rows.foldl (fun (A : ArrayState) i => A.putTileRow { d0 with fmt := 0 } i ((List.range 32).map (A.acc.collapse l i))) A
    { B with acc := { B.acc with
        hi := Tbl.clearRange B.acc.hi (l * 1024) (l * 1024 + 1024), lo := Tbl.clearRange B.acc.lo (l * 1024) (l * 1024 + 1024) } }
  | 66 => A.setV 0 (rows.map (fun i => treeMax 5 (A.tileRow { d0 with fmt := 0 } i)))
  | 67 => rows.foldl (fun (B : ArrayState) i => B.putTileRow d1 i ((A.tileRow d0 i).map (fun x => fdiv x (A.vlane 0 i)))) A
  | 68 => rows.foldl (fun (B : ArrayState) i =>
      let q := quantRow d1.fmt (A.sreg 8) (A.tileRow d0 i)
      (B.save (A.eaStore d1 (i * d1.rstride)) q.1).save (d1.scale + i * d1.sstride) q.2) A
  | 69 => rows.foldl (fun (B : ArrayState) i =>
      let x := A.tileRow { d0 with fmt := 0 } i
      let big := fun w => isFinite32 w && fle (fabs32 w) 0x7F7F0000#32
      let hi := x.map (cvtHeld 1)
      let lo := (x.zip hi).map (fun p => if big p.1 then cvtHeld 1 (fsub p.1 p.2) else 0)
      (B.putTileRow { d1 with fmt := 1 } i hi).putTileRow { A.descr 2 with fmt := 1 } i lo) A
  | _ => A

/-- The swaps that H_SWAP_LEDGERS issues, 16 beats apart from its first beat on (Table 10.16). -/
def swapLedgers (n : Nat) : List Flight :=
  (List.range (min n 8)).map (fun i =>
    { left := 16 * i + 1, rank := 5
      op := .swap i (.ledger { en := true, ledger := BitVec.ofNat 3 i, neg := false } { en := false, ledger := 0, neg := false }) 0 })

/-- What a vendor helper may have overwritten when it returns holds free words (R263; log 2): S8 to S23, V0 to V23 but for
the result of H_ROWMAX, PT0 to PT7, CT0 to CT3, CMP0 and CMP1, D0 to D31 and the argument stage. -/
def ProgRegs.overwritten (r : ProgRegs) (routine : Nat) (w : Nat → Word) : ProgRegs :=
  let words := fun (at_ n : Nat) => (List.range n).map (fun i => w (at_ + i))
  let n := fun (i m : Nat) => (w i).toNat % m
  let first := if routine = 66 then 1 else 0
  { r with
    s := Tbl.setMany 0 r.s 8 (words 0 16)
    v := Tbl.setMany 0 r.v (32 * first) (words 16 (32 * (24 - first)))
    ct := Tbl.setMany 0 r.ct 0 (words 784 4)
    desc := Tbl.setMany 0 r.desc 0 (words 788 128)
    aks := Tbl.setMany 0 r.aks 0 (words 916 32)
    amu := w 948, agrd := w 949, amsk := n 950 (2 ^ 20), acol := n 951 32
    pt := Tbl.setMany {} r.pt 0 ((List.range 8).map (fun i =>
      ({ value := n (952 + 5 * i) (2 ^ 28), base := n (953 + 5 * i) (2 ^ 28), inc := w (954 + 5 * i)
         level := n (955 + 5 * i) 3, rewind := bitOf (w (956 + 5 * i)).toNat 0 } : Pointer)))
    cmp := Tbl.setMany {} r.cmp 0 ((List.range 2).map (fun i =>
      let x := (w (992 + i)).toNat
      ({ rel := x % 8, ct := x / 8 % 8, osrc := bitOf x 6, imm := x / 128 % (if bitOf x 6 then 8 else 4096), result := bitOf x 19 } : Comparator))) }

/-- Words that `ProgRegs.overwritten` draws. -/
def overwrittenWords : Nat := 994

/-- Free bytes over a tile of 32 rows of so many bytes: the rows of descriptor n. -/
def ArrayState.freeTile (b : Nat → Byte) (A : ArrayState) (n bytes base : Nat) : ArrayState :=
  (List.range 32).foldl (fun (A : ArrayState) i =>
    A.save (A.eaStore (A.descr n) (i * (A.descr n).rstride)) ((List.range bytes).map (fun j => b (base + 128 * i + j)))) A

/-- Free words over one ledger. -/
def ArrayState.freeLedger (A : ArrayState) (l : Nat) (w : Nat → Word) : ArrayState :=
  { A with acc := { A.acc with
      hi := Tbl.setMany 0 A.acc.hi (l * 1024) ((List.range 1024).map w)
      lo := Tbl.setMany 0 A.acc.lo (l * 1024) ((List.range 1024).map (fun i => w (1024 + i))) } }

/-- A vendor helper whose result follows what landed on its state during it: its destinations hold free values (R263). -/
def ArrayState.helperFree (A : ArrayState) (r : Nat) (b : Nat → Byte) (w : Nat → Word) : ArrayState :=
  let tile := fun (A : ArrayState) => A.freeTile b
  match r with
  | 65 =>
    let l := (A.sreg 8).toNat % 8
    (tile A 0 128 0).freeLedger l w
  | 66 => A.setV 0 ((List.range 32).map w)
  | 67 => tile A 1 (32 * plainBytes (A.descr 1).fmt) 0
  | 68 =>
    (List.range 32).foldl (fun (B : ArrayState) i =>
      let q := quantRow (A.descr 1).fmt 0 (List.replicate 32 0)
      (B.save (A.eaStore (A.descr 1) (i * (A.descr 1).rstride)) ((List.range q.1.length).map (fun j => b (128 * i + j)))).save
        ((A.descr 1).scale + i * (A.descr 1).sstride) ((List.range q.2.length).map (fun j => b (4096 + 4 * i + j)))) A
  | 69 => tile (tile A 1 64 0) 2 64 4096
  | _ => A

/-- The vendor helper that returns when the present beat completes. -/
def ArrayState.helperEnds (A : ArrayState) : Option Nat :=
  match A.seq.helper with
  | some (r, n) => if A.seq.state == .running && A.abandon.isNone && n == 1 then some r else none
  | none => none

/-- Free values that the return of a vendor helper draws. -/
def helperDraws : Nat := 8192

/-- The checks of a vendor helper's own reads, transfers and words: of the ledger or the tile that it reads, of its lanes and of the
words that it ran (Table 15.1); an armed injection makes them fail as anywhere else (R372; log 22). -/
def State.helperChecks (s : State) (a r : Nat) : State :=
  let s := if r = 65 then s.checkUnit a 2 else if r = 64 then s else s.checkPoint a 3 ((s.arr a).eaStore ((s.arr a).descr 0) 0)
  (if r = 64 then s else s.checkUnit a 4).checkUnit a 5

/-- What a vendor helper that returns leaves (R263): its results, free words where it may overwrite state, and the beats in
which its own accesses met at one bank, of which no rule gives the number (R90; log 33). -/
def State.helperResult (s : State) (a : Nat) (h : Option Nat) : State :=
  match h with
  | none => s
  | some r =>
    let s := s.helperChecks a r
    let w := fun i => Config.freeWord (s.freeCtr + i)
    ((s.onArr a fun A =>
        let B := if A.seq.helperHit then
            A.helperFree r (fun i => Config.freeByte (s.freeCtr + i)) (fun i => w (overwrittenWords + 1 + i))
          else A.helperDone r
        { B with
          regs := B.regs.overwritten r w
          ctr := { B.ctr with bankRepeat := satAdd32 B.ctr.bankRepeat (w overwrittenWords).toNat } }).drew helperDraws)

/-- A vendor helper's beats pass, each at a program counter of the ROM's; after its last it returns. -/
def ArrayState.helperBeat (A : ArrayState) : ArrayState :=
  match A.seq.helper with
  | some (r, n) =>
    if n = 1 then A.leave else { A with seq := { A.seq with helper := some (r, n - 1), pc := Config.romPc r (n - 1) % 2 ^ 19 } }
  | none => A

/-- Dead-letters a swap of a helper that comes too soon after a swap of its caller (R85, R259); the words of the ROM are free. -/
def State.lateSwap (s : State) (a : Nat) : State :=
  (s.drew 2).deadLetter a dlSwapSpacing 3
    ((Config.freeWord s.freeCtr).toNat + 2 ^ 32 * (Config.freeWord (s.freeCtr + 1)).toNat)

/-- A vendor helper begins in the beat after its CALL: its arguments give the beats it takes, and H_SWAP_LEDGERS starts its
swaps, of which one that issues too soon after a swap of the caller is skipped (R85, R263). -/
def State.helperStart (s : State) (a : Nat) : State :=
  let A := s.arr a
  match A.seq.helper with
  | some (r, 0) =>
    if A.loadBeat || A.seq.state != .running || A.abandon.isSome || A.atHalt then s
    else
      let k := (A.sreg 8).toNat
      let l := if r = 64 then swapLedgers k else []
      let soon := A.acc.swapBusy != 0 && !l.isEmpty
      (if soon then s.lateSwap a else s).onArr a fun A => { A with
        flight := A.flight ++ (if soon then l.drop 1 else l)
        acc := { A.acc with swapBusy := max A.acc.swapBusy (swapSpacing * l.length) }
        seq := { A.seq with helper := some (r, helperBeats r k) } }
  | _ => s

/-- The sequencer's part of a completed beat; it stays where it is in a beat that a group load takes from it (R29). -/
def ArrayState.nextBundle (A : ArrayState) (load : Bool) : ArrayState :=
  let q := A.seq
  let B :=
    if q.state != .running || A.abandon.isSome || load then A
    else if q.helper.isSome then A.helperBeat
    else if q.routine < 256 then { A with seq := { q with pc := Config.romPc q.routine q.pos % 2 ^ 19 } }
    else if 1 < q.waitLeft then { A with seq := { q with waitLeft := q.waitLeft - 1 } }
    else ({ A with seq := { q with waitLeft := 0 } }).follow
  { B with seq := { B.seq with
      issued := if 1 < q.waitLeft then q.issued else [], flow := .next, resumed := false, held := false, heldParts := [], touched := []
      arrived := false, lbMet := false } }

/-- A completed wave counts a beat in which a bank served more than one access (R90). -/
def ArrayState.countClash (A : ArrayState) : ArrayState :=
  if bankClash A.seq.touched then { A with ctr := { A.ctr with bankRepeat := satAdd32 A.ctr.bankRepeat 1 } } else A

/-- The beat completes: every operation in flight advances one stage, engines gain credit, the counts move and the
sequencer takes up the next bundle (R27, R28, R292). -/
def State.completeBeat (s : State) (a : Nat) : State :=
  let run := (s.arr a).task.isSome
  let s := s.helperResult a (s.arr a).helperEnds
  let s := s.onArr a fun A =>
    let A := (A.countClash.advanceUnits.gainCredit).nextBundle A.loadBeat
    { A with
      ctr := { A.ctr with beats := (A.ctr.beats + 1) % 2 ^ 64 }
      seq := { A.seq with pos := A.seq.pos + 1 }
      frzLen := 0, longRaised := false, stalled := [], frozenOn := []
      abandon := A.abandon.map (· - 1) }
  let s := s.deliverWords a
  let s := if run then (s.chargeBeats a (s.tenRunning a) 1).onTask (s.ridOf a) fun t => { t with tbeats := satAdd32 t.tbeats 1 } else s
  match (s.arr a).fail with
  | some (c, d) => (s.beginAbandon a (some (c, d))).runPosts a
  | none => s.runPosts a

/-- A hold beat: every operation in flight advances one stage and nothing else moves (R44). It completes, so a freeze before it
is over (R46). -/
def State.holdBeat (s : State) (a : Nat) : State :=
  let s := s.onArr a fun A =>
    let B := A.countClash.advanceUnits
    { B with
      ctr := { B.ctr with hold := satAdd32 B.ctr.hold 1 }
      seq := { B.seq with held := false, stall := A.seq.stall, touched := [] }
      frzLen := 0, longRaised := false, frozenOn := [] }
  let s := if (s.arr a).task.isSome then s.chargeFrozen a (s.tenRunning a) 1 else s
  match (s.arr a).fail with
  | some (c, d) => s.beginAbandon a (some (c, d))
  | none => s

/-- The array takes part in beats: its group is ON and it runs, ends or abandons a task. -/
def State.beating (s : State) (a : Nat) : Bool :=
  s.arrOn a && ((s.arr a).seq.state != .idle || (s.arr a).abandon.isSome || !(s.arr a).flight.isEmpty)

/-- A beat whose bundle hold mode keeps back: a hold beat, unless a landing at its end freezes it (R32, R44). -/
def State.holdOrFreeze (s : State) (a : Nat) : State :=
  let t := s.landLate a
  if (t.arr a).stalled.isEmpty then t.holdBeat a else s.freezeOn t a

/-- Engines take up the steps they still have, and the operations due at the end of the beat land. -/
def State.endBeat (s : State) (a : Nat) : State := (s.auditNew a 0 (s.retrySteps a)).landLate a

/-- The stream part of a bundle acts by itself while a step of it waits: the steps that can be made are made. -/
def State.streamFirst (s : State) (a : Nat) (ops : List (Part × Nat × SlotOp)) : State :=
  let l := ops.filter (fun x => x.1 == 0)
  let t := s.issueParts a l
  (t.auditNew a 0 (t.retrySteps a)).onArr a fun A => { A with seq := { A.seq with issued := A.seq.issued ++ l.map (·.1) } }

/-- An attempt at the present beat with the parts of its bundle: its landings at the end, and whatever waits. -/
def State.attempt (s : State) (a : Nat) (ops : List (Part × Nat × SlotOp)) (mark : State → State) : State :=
  ((mark s).issueParts a (issueOrder ops)).endBeat a

/-- The causes that an attempt at the present beat meets (R32, R46). -/
def State.meets (s : State) (a : Nat) : List Stalled :=
  let s := ((s.onArr a fun A => { A with stalled := [] }).landEarly a).helperStart a
  match s.fetch a with
  | .idle => ((s.attempt a [] id).arr a).stalled
  | .bundle ops n => ((s.attempt a ops (fun s => s.markFetched a n)).arr a).stalled
  | _ => []

/-- The causes of freeze that are present (R46): of the operations and steps that wait, those that still do, and while the beat waits for
its bundle or a landing, all that it would meet now. -/
def State.present (s : State) (a : Nat) : List Stalled :=
  let l := (s.arr a).stalled.filter (s.waitsFor a)
  if (s.arr a).frozenOn.isEmpty then l else l ++ (s.meets a).filter (fun x => !l.contains x)

/-- The present beat with the parts of its bundle: it completes if nothing of it waits. Otherwise the array freezes with every cause
that the beat meets and nothing of it takes effect, but for the steps of an engine that could be made before one that waits (R33, R34). -/
def State.tryBeat (s : State) (a : Nat) (ops : List (Part × Nat × SlotOp)) (mark : State → State) : State :=
  let u := s.attempt a ops mark
  let l := (u.arr a).stalled
  if l.isEmpty then u.completeBeat a
  else if l.any (fun x => x.engine.isSome) && ((s.issueParts a (plainParts ops)).arr a).stalled.isEmpty then
    (s.streamFirst a ops).freezeFor a (l.filter (fun x => x.engine.isNone)) (u.arr a).seq.lbMet
  else s.freezeOn u a

/-- The wave of an array that no cause freezes when it starts: landings, the bundle, stream steps, late landings, completion. -/
def State.wave (s : State) (a : Nat) : State :=
  let s := (s.landEarly a).helperStart a
  if (s.arr a).seq.held then s.holdOrFreeze a
  else match s.fetch a with
    | .idle => s.tryBeat a [] id
    | .bundle ops n => s.tryBeat a ops (fun s => s.markFetched a n)
    | .hold s => s.holdOrFreeze a
    | .halt s => s.freezeOne a
    | .late => (s.slipBegin a).freezeOne a

/-- One beat of an array, or one pace period of a freeze (R27, R32, R34, R44). -/
def State.beat (s : State) (a : Nat) : State :=
  if !s.beating a then s
  else if s.extStop a || (s.arr a).slip then s.freezeOne a
  else
    let s := s.retryStalls a
    if (s.arr a).stalled.isEmpty then s.wave a else s.freezeOne a

/-- A frozen beat completes if every cause present has cleared; else nothing changes (R34). -/
def State.frozenComplete (s : State) (a : Nat) : State :=
  if !s.beating a || (s.arr a).frzLen == 0 then s
  else
    let t := s.beat a
    if (t.arr a).frzLen == 0 then t else s

end Sys2Proof.Machine
end

