-- ==== Sys2Proof/Machine/ArrayRows.lean ====
section
/-! DEFINITION. The commands of an array: beats, the operations of a bundle issued as commands of their own, and landings
(spec/02_beats.md; spec/04_arrays.md; spec/10_instructions.md; spec/11_queues_and_sync.md R288 to R291). -/
namespace Sys2Proof.Machine

/-! ### Beats -/

/-- BEAT: one wave, or one pace period of a freeze (R27, R32, R44). -/
def execBeat (a : Arr) (s : State) : Host.Outcome State Fault Refusal := .next (s.beat a.toNat)

/-- FROZEN_BEAT_COMPLETE (R34). -/
def execFrozenBeatComplete (a : Arr) (s : State) : Host.Outcome State Fault Refusal := .next (s.frozenComplete a.toNat)

/-- The pace periods up to FRZ_LIMIT of a freeze pass at once (R46). -/
def State.freezeLong (s : State) (a : Nat) : State :=
  let lim := s.reg Reg.TIME_FRZ_LIMIT a
  let A := s.arr a
  if !s.beating a || !s.frozenBy a || A.longRaised || lim ≤ A.frzLen then s
  else
    let n := lim - A.frzLen
    let s := s.onArr a fun A =>
      { A with ctr := { A.ctr with frozen := (A.ctr.frozen + n) % 2 ^ 64 }, frzLen := lim, longRaised := true }
    let s := if A.task.isSome then s.chargeFrozen a (s.tenRunning a) n else s
    s.raiseArr .time 0 a

/-- FREEZE_LONG: a single freeze reaches FRZ_LIMIT (R46, Table 2.7). -/
def execFreezeLong (a : Arr) (s : State) : Host.Outcome State Fault Refusal := .next (s.freezeLong a.toNat)

/-- A WAIT bundle begins, if the present beat holds no operation; it may stand in the scheduled stall of a group load. Its word is
checked as it issues (Table 15.1). -/
def State.waitRow (s : State) (a n : Nat) : State :=
  let s := s.landEarly a
  let A := s.arr a
  if s.arrOn a && A.seq.state == .running && A.abandon.isNone && !s.extStop a && !A.slip && A.frzLen == 0 &&
      A.seq.waitLeft == 0 && A.seq.issued.isEmpty then
    (s.checkUnit a 5).onArr a fun A => { A with seq := { A.seq with waitLeft := n, issued := List.range 9 } }
  else s

/-- WAIT n: n consecutive beats without operations (R236). -/
def execWait (a : Arr) (n : Nat) (s : State) : Host.Outcome State Fault Refusal := .next (s.waitRow a.toNat n)

/-! ### Landings -/

/-- Lands the first due operation of a kind, after every due operation that Table 4.4 places before it. -/
def State.landOrdered (s : State) (a : Nat) (p : Landing → Bool) : State :=
  match firstDue (fun f => p f.op) (s.arr a).flight with
  | none => s
  | some f =>
    let t := if f.op.late && s.arrOn a && !s.frozenBy a then
        s.landAllDue (s.landFuel a) a (fun g => g.op.late && decide (g.rank < f.rank))
      else s
    t.landRow a p

/-- FEEDER_DELIVER (R242). -/
def execFeederDeliver (a : Arr) (s : State) : Host.Outcome State Fault Refusal :=
  .next (s.landOrdered a.toNat (fun x => match x with | .feeder _ _ => true | _ => false))

/-- MMA_LAND (R61, R93). -/
def execMmaLand (a : Arr) (s : State) : Host.Outcome State Fault Refusal :=
  .next (s.landOrdered a.toNat (fun x => match x with | .mma _ _ _ => true | _ => false))

/-- Closes the accumulation of a query: its tally decision, then +0 in its tally lane (R106). The entries are read, with
their parity (R104), and stay as they are (log 49). -/
def State.closeQuery (s : State) (a q : Nat) : State :=
  let s := s.checkUnit a 2
  let A := s.arr a
  let m := A.mv
  let sum := m.rowSum q
  let t := Tbl.get 0 m.t q
  let w := if m.axpy.contains q then 256 else 32
  let o := if A.modes.tallyEn then tallyDecide (A.modes.tallyK + 1) (Tbl.get 0 m.issues q + w) sum t (Tbl.get 0 m.g q) else .unchecked
  (s.tallyCheck a o q 0 true (fsub sum t)).onArr a fun A => { A with mv := { A.mv with
    t := Tbl.set 0 A.mv.t q 0, g := Tbl.set 0 A.mv.g q 0, issues := Tbl.set 0 A.mv.issues q 0
    axpy := A.mv.axpy.filter (fun n => n != q), entries := Tbl.set [] A.mv.entries q [] } }

/-- MV_LAND: the due matrix-vector result lands; `close` closes a query's accumulation, unless the array is frozen (R33, R105, R106). -/
def execMvLand (a : Arr) (close : Option (BitVec 4)) (s : State) : Host.Outcome State Fault Refusal :=
  let t := s.landOrdered a.toNat (fun x => match x with | .dotAdd _ _ _ => true | .axpyAdd _ _ _ => true | _ => false)
  .next (match close with
    | some q => if t.arrOn a.toNat && !t.frozenBy a.toNat then t.closeQuery a.toNat q.toNat else t
    | none => t)

/-- SWAP_LAND (R82). -/
def execSwapLand (a : Arr) (s : State) : Host.Outcome State Fault Refusal :=
  .next (s.landOrdered a.toNat (fun x => match x with | .swap _ _ _ => true | _ => false))

/-- DRAIN_ROW (R83, R94). -/
def execDrainRow (a : Arr) (s : State) : Host.Outcome State Fault Refusal :=
  .next (s.landOrdered a.toNat (fun x => match x with | .drain _ => true | _ => false))

/-- ROWSCALE_LAND (R63, R70). -/
def execRowscaleLand (a : Arr) (s : State) : Host.Outcome State Fault Refusal :=
  .next (s.landOrdered a.toNat (fun x => match x with | .rowscale _ _ => true | _ => false))

/-- GLOAD_COMPLETE: the last rows are read and the tile replaces the group (R86, R95). -/
def execGloadComplete (a : Arr) (s : State) : Host.Outcome State Fault Refusal :=
  .next (s.landOrdered a.toNat (fun x => match x with | .loadRow _ _ 15 _ => true | _ => false))

/-- EVAL_RESULT (R109, R137). -/
def execEvalResult (a : Arr) (s : State) : Host.Outcome State Fault Refusal :=
  .next (s.landOrdered a.toNat (fun x => match x with | .eval _ _ _ | .rsumAdd _ => true | _ => false))

/-- A write of the vector or scalar slot. -/
def Landing.slotWrite (x : Landing) : Bool :=
  match x with
  | .sreg _ _ | .vreg _ _ | .rsumW _ | .ptset _ _ | .ptcfg _ _ _ _ | .counter _ _ | .cmpCfg _ _ | .cmpEval _ _ => true
  | .desc _ _ | .bytes _ | .guard _ | .astg _ _ _ _ _ | .epoch => true
  | _ => false

/-- OPERATION_LANDS (R27). -/
def execOperationLands (a : Arr) (s : State) : Host.Outcome State Fault Refusal :=
  .next (s.landOrdered a.toNat Landing.slotWrite)

/-! ### Streams -/

/-- An engine may advance: its group is ON and its attempt is not being abandoned. -/
def State.engineLive (s : State) (a e : Nat) : Bool :=
  s.arrOn a && (s.arr a).abandon.isNone && (s.engine a e).started

/-- A PACED engine may go on: nothing freezes the array but steps of its own that wait (R33). -/
def State.pacedFree (s : State) (a e : Nat) : Bool :=
  !s.extStop a && !(s.arr a).slip && (s.arr a).frozenOn.isEmpty && (s.arr a).stalled.all (fun x => x.engine == some e)

/-- A PACED engine may take a step: it may go on, and has a step left. -/
def State.pacedReady (s : State) (a e : Nat) : Bool := (s.engine a e).steps != 0 && s.pacedFree a e

/-- One MOVE step of an engine that has one to do; what stops it freezes the array (R290). -/
def State.moveRow (s : State) (a e : Nat) : State :=
  if !s.engineLive a e || (!(s.engine a e).arm.free && !s.pacedReady a e) then s else s.oneStep a e

/-- STREAM_MOVE (R288 to R292). -/
def execStreamMove (a : Arr) (e : BitVec 2) (s : State) : Host.Outcome State Fault Refusal := .next (s.moveRow a.toNat e.toNat)

/-- The instructions up to the next MOVE, a NEXTBASE among them (R288, R290). -/
def State.nextBaseRow (s : State) (a e : Nat) : State :=
  if !s.engineLive a e || (!(s.engine a e).arm.free && !s.pacedReady a e) then s else s.upToMove a e

/-- STREAM_NEXTBASE (R288, R290). -/
def execStreamNextbase (a : Arr) (e : BitVec 2) (s : State) : Host.Outcome State Fault Refusal :=
  .next (s.nextBaseRow a.toNat e.toNat)

/-- The posts of an engine that are due; an engine that may go on takes up the POST of its program first (R33, R288). -/
def State.postRow (s : State) (a e : Nat) : State :=
  if !s.arrOn a || (s.arr a).abandon.isSome then s
  else
    let s := if (s.engine a e).started && ((s.engine a e).arm.free || s.pacedFree a e) then (s.between streamFuel a e false).1 else s
    s.enginePosts (s.engine a e).posts.length a e

/-- STREAM_POST (R288, R325). -/
def execStreamPost (a : Arr) (e : BitVec 2) (s : State) : Host.Outcome State Fault Refusal := .next (s.postRow a.toNat e.toNat)

/-- Some delivery has reached its release beat. -/
def ArrayState.deliveryDue (A : ArrayState) : Bool :=
  A.flight.any (fun f => f.left == 0 && (match f.op with | .deliver _ _ _ _ => true | _ => false))

/-- Lands every due delivery of an array. -/
def State.landDeliveries (s : State) (a : Nat) : State :=
  s.landAllDue (s.landFuel a) a (fun f => match f.op with | .deliver _ _ _ _ => true | _ => false)

/-- The bundle of the present beat is still to be taken from the instruction queue. -/
def State.wordDue (s : State) (a : Nat) : Bool :=
  let A := s.arr a
  A.seq.state == .running && A.abandon.isNone && A.seq.waitLeft == 0 && A.seq.helper.isNone && A.seq.issued.isEmpty && (s.nativeWord a).isSome

/-- A native word that is due has not arrived: the instruction queue holds none, and the array freezes with cause SLIP (R253). -/
def State.wordLate (s : State) (a : Nat) : State :=
  (s.onArr a fun A => { A with seq := { A.seq with queue := [] } }).slipBegin a

/-- SHARED_STORE_DELIVERY: a due delivery is released, or the array freezes with cause SLIP until it is complete (R40, R42). A
native word that is due in this beat is treated as such a delivery (R253). -/
def State.deliveryRow (s : State) (a : Nat) (arrived : Bool) : State :=
  if !s.arrOn a || !((s.arr a).deliveryDue || s.wordDue a) then s
  else if arrived then ((s.onArr a fun A => { A with slip := false }).landDeliveries a).deliverWords a
  else if (s.arr a).slip then s
  else if (s.arr a).deliveryDue then s.slipBegin a
  else s.wordLate a

/-- SHARED_STORE_DELIVERY (R40, R42, R253). -/
def execSharedStoreDelivery (a : Arr) (arrived : Bool) (s : State) : Host.Outcome State Fault Refusal :=
  .next (s.deliveryRow a.toNat arrived)

/-! ### The operations of a bundle -/

/-- FEEDER_READ: reads the slice of one reduction step and delivers it 2 beats later (R91, R242). -/
def execFeederRead (a : Arr) (p : Pred) (sideB : Bool) (desc : BitVec 6) (kstep : BitVec 7) (s : State) : Host.Outcome State Fault Refusal :=
  .next (s.issueRow a.toNat (.feederRead a p sideB desc kstep))

/-- MMA: a product of the presented slices, landing 4 beats later (R78, R92). -/
def execMma (a : Arr) (p : Pred) (f : MmaFields) (s : State) : Host.Outcome State Fault Refusal :=
  .next (s.issueRow a.toNat (.mma a p f))

/-- DOT (R105). -/
def execDot (a : Arr) (p : Pred) (f : DotFields) (s : State) : Host.Outcome State Fault Refusal :=
  .next (s.issueRow a.toNat (.dot a p f))

/-- AXPY (R105). -/
def execAxpy (a : Arr) (p : Pred) (f : AxpyFields) (s : State) : Host.Outcome State Fault Refusal :=
  .next (s.issueRow a.toNat (.axpy a p f))

/-- SWAP (R82 to R85). -/
def execSwap (a : Arr) (p : Pred) (grp : BitVec 3) (dest : SwapDest) (s : State) : Host.Outcome State Fault Refusal :=
  .next (s.issueRow a.toNat (.swap a p grp dest))

/-- ROWSCALE (R88). -/
def execRowscale (a : Arr) (p : Pred) (grp : BitVec 3) (vreg : BitVec 5) (s : State) : Host.Outcome State Fault Refusal :=
  .next (s.issueRow a.toNat (.rowscale a p grp vreg))

/-- GLOAD (R86, R29). -/
def execGload (a : Arr) (p : Pred) (grp : BitVec 3) (src : TileAddr) (s : State) : Host.Outcome State Fault Refusal :=
  .next (s.issueRow a.toNat (.gload a p grp src))

/-- SPECIAL_FUNCTION_ISSUE (R109, R110, R135, R244, R245). -/
def execSpecialFunctionIssue (a : Arr) (p : Pred) (f : SfFields) (s : State) : Host.Outcome State Fault Refusal :=
  .next (s.issueRow a.toNat (.specialFunctionIssue a p f))

/-- FADD (R246). -/
def execFadd (a : Arr) (p : Pred) (f : VFields) (s : State) : Host.Outcome State Fault Refusal :=
  .next (s.issueRow a.toNat (.fadd a p f))

/-- FSUB (R246). -/
def execFsub (a : Arr) (p : Pred) (f : VFields) (s : State) : Host.Outcome State Fault Refusal :=
  .next (s.issueRow a.toNat (.fsub a p f))

/-- FMUL (R246). -/
def execFmul (a : Arr) (p : Pred) (f : VFields) (s : State) : Host.Outcome State Fault Refusal :=
  .next (s.issueRow a.toNat (.fmul a p f))

/-- FMA, one rounding (R246). -/
def execFma (a : Arr) (p : Pred) (f : VFields) (s : State) : Host.Outcome State Fault Refusal :=
  .next (s.issueRow a.toNat (.fma a p f))

/-- FNMA, one rounding (R246). -/
def execFnma (a : Arr) (p : Pred) (f : VFields) (s : State) : Host.Outcome State Fault Refusal :=
  .next (s.issueRow a.toNat (.fnma a p f))

/-- FDIV, one per lane every 4 beats (R38, R246). -/
def execFdiv (a : Arr) (p : Pred) (f : VFields) (s : State) : Host.Outcome State Fault Refusal :=
  .next (s.issueRow a.toNat (.fdiv a p f))

/-- FMAX (R73). -/
def execFmax (a : Arr) (p : Pred) (f : VFields) (s : State) : Host.Outcome State Fault Refusal :=
  .next (s.issueRow a.toNat (.fmax a p f))

/-- FMIN (R73). -/
def execFmin (a : Arr) (p : Pred) (f : VFields) (s : State) : Host.Outcome State Fault Refusal :=
  .next (s.issueRow a.toNat (.fmin a p f))

/-- FCLT (R246). -/
def execFclt (a : Arr) (p : Pred) (f : VFields) (s : State) : Host.Outcome State Fault Refusal :=
  .next (s.issueRow a.toNat (.fclt a p f))

/-- FSEL (R246). -/
def execFsel (a : Arr) (p : Pred) (f : VFields) (s : State) : Host.Outcome State Fault Refusal :=
  .next (s.issueRow a.toNat (.fsel a p f))

/-- CVT (R246). -/
def execCvt (a : Arr) (p : Pred) (f : VFields) (s : State) : Host.Outcome State Fault Refusal :=
  .next (s.issueRow a.toNat (.cvt a p f))

/-- IAND (R246). -/
def execIand (a : Arr) (p : Pred) (f : VFields) (s : State) : Host.Outcome State Fault Refusal :=
  .next (s.issueRow a.toNat (.iand a p f))

/-- IOR (R246). -/
def execIor (a : Arr) (p : Pred) (f : VFields) (s : State) : Host.Outcome State Fault Refusal :=
  .next (s.issueRow a.toNat (.ior a p f))

/-- IADD (R246). -/
def execIadd (a : Arr) (p : Pred) (f : VFields) (s : State) : Host.Outcome State Fault Refusal :=
  .next (s.issueRow a.toNat (.iadd a p f))

/-- ICLT (R246). -/
def execIclt (a : Arr) (p : Pred) (f : VFields) (s : State) : Host.Outcome State Fault Refusal :=
  .next (s.issueRow a.toNat (.iclt a p f))

/-- VLD (R246, Table 10.4). -/
def execVld (a : Arr) (p : Pred) (vd : BitVec 5) (desc : BitVec 6) (s : State) : Host.Outcome State Fault Refusal :=
  .next (s.issueRow a.toNat (.vld a p vd desc))

/-- VST (R246, Table 10.4). -/
def execVst (a : Arr) (p : Pred) (vs : BitVec 5) (desc : BitVec 6) (s : State) : Host.Outcome State Fault Refusal :=
  .next (s.issueRow a.toNat (.vst a p vs desc))

/-- XSUM (R74). -/
def execXsum (a : Arr) (p : Pred) (f : VFields) (s : State) : Host.Outcome State Fault Refusal :=
  .next (s.issueRow a.toNat (.xsum a p f))

/-- BCAST (R246). -/
def execBcast (a : Arr) (p : Pred) (f : VFields) (s : State) : Host.Outcome State Fault Refusal :=
  .next (s.issueRow a.toNat (.bcast a p f))

/-- EXTR (R246). -/
def execExtr (a : Arr) (p : Pred) (f : VFields) (s : State) : Host.Outcome State Fault Refusal :=
  .next (s.issueRow a.toNat (.extr a p f))

/-- RSUMRD (R137). -/
def execRsumrd (a : Arr) (p : Pred) (f : VFields) (s : State) : Host.Outcome State Fault Refusal :=
  .next (s.issueRow a.toNat (.rsumrd a p f))

/-- RSUMWR (R137). -/
def execRsumwr (a : Arr) (p : Pred) (f : VFields) (s : State) : Host.Outcome State Fault Refusal :=
  .next (s.issueRow a.toNat (.rsumwr a p f))

/-- LANEID (R246). -/
def execLaneid (a : Arr) (p : Pred) (f : VFields) (s : State) : Host.Outcome State Fault Refusal :=
  .next (s.issueRow a.toNat (.laneid a p f))

/-- GFRD (R136). -/
def execGfrd (a : Arr) (p : Pred) (f : VFields) (s : State) : Host.Outcome State Fault Refusal :=
  .next (s.issueRow a.toNat (.gfrd a p f))

/-- ADD (R247). -/
def execAdd (a : Arr) (p : Pred) (f : RForm) (s : State) : Host.Outcome State Fault Refusal :=
  .next (s.issueRow a.toNat (.add a p f))

/-- SUB (R247). -/
def execSub (a : Arr) (p : Pred) (f : RForm) (s : State) : Host.Outcome State Fault Refusal :=
  .next (s.issueRow a.toNat (.sub a p f))

/-- AND (R247). -/
def execAndW (a : Arr) (p : Pred) (f : RForm) (s : State) : Host.Outcome State Fault Refusal :=
  .next (s.issueRow a.toNat (.andW a p f))

/-- OR (R247). -/
def execOrW (a : Arr) (p : Pred) (f : RForm) (s : State) : Host.Outcome State Fault Refusal :=
  .next (s.issueRow a.toNat (.orW a p f))

/-- XOR (R247). -/
def execXorW (a : Arr) (p : Pred) (f : RForm) (s : State) : Host.Outcome State Fault Refusal :=
  .next (s.issueRow a.toNat (.xorW a p f))

/-- SHL (R247). -/
def execShl (a : Arr) (p : Pred) (f : RForm) (s : State) : Host.Outcome State Fault Refusal :=
  .next (s.issueRow a.toNat (.shl a p f))

/-- SHR (R247). -/
def execShr (a : Arr) (p : Pred) (f : RForm) (s : State) : Host.Outcome State Fault Refusal :=
  .next (s.issueRow a.toNat (.shr a p f))

/-- ADDI (R247). -/
def execAddi (a : Arr) (p : Pred) (sd sa : BitVec 5) (imm : BitVec 12) (s : State) : Host.Outcome State Fault Refusal :=
  .next (s.issueRow a.toNat (.addi a p sd sa imm))

/-- LLI (R247). -/
def execLli (a : Arr) (p : Pred) (sd : BitVec 5) (imm : BitVec 16) (s : State) : Host.Outcome State Fault Refusal :=
  .next (s.issueRow a.toNat (.lli a p sd imm))

/-- LUI (R247). -/
def execLui (a : Arr) (p : Pred) (sd : BitVec 5) (imm : BitVec 16) (s : State) : Host.Outcome State Fault Refusal :=
  .next (s.issueRow a.toNat (.lui a p sd imm))

/-- MUL (R247). -/
def execMul (a : Arr) (p : Pred) (f : RForm) (s : State) : Host.Outcome State Fault Refusal :=
  .next (s.issueRow a.toNat (.mul a p f))

/-- PTSET (R247). -/
def execPtset (a : Arr) (p : Pred) (pt : BitVec 4) (sa : BitVec 5) (s : State) : Host.Outcome State Fault Refusal :=
  .next (s.issueRow a.toNat (.ptset a p pt sa))

/-- PTCFG (R247, R250). -/
def execPtcfg (a : Arr) (p : Pred) (pt : BitVec 4) (level : BitVec 2) (rewind : Bool) (sa : BitVec 5) (s : State) : Host.Outcome State Fault Refusal :=
  .next (s.issueRow a.toNat (.ptcfg a p pt level rewind sa))

/-- PTRD (R247). -/
def execPtrd (a : Arr) (p : Pred) (sd : BitVec 5) (pt : BitVec 4) (s : State) : Host.Outcome State Fault Refusal :=
  .next (s.issueRow a.toNat (.ptrd a p sd pt))

/-- CTSET (R239, R247). -/
def execCtset (a : Arr) (p : Pred) (ct : BitVec 3) (sa : BitVec 5) (s : State) : Host.Outcome State Fault Refusal :=
  .next (s.issueRow a.toNat (.ctset a p ct sa))

/-- CTADD (R239, R247). -/
def execCtadd (a : Arr) (p : Pred) (ct : BitVec 3) (imm : BitVec 16) (s : State) : Host.Outcome State Fault Refusal :=
  .next (s.issueRow a.toNat (.ctadd a p ct imm))

/-- CTRD (R247). -/
def execCtrd (a : Arr) (p : Pred) (sd : BitVec 5) (ct : BitVec 3) (s : State) : Host.Outcome State Fault Refusal :=
  .next (s.issueRow a.toNat (.ctrd a p sd ct))

/-- CMPSET (R239). -/
def execCmpset (a : Arr) (p : Pred) (f : CmpSetFields) (s : State) : Host.Outcome State Fault Refusal :=
  .next (s.issueRow a.toNat (.cmpset a p f))

/-- REPEAT (R249, R250). -/
def execRepeatBody (a : Arr) (p : Pred) (body1 : BitVec 6) (csrc : Bool) (count1 : BitVec 12) (s : State) : Host.Outcome State Fault Refusal :=
  .next (s.issueRow a.toNat (.repeatBody a p body1 csrc count1))

/-- CALL (R251, R258). -/
def execCall (a : Arr) (p : Pred) (routine : BitVec 10) (s : State) : Host.Outcome State Fault Refusal :=
  .next (s.issueRow a.toNat (.call a p routine))

/-- RET (R251). -/
def execRet (a : Arr) (p : Pred) (s : State) : Host.Outcome State Fault Refusal :=
  .next (s.issueRow a.toNat (.ret a p))

/-- END (R252). -/
def execEndTask (a : Arr) (p : Pred) (s : State) : Host.Outcome State Fault Refusal :=
  .next (s.issueRow a.toNat (.endTask a p))

/-- TEPOCH (R124). -/
def execTepoch (a : Arr) (p : Pred) (s : State) : Host.Outcome State Fault Refusal :=
  .next (s.issueRow a.toNat (.tepoch a p))

/-- ASTG (R245). -/
def execAstg (a : Arr) (p : Pred) (f : AstgFields) (s : State) : Host.Outcome State Fault Refusal :=
  .next (s.issueRow a.toNat (.astg a p f))

/-- DSET (R247). -/
def execDset (a : Arr) (p : Pred) (desc : BitVec 6) (sa : BitVec 5) (s : State) : Host.Outcome State Fault Refusal :=
  .next (s.issueRow a.toNat (.dset a p desc sa))

/-- LBPOST (R280, R287). -/
def execLbpost (a : Arr) (p : Pred) (obj : BitVec 13) (sa : BitVec 5) (s : State) : Host.Outcome State Fault Refusal :=
  .next (s.issueRow a.toNat (.lbpost a p obj sa))

/-- LBWAIT (R280). -/
def execLbwait (a : Arr) (p : Pred) (obj : BitVec 13) (sa : BitVec 5) (s : State) : Host.Outcome State Fault Refusal :=
  .next (s.issueRow a.toNat (.lbwait a p obj sa))

/-- LBREAD (R247). -/
def execLbread (a : Arr) (p : Pred) (obj : BitVec 13) (sd : BitVec 5) (s : State) : Host.Outcome State Fault Refusal :=
  .next (s.issueRow a.toNat (.lbread a p obj sd))

/-- MBPUT (R282, R287). -/
def execMbput (a : Arr) (p : Pred) (obj : BitVec 13) (sa : BitVec 5) (s : State) : Host.Outcome State Fault Refusal :=
  .next (s.issueRow a.toNat (.mbput a p obj sa))

/-- MBTAKE (R282, R287). -/
def execMbtake (a : Arr) (p : Pred) (obj : BitVec 13) (sd : BitVec 5) (s : State) : Host.Outcome State Fault Refusal :=
  .next (s.issueRow a.toNat (.mbtake a p obj sd))

/-- COLLECT of an array (R284, R287). -/
def execCollectionArrival (a : Arr) (p : Pred) (s : State) : Host.Outcome State Fault Refusal :=
  .next (s.issueRow a.toNat (.collectionArrival a p))

/-- SGO (R248, R291). -/
def execSgo (a : Arr) (p : Pred) (e : BitVec 2) (entry : BitVec 5) (s : State) : Host.Outcome State Fault Refusal :=
  .next (s.issueRow a.toNat (.sgo a p e entry))

/-- SADV (R248, R290). -/
def execSadv (a : Arr) (p : Pred) (e : BitVec 2) (n1 : BitVec 8) (s : State) : Host.Outcome State Fault Refusal :=
  .next (s.issueRow a.toNat (.sadv a p e n1))

/-- SHALT (R248). -/
def execShalt (a : Arr) (p : Pred) (e : BitVec 2) (s : State) : Host.Outcome State Fault Refusal :=
  .next (s.issueRow a.toNat (.shalt a p e))

/-- SFREE (R291). -/
def execSfree (a : Arr) (p : Pred) (e : BitVec 2) (slot : BitVec 6) (s : State) : Host.Outcome State Fault Refusal :=
  .next (s.issueRow a.toNat (.sfree a p e slot))

/-- SCOPY (R248, Table 10.4). -/
def execScopy (a : Arr) (p : Pred) (e : BitVec 2) (dsrc ddst : BitVec 6) (s : State) : Host.Outcome State Fault Refusal :=
  .next (s.issueRow a.toNat (.scopy a p e dsrc ddst))

end Sys2Proof.Machine
end

