-- ==== Sys2Proof/Machine/Cache.lean ====
section
/-! DEFINITION. The four cache commands, from their checks to their publication (spec/08_paged_cache.md R207 to R221;
spec/10_instructions.md R261). -/
namespace Sys2Proof.Machine

/-! ### Argument records (R261, Table 10.15) -/

/-- An ID that Table 10.15 lists. -/
def knownArg (id : Nat) : Bool :=
  [(0x01, 0x0D), (0x10, 0x1A), (0x20, 0x28), (0x30, 0x39), (0x40, 0x46), (0x50, 0x5A), (0x60, 0x61), (0x70, 0x7E),
   (0x80, 0x8A)].any (fun r => decide (r.1 ≤ id) && decide (id ≤ r.2))

/-- The records of an argument block given as bytes: (ID, VALUE) up to the record with ID 0 or the end. -/
def parseArgs (fuel : Nat) (bs : List Byte) : List (Nat × Nat) :=
  match fuel with
  | 0 => []
  | n + 1 =>
    if bs.length < 16 then []
    else
      let id := leNat (bs.take 2)
      if id = 0 then [] else (id, leNat ((bs.drop 8).take 8)) :: parseArgs n (bs.drop 16)

/-- The last record of an ID. -/
def argOf (l : List (Nat × Nat)) (id : Nat) : Option Nat := ((l.reverse.find? (fun r => r.1 == id)).map (·.2))
/-- A 32-bit value with a default. -/
def argW (l : List (Nat × Nat)) (id dflt : Nat) : Nat := ((argOf l id).map (· % 2 ^ 32)).getD dflt
/-- A 48-bit address; 0 where it is absent. -/
def argA (l : List (Nat × Nat)) (id : Nat) : Nat := ((argOf l id).map (· % 2 ^ 48)).getD 0

/-! ### The working copy of a command -/

/-- A cache command under way: `data` has the rows and trailers written so far, `pub` also the structure writes that its
publication makes. `reads` are the structure reads so far, `rows` the row and trailer transactions, each with its length and
whether it writes, and `writes` the writes of the publication. `badRead` and `badRow` say which structure read, or which row or
trailer transaction, ends it there, where one does (R209). -/
structure Work where
  data : State
  pub : State
  pool : Pool
  seq : Nat
  rel : List (Nat × Nat) := []
  changed : List Nat := []
  sat : Nat := 0
  satEv : Bool := false
  reads : List Nat := []
  rows : List (Nat × Nat × Bool) := []
  writes : List (Nat × Nat) := []
  badRead : Option Nat := none
  badRow : Option Nat := none

/-- A step of a command: it goes on, or ends with a status and what it has done by then. -/
abbrev CM (α : Type) := Except (Nat × Work) α

/-- Ends the command with a status. -/
def Work.fail {α : Type} (w : Work) (st : Nat) : CM α := .error (st, w)

/-- Charges a range read. -/
def Work.chargeAt (w : Work) (a n : Nat) : Work :=
  { w with data := w.data.chargeRead w.pool.t a n, pub := w.pub.chargeRead w.pool.t a n }

/-- Makes a structure read, after which the command ends if it is the one answered with an error. -/
def Work.noteRead (w : Work) (a n : Nat) : CM Work :=
  let u := { w.chargeAt a n with reads := w.reads ++ [a] }
  if w.badRead = some w.reads.length then u.fail 0x38 else .ok u

/-- Makes a row or trailer transaction, whose error ends the command where this attempt is the last; `u` has its effect. -/
def Work.noteRow (w u : Work) (a n : Nat) (wr : Bool) : CM Work :=
  if w.badRow = some w.rows.length then Work.fail { w with rows := w.rows ++ [(a, n, wr)] } 0x40
  else .ok { u with rows := w.rows ++ [(a, n, wr)] }

/-- Reads bytes; WINDOW_FAULT outside the windows (R199). -/
def Work.rdBytes (w : Work) (a n : Nat) : CM (List Byte × Work) :=
  if w.pub.spanInWindow w.pool.t a n then do
    let u ← w.noteRow (w.chargeAt a n) a n false
    .ok (w.pub.mem.bytes a n, u)
  else w.fail 0x38

/-- Reads an `n`-byte structure word. -/
def Work.rd (w : Work) (a n : Nat) : CM (Nat × Work) :=
  if w.pub.spanInWindow w.pool.t a n then do
    let u ← w.noteRead a n
    .ok (w.pub.memLe a n, u)
  else w.fail 0x38

/-- A write of the publication. -/
def Work.wr (w : Work) (a : Nat) (bs : List Byte) : CM Work :=
  if w.pub.spanInWindow w.pool.t a bs.length then
    .ok { w with pub := w.pub.writeMem w.pool.t a bs, writes := w.writes ++ [(a, bs.length)] }
  else w.fail 0x38

/-- A write of `n` bytes of zeros by the publication. -/
def Work.clear (w : Work) (a n : Nat) : CM Work :=
  if w.pub.spanInWindow w.pool.t a n then .ok { w with pub := w.pub.clearMem w.pool.t a n, writes := w.writes ++ [(a, n)] }
  else w.fail 0x38

/-- A write of a row or trailer, before publication. -/
def Work.wrRow (w : Work) (a : Nat) (bs : List Byte) : CM Work :=
  if w.pub.spanInWindow w.pool.t a bs.length then
    w.noteRow { w with pub := w.pub.writeMem w.pool.t a bs, data := w.data.writeMem w.pool.t a bs } a bs.length true
  else w.fail 0x38

/-- The command rewrites positions of planes of its sequence: what running tasks read there is unspecified from now on (R223). -/
def Work.rewrites (w : Work) (plane npl pos n : Nat) : Work :=
  { w with
    data := w.data.markStale w.pool.p w.seq false (plane, npl, pos, n)
    pub := w.pub.markStale w.pool.p w.seq false (plane, npl, pos, n) }

/-- The command ends the drafts at some positions of its sequence: what the verify tasks that run read there is unspecified (R235). -/
def Work.endsDrafts (w : Work) (pos n : Nat) : Work :=
  let m := (0, w.pool.planes, pos, n)
  { w with data := w.data.markStale w.pool.p w.seq true m, pub := w.pub.markStale w.pool.p w.seq true m }

/-- A field of the pool's registers, and its change at publication. -/
def Work.reg (w : Work) (f : FieldSpec) : Nat := w.pub.reg f w.pool.p
def Work.setReg (w : Work) (f : FieldSpec) (v : Nat) : Work := { w with pub := w.pub.setReg f w.pool.p v }

/-- No frame or node. -/
def noneNo : Nat := 0xFFFFFFFF

/-- Takes a node from the free list and zeroes it (R199). -/
def Work.takeNode (w : Work) : CM (Nat × Work) :=
  let h := w.reg Reg.CACHE_NODE_HEAD
  if w.pool.nodes ≤ h then w.fail 0x36
  else do
    let (n, w) ← w.rd (w.pool.entryAt h 0) 4
    let w ← w.clear (w.pool.entryAt h 0) 4096
    .ok (h, (w.setReg Reg.CACHE_NODE_HEAD (if w.pool.nodes ≤ n then noneNo else n)).setReg Reg.CACHE_FREE_NODES
      (w.reg Reg.CACHE_FREE_NODES - 1))

/-- Returns a node to the head of the free list. -/
def Work.pushNode (w : Work) (n : Nat) : CM Work := do
  let w ← w.wr (w.pool.entryAt n 0) (leBytes 4 (w.reg Reg.CACHE_NODE_HEAD))
  .ok ((w.setReg Reg.CACHE_NODE_HEAD n).setReg Reg.CACHE_FREE_NODES (w.reg Reg.CACHE_FREE_NODES + 1))

/-- A frame-table entry. -/
def Work.fte (w : Work) (f : Nat) : CM (Fte × Work) := do
  let (v, w) ← w.rd (w.pool.fteAt f) 8
  .ok (Fte.ofNat v, w)
def Work.setFte (w : Work) (f : Nat) (e : Fte) : CM Work := w.wr (w.pool.fteAt f) (leBytes 8 e.toNat)

/-- Takes a frame from the head of the free list (R221). -/
def Work.takeFrame (w : Work) : CM (Nat × Work) :=
  let h := w.reg Reg.CACHE_FREE_HEAD
  if w.pool.frames ≤ h then w.fail 0x35
  else do
    let (e, w) ← w.fte h
    let w ← w.setFte h { refcnt := 1, fstate := 1, fenced := false, next := noneNo }
    .ok (h, (w.setReg Reg.CACHE_FREE_HEAD (if w.pool.frames ≤ e.next then noneNo else e.next)).setReg
      Reg.CACHE_FREE_FRAMES (w.reg Reg.CACHE_FREE_FRAMES - 1))

/-- Fences a frame for the sequence (R220). -/
def Work.fence (w : Work) (f : Nat) : CM Work := do
  let (e, w) ← w.fte f
  let w ← w.setFte f { e with fenced := true }
  .ok { w with rel := w.rel ++ [(w.seq, f)] }

/-- Releases the sequence's reference to a frame and fences it (R220). -/
def Work.release (w : Work) (f : Nat) : CM Work := do
  let (e, w) ← w.fte f
  let retire := e.refcnt ≤ 1 && e.fstate == 1
  let w ← w.setFte f { e with refcnt := e.refcnt - 1, fenced := true, fstate := if retire then 2 else e.fstate }
  let w := if retire then w.setReg Reg.CACHE_RETIRING (w.reg Reg.CACHE_RETIRING + 1) else w
  .ok { w with rel := w.rel ++ [(w.seq, f)] }

/-- The descriptor of a sequence; that of a LIVE one names a node (R202). -/
def Work.desc (w : Work) (seq : Nat) : CM (Dsc × Work) := do
  let (v, w) ← w.rd (w.pool.descAt seq) 64
  if (Dsc.ofNat v).live ∧ w.pool.nodes ≤ (Dsc.ofNat v).dir then w.fail 0x38 else .ok (Dsc.ofNat v, w)

/-- Writes a descriptor with the postmark of the command that changes it. -/
def Work.setDesc (w : Work) (seq : Nat) (d : Dsc) (c : BitVec 512) : CM Work :=
  w.wr (w.pool.descAt seq) (Dsc.bytes { d with seqno := cmdSeqno c, sub := cmdSubmitter c })

/-- The page-table entry of a page: its frame, DRAFT and COPIED, or none (R200, R202). -/
def Work.pte (w : Work) (d : Dsc) (n : Nat) : CM (Option (Nat × Bool × Bool) × Work) := do
  let r := w.pub.walkPage w.pool d.dir n
  let w ← (w.pub.entryReads w.pool d.dir n).foldlM (fun (w : Work) a => w.noteRead a 8) w
  if r.1 = 4 then .ok (none, w)
  else if r.1 ≠ 0 then w.fail 0x38
  else
    let leaf := w.pub.memLe (w.pool.entryAt d.dir (n / 512)) 8 / 2 ^ 32
    let v := w.pub.memLe (w.pool.entryAt leaf (n % 512)) 8
    .ok (some (r.2, bitOf v 1, bitOf v 2), w)

/-- Writes or clears the page-table entry of a page, taking a leaf where there is none (Tables 8.5, 8.6). -/
def Work.setPte (w : Work) (d : Dsc) (n : Nat) (e : Option (Nat × Bool × Bool)) : CM (Dsc × Work) :=
  if w.pool.nodes ≤ d.dir then w.fail 0x38
  else do
    let da := w.pool.entryAt d.dir (n / 512)
    let (v, w) ← w.rd da 8
    let (leaf, live, w) ← (if bitOf v 0 then
        (if w.pool.nodes ≤ v / 2 ^ 32 then w.fail 0x38 else .ok (v / 2 ^ 32, bitsOf v 10 1, w))
      else do
        let (k, w) ← w.takeNode
        .ok (k, 0, w) : CM (Nat × Nat × Work))
    let la := w.pool.entryAt leaf (n % 512)
    let (old, w) ← w.rd la 8
    let was := natOfBool (bitOf old 0)
    let now := natOfBool e.isSome
    let word := match e with
      | some (f, draft, copied) => 1 + 2 * natOfBool draft + 4 * natOfBool copied + 2 ^ 32 * f
      | none => 0
    let w ← w.wr la (leBytes 8 word)
    let w ← w.wr da (leBytes 8 (1 + 2 * (live + now - was) + 2 ^ 32 * leaf))
    .ok ({ d with pages := d.pages + now - was }, { w with changed := w.changed ++ [n] })

/-! ### Trailers and rows -/

def Work.trailer (w : Work) (f plane : Nat) : CM (Trailer × Work) := do
  let (bs, w) ← w.rdBytes (w.pool.trailerAt f plane) 64
  .ok (Trailer.ofNat (leNat bs), w)
def Work.setTrailer (w : Work) (f plane : Nat) (x : Trailer) : CM Work := w.wrRow (w.pool.trailerAt f plane) x.bytes

/-- The trailers of a frame as allocation writes them (R201). -/
def Work.freshTrailers (w : Work) (f page : Nat) : CM Work :=
  (List.range w.pool.planes).foldlM (fun (w : Work) p =>
    w.setTrailer f p { plane := p, seq := w.seq, page := page }) w

/-- Copies every page of a frame (R216). -/
def Work.copyFrame (w : Work) (old new : Nat) : CM Work :=
  (List.range w.pool.planes).foldlM (fun (w : Work) p => do
    let (bs, w) ← w.rdBytes (w.pool.pageAt old p) w.pool.pageBytes
    w.wrRow (w.pool.pageAt new p) bs) w

/-- A frame may be written in place (R221). -/
def Work.inPlace (w : Work) (f : Nat) : CM (Bool × Work) := do
  let (e, w) ← w.fte f
  .ok (e.refcnt == 1 && !e.fenced && !w.pool.cow, w)

/-- How a written page got its frame. -/
inductive PageUse where
  | inPlace
  | fresh
  | copyOf (old : Nat)
deriving DecidableEq, Repr

/-- Takes a new frame for the copy of a page and releases the old one (R216). -/
def Work.copyPage (w : Work) (d : Dsc) (n old : Nat) (draft : Bool) : CM (Nat × Dsc × Work) := do
  let (f, w) ← w.takeFrame
  let (d, w) ← w.setPte d n (some (f, draft, true))
  let w ← w.release old
  .ok (f, d, w)

/-- The frame of a page to be written (R212, R221). A copied page's entry keeps the DRAFT of the old one, whatever command copies it, which
is the model's choice (R216; log 26). -/
def Work.pageFrame (w : Work) (d : Dsc) (n : Nat) (draft : Bool) : CM ((Nat × PageUse) × Dsc × Work) := do
  let (e, w) ← w.pte d n
  match e with
  | none =>
    let (f, w) ← w.takeFrame
    let (d, w) ← w.setPte d n (some (f, draft, false))
    .ok ((f, .fresh), d, w)
  | some (f, dr, _) =>
    let (ok, w) ← w.inPlace f
    if ok then .ok ((f, .inPlace), d, w)
    else
      let (g, d, w) ← w.copyPage d n f dr
      .ok ((g, .copyOf f), d, w)

/-- Encodes a row in the pool's format: element bytes, scale bytes, and whether an element saturated (R211, R214). -/
def Pool.encode (x : Pool) (scale : Word) (xs : List Word) : List Byte × List Byte × Bool :=
  match x.fmt with
  | 0 => (packCodes 16 (xs.map (fun v => bf16.round (val32 v))), [], false)
  | 1 => (packCodes 8 (xs.map (fun v => psCode (val32 v) (val32 scale))), [], xs.any (fun v => psSaturates (val32 v) (val32 scale)))
  | k =>
    let bl := (List.range (x.d / 32)).map (fun b =>
      mxBlock (if k = 2 then e4m3 else e2m1) (if k = 2 then 8 else 2) ((xs.drop (32 * b)).take 32))
    (packCodes x.bits (bl.flatMap (·.2)), bl.map (fun b => BitVec.ofNat 8 b.1), false)

/-- Writes the bytes of a row. -/
def Work.putRow (w : Work) (f plane half q : Nat) (el sc : List Byte) : CM Work := do
  let w ← w.wrRow (w.pool.rowAt f plane half q) el
  if sc.isEmpty then .ok w else w.wrRow (w.pool.rowScaleAt f plane half q) sc

/-- Marks a half of a page saturated (R214). -/
def Work.markSat (w : Work) (x : Trailer) (half : Nat) : Trailer × Work :=
  let new := if half = 0 then !x.satK else !x.satV
  (if half = 0 then { x with satK := true } else { x with satV := true },
   { w with sat := w.sat + natOfBool new, satEv := true })

/-! ### Key preparation (R211) -/

/-- What the preparation block of an APPEND asks for. -/
structure KeyPrep where
  prep : Prep := {}
  gamma : Nat := 0
  src : Nat := 0
  pos : Nat := 0
deriving DecidableEq, Repr

/-- Records read of a preparation block in memory: as many as the largest argument block holds (R260). -/
def prepRecords : Nat := 256

/-- Reads the records of an argument block in memory. -/
def Work.readArgs (fuel a : Nat) (w : Work) : CM (List (Nat × Nat) × Work) :=
  match fuel with
  | 0 => .ok ([], w)
  | n + 1 => do
    let (bs, w) ← w.rdBytes a 16
    let id := leNat (bs.take 2)
    if id = 0 then .ok ([], w)
    else
      let (r, w) ← w.readArgs n (a + 16)
      .ok ((id, leNat (bs.drop 8)) :: r, w)

/-- The preparation that the records ask for, if they are valid (R211). -/
def keyPrep (d : Nat) (l : List (Nat × Nat)) : Option KeyPrep :=
  let rot := argW l 0x20 0
  let dims := argW l 0x21 0
  let lay := argW l 0x22 0
  let norm := argW l 0x89 0
  if l.any (fun r => !knownArg r.1) || decide (1 < norm) || decide (2 < rot) || decide (1 < lay) || dims % 2 == 1 ||
      decide (d < dims) || (rot != 0 && ((argOf l 0x21).isNone || (argOf l 0x23).isNone)) then none
  else
    let p : Prep := { norm := norm == 1, eps := BitVec.ofNat 32 (argW l 0x28 0x35800000), rot := rot, rotDims := dims, halves := lay == 1 }
    some { prep := p, gamma := argA l 0x88, src := argA l 0x23, pos := argA l 0x24 }

/-- Reads `n` FP32 words. -/
def Work.words (w : Work) (a n : Nat) : CM (List Word × Work) := do
  let (bs, w) ← w.rdBytes a (4 * n)
  .ok ((unpackCodes 32 n bs).map (BitVec.ofNat 32), w)

/-- Prepares one key row: token `i` of the command at storage position `q`. -/
def Work.prepKey (w : Work) (k : KeyPrep) (gm : Option (List Word)) (i q : Nat) (x : List Word) : CM (List Word × Work) :=
  if !k.prep.norm && k.prep.rot == 0 then .ok (x, w)
  else do
    let (pos, w) ← (if k.prep.rot ≠ 0 && k.pos ≠ 0 then do
        let (bs, w) ← w.rdBytes (k.pos + 4 * i) 4
        .ok (leNat bs, w)
      else .ok (q, w) : CM (Nat × Work))
    let h := k.prep.rotDims / 2
    let base := if k.prep.rot = 1 then 2 * pos * h else 0
    let (tab, w) ← (if k.prep.rot = 0 then .ok ([], w)
      else w.words (k.src + 4 * base) (if k.prep.rot = 1 then 2 * h else h) : CM (List Word × Work))
    .ok (prepRow { k.prep with gamma := gm } pos (fun j => tab.getD (j - base) 0) x, w)

/-! ### APPEND (R210 to R216) -/

/-- One input row in BF16: its elements as FP32. -/
def Work.inputRow (w : Work) (a : Nat) : CM (List Word × Work) := do
  let (bs, w) ← w.rdBytes a (2 * w.pool.d)
  .ok ((unpackCodes 16 w.pool.d bs).map (fun c => rne32 (bf16.decode c)), w)

/-- The amax of rows, NaN winning (R57, R73). -/
def rowsAmax (rows : List (List Word)) : Word :=
  rows.foldl (fun m r => r.foldl (fun m v => fmax m (fabs32 v)) m) 0

/-- Writes one half of the rows of a page. -/
def Work.putHalf (w : Work) (f plane half : Nat) (x : Trailer) (rows : List (Nat × List Word)) : CM (Trailer × Work) :=
  rows.foldlM (fun (r : Trailer × Work) row => do
    let e := r.2.pool.encode (if half = 0 then r.1.scaleK else r.1.scaleV) row.2
    let y := if e.2.2 then r.2.markSat r.1 half else r
    let w ← y.2.putRow f plane half row.1 e.1 e.2.1
    .ok (y.1, w)) (x, w)

/-- Writes the command's rows into one plane of one page: tokens `lo` to `hi` at positions start + token. -/
def Work.appendPage (w : Work) (c : BitVec 512) (k : KeyPrep) (gm : Option (List Word)) (npl j plane f start lo hi : Nat) :
    CM (Bool × Work) := do
  let toks := (List.range (hi + 1 - lo)).map (· + lo)
  let (rows, w) ← toks.foldlM (fun (r : List (Nat × List Word × List Word × Bool) × Work) i => do
    let off := (i * npl + j) * r.2.pool.d * 2
    let (kr, w) ← r.2.inputRow (cmdBits c 0x20 47 0 + off)
    let (vr, w) ← w.inputRow (cmdBits c 0x28 47 0 + off)
    let (kx, w) ← w.prepKey k gm i (start + i) kr
    .ok (r.1 ++ [(start + i, kx, vr, (kr ++ vr).any (fun v => !isFinite32 v))], w)) (([], w) : List (Nat × List Word × List Word × Bool) × Work)
  let nonfin := rows.any (fun r => r.2.2.2)
  let (x, w) ← w.trailer f plane
  let x : Trailer :=
    if w.pool.fmt = 1 ∧ x.isOpen = false then
      let ak := rowsAmax (rows.map (·.2.1))
      let av := rowsAmax (rows.map (·.2.2.1))
      { x with isOpen := true, amaxK := ak, amaxV := av, scaleK := pageScale ak w.pool.headroom, scaleV := pageScale av w.pool.headroom }
    else x
  let (x, w) ← w.putHalf f plane 0 x (rows.map (fun r => (r.1, r.2.1)))
  let (x, w) ← w.putHalf f plane 1 x (rows.map (fun r => (r.1, r.2.2.1)))
  let w ← w.setTrailer f plane { x with nonfin := x.nonfin || nonfin }
  .ok (nonfin, w)

/-- The pages from `lo` to `hi`. -/
def pageRange (lo hi : Nat) : List Nat := (List.range (hi + 1 - lo)).map (· + lo)

/-- Fills the new frames of pages: copies first, then fresh trailers (R201, R216). -/
def Work.fillFrames (w : Work) (l : List (Nat × Nat × PageUse)) : CM Work := do
  let w ← l.foldlM (fun (w : Work) e => match e.2.2 with
    | .copyOf old => w.copyFrame old e.2.1
    | _ => .ok w) w
  l.foldlM (fun (w : Work) e => match e.2.2 with
    | .fresh => w.freshTrailers e.2.1 e.1
    | _ => .ok w) w

/-- APPEND up to its publication. -/
def Work.append (w : Work) (c : BitVec 512) : CM Work := do
  let (d0, w) ← w.desc w.seq
  let n := cmdBits c 0x1C 29 13
  let npl := cmdBits c 0x1C 12 0
  let plane0 := cmdBits c 0x18 27 16
  let advance := bitOf c.toNat (8 * 0x18 + 28)
  let draft := bitOf c.toNat (8 * 0x18 + 29)
  if n = 0 ∨ 65536 < n ∨ npl = 0 ∨ 4096 < npl ∨ w.pool.planes < plane0 + npl then w.fail 0x11
  else
    let prep := cmdBits c 0x30 47 0
    let (args, w) ← (if prep = 0 then .ok ([], w) else w.readArgs prepRecords prep : CM (List (Nat × Nat) × Work))
    match keyPrep w.pool.d args with
    | none => w.fail 0x11
    | some k =>
      let len := if d0.live then d0.len else 0
      let dlen := if d0.live then d0.dlen else 0
      let start := len + (if draft then dlen else 0)
      let last := start + n - 1
      if 2097152 ≤ last then w.fail 0x32
      else if !draft ∧ dlen ≠ 0 then w.fail 0x33
      else if draft ∧ len + 16 ≤ last then w.fail 0x34
      else
        let (d, w) ← (if d0.live then .ok (d0, w) else do
          let (dir, w) ← w.takeNode
          .ok ({ live := true, pool := w.pool.p, dir := dir, tag := cmdBits c 0x38 31 0 },
            w.setReg Reg.CACHE_LIVE_SEQS (w.reg Reg.CACHE_LIVE_SEQS + 1)) : CM (Dsc × Work))
        let (frames, d, w) ← (pageRange (start / 16) (last / 16)).foldlM
          (fun (r : List (Nat × Nat × PageUse) × Dsc × Work) pg => do
            let (f, d, w) ← r.2.2.pageFrame r.2.1 pg draft
            .ok (r.1 ++ [(pg, f.1, f.2)], d, w)) (([], d, w) : List (Nat × Nat × PageUse) × Dsc × Work)
        let w ← (w.rewrites plane0 npl start n).fillFrames frames
        let (nonfin, w) ← (List.range npl).foldlM (fun (r : Bool × Work) j => do
          let plane := plane0 + j
          let (gm, w) ← (if k.prep.norm ∧ k.gamma ≠ 0 then do
              let (g, w) ← r.2.words (k.gamma + 4 * r.2.pool.d * plane) r.2.pool.d
              .ok (some g, w)
            else .ok (none, r.2) : CM (Option (List Word) × Work))
          frames.foldlM (fun (r : Bool × Work) e => do
            let lo := max start (16 * e.1) - start
            let hi := min last (16 * e.1 + 15) - start
            let (b, w) ← r.2.appendPage c k gm npl j plane e.2.1 start lo hi
            .ok (r.1 || b, w)) (r.1, w)) (false, w)
        let grow := if advance then n else 0
        w.setDesc w.seq { d with
          nonfin := d.nonfin || nonfin
          sat := d.sat || w.satEv
          wtop := max d.wtop (last + 1)
          len := if draft then d.len else d.len + grow
          dlen := if draft then d.dlen + grow else d.dlen } c

/-! ### FORK (R215) -/

/-- One more entry names a frame (R215). -/
def Work.share (w : Work) (f : Nat) : CM Work := do
  let (e, w) ← w.fte f
  if 65535 ≤ e.refcnt then w.fail 0x37 else w.setFte f { e with refcnt := e.refcnt + 1 }

/-- FORK up to its publication; `w.seq` is DST. SAT and NONFIN of DST begin at 0, whatever the shared pages hold, which is the model's choice
(R215; log 26). -/
def Work.fork (w : Work) (c : BitVec 512) (src : Nat) : CM Work := do
  let (ds, w) ← w.desc src
  let (dd, w) ← w.desc w.seq
  let prefix_ := cmdBits c 0x1C 21 0
  if !ds.live ∨ dd.live then w.fail 0x31
  else if ds.len < prefix_ then w.fail 0x11
  else
    let n := (prefix_ + 15) / 16
    let (ents, w) ← (List.range n).foldlM (fun (r : List (Nat × Nat) × Work) i => do
      let (e, w) ← r.2.pte ds i
      match e with
      | some (f, _) => .ok (r.1 ++ [(i, f)], w)
      | none => .ok (r.1, w)) (([], w) : List (Nat × Nat) × Work)
    let (dir, w) ← w.takeNode
    let nd : Dsc := { live := true, pool := w.pool.p, len := prefix_, wtop := prefix_, dir := dir, origin := src, forked := true, originLen := prefix_, tag := cmdBits c 0x20 31 0 }
    let (nd, w) ← ents.foldlM (fun (r : Dsc × Work) e => r.2.setPte r.1 e.1 (some (e.2, false, false))) (nd, w)
    let w ← ents.foldlM (fun (w : Work) e => w.share e.2) w
    let w ← w.setDesc w.seq nd c
    .ok (w.setReg Reg.CACHE_LIVE_SEQS (w.reg Reg.CACHE_LIVE_SEQS + 1))

/-! ### COMMIT (R217, R218) and FREE (R219) -/

/-- Moves one row of one plane and half (R217). -/
def Work.moveHalf (w : Work) (fs ft plane half s t : Nat) (xs xt : Trailer) (same : Bool) : CM (Trailer × Work) := do
  let (el, w) ← w.rdBytes (w.pool.rowAt fs plane half s) w.pool.rowBytes
  let (sc, w) ← w.rdBytes (w.pool.rowScaleAt fs plane half s) w.pool.rowScales
  if w.pool.fmt = 1 ∧ same = false then
    let a := val32 (if half = 0 then xs.scaleK else xs.scaleV)
    let b := val32 (if half = 0 then xt.scaleK else xt.scaleV)
    let vs := (unpackCodes 8 w.pool.d el).map (fun k => (e4m3.decode k).mul a)
    let y := if vs.any (fun v => psSaturates v b) then w.markSat xt half else (xt, w)
    let w ← y.2.putRow ft plane half t (packCodes 8 (vs.map (fun v => psCode v b))) []
    .ok (y.1, w)
  else
    let w ← w.putRow ft plane half t el sc
    .ok (xt, w)

/-- Moves the row at position `s` to position `t` in every plane. -/
def Work.move (w : Work) (d : Dsc) (s t : Nat) : CM Work := do
  let (es, w) ← w.pte d (s / 16)
  let (et, w) ← w.pte d (t / 16)
  match es, et with
  | some (fs, _), some (ft, _) =>
    (List.range w.pool.planes).foldlM (fun (w : Work) p => do
      let same := s / 16 == t / 16
      let (xs, w) ← w.trailer fs p
      let (xt, w) ← w.trailer ft p
      let (xt, w) ← w.moveHalf fs ft p 0 s t xs xt same
      let (xt, w) ← w.moveHalf fs ft p 1 s t xs xt same
      if same then .ok w else w.setTrailer ft p xt) w
  | _, _ => .ok w

/-- Fences the frame that holds position `len`, unless it begins a page (R218, R219). -/
def Work.fenceTail (w : Work) (d : Dsc) (len : Nat) : CM Work :=
  if len % 16 = 0 then .ok w
  else do
    let (e, w) ← w.pte d (len / 16)
    match e with
    | some (f, _) => w.fence f
    | none => .ok w

/-- Releases one page, if it has a frame. -/
def Work.dropPage (r : Dsc × Work) (n : Nat) : CM (Dsc × Work) := do
  let (e, w) ← r.2.pte r.1 n
  match e with
  | some (f, _) =>
    let (d, w) ← w.setPte r.1 n none
    let w ← w.release f
    .ok (d, w)
  | none => .ok (r.1, w)

/-- COMMIT up to its publication. -/
def Work.commit (w : Work) (c : BitVec 512) : CM Work := do
  let (d, w) ← w.desc w.seq
  let nacc := cmdBits c 0x18 20 16
  let en := bitOf c.toNat (8 * 0x18 + 21)
  let path := (List.range nacc).map (fun i => if en then cmdBits c (0x20 + i) 7 0 else i)
  if !d.live then w.fail 0x31
  else if 16 < nacc ∨ d.dlen < nacc ∨ path.any (fun x => decide (d.dlen ≤ x)) ∨
      !((List.range (nacc - 1)).all (fun i => decide (path.getD i 0 < path.getD (i + 1) 0))) then w.fail 0x11
  else
    let moves := ((List.range nacc).zip path).filter (fun m => m.1 != m.2)
    let dests := (moves.map (fun m => (d.len + m.1) / 16)).eraseDups
    let (frames, d, w) ← dests.foldlM (fun (r : List (Nat × Nat × PageUse) × Dsc × Work) pg => do
      let (e, w) ← r.2.2.pte r.2.1 pg
      match e with
      | none => .ok (r.1, r.2.1, w)
      | some (f, dr, _) =>
        let (ok, w) ← w.inPlace f
        if ok then .ok (r.1, r.2.1, w)
        else
          let (g, d, w) ← w.copyPage r.2.1 pg f dr
          .ok (r.1 ++ [(pg, g, .copyOf f)], d, w)) (([], d, w) : List (Nat × Nat × PageUse) × Dsc × Work)
    let w := moves.foldl (fun (w : Work) m => w.rewrites 0 w.pool.planes (d.len + m.1) 1) (w.endsDrafts d.len 16)
    let w ← w.fillFrames frames
    let w ← moves.foldlM (fun (w : Work) m => w.move d (d.len + m.2) (d.len + m.1)) w
    let len := d.len + nacc
    let old := d.wtop
    let d := { d with len := len, dlen := 0, wtop := len, sat := d.sat || w.satEv }
    let (d, w) ← ((List.range ((old + 15) / 16)).filter (fun n => decide ((len + 15) / 16 ≤ n))).foldlM Work.dropPage (d, w)
    let w ← w.fenceTail d len
    w.setDesc w.seq d c

/-- Releases the pages of one leaf from page `first` upward, and returns the leaf where that leaves it empty. -/
def Work.dropLeaf (first : Nat) (r : Dsc × Work) (i : Nat) : CM (Dsc × Work) := do
  let da := r.2.pool.entryAt r.1.dir i
  let (v, w) ← r.2.rd da 8
  if !bitOf v 0 then .ok (r.1, w)
  else if w.pool.nodes ≤ v / 2 ^ 32 then w.fail 0x38
  else
    let leaf := v / 2 ^ 32
    let before := r.1.pages
    let (d, w) ← ((List.range 512).map (· + 512 * i)).foldlM (fun (r : Dsc × Work) n =>
      if n < first then .ok r else Work.dropPage r n) (r.1, w)
    let (v', w) ← w.rd da 8
    if bitsOf v' 10 1 = 0 ∧ (d.pages < before ∨ first = 0) then
      let w ← w.wr da (leBytes 8 0)
      let w ← w.pushNode leaf
      .ok (d, w)
    else .ok (d, w)

/-- FREE up to its publication. -/
def Work.free (w : Work) (c : BitVec 512) : CM Work := do
  let (d, w) ← w.desc w.seq
  let from_ := cmdBits c 0x1C 21 0
  if !d.live then .ok w
  else if d.len < from_ then w.fail 0x11
  else
    let first := (from_ + 15) / 16
    let w := w.endsDrafts from_ (d.wtop - from_)
    let (d, w) ← ((List.range 256).filter (fun i => decide (first / 512 ≤ i))).foldlM (Work.dropLeaf first) (d, w)
    if from_ = 0 then
      let w ← w.pushNode d.dir
      let w ← w.setDesc w.seq { d with live := false } c
      .ok (w.setReg Reg.CACHE_LIVE_SEQS (w.reg Reg.CACHE_LIVE_SEQS - 1))
    else
      let w ← w.fenceTail d from_
      w.setDesc w.seq { d with len := from_, dlen := 0, wtop := from_ } c

/-! ### Publication (R207, R220) -/

/-- The tasks that read a sequence and have not ended (R220). -/
def State.readersOf (s : State) (p seq : Nat) : List Nat :=
  s.disp.tasks.filterMap (fun e => match e.2 with
    | some t => if t.snaps.any (fun x => x.pool == p && x.seq == seq) then some e.1 else none
    | none => none)

/-- Publishes a command: its structure writes, counts, fences, invalidations and events. -/
def Work.publish (w : Work) : State :=
  let s := w.pub
  let p := w.pool.p
  let before := w.data.reg Reg.CACHE_FREE_FRAMES p
  let waits := s.readersOf p w.seq
  let old := s.cache.fences
  let new : List Fence := (w.rel.map (fun r => { pool := p, frame := r.2, seq := r.1, waits := waits })).eraseDups
  let s := ({ s with cache := { s.cache with fences := old ++ new } }).passFences
  let s := (s.bump Reg.CACHE_SAT_CNT p w.sat).invalidate w.pool.t w.seq w.changed
  let s := if w.satEv then s.raise pgCACHE evSaturated (some w.pool.t) else s
  s.lowFrames p before

/-- Records a cache command that failed (Table 8.10); the record is held until cleared. -/
def State.cacheErr (s : State) (p : Option Nat) (t seq q status : Nat) : State :=
  let s := match p with
    | some p =>
      if s.flag Reg.CACHE_ERR_VALID p then s
      else (((s.setReg Reg.CACHE_ERR_SEQ p seq).setReg Reg.CACHE_ERR_STATUS p status).setReg Reg.CACHE_ERR_QUEUE p q).setReg
        Reg.CACHE_ERR_VALID p 1
    | none => s
  s.raise pgCACHE evCmdErr (some t)

/-- One failed attempt of a cache command (R209, R368): the error's record and a fault record of class MEMORY, under the
receipt-log entry that the command holds; an attempt before the fourth is followed by a replay. -/
def State.cacheFault (s : State) (t rid addr : Nat) (c : BitVec 512) (isWrite : Bool) (e : PortError) (attempt : Nat) : State :=
  let s := (s.unitError t addr (natOfBool isWrite) e).logFault
    { cls := 7, ten := t, arr := 0, action := if attempt < 4 then 0 else 2, attempt := attempt, moved := false, receipt := rid
      routine := 0, seqno := cmdSeqno c, submitter := cmdSubmitter c, detail := addr % 2 ^ 48 + errCode e * 2 ^ 48, beat := 0
      time := s.now % 2 ^ 32 }
  if attempt < 4 then (s.bump Reg.FAULT_REPLAY_CNT).raise pgFAULT 0 (some t) else s

/-- Status codes used here (Table 11.5). -/
def stOK : Nat := 0x00
def stBadArgs : Nat := 0x11
def stPoolOff : Nat := 0x30
def stBadSeq : Nat := 0x31
def stWindowFault : Nat := 0x38
def stFaulted : Nat := 0x40

/-- The pool whose record a failed command uses: the enabled one, else one of the tenancy that holds the sequence. -/
def State.poolFor (s : State) (t seq : Nat) : Option Nat :=
  match s.poolOf t seq with
  | .ok p => some p
  | .error _ => (List.range 16).find? (fun p => s.reg Reg.CACHE_OWNER p == t && (s.pool p).holds seq)

/-- The structure read whose error ends a command. -/
def readEnds (ans : CacheAnswer) : Option Nat :=
  match ans with
  | .structError e => some e.k
  | _ => none
/-- The row or trailer transaction whose error ends the last attempt of a command. -/
def rowEnds (ans : CacheAnswer) : Option Nat :=
  match ans with
  | .rowError e times => if times = 3 then some e.k else none
  | _ => none

/-- Runs the body of a command on a sequence of a pool, up to the transaction whose error ends it. -/
def State.cacheBody (s : State) (p : Nat) (c : BitVec 512) (ans : CacheAnswer) : CM Work :=
  let kind := cmdKind c
  let seq := if kind = 3 then cmdBits c 0x18 31 16 else cmdBits c 0x18 15 0
  let w : Work := { data := s, pub := s, pool := s.pool p, seq := seq, badRead := readEnds ans, badRow := rowEnds ans }
  match kind with
  | 2 => w.append c
  | 3 => w.fork c (cmdBits c 0x18 15 0)
  | 4 => w.commit c
  | _ => w.free c

/-- A FORK names two sequences of one pool (Table 8.10). -/
def State.forkBad (s : State) (t p : Nat) (c : BitVec 512) : Bool :=
  let src := cmdBits c 0x18 15 0
  let dst := cmdBits c 0x18 31 16
  cmdKind c == 3 && (src == dst || (match s.poolOf t dst with | .ok q => q != p | .error _ => true))

/-- Free bytes in a range of memory, after an error to a write there (R10, R335). -/
def State.spoilBytes (s : State) (a n : Nat) : State :=
  ({ s with mem := s.mem.putBytes a ((List.range n).map (fun i => Config.freeByte (s.freeCtr + i))) }).drew n

/-- How a command ends whose body has run, or has stopped with a status, and which was attempted again `n` times. -/
def Work.outcome (w : Work) (bad : State → Nat → Nat → Nat × Nat × State) (stop : Option Nat) (n : Nat) : Nat × Nat × State :=
  match stop with
  | none => (stOK, n, w.publish)
  | some st => bad w.data n st

/-- A row or trailer transaction of a command fails its first `n` attempts. -/
def State.cacheFaults (s : State) (t rid a : Nat) (c : BitVec 512) (wr : Bool) (e : PortError) (n : Nat) : State :=
  (List.range n).foldl (fun (s : State) k => s.cacheFault t rid a c wr e (k + 1)) s

/-- What an error among the transactions that a command has made makes of it (R209): a structure read ends it WINDOW_FAULT; a row or
trailer transaction fails `times + 1` attempts, the fourth of which ends it FAULTED; a write of the publication leaves the structure
unspecified. `stop` is the status with which its body has ended it, if it has. -/
def Work.answer (w : Work) (p t q rid : Nat) (c : BitVec 512) (stop : Option Nat) (ans : CacheAnswer) : Nat × Nat × State :=
  let bad := fun (s : State) (n st : Nat) => (st, n, s.cacheErr (some p) t (cmdBits c 0x18 15 0) q st)
  match ans with
  | .ok => w.outcome bad stop 0
  | .structError e => match w.reads[e.k]? with
    | none => w.outcome bad stop 0
    | some a => bad (w.data.unitError t a 0 e) 0 stWindowFault
  | .rowError e times => match w.rows[e.k]? with
    | none => w.outcome bad stop 0
    | some (a, n, wr) =>
      let go := fun (s : State) => s.cacheFaults t rid a c wr e (times.toNat + 1)
      if times = 3 then bad (if wr then (go w.data).spoilBytes a n else go w.data) 3 stFaulted
      else ({ w with data := go w.data, pub := go w.pub } : Work).outcome bad stop (times.toNat + 1)
  | .pubError e => match w.writes[e.k]?, stop with
    | some (a, n), none => bad ((w.publish.unitError t a 1 e).spoilBytes a n) 0 stFaulted
    | _, _ => w.outcome bad stop 0

/-- A cache command of tenancy `t` from queue `q` under the receipt-log entry `rid`: its status, its count of replays and the
state it leaves (R207, R209). -/
def State.cacheCommand (s : State) (t q rid : Nat) (c : BitVec 512) (ans : CacheAnswer) : Nat × Nat × State :=
  let seq := cmdBits c 0x18 15 0
  let bad := fun (s : State) (st : Nat) => (st, 0, s.cacheErr (s.poolFor t seq) t seq q st)
  if !s.domOn domKVC then (stPoolOff, 0, s)
  else match s.poolOf t seq with
    | .error st => bad s st
    | .ok p =>
      if s.forkBad t p c then bad s stBadSeq
      else match s.cacheBody p c ans with
        | .error (st, w) => w.answer p t q rid c (some st) ans
        | .ok w => w.answer p t q rid c none ans

/-! ### Initialisation (R203) -/

/-- The writes of INIT: every frame free and linked upward, every descriptor zero, every node linked upward; those outside the
owner's windows are not issued (R199). -/
def State.initStructures (s : State) (p : Nat) : State :=
  let x := s.pool p
  let link := fun (n i : Nat) => if i + 1 < n then i + 1 else noneNo
  let s := s.unitWrite x.t x.ft ((List.range x.frames).flatMap (fun f =>
    leBytes 8 (Fte.toNat { refcnt := 0, fstate := 0, fenced := false, next := link x.frames f })))
  let s := s.unitWrite x.t x.desc (List.replicate (64 * (x.stop - x.first)) 0)
  let s := (List.range x.nodes).foldl (fun (s : State) n => s.unitWrite x.t (x.entryAt n 0) (leBytes 4 (link x.nodes n))) s
  let s := (s.setReg Reg.CACHE_FREE_HEAD p (if x.frames = 0 then noneNo else 0)).setReg Reg.CACHE_NODE_HEAD p (if x.nodes = 0 then noneNo else 0)
  let s := (s.setReg Reg.CACHE_FREE_FRAMES p x.frames).setReg Reg.CACHE_FREE_NODES p x.nodes
  let s := (s.setReg Reg.CACHE_RETIRING p 0).setReg Reg.CACHE_LIVE_SEQS p 0
  { s with cache := { s.cache with fences := s.cache.fences.filter (fun f => f.pool != p) } }

/-- INIT ends (R203). -/
def State.initDone (s : State) (p : Nat) : State :=
  if s.flag Reg.CACHE_INIT_BUSY p then
    ((s.initStructures p).setReg Reg.CACHE_INIT_BUSY p 0).raise pgCACHE evInitDone (some (s.reg Reg.CACHE_OWNER p))
  else s

/-- A write sets a pool's EN: refused where its range overlaps that of another enabled pool (R204). -/
def State.poolEnable (s : State) (p : Nat) : State :=
  let x := s.pool p
  let clash := (List.range 16).any (fun q => q != p && s.flag Reg.CACHE_EN q &&
    decide (x.first < (s.pool q).stop) && decide ((s.pool q).first < x.stop))
  if clash then (s.setReg Reg.CACHE_CFG_OVERLAP p 1).raise pgCACHE evPoolOverlap (some x.t)
  else (s.setReg Reg.CACHE_EN p 1).setReg Reg.CACHE_CFG_OVERLAP p 0

end Sys2Proof.Machine
end

