-- ==== Sys2Proof/Machine/Dispatcher.lean ====
section
/-! DEFINITION. The dispatcher: acceptance, completion, dispatch, the start, sealing, replay and moving of tasks
(spec/11_queues_and_sync.md R267 to R279, R437; spec/15_faults_and_replay.md R357 to R368; spec/13_memory_port.md R330). -/
namespace Sys2Proof.Machine

/-! ### Status codes (Table 11.5) -/

def stCacheShort : Nat := 0x01
def stAlreadyDone : Nat := 0x02
def stInFlight : Nat := 0x03
def stBadKind : Nat := 0x10
def stBadSubmitter : Nat := 0x12
def stStale : Nat := 0x13
def stWindowFull : Nat := 0x14
def stBadLbx : Nat := 0x15
def stBadRoutine : Nat := 0x20
def stRoutineTaken : Nat := 0x21
def stBadImage : Nat := 0x22
def stBadProfile : Nat := 0x23
def stImageFault : Nat := 0x24
def stNoSpace : Nat := 0x25
def stNoRate : Nat := 0x26
def stNoArrays : Nat := 0x41
def stParcelFault : Nat := 0x42

/-- The order in which the statuses of the tasks of one command are preferred (R437). -/
def statusRank (st : Nat) : Nat :=
  if st = stFaulted then 6
  else if st = stWindowFault then 5
  else if st = stBadArgs then 4
  else if st = stBadSeq then 3
  else if st = stCacheShort then 2
  else if st = stOK then 0 else 1

/-- The status of a command two of whose tasks ended with these (R437). -/
def joinStatus (a b : Nat) : Nat := if statusRank a < statusRank b then b else a

/-! ### Completion (R274, R348) -/

/-- A stamp taken now: the count and whether the time base was not valid (R348). -/
def State.stamp (s : State) : Nat × Bool := (s.now, !s.tb.valid)

/-- What a completion reports. -/
structure Report where
  queue : Nat
  agent : Nat
  bytes : BitVec 512
  status : Nat
  orig : Nat := 0
  replays : Nat := 0
  info : Nat := 0
  start : Nat := 0
  startBad : Bool := false
  beats : Nat := 0
deriving DecidableEq, Repr

/-- The bytes of the completion record (Table 11.4). -/
def Report.record (r : Report) : List Byte :=
  leBytes 6 (cmdSeqno r.bytes) ++ leBytes 2 (cmdSubmitter r.bytes) ++
  leBytes 4 (r.status + 2 ^ 8 * r.orig + 2 ^ 16 * r.queue + 2 ^ 22 * min r.replays 63) ++ leBytes 4 (min r.info 0xFFFFFFFF)

/-- The words of a byte string. -/
def wordsOf (bs : List Byte) : List Word :=
  (List.range (bs.length / 4)).map (fun i => BitVec.ofNat 32 (leNat ((bs.drop (4 * i)).take 4)))

/-- Writes the completion record; an address outside the windows gets none (log 20). -/
def State.writeRecord (s : State) (r : Report) : State :=
  let a := cmdCplAddr r.bytes
  let t := tenOfQueue r.queue
  if a ≠ 0 ∧ s.spanInWindow t a 16 then s.postWrite t a r.record else s

/-- Sends the completion message, where the command asks for one and its sender may still have it (R410). -/
def State.sendCompletion (s : State) (r : Report) : State :=
  if cmdEvent r.bytes then
    if s.mapped r.agent && (r.agent == 0 || s.tenOfAgent r.agent == some (tenOfQueue r.queue)) then
      s.sendMsg r.agent { kind := 1, fid := 0, payload := wordsOf r.record }
    else s.dropMsg
  else s

/-- Address of the next entry of a tenancy's stamp ring. -/
def State.stampAddr (s : State) (t : Nat) : Nat :=
  s.reg Reg.STAMP_ST_BASE_LO t * 2 ^ 5 + s.reg Reg.STAMP_ST_BASE_HI t * 2 ^ 32 + 32 * s.reg Reg.STAMP_ST_NEXT t

/-- Writes the phase stamps of a command with STAMP set (R348, Table 14.3). -/
def State.writeStamp (s : State) (r : Report) : State :=
  if cmdStamp r.bytes then
    let t := tenOfQueue r.queue
    let n := s.reg Reg.STAMP_ST_COUNT t
    let a := s.stampAddr t
    let f := s.stamp
    if n = 0 ∨ !s.spanInWindow t a 32 then (s.bump Reg.STAMP_ST_LOST t).raise pgSTAMP 1 (some t)
    else
      let rec_ := leBytes 6 (cmdSeqno r.bytes) ++ leBytes 2 (cmdSubmitter r.bytes) ++ leBytes 8 r.start ++ leBytes 8 f.1 ++
        leBytes 4 (min r.beats 0xFFFFFFFF) ++ leBytes 4 (r.queue + 2 ^ 6 * natOfBool (r.startBad || f.2) + 2 ^ 8 * r.status)
      (s.postWrite t a rec_).setReg Reg.STAMP_ST_NEXT t ((s.reg Reg.STAMP_ST_NEXT t + 1) % n)
  else s

/-- Posts the completion letterbox; one outside the tenancy's range gets nothing. -/
def State.postCompletion (s : State) (r : Report) : State :=
  let t := tenOfQueue r.queue
  if cmdAdd r.bytes ≠ 0 ∧ s.lbxIn t (cmdLbx r.bytes) then s.postAndLand t (cmdLbx r.bytes) (cmdAdd r.bytes) else s

/-- A completion in the order of R274: record, message, stamps, post. -/
def State.report (s : State) (r : Report) : State :=
  (((s.writeRecord r).sendCompletion r).writeStamp r).postCompletion r

/-- A record with status IN_FLIGHT is written and sent, and never posts. -/
def State.reportInFlight (s : State) (r : Report) : State := (s.writeRecord r).sendCompletion r

/-- The enabled submitter record with an ID (R271). -/
def State.submitterRec (s : State) (id : Nat) : Option Nat :=
  (List.range 256).find? (fun i => s.flag Reg.DSP_SUB_EN i && s.reg Reg.DSP_SUB_ID i == id)

/-- Marks a sequence number that a submitter record holds in flight DONE with its status (R273). -/
def State.windowDone (s : State) (i seqno status : Nat) : State :=
  let r := s.subRec i
  if r.window.any (fun e => e.seqno == seqno && !e.done) then
    s.setSubRec i { r with
      hc := max r.hc seqno
      window := r.window.map (fun e => if e.seqno == seqno then { e with done := true, status := status } else e) }
  else s

/-- Free bytes in a range of the tenancy's memory or shared store (R10, R353, R363). -/
def State.spoil (s : State) (t a n : Nat) : State :=
  let m := (List.range n).foldl (fun (m : Memory) i =>
    if s.inWindow t (a + i) then m.put (a + i) (Config.freeByte (s.freeCtr + i)) else m) s.mem
  ({ s with mem := m }).drew n
/-- The same in the shared store. -/
def State.spoilShared (s : State) (t a n : Nat) : State :=
  let m := (List.range n).foldl (fun (m : Memory) i =>
    let b := (a + i) % 2 ^ 28
    if s.inShared t b then m.put b (Config.freeByte (s.freeCtr + i)) else m) s.shared
  ({ s with shared := m }).drew n

/-- Every output of a FAULTED command holds unspecified values (R363, R10). -/
def State.spoilOuts (s : State) (c : Cmd) : State :=
  let t := tenOfQueue c.queue
  c.outs.foldl (fun (s : State) o => if o.1 then s.spoilShared t o.2.1 o.2.2 else s.spoil t o.2.1 o.2.2) s

/-- An accepted command ends with a status (R273). -/
def State.completeCmd (s : State) (cid status : Nat) : State :=
  match s.cmd cid with
  | none => s
  | some c =>
    let s := s.onDisp fun d => { d with cmds := d.cmds.filter (fun x => x.cid != cid) }
    let s := if status = stFaulted ∨ c.faulted ∧ status = stWindowFault then s.spoilOuts c else s
    (s.windowDone c.sub (cmdSeqno c.bytes) status).report
      { queue := c.queue, agent := c.agent, bytes := c.bytes, status := status, replays := c.replays, info := c.info
        start := c.start, startBad := c.startBad, beats := c.beats }

/-! ### Acceptance (R272, R276) -/

/-- Receipt-log entries of a tenancy in use. -/
def State.receiptUse (s : State) (t : Nat) : Nat :=
  (s.disp.tasks.filter (fun e => match e.2 with | some x => x.ten == t | none => false)).length

/-- A COLLECT, SAVE or RESTORE of the tenancy is pending (R286). -/
def State.dispHold (s : State) (t : Nat) : Bool :=
  s.disp.cmds.any (fun c => tenOfQueue c.queue == t && (cmdKind c.bytes == 0x0A || cmdKind c.bytes == 0x0B || cmdKind c.bytes == 0x0C))

/-- A queue is held (R276). -/
def State.queueHeld (s : State) (q : Nat) : Bool :=
  (match (s.queue q).entries with
   | (b, _) :: _ => cmdBarrier b && s.disp.cmds.any (fun c => c.queue == q)
   | [] => false) ||
  s.dispHold (tenOfQueue q) || decide (Config.receiptShare ≤ s.receiptUse (tenOfQueue q)) ||
  s.resets.ten == some (tenOfQueue q)

/-- The queue the round-robin reaches next (R276). -/
def State.nextQueue (s : State) : Option Nat :=
  ((List.range 64).map (fun i => (s.disp.rr + i) % 64)).find? (fun q => !(s.queue q).entries.isEmpty && !s.queueHeld q)

/-- The window of a submitter with one entry more: where it is full, the DONE entry of the lowest number leaves (R272). -/
def SubRec.insert (r : SubRec) (seqno : Nat) : SubRec :=
  let new : WinEntry := { seqno := seqno, done := false, status := 0 }
  if r.window.length < 64 then { r with window := r.window ++ [new] }
  else
    match (r.window.filter (·.done)).map (·.seqno) with
    | [] => r
    | x :: l =>
      let low := l.foldl min x
      { r with floor := max r.floor low, window := r.window.filter (fun e => e.seqno != low) ++ [new] }

/-- Accepts the command at the head of queue `q` (R272). `reading` is the snapshot a METER_READ takes (R347). -/
def State.acceptHead (s : State) (q : Nat) (reading : State → BitVec 512 → List Byte × State) : State :=
  match (s.queue q).entries with
  | [] => s
  | (b, agent) :: rest =>
    let t := tenOfQueue q
    let seqno := cmdSeqno b
    let s := ((s.setQueue q { entries := rest }).onDisp fun d => { d with rr := (q + 1) % 64 }).chargeCommand t
    let st := s.stamp
    let rep := fun (status orig : Nat) =>
      ({ queue := q, agent := agent, bytes := b, status := status, orig := orig, start := st.1, startBad := st.2 } : Report)
    match s.submitterRec (cmdSubmitter b) with
    | none => (s.raise pgDSP 2 (some t)).report (rep stBadSubmitter 0)
    | some i =>
      if s.reg Reg.DSP_SUB_TEN i ≠ t then (s.raise pgDSP 2 (some t)).report (rep stBadSubmitter 0)
      else
        let r := s.subRec i
        match r.window.find? (fun e => e.seqno == seqno) with
        | some e => if e.done then s.report (rep stAlreadyDone e.status) else s.reportInFlight (rep stInFlight 0)
        | none =>
          if seqno ≤ r.floor then (s.raise pgDSP 0 (some t)).report (rep stStale 0)
          else if 64 ≤ (r.window.filter (fun e => !e.done)).length then (s.raise pgDSP 1 (some t)).report (rep stWindowFull 0)
          else
            let s := (s.setSubRec i (r.insert seqno)).bump Reg.SUBQ_ACCEPTED q
            let end_ := fun (s : State) (status : Nat) => (s.windowDone i seqno status).report (rep status 0)
            if 0x0D < cmdKind b then end_ s stBadKind
            else if cmdAdd b ≠ 0 ∧ !s.lbxIn t (cmdLbx b) then end_ s stBadLbx
            else
              let m := if cmdKind b = 0x0D then reading s b else ([], s)
              let c : Cmd :=
                { cid := m.2.disp.nextCid, queue := q, agent := agent, bytes := b, start := st.1, startBad := st.2, reading := m.1, sub := i }
              m.2.onDisp fun d => { d with cmds := d.cmds ++ [c], nextCid := d.nextCid + 1 }

/-- The dispatcher runs: DSP is ON and no BLOCK reset is in progress (R407). -/
def State.dispatching (s : State) : Bool := s.domOn domDSP && !s.resets.block

/-- The command of queue `q` whose turn it is: the oldest waiting one, if it has this kind. -/
def State.turnOf (s : State) (q kind : Nat) : Option Cmd :=
  if !s.dispatching || s.resets.ten == some (tenOfQueue q) then none
  else match s.disp.cmds.find? (fun c => c.queue == q && c.phase == .waiting) with
    | some c => if cmdKind c.bytes = kind then some c else none
    | none => none

/-! ### The ends of tasks -/

/-- The tasks of a command that hold receipt-log entries. -/
def State.tasksOf (s : State) (cid : Nat) : List (Nat × Task) :=
  s.disp.tasks.filterMap (fun e => match e.2 with
    | some t => if t.cid == cid then some (e.1, t) else none
    | none => none)

/-- A command completes when no task of it remains and its contributions are accepted (R23, R190). -/
def State.settleCmd (s : State) (cid : Nat) : State :=
  match s.cmd cid with
  | none => s
  | some c =>
    if c.phase == .running && c.plans.isEmpty && (s.tasksOf cid).isEmpty && !s.mport.staged.any (fun x => x.cid == cid) &&
        (!c.ordered || decide (c.tasks ≤ c.cursor)) then
      s.completeCmd cid c.status
    else s

/-- The replaced translations that a live task can still run (R258). -/
def Routine.liveOld (x : Routine) (live : List Nat) : List OldCode :=
  let next := (x.old.drop 1).map (·.version) ++ [x.version]
  ((x.old.zip next).filter (fun p => live.any (fun v => decide (p.1.version ≤ v) && decide (v < p.2)))).map (·.1)

/-- Frees the replaced translations that no task runs any more (R258). -/
def State.purgeOld (s : State) (t : Nat) : State :=
  let live := s.disp.tasks.filterMap (fun e => match e.2 with
    | some x => if x.ten == t then some x.version else none
    | none => none)
  s.onDisp fun d => { d with lib := d.lib.map (fun e => if e.2.owner == t then (e.1, { e.2 with old := e.2.liveOld live }) else e) }

/-- Frees a receipt-log entry: the task has ended for good. -/
def State.freeReceipt (s : State) (rid : Nat) : State :=
  match s.task rid with
  | none => s
  | some t => ((s.setTask rid none).fenceTaskEnd rid).purgeOld t.ten

/-- An array without a task: nothing of it is left but its store and its counters (R252). -/
def ArrayState.idle (A : ArrayState) : ArrayState :=
  { A with
    missed := [], task := none, seq := {}, acc := {}, mv := {}, flight := [], stalled := [], frozenOn := [], slip := false, frzLen := 0, longRaised := false
    fail := none, abandon := none, vdivBusy := 0
    engines := (A.engines.map (fun e =>
      (e.1, { e.2.stop with filling := [], filled := [], outbound := [], posts := [], ix := [0, 0, 0, 0] }))).filter (fun e => decide (e.2 ≠ {})) }

/-- A task that has not sealed ends for good (R363): its gated handles and its staging are discarded. -/
def State.endTask (s : State) (rid : Nat) : State :=
  match s.task rid with
  | none => s
  | some t =>
    let a := t.array
    let s := ((s.bagSettle rid false).dropStaged rid).bagForget (fun b => b == a && (s.arr a).task == some rid)
    let s := s.onArr a fun A => { (if A.task = some rid then A.idle else A) with placed := A.placed.filter (fun r => r != rid) }
    (s.onCmd t.cid fun c => { c with beats := c.beats + t.tbeats }).freeReceipt rid

/-- A fault record of class 0, which names the task concerned, if one is (R368). -/
def State.commandFault (s : State) (c : Cmd) (task : Option Nat) : State :=
  let rid := task.getD 0
  let x := task.bind s.task
  s.logFault
    { cls := 0, ten := tenOfQueue c.queue, arr := (x.map (·.array)).getD 0, action := 2, attempt := (x.map (·.attempt)).getD 0
      moved := (x.map (·.moved)).getD false, receipt := (x.map (fun _ => rid)).getD 0, routine := (x.map (·.routine)).getD 0
      seqno := cmdSeqno c.bytes, submitter := cmdSubmitter c.bytes, detail := 0
      beat := (x.map (fun t => (s.arr t.array).seq.pos)).getD 0, time := s.now % 2 ^ 32 }

/-- A command is to end FAULTED, or with another status in its place: no further task is issued, its running tasks are abandoned, with the
record of a check that has failed in the beat (R368), and those that have not started are dropped (R363). Of several such ends the one that
R437 prefers counts. -/
def State.faultCmd (s : State) (cid status : Nat) : State :=
  match s.cmd cid with
  | none => s
  | some c =>
    let t := tenOfQueue c.queue
    let first := fun (s : State) => if status = stFaulted then (s.bump Reg.FAULT_FAULTED_CNT).raise pgFAULT 2 (some t) else s
    if c.faulted then
      if statusRank c.status < statusRank status then (first s).onCmd cid fun c => { c with status := status } else s
    else
      let s := (first s).onCmd cid fun c => { c with faulted := true, status := status, plans := [], phase := .running }
      let s := (s.tasksOf cid).foldl (fun (s : State) e =>
        let a := e.2.array
        if (s.arr a).task = some e.1 && e.2.state == 2 then s.beginAbandon a (s.arr a).fail
        else if (s.arr a).task = some e.1 && e.2.state == 3 then s
        else s.endTask e.1) (s.bagQuit cid)
      s.settleCmd cid

/-! ### Loads at a task boundary (R125, R293) -/

/-- The command a boundary load belongs to. -/
def BoundaryLoad.cid (l : BoundaryLoad) : Nat :=
  match l with
  | .tables c _ _ => c
  | .arm c _ _ => c
  | .readdress c _ _ => c

/-- Tasks of commands before a command in its queue are placed on an array, or are still to be placed there. One that comes to the
array after the load has been applied runs after it, which is the model's choice (R128; log 17). -/
def State.earlierTasks (s : State) (a cid : Nat) : Bool :=
  match s.cmd cid with
  | none => false
  | some c =>
    s.disp.cmds.any (fun x => x.queue == c.queue && decide (x.cid < cid) &&
      (x.plans.any (fun p => p.array == a) || (s.tasksOf x.cid).any (fun e => e.2.array == a)))

/-- Writes function images into user slots of a bank, their reserved bits as zeros (R8, R127, R129). -/
def Banks.put (b : Banks) (bank : Nat) (l : List (Nat × List Word)) : Banks :=
  l.foldl (fun (b : Banks) i =>
    if 6 ≤ i.1 ∧ i.1 < 16 then
      { b with user := Tbl.set {} b.user (bank * 16 + i.1) (if imgSteps i.2 = 0 ∧ imgSegs i.2 = 0 then {} else { words := maskImage i.2 }) }
    else b) b

/-- A TABLE_LOAD applied to an array's banks (Table 5.8). -/
def Banks.load (b : Banks) (mode : Nat) (l : List (Nat × List Word)) : Banks :=
  let act := if b.active then 1 else 0
  let inact := 1 - act
  let b := if mode = 0 then b
    else b.put inact ((List.range 16).map (fun k => (k, (Tbl.get {} b.user (act * 16 + k)).words)))
  let b := b.put inact l
  { b with active := if 2 ≤ mode then !b.active else b.active, loads := satAdd32 b.loads 1 }

/-- One boundary load takes effect on an array. -/
def ArrayState.applyLoad (A : ArrayState) (l : BoundaryLoad) : ArrayState :=
  match l with
  | .tables _ mode images => { A with banks := A.banks.load mode images }
  | .arm _ e arm => A.setEng e { arm := arm, sb := arm.bases }
  | .readdress _ e vals =>
    let old := if (A.eng e).sb = [] then (A.eng e).arm.bases else (A.eng e).sb
    A.setEng e { A.eng e with sb := vals.foldl (fun (b : List Nat) v => listUpd b v.1 (fun _ => v.2)) old }

/-- The last TABLE_LOAD that completed or faulted, as its tenancy's hosts read it and as a postmaster without a tenancy does, in
instance 16 (R130). -/
def State.lastTable (s : State) (t q fault : Nat) : State :=
  [t, 16].foldl (fun (s : State) i => (s.setReg Reg.FTAB_LAST_QUEUE i q).setReg Reg.FTAB_LAST_FAULT i fault) s

/-- A command that loads arrays completes when each of them has applied it (R128, R293). -/
def State.settleLoad (s : State) (cid : Nat) : State :=
  match s.cmd cid with
  | none => s
  | some c =>
    if c.phase == .loading && c.left.isEmpty then
      let t := tenOfQueue c.queue
      let s := if cmdKind c.bytes = 0x07 then
          (s.lastTable t c.queue 0).raise pgFTAB 0 (some t)
        else s
      s.completeCmd cid stOK
    else s

/-- Applies the loads that wait for an array's task boundary and may take effect now. -/
def State.applyLoads (s : State) (a : Nat) : State :=
  if (s.arr a).task.isSome || !s.arrOn a then s
  else (s.arr a).loads.foldl (fun (s : State) l =>
    if s.earlierTasks a l.cid then s
    else
      let s := s.onArr a fun A => { A.applyLoad l with loads := A.loads.filter (fun x => x != l) }
      (s.onCmd l.cid fun c => { c with left := c.left.filter (fun b => b != a) }).settleLoad l.cid) s

/-- Applies what may be applied on every array of a tenancy. -/
def State.applyAllLoads (s : State) : State :=
  (s.arrs.filter (fun e => !e.2.loads.isEmpty)).foldl (fun (s : State) e => s.applyLoads e.1) s

/-! ### Dispatch and start (R260, R277, R279) -/

/-- Places a task on an array: behind the others, or ahead of those not yet started (R365). -/
def State.place (s : State) (rid a : Nat) (ahead : Bool) : State :=
  let s := s.onTask rid fun t => { t with array := a, s4 := indexOf (s.usable t.ten) a }
  s.onArr a fun A => { A with placed := if ahead then rid :: A.placed else A.placed ++ [rid] }

/-- The first task of a command that can be dispatched: those it waits for are sealed. -/
def Cmd.readyPlan (c : Cmd) : Option Plan := c.plans.find? (fun p => p.after.all (fun i => c.sealedIdx.contains i))

/-- The snapshots a command's tasks take when they are dispatched, or the status that ends the command where the read of a descriptor
leaves the windows (R205). A sequence outside the tenancy's enabled pools gives none: the task runs, and what it reads of that
sequence is the null page, with status BAD_SEQ (R23, R289). -/
def State.takeSnaps (s : State) (t : Nat) (l : List Snap) : Except Nat (List Snap) :=
  l.foldlM (fun (y : List Snap) x => match s.snapshot t x.seq with
    | .ok n => .ok (y ++ [n])
    | .error st => if st = stBadSeq then .ok y else .error st) []

/-- The descriptors that the snapshots read, up to one outside the windows, for which no transaction is issued. -/
def State.snapReads (s : State) (t : Nat) (l : List Snap) : List Nat :=
  if !s.domOn domKVC then []
  else (l.filterMap (fun x => match s.poolOf t x.seq with
    | .ok p => some ((s.pool p).descAt x.seq)
    | .error _ => none)).takeWhile (fun a => s.spanInWindow t a 64)

/-- The lowest free receipt-log entry of a tenancy's share. -/
def State.freeEntry (s : State) (t : Nat) : Option Nat :=
  ((List.range Config.receiptShare).map (fun i => t * Config.receiptShare + i)).find? (fun r => (s.task r).isNone)

/-- The receipt-log entry of a planned task (Table 15.2). -/
def Cmd.entry (c : Cmd) (p : Plan) (v : Nat) (snaps : List Snap) : Task :=
  { cid := c.cid, ten := tenOfQueue c.queue, queue := c.queue, index := p.index, tasks := c.tasks, routine := c.routine
    version := v, params := p.params, array := p.array, cost := p.cost, argAddr := cmdBits c.bytes 0x20 47 0
    argLen := cmdBits c.bytes 0x1C 12 0, snaps := snaps, verify := c.verify, order := p.index }

/-- The array that a task of a command goes to (R182, R277, R365): the one assigned to it, a later chain position the one that ran
the position before; where that is not eligible, the one with the least cost still to run, but a collective command's tasks
never move (R285). -/
def State.placeOf (s : State) (c : Cmd) (p : Plan) : Option Nat :=
  let el := s.eligible (tenOfQueue c.queue) c.routine
  let want := match p.after with
    | [i] => if p.params.kind = 0 ∧ p.params.pos ≠ 0 then ((c.ranOn.find? (fun r => r.1 == i)).map (·.2)).getD p.array else p.array
    | _ => p.array
  if el.contains want then some want else if c.collective then none else s.leastLoaded el

/-- A command accepted earlier in the tenancy has tasks for an array that have not been entered there, or that are not formed
yet; those enter first (R278). -/
def State.heldBehind (s : State) (c : Cmd) (a : Nat) : Bool :=
  s.disp.cmds.any (fun x => tenOfQueue x.queue == tenOfQueue c.queue && decide (x.cid < c.cid) &&
    ((x.phase == .waiting && cmdKind x.bytes == 0x01) || x.plans.any (fun p => p.array == a)))

/-- Enters a task of a command in an array's queue, taking its snapshots (R205, R277). -/
def State.enterTask (s : State) (c : Cmd) (p : Plan) (rid a : Nat) (ans : PortAnswer) : State :=
  let t := tenOfQueue c.queue
  let reads := s.snapReads t c.snaps
  let r := reads.foldl (fun (s : State) x => s.chargeRead t x 64) s
  match answered ans reads with
  | some (x, e) => (r.unitError t x 0 e).faultCmd c.cid stWindowFault
  | none => match s.takeSnaps t c.snaps with
    | .error st => r.faultCmd c.cid st
    | .ok snaps =>
      let s := r.onCmd c.cid fun c => { c with plans := c.plans.filter (fun x => x.index != p.index) }
      (s.setTask rid (some (c.entry p s.disp.libVersion snaps))).place rid a false

/-- Dispatches the next ready task of the oldest command of a queue that has one (R277, R278). -/
def State.dispatchTask (s : State) (q : Nat) (ans : PortAnswer) : State :=
  if !s.dispatching || s.resets.ten == some (tenOfQueue q) then s
  else match s.disp.cmds.find? (fun c => c.queue == q && c.phase == .running && c.readyPlan.isSome) with
    | none => s
    | some c => match c.readyPlan, s.freeEntry (tenOfQueue q) with
      | some p, some rid => match s.placeOf c p with
        | none => (s.commandFault c none).faultCmd c.cid stFaulted
        | some a => if s.heldBehind c a then s else s.enterTask c p rid a ans
      | _, _ => s

/-- The register window selection of an array (Table 10.20). -/
def State.winSel (s : State) (a : Nat) : Nat := s.reg Reg.PROG_WIN_IDX a + 256 * s.reg Reg.PROG_WIN_CLASS a

/-- The settings an array takes up at its task boundary (R47, R108, R266). -/
def State.arrModes (s : State) (a : Nat) : ArrModes :=
  { audit := s.flag Reg.TIME_AUDIT_EN a, hold := s.flag Reg.TIME_HOLD_EN a, kinds := s.reg Reg.TIME_KINDS a
    tallyK := s.reg Reg.COND_TALLY_K a, tallyEn := s.flag Reg.COND_TALLY_EN a, haltPc := s.reg Reg.PROG_HALT_PC a
    haltRoutine := s.reg Reg.PROG_HALT_ROUTINE a, haltEn := s.flag Reg.PROG_HALT_EN a
    win := s.winSel a }

/-- Where the argument block lies in the array store (R260). -/
def argBlock : Nat := 0xFF000

/-- The scalar registers a task starts with (R260). -/
def startRegs (t : Task) (rid ss : Nat) : ProgRegs :=
  let l := [(1, argBlock), (2, t.index), (3, t.tasks), (4, t.s4), (5, ss), (6, rid)]
  { s := l.foldl (fun (x : Tbl Word) p => Tbl.set 0 x p.1 (BitVec.ofNat 32 p.2)) [] }

/-- An attempt begins on an array: program state of R237, argument block and scalar registers of R260, and the instruction queue filled
from the entry routine (R253, R359). -/
def State.startAttempt (s : State) (a rid : Nat) (t : Task) : State :=
  let n := min t.argLen 4096
  let bs := s.readMem t.argAddr n ++ List.replicate (4096 - n) (0 : Byte)
  let ss := s.reg Reg.TEN_SS_BASE t.ten * 65536
  let s := s.chargeRead t.ten t.argAddr n
  let s := s.onArr a fun A =>
    { (A.idle.save argBlock bs) with
      task := some rid, regs := startRegs t rid ss, mv := { queryGen := t.cid * 2 ^ 32 + t.index }
      seq := { state := .running, routine := t.routine, entry := t.routine, version := t.version } }
  let s := s.deliverWords a
  let st := s.stamp
  (s.onTask rid fun t =>
    { t with state := 2, jpos := 0, ended := false, failed := none, status := 0, caught := 0, prior := none }).onCmd t.cid
    fun c => if c.begun then c else { c with begun := true, start := st.1, startBad := st.2 }

/-- An attempt begins; where its copy of the argument block is answered with an error, its check of class MEMORY fails (R434). -/
def State.beginAttempt (s : State) (a rid : Nat) (t : Task) (ans : PortAnswer) : State :=
  let s' := s.startAttempt a rid t
  let lines := linesOf t.argAddr (min t.argLen 4096)
  let inj := s'.injected a 7 && !lines.isEmpty
  let s' := if inj then s'.setReg Reg.FAULT_INJ_ARM 0 0 else s'
  match answered (if inj then .error { k := 0, status := 3, late := false } else ans) lines with
  | none => s'
  | some (x, e) => (s'.unitError t.ten x 0 e).failNow a 7 (x % 2 ^ 48 + errCode e * 2 ^ 48)

/-- What every attempt of a task on an array begins with: its bank and the base registers of its engines (R360). -/
def ArrayState.noteBegin (A : ArrayState) : ArrayState :=
  { A with began := (A.banks.active, (List.range 4).map (fun e => (A.eng e).sb)) }
/-- A replay begins with them. -/
def ArrayState.backToBegin (A : ArrayState) : ArrayState :=
  (List.range 4).foldl (fun (A : ArrayState) e => A.setEng e { A.eng e with sb := A.began.2.getD e [] })
    { A with banks := { A.banks with active := A.began.1 } }

/-- A task's predecessor on the array awaits the release of its contributions under ordered commit (R330). -/
def State.awaitsRelease (s : State) (a cid : Nat) : Bool :=
  match s.cmd cid with
  | some c => c.awaiting.any (fun x => x.1 == a)
  | none => false

/-- A step that merges with the result of those before it waits until they have written the same tile: the tasks of that tile
of the queue's earlier commands have sealed or ended (R172). -/
def State.awaitsStep (s : State) (t : Task) : Bool :=
  let same := fun (p : TaskParams) => p.entry == t.params.entry && p.tile == t.params.tile
  (match s.cmd t.cid with | some c => c.mergeIn | none => false) && s.disp.cmds.any (fun x =>
    x.queue == t.queue && decide (x.cid < t.cid) && x.phase == .running && (x.routine == 0 || x.routine == 2) &&
      (x.plans.any (fun p => same p.params) || (s.tasksOf x.cid).any (fun e => same e.2.params)))

/-- A placed task may start: the array is usable (R391, R392), no load of an earlier command of its queue waits on the array, no release,
and no earlier step. -/
def State.mayStart (s : State) (a rid : Nat) : Bool :=
  match s.task rid with
  | none => false
  | some t =>
    s.fit a && !s.awaitsRelease a t.cid && !s.awaitsStep t &&
    !(s.arr a).loads.any (fun l => decide (l.cid < t.cid) && ((s.cmd l.cid).map (·.queue)) == some t.queue)

/-- An array that no external stop holds starts its next task, or the next attempt of the one it holds (R32, R252, R260, R360). -/
def State.startTask (s : State) (a : Nat) (ans : PortAnswer) : State :=
  if !s.arrOn a || !s.dispatching || s.extStop a || (s.arr a).abandon.isSome then s
  else match (s.arr a).task with
    | some rid => match s.task rid with
      | some t => if t.state = 1 then (s.onArr a ArrayState.backToBegin).beginAttempt a rid t ans else s
      | none => s
    | none =>
      let s := s.applyLoads a
      match (s.arr a).placed.find? (s.mayStart a) with
      | none => s
      | some rid => match s.task rid with
        | none => s
        | some t =>
          let m := s.arrModes a
          let s := s.onArr a fun A => { A.noteBegin with placed := A.placed.filter (fun r => r != rid), modes := m }
          s.beginAttempt a rid t ans

/-! ### Sealing (R358) -/

/-- What a sealed task hands its command: its status, its caught rows and its beats (R274, R437). -/
def Cmd.sealOf (c : Cmd) (a : Nat) (t : Task) : Cmd :=
  { c with
    sealedIdx := c.sealedIdx ++ [t.index], beats := c.beats + t.tbeats
    status := if c.faulted then c.status else joinStatus c.status t.status
    info := c.info + t.caught, ranOn := c.ranOn ++ [(t.index, a)]
    awaiting := if c.ordered then c.awaiting ++ [(a, t.index)] else c.awaiting }

/-- Seals the attempt that has ended on an array. -/
def State.sealTask (s : State) (a : Nat) : State :=
  if !s.dispatching then s
  else match (s.arr a).task with
    | none => s
    | some rid => match s.task rid with
      | none => s
      | some t =>
        if t.state = 2 ∧ t.ended ∧ t.failed.isNone ∧ (s.arr a).fail.isNone ∧ !s.writesOut a then
          let s := s.stageReady rid
          let ord := ((s.cmd t.cid).map (·.ordered)).getD false
          let s := if ord then s else s.releaseTask t.cid t.index
          let s := (s.bagSettle rid true).onCmd t.cid fun c => c.sealOf a t
          let s := ((s.onArr a ArrayState.idle).freeReceipt rid).applyAllLoads
          s.settleCmd t.cid
        else s

/-! ### Ordered commit (R330) -/

/-- The ordered command of a queue whose turn to release it is. -/
def State.releaseTurn (s : State) (q : Nat) : Option Cmd :=
  s.disp.cmds.find? (fun c => c.queue == q && c.ordered && c.phase == .running && decide (c.cursor < c.tasks))

/-- Issues the next release of the queue's ordered command once every add of the one before has been sent, or passes over a task that did
not seal (R330, R363). -/
def State.releaseNext (s : State) (q : Nat) : State :=
  if !s.domOn domMPT then s
  else match s.releaseTurn q with
    | none => s
    | some c =>
      let i := c.cursor
      let busy := s.mport.staged.any (fun x => x.begun && !x.released &&
        (match s.cmd x.cid with | some y => y.queue == q && y.ordered | none => false))
      let gone := c.faulted && !(s.tasksOf c.cid).any (fun e => e.2.index == i)
      if busy then s
      else if c.sealedIdx.contains i then
        ((s.releaseTask c.cid i).onCmd c.cid fun c =>
          { c with cursor := i + 1, awaiting := c.awaiting.filter (fun x => x.2 != i) }).settleCmd c.cid
      else if gone then (s.onCmd c.cid fun c => { c with cursor := i + 1 }).settleCmd c.cid
      else s

/-! ### Quarantine, moving and replay (R360 to R365) -/

/-- A task goes to another array; `none` where none is eligible. -/
def State.moveTask (s : State) (rid : Nat) (again : Bool) : Option State :=
  match s.task rid with
  | none => some s
  | some t =>
    let old := t.array
    match s.leastLoaded ((s.eligible t.ten t.routine).filter (fun b => b != old)) with
    | none => none
    | some b =>
      let s := s.onTask rid fun t => { t with state := 1, attempt := if again then t.attempt else 1, moved := if again then t.moved else true }
      let s := s.onArr old fun A => { A with placed := A.placed.filter (fun r => r != rid) }
      some ((if again then s else s.bump Reg.FAULT_MOVE_CNT).place rid b true)

/-- A command has lost what a task needs: a record of class 0, and the command ends FAULTED (R363, R368). -/
def State.loseCmd (s : State) (cid : Nat) (rid : Option Nat) : State :=
  match s.cmd cid with
  | none => s
  | some c => if c.faulted && c.status == stFaulted then s else (s.commandFault c rid).faultCmd cid stFaulted

/-- Tasks of collective commands on an array end their commands (R285). -/
def State.loseCollectives (s : State) (a : Nat) : State :=
  (s.tasksOn a).foldl (fun (s : State) e =>
    match s.cmd e.2.cid with
    | some c => if c.collective then s.loseCmd c.cid (some e.1) else s
    | none => s) s

/-- Tasks placed on an array that have not started go elsewhere (R364). -/
def State.relocateAll (s : State) (a : Nat) : State :=
  (s.arr a).placed.foldl (fun (s : State) rid =>
    match s.task rid with
    | none => s
    | some t => match s.moveTask rid true with
      | some s' => s'
      | none => s.loseCmd t.cid (some rid)) s

/-- Quarantines an array, which then holds no tenancy state (R364). -/
def State.quarantine (s : State) (a : Nat) : State :=
  let t := s.tenOfArr a
  let s := (s.onCond a fun c => { c with quarantined := true }).raise pgFAULT 1 t
  let s := match t with
    | some t =>
      let c := s.collection t
      (s.setCollection t { c with arrived := c.arrived.filter (fun b => b != a) }).collectCheck t
    | none => s
  let lost := (s.arr a).loads.map BoundaryLoad.cid
  let s := s.onArr a fun A => { A with loads := [] }
  let s := lost.foldl (fun (s : State) cid => (s.onCmd cid fun c => { c with left := c.left.filter (fun b => b != a) }).settleLoad cid) s
  let s := (s.loseCollectives a).relocateAll a
  s.onArr a fun A => { A with banks := {}, engines := [], store := [], regs := {}, pigeon := [], ahead := [], missed := [] }

/-- The receipt-log entry of a task that is to be replayed or moved fails parity: a record of class RECEIPT, and the command ends
FAULTED (R357, R363, R368). -/
def State.receiptFault (s : State) (a rid : Nat) (t : Task) : State :=
  let d := s.freeWord.toNat
  (s.drew.logFault (s.faultRecOf a rid t 8 2 d)).faultCmd t.cid stFaulted

/-- The fourth failure of a class that counts against the array quarantines it, whatever has become of the command meanwhile (R362). -/
def State.quarantineAfter (s : State) (a rid : Nat) (t : Task) : State :=
  match t.failed with
  | some cls =>
    if failAction t cls = 1 then
      ((s.onArr a ArrayState.idle).onTask rid fun t => { t with state := 1, failed := none }).quarantine a
    else s
  | none => s

/-- The task whose attempt was abandoned is attempted again, on this array or on another. -/
def State.attemptAgain (s : State) (a rid : Nat) (t : Task) (cls : Nat) : State :=
  let again := fun (s : State) =>
    (s.onCmd t.cid fun c => { c with replays := c.replays + 1 }).bump Reg.FAULT_REPLAY_CNT |>.raise pgFAULT 0 (some t.ten)
  match failAction t cls with
  | 0 => again ((s.onTask rid fun t => { t with state := 1, attempt := t.attempt + 1, failed := none }).onArr a fun A =>
      { A.idle with task := some rid })
  | 1 => match s.moveTask rid false with
    | some s' => again s'
    | none => s.loseCmd t.cid (some rid)
  | _ => (s.faultCmd t.cid stFaulted).endTask rid |>.applyAllLoads |>.settleCmd t.cid

/-- The array goes on after abandonment: a replay, a move, or the end of the task (R359, R362, R363). `good` says that the
receipt-log entry passes its parity check where it is read. -/
def State.afterAbandon (s : State) (a rid : Nat) (t : Task) (good : Bool) : State :=
  let s := s.bagForget (fun b => b == a)
  let gone := fun (s : State) => ((s.cmd t.cid).map (·.faulted)).getD true
  let s := match t.failed with
    | some cls => if !good && !gone s && decide (failAction t cls < 2) then s.receiptFault a rid t else s
    | none => s
  let s := s.quarantineAfter a rid t
  match gone s, t.failed with
  | false, some cls => s.attemptAgain a rid t cls
  | _, _ => ((s.endTask rid).applyAllLoads).settleCmd t.cid

/-- Abandonment ends once its 32 beats have completed and the writes already issued are answered (R359). -/
def State.abandonEnd (s : State) (a : Nat) (good : Bool) : State :=
  let A := s.arr a
  match A.abandon, A.task with
  | some 0, some rid =>
    if s.arrOn a && !s.writesOut a && A.flight.isEmpty && s.dispatching then
      match s.task rid with
      | some t => (s.onArr a fun A => { A with abandon := none }).afterAbandon a rid t good
      | none => s
    else s
  | some 0, none => if s.arrOn a && !s.writesOut a && A.flight.isEmpty then s.onArr a ArrayState.idle else s
  | _, _ => s

end Sys2Proof.Machine
end

