-- ==== Sys2Proof/Machine/MemRows.lean ====
section
/-! DEFINITION. What reaches the memory port from its controllers: responses, credits and timeouts, and the walks of the cache
unit (spec/13_memory_port.md R323 to R336; spec/08_paged_cache.md R205). -/
namespace Sys2Proof.Machine

/-- The running attempt of a task issued a transaction. -/
def State.liveOwner (s : State) (o : TxnOwner) : Option Nat :=
  match o with
  | .task a rid _ => if (s.arr a).task = some rid then some a else none
  | _ => none

/-- An outstanding transaction leaves its channel. -/
def State.retire (s : State) (c tag : Nat) : State :=
  let x := s.chan c
  s.setChan c { x with out := x.out.filter (fun o => o.1 != tag) }

/-- What a completed transaction lets go on: posts of its engine, and the completion of the command it released. -/
def State.afterTxn (s : State) (c : Nat) (t : Txn) : State :=
  let s := match t.owner with
    | .task a _ _ => s.runPosts a
    | .release cid => (if t.kind = 2 then (s.unstage t.no).settleCmd cid else s.sendReleased cid).releaseReset
    | _ => s
  s.pumpChan pumpFuel c

/-- The bytes that a read of a cache row delivers: those of a draft row rewritten under its task are free (R223). -/
def State.rowBytes (s : State) (t : Txn) : List Byte × State :=
  match t.row, t.owner with
  | some r, .task _ rid _ =>
    let hit := fun (i : Nat) => match (s.task rid).bind (fun k => k.snaps.find? (fun x => x.seq == r.seq)) with
      | some x => decide (t.skip ≤ i) && x.rewritten r.plane (r.pos + (r.off + (i - t.skip)) / max r.rowBytes 1)
      | none => false
    if (List.range t.size).any hit then
      ((List.range t.size).map (fun i => if hit i then Config.freeByte (s.freeCtr + i) else t.data.getD i 0), s.drew t.size)
    else (t.data, s)
  | _, _ => (t.data, s)

/-- STATUS OK: a read delivers its data; a write or atomic add is accepted (R325). -/
def State.txnOK (s : State) (c tag : Nat) (t : Txn) : State :=
  let s := s.retire c tag
  if t.kind = 0 then
    let r := s.rowBytes t
    (r.2.bump64 Reg.MPORT_RD_BYTES_LO Reg.MPORT_RD_BYTES_HI c t.size).deliverRead t r.1
  else s.bump64 Reg.MPORT_WR_BYTES_LO Reg.MPORT_WR_BYTES_HI c t.size

/-- The bytes of a write or an add whose response is an error are free, but for those that a later write has written again (R335). -/
def State.spoilTxn (s : State) (t : Txn) : State :=
  let again := fun (i : Nat) => t.since.any (fun r => decide (r.1 ≤ t.addr + i) && decide (t.addr + i < r.1 + r.2))
  ({ s with mem := s.mem.putBytes t.addr ((List.range t.size).map (fun i =>
      if again i then s.mem.byte (t.addr + i) else Config.freeByte (s.freeCtr + i))) }).drew t.size

/-- Any other STATUS: recorded; a read delivers +0, and the task's check of class MEMORY fails, or the command of a release
ends FAULTED (R335). A write of the dispatcher or the cache unit has no further effect. -/
def State.txnError (s : State) (c tag status : Nat) (t : Txn) : State :=
  let add := match t.owner with | .release _ => t.kind == 2 | _ => false
  let s := (s.retire c tag).portErr t.addr t.kind t.ten status add
  let s := if t.kind = 0 then s.deliverRead t (List.replicate t.size 0) else s.spoilTxn t
  match t.owner with
  | .release cid => (if add then s.losePosts t.no else s).loseCmd cid none
  | .task _ _ _ => match s.liveOwner t.owner with
    | some a => s.failNow a 7 (t.addr + status * 2 ^ 48)
    | none => s
  | _ => s

/-- The STATUS that a response counts as: an armed injection of class MEMORY makes an attempt's next one fail (R372; log 22). -/
def State.statusOf (s : State) (t : Txn) (status : Nat) : Nat × State :=
  match s.liveOwner t.owner with
  | some a => if s.injected a 7 then (if status = 0 then 3 else status, s.setReg Reg.FAULT_INJ_ARM 0 0) else (status, s)
  | none => (status, s)

/-- The response to an outstanding transaction has a STATUS: its channel has carried out what reached it before. -/
def State.answerTxn (s : State) (c tag status : Nat) : State :=
  let s := s.carryOut c tag
  match (s.chan c).out.find? (fun o => o.1 == tag) with
  | none => s
  | some (_, t) => (if status = 0 then s.txnOK c tag t else s.txnError c tag status t).afterTxn c t

/-- A response for a tag (R323, R335, R336). -/
def State.response (s : State) (c tag status : Nat) (form : RespForm) : State :=
  if !s.domOn domMPT then s
  else match (s.chan c).out.find? (fun o => o.1 == tag) with
    | none => s.memViol 1 c tag
    | some (_, t) =>
      let reason := match form with | .matching => 0 | .wrongKind => 2 | .dataToWrite => 3 | .excessFlits => 5
      let s := if reason = 0 then s else s.memViol reason c tag
      let x := s.statusOf t (if reason = 0 then status else 3)
      x.2.answerTxn c tag x.1

/-- MEMORY_RESPONSE. -/
def execMemoryResponse (ch : Chan) (tag : BitVec 12) (status : BitVec 2) (form : RespForm) (s : State) :
    Host.Outcome State Fault Refusal :=
  .next (s.response ch.toNat tag.toNat status.toNat form)

/-- Returned credits, clamped so that those of the channel, with the ones it keeps for rows, make up its initial grant (R323, R336). -/
def State.memCredits (s : State) (c n : Nat) : State :=
  if !s.domOn domMPT then s
  else
    let x := s.chan c
    if x.credits + x.got.length + n ≤ x.grant then (s.setChan c { x with credits := x.credits + n }).pumpChan pumpFuel c
    else ((s.setChan c { x with credits := x.grant - x.got.length }).memViol 4 c 0).pumpChan pumpFuel c

/-- MEMORY_CREDIT_RETURN. -/
def execMemoryCreditReturn (ch : Chan) (n : Nat) (s : State) : Host.Outcome State Fault Refusal := .next (s.memCredits ch.toNat n)

/-- No response within RESP_TIMEOUT: STATUS OTHER, and TIMEOUT (R334). -/
def State.txnTimeout (s : State) (c tag : Nat) : State :=
  match (s.chan c).out.find? (fun o => o.1 == tag) with
  | none => s
  | some (_, t) => (s.raise pgMPORT evMemTimeout (some t.ten)).answerTxn c tag 3

/-- RESP_TIMEOUT. -/
def execRespTimeout (ch : Chan) (tag : BitVec 12) (s : State) : Host.Outcome State Fault Refusal :=
  .next (s.txnTimeout ch.toNat tag.toNat)

/-- The walk that an array's stream waits for at a page ends, with the answer to its reads; where none is in flight, one that the array's
task starts there ends at once (R205, R225). -/
def State.walkRow (s : State) (a seq page : Nat) (ans : PortAnswer) : State :=
  if !s.domOn domKVC then s
  else match s.cache.walks.find? (fun w => w.arr == a && w.snap.seq == seq && w.page == page) with
    | some w => s.finishWalk w ans
    | none => match s.taskOf a with
      | none => s
      | some (rid, k) => match k.snaps.find? (fun x => x.seq == seq) with
        | none => s
        | some x =>
          if decide ((x.wtop + 15) / 16 ≤ page) || (lruFind s.cache.second k.ten seq page).isSome || s.walking k.ten seq page ||
              decide (s.walkLimit ≤ s.cache.walks.length) then s
          else (s.startWalk a k.ten x page).finishWalk { arr := a, rid := rid, ten := k.ten, snap := x, page := page } ans

/-- TRANSLATION_WALK. -/
def execTranslationWalk (a : Arr × PortAnswer) (seq : BitVec 16) (page : BitVec 17) (s : State) : Host.Outcome State Fault Refusal :=
  .next (s.portRow unitWho 0 fun s => s.walkRow a.1.toNat seq.toNat page.toNat a.2)

end Sys2Proof.Machine
end

