-- ==== Sys2Proof/Machine/Library.lean ====
section
/-! DEFINITION. The library store: the check and translation of images, the allocation of library RAM and LOAD_PROGRAM
(spec/10_instructions.md R254 to R258, R265). -/
namespace Sys2Proof.Machine

/-! ### Images (R256) -/

/-- One bundle of a Sirtos image: its header and the 64-bit bodies of its slots. -/
structure RawBundle where
  hdr : Nat
  bodies : List Nat
deriving DecidableEq, Repr

/-- MASK of a bundle. -/
def RawBundle.mask (b : RawBundle) : Nat := b.hdr % 128
/-- A WAIT bundle. -/
def RawBundle.isWait (b : RawBundle) : Bool := bitOf b.hdr 7
/-- The body of a slot, if the slot is present. -/
def RawBundle.slot (b : RawBundle) (k : Nat) : Option Nat :=
  if bitOf b.mask k then b.bodies[popCount k b.mask]? else none
/-- The operation of the scalar/control slot. -/
def RawBundle.control (b : RawBundle) : Option Instr :=
  match b.slot 6 with
  | none => none
  | some v => match decodePart 0 6 (BitVec.ofNat 32 v) with
    | .op i => some i
    | _ => none
/-- The bundle carries a GLOAD. -/
def RawBundle.hasGload (b : RawBundle) : Bool :=
  match b.slot 3 with
  | none => false
  | some v => match decodePart 0 7 (BitVec.ofNat 32 (v / 2 ^ 32)) with
    | .op (.gload _ _ _ _) => true
    | _ => false
/-- BODY of a REPEAT that the bundle carries. -/
def RawBundle.body (b : RawBundle) : Option Nat :=
  match b.control with
  | some (.repeatBody _ _ body1 _ _) => some (body1.toNat + 1)
  | _ => none
/-- The bundle carries a CALL, RET or END. -/
def RawBundle.leaves (b : RawBundle) : Bool :=
  match b.control with
  | some (.call _ _ _) => true
  | some (.ret _ _) => true
  | some (.endTask _ _) => true
  | _ => false
/-- An unpredicated RET or END. -/
def RawBundle.isFinal (b : RawBundle) : Bool :=
  match b.control with
  | some (.ret _ p) => !p.pen
  | some (.endTask _ p) => !p.pen
  | _ => false

/-- Reads `n` bundles; `none` where the bytes run out. The rest of the bytes follows. -/
def readBundles (n : Nat) (bs : List Byte) : Option (List RawBundle × List Byte) :=
  match n with
  | 0 => some ([], bs)
  | m + 1 =>
    if bs.length < 4 then none
    else
      let h := leNat (bs.take 4)
      let k := popCount 7 (h % 128)
      let r := bs.drop 4
      if r.length < 8 * k then none
      else
        let b : RawBundle := { hdr := h, bodies := (List.range k).map (fun i => leNat ((r.drop (8 * i)).take 8)) }
        match readBundles m (r.drop (8 * k)) with
        | some (l, rest) => some (b :: l, rest)
        | none => none

/-- Reserved bits of a bundle are zero, and so is the high half of each 32-bit slot body (reason 3). -/
def RawBundle.clean (b : RawBundle) : Bool :=
  decide (b.hdr / 256 % 256 = 0) && (b.isWait || decide (b.hdr / 2 ^ 16 = 0)) &&
    (List.range 7).all (fun k => k == 3 || (match b.slot k with | some v => decide (v < 2 ^ 32) | none => true))

/-- The index of the last bundle of each body that lies open at a bundle: those opened before it and not yet closed. -/
def openEnds (l : List RawBundle) (i : Nat) : List Nat :=
  ((List.range i).filterMap (fun j => match (l[j]?).bind RawBundle.body with
    | some n => if i ≤ j + n then some (j + n) else none
    | none => none))

/-- A rule of R249 broken at bundle `i` (reason 5). -/
def repeatBroken (l : List RawBundle) (i : Nat) (b : RawBundle) : Bool :=
  let open_ := openEnds l i
  (match b.body with
   | some n => decide (2 ≤ open_.length) || decide (l.length ≤ i + n)
   | none => false) || (!open_.isEmpty && b.leaves)

/-- A GLOAD that no WAIT of at least 15 follows, or that ends a body or the routine (reason 6). -/
def gloadBroken (l : List RawBundle) (i : Nat) (b : RawBundle) : Bool :=
  b.hasGload && ((openEnds l i).contains i || (match l[i + 1]? with
    | some w => !(w.isWait && decide (14 ≤ w.hdr / 2 ^ 16))
    | none => true))

/-- Bundles with their indices. -/
def indexed (l : List RawBundle) : List (Nat × RawBundle) := (List.range l.length).zip l

/-- What Brillar finds in an image: the reason of Table 10.13 for rejecting it, or its bundles. -/
def checkImage (img : List Byte) : Except Nat (List RawBundle) :=
  let at_ := fun (o n : Nat) => leNat ((img.drop o).take n)
  if img.length < 64 ∨ at_ 0 4 ≠ 0x53525430 ∨ at_ 4 2 ≠ 1 then .error 1
  else match readBundles (min (at_ 0x10 4) img.length) (img.drop 64) with
    | none => .error 1
    | some (l, rest) =>
      if l.length ≠ at_ 0x10 4 ∨ img.length - 64 - rest.length ≠ at_ 0x14 4 then .error 1
      else if at_ 8 4 ≠ Config.profile then .error 2
      else if l.any (fun b => !b.clean) then .error 3
      else if l.any (fun b => b.isWait && b.mask != 0) then .error 4
      else if (indexed l).any (fun x => repeatBroken l x.1 x.2) then .error 5
      else if (indexed l).any (fun x => gloadBroken l x.1 x.2) then .error 6
      else if !((l.getLast?).map RawBundle.isFinal).getD false then .error 7
      else .ok l

/-! ### Translation (R254, R255) -/

/-- The native word of bundle `i`. -/
def nativeOf (l : List RawBundle) (i : Nat) (b : RawBundle) : List (BitVec 16) :=
  let h := fun (v k : Nat) => BitVec.ofNat 16 (v / 2 ^ (16 * k))
  let slots := (List.range 7).flatMap (fun k => match b.slot k with
    | some v => if k = 3 then [h v 0, h v 1, h v 2, h v 3] else [h v 0, h v 1]
    | none => [])
  let rest := if b.isWait then [BitVec.ofNat 16 (b.hdr / 2 ^ 16)] else slots
  BitVec.ofNat 16 (b.mask + 2 ^ 7 * (rest.length + 1) + 2 ^ 12 * natOfBool b.isWait +
    2 ^ 13 * natOfBool (decide (i + 1 = l.length)) + 2 ^ 14 * natOfBool (!(openEnds l i).isEmpty)) :: rest

/-- The native words of a routine. -/
def translateImage (l : List RawBundle) : List (List (BitVec 16)) := (indexed l).map (fun x => nativeOf l x.1 x.2)

/-- Halfwords of a translation. -/
def wordsLen (ws : List (List (BitVec 16))) : Nat := ws.foldl (fun n w => n + w.length) 0

/-! ### Library RAM (R258) -/

/-- Bytes of library RAM. -/
def libRamBytes : Nat := 0x200000
/-- Halfword address of its first halfword (Table 10.17). -/
def libRamBase : Nat := 0x100000
/-- Bytes that a translation occupies: whole units of 256. -/
def ramSize (ws : List (List (BitVec 16))) : Nat := (2 * wordsLen ws + 255) / 256 * 256

/-- The runs of RAM in use, as (first byte, bytes). -/
def State.ramUsed (s : State) : List (Nat × Nat) :=
  s.disp.lib.flatMap (fun e =>
    (if e.2.kind = 0 then [] else [((e.2.base - libRamBase) * 2, e.2.size)]) ++
      e.2.old.map (fun o => ((o.base - libRamBase) * 2, o.size)))

/-- The bytes from `from_` to the next run in use, or to the end of RAM. -/
def State.gapAt (s : State) (from_ : Nat) : Nat :=
  s.ramUsed.foldl (fun n u => if from_ < u.1 + u.2 then min n (u.1 - from_) else n) (libRamBytes - from_)

/-- Where a free run may begin: the start of RAM and the end of each run in use. -/
def State.gapStarts (s : State) : List Nat := 0 :: (s.ramUsed.map (fun u => u.1 + u.2))

/-- The lowest free run of a size. -/
def State.ramFind (s : State) (n : Nat) : Option Nat :=
  (s.gapStarts.filter (fun a => decide (n ≤ s.gapAt a) && decide (a + n ≤ libRamBytes))).foldl
    (fun (b : Option Nat) a => match b with | some x => some (min x a) | none => some a) none

/-- Free bytes of RAM. -/
def State.ramFree (s : State) : Nat := libRamBytes - s.ramUsed.foldl (fun n u => n + u.2) 0
/-- The longest free run in bytes. -/
def State.ramLargest (s : State) : Nat := s.gapStarts.foldl (fun n a => max n (s.gapAt a)) 0

/-- The translation that holds a RAM byte, as (owner, words, its first halfword address). -/
def State.ramHolder (s : State) (h : Nat) : Option (Nat × List (List (BitVec 16)) × Nat) :=
  s.disp.lib.findSome? (fun e =>
    let all := (if e.2.kind = 0 then [] else [(e.2.words, e.2.base, e.2.size)]) ++ e.2.old.map (fun o => (o.words, o.base, o.size))
    (all.find? (fun o => decide (o.2.1 ≤ h) && decide (h < o.2.1 + o.2.2 / 2))).map (fun o => (e.2.owner, o.1, o.2.1)))

/-- A halfword of the library store as a host of tenancy `t` reads it, the postmaster where `pm` (R265). -/
def State.libHalf (s : State) (t : Option Nat) (pm : Bool) (h : Nat) : Nat :=
  if h < libRamBase then (Config.romHalf h).toNat
  else match s.ramHolder h with
    | none => 0
    | some (o, ws, b) => if pm || t == some o then ((ws.flatten)[h - b]?.getD 0).toNat else 0

/-! ### LOAD_PROGRAM (R256 to R258) -/

/-- The status of a reason of Table 10.13. -/
def loadStatus (reason : Nat) : Nat :=
  if reason = 2 then stBadProfile else if reason = 8 then stImageFault else if reason = 9 then stNoSpace else stBadImage

/-- LAST_LOAD records a load (R257). -/
def State.lastLoad (s : State) (t r q status reason : Nat) : State :=
  ((((s.setReg Reg.LIB_LL_ROUTINE t r).setReg Reg.LIB_LL_QUEUE t q).setReg Reg.LIB_LL_STATUS t status).setReg
    Reg.LIB_LL_REASON t reason).setReg Reg.LIB_LL_VALID t 1

/-- A rejected load: its status, and the state. -/
def State.rejectLoad (s : State) (t r q status reason : Nat) : Nat × State :=
  (status, (s.lastLoad t r q status reason).raise pgLIB 1 (some t))

/-- Publishes a translation (R258). -/
def State.publishRoutine (s : State) (t r base : Nat) (img : List Byte) (ws : List (List (BitVec 16))) : State :=
  let x := s.routine r
  let flags := leNat ((img.drop 0x0C).take 4)
  let v := s.disp.libVersion + 1
  let new : Routine :=
    { kind := if bitOf flags 0 then 2 else 1, narrowOk := bitOf flags 1, owner := t, base := base, size := ramSize ws, words := ws
      old := if x.kind = 0 then x.old else x.old ++ [{ version := x.version, words := x.words, base := x.base, size := x.size, kind := x.kind }], version := v }
  ((s.setRoutine r new).onDisp fun d => { d with libVersion := v }).purgeOld t

/-- Loads a program for tenancy `t`: the status and the state. -/
def State.loadProgram (s : State) (t q r addr len : Nat) (ans : PortAnswer) : Nat × State :=
  let x := s.routine r
  if r < 256 then s.rejectLoad t r q stBadRoutine 10
  else if x.kind ≠ 0 ∧ x.owner ≠ t then s.rejectLoad t r q stRoutineTaken 10
  else if !s.spanInWindow t addr len then s.rejectLoad t r q stImageFault 8
  else
    let rd := s.unitRead t addr len ans
    let s := rd.1
    if !rd.2 then s.rejectLoad t r q stImageFault 8
    else
      let img := s.readMem addr len
      match checkImage img with
      | .error n => s.rejectLoad t r q (loadStatus n) n
      | .ok l =>
        let ws := translateImage l
        match s.ramFind (ramSize ws) with
        | none => s.rejectLoad t r q stNoSpace 9
        | some b =>
          let s := (s.publishRoutine t r (libRamBase + b / 2) img ws).bump Reg.LIB_LOAD_CNT
          (stOK, (s.lastLoad t r q stOK 0).raise pgLIB 0 (some t))

end Sys2Proof.Machine
end

