-- ==== Sys2Proof/Machine/Reserve.lean ====
section
/-! DEFINITION. Reservations of shared-store and ring bandwidth (spec/11_queues_and_sync.md R292; spec/12_mail_train.md R307, R308). -/
namespace Sys2Proof.Machine

/-- The arming an engine has or will have at its array's next task boundary. -/
def State.armNext (s : State) (a e : Nat) : Arming :=
  match (s.arr a).loads.reverse.findSome? (fun l => match l with
    | .arm _ e' x => if e' = e then some x else none
    | _ => none) with
  | some x => x
  | none => ((s.arr a).eng e).arm

/-- Every reservation: array, engine and arming. -/
def State.armings (s : State) : List (Nat × Nat × Arming) :=
  (s.arrs.flatMap (fun x => (List.range 4).map (fun e => (x.1, e, s.armNext x.1 e)))).filter (fun x => x.2.2.armed)

/-- Bytes per beat that an arming reserves. -/
def Arming.bytes (x : Arming) : Nat := 32 * x.rate
/-- The arming of an array of group `g` reserves bandwidth of hub `h` (R21, R292). -/
def Arming.reaches (x : Arming) (g h : Nat) : Bool := decide (2 ≤ x.scope) || g == h

/-- Bytes per beat that enabled reserved ring channels charge against each half (R308). -/
def State.ringCharge (s : State) : Nat :=
  allChans.foldl (fun n x => [false, true].foldl (fun (n : Nat) r =>
    if s.chanEn x.1 x.2 r && s.reg Reg.RING_CLASS (chanInst x.1 x.2 r) == 0
    then n + 64 * s.reg Reg.RING_RES_SLOTS (chanInst x.1 x.2 r) else n) n) 0

/-- Bytes per beat of a half, and of a hub, that may be reserved (R21). -/
def halfCapacity : Nat := 48000
def hubCapacity : Nat := 8192

/-- A list of reservations, with what the ring channels charge, fits both halves and all hubs. -/
def reservationsFit (ring : Nat) (l : List (Nat × Nat × Arming)) : Bool :=
  [0, 1].all (fun h => decide (ring + (l.filter (fun x => x.2.2.half == h)).foldl (fun n x => n + x.2.2.bytes) 0 ≤ halfCapacity)) &&
  (List.range 16).all (fun h =>
    decide ((l.filter (fun x => x.2.2.reaches (groupOf x.1) h)).foldl (fun n x => n + x.2.2.bytes) 0 ≤ hubCapacity))

/-- An arming of engine `e` on a list of arrays fits beside the other reservations (R292). -/
def State.armFits (s : State) (l : List Nat) (e : Nat) (x : Arming) : Bool :=
  reservationsFit s.ringCharge
    (s.armings.filter (fun y => !(y.2.1 == e && l.contains y.1)) ++ l.map (fun a => (a, e, x)))

/-- Enabling a reserved channel with `n` slots fits (R308). -/
def State.channelFits (s : State) (n : Nat) : Bool := reservationsFit (s.ringCharge + 64 * n) s.armings

/-- The sum of RES_SLOTS over a port's enabled send channels other than `c` (R307). -/
def State.resSlots (s : State) (p c : Nat) : Nat :=
  ((List.range 16).filter (fun k => k != c && s.chanEn p k false)).foldl (fun n k => n + s.reg Reg.RING_RES_SLOTS (chanInst p k false)) 0
/-- The sum of CRED over a port's receive channels other than `c` (R307). -/
def State.credSum (s : State) (p c : Nat) : Nat :=
  ((List.range 16).filter (fun k => k != c)).foldl (fun n k => n + s.reg Reg.RING_CRED (chanInst p k true)) 0

end Sys2Proof.Machine
end

