-- ==== Sys2Proof/Machine/RegRead.lean ====
section
/-! DEFINITION. The control port: who makes an access, which page and fields a word has, and what a read returns
(spec/17_register_pages.md R401 to R425 and the register tables of the other chapters). -/
namespace Sys2Proof.Machine

/-! ### The host of an access (R404, R338) -/

/-- Who makes an access: its FID, its host agent and the tenancy that agent is bound to. -/
structure Actor where
  fid : Nat
  agent : Option Nat
  ten : Option Nat
deriving DecidableEq, Repr

/-- The host behind an FID. -/
def State.actor (s : State) (fid : Nat) : Actor :=
  let n := s.agentOf fid
  { fid := fid, agent := n, ten := n.bind s.tenOfAgent }
/-- The postmaster is host agent 0. -/
def Actor.pm (x : Actor) : Bool := x.agent == some 0
/-- The access may reach more than R406 opens to every host. -/
def Actor.reaches (x : Actor) : Bool := x.pm || x.ten.isSome
/-- The copy of the selections that the access uses: its host agent's, or the one all unmapped identities share (R418). -/
def Actor.slot (x : Actor) : Nat := x.agent.getD 16
/-- The host is bound to a tenancy. -/
def Actor.boundTo (x : Actor) (t : Nat) : Bool := x.ten == some t
/-- The postmaster, or a host bound to a tenancy. -/
def Actor.mayActIn (x : Actor) (t : Nat) : Bool := x.pm || x.boundTo t

/-! ### Pages (Tables 17.7, 17.8) -/

/-- A register page: its kind and instance. -/
structure Page where
  kind : PageKind
  num : Nat := 0
deriving DecidableEq, Repr

/-- The page with a number; `none` for the reserved ones. -/
def pageAt (n : Nat) : Option Page :=
  if n = 0 then some ⟨.blk, 0⟩
  else if n = 1 then some ⟨.pwr, 0⟩
  else if n = 2 then some ⟨.mon, 0⟩
  else if n = 3 then some ⟨.rst, 0⟩
  else if n < 0x14 then some ⟨.ten, n - 4⟩
  else if n = 0x14 then some ⟨.dsp, 0⟩
  else if n = 0x15 then some ⟨.subq, 0⟩
  else if n = 0x16 then some ⟨.lib, 0⟩
  else if n = 0x17 then some ⟨.ftab, 0⟩
  else if n < 0x28 then some ⟨.lbx, n - 0x18⟩
  else if n = 0x28 then some ⟨.cache, 0⟩
  else if n = 0x29 then some ⟨.walk, 0⟩
  else if n = 0x2A then some ⟨.mport, 0⟩
  else if n < 0x2F then some ⟨.ring, n - 0x2B⟩
  else if n = 0x2F then some ⟨.meter, 0⟩
  else if n = 0x30 then some ⟨.fault, 0⟩
  else if n = 0x31 then some ⟨.dlog, 0⟩
  else if n = 0x32 then some ⟨.stamp, 0⟩
  else if n < 0x40 then none
  else if n < 0x80 then some ⟨[PageKind.prog, .time, .cond, .group].getD (n % 4) .group, (n - 0x40) / 4⟩
  else none

/-- The UNIT_TYPE of a page (Table 17.8). -/
def PageKind.unitType (k : PageKind) : Nat :=
  match k with
  | .blk => 1 | .pwr => 2 | .mon => 3 | .rst => 4 | .ten => 5 | .dsp => 6 | .subq => 7 | .lib => 8 | .ftab => 9 | .lbx => 10
  | .cache => 11 | .walk => 12 | .mport => 13 | .ring => 14 | .meter => 15 | .fault => 16 | .dlog => 17 | .stamp => 18
  | .prog => 0x20 | .time => 0x21 | .cond => 0x22 | .group => 0x23

/-- The domain of a page (Table 17.7). -/
def Page.dom (P : Page) : Nat :=
  match P.kind with
  | .blk | .pwr | .mon | .rst | .meter => domAON
  | .ten | .dsp | .subq | .lib | .ftab | .lbx | .fault | .dlog | .stamp => domDSP
  | .cache | .walk => domKVC
  | .mport => domMPT
  | .ring => if P.num < 2 then domRNA else domRNB
  | .prog | .time | .cond | .group => P.num

/-- The page's domain is ON, and no BLOCK reset runs unless the page is in AON (R407). -/
def State.pageOn (s : State) (P : Page) : Bool := P.dom == domAON || (s.domOn P.dom && !s.resets.block)

/-- The fields of a page: its tables, and ARR_SEL on the pages of an array group (R424). -/
def PageKind.fields (k : PageKind) : List FieldSpec :=
  match k with
  | .prog => progFields ++ groupFields
  | .time => timeFields ++ groupFields
  | .cond => condFields ++ groupFields
  | k => pageFields k

/-- The repetition of a field that lies at an offset. -/
def FieldSpec.at_ (f : FieldSpec) (off : Nat) : Option Nat :=
  if f.count ≤ 1 then (if off = f.off then some 0 else none)
  else if f.off ≤ off ∧ (off - f.off) % f.stride = 0 ∧ (off - f.off) / f.stride < f.count then some ((off - f.off) / f.stride)
  else none

/-- The fields of the word at an offset, each with its repetition. -/
def PageKind.wordAt (k : PageKind) (off : Nat) : List (FieldSpec × Nat) :=
  k.fields.filterMap (fun f => (f.at_ off).map (fun j => (f, j)))

/-- Two names of one field. -/
def FieldSpec.is (f g : FieldSpec) : Bool := f.id == g.id

/-! ### Instances and owners -/

/-- A selection register of the accessing host (R418). -/
def State.sel (s : State) (P : Page) (x : Actor) (f : FieldSpec) : Nat := s.reg f (32 * P.num + x.slot)

/-- The array a host has selected on a group's pages (R424). -/
def State.selArr (s : State) (P : Page) (x : Actor) : Nat := 64 * P.num + s.sel P x Reg.GROUP_ARR_SEL

/-- The instance of a field that an access names. -/
def State.instOf (s : State) (P : Page) (x : Actor) (f : FieldSpec) : Nat :=
  match f.scope with
  | .block => 0
  | .page => P.num
  | .agent => 32 * P.num + x.slot
  | .array => s.selArr P x
  | .ftArr => s.sel P x Reg.FTAB_FT_ARR
  | .pool => s.sel P x Reg.CACHE_POOL_SEL
  | .routine => s.sel P x Reg.LIB_RT_SEL
  | .submitter => s.sel P x Reg.DSP_SUB_SEL
  | .mailbag => s.sel P x Reg.DSP_MB_SEL
  | .tsDsp => s.sel P x Reg.DSP_TS_SEL
  | .queue => s.sel P x Reg.SUBQ_SQ_SEL
  | .chan => 32 * P.num + (let c := s.sel P x Reg.RING_CH_SEL; c % 16 + (if 16 ≤ c then 16 else 0))
  | .memCh => s.sel P x Reg.MPORT_CH_SEL
  | .tsMport => s.sel P x Reg.MPORT_TS_SEL
  | .meterTen => s.sel P x Reg.METER_MT_SEL
  | .stampTen => s.sel P x Reg.STAMP_ST_SEL
  | .flSel => s.sel P x Reg.FAULT_FL_SEL
  | .dlSel => s.sel P x Reg.DLOG_DL_SEL
  | .dom => s.sel P x Reg.PWR_DOM_SEL
  | .readerTen => x.ten.getD 16

/-- An array belongs to a tenancy: an enabled one that holds it, or, where none does, one whose units name it. -/
def State.arrOf (s : State) (t a : Nat) : Bool :=
  match s.tenOfArr a with
  | some u => u == t
  | none => s.holdsArr t a

/-- The tenancy's sequence has the recorded walk fault (R225). -/
def State.walkFaultOf (s : State) (t : Nat) : Bool :=
  match s.poolOf t (s.reg Reg.WALK_WF_SEQ) with
  | .ok _ => true
  | .error _ => false

/-- A field instance belongs to a tenancy. -/
def State.belongs (s : State) (P : Page) (f : FieldSpec) (i t : Nat) : Bool :=
  match f.scope with
  | .page => if P.kind == .ten || P.kind == .lbx then P.num == t else true
  | .array | .ftArr => s.arrOf t i
  | .pool => s.reg Reg.CACHE_OWNER i == t
  | .routine => decide (i < 256) || (s.routine i).owner == t
  | .submitter => s.reg Reg.DSP_SUB_TEN i == t
  | .mailbag => s.bagOf t i
  | .tsDsp | .tsMport | .meterTen | .stampTen | .flSel | .dlSel => i == t
  | .queue => i / 4 == t
  | .chan => s.reg Reg.RING_CH_TEN i == t
  | .block | .agent | .memCh | .dom | .readerTen => true

/-- A field instance belongs to the tenancy of the accessing host. -/
def State.owns (s : State) (P : Page) (x : Actor) (f : FieldSpec) (i : Nat) : Bool :=
  match x.ten with
  | some t => s.belongs P f i t
  | none => false

/-- The tenancy of the channel in a port's VIOL record: a receive channel for a packet, a send channel for a SEQ never sent and a credit
return (Table 12.2). -/
def State.violTen (s : State) (p : Nat) : Nat :=
  s.reg Reg.RING_CH_TEN (32 * p + (if s.reg Reg.RING_VIOL_REASON p < 5 then 16 else 0) + s.reg Reg.RING_VIOL_CH p)

/-- An array is one of the host's tenancy. -/
def Actor.seesArr (x : Actor) (s : State) (a : Nat) : Bool :=
  match x.ten with
  | some t => s.arrOf t a
  | none => false

/-- A host sees a field as other than zero; a field that names an array or a channel of another tenancy reads as zero (R343). -/
def State.sees (s : State) (P : Page) (x : Actor) (f : FieldSpec) (i : Nat) : Bool :=
  x.pm || (match f.vis with
    | .all | .perArray => true
    | .owner => s.owns P x f i
    | .pm => false
    | .walkFault => (match x.ten with | some t => s.walkFaultOf t | none => false)
    | .errTen => x.boundTo (s.reg Reg.MPORT_ERR_TEN)
    | .arrCur => x.seesArr s (s.reg Reg.RST_ARR_CUR)
    | .violCh => x.boundTo (s.violTen P.num)) &&
  -- The whole LBX page is closed to other hosts (R297).
  (P.kind != .lbx || x.mayActIn P.num)

/-- The object behind bit `b` of a register that holds one bit per array or per queue is the tenancy's (R415). -/
def State.bitOwned (s : State) (P : Page) (f : FieldSpec) (j t b : Nat) : Bool :=
  if f.is Reg.SUBQ_OP_PEND_LO then b / 4 == t
  else if f.is Reg.SUBQ_OP_PEND_HI then (32 + b) / 4 == t
  else if f.is Reg.FAULT_QUAR_MAP then s.arrOf t (32 * j + b)
  else if f.is Reg.PROG_EVT_ARR_LO || f.is Reg.TIME_EVT_ARR_LO || f.is Reg.COND_EVT_ARR_LO then s.arrOf t (64 * P.num + b)
  else if f.is Reg.PROG_EVT_ARR_HI || f.is Reg.TIME_EVT_ARR_HI || f.is Reg.COND_EVT_ARR_HI then s.arrOf t (64 * P.num + 32 + b)
  else true

/-- The bits of a field that the accessing host reaches (R415). -/
def State.bitMask (s : State) (P : Page) (x : Actor) (f : FieldSpec) (j v : Nat) : Nat :=
  if x.pm then v
  else match x.ten with
    | none => v
    | some t => (List.range f.width).foldl (fun n b => if bitOf v b && s.bitOwned P f j t b then n + 2 ^ b else n) 0

/-! ### Views of unit state -/

/-- The code of a domain state (Table 16.9). -/
def DomState.code (d : DomState) : Nat :=
  match d with
  | .off => 0 | .poweringUp => 1 | .run => 2 | .rest => 3 | .retain => 4 | .poweringDown => 5 | .failed => 6

/-- A half of the shared store has work: a running task has an engine armed against it, a memory read is to land in it, a message
is being sent from it, or packets wait to land in it (log 35). -/
def State.halfWorks (s : State) (d : Nat) : Bool :=
  s.arrs.any (fun e => e.2.task.isSome && e.2.engines.any (fun x => x.2.arm.armed && decide (0 < x.2.arm.rate) && domSS0 + x.2.arm.half == d)) ||
  s.mport.chans.any (fun e => (e.2.wait ++ e.2.out.map (·.2)).any (fun x => match x.dst with
    | .shared a => halfDom a == d
    | _ => false)) ||
  s.ring.any (fun e => e.2.msgs.any (fun m => halfDom m.payload == d) ||
    e.2.recv.any (fun r => !r.2.stash.isEmpty && halfDom (s.bufAddr e.1 r.1 r.2.k) == d))

/-- A domain that is ON has work (R375, R376; log 35): a group while a task runs on one of its arrays or one is under ARRAY reset,
DSP while it holds a command, KVC while it initialises a pool, MPT while transactions are outstanding, a ring while a link of it
trains, retrains or is up. -/
def State.domWorks (s : State) (d : Nat) : Bool :=
  if d < 16 then s.arrs.any (fun e => groupOf e.1 == d && e.2.task.isSome) || (s.resets.arr.map groupOf) == some d
  else if d = domSS0 ∨ d = domSS1 then s.halfWorks d
  else if d = domDSP then !s.disp.cmds.isEmpty || s.disp.queues.any (fun e => !e.2.entries.isEmpty)
  else if d = domKVC then (List.range 16).any (fun p => s.flag Reg.CACHE_INIT_BUSY p)
  else if d = domMPT then s.mport.chans.any (fun e => !e.2.out.isEmpty || !e.2.wait.isEmpty)
  else if d = domRNA ∨ d = domRNB then
    s.ring.any (fun e => decide ((if e.1 < 2 then domRNA else domRNB) = d) && (e.2.link == .training || e.2.link == .up || e.2.link == .retrain))
  else false

/-- The state of a domain as DOM_STATE shows it: RUN in place of REST while it has work. -/
def State.domShown (s : State) (d : Nat) : Nat :=
  match (s.dom d).state with
  | .rest => if s.domWorks d then DomState.run.code else DomState.rest.code
  | x => x.code

/-- The causes of hold present: BROWNOUT, THERMAL, HOST (Table 16.9). -/
def State.holdWhy (s : State) : Nat :=
  natOfBool s.mon.brownout + 2 * natOfBool s.mon.hot + 4 * s.reg Reg.PWR_HOLD_REQ

/-- BLK. -/
def State.viewBlk (s : State) (x : Actor) (f : FieldSpec) (j : Nat) : Nat :=
  if f.is Reg.BLK_BLOCK_ID_LO then s.fuses.blockId % 2 ^ 32
  else if f.is Reg.BLK_BLOCK_ID_HI then s.fuses.blockId / 2 ^ 32
  else if f.is Reg.BLK_IDCODE then s.fuses.idcode
  else if f.is Reg.BLK_STEPPING then s.fuses.stepping
  else if f.is Reg.BLK_MY_FID then x.fid
  else if f.is Reg.BLK_MY_AGENT then x.agent.getD 0
  else if f.is Reg.BLK_MAPPED then natOfBool x.agent.isSome
  else if f.is Reg.BLK_IS_PM then natOfBool x.pm
  else if f.is Reg.BLK_MY_TEN then x.ten.getD 0
  else if f.is Reg.BLK_BOUND then natOfBool x.ten.isSome
  else if f.is Reg.BLK_VALID && j == 0 then 1
  else if f.is Reg.BLK_EVQ_USED then s.ctl.evq.foldl (fun n e => n + e.2.msgs.length) 0
  else if f.is Reg.BLK_EVQ_CREDITS then s.ctl.credits
  else s.reg f 0 j

/-- PWR. DOM_SEL 24 to 31 shows zero. -/
def State.viewPwr (s : State) (f : FieldSpec) (i : Nat) : Nat :=
  let d := s.dom i
  if f.scope == .dom && decide (24 ≤ i) then 0
  else if f.is Reg.PWR_DOM_REQ then d.req
  else if f.is Reg.PWR_DOM_STATE then s.domShown i
  else if f.is Reg.PWR_REFUSED then natOfBool d.refused
  else if f.is Reg.PWR_WHY then d.why
  else if f.is Reg.PWR_V_REQ then d.vcode
  else if f.is Reg.PWR_HOLD then natOfBool (s.holdWhy != 0)
  else if f.is Reg.PWR_HOLD_WHY then s.holdWhy
  else s.reg f i

/-- MON: the reading that MON_IDX and MON_KIND select. -/
def State.viewMon (s : State) (P : Page) (x : Actor) (f : FieldSpec) (i : Nat) : Nat :=
  let idx := s.sel P x Reg.MON_MON_IDX
  let k := s.sel P x Reg.MON_MON_KIND
  let at_ := fun (l : List (BitVec 16)) => (l.getD idx 0).toNat
  if f.is Reg.MON_READING then
    if k = 0 then at_ s.mon.thermal else if k = 1 then at_ s.mon.voltage else if k = 2 then at_ s.mon.paceArr else 0
  else if f.is Reg.MON_READING2 then (if k = 2 then at_ s.mon.paceStore else 0)
  else s.reg f i

/-- RST. -/
def State.viewRst (s : State) (f : FieldSpec) (i : Nat) : Nat :=
  if f.is Reg.RST_BLOCK_BUSY then natOfBool s.resets.block
  else if f.is Reg.RST_TEN_BUSY then natOfBool s.resets.ten.isSome
  else if f.is Reg.RST_ARR_BUSY then natOfBool s.resets.arr.isSome
  else if f.is Reg.RST_REJOIN_PEND then natOfBool (s.cond (s.reg Reg.RST_ARR_CUR)).rejoin
  else s.reg f i

/-- DSP. -/
def State.viewDsp (s : State) (f : FieldSpec) (i : Nat) : Nat :=
  let r := s.subRec i
  if f.is Reg.DSP_SUB_HC_LO then r.hc % 2 ^ 32
  else if f.is Reg.DSP_SUB_HC_HI then r.hc / 2 ^ 32
  else if f.is Reg.DSP_WIN_USED then r.window.length
  else if f.is Reg.DSP_WIN_INFLIGHT then (r.window.filter (fun e => !e.done)).length
  else if f.is Reg.DSP_SUB_FLOOR_LO then r.floor % 2 ^ 32
  else if f.is Reg.DSP_SUB_FLOOR_HI then r.floor / 2 ^ 32
  else if f.is Reg.DSP_MB_COUNT then (s.bag i).handles.length
  else if f.is Reg.DSP_MB_WAITERS then min ((s.bag i).takers.length + (s.bag i).putters.length + s.heldPuts i) 63
  else if f.is Reg.DSP_COL_GEN then (s.collection i).gen
  else if f.is Reg.DSP_COL_ARRIVED then (s.collection i).arrived.length
  else if f.is Reg.DSP_COL_NEED then (s.usable i).length
  else if f.is Reg.DSP_DISP_HOLD then natOfBool (s.dispHold i)
  else if f.is Reg.DSP_RCPT_USED then s.receiptUse i
  else s.reg f i

/-- SUBQ. -/
def State.viewSubq (s : State) (f : FieldSpec) (i : Nat) : Nat :=
  let n := (s.queue i).entries.length
  if f.is Reg.SUBQ_DEPTH then n
  else if f.is Reg.SUBQ_HELD then natOfBool (s.queueHeld i)
  else if f.is Reg.SUBQ_TEN then i / 4
  else if f.is Reg.SUBQ_FREE then Config.queueDepth - n
  else s.reg f i

/-- LIB. -/
def State.viewLib (s : State) (P : Page) (x : Actor) (f : FieldSpec) (i : Nat) : Nat :=
  let r := s.routine i
  let rom := decide (i < 256)
  if f.is Reg.LIB_KIND then s.routineKind i
  else if f.is Reg.LIB_NARROW_OK then natOfBool (s.narrowOk i)
  else if f.is Reg.LIB_VENDOR then natOfBool (rom && vendorKind i != 0)
  else if f.is Reg.LIB_OWNER then r.owner
  else if f.is Reg.LIB_OLD_LIVE then natOfBool (!r.old.isEmpty)
  else if f.is Reg.LIB_RT_BASE then (if rom then (if vendorKind i = 0 then 0 else romBase i) else r.base)
  else if f.is Reg.LIB_RT_LEN then (if rom then (if vendorKind i = 0 then 0 else Config.romLen i) else wordsLen r.words)
  else if f.is Reg.LIB_RT_BUNDLES then (if rom then (if vendorKind i = 0 then 0 else Config.romBundles i) else r.words.length)
  else if f.is Reg.LIB_ROM_VER then s.fuses.romVerLib
  else if f.is Reg.LIB_RAM_FREE then s.ramFree
  else if f.is Reg.LIB_LARGEST_FREE then s.ramLargest
  else if f.is Reg.LIB_LW_DATA then
    let h := s.sel P x Reg.LIB_LW_ADDR / 2 * 2
    s.libHalf x.ten x.pm h + 2 ^ 16 * s.libHalf x.ten x.pm (h + 1)
  else s.reg f i

/-- The slots of a bank whose image satisfies `p`, as a mask. -/
def Banks.mask (b : Banks) (bank : Nat) (p : List Word → Bool) : Nat :=
  (List.range 16).foldl (fun n k => if p (b.image bank k) then n + 2 ^ k else n) 0

/-- FTAB. A word of the window beyond the image, 288 to 511, reads 0 (DESIGN CHOICE, log 49). -/
def State.viewFtab (s : State) (P : Page) (x : Actor) (f : FieldSpec) (i : Nat) : Nat :=
  let b := (s.arr i).banks
  let steps := fun n => b.mask n (fun m => imgSteps m != 0)
  let segs := fun n => b.mask n (fun m => imgSegs m != 0)
  if f.is Reg.FTAB_ACTIVE then natOfBool b.active
  else if f.is Reg.FTAB_LOAD_PEND then
    natOfBool ((s.arr i).loads.any (fun l => match l with | .tables _ _ _ => true | _ => false))
  else if f.is Reg.FTAB_EPOCH_CNT then b.epochs
  else if f.is Reg.FTAB_PROG_VALID0 then steps 0
  else if f.is Reg.FTAB_TAB_VALID0 then segs 0
  else if f.is Reg.FTAB_PROG_VALID1 then steps 1
  else if f.is Reg.FTAB_TAB_VALID1 then segs 1
  else if f.is Reg.FTAB_ROM_VER then s.fuses.romVerFtab
  else if f.is Reg.FTAB_TA_LEVEL then s.fuses.taLevel
  else if f.is Reg.FTAB_LOAD_CNT then b.loads
  else if f.is Reg.FTAB_FT_WIN_DATA then
    (imgWord (b.image (s.sel P x Reg.FTAB_WIN_BANK) (s.sel P x Reg.FTAB_WIN_SLOT)) (s.sel P x Reg.FTAB_WIN_WORD)).toNat
  else s.reg f i

/-- LBX: VALUE of slot j is letterbox LBW_BASE + j of the tenancy's range. -/
def State.viewLbx (s : State) (P : Page) (x : Actor) (f : FieldSpec) (i j : Nat) : Nat :=
  if f.is Reg.LBX_LB_COUNT then s.reg Reg.TEN_LB_SIZE P.num
  else if f.is Reg.LBX_VALUE then
    let n := s.sel P x Reg.LBX_LBW_BASE + j
    if s.lbxIn P.num n then (s.lb (s.lbxAbs P.num n)).toNat else 0
  else s.reg f i

/-- The counters of Table 14.1, in its order. -/
def Account.counters (c : Account) : List Nat :=
  [c.beats, c.frozen, c.memBytes, c.ringBytes, c.energyUj / 1000, c.commands]

/-- METER. -/
def State.viewMeter (s : State) (f : FieldSpec) (i j : Nat) : Nat :=
  let a := s.acct i
  if f.is Reg.METER_CNT_LO then a.counters.getD j 0 % 2 ^ 32
  else if f.is Reg.METER_CNT_HI then a.counters.getD j 0 / 2 ^ 32
  else if f.is Reg.METER_UNASSIGNED_LO then s.meter.unassignedUj / 1000 % 2 ^ 32
  else if f.is Reg.METER_UNASSIGNED_HI then s.meter.unassignedUj / 1000 / 2 ^ 32
  else if f.is Reg.METER_MEPOCH then a.mepoch
  else if f.is Reg.METER_READ_SEQ then a.readSeq
  else if f.is Reg.METER_KEY_ID then a.keyId
  else if f.is Reg.METER_KEY_VALID then natOfBool a.key.isSome
  else s.reg f i j

/-- The bytes of a fault record (Table 15.5). -/
def FaultRec.bytes (r : FaultRec) : List Byte :=
  leBytes 4 (r.cls + 2 ^ 4 * r.ten + 2 ^ 8 * r.arr + 2 ^ 18 * r.action + 2 ^ 20 * r.attempt + 2 ^ 23 * natOfBool r.moved + 2 ^ 31) ++
  leBytes 4 (r.receipt + 2 ^ 16 * r.routine) ++ leBytes 6 r.seqno ++ leBytes 2 r.submitter ++ leBytes 8 r.detail ++
  leBytes 4 r.beat ++ leBytes 4 r.time
/-- The bytes of a dead-letter entry (Table 15.6). -/
def DeadLetter.bytes (e : DeadLetter) : List Byte :=
  leBytes 4 (e.cause + 2 ^ 8 * e.slot + 2 ^ 11 * e.ten + 2 ^ 15 * e.arr + 2 ^ 25 * e.attempt + 2 ^ 31) ++
  leBytes 4 (e.pc + 2 ^ 20 * e.routine) ++ leBytes 4 e.beat ++ leBytes 4 e.receipt ++ leBytes 8 e.word ++ leBytes 8 0

/-- The bytes of a receipt-log entry (Table 15.2). -/
def State.receiptBytes (s : State) (t : Task) : List Byte :=
  let c := ((s.cmd t.cid).map (·.bytes)).getD 0
  let base := if t.routine < 256 then romBase t.routine else s.routineBase t.routine t.version
  leBytes 4 (t.ten + 2 ^ 4 * t.queue + 2 ^ 10 * t.state + 2 ^ 12 * t.attempt + 2 ^ 15 * natOfBool t.moved + 2 ^ 16 * t.array) ++
  leBytes 4 (t.routine + 2 ^ 16 * cmdKind c) ++ leBytes 6 (cmdSeqno c) ++ leBytes 2 (cmdSubmitter c) ++
  leBytes 6 t.argAddr ++ leBytes 2 t.argLen ++ leBytes 4 t.index ++ leBytes 4 t.tasks ++
  leBytes 4 (t.params.tile % 2 ^ 20 + 2 ^ 20 * t.params.entry) ++
  leBytes 4 (t.params.pos % 2 ^ 18 + 2 ^ 18 * t.params.head + 2 ^ 28 * t.params.pass + 2 ^ 30 * t.params.kind) ++
  leBytes 4 (base % 2 ^ 21) ++
  leBytes 4 (t.journal.length + 2 ^ 9 * natOfBool t.jover + 2 ^ 10 * natOfBool (!t.snaps.isEmpty)) ++
  leBytes 4 t.staged ++ leBytes 4 t.tbeats ++ leBytes 8 0

/-- Word j of a byte string. -/
def wordOf (bs : List Byte) (j : Nat) : Nat := leNat ((bs.drop (4 * j)).take 4)

/-- Arrays that are quarantined. -/
def State.quarantined (s : State) : List Nat := (s.conds.filter (fun e => e.2.quarantined)).map (·.1)

/-- FAULT. -/
def State.viewFault (s : State) (f : FieldSpec) (i j : Nat) : Nat :=
  let p := s.faultPart i
  if f.is Reg.FAULT_FL_COUNT then p.recs.length
  else if f.is Reg.FAULT_FL_LOST then p.lost
  else if f.is Reg.FAULT_FL_REC then ((p.recs.head?).map (fun r => wordOf r.bytes j)).getD 0
  else if f.is Reg.FAULT_QUAR_MAP then
    (List.range 32).foldl (fun n b => if s.quarantined.contains (32 * j + b) then n + 2 ^ b else n) 0
  else if f.is Reg.FAULT_QUAR_CNT then s.quarantined.length
  else if f.is Reg.FAULT_RCPT_USED then (s.disp.tasks.filter (fun e => e.2.isSome)).length
  else if f.is Reg.FAULT_RC_WORD then
    ((s.task (s.reg Reg.FAULT_RC_IDX)).map (fun t => wordOf (s.receiptBytes t) j)).getD 0
  else s.reg f i j

/-- DLOG. -/
def State.viewDlog (s : State) (f : FieldSpec) (i j : Nat) : Nat :=
  let p := s.deadPart i
  if f.is Reg.DLOG_DL_COUNT then p.recs.length
  else if f.is Reg.DLOG_DL_LOST then p.lost
  else if f.is Reg.DLOG_DL_REC then ((p.recs.head?).map (fun e => wordOf e.bytes j)).getD 0
  else if f.is Reg.DLOG_DL_WAITING then s.arrs.foldl (fun n e => n + (e.2.dead.filter (fun d => d.ten == i)).length) 0
  else s.reg f i j

/-- STAMP. -/
def State.viewStamp (s : State) (f : FieldSpec) (i : Nat) : Nat :=
  if f.is Reg.STAMP_TB_NOW_LO then s.tb.count % 2 ^ 32
  else if f.is Reg.STAMP_TB_NOW_HI then s.tb.count / 2 ^ 32
  else if f.is Reg.STAMP_TB_VALID then natOfBool s.tb.valid
  else s.reg f i

/-- RING. -/
def State.viewRing (s : State) (P : Page) (f : FieldSpec) (i : Nat) : Nat :=
  if f.is Reg.RING_LINK_STATE then
    (match (s.port P.num).link with | .down => 0 | .training => 1 | .up => 2 | .retrain => 3 | .failed => 4)
  else if f.is Reg.RING_RES_FREE then 25 - s.resSlots P.num 16
  else if f.is Reg.RING_CRED_FREE then 1024 - s.credSum P.num 16
  else s.reg f i

/-- The code of a sequencer state (Table 10.19). -/
def SeqState.code (q : SeqState) : Nat :=
  match q with
  | .idle => 0 | .running => 1 | .ending => 2 | .halted => 3

/-- The item that a register window shows (Table 10.20). -/
def ProgRegs.window (r : ProgRegs) (cls idx : Nat) : Nat :=
  if cls = 0 then (Tbl.get 0 r.s idx).toNat
  else if cls = 1 then (Tbl.get {} r.pt idx).value
  else if cls = 2 then (Tbl.get {} r.pt idx).inc.toNat
  else if cls = 3 then (Tbl.get 0 r.ct idx).toNat
  else if cls = 4 then (let c := Tbl.get {} r.cmp idx; natOfBool c.result + 2 * c.rel)
  else if cls = 5 then (Tbl.get 0 r.desc idx &&& descMask (idx % 4)).toNat
  else if cls = 6 then [r.amu.toNat, r.agrd.toNat, r.amsk, r.acol].getD idx 0
  else 0

/-- PROG, for array `a`. How many words of a vendor routine the instruction queue holds no rule says (log 8). The window selection of a
running task is the one in force at its start (R266). -/
def State.viewProg (s : State) (x : Actor) (f : FieldSpec) (i a : Nat) : Nat :=
  let A := s.arr a
  let q := A.seq
  if f.is Reg.PROG_STATE then q.state.code
  else if f.is Reg.PROG_TEN then (if A.task.isSome then s.tenRunning a else 0)
  else if f.is Reg.PROG_ROUTINE then q.routine
  else if f.is Reg.PROG_ENTRY then q.entry
  else if f.is Reg.PROG_DEPTH then q.calls.length
  else if f.is Reg.PROG_REP_DEPTH then q.reps.length
  else if f.is Reg.PROG_PC then q.pcWord
  else if f.is Reg.PROG_RECEIPT then A.task.getD 0
  else if f.is Reg.PROG_QFILL then
    if q.state == .idle then 0 else if q.routine < 256 then s.freeWord.toNat % 513 else q.queue.length
  else if f.is Reg.PROG_DL_CNT then A.ctr.dlCount
  else if f.is Reg.PROG_WIN_DATA then
    let w := if A.task.isSome then A.modes.win else s.winSel a
    A.regs.window (w / 256) (w % 256)
  else s.reg f i

/-- The cause bits of a freeze: FEED, DRAIN, WAIT, SLIP, EXT (R32, R46). -/
def Stalled.cause (x : Stalled) : Nat :=
  match x with
  | .feederRead _ _ _ | .dotRead _ | .axpyRead _ => 0
  | .drainOut _ _ | .outbound _ | .atomic _ | .staging => 1
  | .lbWait _ _ | .mbTake _ _ | .mbPut _ _ | .arrive | .nextBase _ => 2
/-- The causes present on an array: all that have not cleared (R32, R46). -/
def State.causes (s : State) (a : Nat) : Nat :=
  let A := s.arr a
  if !s.beating a then 0
  else [0, 1, 2].foldl (fun n k => if (s.present a).any (fun x => x.cause == k) then n + 2 ^ k else n) 0 +
    8 * natOfBool A.slip + 16 * natOfBool (s.extStop a)
/-- The object of a WAIT freeze and its kind. -/
def State.waitObj (s : State) (a : Nat) : Nat × Nat :=
  match (s.present a).find? (fun x => x.cause == 2) with
  | some (.lbWait o _) => (o, 0)
  | some (.mbTake o _) => (o, 1)
  | some (.mbPut o _) => (o, 1)
  | some (.nextBase e) => (match (s.engine a e).cur with | .nextBase _ m => (m, 1) | _ => (0, 1))
  | some .arrive => (s.tenRunning a, 2)
  | _ => (0, 0)

/-- The class and number of a logged destination (Table 2.6). -/
def Dest.code (d : Dest) : Nat × Nat :=
  match d with
  | .s n => (0, n) | .v n => (1, n) | .pt n => (2, n) | .ct n => (3, n) | .cmp n => (4, n) | .grp n => (5, n) | .store a => (6, a)

/-- TIME, for array `a`. -/
def State.viewTime (s : State) (P : Page) (x : Actor) (f : FieldSpec) (i a : Nat) : Nat :=
  let A := s.arr a
  let e := A.audit[s.sel P x Reg.TIME_AUD_IDX]?
  let ent := fun (g : AuditEntry → Nat) => (e.map g).getD 0
  if f.is Reg.TIME_BT_COUNT_LO then A.ctr.beats % 2 ^ 32
  else if f.is Reg.TIME_BT_COUNT_HI then A.ctr.beats / 2 ^ 32
  else if f.is Reg.TIME_BT_FROZEN_LO then A.ctr.frozen % 2 ^ 32
  else if f.is Reg.TIME_BT_FROZEN_HI then A.ctr.frozen / 2 ^ 32
  else if f.is Reg.TIME_BT_HOLD then A.ctr.hold
  else if f.is Reg.TIME_FROZEN then natOfBool (s.causes a != 0)
  else if f.is Reg.TIME_CAUSE then s.causes a
  else if f.is Reg.TIME_WAIT_OBJ then (s.waitObj a).1
  else if f.is Reg.TIME_OBJ_KIND then (s.waitObj a).2
  else if f.is Reg.TIME_COUNT then A.audit.length
  else if f.is Reg.TIME_FULL then natOfBool (decide (auditDepth ≤ A.audit.length))
  else if f.is Reg.TIME_LOST then A.auditLost
  else if f.is Reg.TIME_AUD_BEAT then ent (·.beat)
  else if f.is Reg.TIME_PC then ent (·.pc)
  else if f.is Reg.TIME_SLOT then ent (·.slot)
  else if f.is Reg.TIME_KIND then ent (·.kind)
  else if f.is Reg.TIME_SHORT then ent (·.short)
  else if f.is Reg.TIME_HELD then ent (fun y => natOfBool y.held)
  else if f.is Reg.TIME_VALID then natOfBool e.isSome
  else if f.is Reg.TIME_DEST then ent (fun y => y.dest.code.2)
  else if f.is Reg.TIME_DCLASS then ent (fun y => y.dest.code.1)
  else s.reg f i

/-- COND, for array `a`. -/
def State.viewCond (s : State) (f : FieldSpec) (i a : Nat) : Nat :=
  let c := (s.arr a).ctr
  let k := s.cond a
  if f.is Reg.COND_NARROW then natOfBool (s.narrow a)
  else if f.is Reg.COND_BYP_COL then (s.bypCol a).getD 0
  else if f.is Reg.COND_BYP_SRC then natOfBool ((fuseCol (s.fuseRec a)).isNone && k.applied.isSome)
  else if f.is Reg.COND_DEAD then natOfBool (s.isDead a)
  else if f.is Reg.COND_FUSE_PERR then natOfBool (fuseBad (s.fuseRec a))
  else if f.is Reg.COND_FUSE_REC then s.fuseRec a
  else if f.is Reg.COND_TALLY_RUNS then c.tallyRuns
  else if f.is Reg.COND_TALLY_MISS_CNT then c.tallyMiss
  else if f.is Reg.COND_TALLY_SKIP then c.tallySkip
  else if f.is Reg.COND_MISS_ID then c.missId
  else if f.is Reg.COND_MISS_ROW then c.missRow
  else if f.is Reg.COND_SOURCE then natOfBool c.missSource
  else if f.is Reg.COND_VALID then natOfBool c.missValid
  else if f.is Reg.COND_MISS_DELTA then c.missDelta.toNat
  else if f.is Reg.COND_BANK_REPEAT then c.bankRepeat
  else if f.is Reg.COND_SB_EN then natOfBool k.softEn
  else if f.is Reg.COND_SB_COL then k.softCol
  else if f.is Reg.COND_SB_PEND then natOfBool k.softPend
  else s.reg f i

/-- The value of a field instance, wherever the machine holds it. -/
def State.view (s : State) (P : Page) (x : Actor) (f : FieldSpec) (i j : Nat) : Nat :=
  if f.scope == .agent then s.reg f i
  else match P.kind with
    | .blk => s.viewBlk x f j
    | .pwr => s.viewPwr f i
    | .mon => s.viewMon P x f i
    | .rst => s.viewRst f i
    | .ten => if f.is Reg.TEN_USABLE then (s.usable P.num).length else s.reg f i j
    | .dsp => s.viewDsp f i
    | .subq => s.viewSubq f i
    | .lib => s.viewLib P x f i
    | .ftab => s.viewFtab P x f i
    | .lbx => s.viewLbx P x f i j
    | .cache => if f.is Reg.CACHE_FENCE_PEND then (s.fencedFrames i).length else s.reg f i
    | .walk => if f.is Reg.WALK_INFLIGHT then s.cache.walks.length else s.reg f i
    | .mport =>
      if f.is Reg.MPORT_OUTSTANDING then (s.chan i).out.length
      else if f.is Reg.MPORT_STG_USED then s.stagedUse i false
      else if f.is Reg.MPORT_OVF_USED then s.stagedUse i true
      else s.reg f i
    | .ring => s.viewRing P f i
    | .meter => s.viewMeter f i j
    | .fault => s.viewFault f i j
    | .dlog => s.viewDlog f i j
    | .stamp => s.viewStamp f i
    | .prog => s.viewProg x f i (s.selArr P x)
    | .time => s.viewTime P x f i (s.selArr P x)
    | .cond => s.viewCond f i (s.selArr P x)
    | .group => s.reg f i

/-! ### Reads -/

/-- The class C fields that AON shadows hold for pages outside AON (R375). -/
def shadowed (f : FieldSpec) : Bool :=
  f.is Reg.FAULT_QUAR_MAP || f.is Reg.FAULT_QUAR_CNT || f.is Reg.COND_SB_EN || f.is Reg.COND_SB_COL || f.is Reg.COND_SB_PEND ||
  f.is Reg.COND_NARROW || f.is Reg.COND_BYP_COL || f.is Reg.COND_BYP_SRC || f.is Reg.COND_DEAD || f.is Reg.COND_FUSE_PERR

/-- The fields of a word that an access reaches: all of them, or the shadowed ones while the page's domain is not ON (R407). -/
def State.fieldsAt (s : State) (P : Page) (off : Nat) : List (FieldSpec × Nat) :=
  let l := P.kind.wordAt off
  if s.pageOn P then l else l.filter (fun x => shadowed x.1)

/-- What a host reads of one field. -/
def State.readField (s : State) (P : Page) (x : Actor) (f : FieldSpec) (j : Nat) : Nat :=
  let i := s.instOf P x f
  if f.acc == .wo || !s.sees P x f i then 0 else s.bitMask P x f j (s.view P x f i j % 2 ^ f.width)

/-- The page number of a page. -/
def Page.no (P : Page) : Nat :=
  match P.kind with
  | .blk => 0 | .pwr => 1 | .mon => 2 | .rst => 3 | .ten => 4 + P.num | .dsp => 0x14 | .subq => 0x15 | .lib => 0x16 | .ftab => 0x17
  | .lbx => 0x18 + P.num | .cache => 0x28 | .walk => 0x29 | .mport => 0x2A | .ring => 0x2B + P.num | .meter => 0x2F
  | .fault => 0x30 | .dlog => 0x31 | .stamp => 0x32
  | .prog => 0x40 + 4 * P.num | .time => 0x41 + 4 * P.num | .cond => 0x42 + 4 * P.num | .group => 0x43 + 4 * P.num

/-- The event context a host reaches (R420). -/
def Actor.evtCtx (x : Actor) : Option Nat := if x.pm then some ctxBlock else x.ten

/-- A host holds EXPERT on a page (R414). -/
def State.hasExpert (s : State) (P : Page) (x : Actor) : Bool := s.ctl.expert.contains (P.no * 17 + x.slot)

/-- A TEN or LBX page is closed to the hosts of another tenancy: it reads as zero and ignores writes (R297, R354). -/
def Page.closedTo (P : Page) (x : Actor) : Bool := (P.kind == .ten || P.kind == .lbx) && x.ten.isSome && !x.mayActIn P.num

/-- A read of a common word (Table 17.5). -/
def State.readCommon (s : State) (P : Page) (x : Actor) (off : Nat) : Nat :=
  if P.closedTo x then 0 else
  let c := match x.evtCtx with | some n => s.ctx P.no n | none => {}
  if off = 0x000 then P.num + 2 ^ 16 * P.kind.unitType
  else if off = 0x004 then s.fuses.revision + 2 ^ 16 * 3
  else if off = 0x008 then 1 + 16 * natOfBool (s.hasExpert P x)
  else if off = 0x00C then
    2 * natOfBool (s.ctl.expert.any (fun e => e / 17 == P.no)) + 4 * natOfBool (c.out != 0) + 8
  else if off = 0x010 then c.raw.toNat
  else if off = 0x014 then c.en.toNat
  else if off = 0x018 then c.out.toNat
  else if off = 0x01C then c.route.toNat
  else 0

/-- The HI field that a read of a LO field latches (R418). -/
def latchedHi (f : FieldSpec) : Option FieldSpec :=
  ([(Reg.TIME_BT_COUNT_LO, Reg.TIME_BT_COUNT_HI), (Reg.TIME_BT_FROZEN_LO, Reg.TIME_BT_FROZEN_HI),
    (Reg.MPORT_RD_BYTES_LO, Reg.MPORT_RD_BYTES_HI), (Reg.MPORT_WR_BYTES_LO, Reg.MPORT_WR_BYTES_HI),
    (Reg.RING_TX_BYTES_LO, Reg.RING_TX_BYTES_HI), (Reg.RING_RX_BYTES_LO, Reg.RING_RX_BYTES_HI),
    (Reg.METER_CNT_LO, Reg.METER_CNT_HI), (Reg.METER_UNASSIGNED_LO, Reg.METER_UNASSIGNED_HI),
    (Reg.STAMP_TB_NOW_LO, Reg.STAMP_TB_NOW_HI), (Reg.TEN_ARR_UNITS_LO, Reg.TEN_ARR_UNITS_HI),
    (Reg.SUBQ_OP_PEND_LO, Reg.SUBQ_OP_PEND_HI), (Reg.PROG_EVT_ARR_LO, Reg.PROG_EVT_ARR_HI),
    (Reg.TIME_EVT_ARR_LO, Reg.TIME_EVT_ARR_HI), (Reg.COND_EVT_ARR_LO, Reg.COND_EVT_ARR_HI)].find? (fun p => p.1.is f)).map (·.2)
/-- The field is a latched HI field: the high word of a 64-bit pair other than BLOCK_ID. -/
def isLatchedHi (f : FieldSpec) : Bool :=
  f.is Reg.TIME_BT_COUNT_HI || f.is Reg.TIME_BT_FROZEN_HI || f.is Reg.MPORT_RD_BYTES_HI || f.is Reg.MPORT_WR_BYTES_HI ||
  f.is Reg.RING_TX_BYTES_HI || f.is Reg.RING_RX_BYTES_HI || f.is Reg.METER_CNT_HI || f.is Reg.METER_UNASSIGNED_HI ||
  f.is Reg.STAMP_TB_NOW_HI || f.is Reg.TEN_ARR_UNITS_HI || f.is Reg.SUBQ_OP_PEND_HI || f.is Reg.PROG_EVT_ARR_HI ||
  f.is Reg.TIME_EVT_ARR_HI || f.is Reg.COND_EVT_ARR_HI

/-- Where a host's latch of the word at an offset of a page is kept. -/
def latchKey (P : Page) (x : Actor) (off : Nat) : Nat := (x.slot * 256 + P.no) * 4096 + off

/-- What a host reads of one field of the word at an offset, a latched HI field from its latch. -/
def State.readAt (s : State) (P : Page) (x : Actor) (off : Nat) (e : FieldSpec × Nat) : Nat :=
  if isLatchedHi e.1 then Tbl.get 0 s.ctl.latches (latchKey P x off) else s.readField P x e.1 e.2

/-- The word a host reads at an offset of a page. -/
def State.readWord (s : State) (P : Page) (x : Actor) (off : Nat) : Nat :=
  (s.fieldsAt P off).foldl (fun n e => n + s.readAt P x off e * 2 ^ e.1.lsb) 0

/-- A read of a LO word latches the HI word for the reading host (R418). -/
def State.latch (s : State) (P : Page) (x : Actor) (off : Nat) : State :=
  (s.fieldsAt P off).foldl (fun (s : State) e => match latchedHi e.1 with
    | some h => { s with ctl := { s.ctl with latches := Tbl.set 0 s.ctl.latches (latchKey P x (off + 4)) (s.readField P x h e.2) } }
    | none => s) s

/-- A read of a letterbox slot beyond the tenancy's range raises LB_RANGE (R297). -/
def State.lbxRange (s : State) (P : Page) (x : Actor) (off : Nat) : State :=
  let j := (off - 0x080) / 8
  if P.kind == .lbx && decide (0x080 ≤ off) && decide (off < 0x800) && x.mayActIn P.num &&
      !s.lbxIn P.num (s.sel P x Reg.LBX_LBW_BASE + j) then s.raise (pgLBX P.num) 1 (some P.num)
  else s

/-- What a read does beside answering: it latches, it may meet a slot beyond a range, and a free value it shows is drawn. -/
def State.readEffects (s : State) (P : Page) (x : Actor) (off : Nat) : State :=
  let s := (s.latch P x off).lbxRange P x off
  if (P.kind.wordAt off).any (fun e => e.1.is Reg.PROG_QFILL) then s.drew else s

/-! ### Answers (R402, R412) -/

/-- Status codes of the control port (Table 17.2). -/
def ansOK : Nat := 0
def ansDropped : Nat := 1
def ansViol : Nat := 2
def ansOff : Nat := 3

/-- The port answers a request. -/
def State.answer (s : State) (status data : Nat) : State :=
  { s with ctl := { s.ctl with answer := { status := status, data := BitVec.ofNat 32 data } } }

/-- A control-port violation (R412). -/
def State.portViol (s : State) (fid addr reason : Nat) : State :=
  let s := s.bump Reg.BLK_PV_CNT
  let s := if s.flag Reg.BLK_PV_VALID then s
    else (((s.setReg Reg.BLK_PV_ADDR 0 addr).setReg Reg.BLK_PV_REASON 0 reason).setReg Reg.BLK_PV_FID 0 fid).setReg Reg.BLK_PV_VALID 0 1
  s.raise pgBLK 0 none

/-- The violation that a register request is, if it is one (Table 17.4). -/
def accessViol (addr : Nat) (form : AccessForm) : Option Nat :=
  match form with
  | .narrow => some 1
  | .beyondCredits => some 4
  | .undefinedKind => some 5
  | .word => if addr % 4 ≠ 0 then some 2 else none

/-- A request reaches a word: not OFF, and open to its host (R406, R407). -/
inductive Reach where
  | off
  | zero
  | word (P : Page)

/-- What a request for an offset of a page reaches. -/
def State.reach (s : State) (x : Actor) (page off : Nat) (write : Bool) : Reach :=
  match pageAt page with
  | none => .zero
  | some P =>
    if !s.pageOn P && !(P.kind.wordAt off).any (fun e => shadowed e.1) then .off
    else if !x.reaches && (write || !(P.kind == .blk || decide (off ≤ 0x00C))) then .zero
    else .word P

/-- A register read (R402, R406, R407, R418). -/
def State.busRead (s : State) (fid addr : Nat) (form : AccessForm) : State :=
  match accessViol addr form with
  | some r => (s.portViol fid addr r).answer ansViol 0
  | none =>
    let x := s.actor fid
    let off := addr % 4096
    match s.reach x (addr / 4096) off false with
    | .off => s.answer ansOff 0
    | .zero => s.answer ansOK 0
    | .word P =>
      if off < 0x020 then s.answer ansOK (s.readCommon P x off)
      else (s.readEffects P x off).answer ansOK (s.readWord P x off)

end Sys2Proof.Machine
end

