-- ==== Sys2Proof/Machine/RegStore.lean ====
section
/-! DEFINITION. What register writes store: permissions, access codes and the registers with effects of their own
(spec/17_register_pages.md R405, R414 to R421, R425; spec/14_tenancy.md R339, R340, R354, R355; spec/11_queues_and_sync.md
R280, R283, R295; spec/08_paged_cache.md R203, R224; spec/13_memory_port.md R337; spec/15_faults_and_replay.md R372, R373). -/
namespace Sys2Proof.Machine

/-- Clears part of the state of the arrays that `p` picks; `f` leaves an array that holds nothing as it is. -/
def State.clearArrs (s : State) (p : Nat → Bool) (f : ArrayState → ArrayState) : State :=
  { s with arrs := (s.arrs.map (fun e => if p e.1 then (e.1, f e.2) else e)).filter (fun e => decide (e.2 ≠ ({} : ArrayState))) }

/-! ### Generic fields (R415, R416) -/

/-- A host may write a field instance: a field of the whole block the postmaster alone, the records of the last walk fault and port error
among them (R415). Channel fields are left to the hosts of the channel's tenancy (R318). -/
def State.mayWrite (s : State) (P : Page) (x : Actor) (f : FieldSpec) (i : Nat) : Bool :=
  (P.kind != .lbx || x.mayActIn P.num) &&
  (match f.perm with
   | .any => true
   | .pm => x.pm
   | .own => if P.kind == .ring then s.owns P x f i else x.pm || s.owns P x f i)

/-- The bits a write names in a field. -/
def FieldSpec.bitsIn (f : FieldSpec) (v : Nat) : Nat := v / 2 ^ f.lsb % 2 ^ f.width

/-- What a field of an access code holds after a write of `v` over `old` (Table 17.6). -/
def Access.after (a : Access) (old v : Nat) : Nat :=
  match a with
  | .rw | .rwx => v
  | .w1c => Nat.xor old (Nat.land old v)
  | .w1s => Nat.lor old v
  | .ro | .wo => old

/-- Stores one field of a write, if its host may. -/
def State.storeField (s : State) (P : Page) (x : Actor) (v : Nat) (e : FieldSpec × Nat) : State :=
  let f := e.1
  let i := s.instOf P x f
  if f.acc == .ro || f.acc == .wo || !s.mayWrite P x f i then s
  else if f.scope == .dom && decide (24 ≤ i) then s
  else s.setReg f i (f.acc.after (s.reg f i e.2) (s.bitMask P x f e.2 (f.bitsIn v))) e.2

/-- Stores the fields of a word that satisfy `p`. -/
def State.storeWord (s : State) (P : Page) (x : Actor) (off v : Nat) (p : FieldSpec → Bool) : State :=
  ((P.kind.wordAt off).filter (fun e => p e.1)).foldl (fun (s : State) e => s.storeField P x v e) s

/-- Every field of a word. -/
def anyField (_ : FieldSpec) : Bool := true

/-! ### BLK (R405, R425) -/

/-- A refused write of the agent map. -/
def State.mapRefused (s : State) : State := (s.setReg Reg.BLK_MAP_REFUSED 0 1).raise pgBLK 2 none

/-- Some other valid entry holds an FID; entry 0 always counts. -/
def State.fidTaken (s : State) (n fid : Nat) : Bool :=
  (List.range 16).any (fun m => m != n && s.mapped m && s.reg Reg.BLK_HOST_FID 0 m == fid)

/-- A write of HOST_FID entry `n`. -/
def State.hostFid (s : State) (x : Actor) (n v : Nat) : State :=
  if !x.pm || n = 0 then s
  else if !bitOf v 16 then (s.setReg Reg.BLK_HOST_FID 0 v n).setReg Reg.BLK_VALID 0 0 n
  else if s.fidTaken n (v % 65536) then s.mapRefused
  else (s.setReg Reg.BLK_HOST_FID 0 v n).setReg Reg.BLK_VALID 0 1 n

/-- A write of PM_XFER. -/
def State.pmXfer (s : State) (x : Actor) (v : Nat) : State :=
  if !x.pm || v / 2 ^ 24 % 256 ≠ 0x5A then s
  else if s.fidTaken 0 (v % 65536) then s.mapRefused
  else s.setReg Reg.BLK_HOST_FID 0 v 0

/-! ### TEN (R339, R340, R354) -/

/-- Two ranges overlap. -/
def rangesMeet (a n b m : Nat) : Bool := decide (0 < n) && decide (0 < m) && decide (a < b + m) && decide (b < a + n)

/-- The resources of two tenancies overlap (R340). -/
def State.tenMeet (s : State) (t u : Nat) : Bool :=
  Nat.land (s.units t) (s.units u) != 0 ||
  rangesMeet (s.reg Reg.TEN_SS_BASE t) (s.reg Reg.TEN_SS_SIZE t) (s.reg Reg.TEN_SS_BASE u) (s.reg Reg.TEN_SS_SIZE u) ||
  rangesMeet (s.reg Reg.TEN_LB_FIRST t) (s.reg Reg.TEN_LB_SIZE t) (s.reg Reg.TEN_LB_FIRST u) (s.reg Reg.TEN_LB_SIZE u) ||
  rangesMeet (s.reg Reg.TEN_MB_FIRST t) (s.reg Reg.TEN_MB_SIZE t) (s.reg Reg.TEN_MB_FIRST u) (s.reg Reg.TEN_MB_SIZE u)

/-- A write that sets EN is refused (R340). -/
def State.tenRefused (s : State) (t : Nat) : Bool :=
  (List.range 16).any (fun u => u != t && s.tenEn u && s.tenMeet t u) || s.units t == 0 ||
  decide (4096 < s.reg Reg.TEN_SS_BASE t + s.reg Reg.TEN_SS_SIZE t) ||
  decide (8192 < s.reg Reg.TEN_LB_FIRST t + s.reg Reg.TEN_LB_SIZE t) ||
  decide (256 < s.reg Reg.TEN_MB_FIRST t + s.reg Reg.TEN_MB_SIZE t)

/-- CFG_OVERLAP is set and raised. -/
def State.cfgOverlap (s : State) (t : Nat) : State := (s.setReg Reg.TEN_CFG_OVERLAP t 1).raise (pgTEN t) 2 (some t)

/-- The meter counters of a tenancy return to 0 (R340). -/
def Account.cleared (c : Account) : Account :=
  { c with beats := 0, frozen := 0, memBytes := 0, ringBytes := 0, energyUj := 0, commands := 0 }

/-- A write of a tenancy's EN: only a write that sets it acts. -/
def State.tenEnable (s : State) (x : Actor) (t v : Nat) : State :=
  if !x.pm || !bitOf v 0 || s.tenEn t then s
  else if s.tenRefused t then s.cfgOverlap t
  else ((s.setReg Reg.TEN_EN t 1).setReg Reg.TEN_CFG_OVERLAP t 0).onAcct t Account.cleared

/-- A write of HOST_MASK binds no host that is bound to another tenancy (R339). -/
def State.hostMask (s : State) (x : Actor) (t v : Nat) : State :=
  if !x.pm then s
  else
    let other := fun n => (List.range 16).any (fun u => u != t && bitOf (s.reg Reg.TEN_HOST_MASK u) n)
    let m := (List.range 16).foldl (fun k n => if bitOf v n && !other n then k + 2 ^ n else k) 0
    let s := s.setReg Reg.TEN_HOST_MASK t m
    if m = v % 65536 then s.setReg Reg.TEN_CFG_OVERLAP t 0 else s.cfgOverlap t

/-- TEN words: the configuration is written only while EN is 0. -/
def State.storeTen (s : State) (P : Page) (x : Actor) (off v : Nat) : State :=
  if off = 0x100 then s.tenEnable x P.num v
  else if off = 0x104 then s.hostMask x P.num v
  else s.storeWord P x off v (fun f => f.is Reg.TEN_VIOL_VALID || !s.tenEn P.num)

/-! ### DSP and LBX (R271, R283, R280, R295, R297) -/

/-- SUB_CTL: a second enabled record with the same ID stays disabled. -/
def State.subCtl (s : State) (P : Page) (x : Actor) (v : Nat) : State :=
  if !x.pm then s
  else
    let i := s.sel P x Reg.DSP_SUB_SEL
    let id := v / 2 ^ 16 % 65536
    let dup := (List.range 256).any (fun k => k != i && s.flag Reg.DSP_SUB_EN k && s.reg Reg.DSP_SUB_ID k == id)
    ((s.setReg Reg.DSP_SUB_EN i (natOfBool (bitOf v 0 && !dup))).setReg Reg.DSP_SUB_TEN i (v / 2)).setReg Reg.DSP_SUB_ID i id

/-- MB_HPUT: a host puts a handle; a put into a full mailbag is dropped (R283). -/
def State.hostPut (s : State) (P : Page) (x : Actor) (v : Nat) : State :=
  let m := s.sel P x Reg.DSP_MB_SEL
  if !(x.pm || s.owns P x Reg.DSP_MB_HPUT m) then s
  else if (s.bag m).handles.length < bagDepth then s.bagPut m (BitVec.ofNat 32 v) none
  else (s.setReg Reg.DSP_HPUT_DROP m 1).raise pgDSP 3 (s.tenOfBag m)

/-- LBX words: VALUE sets a letterbox and POST adds to it; a slot beyond the range raises LB_RANGE. -/
def State.storeLbx (s : State) (P : Page) (x : Actor) (off v : Nat) : State :=
  if !x.mayActIn P.num then s
  else if 0x080 ≤ off ∧ off < 0x800 then
    let n := s.sel P x Reg.LBX_LBW_BASE + (off - 0x080) / 8
    if !s.lbxIn P.num n then s.raise (pgLBX P.num) 1 (some P.num)
    else if off % 8 = 0 then (s.putLb (s.lbxAbs P.num n) (BitVec.ofNat 32 v)).landAll
    else s.postAndLand P.num n (v % 2 ^ 32)
  else s.storeWord P x off v anyField

/-! ### CACHE, WALK and MPORT (R203, R204, R224, R225, R337) -/

/-- The fields the postmaster alone writes. -/
def cachePm (f : FieldSpec) : Bool := f.is Reg.CACHE_EN || f.is Reg.CACHE_OWNER || f.is Reg.CACHE_SEQ_FIRST || f.is Reg.CACHE_SEQ_COUNT

/-- CACHE words: OWNER and the pool fields first, then INIT, then EN. -/
def State.storeCache (s : State) (P : Page) (x : Actor) (off v : Nat) : State :=
  let p := s.sel P x Reg.CACHE_POOL_SEL
  let en := s.flag Reg.CACHE_EN p
  let mine := x.mayActIn (s.reg Reg.CACHE_OWNER p)
  let s1 := s.storeWord P x off v (fun f =>
    f.scope == .agent || f.is Reg.CACHE_SEQ_FIRST || f.is Reg.CACHE_SEQ_COUNT || (f.is Reg.CACHE_OWNER && !en) ||
      (!cachePm f && !f.is Reg.CACHE_INIT && !en && mine))
  if off ≠ 0x104 then s1
  else
    let s2 := if bitOf v 1 && !en && mine && !s.flag Reg.CACHE_INIT_BUSY p then s1.setReg Reg.CACHE_INIT_BUSY p 1 else s1
    if !x.pm then s2
    else if !bitOf v 0 then s2.setReg Reg.CACHE_EN p 0
    else if en then s2
    else s2.poolEnable p

/-- WALK: a flush empties the second level (bit 0) or every pigeonhole buffer (bit 1). -/
def State.flushWalks (s : State) (v : Nat) : State :=
  let s := if bitOf v 0 then { s with cache := { s.cache with second := [] } } else s
  if bitOf v 1 then
    s.clearArrs (fun _ => true) (fun A => { A with pigeon := [] })
  else s

/-- WALK words. -/
def State.storeWalk (s : State) (P : Page) (x : Actor) (off v : Nat) : State :=
  if off = 0x904 then (if x.pm then s.flushWalks v else s) else s.storeWord P x off v anyField

/-- MPORT words: the staging fields only while nothing is staged. -/
def State.storeMport (s : State) (P : Page) (x : Actor) (off v : Nat) : State :=
  let t := s.sel P x Reg.MPORT_TS_SEL
  let idle := s.stagedUse t false == 0 && s.stagedUse t true == 0
  s.storeWord P x off v (fun f => f.scope != .tsMport || idle)

/-! ### METER (R355) -/

/-- The 256-bit key that eight shifted words make, most significant first. -/
def keyOf (l : List Word) : Nat := l.foldl (fun n w => n * 2 ^ 32 + w.toNat) 0

/-- METER words: KEY_DATA shifts a word in; KEY_COMMIT installs the key of MT_SEL, KEY_CLEAR removes it. -/
def State.storeMeter (s : State) (P : Page) (x : Actor) (off v : Nat) : State :=
  if off = 0x148 then
    if x.pm then { s with meter := { s.meter with shift := (s.meter.shift ++ [BitVec.ofNat 32 v]).drop (s.meter.shift.length - 7) } }
    else s
  else if off = 0x14C then
    if !x.pm then s
    else
      let t := s.sel P x Reg.METER_MT_SEL
      let s := if bitOf v 0 then
          (s.onAcct t fun c => { c with key := some (keyOf s.meter.shift), keyId := v / 2 ^ 16 % 65536 }).raise pgMETER 0 (some t)
        else s
      if bitOf v 1 then s.onAcct t fun c => { c with key := none, keyId := 0 } else s
  else s.storeWord P x off v anyField

/-! ### FAULT and DLOG (R372, R373) -/

/-- Removes the oldest fault record of a partition. -/
def State.popFault (s : State) (t : Nat) : State :=
  let p := s.faultPart t
  s.setFaultPart t { p with recs := p.recs.drop 1 }

/-- Entries that wait in array buffers move into partitions that have room, in ascending array number (R369). -/
def State.moveAllDead (s : State) : State :=
  (s.arrs.filter (fun e => !e.2.dead.isEmpty)).foldl (fun (s : State) e => s.moveDead e.1 e.2.dead) s

/-- Removes the oldest dead-letter entry of a partition. -/
def State.popDead (s : State) (t : Nat) : State :=
  let p := s.deadPart t
  (s.setDeadPart t { p with recs := p.recs.drop 1 }).moveAllDead

/-- FAULT words. An INJ_CLASS of 0 or above 7 disarms. -/
def State.storeFault (s : State) (P : Page) (x : Actor) (off v : Nat) : State :=
  if off = 0x108 then
    let t := s.sel P x Reg.FAULT_FL_SEL
    if bitOf v 0 && x.mayActIn t then s.popFault t else s
  else
    let s := s.storeWord P x off v anyField
    let c := s.reg Reg.FAULT_INJ_CLASS
    if off = 0x900 ∧ x.pm ∧ (c = 0 ∨ 7 < c) then s.setReg Reg.FAULT_INJ_ARM 0 0 else s

/-- DLOG words. -/
def State.storeDlog (s : State) (P : Page) (x : Actor) (off v : Nat) : State :=
  if off = 0x108 then
    let t := s.sel P x Reg.DLOG_DL_SEL
    if bitOf v 0 && x.mayActIn t then s.popDead t else s
  else s.storeWord P x off v anyField

/-! ### FTAB -/

/-- FTAB words: the window selection only while FT_ARR names an array the host reaches (R130). -/
def State.storeFtab (s : State) (P : Page) (x : Actor) (off v : Nat) : State :=
  let a := s.sel P x Reg.FTAB_FT_ARR
  let mine := x.pm || (match x.ten with | some t => s.arrOf t a | none => false)
  s.storeWord P x off v (fun f => f.is Reg.FTAB_FT_ARR || mine)

/-! ### AGRP pages (R46, R103, R107, R266) -/

/-- The host may act on an array. -/
def State.actsOn (s : State) (x : Actor) (a : Nat) : Bool := x.pm || (match x.ten with | some t => s.arrOf t a | none => false)

/-- RESUME ends a halt freeze. -/
def State.resume (s : State) (a : Nat) : State :=
  s.onArr a fun A => if A.seq.state == .halted then { A with seq := { A.seq with state := .running, resumed := true } } else A

/-- Program page words. -/
def State.storeProg (s : State) (P : Page) (x : Actor) (off v : Nat) : State :=
  let a := s.selArr P x
  let t := s.storeWord P x off v anyField
  if off = 0x908 && bitOf v 31 && s.actsOn x a then t.resume a else t

/-- Timing page words. -/
def State.storeTime (s : State) (P : Page) (x : Actor) (off v : Nat) : State :=
  let a := s.selArr P x
  if off = 0x918 then
    if bitOf v 0 && s.actsOn x a then s.onArr a fun A => { A with audit := [], auditLost := 0 } else s
  else s.storeWord P x off v anyField

/-- Condition page words. -/
def State.storeCond (s : State) (P : Page) (x : Actor) (off v : Nat) : State :=
  let a := s.selArr P x
  if off = 0x128 then
    if x.pm then s.onCond a fun c =>
      { c with softEn := bitOf v 0, softCol := bitsOf v 4 1, softPend := bitOf v 0 || c.applied.isSome }
    else s
  else if off = 0x114 then
    if bitOf v 11 && s.actsOn x a then s.onArr a fun A => { A with ctr := { A.ctr with missValid := false } } else s
  else s.storeWord P x off v anyField

/-! ### The event words (R419 to R421) -/

/-- A write of PG_EVT_EN: bits that rise in PG_EVT_OUT make one message. -/
def State.writeEvtEn (s : State) (page c : Nat) (v : Word) : State :=
  let x := s.ctx page c
  let y := { x with en := v }
  let s := s.setCtx page c y
  let new := y.out &&& ~~~ x.out
  if new = 0 then s else s.runEvts evtFuel (s.evtJobs page c y new)

/-- A write of an event word by the host of a context. -/
def State.writeEvt (s : State) (P : Page) (x : Actor) (off : Nat) (v : Word) : State :=
  match x.evtCtx with
  | none => s
  | some c =>
    let e := s.ctx P.no c
    if off = 0x010 then s.setCtx P.no c { e with raw := e.raw &&& ~~~ v }
    else if off = 0x014 then s.writeEvtEn P.no c v
    else if off = 0x01C then s.setCtx P.no c { e with route := v &&& 0x1F#32 }
    else s

/-! ### EXPERT (R414) -/

/-- EXPERT of the writing host after a write of PG_CTL. -/
def State.writeExpert (s : State) (P : Page) (x : Actor) (v : Nat) : State :=
  let k := P.no * 17 + x.slot
  let others := s.ctl.expert.filter (fun e => e != k)
  if !bitOf v 4 then { s with ctl := { s.ctl with expert := others } }
  else if bitsOf v 15 8 = 0xC3 then { s with ctl := { s.ctl with expert := k :: others } }
  else s

/-- EXPERT of every host on a page clears. -/
def State.clearExpert (s : State) (P : Page) : State :=
  { s with ctl := { s.ctl with expert := s.ctl.expert.filter (fun e => e / 17 != P.no) } }

/-! ### UNIT reset (R393) -/

/-- A field instance lies on a page. -/
def onPage (P : Page) (f : FieldSpec) (i : Nat) : Bool :=
  match f.scope with
  | .page => i == P.num
  | .agent => i / 32 == P.num
  | .array => i / 64 == P.num
  | .chan => i / 32 == P.num
  | _ => true

/-- Returns the class U fields of a page to reset values; on the timing page the audit logs of its arrays are among them. -/
def State.unitReset (s : State) (P : Page) : State :=
  let s := { s with regs := Regs.reset s.regs (fun (f : FieldSpec) i => f.page == P.kind && f.cls == RClass.u && onPage P f i) }
  let s := if P.kind == .time then
      s.clearArrs (fun a => groupOf a == P.num) (fun A => { A with audit := [], auditLost := 0 })
    else s
  s.clearExpert P

/-- A write of a common word (Table 17.5). -/
def State.writeCommon (s : State) (P : Page) (x : Actor) (off : Nat) (v : Word) : State :=
  if P.closedTo x then s
  else if off = 0x008 then
    let s := s.writeExpert P x v.toNat
    if bitOf v.toNat 1 && x.pm then s.unitReset P else s
  else if 0x010 ≤ off then s.writeEvt P x off v
  else s

end Sys2Proof.Machine
end

