-- ==== Sys2Proof/Machine/Power.lean ====
section
/-! DEFINITION. Power domains, monitors, hold, the governor, the meter's apportioning and the debug segment
(spec/16_power_and_reset.md R374 to R387, R395 to R397; spec/14_tenancy.md R346). -/
namespace Sys2Proof.Machine

/-! ### Which state a domain holds -/

/-- The domain that a field instance lies in (R375). -/
def fieldDom (f : FieldSpec) (i : Nat) : Nat :=
  let num := match f.scope with
    | .agent | .chan => i / 32
    | .array => i / 64
    | .page => i
    | _ => 0
  Page.dom ⟨f.page, num⟩

/-- The domain of a page number. -/
def pageDomNo (n : Nat) : Nat := ((pageAt n).map Page.dom).getD domAON

/-- Fields that present the contents of an SRAM kept in RETAIN (R395): the submitter records. -/
def inSram (f : FieldSpec) : Bool := f.is Reg.DSP_SUB_EN || f.is Reg.DSP_SUB_TEN || f.is Reg.DSP_SUB_ID

/-- The fields of classes B, T and U of a domain, its event contexts and EXPERT return to reset values. -/
def State.domFields (s : State) (d : Nat) (retain : Bool) : State :=
  { s with
    regs := Regs.reset s.regs (fun (f : FieldSpec) i =>
      (f.cls == RClass.b || f.cls == RClass.t || f.cls == RClass.u) && fieldDom f i == d && !(retain && inSram f))
    ctl := { s.ctl with
      ctx := s.ctl.ctx.filter (fun e => pageDomNo (e.1 / 17) != d)
      expert := s.ctl.expert.filter (fun e => pageDomNo (e / 17) != d) } }

/-- An array in RETAIN: its store, tables and arming stay, and its dead letters wait; everything else is gone (Table 16.8). -/
def ArrayState.retained (A : ArrayState) : ArrayState :=
  { store := A.store, banks := A.banks, engines := A.engines, dead := A.dead, loads := A.loads, placed := A.placed }
/-- An array that is OFF: only what the dispatcher and the FTAB page hold for it stays. -/
def ArrayState.unpowered (A : ArrayState) : ArrayState :=
  { banks := { epochs := A.banks.epochs, loads := A.banks.loads }, loads := A.loads, placed := A.placed }

/-- The dispatcher in RETAIN: letterboxes, mailbags, library, receipt log, windows; collection generations return to 0. -/
def Dispatcher.retained (d : Dispatcher) : Dispatcher :=
  { d with queues := [], rr := 0, coll := [] }

/-- The log partitions in RETAIN: their entries stay, and the counts of lost ones return to 0. -/
def dropLost (l : Tbl FaultPart) : Tbl FaultPart :=
  (l.map (fun e => (e.1, { e.2 with lost := 0 }))).filter (fun e => decide (e.2 ≠ ({} : FaultPart)))
def dropLostDead (l : Tbl DeadPart) : Tbl DeadPart :=
  (l.map (fun e => (e.1, { e.2 with lost := 0 }))).filter (fun e => decide (e.2 ≠ ({} : DeadPart)))

/-- A domain enters RETAIN, or OFF and FAILED (R395). -/
def State.domDown (s : State) (d : Nat) (retain : Bool) : State :=
  let s := s.domFields d retain
  if d < 16 then s.clearArrs (fun a => groupOf a == d) (if retain then ArrayState.retained else ArrayState.unpowered)
  else if d = domSS0 ∨ d = domSS1 then
    if retain then s else { s with shared := s.shared.zeroRange ((d - 16) * 0x08000000) ((d - 15) * 0x08000000) }
  else if d = domDSP then
    let s := s.clearArrs (fun _ => true) (fun A => { A with banks := { A.banks with epochs := 0, loads := 0 } })
    if retain then { s with disp := s.disp.retained, faults := dropLost s.faults, letters := dropLostDead s.letters } else { s with disp := {}, faults := [], letters := [] }
  else if d = domKVC then { s with cache := {} }
  else if d = domMPT then { s with mport := {} }
  else if d = domRNA then { s with ring := s.ring.filter (fun e => decide (2 ≤ e.1)) }
  else if d = domRNB then { s with ring := s.ring.filter (fun e => decide (e.1 < 2)) }
  else s

/-! ### Requests (R376, R378) -/

/-- Some array group is ON. -/
def State.anyGroupOn (s : State) : Bool := (List.range 16).any s.domOn
/-- Some tenancy is enabled. -/
def State.anyTenant (s : State) : Bool := (List.range 16).any s.tenEn

/-- A byte range of the shared store meets half `h`. -/
def inHalf (h base size : Nat) : Bool := decide (0 < size) && decide (base < (h + 1) * 0x08000000) && decide (h * 0x08000000 < base + size)
/-- An enabled tenancy's range or staging area lies in a half. -/
def State.halfUsed (s : State) (h : Nat) : Bool :=
  (List.range 16).any (fun t => s.tenEn t &&
    (inHalf h (s.reg Reg.TEN_SS_BASE t * 65536) (s.reg Reg.TEN_SS_SIZE t * 65536) ||
     inHalf h (s.reg Reg.MPORT_STG_BASE t / 64 * 64) (s.reg Reg.MPORT_STG_SIZE t * 65536)))

/-- RETAIN or OFF is refused with WHY 1 (Table 16.3). -/
def State.domInUse (s : State) (d : Nat) : Bool :=
  if d < 16 then
    (List.range 16).any (fun t => s.tenEn t && (List.range 4).any (fun k => bitOf (s.units t) (4 * d + k))) ||
    (match s.resets.arr with | some a => groupOf a == d | none => false)
  else if d = domSS0 ∨ d = domSS1 then s.halfUsed (d - 16) || s.anyGroupOn || s.domOn domRNA || s.domOn domRNB
  else if d = domDSP then s.anyTenant || s.anyGroupOn || [domSS0, domSS1, domKVC, domMPT, domRNA, domRNB].any s.domOn
  else if d = domKVC then (List.range 16).any (fun p => s.flag Reg.CACHE_EN p)
  else if d = domMPT then s.anyTenant || s.domOn domKVC || s.anyGroupOn
  else if d = domRNA then s.flag Reg.RING_LINK_EN 0 || s.flag Reg.RING_LINK_EN 1
  else if d = domRNB then s.flag Reg.RING_LINK_EN 2 || s.flag Reg.RING_LINK_EN 3
  else true

/-- ON is refused with WHY 3 (Table 16.3). -/
def State.domNeeds (s : State) (d : Nat) : Bool :=
  let need := if d < 16 then [domDSP, domMPT, domSS0, domSS1]
    else if d = domSS0 ∨ d = domSS1 ∨ d = domMPT then [domDSP]
    else if d = domKVC then [domDSP, domMPT]
    else if d = domRNA ∨ d = domRNB then [domDSP, domSS0, domSS1]
    else []
  need.any (fun n => !s.domOn n)

/-- The start voltage of a domain's rail: code 140, or 0.75 V where it is fixed (Tables 16.1, 16.4). -/
def startCode (d : Nat) : Nat := if d = domMPT ∨ d = domRNA ∨ d = domRNB then 150 else 140

/-- Why a request is refused: `none` if it is not. -/
def State.domRefusal (s : State) (d r : Nat) : Option Nat :=
  let x := s.dom d
  if d = domAON then (if r = 0 then none else some 4)
  else if r = 0 then (if s.domNeeds d then some 3 else none)
  else if r = 1 ∧ !x.state.on ∧ x.state != .retain then some 2
  else if s.domInUse d then some 1
  else none

/-- The state from which a domain comes ON: RETAIN where its SRAM is still kept. -/
def Domain.origin (x : Domain) : DomState :=
  match x.state with
  | .retain => .retain
  | .poweringUp => x.from_
  | .poweringDown => if x.req = 1 then .retain else .off
  | _ => .off

/-- A domain's transition to a target begins, if it is not there already. -/
def Domain.start (x : Domain) (d r : Nat) : Domain :=
  let o := x.origin
  let x := { x with req := r, refused := false, why := 0, acked := false, waiting := false }
  if r = 0 then
    if x.state.on then x else { x with state := .poweringUp, from_ := o, vcode := startCode d }
  else if r = 1 then (if x.state == .retain then x else { x with state := .poweringDown, vcode := 100 })
  else if x.state == .off then x
  else { x with state := .poweringDown, vcode := 0 }

/-- A domain that is to leave ON waits for REST (Table 16.4). -/
def State.waitRest (s : State) (d r : Nat) : State :=
  if r ≠ 0 && (s.dom d).state.on && s.domWorks d then
    s.setDom d { s.dom d with req := r, refused := false, why := 0, waiting := true }
  else s.setDom d ((s.dom d).start d r)

/-- A write of DOM_REQ for a domain (R376). One that turns back while it powers down has lost what its target would lose. -/
def State.domReq (s : State) (d v : Nat) : State :=
  let r := min (v % 4) 2
  match s.domRefusal d r with
  | some w => (s.setDom d { s.dom d with refused := true, why := w }).raise pgPWR 1 none
  | none =>
    let x := s.dom d
    (if r = 0 && x.state == .poweringDown then s.domDown d (x.req == 1) else s).waitRest d r

/-- A domain that waited for REST has reached it: its transition begins. -/
def State.domSettle (s : State) (d : Nat) : State :=
  let x := s.dom d
  if x.waiting && x.state.on && !s.domWorks d then s.setDom d (x.start d x.req) else s

/-- DOM_DONE. -/
def State.domDone (s : State) (d : Nat) (st : DomState) : State := (s.setDom d { s.dom d with state := st }).raise pgPWR 0 none

/-- The controller acknowledges a rail request (Table 16.4). -/
def State.powerAck (s : State) (d : Nat) : State :=
  let x := s.dom d
  match x.state with
  | .poweringUp =>
    if x.from_ == .retain then s.domDone d .rest else s.setDom d { x with acked := true }
  | .poweringDown =>
    if x.req = 1 then (s.domDown d true).domDone d .retain else (s.domDown d false).domDone d .off
  | _ => s

/-- The domain's SRAM is zero: it enters REST. -/
def State.sramZeroed (s : State) (d : Nat) : State :=
  let x := s.dom d
  if x.state == .poweringUp && x.acked then s.domDone d .rest else s

/-- No acknowledge arrived in time: FAILED, its rail withdrawn (R379). -/
def State.pwrTimeout (s : State) (d : Nat) : State :=
  let x := s.dom d
  if (x.state == .poweringUp && !x.acked) || x.state == .poweringDown then
    ((s.domDown d false).setDom d { x with state := .failed, vcode := 0, why := 5 }).raise pgPWR 1 none
  else s

/-! ### Hold (R384) -/

/-- Events of a change of the hold causes. -/
def State.holdEvents (old s : State) : State :=
  if !old.hold && s.hold then s.raise pgPWR 3 none
  else if old.hold && !s.hold then s.raise pgPWR 4 none
  else s

/-- A write of HOLD_REQ. -/
def State.holdReq (s : State) (v : Nat) : State := State.holdEvents s (s.setReg Reg.PWR_HOLD_REQ 0 v)

/-! ### Monitors (R380 to R383) -/

/-- A thermal reading as a signed number of quarter degrees. -/
def therm (w : BitVec 16) : Int := w.toInt
/-- A 16-bit threshold as a signed number. -/
def State.threshold (s : State) (f : FieldSpec) : Int := signedOf 16 (s.reg f)

/-- The first of the hottest readings, with its index. -/
def hottest (l : List (BitVec 16)) : Nat × BitVec 16 :=
  ((List.range l.length).zip l).foldl (fun (b : Nat × BitVec 16) e => if therm b.2 < therm e.2 then e else b) (0, l.getD 0 0)

/-- The thermal sensors of a domain (Table 16.5). -/
def sensorsOf (d : Nat) : List Nat := if d < 16 then [3 * d, 3 * d + 1, 3 * d + 2] else [16 + 2 * d, 17 + 2 * d]
/-- The hottest reading of a domain. -/
def State.domHot (s : State) (d : Nat) : BitVec 16 := (hottest ((sensorsOf d).map (fun i => s.mon.thermal.getD i 0))).2

/-- What all tenancies accrued in a domain since the last apportioning. -/
def State.accruedIn (s : State) (d : Nat) : Nat := (List.range 16).foldl (fun n t => n + Tbl.get 0 s.meter.accrued (d * 16 + t)) 0

/-- What a voltage monitor reads, in mV; monitors 2d and 2d + 1 are on the rail of domain d (Table 16.5). -/
def State.volts (s : State) (i : Nat) : Nat := (s.mon.voltage.getD i 0).toNat
/-- Completed beats of a group, or bytes through another domain, since the last apportioning. -/
def State.workIn (s : State) (d : Nat) : Nat := Tbl.get 0 s.meter.work d
/-- A domain through which bytes are counted: a half of the shared store, the memory port or a ring domain (R346). -/
def countsBytes (d : Nat) : Bool := d == domSS0 || d == domSS1 || d == domMPT || d == domRNA || d == domRNB

/-- A domain's power estimate in 0.1 W: a leakage and an activity term with coefficients fused per part (R385). A group's
activity comes from its own completed beats, another domain's from the block's; its bytes are those through it, or through the
memory port where none are counted for it (log 50). -/
def State.estimate (s : State) (d : Nat) : Nat :=
  let beats := if d < 16 then s.workIn d else (List.range 16).foldl (fun n g => n + s.workIn g) 0
  min (Config.leakage d (s.volts (2 * d)) (s.volts (2 * d + 1)) (s.domHot d).toNat +
    Config.activity d beats (s.workIn (if countsBytes d then d else domMPT))) 0xFFFF

/-- A voltage monitor differs from its rail's request by more than V_WIN (R382). -/
def State.vmonBadNow (s : State) (i : Nat) : Bool :=
  let want := 5 * (s.dom (i / 2)).vcode
  let win := s.reg Reg.MON_V_WIN
  let v := s.volts i
  want != 0 && (decide (win < v - want) || decide (win < want - v))

/-- Once per microsecond the monitors are refreshed and the power estimate is formed (R380, R381, R385), and a domain that has
reached REST meanwhile begins the transition it waits with (log 34). -/
def State.monitorRefresh (s : State) (m : MonSample) : State :=
  let old := s
  let mon := { s.mon with thermal := m.thermal, voltage := m.voltage, paceArr := m.paceArray, paceStore := m.paceStore }
  let s : State := { s with mon := mon }
  let hot := hottest m.thermal
  let s := (s.setReg Reg.MON_TJ_HOT 0 hot.2.toNat).setReg Reg.MON_TJ_HOT_IDX 0 hot.1
  let bad := (List.range 48).foldl (fun (t : Tbl Nat) i => Tbl.set 0 t i (if s.vmonBadNow i then Tbl.get 0 t i + 1 else 0)) s.mon.vmonBad
  let crit := m.thermal.any (fun r => decide (s.threshold Reg.MON_TJ_CRIT ≤ therm r))
  let cool := m.thermal.all (fun r => decide (therm r < s.threshold Reg.MON_TJ_THROTTLE))
  let now := crit || (s.mon.hot && !cool)
  let s : State := { s with mon := { s.mon with vmonBad := bad, hot := now } }
  let s := if now && !old.mon.hot then s.raise pgMON 1 none else s
  let s := State.holdEvents old s
  let s := (List.range 24).foldl (fun (s : State) d => s.setReg Reg.PWR_P_EST d (s.estimate d)) s
  let total := min ((List.range 24).foldl (fun n d => n + s.reg Reg.PWR_P_EST d) 0) 0xFFFF
  let s := s.setReg Reg.PWR_P_TOTAL 0 total
  let s : State := { s with mon := { s.mon with capSum := s.mon.capSum + total, capCount := s.mon.capCount + 1 } }
  (List.range 24).foldl State.domSettle s

/-- A group's thermal limit moves by 10 Mbeat/s (R381). -/
def State.thermalStep (s : State) (g : Nat) : State :=
  let lim := Tbl.get 1300 s.mon.thermLimit g
  let hot := therm (s.domHot g)
  let thr := s.threshold Reg.MON_TJ_THROTTLE
  let put := fun (n : Nat) => ({ s with mon := { s.mon with thermLimit := Tbl.set 1300 s.mon.thermLimit g n } } : State)
  if thr < hot then (put (lim - 10)).raise pgMON 0 none
  else if hot < thr - 8 then put (min (lim + 10) 1300)
  else s

/-- One of a domain's monitors has been out of window for 10 microseconds (R382). -/
def State.vmonOut (s : State) (d : Nat) : State :=
  if 10 ≤ Tbl.get 0 s.mon.vmonBad (2 * d) ∨ 10 ≤ Tbl.get 0 s.mon.vmonBad (2 * d + 1) then
    (s.setReg Reg.MON_VMON_OUT 0 (setBit (s.reg Reg.MON_VMON_OUT) d)).raise pgMON 4 none
  else s

/-- VIN_HOLD as it acts: clamped to 40,000 to 46,000 mV. -/
def State.vinHold (s : State) : Nat := max 40000 (min (s.reg Reg.MON_VIN_HOLD) 46000)
/-- VIN_RESUME as it acts. -/
def State.vinResume (s : State) : Nat := max (s.reg Reg.MON_VIN_RESUME) s.vinHold

/-- A sample of the module input (R383): below or above the warning limits it warns, and at or below VIN_HOLD it enters hold, in
one message (R421). One that is missing or marked invalid keeps the last value and breaks the span of samples. -/
def State.vinSample (s : State) (sample : Option Nat) : State :=
  match sample with
  | none =>
    ({ s with mon := { s.mon with vinGood := 0, vinBad := s.mon.vinBad + 1 } } : State).setReg Reg.MON_VIN_VALID 0 0
  | some mv =>
    let old := s
    let s := (s.setReg Reg.MON_VIN 0 mv).setReg Reg.MON_VIN_VALID 0 1
    let good := if s.vinResume ≤ mv then s.mon.vinGood + 1 else 0
    let low := decide (mv ≤ s.vinHold)
    let warn := decide (mv < s.reg Reg.MON_VIN_WARN_LO) || decide (s.reg Reg.MON_VIN_WARN_HI < mv)
    let s : State := { s with mon := { s.mon with vinGood := good, vinBad := 0, brownout := s.mon.brownout || low } }
    State.holdEvents old
      (if warn || low then s.raiseBits pgMON (BitVec.ofNat 32 (4 * natOfBool warn + 8 * natOfBool low)) none else s)

/-- Three consecutive samples have been missing or invalid (R383). -/
def State.vinLost (s : State) : State := if 3 ≤ s.mon.vinBad then s.raise pgMON 5 none else s

/-- The brownout cause clears once samples at or above VIN_RESUME, 10 µs apart, span HOLD_DWELL (R383). -/
def State.holdExit (s : State) : State :=
  if s.mon.brownout && decide (0 < s.mon.vinGood) && decide (s.reg Reg.MON_HOLD_DWELL ≤ 10 * (s.mon.vinGood - 1)) then
    State.holdEvents s { s with mon := { s.mon with brownout := false } }
  else s

/-! ### Governor and power cap (R386, R387) -/

/-- PACE_TGT of a domain as it acts. -/
def State.paceTgt (s : State) (d : Nat) : Nat := max 700 (min (s.reg Reg.PWR_PACE_TGT d) 1300)
/-- The pace limit the governor sets for a group. -/
def State.paceLimitOf (s : State) (g : Nat) : Nat :=
  min (s.paceTgt g) (min (Tbl.get 1300 s.mon.thermLimit g) (s.reg Reg.PWR_CAP_LIMIT))
/-- The store-line pace readings that lie in a shared-store half (Table 16.5). -/
def State.storePaces (s : State) (d : Nat) : List Nat := (List.range 64).map (fun i => (s.mon.paceStore.getD (64 * (d - 16) + i) 0).toNat)
/-- The array-line readings of a group: sensors 8g to 8g + 7. -/
def State.groupPaces (s : State) (g : Nat) : List Nat := (List.range 8).map (fun i => (s.mon.paceArr.getD (8 * g + i) 0).toNat)
/-- The pace of the fastest group that is ON. -/
def State.fastest (s : State) : Nat :=
  ((List.range 16).filter s.domOn).foldl (fun n g => (s.groupPaces g).foldl max n) 0

/-- The slowest of some readings. -/
def slowest (l : List Nat) : Nat := l.foldl min 0xFFFF
/-- What the slowest line of a governed domain reads: array lines of a group, store lines of a half (Table 16.5), and for DSP and
KVC, which have none, the voltage monitors (R386). -/
def State.slowLine (s : State) (d : Nat) : Nat :=
  if d < 16 then slowest (s.groupPaces d)
  else if d = domSS0 ∨ d = domSS1 then slowest (s.storePaces d)
  else slowest [s.volts (2 * d), s.volts (2 * d + 1)]

/-- Rails that the governor governs (Table 16.1). -/
def governed (d : Nat) : Bool := decide (d < 20)
/-- A voltage code within the range of governed rails. -/
def clampCode (c : Nat) : Nat := max 124 (min c 170)

/-- The code the governor aims at on a governed rail that is ON. -/
def State.railTarget (s : State) (d : Nat) : Nat :=
  if s.flag Reg.PWR_V_OVR_EN d then clampCode (s.reg Reg.PWR_V_OVR d)
  else if s.hold then 124
  else if d < 16 then
    let want := clampCode (Config.voltageFor d (s.paceLimitOf d) (s.slowLine d) (slowest [s.volts (2 * d), s.volts (2 * d + 1)]))
    if (s.groupPaces d).any (fun p => decide (1300 < p)) then clampCode (min want ((s.dom d).vcode - 1 - s.freeWord.toNat % 2)) else want
  else clampCode (Config.voltageFor d ((s.fastest * 102 + 99) / 100) (s.slowLine d) (slowest [s.volts (2 * d), s.volts (2 * d + 1)]))

/-- A code moves toward a target by at most 2 (R378). -/
def stepCode (c target : Nat) : Nat := if c < target then min target (c + 2) else max target (c - 2)

/-- One governor step: pace limits of the groups that are ON, then the voltage requests. -/
def State.governorStep (s : State) : State :=
  let s := ((List.range 16).filter s.domOn).foldl (fun (s : State) g =>
    { s with mon := { s.mon with paceLimit := Tbl.set 1300 s.mon.paceLimit g (s.paceLimitOf g) } }) s
  ((List.range 24).filter (fun d => governed d && s.domOn d)).foldl (fun (s : State) d =>
    (s.setDom d { s.dom d with vcode := stepCode (s.dom d).vcode (s.railTarget d) }).drew) s

/-- POWER_CAP as it acts, in W. -/
def State.powerCap (s : State) : Nat := max 300 (min (s.reg Reg.PWR_POWER_CAP) 1800)

/-- A CAP_WINDOW ends (R387). P_TOTAL is in 0.1 W. -/
def State.capWindowEnd (s : State) : State :=
  let n := s.mon.capCount
  if n < max (s.reg Reg.PWR_CAP_WINDOW) 1 then s
  else
    let lim := s.reg Reg.PWR_CAP_LIMIT
    let sum := s.mon.capSum
    let s : State := { s with mon := { s.mon with capSum := 0, capCount := 0 } }
    if 10 * s.powerCap * n < sum then
      if lim ≤ 700 then s.raise pgPWR 2 none else s.setReg Reg.PWR_CAP_LIMIT 0 (max 700 (lim - 10))
    else if 100 * sum < 95 * (10 * s.powerCap * n) then s.setReg Reg.PWR_CAP_LIMIT 0 (min 1300 (lim + 10))
    else s

/-! ### Apportioning (R346) -/

/-- Arrays of a group that have accrued nothing since the last apportioning. -/
def State.idleArrays (s : State) (g : Nat) : Nat := 64 - (s.meter.busy.filter (fun a => groupOf a == g)).length

/-- The energy of one microsecond of a domain goes to the tenancies in proportion to what they accrued in it; of an array
group, the share of its idle arrays goes to UNASSIGNED, and so does what rounding leaves (in µJ). -/
def State.apportion (s : State) (d : Nat) : State :=
  let e := s.reg Reg.PWR_P_EST d / 10
  let part := if d < 16 then e * (64 - s.idleArrays d) / 64 else if d = domAON then 0 else e
  let total := s.accruedIn d
  let share := fun (t : Nat) => if total = 0 then 0 else part * Tbl.get 0 s.meter.accrued (d * 16 + t) / total
  let given := (List.range 16).foldl (fun n t => n + share t) 0
  let s := (List.range 16).foldl (fun (s : State) t => s.onAcct t fun c => { c with energyUj := c.energyUj + share t }) s
  { s with meter := { s.meter with unassignedUj := s.meter.unassignedUj + (e - given) } }

/-- The meter apportions the estimated power of the last microsecond. -/
def State.meterApportion (s : State) : State :=
  let s := (List.range 24).foldl (fun (s : State) d => s.apportion d) s
  { s with meter := { s.meter with accrued := [], busy := [], work := [] } }

/-! ### Time base (R348) -/

/-- The valid signal falls: TB_LOST. -/
def State.tbLost (s : State) : State :=
  let s : State := { s with tb := { s.tb with valid := false } }
  if s.domOn domDSP then s.raise pgSTAMP 0 none else s

/-! ### Debug (R397) -/

/-- Loads an instruction of the segment and what its data register then shifts out. -/
def State.jtag (s : State) (ir dr : Nat) (out : List Nat) : State := { s with segment := { s.segment with ir := ir, dr := dr, out := out } }

/-- What the monitor and PWR state instrument of a domain reads out (log 51). -/
def State.monitorOut (s : State) (d : Nat) : List Nat :=
  [s.domShown d, (s.dom d).vcode] ++ (sensorsOf d).map (fun i => (s.mon.thermal.getD i 0).toNat) ++ [s.volts (2 * d), s.volts (2 * d + 1)] ++
    (if d < 16 then s.groupPaces d
     else if d = domSS0 ∨ d = domSS1 then s.storePaces d
     else if d = domAON then [s.reg Reg.MON_VIN, s.reg Reg.MON_VIN_VALID] else [])
/-- What the fuse instrument of a domain reads out: the records of a group's arrays, or the block's own fuses in AON (log 51). -/
def State.fuseOut (s : State) (d : Nat) : List Nat :=
  if d < 16 then (List.range 64).map (fun i => s.fuseRec (64 * d + i))
  else if d = domAON then
    [s.fuses.pmFid, s.fuses.blockId, s.fuses.idcode, s.fuses.stepping, s.fuses.revision, s.fuses.romVerFtab, s.fuses.taLevel,
      s.fuses.romVerLib]
  else []
/-- A control bit of one instrument: the domains for which it is set. -/
def setControl (l : List Nat) (d : Nat) (on : Bool) : List Nat := if on then d :: l.filter (fun g => g != d) else l.filter (fun g => g != d)

/-- Sets the segment insertion bit of a domain. -/
def State.insert (s : State) (d : Nat) (on : Bool) : State := { s with segment := { s.segment with inserted := setControl s.segment.inserted d on } }

/-- An access to an instrument of a domain sets its insertion bit; one that is not ON is bypassed, and DBG_LOCK leaves the monitor readout
alone. -/
def State.instrument (s : State) (d : Nat) (i : Instrument) : State :=
  if !s.domOn d then (s.insert d false).jtag 2 0 []
  else if s.flag Reg.RST_DBG_LOCK && i != .monitors then s.jtag 2 0 []
  else
    let s := s.insert d true
    match i with
    | .monitors => s.jtag 2 0 (s.monitorOut d)
    | .fuses => s.jtag 2 0 (s.fuseOut d)
    | .halt on =>
      let s := s.jtag 2 0 []
      if d < 16 then { s with segment := { s.segment with halts := setControl s.segment.halts d on } } else s
    | .selfTest on =>
      let s := s.jtag 2 0 []
      { s with segment := { s.segment with tests := setControl s.segment.tests d on } }

end Sys2Proof.Machine
end

