-- ==== Sys2Proof/Machine/PowerRows.lean ====
section
/-! DEFINITION. The rows of the power controller, the monitors, the governor, the meter, the time base and the debug segment
(spec/16_power_and_reset.md R376 to R387, R397; spec/14_tenancy.md R346, R348). -/
namespace Sys2Proof.Machine

/-- Acts on a domain of Table 16.1; another number faults. -/
def onDomain (d : Nat) (s : State) : Host.Outcome State Fault Refusal := if d < 24 then .next s else .fault .noSuchDomain

/-- POWER_ACK (R378). -/
def execPowerAck (d : Nat) (s : State) : Host.Outcome State Fault Refusal := onDomain d (s.powerAck d)
/-- DOMAIN_SRAM_ZEROED (R378). -/
def execDomainSramZeroed (d : Nat) (s : State) : Host.Outcome State Fault Refusal := onDomain d (s.sramZeroed d)
/-- PWR_TIMEOUT (R379). -/
def execPwrTimeout (d : Nat) (s : State) : Host.Outcome State Fault Refusal := onDomain d (s.pwrTimeout d)
/-- MONITOR_REFRESH (R380). -/
def execMonitorRefresh (m : MonSample) (s : State) : Host.Outcome State Fault Refusal := .next (s.monitorRefresh m)
/-- GOVERNOR_STEP (R386). -/
def execGovernorStep (s : State) : Host.Outcome State Fault Refusal := .next s.governorStep
/-- METER_APPORTION (R346). -/
def execMeterApportion (s : State) : Host.Outcome State Fault Refusal := .next s.meterApportion
/-- CAP_WINDOW_END (R387). -/
def execCapWindowEnd (s : State) : Host.Outcome State Fault Refusal := .next s.capWindowEnd
/-- THERMAL_LIMIT_STEP (R381). -/
def execThermalLimitStep (g : Group) (s : State) : Host.Outcome State Fault Refusal := .next (s.thermalStep g.toNat)
/-- VMON_OUT (R382). -/
def execVmonOut (d : Nat) (s : State) : Host.Outcome State Fault Refusal := onDomain d (s.vmonOut d)
/-- VIN_SAMPLE (R383). -/
def execVinSample (mv : Option (BitVec 16)) (s : State) : Host.Outcome State Fault Refusal := .next (s.vinSample (mv.map BitVec.toNat))
/-- VIN_LOST (R383). -/
def execVinLost (s : State) : Host.Outcome State Fault Refusal := .next s.vinLost
/-- HOLD_EXIT (R383, R384). -/
def execHoldExit (s : State) : Host.Outcome State Fault Refusal := .next s.holdExit
/-- TB_LOST (R348). -/
def execTbLost (s : State) : Host.Outcome State Fault Refusal := .next s.tbLost
/-- TIME_BASE_VALID_RISES (R348). -/
def execTimeBaseValidRises (s : State) : Host.Outcome State Fault Refusal := .next { s with tb := { s.tb with valid := true } }
/-- BYPASS: one bit, 0 at capture (R397). -/
def execBypass (s : State) : Host.Outcome State Fault Refusal := .next (s.jtag 0 0 [])
/-- IDCODE: the fuse identity, bit 0 = 1 (R397). -/
def execIdcode (s : State) : Host.Outcome State Fault Refusal := .next (s.jtag 1 (2 * s.fuses.idcode + 1) [])
/-- IEEE_1687_ACCESS (R397). -/
def execIeee1687Access (d : Nat) (ins : Instrument) (s : State) : Host.Outcome State Fault Refusal := onDomain d (s.instrument d ins)

end Sys2Proof.Machine
end

