-- ==== Sys2Proof/Machine/QueueCmds.lean ====
section
/-! DEFINITION. The commands that form no tasks: cache commands, loads, arming, COLLECT and METER_READ
(spec/11_queues_and_sync.md R268, R286, R292, R293; spec/05_functions.md R127, R128; spec/08_paged_cache.md R207 to R209). -/
namespace Sys2Proof.Machine

/-- Acts on the command of a kind whose turn it is in a queue; does nothing where another's turn it is. -/
def State.onTurn (s : State) (q kind : Nat) (f : Cmd → State) : Host.Outcome State Fault Refusal :=
  match s.turnOf q kind with
  | some c => .next (f c)
  | none => .next s

/-- The same for a command whose transactions are answered within the row: what it reads, or of a SAVE what it writes, takes credits of
the memory port (R323). -/
def State.onPortTurn (s : State) (q kind : Nat) (f : State → Cmd → State) : Host.Outcome State Fault Refusal :=
  s.onTurn q kind fun c => s.portRow unitWho (if kind = 0x0B then 1 else 0) (fun s => f s c)

/-- NOP (R268). -/
def execNop (q : Queue) (s : State) : Host.Outcome State Fault Refusal :=
  s.onTurn q.toNat 0x00 fun c => s.completeCmd c.cid stOK

/-! ### Cache commands -/

/-- A command completes FAULTED: the count and the event (R363). -/
def State.countFaulted (s : State) (t : Nat) : State := (s.bump Reg.FAULT_FAULTED_CNT).raise pgFAULT 2 (some t)

/-- Carries out a cache command and completes it. It holds a receipt-log entry from its dispatch to its publication, so it
waits while its tenancy's share is full (R277, R366). -/
def State.runCache (s : State) (c : Cmd) (ans : CacheAnswer) : State :=
  let t := tenOfQueue c.queue
  if Config.receiptShare ≤ s.receiptUse t then s
  else
    let r := s.cacheCommand t c.queue ((s.freeEntry t).getD 0) c.bytes ans
    let s := if r.1 = stFaulted then r.2.2.countFaulted t else r.2.2
    (s.onCmd c.cid fun c => { c with replays := c.replays + r.2.1 }).completeCmd c.cid r.1

/-- APPEND. -/
def execAppend (q : Queue) (ans : CacheAnswer) (s : State) : Host.Outcome State Fault Refusal :=
  s.onPortTurn q.toNat 0x02 fun s c => s.runCache c ans
/-- FORK. -/
def execFork (q : Queue) (ans : CacheAnswer) (s : State) : Host.Outcome State Fault Refusal :=
  s.onPortTurn q.toNat 0x03 fun s c => s.runCache c ans
/-- COMMIT. -/
def execCommit (q : Queue) (ans : CacheAnswer) (s : State) : Host.Outcome State Fault Refusal :=
  s.onPortTurn q.toNat 0x04 fun s c => s.runCache c ans
/-- FREE. -/
def execFree (q : Queue) (ans : CacheAnswer) (s : State) : Host.Outcome State Fault Refusal :=
  s.onPortTurn q.toNat 0x05 fun s c => s.runCache c ans

/-! ### LOAD_PROGRAM and TABLE_LOAD -/

/-- LOAD_PROGRAM (R256 to R258). -/
def execLoadProgram (q : Queue) (ans : PortAnswer) (s : State) : Host.Outcome State Fault Refusal :=
  s.onPortTurn q.toNat 0x06 fun s c =>
    let r := s.loadProgram (tenOfQueue c.queue) c.queue (cmdBits c.bytes 0x18 9 0) (cmdBits c.bytes 0x20 47 0)
      (cmdBits c.bytes 0x28 31 0) ans
    r.2.completeCmd c.cid r.1

/-- Bytes of a function image (R129). -/
def funcImageBytes : Nat := 1152

/-- The user slots a TABLE_LOAD names, in ascending order (R127). -/
def tableSlots (b : BitVec 512) : List Nat := (List.range 16).filter (fun k => decide (6 ≤ k) && bitOf (cmdBits b 0x18 31 16) k)

/-- The loads of a command wait on arrays until their task boundary. -/
def State.placeLoads (s : State) (c : Cmd) (l : List Nat) (x : BoundaryLoad) : State :=
  let s := s.onCmd c.cid fun c => { c with phase := .loading, left := l }
  let s := l.foldl (fun (s : State) a => s.onArr a fun A => { A with loads := A.loads ++ [x] }) s
  (l.foldl (fun (s : State) a => s.applyLoads a) s).settleLoad c.cid

/-- A TABLE_LOAD whose images cannot be read (R128). -/
def State.tableFault (s : State) (c : Cmd) : State :=
  let t := tenOfQueue c.queue
  ((s.lastTable t c.queue 1).raise pgFTAB 1 (some t)).completeCmd c.cid stImageFault

/-- Carries out a TABLE_LOAD. -/
def State.tableLoad (s : State) (c : Cmd) (ans : PortAnswer) : State :=
  let t := tenOfQueue c.queue
  let addr := cmdBits c.bytes 0x20 47 0
  let slots := tableSlots c.bytes
  let n := funcImageBytes * slots.length
  if !s.spanInWindow t addr n then s.tableFault c
  else
    let r := s.unitRead t addr n ans
    let s := r.1
    if !r.2 then s.tableFault c
    else
      let images := ((List.range slots.length).zip slots).map (fun x =>
        (x.2, wordsOf (s.readMem (addr + funcImageBytes * x.1) funcImageBytes)))
      s.placeLoads c (s.usable t) (.tables c.cid (cmdBits c.bytes 0x18 1 0) images)

/-- TABLE_LOAD. -/
def execTableLoad (q : Queue) (ans : PortAnswer) (s : State) : Host.Outcome State Fault Refusal :=
  s.onPortTurn q.toNat 0x07 fun s c => s.tableLoad c ans

/-! ### STREAM_ARM and READDRESS (R292, R293) -/

/-- The arrays that a range names by usable index. -/
def State.armRange (s : State) (c : Cmd) : List Nat :=
  let l := s.usable (tenOfQueue c.queue)
  if bitOf (cmdBits c.bytes 0x18 31 0) 3 then l
  else (l.drop (cmdBits c.bytes 0x18 25 16)).take (cmdBits c.bytes 0x1C 10 0)

/-- A FREE program may hold no shared-store MOVE (R290). -/
def sharedMove (image : List Word) : Bool :=
  (List.range 32).any (fun i => match (({ arm := { image := image } } : Engine)).word64 i |> decodeStreamInstr with
    | .move m => m.src == 1 || m.dst == 2
    | _ => false)

/-- Carries out a STREAM_ARM. -/
def State.streamArm (s : State) (c : Cmd) (ans : PortAnswer) : State :=
  let t := tenOfQueue c.queue
  let addr := cmdBits c.bytes 0x20 47 0
  let fin := fun (s : State) (st : Nat) => s.completeCmd c.cid st
  if (s.usable t).isEmpty then fin s stNoArrays
  else if !s.spanInWindow t addr 320 then fin s stImageFault
  else
    let r := s.unitRead t addr 320 ans
    let s := r.1
    if !r.2 then fin s stImageFault
    else
      let image := wordsOf (s.readMem addr 320)
      let free := bitOf (cmdBits c.bytes 0x18 31 0) 2
      if free && sharedMove image then fin s stBadArgs
      else
        let e := cmdBits c.bytes 0x18 1 0
        let arm : Arming :=
          { armed := true, free := free, slotCode := cmdBits c.bytes 0x1C 18 16, winSlots := cmdBits c.bytes 0x1C 25 20 + 1
            winBase := cmdBits c.bytes 0x28 19 0, rate := cmdBits c.bytes 0x2C 8 0, scope := cmdBits c.bytes 0x2C 10 9
            half := cmdBits c.bytes 0x2C 11 11, image := image }
        let l := s.armRange c
        if !s.armFits l e arm then fin s stNoRate
        else s.placeLoads c l (.arm c.cid e arm)

/-- STREAM_ARM. -/
def execStreamArm (q : Queue) (ans : PortAnswer) (s : State) : Host.Outcome State Fault Refusal :=
  s.onPortTurn q.toNat 0x08 fun s c => s.streamArm c ans

/-- The base registers a READDRESS names, with their values. -/
def readdressVals (b : BitVec 512) : List (Nat × Nat) :=
  let w := cmdBits b 0x1C 31 0
  [(bitOf w 19, bitsOf w 18 16, cmdBits b 0x20 47 0), (bitOf w 23, bitsOf w 22 20, cmdBits b 0x28 47 0),
    (bitOf w 27, bitsOf w 26 24, cmdBits b 0x30 47 0)].filterMap (fun x => if x.1 then some x.2 else none)

/-- READDRESS. -/
def execReaddress (q : Queue) (s : State) : Host.Outcome State Fault Refusal :=
  s.onTurn q.toNat 0x09 fun c =>
    if (s.usable (tenOfQueue c.queue)).isEmpty then s.completeCmd c.cid stNoArrays
    else s.placeLoads c (s.armRange c) (.readdress c.cid (cmdBits c.bytes 0x18 1 0) (readdressVals c.bytes))

/-! ### COLLECT and METER_READ -/

/-- Every task of every command of the tenancy accepted before a command has sealed or ended (R286). -/
def State.earlierDone (s : State) (c : Cmd) : Bool :=
  s.disp.cmds.all (fun x => tenOfQueue x.queue != tenOfQueue c.queue || decide (c.cid ≤ x.cid) ||
    (x.plans.isEmpty && (s.tasksOf x.cid).isEmpty &&
      !(x.phase == .waiting && decide (1 ≤ cmdKind x.bytes) && decide (cmdKind x.bytes ≤ 5))))

/-- COLLECT (R286). -/
def execCollect (q : Queue) (s : State) : Host.Outcome State Fault Refusal :=
  s.onTurn q.toNat 0x0A fun c => if s.earlierDone c then s.completeCmd c.cid stOK else s

/-- Carries out a METER_READ: the reading taken at acceptance is written; INFO counts its bytes (R347). -/
def State.meterRead (s : State) (c : Cmd) : State :=
  let t := tenOfQueue c.queue
  let a := cmdBits c.bytes 0x20 47 0
  let n := c.reading.length
  let ok := s.spanInWindow t a n
  let s := if ok then s.postWrite t a c.reading else s
  (s.onCmd c.cid fun c => { c with info := if ok then n else 0 }).completeCmd c.cid stOK

/-- METER_READ. -/
def execMeterRead (q : Queue) (s : State) : Host.Outcome State Fault Refusal :=
  s.onTurn q.toNat 0x0D fun c => s.meterRead c

end Sys2Proof.Machine
end

