-- ==== Sys2Proof/Machine/Sha.lean ====
section
/-! DEFINITION. SHA-256 (FIPS 180-4) and HMAC (FIPS 198-1), which seal meter readings and parcels (spec/14_tenancy.md R347, R349). -/
namespace Sys2Proof.Machine

/-- The round constants. -/
def shaK : List (BitVec 32) :=
  [0x428a2f98#32, 0x71374491#32, 0xb5c0fbcf#32, 0xe9b5dba5#32, 0x3956c25b#32, 0x59f111f1#32, 0x923f82a4#32, 0xab1c5ed5#32] ++
  [0xd807aa98#32, 0x12835b01#32, 0x243185be#32, 0x550c7dc3#32, 0x72be5d74#32, 0x80deb1fe#32, 0x9bdc06a7#32, 0xc19bf174#32] ++
  [0xe49b69c1#32, 0xefbe4786#32, 0x0fc19dc6#32, 0x240ca1cc#32, 0x2de92c6f#32, 0x4a7484aa#32, 0x5cb0a9dc#32, 0x76f988da#32] ++
  [0x983e5152#32, 0xa831c66d#32, 0xb00327c8#32, 0xbf597fc7#32, 0xc6e00bf3#32, 0xd5a79147#32, 0x06ca6351#32, 0x14292967#32] ++
  [0x27b70a85#32, 0x2e1b2138#32, 0x4d2c6dfc#32, 0x53380d13#32, 0x650a7354#32, 0x766a0abb#32, 0x81c2c92e#32, 0x92722c85#32] ++
  [0xa2bfe8a1#32, 0xa81a664b#32, 0xc24b8b70#32, 0xc76c51a3#32, 0xd192e819#32, 0xd6990624#32, 0xf40e3585#32, 0x106aa070#32] ++
  [0x19a4c116#32, 0x1e376c08#32, 0x2748774c#32, 0x34b0bcb5#32, 0x391c0cb3#32, 0x4ed8aa4a#32, 0x5b9cca4f#32, 0x682e6ff3#32] ++
  [0x748f82ee#32, 0x78a5636f#32, 0x84c87814#32, 0x8cc70208#32, 0x90befffa#32, 0xa4506ceb#32, 0xbef9a3f7#32, 0xc67178f2#32]

/-- The initial hash value. -/
def shaInit : List (BitVec 32) :=
  [0x6a09e667#32, 0xbb67ae85#32, 0x3c6ef372#32, 0xa54ff53a#32, 0x510e527f#32, 0x9b05688c#32, 0x1f83d9ab#32, 0x5be0cd19#32]

/-- A rotation to the right. -/
def rotr (x : BitVec 32) (n : Nat) : BitVec 32 := (x >>> n) ||| (x <<< (32 - n))

/-- A word of the message schedule from the sixteen before it, oldest first. -/
def shaNext (w : List (BitVec 32)) : BitVec 32 :=
  let a := w.getD 1 0
  let b := w.getD 14 0
  w.getD 0 0 + (rotr a 7 ^^^ rotr a 18 ^^^ (a >>> 3)) + w.getD 9 0 + (rotr b 17 ^^^ rotr b 19 ^^^ (b >>> 10))

/-- One round on the working variables a to h. -/
def shaRound (v : List (BitVec 32)) (k w : BitVec 32) : List (BitVec 32) :=
  let a := v.getD 0 0
  let e := v.getD 4 0
  let t1 := v.getD 7 0 + (rotr e 6 ^^^ rotr e 11 ^^^ rotr e 25) + ((e &&& v.getD 5 0) ^^^ (~~~ e &&& v.getD 6 0)) + k + w
  let t2 := (rotr a 2 ^^^ rotr a 13 ^^^ rotr a 22) + ((a &&& v.getD 1 0) ^^^ (a &&& v.getD 2 0) ^^^ (v.getD 1 0 &&& v.getD 2 0))
  [t1 + t2, a, v.getD 1 0, v.getD 2 0, v.getD 3 0 + t1, e, v.getD 5 0, v.getD 6 0]

/-- The rounds with the constants that are left; `w` holds the next sixteen schedule words. -/
def shaRounds (ks : List (BitVec 32)) (w v : List (BitVec 32)) : List (BitVec 32) :=
  match ks with
  | [] => v
  | k :: r => shaRounds r (w.drop 1 ++ [shaNext w]) (shaRound v k (w.getD 0 0))

/-- A big-endian word from four bytes. -/
def beWord (bs : List Byte) : BitVec 32 := BitVec.ofNat 32 (bs.foldl (fun n b => n * 256 + b.toNat) 0)
/-- The four big-endian bytes of a word. -/
def beBytes (w : BitVec 32) : List Byte := [3, 2, 1, 0].map (fun i => BitVec.ofNat 8 (w.toNat / 256 ^ i))

/-- One 64-byte block. -/
def shaBlock (h : List (BitVec 32)) (b : List Byte) : List (BitVec 32) :=
  let w := (List.range 16).map (fun i => beWord ((b.drop (4 * i)).take 4))
  List.zipWith (· + ·) h (shaRounds shaK w h)

/-- `n` blocks from the front of a byte string. -/
def shaBlocks (n : Nat) (bs : List Byte) (h : List (BitVec 32)) : List (BitVec 32) :=
  match n with
  | 0 => h
  | k + 1 => shaBlocks k (bs.drop 64) (shaBlock h (bs.take 64))

/-- The padded message: 0x80, zeros, and the bit length as eight big-endian bytes. -/
def shaPad (bs : List Byte) : List Byte :=
  bs ++ [0x80#8] ++ List.replicate ((119 - bs.length % 64) % 64) (0 : Byte) ++ (leBytes 8 (8 * bs.length)).reverse

/-- SHA-256. -/
def sha256 (bs : List Byte) : List Byte :=
  let p := shaPad bs
  (shaBlocks (p.length / 64) p shaInit).flatMap beBytes

/-- HMAC-SHA-256 under a 256-bit key. -/
def hmac (key : Nat) (bs : List Byte) : List Byte :=
  let k := (leBytes 32 key).reverse ++ List.replicate 32 (0 : Byte)
  let x := fun (c : Byte) => k.map (fun b => b ^^^ c)
  sha256 (x 0x5C#8 ++ sha256 (x 0x36#8 ++ bs))

end Sys2Proof.Machine
end

