-- ==== Sys2Proof/Machine/Parcels.lean ====
section
/-! DEFINITION. Sealed meter readings and state parcels: METER_READ's snapshot, SAVE and RESTORE (spec/14_tenancy.md R347, R349
to R353). The placement of fields that Table 14.4 leaves open is the model's (log 30). -/
namespace Sys2Proof.Machine

/-! ### Readings (R347) -/

/-- The seal over bytes under a tenancy's key, all zeros where it has none. -/
def Account.tag (c : Account) (bs : List Byte) : List Byte :=
  match c.key with
  | some k => hmac k bs
  | none => List.replicate 32 (0 : Byte)

/-- The snapshot of a METER_READ of tenancy `t`: READ_SEQ grows, and the reading of Table 14.2 is made. -/
def State.takeReading (s : State) (t : Nat) (b : BitVec 512) : List Byte × State :=
  let s := s.onAcct t fun c => { c with readSeq := (c.readSeq + 1) % 2 ^ 32 }
  let c := s.acct t
  let body := leBytes 4 0x4D545231 ++ leBytes 4 (t + 16 * natOfBool c.key.isNone + 2 ^ 16 * c.keyId) ++ leBytes 8 s.fuses.blockId ++
    leBytes 4 c.mepoch ++ leBytes 4 c.readSeq ++ leBytes 8 s.now ++ leBytes 8 (cmdBits b 0x28 63 0) ++
    c.counters.flatMap (fun v => leBytes 8 v) ++ leBytes 8 0
  (body ++ c.tag body, s)

/-! ### Parts of a parcel (Table 14.4) -/

/-- The 1,152 bytes of a function image. -/
def FuncImage.bytes (f : FuncImage) : List Byte := (List.range 288).flatMap (fun i => leBytes 4 (f.words.getD i 0).toNat)

/-- The CACHE fields a pool record holds, each with the low bits it may leave out (the spec ignores them) and its width. -/
def poolPack : List (FieldSpec × Nat × Nat) :=
  [(Reg.CACHE_FORMAT, 0, 2), (Reg.CACHE_DIM, 0, 3), (Reg.CACHE_PLANES, 0, 12), (Reg.CACHE_HEADROOM, 0, 32),
    (Reg.CACHE_DESC_BASE_LO, 6, 26), (Reg.CACHE_DESC_BASE_HI, 0, 16), (Reg.CACHE_FT_BASE_LO, 3, 29), (Reg.CACHE_FT_BASE_HI, 0, 16),
    (Reg.CACHE_FRAME_BASE_LO, 6, 26), (Reg.CACHE_FRAME_BASE_HI, 0, 16), (Reg.CACHE_FRAME_COUNT, 0, 32)] ++
  [(Reg.CACHE_NODE_BASE_LO, 12, 20), (Reg.CACHE_NODE_BASE_HI, 0, 16), (Reg.CACHE_NODE_COUNT, 0, 32), (Reg.CACHE_FREE_FRAMES, 0, 32),
    (Reg.CACHE_FREE_NODES, 0, 32), (Reg.CACHE_LIVE_SEQS, 0, 17), (Reg.CACHE_SAT_CNT, 0, 32), (Reg.CACHE_LOW_MARK, 0, 32),
    (Reg.CACHE_FREE_HEAD, 0, 32), (Reg.CACHE_NODE_HEAD, 0, 32)] ++
  [(Reg.CACHE_ERR_SEQ, 0, 16), (Reg.CACHE_ERR_QUEUE, 0, 2), (Reg.CACHE_ERR_VALID, 0, 1), (Reg.CACHE_CFG_OVERLAP, 0, 1)]

/-- Where the code of ERR_STATUS stands in a pool record. -/
def poolStatusBit : Nat := 507
/-- The statuses of a failed cache command, by their code in a pool record. -/
def poolStatuses : List Nat := [0x00, 0x11, 0x30, 0x31, 0x32, 0x33, 0x34, 0x35, 0x36, 0x37, 0x38, 0x40]

/-- A pool record as a number. -/
def State.poolRecord (s : State) (p : Nat) : Nat :=
  (poolPack.foldl (fun (x : Nat × Nat) f => (x.1 + (s.reg f.1 p / 2 ^ f.2.1 % 2 ^ f.2.2) * 2 ^ x.2, x.2 + f.2.2)) (0, 0)).1 +
    indexOf poolStatuses (s.reg Reg.CACHE_ERR_STATUS p) * 2 ^ poolStatusBit

/-- Installs a pool record; no fence waits and no frame retires in a restored pool, and its queue is the owner's. -/
def State.putPoolRecord (s : State) (p v : Nat) : State :=
  let s := (poolPack.foldl (fun (x : State × Nat) f => (x.1.setReg f.1 p (v / 2 ^ x.2 % 2 ^ f.2.2 * 2 ^ f.2.1), x.2 + f.2.2)) (s, 0)).1
  ((s.setReg Reg.CACHE_ERR_QUEUE p (4 * s.reg Reg.CACHE_OWNER p + s.reg Reg.CACHE_ERR_QUEUE p)).setReg Reg.CACHE_ERR_STATUS p
    (poolStatuses.getD (v / 2 ^ poolStatusBit % 16) 0)).setReg Reg.CACHE_RETIRING p 0

/-- The image of an engine with its present base registers, and its arming in the words of a STREAM_ARM. -/
def Engine.parcel (x : Engine) : List Byte :=
  let sb := if x.sb = [] then x.arm.bases else x.sb
  let m := x.arm
  ((List.range 64).map (fun i => m.image.getD i 0)).flatMap (fun w => leBytes 4 w.toNat) ++ sb.flatMap (fun v => leBytes 8 v) ++
    leBytes 4 (4 * natOfBool m.free + 2 ^ 31 * natOfBool m.armed) ++
    leBytes 4 (2 ^ 16 * m.slotCode + 2 ^ 20 * ((m.winSlots - 1) % 64)) ++ leBytes 4 m.winBase ++
    leBytes 4 (m.rate + 2 ^ 9 * m.scope + 2 ^ 11 * m.half)

/-- The engine that a record of 336 bytes arms, stopped as at arming. -/
def engineFrom (bs : List Byte) : Engine :=
  let w := fun (i : Nat) => leNat ((bs.drop (320 + 4 * i)).take 4)
  if !bitOf (w 0) 31 then {}
  else
    let arm : Arming :=
      { armed := true, free := bitOf (w 0) 2, slotCode := bitsOf (w 1) 18 16, winSlots := bitsOf (w 1) 25 20 + 1
        winBase := w 2 % 2 ^ 20, rate := w 3 % 2 ^ 9, scope := bitsOf (w 3) 10 9, half := bitsOf (w 3) 11 11
        image := wordsOf (bs.take 320) }
    { arm := arm, sb := arm.bases }

/-- A postmark window entry. -/
def WinEntry.bytes (e : WinEntry) : List Byte :=
  leBytes 8 (e.seqno % 2 ^ 48) ++ leBytes 8 (e.status + 2 ^ 8 * natOfBool e.done + 2 ^ 9)
/-- The entry that 16 bytes hold. -/
def winEntryFrom (bs : List Byte) : Option WinEntry :=
  let v := leNat bs
  if bitOf v 73 then some { seqno := v % 2 ^ 48, done := bitOf v 72, status := bitsOf v 71 64 } else none

/-- The 1,040 bytes of a submitter record; a RESTORE's or SAVE's own postmark is left out. -/
def SubRec.parcel (r : SubRec) (id own : Nat) : List Byte :=
  let l := r.window.filter (fun e => e.seqno != own)
  leBytes 2 id ++ leBytes 6 r.hc ++ leBytes 6 r.floor ++ leBytes 2 0 ++ l.flatMap WinEntry.bytes ++
    List.replicate (16 * (64 - l.length)) (0 : Byte)

/-- The pools a tenancy owns. -/
def State.poolsOf (s : State) (t : Nat) : List Nat := (List.range 16).filter (fun p => s.reg Reg.CACHE_OWNER p == t)
/-- The enabled submitter records bound to a tenancy. -/
def State.subsOf (s : State) (t : Nat) : List Nat :=
  (List.range 256).filter (fun i => s.flag Reg.DSP_SUB_EN i && s.reg Reg.DSP_SUB_TEN i == t)

/-- The parts of a tenancy's parcel in the order of Table 14.4; `sub` and `seqno` are the SAVE's own postmark. -/
def State.parcelParts (s : State) (t sub seqno : Nat) : List (List Byte) :=
  let l := s.usable t
  let first := (l.head?.map s.arr).getD {}
  let img := fun (bank : Nat) => (List.range 10).flatMap (fun k => (Tbl.get {} first.banks.user (bank * 16 + 6 + k)).bytes)
  let act := ((List.range l.length).zip l).foldl (fun n x => if (s.arr x.2).banks.active then n + 2 ^ x.1 else n) 0
  let c := s.acct t
  [img 0 ++ img 1,
   leBytes 128 act,
   (s.poolsOf t).flatMap (fun p => leBytes 64 (s.poolRecord p)),
   (List.range (s.reg Reg.TEN_LB_SIZE t)).flatMap (fun i => leBytes 4 (if s.lbxIn t i then (s.lb (s.lbxAbs t i)).toNat else 0)),
   l.flatMap (fun a => (List.range 4).flatMap (fun e => ((s.arr a).eng e).parcel)),
   c.counters.flatMap (fun v => leBytes 8 v) ++ leBytes 4 c.mepoch ++ leBytes 4 c.readSeq ++ leBytes 8 0,
   (s.subsOf t).flatMap (fun i =>
     let id := s.reg Reg.DSP_SUB_ID i
     (s.subRec i).parcel id (if id = sub then seqno else 2 ^ 48))]

/-- (offset, length) of consecutive parts. -/
def partTable (at_ : Nat) (l : List Nat) : List (Nat × Nat) :=
  match l with
  | [] => []
  | n :: r => (at_, n) :: partTable (at_ + n) r

/-- The parcel of a tenancy. -/
def State.parcel (s : State) (t sub seqno : Nat) : List Byte :=
  let parts := s.parcelParts t sub seqno
  let lens := parts.map List.length
  let total := 128 + lens.foldl (· + ·) 0 + 32
  let head := leBytes 4 0x5052434C ++ leBytes 4 1 ++ leBytes 4 Config.profile ++ leBytes 4 (t + 2 ^ 16 * (s.usable t).length) ++
    leBytes 8 s.fuses.blockId ++ leBytes 8 s.now ++ leBytes 4 total ++ leBytes 4 (s.acct t).keyId ++
    (partTable 128 lens).flatMap (fun x => leBytes 4 x.1 ++ leBytes 4 x.2) ++ leBytes 32 0
  let body := head ++ parts.flatten
  body ++ (s.acct t).tag body

/-! ### SAVE (R349) -/

/-- Writes the parcel; a SAVE that ends in PARCEL_FAULT leaves free bytes where it may have written (log 2). -/
def State.save (s : State) (c : Cmd) (ans : PortAnswer) : State :=
  let t := tenOfQueue c.queue
  let a := cmdBits c.bytes 0x20 47 0
  let max_ := cmdBits c.bytes 0x28 31 0
  let bs := s.parcel t (cmdSubmitter c.bytes) (cmdSeqno c.bytes)
  let end_ := fun (s : State) => (s.spoil t a (min bs.length max_)).completeCmd c.cid stParcelFault
  if decide (max_ < bs.length) || !s.spanInWindow t a bs.length then end_ s
  else match answered ans (linesOf a bs.length) with
    | some (l, e) => end_ ((s.chargeWrite t a bs.length).unitError t l 1 e)
    | none => (s.writeMem t a bs).completeCmd c.cid stOK

/-- SAVE. -/
def execSave (q : Queue) (ans : PortAnswer) (s : State) : Host.Outcome State Fault Refusal :=
  s.onPortTurn q.toNat 0x0B fun s c => if s.earlierDone c then s.save c ans else s

/-! ### RESTORE (R350, R351, R353) -/

/-- A part of a parcel by its number. -/
def parcelPart (bs : List Byte) (k : Nat) : List Byte :=
  let w := fun (o : Nat) => leNat ((bs.drop o).take 4)
  (bs.drop (w (0x28 + 8 * k))).take (w (0x2C + 8 * k))

/-- The header of a parcel is right: its fields, and parts that make up LENGTH. -/
def parcelHead (bs : List Byte) : Bool :=
  let w := fun (o : Nat) => leNat ((bs.drop o).take 4)
  let n := w 0x0C / 2 ^ 16 % 2 ^ 11
  let lens := (List.range 7).map (fun k => w (0x2C + 8 * k))
  w 0 == 0x5052434C && w 4 == 1 && w 8 == Config.profile && w 0x20 == 160 + lens.foldl (· + ·) 0 &&
    (List.range 7).map (fun k => (w (0x28 + 8 * k), w (0x2C + 8 * k))) == partTable 128 lens &&
    lens.getD 0 0 == 23040 && lens.getD 1 0 == 128 && lens.getD 2 0 % 64 == 0 && lens.getD 3 0 % 4 == 0 &&
    lens.getD 4 0 == 1344 * n && lens.getD 5 0 == 64 && lens.getD 6 0 % 1040 == 0

/-- The tag of a parcel verifies under a tenancy's key, or both sides are keyless. -/
def State.parcelSealed (s : State) (t : Nat) (bs : List Byte) : Bool :=
  let n := bs.length - 32
  bs.drop n == (s.acct t).tag (bs.take n)

/-- The target of a RESTORE has room for a parcel. -/
def State.parcelFits (s : State) (t : Nat) (bs : List Byte) : Bool :=
  let k := (parcelPart bs 2).length / 64
  let l := s.poolsOf t
  decide ((parcelPart bs 3).length / 4 ≤ s.reg Reg.TEN_LB_SIZE t) && decide (k ≤ l.length) &&
    (l.take k).all (fun p => !s.flag Reg.CACHE_EN p)

/-- Installs what a parcel holds of one array: tables, ACTIVE and stream arming. -/
def ArrayState.install (A : ArrayState) (bs : List Byte) (i n : Nat) : ArrayState :=
  let img := parcelPart bs 0
  let b := (List.range 20).foldl (fun (b : Banks) k =>
    b.put (k / 10) [(6 + k % 10, wordsOf ((img.drop (1152 * k)).take 1152))]) A.banks
  let j := i % max n 1
  let st := (parcelPart bs 4).drop (1344 * j)
  let A := { A with banks := { b with active := bitOf (leNat (parcelPart bs 1)) j } }
  if n = 0 then A
  else (List.range 4).foldl (fun (A : ArrayState) e => A.setEng e (engineFrom ((st.drop (336 * e)).take 336))) A

/-- Installs one saved postmark record; the RESTORE's own entry is kept. -/
def State.installSub (s : State) (t own : Nat) (ownId : Nat) (bs : List Byte) : State :=
  let id := leNat (bs.take 2)
  match (s.subsOf t).find? (fun i => s.reg Reg.DSP_SUB_ID i == id) with
  | none => s
  | some i =>
    let mine := if id = ownId then (s.subRec i).window.filter (fun e => e.seqno == own) else []
    let win := ((List.range 64).filterMap (fun k => winEntryFrom ((bs.drop (16 + 16 * k)).take 16))).filter
      (fun e => !(id == ownId && e.seqno == own))
    s.setSubRec i
      { hc := leNat ((bs.drop 2).take 6), floor := leNat ((bs.drop 8).take 6), window := win.drop (win.length + mine.length - 64) ++ mine }

/-- Installs a parcel (R351). -/
def State.installParcel (s : State) (t sub seqno : Nat) (bs : List Byte) : State :=
  let w := fun (o : Nat) => leNat ((bs.drop o).take 4)
  let n := w 0x0C / 2 ^ 16 % 2 ^ 11
  let l := s.usable t
  let s := ((List.range l.length).zip l).foldl (fun (s : State) x => s.onArr x.2 fun A => A.install bs x.1 n) s
  let pools := parcelPart bs 2
  let own := s.poolsOf t
  let s := ((List.range (pools.length / 64)).zip own).foldl (fun (s : State) x =>
    s.putPoolRecord x.2 (leNat ((pools.drop (64 * x.1)).take 64))) s
  let lb := parcelPart bs 3
  let s := (List.range (s.reg Reg.TEN_LB_SIZE t)).foldl (fun (s : State) i =>
    if s.lbxIn t i then s.putLb (s.lbxAbs t i) (BitVec.ofNat 32 (leNat ((lb.drop (4 * i)).take 4))) else s) s
  let m := parcelPart bs 5
  let v := fun (i : Nat) => leNat ((m.drop (8 * i)).take 8)
  let s := s.onAcct t fun c =>
    { c with
      beats := v 0, frozen := v 1, memBytes := v 2, ringBytes := v 3, energyUj := 1000 * v 4, commands := v 5
      mepoch := (max c.mepoch (v 6 % 2 ^ 16) + 1) % 2 ^ 16, readSeq := v 6 / 2 ^ 32 }
  let p := parcelPart bs 6
  let s := (List.range (p.length / 1040)).foldl (fun (s : State) k => s.installSub t seqno sub ((p.drop (1040 * k)).take 1040)) s
  (s.onDisp fun d => { d with mbx := d.mbx.filter (fun e => !s.bagOf t e.1) }).landAll

/-- Checks a parcel and installs it. -/
def State.restore (s : State) (c : Cmd) (ans : PortAnswer) : State :=
  let t := tenOfQueue c.queue
  let a := cmdBits c.bytes 0x20 47 0
  let len := s.memLe (a + 0x20) 4
  let bad := fun (s : State) => s.completeCmd c.cid stParcelFault
  if !s.spanInWindow t a 128 then bad s
  else
    let h := s.unitRead t a 128 ans
    if !h.2 || decide (len < 160) || !s.spanInWindow t a len then bad h.1
    else
      let b := h.1.unitRead t (a + 128) (len - 128) (answerPast (linesOf a 128).length ans)
      let s := b.1
      let bs := s.readMem a len
      if b.2 && parcelHead bs && s.parcelSealed t bs && s.parcelFits t bs then
        (s.installParcel t (cmdSubmitter c.bytes) (cmdSeqno c.bytes) bs).completeCmd c.cid stOK
      else bad s

/-- RESTORE. -/
def execRestore (q : Queue) (ans : PortAnswer) (s : State) : Host.Outcome State Fault Refusal :=
  s.onPortTurn q.toNat 0x0C fun s c => if s.earlierDone c then s.restore c ans else s

end Sys2Proof.Machine
end

