-- ==== Sys2Proof/Machine/DispatchRows.lean ====
section
/-! DEFINITION. The rows of the dispatcher: acceptance, dispatch, start, seal, abandonment's end and ordered release
(spec/11_queues_and_sync.md R272, R276, R277; spec/15_faults_and_replay.md R358, R359; spec/13_memory_port.md R330). -/
namespace Sys2Proof.Machine

/-- Accepts the command that the round-robin reaches, if there is one. -/
def State.acceptNext (s : State) : State :=
  match s.nextQueue with
  | some q => s.acceptHead q (fun s b => s.takeReading (tenOfQueue q) b)
  | none => s

/-- COMMAND_ACCEPT: none is accepted during hold (R384) or under DISP_PAUSE (Table 11.8). -/
def execCommandAccept (s : State) : Host.Outcome State Fault Refusal :=
  .next (if s.dispatching && !s.hold && !s.flag Reg.DSP_DISP_PAUSE then s.acceptNext else s)

/-- TASK_DISPATCH. -/
def execTaskDispatch (q : Queue) (ans : PortAnswer) (s : State) : Host.Outcome State Fault Refusal :=
  .next (s.portRow unitWho 0 fun s => s.dispatchTask q.toNat ans)

/-- TASK_START. -/
def execTaskStart (a : Arr) (ans : PortAnswer) (s : State) : Host.Outcome State Fault Refusal :=
  .next (s.portRow unitWho 0 fun s => s.startTask a.toNat ans)

/-- ATTEMPT_SEAL. -/
def execAttemptSeal (a : Arr) (s : State) : Host.Outcome State Fault Refusal := .next (s.sealTask a.toNat)

/-- ABANDONMENT_END of an array, with whether a receipt-log entry read for a replay or a move passes its parity check (R357). -/
def execAbandonmentEnd (a : Arr × Bool) (s : State) : Host.Outcome State Fault Refusal := .next (s.abandonEnd a.1.toNat a.2)

/-- ORDERED_RELEASE. -/
def execOrderedRelease (q : Queue) (s : State) : Host.Outcome State Fault Refusal := .next (s.releaseNext q.toNat)

end Sys2Proof.Machine
end

