-- ==== Sys2Proof/Machine/RingRows.lean ====
section
/-! DEFINITION. The ring ports: links, channels, sending, receiving and retry (spec/12_mail_train.md R298 to R319). -/
namespace Sys2Proof.Machine

/-- The domain of a port. -/
def portDom (p : Nat) : Nat := if p < 2 then domRNA else domRNB
/-- The port works: its domain is ON and no BLOCK reset runs. -/
def State.ringOn (s : State) (p : Nat) : Bool := s.domOn (portDom p) && !s.resets.block
/-- The link of a port is UP. -/
def State.linkUp (s : State) (p : Nat) : Bool := s.ringOn p && (s.port p).link == .up

/-! ### Channels (R306 to R308, R318) -/

/-- A queued message leaves a port: a receive channel whose buffer it relayed may land there again (R314). -/
def State.endMsg (s : State) (p : Nat) (m : SendMsg) : State :=
  match m.relay with
  | some (c, b) =>
    let r := s.recvChan p c
    s.setRecv p c { r with relaying := r.relaying.erase b }
  | none => s

/-- A channel is disabled: its queued messages, the packets it has not landed and the handle it holds are discarded. -/
def State.chanOff (s : State) (p c : Nat) (recv : Bool) : State :=
  let s := s.setReg Reg.RING_CH_EN (chanInst p c recv) 0
  if recv then
    let r := s.recvChan p c
    s.setRecv p c { owed := r.owed + ((r.stash.filter (fun m => m.type != 0)).length - r.kept) }
  else
    let gone := (s.port p).msgs.filter (fun m => m.ch == c)
    let s := s.onPort p fun P => { P with msgs := P.msgs.filter (fun m => m.ch != c) }
    gone.foldl (fun (s : State) m => s.endMsg p m) s

/-- RES_REFUSED for a channel. -/
def State.resRefused (s : State) (p c : Nat) (recv : Bool) : State :=
  s.raiseRing p evResRefused (some (s.chanTen p c recv))

/-- A channel is enabled, unless its slots or its charge do not fit (R307, R308). -/
def State.chanOn (s : State) (p c : Nat) (recv : Bool) : State :=
  let i := chanInst p c recv
  let n := s.reg Reg.RING_RES_SLOTS i
  if (!recv && decide (25 < s.resSlots p c + n)) || (s.reg Reg.RING_CLASS i == 0 && !s.channelFits n) then s.resRefused p c recv
  else
    let s := s.setReg Reg.RING_CH_EN i 1
    if recv then s.setRecv p c { owed := (s.recvChan p c).owed } else s.setSend p c { credits := s.reg Reg.RING_CRED i }

/-- A write of RES_SLOTS (R307). -/
def State.putResSlots (s : State) (p c : Nat) (recv : Bool) (n : Nat) : State :=
  if !recv && s.chanEn p c false && decide (25 < s.resSlots p c + n) then s.resRefused p c recv
  else s.setReg Reg.RING_RES_SLOTS (chanInst p c recv) n

/-- A write of CRED (R307). -/
def State.putCred (s : State) (p c : Nat) (recv : Bool) (n : Nat) : State :=
  if recv && decide (1024 < s.credSum p c + n) then s.resRefused p c recv
  else s.setReg Reg.RING_CRED (chanInst p c recv) n

/-! ### Links (R305, R315) -/

/-- The accepted packets up to the last one that ends a message. -/
def wholeMsgs (l : List Packet) : List Packet := (l.reverse.dropWhile (fun m => !m.last)).reverse

/-- A receive channel when a link starts afresh: a message whose packets have not all been accepted is discarded; one that
waits whole in the landing store still lands. -/
def RecvChan.fresh (r : RecvChan) : RecvChan :=
  let l := wholeMsgs r.stash
  let r' : RecvChan := if l.isEmpty then {} else { r with lost := r.lost.filter (fun n => l.any (fun m => m.msgId.toNat == n)) }
  { r' with
    k := r.k, lastId := r.lastId, heldHandle := r.heldHandle, relaying := r.relaying, stash := l, owed := 0, used := 0
    kept := (l.filter (fun m => m.type != 0)).length }

/-- Training starts with fresh sequence numbers and credits; unacknowledged messages are sent again from their first packet. -/
def State.startTraining (s : State) (p : Nat) : State :=
  let P := s.port p
  (s.setPort p
    { link := .training, msgs := P.msgs.map (fun m => { m with next := 0 }), nextMsg := P.nextMsg
      send := (List.range 16).foldl (fun (t : Tbl SendChan) c =>
        Tbl.set {} t c { credits := s.reg Reg.RING_CRED (chanInst p c false), nextId := (s.sendChan p c).nextId }) []
      recv := (P.recv.map (fun e => (e.1, e.2.fresh))).filter (fun e => decide (e.2 ≠ {})) }).setReg Reg.RING_FAIL_WHY p 0

/-- A write of LINK_EN. -/
def State.putLinkEn (s : State) (p v : Nat) : State :=
  let s := s.setReg Reg.RING_LINK_EN p v
  let l := (s.port p).link
  if bitOf v 0 then (if l == .down || l == .failed then s.startTraining p else s)
  else s.onPort p fun P => { P with link := .down }

/-- A TRAIN flit: the peer's identity, its position and the round trip; the link comes UP or fails (R305). -/
def State.train (s : State) (p : Nat) (f : CtlFlit) : State :=
  let s := ((s.setReg Reg.RING_PEER_ID p f.ringId.toNat).setReg Reg.RING_PEER_POS p f.ringPos.toNat).setReg Reg.RING_RTT_NS p (min f.rtt 0xFFFF)
  if f.ringId.toNat ≠ s.reg Reg.RING_RING_ID p then s.linkFail p 1
  else if 16384 < f.rtt then s.linkFail p 2
  else
    let was := (s.port p).link
    let s := s.onPort p fun P => { P with link := .up, attempts := 0 }
    if was == .training then s.raiseRing p evLinkUp none else s

/-- A training or retraining attempt does not complete; the third in a row fails the link. -/
def State.attemptFails (s : State) (p : Nat) : State :=
  let P := s.port p
  if s.ringOn p && (P.link == .training || P.link == .retrain) then
    if P.attempts + 1 < 3 then s.setPort p { P with attempts := P.attempts + 1 }
    else
      let s := s.linkFail p 4
      if P.link == .training then s.raiseRing p evLinkDown none else s
  else s

/-- A module of a port fails UCIe training or loses more lanes than repair covers (R298). -/
def State.laneLoss (s : State) (p : Nat) : State :=
  let l := (s.port p).link
  if s.ringOn p && (l == .training || l == .up || l == .retrain) then s.linkFail p 3 else s

/-- NAK_LIMIT as it acts. -/
def State.nakLimit (s : State) (p : Nat) : Nat := max (s.reg Reg.RING_NAK_LIMIT p) 1

/-! ### Register words of the RING pages (R318) -/

/-- RING words. LINK_EN starts a link; the channel words are written by the channel's tenancy while CH_EN is 0;
FORCE_RETRAIN retrains. -/
def State.storeRing (s : State) (P : Page) (x : Actor) (off v : Nat) : State :=
  let p := P.num
  let i := s.instOf P x Reg.RING_CH_EN
  let c := i % 16
  let recv := decide (16 ≤ i % 32)
  let mine := s.owns P x Reg.RING_CH_EN i
  let was := s.chanEn p c recv
  if off = 0x100 then (if x.pm then s.putLinkEn p (v % 2) else s)
  else if off = 0x114 then
    let s := if x.pm then (s.setReg Reg.RING_CH_TEN i (bitsOf v 11 8)).putResSlots p c recv (bitsOf v 16 12) else s
    if !mine || was then s
    else
      let s := s.storeWord P x off v (fun f => f.is Reg.RING_CLASS || f.is Reg.RING_GATED || f.is Reg.RING_RELAY_EN || f.is Reg.RING_RELAY_CH)
      if bitOf v 0 then s.chanOn p c recv else s
  else if off = 0x128 then
    if mine && !was then
      (s.storeWord P x off v (fun f => !f.is Reg.RING_CRED)).putCred p c recv (bitsOf v 26 16)
    else s
  else if off = 0x900 then
    let s := s.storeWord P x off v anyField
    if x.pm && bitOf v 8 then s.enterRetrain p else s
  else s.storeWord P x off v (fun f => f.perm == .pm || f.scope != .chan || !was)

/-! ### Acknowledgements (R302, R303, R309, R316) -/

/-- A sequence number of the link that was never sent. -/
def Port.neverSent (P : Port) (q : Nat) : Bool := decide (P.txTotal < 4096) && decide (P.txTotal ≤ q)

/-- The last packet of a message is acknowledged: its channel posts and counts, and the message leaves the port. -/
def State.msgAcked (s : State) (p : Nat) (h : HeldPkt) : State :=
  match (s.port p).msgs.find? (fun m => m.no == h.no) with
  | none => s
  | some m =>
    let s := s.onPort p fun P => { P with msgs := removeFirst (fun x => decide (x = m)) P.msgs }
    let i := chanInst p h.ch false
    let s := (s.endMsg p m).setReg Reg.RING_MSGS i (s.reg Reg.RING_MSGS i + 1)
    let s := match s.chanLbx p h.ch false with
      | some n => s.postAndLand (s.chanTen p h.ch false) n 1
      | none => s
    if m.relay.isSome then s.landAll else s

/-- The held packets that an acknowledgement of `q` covers, and those it does not. -/
def splitAck (l : List HeldPkt) (q : Nat) : List HeldPkt × List HeldPkt :=
  if l.any (fun h => h.pkt.seq.toNat == q) then
    (l.takeWhile (fun h => h.pkt.seq.toNat != q) ++ (l.dropWhile (fun h => h.pkt.seq.toNat != q)).take 1,
      (l.dropWhile (fun h => h.pkt.seq.toNat != q)).drop 1)
  else ([], l)

/-- An acknowledgement of every packet up to `q`, in a packet or flit of channel `c` and SEQ `seq` (Table 12.4). -/
def State.acked (s : State) (p c q seq : Nat) : State :=
  if (s.port p).neverSent q then s.ringViol p 5 c seq
  else
    let d := splitAck (s.port p).retry q
    let s := if d.1.isEmpty then s else s.onPort p fun P => { P with retry := d.2, naks := 0 }
    d.1.foldl (fun (s : State) h => if h.pkt.last then s.msgAcked p h else s) s

/-- A NAK naming `q`: the packets from it on are sent again. -/
def State.naked (s : State) (p q : Nat) : State :=
  if (s.port p).neverSent q then s.ringViol p 5 0 q
  else s.onPort p fun P =>
    { P with
      naks := if P.naks ≠ 0 ∧ P.nakSeq = q then P.naks + 1 else 1
      nakSeq := q
      retry := P.retry.takeWhile (fun h => h.pkt.seq.toNat != q) ++
        (P.retry.dropWhile (fun h => h.pkt.seq.toNat != q)).map (fun h => { h with resend := true }) }

/-- No acknowledgement advances for 4 × RTT_NS: everything held is sent again, the oldest first (R303). -/
def State.retryAll (s : State) (p : Nat) : State :=
  if s.linkUp p then s.onPort p fun P => { P with retry := P.retry.map (fun h => { h with resend := true }) } else s

/-- Credit returns; one above the configured credits is clamped (R304, R316). -/
def State.takeCredits (s : State) (p q : Nat) (l : List Byte) : State :=
  ((List.range 16).zip l).foldl (fun (s : State) e =>
    let x := s.sendChan p e.1
    let cap := s.reg Reg.RING_CRED (chanInst p e.1 false)
    let n := x.credits + e.2.toNat
    if e.2 = 0 then s
    else if n ≤ cap then s.setSend p e.1 { x with credits := n }
    else (s.setSend p e.1 { x with credits := max cap x.credits }).ringViol p 6 e.1 q) s

/-- A failed CRC; more than 64 in one frame retrain the link (R316). -/
def State.crcFail (s : State) (p q : Nat) : State :=
  let n := (s.port p).crcFrame + 1
  let s := (s.bump Reg.RING_CRC_ERR p).onPort p fun P => { P with crcFrame := n }
  if n = 65 then (s.ringViol p 7 0 q).enterRetrain p else s

/-- A received control flit (R301). -/
def State.takeFlit (s : State) (p : Nat) (f : CtlFlit) : State :=
  let l := (s.port p).link
  let q := f.seq.toNat
  if !s.ringOn p || l == .down || l == .failed then s
  else if crc32c (flitBytes f) ≠ f.crc then s.crcFail p q
  else
    let s := if l == .training then s else s.takeCredits p q f.credits
    if f.type = 0x6 then (if l == .up then s else s.train p f)
    else if l != .up then s
    else if f.type = 0x2 then s.acked p 0 q q
    else if f.type = 0x3 then s.naked p q
    else s

/-! ### Receiving (R302, R304, R306, R316) -/

/-- An accepted packet goes to its channel. -/
def State.acceptPacket (s : State) (p : Nat) (m : Packet) : State :=
  let c := m.chan.toNat
  let i := chanInst p c true
  let q := m.seq.toNat
  let giveBack := fun (s : State) => let r := s.recvChan p c; s.setRecv p c { r with owed := r.owed + 1 }
  let fresh := fun (r : RecvChan) => if m.first then { r with lost := r.lost.erase m.msgId.toNat } else r
  let lose := fun (s : State) =>
    let r := s.recvChan p c
    let s := s.setRecv p c { fresh r with stash := r.stash ++ [{ m with type := 0, payload := [] }] }
    ((if r.tail m then s else s.loseMsg p c m.msgId.toNat)).landStash 1025 p c
  if !s.chanEn p c true then giveBack (s.ringViol p 2 c q)
  else if m.tag.toNat ≠ s.reg Reg.RING_TAG_LO i + 2 ^ 11 * s.reg Reg.RING_TAG_HI i then giveBack (s.ringViol p 3 c q)
  else if m.type ≠ 1 then lose (giveBack (s.ringViol p 1 c q))
  else
    let r := s.recvChan p c
    if s.reg Reg.RING_CRED i ≤ r.used + r.owed then lose (s.ringViol p 4 c q)
    else (s.setRecv p c { fresh r with used := r.used + 1, stash := r.stash ++ [m] }).landStash 1025 p c

/-- A received data packet (R302): only one with a good CRC and the expected number is accepted. -/
def State.takePacket (s : State) (p : Nat) (m : Packet) : State :=
  if !s.linkUp p then s
  else
    let nak := fun (s : State) => s.onPort p fun P => { P with nakDue := true }
    if crc32c (packetBytes m) ≠ m.crc then nak (s.crcFail p m.seq.toNat)
    else
      let d := (m.seq.toNat + 4096 - (s.port p).rxSeq) % 4096
      if d = 0 then
        let s := s.onPort p fun P => { P with rxSeq := (P.rxSeq + 1) % 4096, ackDue := true }
        let s := if m.ackV then s.acked p m.chan.toNat m.ackSeq.toNat m.seq.toNat else s
        s.acceptPacket p m
      else if d < 2048 then nak s
      else s

/-! ### Sending (R309, R310) -/

/-- The head of a mailbag is a handle that a send channel may take: a gated one awaits the seal of the task that put it. -/
def Mailbag.readyHead (b : Mailbag) (gated : Bool) : Bool :=
  match b.handles[b.takers.length]? with
  | some h => !gated || h.2.isNone
  | none => false

/-- A send channel takes a handle and queues its message (R309). -/
def State.startMessage (s : State) (p c : Nat) : State :=
  if !s.linkUp p || !s.chanEn p c false || (s.port p).msgs.any (fun m => m.ch == c && decide (m.next < pktCount m.len)) then s
  else match s.chanBag p c false with
    | none => s
    | some b =>
      let gated := s.flag Reg.RING_GATED (chanInst p c false)
      let s := if gated then s.bagPurge b else s
      if !(s.bag b).readyHead gated then s
      else match s.bagTake b (8 * (1024 + 16 * p + c)) with
        | none => s
        | some (h, s) =>
          let t := s.chanTen p c false
          let x := s.sharedRead t (h.toNat % 2 ^ 28) 64
          let d := leNat x.1
          let s := x.2
          let len := bitsOf d 52 32
          let clean := decide (bitsOf d 31 28 = 0) && decide (bitsOf d 63 53 = 0) && decide (d / 2 ^ 106 = 0)
          match s.chanLbx p c false with
          | none => s.msgDrop p t
          | some n =>
            if !clean || len % 64 ≠ 0 || decide (len < 64) || decide (1048512 < len) then (s.msgDrop p t).postAndLand t n 1
            else
              let y := s.sendChan p c
              let m : SendMsg :=
                { ch := c, msgId := y.nextId, payload := d % 2 ^ 28, len := len, user := BitVec.ofNat 32 (d / 2 ^ 64)
                  hops := bitsOf d 105 96, srcPos := s.reg Reg.RING_RING_POS p }
              (s.setSend p c { y with nextId := (y.nextId + 1) % 65536 }).onPort p fun P => P.queueMsg m

/-! ### Frames (R299, R303, R304, R307) -/

/-- The message a channel is sending: the next one leaves in a later frame (R313). -/
def Port.sending (P : Port) (c : Nat) : Option SendMsg := P.msgs.find? (fun m => m.ch == c && decide (m.next < pktCount m.len))

/-- Packets not yet sent of the message a channel is sending. -/
def State.pendingPkts (s : State) (p c : Nat) : Nat :=
  match (s.port p).sending c with
  | some m => pktCount m.len - m.next
  | none => 0

/-- Packets a send channel could send now: none during hold (R384). -/
def State.sendable (s : State) (p c : Nat) : Nat :=
  if s.chanEn p c false && !s.hold then min (s.pendingPkts p c) (s.sendChan p c).credits else 0

/-- The send channel is reserved. -/
def State.reservedCh (s : State) (p c : Nat) : Bool := s.reg Reg.RING_CLASS (chanInst p c false) == 0

/-- Slots given to the reserved channels: one entry per slot. -/
def State.reservedSlots (s : State) (p : Nat) : List Nat :=
  ((List.range 16).filter (s.reservedCh p)).flatMap (fun c =>
    List.replicate (min (s.reg Reg.RING_RES_SLOTS (chanInst p c false)) (s.sendable p c)) c)

/-- Gives `n` slots to channels in round-robin order from `at_`: the slots, and where the next frame goes on. -/
def roundRobin (n fuel at_ : Nat) (want : Tbl Nat) : List Nat × Nat :=
  match n, fuel with
  | 0, _ => ([], at_)
  | _, 0 => ([], at_)
  | k + 1, m + 1 =>
    let c := at_ % 16
    let w := Tbl.get 0 want c
    if w = 0 then roundRobin (k + 1) m (at_ + 1) want
    else
      let r := roundRobin k m (at_ + 1) (Tbl.set 0 want c (w - 1))
      (c :: r.1, r.2)

/-- Slots given to the best-effort channels, of `n` that are left. -/
def State.bestSlots (s : State) (p n : Nat) : List Nat × Nat :=
  let want := ((List.range 16).filter (fun c => !s.reservedCh p c)).foldl (fun (t : Tbl Nat) c => Tbl.set 0 t c (s.sendable p c)) []
  roundRobin n 512 (s.port p).rr want

/-- The slot of the present frame that a retransmission takes beyond the reserve slots: the slots left, and the reserved
channel displaced. `none` where there is none it may take (R303). -/
def State.displace (s : State) (p c : Nat) (unused : Nat) (best res : List Nat) : Option (Nat × List Nat × List Nat × Option Nat) :=
  if 0 < unused then some (unused - 1, best, res, none)
  else if !best.isEmpty then some (0, best.take (best.length - 1), res, none)
  else if res.contains c then some (0, best, res.erase c, some c)
  else match res.find? (fun d => s.chanTen p d false == s.chanTen p c false) with
    | some d => some (0, best, res.erase d, some d)
    | none => none

/-- Retransmits one held packet by sequence number. -/
def State.resent (s : State) (p q : Nat) : State :=
  (s.bump Reg.RING_RETRIES p).onPort p fun P =>
    { P with retry := P.retry.map (fun h => if h.pkt.seq.toNat == q then { h with resend := false } else h) }

/-- The retransmissions of a frame: the first five in reserve slots, the others where they may. What is left of the
frame's slots follows. -/
def State.resendAll (p : Nat) (l : List HeldPkt) (reserve unused : Nat) (best res : List Nat) (s : State) :
    State × List Nat × List Nat :=
  match l with
  | [] => (s, best, res)
  | h :: r =>
    match reserve with
    | k + 1 => (s.resent p h.pkt.seq.toNat).resendAll p r k unused best res
    | 0 => match s.displace p h.ch unused best res with
      | none => s.resendAll p r 0 unused best res
      | some (u, b, x, d) =>
        let s := match d with | some c => s.bump Reg.RING_RES_LATE (chanInst p c false) | none => s
        (s.resent p h.pkt.seq.toNat).resendAll p r 0 u b x

/-- Packets one retry buffer holds. -/
def retryDepth : Nat := 1024

/-- Sends the next packet of a channel: it reads the payload, spends a credit and holds the packet (R303, R304, R309). -/
def State.sendPacket (s : State) (p c : Nat) : State :=
  match (s.port p).sending c with
  | none => s
  | some m =>
    let x := s.sendChan p c
    if retryDepth ≤ (s.port p).retry.length ∨ x.credits = 0 then s
    else
      let t := s.chanTen p c false
      let i := chanInst p c false
      let n := pktLen m.len m.next
      let rd := s.sharedRead t ((m.payload + 2048 * m.next) % 2 ^ 28) n
      let s := rd.2
      let P := s.port p
      let fill := (n + 63) / 64 * 64 - n
      let pkt : Packet :=
        { type := 1, seq := BitVec.ofNat 12 P.txTotal, cls := !s.reservedCh p c, chan := BitVec.ofNat 4 c
          first := m.next == 0, last := m.next + 1 == pktCount m.len
          tag := BitVec.ofNat 16 (s.reg Reg.RING_TAG_LO i + 2 ^ 11 * s.reg Reg.RING_TAG_HI i), msgId := BitVec.ofNat 16 m.msgId
          pktIdx := BitVec.ofNat 9 m.next, nfl := BitVec.ofNat 5 ((n + 63) / 64 - 1), srcPos := BitVec.ofNat 10 m.srcPos, user := m.user
          msgLen := BitVec.ofNat 21 m.len, hops := BitVec.ofNat 10 m.hops, payload := rd.1 ++ List.replicate fill (0 : Byte)
          ackSeq := BitVec.ofNat 12 (P.rxSeq + 4095), ackV := P.ackDue, crc := 0 }
      let pkt := { pkt with crc := crc32c (packetBytes pkt) }
      let sent := fun (y : SendMsg) => if y = m then { y with next := y.next + 1 } else y
      let s := s.setPort p { P with txTotal := P.txTotal + 1, retry := P.retry ++ [{ pkt := pkt, ch := c, no := m.no }], msgs := P.msgs.map sent }
      ((s.setSend p c { x with credits := x.credits - 1 }).bump64 Reg.RING_TX_BYTES_LO Reg.RING_TX_BYTES_HI p n).chargeRing p t n

/-- A frame of a port's send direction, in which no more channels have a slot than the retry buffer has room: retransmissions, new packets,
and control flits that carry the acknowledgement and the credit returns due. The count of a frame's CRC failures starts afresh, whether or
not the link is UP (R316). -/
def State.frame (s : State) (p : Nat) : State :=
  if !s.linkUp p then s.onPort p fun P => { P with crcFrame := 0 }
  else
    let room := retryDepth - (s.port p).retry.length
    let res := (s.reservedSlots p).take room
    let be := s.bestSlots p (min 25 room - res.length)
    let unused := 25 - res.length - be.1.length
    let again := (s.port p).retry.filter (·.resend)
    let r := s.resendAll p again 5 unused be.1 res
    let s := r.1.onPort p fun P => { P with rr := be.2 % 16 }
    let s := (r.2.2 ++ r.2.1).foldl (fun (s : State) c => s.sendPacket p c) s
    s.onPort p fun P =>
      { P with
        ackDue := false, nakDue := false, crcFrame := 0
        recv := (P.recv.map (fun e => (e.1, { e.2 with owed := e.2.owed - 1020 }))).filter (fun e => decide (e.2 ≠ {})) }

/-! ### The rows -/

/-- RETRAIN (R303, R305). -/
def execRetrain (p : PortNo) (s : State) : Host.Outcome State Fault Refusal :=
  .next (if s.ringOn p.toNat && decide (s.nakLimit p.toNat ≤ (s.port p.toNat).naks) then s.enterRetrain p.toNat else s)

/-- FRAME_START. -/
def execFrameStart (p : PortNo) (s : State) : Host.Outcome State Fault Refusal := .next (s.frame p.toNat)

/-- SEND_MESSAGE_START. -/
def execSendMessageStart (p : PortNo) (ch : Chan) (s : State) : Host.Outcome State Fault Refusal :=
  .next (s.startMessage p.toNat ch.toNat)

/-- DATA_PACKET. -/
def execDataPacket (p : PortNo) (pkt : Packet) (s : State) : Host.Outcome State Fault Refusal := .next (s.takePacket p.toNat pkt)

/-- CONTROL_FLIT. -/
def execControlFlit (p : PortNo) (flit : CtlFlit) (s : State) : Host.Outcome State Fault Refusal := .next (s.takeFlit p.toNat flit)

/-- LANDING_START (R311). -/
def execLandingStart (p : PortNo) (ch : Chan) (s : State) : Host.Outcome State Fault Refusal :=
  .next (if s.ringOn p.toNat && s.chanEn p.toNat ch.toNat true then s.landStash 1025 p.toNat ch.toNat else s)

/-- RETRY_TIMEOUT. -/
def execRetryTimeout (p : PortNo) (s : State) : Host.Outcome State Fault Refusal := .next (s.retryAll p.toNat)

/-- MODULE_LANE_LOSS. -/
def execModuleLaneLoss (p : PortNo) (s : State) : Host.Outcome State Fault Refusal := .next (s.laneLoss p.toNat)

/-- TRAINING_ATTEMPT_INCOMPLETE. -/
def execTrainingAttemptIncomplete (p : PortNo) (s : State) : Host.Outcome State Fault Refusal := .next (s.attemptFails p.toNat)

end Sys2Proof.Machine
end

