-- ==== Sys2Proof/Machine/Resets.lean ====
section
/-! DEFINITION. The resets (spec/16_power_and_reset.md R388 to R395, R400; spec/14_tenancy.md R340). -/
namespace Sys2Proof.Machine

/-! ### Tenancy reset, steps 1 to 4 (R390) -/

/-- A task is abandoned for good, whatever it is doing: its staging, its gated handles and what it waits for go with it. -/
def State.abandonTask (s : State) (rid : Nat) : State :=
  match s.task rid with
  | none => s
  | some x =>
    let a := x.array
    let s := ((s.bagSettle rid false).dropStaged rid).bagForget (fun b => b == a && (s.arr a).task == some rid)
    let s := if (s.arr a).task = some rid then (s.dropReads a).onArr a ArrayState.idle else s
    (s.onArr a fun A => { A with placed := A.placed.filter (fun r => r != rid) }).setTask rid none

/-- Reads of a tenancy's tasks that have not been issued are withdrawn, and with them the writes that they were to fill. -/
def State.dropWaiting (s : State) (t : Nat) : State :=
  { s with mport := { s.mport with
      chans := s.mport.chans.map (fun e => (e.1, { e.2 with wait := e.2.wait.filter (fun x =>
        !(x.ten == t && (match x.owner with | .task _ _ _ => x.kind == 0 || x.need != 0 | _ => false))) })) } }

/-- Steps 1 to 4 of a tenancy reset. -/
def State.tenBegin (s : State) (t : Nat) : State :=
  let s := (List.range 4).foldl (fun (s : State) k =>
    (s.setReg Reg.SUBQ_EN (4 * t + k) 0).setQueue (4 * t + k) {}) s
  let gone := (s.disp.cmds.filter (fun c => tenOfQueue c.queue == t)).map (·.cid)
  let s := s.onDisp fun d => { d with cmds := d.cmds.filter (fun c => tenOfQueue c.queue != t) }
  let s := s.clearArrs (fun _ => true) (fun A => { A with loads := A.loads.filter (fun l => !gone.contains l.cid) })
  let s := (s.disp.tasks.filter (fun e => match e.2 with | some x => x.ten == t | none => false)).foldl
    (fun (s : State) e => s.abandonTask e.1) s
  let s := s.releaseOn t
  let s := allChans.foldl (fun (s : State) x => [false, true].foldl (fun (s : State) r =>
    if s.chanTen x.1 x.2 r = t then s.chanOff x.1 x.2 r else s) s) s
  s.dropWaiting t

/-! ### Steps 5 to 7 -/

/-- Some write of a tenancy is neither accepted nor timed out, or a release of it is still to come. -/
def State.tenWrites (s : State) (t : Nat) : Bool :=
  s.outstanding (fun x => x.ten == t && x.kind != 0) || s.mport.staged.any (fun c => c.ten == t)

/-- A class T field instance is a tenancy's. -/
def State.tenField (s : State) (t : Nat) (f : FieldSpec) (i : Nat) : Bool :=
  match f.scope with
  | .page => (f.page == .ten || f.page == .lbx) && i == t
  | .array | .ftArr => s.arrOf t i
  | .pool => s.reg Reg.CACHE_OWNER i == t
  | .routine => (s.routine i).owner == t
  | .submitter => s.reg Reg.DSP_SUB_TEN i == t
  | .mailbag => s.bagOf t i
  | .tsDsp | .tsMport | .meterTen | .stampTen | .flSel | .dlSel => i == t
  | .readerTen => i == t || (i == 16 && f.page == .ftab && s.reg Reg.FTAB_LAST_QUEUE 16 / 4 == t)
  | .queue => i / 4 == t
  | .chan => s.reg Reg.RING_CH_TEN i == t
  | .block => f.page == .mport && s.reg Reg.MPORT_ERR_TEN == t
  | .agent | .memCh | .dom => false

/-- An array after a tenancy reset: counters, settings and the audit log stay. -/
def ArrayState.tenReset (A : ArrayState) (t : Nat) : ArrayState :=
  { ctr := A.ctr, modes := A.modes, audit := A.audit, auditLost := A.auditLost, dead := A.dead.filter (fun e => e.ten != t) }

/-- Step 6 of a tenancy reset. -/
def State.tenClear (s : State) (t : Nat) : State :=
  let pools := (List.range 16).filter (fun p => s.reg Reg.CACHE_OWNER p == t)
  let subs := s.disp.subs.filter (fun e => s.reg Reg.DSP_SUB_TEN e.1 != t)
  let regs := Regs.reset s.regs (fun (f : FieldSpec) i => f.cls == RClass.t && s.tenField t f i)
  let mine := s.arrOf t
  let box := s.inRange t Reg.TEN_LB_FIRST Reg.TEN_LB_SIZE
  let bag := s.bagOf t
  let unit := s.inRange t Reg.TEN_SS_BASE Reg.TEN_SS_SIZE
  let s := s.clearArrs mine (fun A => A.tenReset t)
  let s := (List.range 4).foldl (fun (s : State) k => s.setQueue (4 * t + k) {}) s
  let conds := (s.conds.map (fun e => if mine e.1 then (e.1, { e.2 with rejoin := false }) else e)).filter
    (fun e => decide (e.2 ≠ ({} : ArrCond)))
  let s := s.onDisp fun d =>
    { d with
      lbx := Tbl.clearWhere d.lbx box
      mbx := Tbl.clearWhere d.mbx bag
      coll := Tbl.erase d.coll t
      subs := subs
      lib := d.lib.filter (fun e => e.2.owner != t) }
  let cache : CacheUnit :=
    { fences := s.cache.fences.filter (fun f => !pools.contains f.pool)
      second := s.cache.second.filter (fun e => e.1 != t)
      walks := s.cache.walks.filter (fun w => w.ten != t) }
  let s : State :=
    { s with
      shared := s.shared.zeroWhere (fun a => unit (a / 65536))
      conds := conds
      cache := cache
      faults := Tbl.erase s.faults t
      letters := Tbl.erase s.letters t
      ctl := { s.ctl with ctx := s.ctl.ctx.filter (fun e => e.1 % 17 != t) }
      regs := regs }
  s.setReg Reg.TEN_EN t 0

/-- The row TEN_DONE: once every write of the tenancy is answered, its state is reset and the reset ends. -/
def State.tenDone (s : State) : State :=
  match s.resets.ten with
  | none => s
  | some t =>
    if s.tenWrites t then s
    else ({ s.tenClear t with resets := { s.resets with ten := none } } : State).raise 0x03 0 (some t)

/-- A write of TEN_RST (R389). -/
def State.startTen (s : State) (t : Nat) : State :=
  if s.resets.ten.isSome || s.resets.arr.isSome || s.resets.block then s.setReg Reg.RST_REFUSED 0 1
  else ({ s.tenBegin t with resets := { s.resets with ten := some t } } : State).setReg Reg.RST_TEN_CUR 0 t

/-! ### Array reset (R391, R392) -/

/-- An array is dead by soft bypass alone (R102, R103). -/
def State.softDead (s : State) (a : Nat) : Bool :=
  s.isDead a && !bitOf (s.fuseRec a) 6 && !fuseBad (s.fuseRec a)

/-- An ARRAY reset may run on an array (R391). -/
def State.mayResetArr (s : State) (a : Nat) : Bool :=
  s.arrOn a && ((s.cond a).quarantined || s.softDead a || (s.tenOfArr a).isNone)

/-- A soft bypass as it is applied: one of the fused column has no further effect (R103). BYPASS_SET is raised where the applied column
changes, and not where a bypass in effect is applied again, which is the model's choice (log 31). -/
def State.applySoft (s : State) (a : Nat) : State :=
  let old := (s.cond a).applied
  let s := s.onCond a fun c =>
    { c with
      applied := if c.softEn && fuseCol (s.fuseRec a) != some c.softCol then some c.softCol else none
      softPend := false }
  if (s.cond a).applied = old then s else s.raiseArr .cond 1 a

/-- An array after its reset: what the dispatcher holds for it stays. -/
def ArrayState.zeroed (A : ArrayState) : ArrayState :=
  { dead := A.dead, loads := A.loads, placed := A.placed
    banks := { epochs := A.banks.epochs, loads := A.banks.loads } }

/-- The four pages of group `g`. -/
def groupPage (g n : Nat) : Bool := decide (pgPROG g ≤ n) && decide (n < pgPROG g + 4)

/-- A write of ARR_RST: refused, or the array is zeroed, its fields of class B and U return to their reset values, which clears EXPERT on
the pages of its group (R414), and its self-test begins. -/
def State.startArr (s : State) (a : Nat) : State :=
  if s.resets.ten.isSome || s.resets.arr.isSome || s.resets.block || !s.mayResetArr a then s.setReg Reg.RST_REFUSED 0 1
  else
    let s := (s.applySoft a).onArr a ArrayState.zeroed
    let s : State :=
      { s with
        regs := Regs.reset s.regs (fun (f : FieldSpec) i =>
          f.scope == .array && i == a && (f.cls == RClass.b || f.cls == RClass.u))
        resets := { s.resets with arr := some a }
        ctl := { s.ctl with expert := s.ctl.expert.filter (fun e => !groupPage (groupOf a) (e / 17)) } }
    (s.setReg Reg.RST_ARR_CUR 0 a).setReg Reg.RST_ARR_RESULT 0 0

/-- The row ARR_DONE: the self-test ends; BIST_SKIP makes it PASS. -/
def State.arrDone (s : State) (fail : Option Nat) : State :=
  match s.resets.arr with
  | none => s
  | some a =>
    let fail := if s.flag Reg.RST_BIST_SKIP then none else fail
    let s : State := { s with resets := { s.resets with arr := none } }
    let s := match fail with
      | none => (s.onCond a fun c => { c with quarantined := false, rejoin := (s.tenOfArr a).isSome && !s.isDead a }).setReg Reg.RST_ARR_RESULT 0 1
      | some col =>
        ((s.onCond a fun c => { c with quarantined := true, rejoin := false }).setReg Reg.RST_ARR_RESULT 0 2).setReg Reg.RST_ARR_FCOL 0 col
    s.raise 0x03 1 (s.tenOfArr a)

/-- The row ARRAY_REJOIN: with no task of its tenancy dispatched or running, the array takes over the banks of the lowest
usable array and may be used (R392). -/
def State.rejoin (s : State) (a : Nat) : State :=
  match (s.cond a).rejoin, s.tenOfArr a with
  | true, some t =>
    if s.dispatching && s.receiptUse t == 0 && !s.isDead a then
      let b := match s.usable t with
        | [] => (s.arr a).banks
        | c :: _ => { (s.arr a).banks with user := (s.arr c).banks.user, active := (s.arr c).banks.active }
      (s.onArr a fun A => { A with banks := b }).onCond a fun c => { c with rejoin := false }
    else s
  | _, _ => s

/-! ### Block reset (R394) -/

/-- A BLOCK reset starts: a tenancy reset of every tenancy, which supersedes the resets in progress. -/
def State.startBlock (s : State) : State :=
  let s := (List.range 16).foldl (fun (s : State) t => s.tenBegin t) s
  { s with resets := { block := true } }

/-- A register field that a BLOCK reset returns to its reset value; HOST_FID of entry 0 is of class C (Table 17.9). -/
def blockField (f : FieldSpec) : Bool := f.cls == RClass.b || f.cls == RClass.t || f.cls == RClass.u

/-- What a BLOCK reset leaves of a memory channel: the transactions still unanswered, and the credits. -/
def MemChan.afterBlock (c : MemChan) : MemChan :=
  { out := c.out.map (fun o => (o.1, { o.2 with dst := .none })), credits := c.credits + c.got.length, grant := c.grant }

/-- The row BLOCK_DONE: once every write is answered, every class B, T and U field and all state they govern is reset. -/
def State.blockDone (s : State) : State :=
  if !s.resets.block || (List.range 16).any s.tenWrites then s
  else
    let fid := s.reg Reg.BLK_HOST_FID 0 0
    let regs := Regs.reset s.regs (fun f _ => blockField f)
    let conds := (s.conds.map (fun e => (e.1, { e.2 with rejoin := false }))).filter (fun e => decide (e.2 ≠ ({} : ArrCond)))
    let chans := (s.mport.chans.map (fun e => (e.1, e.2.afterBlock))).filter (fun e => decide (e.2 ≠ ({} : MemChan)))
    let s : State :=
      { s with
        regs := Regs.set regs Reg.BLK_HOST_FID 0 fid
        arrs := [], conds := conds, shared := [], disp := {}, cache := {}, mport := { chans := chans }, ring := []
        faults := [], letters := [], resets := {}
        ctl := { credits := s.ctl.grant, grant := s.ctl.grant, answer := s.ctl.answer } }
    s.raise 0x03 2 none

/-! ### Cold reset (R101, R388) -/

/-- The fuse shadow that the fuse interface loads (R101). -/
def fuseShadow (f : FuseImage) : Fuses :=
  { records := f.records.foldl (fun (t : Tbl Nat) e => if e.1 < Config.arrays then Tbl.set 0 t e.1 e.2.toNat else t) []
    pmFid := f.pmFid.toNat, blockId := f.blockId.toNat, idcode := f.idcode.toNat, stepping := f.stepping.toNat
    revision := f.revision.toNat, romVerFtab := f.romVerFtab.toNat, taLevel := f.taLevel.toNat, romVerLib := f.romVerLib.toNat }

/-- COLD reset: the whole block, with the fuses loaded and host agent 0 mapped to the fused postmaster (R404). -/
def State.cold (s : State) (cause : Nat) (f : FuseImage) : State :=
  { State.reset with
    pending := s.pending, freeCtr := s.freeCtr, mem := s.mem, fuses := fuseShadow f
    regs := Regs.set (Regs.set [] Reg.RST_COLD_CAUSE 0 cause) Reg.BLK_HOST_FID 0 f.pmFid.toNat }

/-! ### RST words (R400) -/

/-- A write of an RST word by the postmaster. -/
def State.storeRst (s : State) (P : Page) (x : Actor) (off v : Nat) : State :=
  if off = 0x100 then (if x.pm && bitOf v 0 && bitsOf v 15 8 == 0xA5 then s.startBlock else s)
  else if off = 0x104 then (if x.pm && bitOf v 4 then s.startTen (v % 16) else s)
  else if off = 0x108 then (if x.pm && bitOf v 10 then s.startArr (v % 1024) else s)
  else s.storeWord P x off v anyField

/-! ### The rows that no register write makes -/

/-- COLD_RESET. -/
def execColdReset (cause : BitVec 2) (fuses : FuseImage) (s : State) : Host.Outcome State Fault Refusal :=
  .next (s.cold cause.toNat fuses)

/-- BLOCK_DONE. -/
def execBlockDone (s : State) : Host.Outcome State Fault Refusal := .next s.blockDone

/-- TEN_DONE. -/
def execTenDone (s : State) : Host.Outcome State Fault Refusal := .next s.tenDone

/-- ARR_DONE. -/
def execArrDone (failCol : Option (BitVec 4)) (s : State) : Host.Outcome State Fault Refusal :=
  .next (s.arrDone (failCol.map BitVec.toNat))

/-- ARRAY_REJOIN. -/
def execArrayRejoin (a : Arr) (s : State) : Host.Outcome State Fault Refusal := .next (s.rejoin a.toNat)

end Sys2Proof.Machine
end

