-- ==== Sys2Proof/Machine/RegFile.lean ====
section
/-! DEFINITION. The control port: register writes, doorbells, event messages, and the rows that are a write of one register
(spec/17_register_pages.md R401 to R425; spec/11_queues_and_sync.md R269, R270). -/
namespace Sys2Proof.Machine

/-! ### Register writes -/

/-- DSP words: SUB_CTL, MB_HPUT, and DISP_STEP, which accepts one command under DISP_PAUSE (Table 11.8). -/
def State.storeDsp (s : State) (P : Page) (x : Actor) (off v : Nat) : State :=
  if off = 0x104 then s.subCtl P x v
  else if off = 0x124 then s.hostPut P x v
  else
    let s := s.storeWord P x off v anyField
    if off = 0x900 ∧ x.pm ∧ bitOf v 1 ∧ s.flag Reg.DSP_DISP_PAUSE ∧ s.dispatching ∧ !s.hold then s.acceptNext else s

/-- BLK words: PM_XFER and HOST_FID. -/
def State.storeBlk (s : State) (P : Page) (x : Actor) (off v : Nat) : State :=
  if off = 0x114 then s.pmXfer x v
  else if 0x140 ≤ off ∧ off < 0x180 ∧ off % 4 = 0 then s.hostFid x ((off - 0x140) / 4) v
  else s.storeWord P x off v anyField

/-- PWR words: DOM_REQ of the selected domain and HOLD_REQ. -/
def State.storePwr (s : State) (P : Page) (x : Actor) (off v : Nat) : State :=
  let d := s.sel P x Reg.PWR_DOM_SEL
  if off = 0x104 then (if x.pm && decide (d < 24) then s.domReq d v else s)
  else if off = 0x11C then (if x.pm then s.holdReq v else s)
  else s.storeWord P x off v anyField

/-- A write of a basic or expert word of a page. -/
def State.storePage (s : State) (P : Page) (x : Actor) (off v : Nat) : State :=
  match P.kind with
  | .blk => s.storeBlk P x off v
  | .pwr => s.storePwr P x off v
  | .rst => s.storeRst P x off v
  | .ten => s.storeTen P x off v
  | .dsp => s.storeDsp P x off v
  | .ftab => s.storeFtab P x off v
  | .lbx => s.storeLbx P x off v
  | .cache => s.storeCache P x off v
  | .walk => s.storeWalk P x off v
  | .mport => s.storeMport P x off v
  | .ring => s.storeRing P x off v
  | .meter => s.storeMeter P x off v
  | .fault => s.storeFault P x off v
  | .dlog => s.storeDlog P x off v
  | .prog => s.storeProg P x off v
  | .time => s.storeTime P x off v
  | .cond => s.storeCond P x off v
  | .mon | .subq | .lib | .stamp | .group => s.storeWord P x off v anyField

/-- A write of a word that its host reaches. Expert words need EXPERT (R414); of a page whose domain is not ON only the
class C fields of its AON shadow are written (R407). -/
def State.writeWord (s : State) (P : Page) (x : Actor) (off : Nat) (v : Word) : State :=
  if !s.pageOn P then (if x.pm && P.kind == .cond && off == 0x128 then s.storePage P x off v.toNat else s)
  else if off < 0x020 then s.writeCommon P x off v
  else if 0x800 ≤ off ∧ !s.hasExpert P x then s
  else s.storePage P x off v.toNat

/-- A register write and its answer (R402, R406, R407, R412). -/
def State.busWrite (s : State) (fid addr : Nat) (form : AccessForm) (v : Word) : State :=
  match accessViol addr form with
  | some r => (s.portViol fid addr r).answer ansViol 0
  | none =>
    let x := s.actor fid
    let off := addr % 4096
    match s.reach x (addr / 4096) off true with
    | .off => s.answer ansOff 0
    | .zero => s.answer ansOK 0
    | .word P => (s.writeWord P x off v).answer ansOK 0

/-- A write of one word of a page. -/
def State.pageWrite (s : State) (fid : Fid) (page off : Nat) (v : Word) : Host.Outcome State Fault Refusal :=
  .next (s.busWrite fid.toNat (4096 * page + off) .word v)

/-- REGISTER_WRITE. -/
def execRegisterWrite (fid : Fid) (addr : BitVec 20) (form : AccessForm) (v : Word) (s : State) : Host.Outcome State Fault Refusal :=
  .next (s.busWrite fid.toNat addr.toNat form v)

/-- LO_WORD_READ, and every other register read (R402, R418). -/
def execLoWordRead (fid : Fid) (addr : BitVec 20) (form : AccessForm) (s : State) : Host.Outcome State Fault Refusal :=
  .next (s.busRead fid.toNat addr.toNat form)

/-! ### Doorbells (R269, R270, R408) -/

/-- A doorbell of a host that may not use the queue: recorded and dropped (R269). -/
def State.foreignDb (s : State) (fid q : Nat) : State :=
  let s := if s.flag Reg.SUBQ_FD_VALID then s
    else ((s.setReg Reg.SUBQ_FD_HOST 0 fid).setReg Reg.SUBQ_FD_QUEUE 0 q).setReg Reg.SUBQ_FD_VALID 0 1
  s.raise pgSUBQ 1 none

/-- A doorbell to a full or disabled queue: its postmark is recorded and the command dropped (R270). -/
def State.overpost (s : State) (q : Nat) (cmd : BitVec 512) : State :=
  let s := s.bump Reg.SUBQ_OVERPOST_CNT q
  let s := if s.flag Reg.SUBQ_OP_VALID q then s
    else (((s.setReg Reg.SUBQ_OP_SEQ_LO q (cmdSeqno cmd)).setReg Reg.SUBQ_OP_SEQ_HI q (cmdSeqno cmd / 2 ^ 32)).setReg
      Reg.SUBQ_OP_SUB q (cmdSubmitter cmd)).setReg Reg.SUBQ_OP_VALID q 1
  let f := if q < 32 then Reg.SUBQ_OP_PEND_LO else Reg.SUBQ_OP_PEND_HI
  (s.setReg f 0 (setBit (s.reg f) (q % 32))).raise pgSUBQ 0 (some (tenOfQueue q))

/-- A doorbell takes its place in a queue, or is dropped. -/
def State.doorbell (s : State) (fid addr : Nat) (cmd : BitVec 512) : State :=
  if addr / 4096 ≠ 0x15 ∨ addr % 64 ≠ 0 then (s.portViol fid addr 3).answer ansViol 0
  else if !s.dispatching then s.answer ansOff 0
  else
    let q := addr / 64 % 64
    let x := s.actor fid
    if !x.mayActIn (tenOfQueue q) then (s.foreignDb fid q).answer ansDropped 0
    else if !s.flag Reg.SUBQ_EN q || decide (Config.queueDepth ≤ (s.queue q).entries.length) then
      (s.overpost q cmd).answer ansDropped 0
    else (s.setQueue q { entries := (s.queue q).entries ++ [(cmd, x.agent.getD 0)] }).answer ansOK 0

/-- DOORBELL. -/
def execDoorbell (fid : Fid) (addr : BitVec 20) (cmd : BitVec 512) (s : State) : Host.Outcome State Fault Refusal :=
  .next (s.doorbell fid.toNat addr.toNat cmd)

/-! ### Event messages (R409 to R411, R422) -/

/-- A queued message may still go to its agent when it is sent. -/
def State.maySend (s : State) (n : Nat) (m : EvtMsg) : Bool :=
  let w := fun (i : Nat) => (m.payload.getD i 0).toNat
  if m.kind = 0 then s.mayRoute (if bitOf (w 0) 12 then ctxBlock else bitsOf (w 0) 11 8) n
  else if m.kind = 1 then s.mapped n && (n == 0 || s.tenOfAgent n == some (tenOfQueue (bitsOf (w 2) 21 16)))
  else true

/-- A LOST message with a count. -/
def lostMsg (n : Nat) : EvtMsg := { kind := 2, fid := 0, payload := [BitVec.ofNat 32 n, 0, 0, 0] }

/-- Removes the head of a partition; as the queue falls to 8 messages a LOST message with the count joins it (R411). -/
def State.popMsg (s : State) (n : Nat) : State :=
  let q := s.agentQ n
  let l := q.msgs.drop 1
  s.setAgentQ n (if l.length = 8 ∧ q.lost ≠ 0 then { msgs := l ++ [lostMsg q.lost], lost := 0 } else { q with msgs := l })

/-- Sends the next message, round-robin by host agent, while a credit is held. -/
def State.eventSend (s : State) : State :=
  if s.ctl.credits = 0 then s
  else match ((List.range 16).map (fun i => (s.ctl.rr + i) % 16)).find? (fun n => !(s.agentQ n).msgs.isEmpty) with
    | none => s
    | some n => match (s.agentQ n).msgs with
      | [] => s
      | m :: _ =>
        let may := s.maySend n m
        let t := s.popMsg n
        let t : State := { t with ctl := { t.ctl with rr := (n + 1) % 16 } }
        if may then
          { t with ctl := { t.ctl with
              credits := t.ctl.credits - 1, outstanding := t.ctl.outstanding + 1
              sentMsg := some { m with fid := s.reg Reg.BLK_HOST_FID 0 n } } }
        else t.dropMsg

/-- EVENT_SEND. -/
def execEventSend (s : State) : Host.Outcome State Fault Refusal := .next s.eventSend

/-- The fabric acknowledges a message; an acknowledgement of none is a violation (Table 17.4). -/
def State.eventAck (s : State) : State :=
  if s.ctl.outstanding = 0 then s.portViol 0 0 6
  else { s with ctl := { s.ctl with outstanding := s.ctl.outstanding - 1, credits := s.ctl.credits + 1 } }

/-- EVENT_ACK. -/
def execEventAck (s : State) : Host.Outcome State Fault Refusal := .next s.eventAck

/-! ### Rows that write one register -/

/-- EXPERT_UNLOCK: a write of PG_CTL (R414). -/
def execExpertUnlock (fid : Fid) (page : PageNo) (v : Word) (s : State) : Host.Outcome State Fault Refusal :=
  s.pageWrite fid page.toNat 0x008 v
/-- UNIT_RESET: a write of PG_CTL (R393). -/
def execUnitReset (fid : Fid) (page : PageNo) (v : Word) (s : State) : Host.Outcome State Fault Refusal :=
  s.pageWrite fid page.toNat 0x008 v
/-- HOST_FID_WRITE (R405). -/
def execHostFidWrite (fid : Fid) (n : BitVec 4) (v : Word) (s : State) : Host.Outcome State Fault Refusal :=
  s.pageWrite fid 0x00 (0x140 + 4 * n.toNat) v
/-- PM_XFER (R425). -/
def execPmXfer (fid : Fid) (v : Word) (s : State) : Host.Outcome State Fault Refusal := s.pageWrite fid 0x00 0x114 v
/-- RESUME (R266). -/
def execResume (fid : Fid) (g : Group) (v : Word) (s : State) : Host.Outcome State Fault Refusal :=
  s.pageWrite fid (pgPROG g.toNat) 0x908 v
/-- MB_HPUT (R283). -/
def execMbHput (fid : Fid) (v : Word) (s : State) : Host.Outcome State Fault Refusal := s.pageWrite fid pgDSP 0x124 v
/-- LETTERBOX_SET (R281). -/
def execLetterboxSet (fid : Fid) (t : Ten) (slot : BitVec 8) (v : Word) (s : State) : Host.Outcome State Fault Refusal :=
  s.pageWrite fid (pgLBX t.toNat) (0x080 + 8 * slot.toNat) v
/-- LETTERBOX_POST (R280). -/
def execLetterboxPost (fid : Fid) (t : Ten) (slot : BitVec 8) (v : Word) (s : State) : Host.Outcome State Fault Refusal :=
  s.pageWrite fid (pgLBX t.toNat) (0x084 + 8 * slot.toNat) v
/-- DISP_STEP (Table 11.8). -/
def execDispStep (fid : Fid) (v : Word) (s : State) : Host.Outcome State Fault Refusal := s.pageWrite fid pgDSP 0x900 v
/-- TEN_EN_WRITE (R340). -/
def execTenEnWrite (fid : Fid) (t : Ten) (v : Word) (s : State) : Host.Outcome State Fault Refusal :=
  s.pageWrite fid (pgTEN t.toNat) 0x100 v
/-- HOST_MASK_WRITE (R339). -/
def execHostMaskWrite (fid : Fid) (t : Ten) (v : Word) (s : State) : Host.Outcome State Fault Refusal :=
  s.pageWrite fid (pgTEN t.toNat) 0x104 v
/-- POOL_EN_WRITE (R204). -/
def execPoolEnWrite (fid : Fid) (v : Word) (s : State) : Host.Outcome State Fault Refusal := s.pageWrite fid pgCACHE 0x104 v
/-- INIT (R203). -/
def execInitPool (fid : Fid) (v : Word) (s : State) : Host.Outcome State Fault Refusal := s.pageWrite fid pgCACHE 0x104 v
/-- INIT_DONE (R203): only while the pool's initialisation runs. -/
def execInitDone (pool : BitVec 4) (s : State) : Host.Outcome State Fault Refusal :=
  .next (if s.domOn domKVC && s.flag Reg.CACHE_INIT_BUSY pool.toNat then s.portRow unitWho 1 fun s => s.initDone pool.toNat else s)
/-- SOFT_BYP_WRITE (R103). -/
def execSoftBypWrite (fid : Fid) (g : Group) (v : Word) (s : State) : Host.Outcome State Fault Refusal :=
  s.pageWrite fid (pgCOND g.toNat) 0x128 v
/-- AUD_CLEAR (R47). -/
def execAudClear (fid : Fid) (g : Group) (v : Word) (s : State) : Host.Outcome State Fault Refusal :=
  s.pageWrite fid (pgTIME g.toNat) 0x918 v
/-- FL_POP (R373). -/
def execFlPop (fid : Fid) (v : Word) (s : State) : Host.Outcome State Fault Refusal := s.pageWrite fid pgFAULT 0x108 v
/-- DL_POP (R373). -/
def execDlPop (fid : Fid) (v : Word) (s : State) : Host.Outcome State Fault Refusal := s.pageWrite fid pgDLOG 0x108 v
/-- INJ_ARM (R372). -/
def execInjArm (fid : Fid) (v : Word) (s : State) : Host.Outcome State Fault Refusal := s.pageWrite fid pgFAULT 0x900 v
/-- SL_FLUSH (R225). -/
def execSlFlush (fid : Fid) (v : Word) (s : State) : Host.Outcome State Fault Refusal := s.pageWrite fid pgWALK 0x904 v
/-- PH_FLUSH (R225). -/
def execPhFlush (fid : Fid) (v : Word) (s : State) : Host.Outcome State Fault Refusal := s.pageWrite fid pgWALK 0x904 v
/-- KEY_DATA (R355). -/
def execKeyData (fid : Fid) (v : Word) (s : State) : Host.Outcome State Fault Refusal := s.pageWrite fid pgMETER 0x148 v
/-- KEY_COMMIT (R355). -/
def execKeyCommit (fid : Fid) (v : Word) (s : State) : Host.Outcome State Fault Refusal := s.pageWrite fid pgMETER 0x14C v
/-- KEY_CLEAR (R355). -/
def execKeyClear (fid : Fid) (v : Word) (s : State) : Host.Outcome State Fault Refusal := s.pageWrite fid pgMETER 0x14C v
/-- LINK_EN (R305). -/
def execLinkEn (fid : Fid) (p : PortNo) (v : Word) (s : State) : Host.Outcome State Fault Refusal :=
  s.pageWrite fid (pgRING p.toNat) 0x100 v
/-- FORCE_RETRAIN (R305). -/
def execForceRetrain (fid : Fid) (p : PortNo) (v : Word) (s : State) : Host.Outcome State Fault Refusal :=
  s.pageWrite fid (pgRING p.toNat) 0x900 v
/-- CH_EN_WRITE (R308). -/
def execChEnWrite (fid : Fid) (p : PortNo) (v : Word) (s : State) : Host.Outcome State Fault Refusal :=
  s.pageWrite fid (pgRING p.toNat) 0x114 v
/-- RES_SLOTS_WRITE (R307). -/
def execResSlotsWrite (fid : Fid) (p : PortNo) (v : Word) (s : State) : Host.Outcome State Fault Refusal :=
  s.pageWrite fid (pgRING p.toNat) 0x114 v
/-- CRED_WRITE (R307). -/
def execCredWrite (fid : Fid) (p : PortNo) (v : Word) (s : State) : Host.Outcome State Fault Refusal :=
  s.pageWrite fid (pgRING p.toNat) 0x128 v
/-- DOM_REQ_WRITE (R376). -/
def execDomReqWrite (fid : Fid) (v : Word) (s : State) : Host.Outcome State Fault Refusal := s.pageWrite fid pgPWR 0x104 v
/-- HOLD_REQ (R384). -/
def execHoldReq (fid : Fid) (v : Word) (s : State) : Host.Outcome State Fault Refusal := s.pageWrite fid pgPWR 0x11C v
/-- TENANCY_RESET (R390). -/
def execTenancyReset (fid : Fid) (v : Word) (s : State) : Host.Outcome State Fault Refusal := s.pageWrite fid pgRST 0x104 v
/-- ARRAY_RESET (R391). -/
def execArrayReset (fid : Fid) (v : Word) (s : State) : Host.Outcome State Fault Refusal := s.pageWrite fid pgRST 0x108 v
/-- BLOCK_RESET: a keyed write of BLOCK_RST, or the warm reset input (R388). -/
def execBlockReset (input : Option (Fid × Word)) (s : State) : Host.Outcome State Fault Refusal :=
  match input with
  | some (fid, v) => s.pageWrite fid pgRST 0x100 v
  | none => .next s.startBlock

end Sys2Proof.Machine
end

