-- ==== Sys2Proof/Machine/Batch.lean ====
section
/-! DEFINITION. What the arguments of a vendor routine name: entry records, tiles, masks, computed blocks and the rows of Q, K
and V as a task reads them (spec/06_forward.md R131, R134, R151 to R155, R157, R435, R436; spec/09_decode.md Table 9.1, R232;
spec/10_instructions.md R261, R262; spec/18_sequences.md R428). -/
namespace Sys2Proof.Machine

/-! ### Arguments and entry records -/

/-- The records of an argument block (R261). -/
abbrev Args := List (Nat × Nat)

/-- A 32-bit argument as an FP32 word. -/
def Args.f32 (l : Args) (id dflt : Nat) : Word := BitVec.ofNat 32 (argW l id dflt)
/-- An address argument, if its record is there. -/
def Args.addr (l : Args) (id : Nat) : Option Nat := (argOf l id).map (· % 2 ^ 48)

/-- An entry record (R262). -/
structure EntryRec where
  qBase : Nat := 0
  kind : Nat := 0
  kv : Nat := 0
  qLen : Nat := 0
  kvLen : Nat := 0
  qPos : Nat := 0
  kPos : Nat := 0
deriving DecidableEq, Repr

/-- The entry record that 32 bytes spell. -/
def EntryRec.ofBytes (bs : List Byte) : EntryRec :=
  let v := leNat bs
  let f := fun (off msb lsb : Nat) => bitsOf v (8 * off + msb) (8 * off + lsb)
  { qBase := f 0 47 0, kind := f 8 63 60, kv := f 8 59 0, qLen := f 0x10 31 0, kvLen := f 0x14 31 0, qPos := f 0x18 31 0
    kPos := f 0x1C 31 0 }

/-- The cache sequence and plane of an entry of kind 2. -/
def EntryRec.seq (e : EntryRec) : Nat := e.kv % 65536
def EntryRec.plane (e : EntryRec) : Nat := e.kv / 65536 % 4096

/-! ### A task's reads -/

/-- An FP32 word so read. -/
def State.seenW (s : State) (t a : Nat) : Word := BitVec.ofNat 32 (s.seenLe t a 4)

/-- Counts a line that a task reads: charged to the tenancy, or recorded where it lies outside its windows. -/
def State.countLine (s : State) (t l : Nat) : State := if s.inWindow t l then s.chargeRead t l 64 else s.violate t l 0

/-- A range of bytes that a task reads or writes: whether it lies in the shared store, its address and its length. -/
abbrev ByteRange := Bool × Nat × Nat

/-- The memory lines of some ranges; a task reads each once (log 33). -/
def memLines (l : List ByteRange) : List Nat := ((l.filter (fun r => !r.1)).flatMap (fun r => linesOf r.2.1 r.2.2)).eraseDups

/-- Counts the ranges that a task reads, of memory and then of the shared store (R342, R345). -/
def State.countRanges (s : State) (t : Nat) (l : List ByteRange) : State :=
  (l.filter (fun r => r.1)).foldl (fun (s : State) r => (s.sharedRead t r.2.1 r.2.2).2)
    ((memLines l).foldl (fun (s : State) a => s.countLine t a) s)

/-- Bytes that a task writes: a line outside the windows is discarded and recorded (R342). -/
def State.taskWrite (s : State) (t a : Nat) (bs : List Byte) : State :=
  (cutLines a bs).foldl (fun (s : State) p =>
    if s.inWindow t p.1 then s.writeMem t p.1 p.2 else s.violate t p.1 1) s

/-! ### The batch of a command -/

/-- What a task of a vendor routine works from: its tenancy, routine, arguments, entries and snapshots, the shared-store
addresses that came from mailbags, by entry, and memory as the reads of an epilogue that merges found it (R171). -/
structure Batch where
  t : Nat
  routine : Nat
  l : Args
  es : List EntryRec
  snaps : List Snap := []
  handles : List (Nat × Nat) := []
  prior : Memory := []

/-- An entry. -/
def Batch.entry (x : Batch) (e : Nat) : EntryRec := x.es.getD e {}
/-- Query heads per KV head. -/
def Batch.g (x : Batch) : Nat := argW x.l 0x04 1
/-- The head dimension. -/
def Batch.d (x : Batch) : Nat := argW x.l 0x03 0
/-- The routine is ATTN_DECODE. -/
def Batch.decode (x : Batch) : Bool := x.routine == 2
/-- The routine computes gradients: ATTN_BWD, or ATTN_REF with REF_OP 1. -/
def Batch.backward (x : Batch) : Bool := x.routine == 1 || (x.routine == 3 && argW x.l 0x80 0 == 1)
/-- Rows of an entry (R435). -/
def Batch.rows (x : Batch) (e : Nat) : Nat := (x.entry e).qLen * x.g
/-- The command row of row 0 of an entry (R436). -/
def Batch.rowBase (x : Batch) (e : Nat) : Nat := (x.es.take e).foldl (fun n r => n + r.qLen * x.g) 0
/-- The command token of token 0 of an entry (R436). -/
def Batch.tokBase (x : Batch) (e : Nat) : Nat := (x.es.take e).foldl (fun n r => n + r.qLen) 0
/-- Keys of the entries before an entry (log 33). -/
def Batch.keyBase (x : Batch) (e : Nat) : Nat := (x.es.take e).foldl (fun n r => n + r.kvLen) 0

/-- The snapshot of an entry's sequence. -/
def Batch.snap (x : Batch) (e : Nat) : Option Snap :=
  if (x.entry e).kind = 2 then x.snaps.find? (fun n => n.seq == (x.entry e).seq) else none
/-- Keys of an entry; in decode 0 means the snapshot's WTOP (R227). -/
def Batch.kvLen (x : Batch) (e : Nat) : Nat :=
  let n := (x.entry e).kvLen
  if x.decode && n == 0 then ((x.snap e).map (·.wtop)).getD 0 else n

/-- Query rows of a decode task (R232). -/
def Batch.rowsPerGroup (x : Batch) : Nat := max (argW x.l 0x44 1) 1
/-- Tiles of an entry (R435), or its row groups (R232). -/
def Batch.tiles (x : Batch) (e : Nat) : Nat :=
  if x.decode then (x.rows e + x.rowsPerGroup - 1) / x.rowsPerGroup
  else if [2, 4, 8, 16].contains x.g then (x.rows e + 31) / 32
  else x.g * (((x.entry e).qLen + 31) / 32)

/-- The entry's row in row `r` of a tile; none for padding (R155, R232, R435). -/
def Batch.rowIn (x : Batch) (e u r : Nat) : Option Nat :=
  let n := (x.entry e).qLen
  if x.decode then
    let p := u * x.rowsPerGroup + r
    if p < x.rows e then some p else none
  else if [2, 4, 8, 16].contains x.g then
    if 32 * u + r < x.rows e then some (32 * u + r) else none
  else
    let T := (n + 31) / 32
    let i := 32 * (u % T) + r
    if i < n then some (i * x.g + u / T) else none
/-- The rows of a tile. -/
def Batch.tileRows (x : Batch) (e u : Nat) : List (Option Nat) :=
  (List.range (if x.decode then x.rowsPerGroup else 32)).map (x.rowIn e u)

/-! ### Positions (R151, R436, Table 9.1) -/

/-- The command token of a row. -/
def Batch.token (x : Batch) (e p : Nat) : Nat := x.tokBase e + p / x.g
/-- The mask position of a row. -/
def Batch.qpos (x : Batch) (s : State) (e p : Nat) : Nat :=
  match (if x.decode then x.l.addr 0x24 else none) with
  | some a => s.seenLe x.t (a + 4 * x.token e p) 4
  | none => (x.entry e).qPos + p / x.g
/-- The rotary position of a row (R157). -/
def Batch.rotPos (x : Batch) (s : State) (e p : Nat) : Nat :=
  match (if x.decode then x.l.addr 0x25 else none), x.l.addr 0x24 with
  | some a, _ => s.seenLe x.t (a + 4 * x.token e p) 4
  | none, some a => s.seenLe x.t (a + 4 * x.token e p) 4
  | none, none => x.qpos s e p % 2 ^ 32
/-- The position of a key. -/
def Batch.kpos (x : Batch) (e j : Nat) : Nat := (x.entry e).kPos + j
/-- The position of the first draft key. -/
def Batch.draftPos (x : Batch) (e : Nat) : Nat :=
  let v := argW x.l 0x18 0xFFFFFFFF
  if x.decode && v == 0xFFFFFFFF then ((x.snap e).map (·.len)).getD 0 else v

/-! ### Masks (R151 to R153) -/

/-- The causal and window masks keep a pair. A value outside Table 6.1 that neither R132 nor R133 handles is used as given, here PREFIX_LEN,
WIN_L and WIN_R, elsewhere SPARSE_STRIDE and LBIAS, which is the model's choice (log 33). -/
def Batch.keepsSpan (x : Batch) (q k : Nat) : Bool :=
  (argW x.l 0x10 0 != 1 || decide (k ≤ q) || decide (k < argW x.l 0x11 0)) &&
  (argW x.l 0x12 0 != 1 || (decide (q ≤ k + argW x.l 0x13 0) && decide (k ≤ q + argW x.l 0x14 0)))

/-- The segment ID of a position. -/
def Batch.segId (x : Batch) (s : State) (a p : Nat) : Nat := s.seenLe x.t (a + 4 * p) 4

/-- Candidate `c` is candidate `k` or has it for an ancestor (R152). -/
def treeReaches (parent : Nat → Nat) (fuel k c : Nat) : Bool :=
  match fuel with
  | 0 => false
  | n + 1 => k == c || (decide (parent c < c) && treeReaches parent n k (parent c))

/-- The tree mask keeps a pair (R151, R152). -/
def Batch.keepsTree (x : Batch) (s : State) (e q k : Nat) : Bool :=
  match x.l.addr 0x17 with
  | none => true
  | some a =>
    let d := x.draftPos e
    if k < d ∨ q < d then true
    else
      let kc := k - d
      let qc := q - d
      decide (kc < 16) && decide (qc < 16) && treeReaches (fun c => (s.seenByte x.t (a + c)).toNat) 17 kc qc

/-- The bitmap bit of a tile and a key block (R153). -/
def Batch.bitmap (x : Batch) (s : State) (u n : Nat) : Bool :=
  match x.l.addr 0x19 with
  | none => true
  | some a => bitOf (s.seenByte x.t (a + u * argW x.l 0x1A 0 + n / 8)).toNat (n % 8)

/-- Every enabled mask but the bitmap keeps a key for a row (R151). -/
def Batch.keeps (x : Batch) (s : State) (e p j : Nat) : Bool :=
  let q := x.qpos s e p
  let k := x.kpos e j
  decide (j < x.kvLen e) && x.keepsSpan q k &&
  (match x.l.addr 0x15 with | none => true | some a => x.segId s a q == x.segId s a k) && x.keepsTree s e q k

/-! ### Computed blocks (R154) -/

/-- The keys of a block that lie within KV_LEN. -/
def Batch.blockKeys (x : Batch) (e n : Nat) : List Nat := (List.range (min 32 (x.kvLen e - 32 * n))).map (· + 32 * n)
/-- The least and the greatest of some numbers: the range of a block's segment IDs, whatever their order, which is the model's
choice where SEG_SORTED names IDs that decrease (R154; log 33). -/
def spanOf (l : List Nat) : Nat × Nat := (l.foldl min (l.headD 0), l.foldl max 0)

/-- The ranges of segment IDs of a tile and a block meet, where SEG_SORTED asks (R154). -/
def Batch.segsMeet (x : Batch) (s : State) (e : Nat) (live keys : List Nat) : Bool :=
  match x.l.addr 0x15, argW x.l 0x16 0 with
  | some a, 1 =>
    let q := spanOf (live.map (fun p => x.segId s a (x.qpos s e p)))
    let k := spanOf (keys.map (fun j => x.segId s a (x.kpos e j)))
    decide (q.1 ≤ k.2) && decide (k.1 ≤ q.2)
  | _, _ => true

/-- A key block is computed for a tile (R154). -/
def Batch.computes (x : Batch) (s : State) (e u n : Nat) : Bool :=
  let live := (x.tileRows e u).filterMap id
  let keys := x.blockKeys e n
  x.bitmap s u n && live.any (fun p => keys.any (fun j => x.keepsSpan (x.qpos s e p) (x.kpos e j))) && x.segsMeet s e live keys

/-- Key blocks of an entry. -/
def Batch.blockCount (x : Batch) (e : Nat) : Nat := (x.kvLen e + 31) / 32
/-- The computed key blocks of a tile, ascending. -/
def Batch.blocks (x : Batch) (s : State) (e u : Nat) : List Nat := (List.range (x.blockCount e)).filter (x.computes s e u)

/-! ### K and V (R59, R134, R205, R428) -/

/-- The value +0. -/
def zeroVal : Val := .fin false 0 0

/-- Codes of a plain format from bytes, as exact values. -/
def plainVals (c n : Nat) (bs : List Byte) : List Val := (unpackCodes (fmtOfCode c).bits n bs).map (fmtOfCode c).decode

/-- The values of a cache row expanded to a target format (R59). -/
def expandRow (fmt tgt : Nat) (codes scales : List Nat) : List Val :=
  if fmt = 0 then codes.map bf16.decode
  else
    let sc := fun (i : Nat) => if fmt = 1 then val32 (BitVec.ofNat 32 (scales.getD 0 0)) else e8m0 (scales.getD (i / 32) 0)
    (List.range codes.length).map (fun i =>
      (fmtOfCode tgt).decode ((fmtOfCode tgt).round (((if fmt = 3 then e2m1 else e4m3).decode (codes.getD i 0)).mul (sc i))))

/-- The operand format that K and V of a cache source expand to (R134); the backward routine takes BF16 (R176). -/
def Batch.target (x : Batch) : Nat := if !x.backward && decide (3 ≤ argW x.l 0x02 1) then 3 else 1

/-- A row of K (half 0) or V (half 1) of a cache source: +0 for a sequence without a snapshot, the null page (R289). -/
def Batch.cacheVals (x : Batch) (s : State) (e half j : Nat) : List Val :=
  match x.snap e with
  | none => List.replicate x.d zeroVal
  | some n =>
    let r := s.cacheRow n (x.entry e).plane half j
    expandRow (s.pool n.pool).fmt x.target r.1 r.2.1

/-- Where the K rows of an entry begin, and whether they lie in the shared store (R428). -/
def Batch.kvAddr (x : Batch) (e : Nat) : Bool × Nat :=
  let r := x.entry e
  if r.kind = 0 then (false, r.kv % 2 ^ 48)
  else if r.kind = 1 then (true, r.kv % 2 ^ 28)
  else (true, ((x.handles.find? (fun h => h.1 == e)).map (·.2)).getD 0 % 2 ^ 28)

/-- Bytes of one row in KV_FMT. -/
def Batch.kvRowBytes (x : Batch) : Nat := x.d * plainBytes (argW x.l 0x0D 1)
/-- The address of a row of K or V of a plain source. -/
def Batch.kvRowAt (x : Batch) (e half j : Nat) : Nat := (x.kvAddr e).2 + (half * (x.entry e).kvLen + j) * x.kvRowBytes

/-- A row of K (half 0) or V (half 1) as the cells read it; keys beyond KV_LEN are +0 (R155);
the backward routine reads every format as BF16 (R176). -/
def Batch.kvRow (x : Batch) (s : State) (e half j : Nat) : List Val :=
  if x.kvLen e ≤ j then List.replicate x.d zeroVal
  else if (x.entry e).kind = 2 then x.cacheVals s e half j
  else
    let a := x.kvRowAt e half j
    let n := x.kvRowBytes
    let l := plainVals (argW x.l 0x0D 1) x.d (if (x.kvAddr e).1 then (s.sharedRead x.t a n).1 else s.seen x.t a n)
    if x.backward then l.map (fun v => bf16.decode (bf16.round v)) else l

/-- The 32 rows of a block. -/
def Batch.kvBlock (x : Batch) (s : State) (e half n : Nat) : List (List Val) :=
  (List.range 32).map (fun i => x.kvRow s e half (32 * n + i))

/-- The columns of rows. -/
def columns (n : Nat) (rows : List (List Val)) : List (List Val) :=
  (List.range n).map (fun c => rows.map (fun r => r.getD c zeroVal))

/-- The operand class of K as the feeder presents it is FP8. -/
def Batch.keyFp8 (x : Batch) (s : State) (e : Nat) : Bool :=
  if x.backward then false
  else if (x.entry e).kind = 2 then
    (match x.snap e with | some n => (s.pool n.pool).fmt != 0 && x.target == 3 | none => x.target == 3)
  else isFp8 (argW x.l 0x0D 1)

/-- The translations that one key block needs. -/
def Batch.blockPages (x : Batch) (e n : Nat) : List (Snap × Nat) :=
  match (x.entry e).kind, x.snap e with
  | 2, some sn => (((x.blockKeys e n).map (· / 16)).eraseDups).map (fun pg => (sn, pg))
  | _, _ => []

/-- What the rows of `n` keys of a page are read from: their elements, and the scales of a scaled format (R231). -/
def Pool.pageReads (P : Pool) (f plane pg n : Nat) : List ByteRange :=
  if n = 0 then []
  else [0, 1].flatMap (fun half =>
    (false, P.rowAt f plane half (16 * pg), n * P.rowBytes) ::
      (if P.fmt = 1 then [(false, P.trailerAt f plane + 4 + 4 * half, 4)]
       else [(false, P.rowScaleAt f plane half (16 * pg), n * P.rowScales)]))

/-- The ranges that one key block of an entry is read from. -/
def Batch.blockReads (x : Batch) (s : State) (e n : Nat) : List ByteRange :=
  let keys := x.blockKeys e n
  match (x.entry e).kind, x.snap e with
  | 2, some sn => ((keys.map (· / 16)).eraseDups).flatMap (fun pg => match sn.frame pg with
    | some f => (s.pool sn.pool).pageReads f (x.entry e).plane pg (keys.filter (fun j => j / 16 == pg && decide (j < sn.wtop))).length
    | none => [])
  | 2, none => []
  | _, _ => [0, 1].map (fun half => ((x.kvAddr e).1, x.kvRowAt e half (32 * n), keys.length * x.kvRowBytes))

/-- A key that the blocks read reads the null page (R205); in decode only keys at or above WTOP count (R227). -/
def Batch.readsNull (x : Batch) (s : State) (e : Nat) (blocks : List Nat) : Bool :=
  match (x.entry e).kind, x.snap e with
  | 2, some n => blocks.any (fun b => (x.blockKeys e b).any (fun j =>
      if x.decode then decide (n.wtop ≤ j) else (s.cacheRow n (x.entry e).plane 0 j).2.2))
  | _, _ => false

/-- The status of a task that reads blocks of an entry: BAD_SEQ for a sequence that the dispatcher took no snapshot of (R289),
CACHE_SHORT where a null page was read (R205). -/
def Batch.readStatus (x : Batch) (s : State) (e : Nat) (blocks : List Nat) : Nat :=
  if (x.entry e).kind = 2 ∧ x.snap e = none then stBadSeq else if x.readsNull s e blocks then stCacheShort else stOK

/-! ### Q (R134, R157) -/

/-- How queries are prepared. -/
def Batch.prep (x : Batch) (s : State) : Prep :=
  { norm := argW x.l 0x26 0 == 1
    gamma := (x.l.addr 0x27).map (fun a => (List.range x.d).map (fun i => s.seenW x.t (a + 4 * i)))
    eps := x.l.f32 0x28 0x35800000, rot := argW x.l 0x20 0, rotDims := argW x.l 0x21 0, halves := argW x.l 0x22 0 == 1 }

/-- Bytes of one row of Q. -/
def Batch.qRowBytes (x : Batch) : Nat := x.d * plainBytes (argW x.l 0x0C 1)

/-- A prepared query row in FP32. -/
def Batch.qPrepared (x : Batch) (s : State) (e p : Nat) : List Word :=
  let raw := (plainVals (argW x.l 0x0C 1) x.d (s.seen x.t ((x.entry e).qBase + p * x.qRowBytes) x.qRowBytes)).map rne32
  prepRow (x.prep s) (x.rotPos s e p) (fun k => s.seenW x.t ((x.l.addr 0x23).getD 0 + 4 * k)) raw

/-- A query row as codes of an operand format, rounded once (R157). -/
def Batch.qCodes (x : Batch) (s : State) (fmt : Fmt) (e p : Nat) : List Nat :=
  (x.qPrepared s e p).map (fun v => fmt.round (val32 v))

/-- A query row as operand values; a padding row is +0. -/
def Batch.qVals (x : Batch) (s : State) (e : Nat) (p : Option Nat) : List Val :=
  match p with
  | none => List.replicate x.d zeroVal
  | some p =>
    let f := if x.keyFp8 s e then e4m3 else bf16
    (x.qCodes s f e p).map f.decode

/-! ### What tiles are read from (R151, R157) -/

/-- An optional argument names `n` bytes at an offset of its address. -/
def Batch.argRange (x : Batch) (id off n : Nat) : List ByteRange := ((x.l.addr id).map (fun a => (false, a + off, n))).toList

/-- The entry's rows that a tile holds. -/
def Batch.liveRows (x : Batch) (e u : Nat) : List Nat := (x.tileRows e u).filterMap id

/-- What the preparation of rows at some rotary positions reads beside them (R157). -/
def Batch.prepReads (x : Batch) (norm : Bool) (gamma : Nat) (pos : List Nat) : List ByteRange :=
  let h := argW x.l 0x21 0 / 2
  (if norm then x.argRange gamma 0 (4 * x.d) else []) ++
  (match argW x.l 0x20 0 with
   | 0 => []
   | 1 => pos.flatMap (fun p => x.argRange 0x23 (8 * (p * h)) (8 * h))
   | _ => x.argRange 0x23 0 (4 * h))

/-- The queries of a tile, their positions and what their preparation reads. -/
def Batch.queryReads (x : Batch) (s : State) (e u : Nat) : List ByteRange :=
  let live := x.liveRows e u
  let rot := argW x.l 0x20 0 != 0
  live.map (fun p => (false, (x.entry e).qBase + p * x.qRowBytes, x.qRowBytes)) ++
  live.flatMap (fun p => (if x.decode || rot then x.argRange 0x24 (4 * x.token e p) 4 else []) ++
    (if x.decode && rot then x.argRange 0x25 (4 * x.token e p) 4 else [])) ++
  x.prepReads (argW x.l 0x26 0 == 1) 0x27 (live.map (x.rotPos s e))

/-- What the forming of the tasks of a command reads, tile by tile, to know the computed blocks: bitmap rows, the segment IDs where they
are sorted, and a decode's positions (R153, R154, R170). -/
def Batch.formReads (x : Batch) (s : State) : List ByteRange :=
  (List.range x.es.length).flatMap (fun e => (List.range (x.tiles e)).flatMap (fun u =>
    x.argRange 0x19 (u * argW x.l 0x1A 0) ((x.blockCount e + 7) / 8) ++
    (if x.decode then (x.liveRows e u).flatMap (fun p => x.argRange 0x24 (4 * x.token e p) 4) else []) ++
    (if argW x.l 0x16 0 = 1 then (x.liveRows e u).flatMap (fun p => x.argRange 0x15 (4 * x.qpos s e p) 4) ++
      x.argRange 0x15 (4 * x.kpos e 0) (4 * x.kvLen e) else [])))

/-- What the masks of a tile read for some key blocks (R151 to R153). -/
def Batch.maskReads (x : Batch) (s : State) (e u : Nat) (blocks : List Nat) : List ByteRange :=
  x.argRange 0x19 (u * argW x.l 0x1A 0) ((x.blockCount e + 7) / 8) ++
  (x.liveRows e u).flatMap (fun p => x.argRange 0x15 (4 * x.qpos s e p) 4) ++
  blocks.flatMap (fun n => x.argRange 0x15 (4 * x.kpos e (32 * n)) (4 * (x.blockKeys e n).length)) ++
  x.argRange 0x17 0 16

end Sys2Proof.Machine
end

