-- ==== Sys2Proof/Machine/Attend.lean ====
section
/-! DEFINITION. Forward and decode attention on one tile: the key loop, the modes, the catch, the segment merge, the epilogue and
the conversion of the output (spec/06_forward.md R133 to R171; spec/09_decode.md R226 to R233; spec/03_numbers.md R61 to R71). -/
namespace Sys2Proof.Machine

/-! ### Runs and ledgers on one row -/

/-- A run of landing beats of `k` products each, from the value `c`, in ascending order (R61). Where the length of a reduction is no multiple
of `k`, the last beat sums the pairs that there are, which is the model's choice (log 49). -/
def dotRun (fuel k : Nat) (c : Word) (a b : List Val) : Word :=
  match fuel with
  | 0 => c
  | n + 1 => if a.isEmpty then c else dotRun n k (sum32 (val32 c :: List.zipWith Val.mul (a.take k) (b.take k))) (a.drop k) (b.drop k)

/-- A whole reduction as one run from +0. -/
def oneRun (k : Nat) (a b : List Val) : Word := dotRun a.length k 0 a b

/-- ACC_CHUNK as it acts (R65). -/
def chunkOf (v : Nat) : Nat := if v = 0 then 0 else max 16 (min v 256)

/-- The runs of a reduction cut every `chunk` landing beats (R65). -/
def runsOf (fuel chunk k : Nat) (a b : List Val) : List Word :=
  match fuel with
  | 0 => []
  | n + 1 =>
    if a.isEmpty then []
    else if chunk = 0 then [oneRun k a b]
    else oneRun k (a.take (chunk * k)) (b.take (chunk * k)) :: runsOf n chunk k (a.drop (chunk * k)) (b.drop (chunk * k))

/-- A ledger element as nothing has been promoted into it (R66). -/
def ledger0 : Word × Word := (negZero32, negZero32)
/-- Promotes runs in order, each with its sign (R66, R67). -/
def promoteAll (l : List (Word × Bool)) (h : Word × Word) : Word × Word :=
  l.foldl (fun h r => promote h.1 h.2 (if r.2 then fneg32 r.1 else r.1)) h

/-- The collapse of a ledger element (R71). -/
def collapse2 (h : Word × Word) : Word := if isZero32 h.2 then h.1 else fadd h.1 h.2
/-- The exact value of a ledger element (R71). -/
def exact2 (h : Word × Word) : Val := if isFinite32 h.1 then exactSum [val32 h.1, val32 h.2] else val32 h.1

/-- A result z in FP32 in the place of a ledger element: its exact value and its collapse are z, the sign of a zero with them (R166, R168).
-/
def heldZ (z : Word) : Word × Word := (z, negZero32)

/-- One output row of a group set: for each column the open run and its ledger; the landing beats of the open runs; and
whether a chunk's swap is due with the next row-scale (R147). -/
structure Lane where
  l : Word := 0
  m : Word := ninf32
  tripped : Bool := false
  kept : Bool := false
  cols : List (Word × Word × Word) := []
  count : Nat := 0
  due : Bool := false

/-- A row of `d` columns with fresh ledgers. -/
def Lane.fresh (d : Nat) : Lane := { cols := List.replicate d (0, ledger0) }

/-- Columns 224 to 255 of a pass of width 256, whose runs last one block (R139). -/
def lastTile (d i : Nat) : Bool := decide (256 ≤ d) && decide (224 ≤ i % 256)

/-- Swaps into their ledgers the groups of the columns that `lastTile` says are, or are not, time-shared. -/
def Lane.swap (x : Lane) (d : Nat) (last : Bool) : Lane :=
  { x with
    cols := ((List.range x.cols.length).zip x.cols).map (fun c =>
      if lastTile d c.1 == last then (0, promote c.2.2.1 c.2.2.2 c.2.1) else c.2) }

/-- The row of one group scaled by a factor, with its ledger row where any element of it is open (R63, R70). -/
def scaleTile (f : Word) (x : List (Word × Word × Word)) : List (Word × Word × Word) :=
  let isOpen := x.any (fun c => c.2 != ledger0)
  x.map (fun c => (fmul c.1 f, if isOpen then (fmul c.2.1 f, fmul c.2.2 f) else c.2))

/-- A row-scale of every output group. -/
def Lane.scale (x : Lane) (f : Word) : Lane :=
  { x with cols := (List.range (x.cols.length / 32)).flatMap (fun g => scaleTile f ((x.cols.drop (32 * g)).take 32)) }

/-- Landing beat `ks`: `k` products into every column. `v` gives the columns of the second operand. -/
def Lane.land (x : Lane) (k ks : Nat) (p : List Val) (v : List (List Val)) : Lane :=
  let a := (p.drop (ks * k)).take k
  { x with
    cols := List.zipWith (fun (c : Word × Word × Word) (b : List Val) =>
      (sum32 (val32 c.1 :: List.zipWith Val.mul a ((b.drop (ks * k)).take k)), c.2)) x.cols v
    count := x.count + 1 }

/-- 32 reduction elements into the output groups under ACC_CHUNK; with `defer`, a chunk that ends with the block is swapped
after the next row-scale (R65, R138, R147). A run that is promoted in this block, G7's of columns 224 to 255 in mode S too, is
promoted before that row-scale, which is the model's choice (R139; log 33). -/
def Lane.feed (x : Lane) (chunk k d : Nat) (defer : Bool) (p : List Val) (v : List (List Val)) : Lane :=
  let n := 32 / k
  let x := (List.range n).foldl (fun (x : Lane) ks =>
    let x := x.land k ks p v
    if chunk ≠ 0 ∧ chunk ≤ x.count then
      (if defer && ks + 1 == n then { x with due := true } else { x.swap d false with count := 0 })
    else x) x
  x.swap d true

/-! ### Parameters of the key loop -/

/-- What the key loop of one row needs: the products per beat of QKᵀ and P·V, the format of P and the scalars of Table 6.3. -/
structure Att where
  mode : Nat
  pFmt : Nat
  d : Nat
  kq : Nat
  kp : Nat
  tau : Word
  cap : Word
  lam : Word
  guard : Word
  chunk : Nat
  dot : Bool

/-- The columns whose last tile is time-shared: those of the forward pass (R139); in decode every tile has its group (R229). -/
def Att.shared (p : Att) : Nat := if p.dot then 0 else p.d

/-- The guard as it acts (R133). -/
def guardOf (g : Word) : Word :=
  if isNaN32 g then 0x42800000#32 else if flt g one32 then one32 else if flt 0x42900000#32 g then 0x42900000#32 else g

/-- MODE as it acts: U needs a BF16 P (R142). -/
def Batch.mode (x : Batch) : Nat :=
  let m := argW x.l 0x01 0
  if m = 0 ∧ argW x.l 0x02 1 ≠ 1 then 1 else m

/-- The parameters of an entry's key loop. -/
def Batch.att (x : Batch) (s : State) (e : Nat) : Att :=
  { mode := x.mode, pFmt := argW x.l 0x02 1, d := x.d
    kq := if x.decode then 8 else if x.keyFp8 s e then 8 else 4
    kp := if 3 ≤ argW x.l 0x02 1 then 8 else 4
    tau := x.l.f32 0x05 0, cap := x.l.f32 0x0A 0, lam := x.l.f32 0x0B 0, guard := guardOf (x.l.f32 0x09 0x42800000)
    chunk := chunkOf (argW x.l 0x40 64), dot := x.decode }

/-- A soft-cap is set. -/
def Att.capped (p : Att) : Bool := !isZero32 p.cap
/-- The operand of the probability evaluation: the score, or t under a soft-cap (R150). -/
def Att.source (p : Att) (sc : Word) : Word := if p.capped then fnTanh (argFma sc (fdiv p.tau p.cap) 0) else sc
/-- μ of the probability evaluation (Table 6.3). -/
def Att.mu (p : Att) : Word := if p.capped then p.cap else p.tau

/-! ### One key block of one row (R138, R146, R147, R229, R230) -/

/-- The mode-S maximum, the factor and everything it scales, before the block's probabilities (R146, R147). -/
def Lane.rise (x : Lane) (p : Att) (src : List (Option Word)) : Lane :=
  let mb := src.foldl (fun m v => match v with | some v => fmax m v | none => m) ninf32
  let m := fmax x.m mb
  let f := if m = ninf32 then one32 else fnExp (argSubMul x.m m p.mu)
  let y := ({ x with m := m, l := fmul x.l f }).scale f
  if y.due then { y.swap p.shared false with due := false, count := 0 } else y

/-- The argument of an unmasked element (Table 6.3). -/
def Att.arg (p : Att) (modeS : Bool) (b m v : Word) : Word :=
  if modeS then argSubMul v m p.mu else if p.mode = 2 then argFma v p.mu p.lam else argFma v p.mu (fneg32 b)

/-- One computed block on one row: keys, columns of V, and which keys are kept. -/
def Lane.block (x : Lane) (p : Att) (modeS : Bool) (b : Word) (q : List Val) (keys : List (List Val)) (v : List (List Val))
    (keep : List Bool) : Lane :=
  let src := List.zipWith (fun (k : List Val) (h : Bool) => if h then some (p.source (oneRun p.kq q k)) else none) keys keep
  let x := { x with kept := x.kept || keep.any id }
  let x := if modeS then x.rise p src else x
  let args := src.map (fun o => o.map (p.arg modeS b x.m))
  let fmt := fmtOfCode p.pFmt
  let codes := args.map (fun o => match o with
    | some a => fmt.round (val32 (if p.mode = 2 then fnLogistic a else fnExp a))
    | none => 0)
  let vals := codes.map (fun c => rne32 (fmt.decode c))
  let l := if p.mode = 2 then x.l else if p.dot then fadd x.l (laneSum vals) else vals.foldl fadd x.l
  let trip := !modeS && p.mode == 0 && args.any (fun o => match o with | some a => flt p.guard a | none => false)
  ({ x with l := l, tripped := x.tripped || trip }).feed p.chunk p.kp p.shared modeS (codes.map fmt.decode) v

/-! ### The key loop of a tile -/

/-- What the key loop leaves of one row: whether a key was kept, the flags, the bias, ℓ and the ledgers. -/
structure RowRes where
  kept : Bool := false
  modeS : Bool := false
  due : Bool := false
  caught : Bool := false
  b : Word := 0
  l : Word := 0
  z : List (Word × Word) := []

/-- A row at the end of the key loop: every output group is swapped into its ledger; the bias of R148; the catch of R143. -/
def Lane.finish (x : Lane) (p : Att) (modeS : Bool) (b : Word) : RowRes :=
  let y := (x.swap p.shared false).swap p.shared true
  let z := y.cols.map (·.2)
  { kept := x.kept, modeS := modeS, b := if modeS then fmul x.m p.mu else b, l := x.l, z := z
    caught := !modeS && p.mode == 0 && x.kept &&
      (x.tripped || isZero32 x.l || x.l == inf32 || z.any (fun h => (val32 (collapse2 h)).isInf)) }

/-- The mode-U bias of a row (Table 6.1). -/
def Batch.bias (x : Batch) (s : State) (e : Nat) (p : Option Nat) : Word :=
  match argW x.l 0x06 0, p with
  | 1, _ => x.l.f32 0x07 0
  | 2, some p => s.seenW x.t ((x.l.addr 0x08).getD 0 + 4 * (x.rowBase e + p))
  | _, _ => 0

/-- The keys of a block that a row keeps. -/
def Batch.keepRow (x : Batch) (s : State) (e : Nat) (p : Option Nat) (n : Nat) : List Bool :=
  (List.range 32).map (fun i => match p with | some p => x.keeps s e p (32 * n + i) | none => false)

/-- The key loop of a tile over some blocks. -/
def Batch.loop (x : Batch) (s : State) (e u : Nat) (blocks : List Nat) (modeS : Bool) : List RowRes :=
  let p := x.att s e
  let rows := (x.tileRows e u).map (fun r => (r, x.qVals s e r, x.bias s e r))
  let lanes := blocks.foldl (fun (ls : List Lane) n =>
    let keys := x.kvBlock s e 0 n
    let v := columns x.d (x.kvBlock s e 1 n)
    List.zipWith (fun (y : Lane) (r : Option Nat × List Val × Word) =>
      y.block p modeS r.2.2 r.2.1 keys v (x.keepRow s e r.1 n)) ls rows) (rows.map (fun _ => Lane.fresh x.d))
  List.zipWith (fun (y : Lane) (r : Option Nat × List Val × Word) => y.finish p modeS r.2.2) lanes rows

/-- The rows of a tile, caught rows taken from the rerun in mode S (R144); at D = 512 the passes leave collapses (R166). -/
def Batch.tile (x : Batch) (s : State) (e u : Nat) (blocks : List Nat) : List RowRes :=
  let r := x.loop s e u blocks (x.mode == 1)
  let r := if r.any (·.caught) then
      List.zipWith (fun (a b : RowRes) => if a.caught then { b with due := true, caught := true } else a) r (x.loop s e u blocks true)
    else r
  if x.d = 512 then r.map (fun y => { y with z := y.z.map (fun h => heldZ (collapse2 h)) }) else r

/-! ### Segments and their merge (R167, R168) -/

/-- What a segment leaves of a row in the staging area: flags, b, ℓ and the collapses. -/
def RowRes.words (r : RowRes) : List Word :=
  BitVec.ofNat 32 (natOfBool r.kept + 2 * natOfBool r.modeS + 4 * natOfBool r.due) :: r.b :: r.l :: r.z.map collapse2
/-- A row as a segment left it. -/
def RowRes.ofWords (l : List Word) : RowRes :=
  let f := (l.getD 0 0).toNat
  { kept := bitOf f 0, modeS := bitOf f 1, due := bitOf f 2, b := l.getD 1 0, l := l.getD 2 0, z := (l.drop 3).map heldZ }
/-- The rows that the words of a segment hold. -/
def rowsOf (n d : Nat) (l : List Word) : List RowRes := (List.range n).map (fun i => RowRes.ofWords ((l.drop (i * (d + 3))).take (d + 3)))

/-- Merges one segment of a row into those before it (R168). -/
def RowRes.merge (mode : Nat) (a b : RowRes) : RowRes :=
  if !b.kept then a
  else if !a.kept then b
  else if mode = 2 then { a with z := List.zipWith (fun x y => heldZ (fadd x.1 y.1)) a.z b.z }
  else
    let m := fmax a.b b.b
    let wa := fnExp (argFma (fsub a.b m) one32 0)
    let wb := fnExp (argFma (fsub b.b m) one32 0)
    { a with
      modeS := a.modeS || b.modeS, due := a.due || b.due, b := m
      l := ffma wa a.l (fmul wb b.l)
      z := List.zipWith (fun x y => heldZ (ffma wa x.1 (fmul wb y.1))) a.z b.z }

/-- The merge of a tile's segments, in ascending index (R168); a row that no segment kept clears MODE_S, which is the model's
choice beside R142 (log 33). -/
def mergeRows (mode n d : Nat) (segs : List (List Word)) : List RowRes :=
  (segs.map (rowsOf n d)).foldl (fun acc g => List.zipWith (RowRes.merge mode) acc g) (List.replicate n {})

/-! ### Epilogue (R159 to R163, R171) -/

/-- The log-sum-exp of a row (R161). -/
def lseOf (l b : Word) : Word := argFma (fnLog2 l) 0x3F317218#32 b

/-- The activation (R159 step 4). -/
def activate (act : Nat) (y : Word) : Word :=
  match act with
  | 1 => fmax y 0
  | 2 => fmul y (fnLogistic (fmul y 0x3FD9DB23#32))
  | 3 => fnTanh y
  | 4 => fnLogistic y
  | _ => y

/-- Step 3 of R159 is absent. -/
def Batch.plainScale (x : Batch) : Bool := x.l.f32 0x30 0x3F800000 == one32 && (x.l.addr 0x31).isNone
/-- Steps 2 to 5 of R159 and the merge of R171 are all absent. -/
def Batch.noArithmetic (x : Batch) : Bool :=
  x.mode == 2 && x.plainScale && argW x.l 0x32 0 == 0 && (x.l.addr 0x33).isNone && argW x.l 0x42 0 == 0

/-- An FP32 vector over the columns. -/
def Batch.colWord (x : Batch) (s : State) (id c : Nat) : Word := match x.l.addr id with | some a => s.seenW x.t (a + 4 * c) | none => 0

/-- Steps 1 to 5 of R159 on a row. -/
def Batch.outRow (x : Batch) (s : State) (r : RowRes) : List Word :=
  ((List.range r.z.length).zip r.z).map (fun c =>
    let y := collapse2 c.2
    let y := if x.mode = 2 then y else fdiv y r.l
    let y := if x.plainScale then y else ffma (x.l.f32 0x30 0x3F800000) y (x.colWord s 0x31 c.1)
    let y := activate (argW x.l 0x32 0) y
    if (x.l.addr 0x33).isSome then fmul y (x.colWord s 0x33 c.1) else y)

/-- The bits of one stored element of a format of Table 10.3. -/
def outBits (fmt : Nat) : Nat := storedBits fmt

/-- An element's quotient is above the largest finite value of its format (R160). -/
def overMax (v s : Val) (top : Nat) : Bool := v.isFinite && s.isFinite && (s.abs.mul (.fin false top 0)).lt v.abs

/-- An element of a row saturates in a format with a headroom (R160). -/
def rowSaturates (fmt : Nat) (h : Word) (vs : List Val) : Bool :=
  let sc := val32 (BitVec.ofNat 32 (leNat (quantVals fmt h vs).2))
  let mx := fun (elem : Fmt) (emax : Int) (top : Nat) => (List.range (vs.length / 32)).any (fun j =>
    let b := (vs.drop (32 * j)).take 32
    b.any (fun v => overMax v (e8m0 (mxVals elem emax b).1) top))
  match fmt with
  | 3 => vs.any (fun v => overMax v sc 448)
  | 4 => vs.any (fun v => overMax v sc 57344)
  | 5 => mx e4m3 8 448
  | 6 => mx e2m1 2 6
  | _ => false

/-- A stored row holds a NaN or an infinity (R162). -/
def rowNonfinite (fmt : Nat) (q : List Byte × List Byte) : Bool :=
  if fmt = 5 ∨ fmt = 6 then q.2.any (· == 0xFF#8)
  else
    let f := fmtOfCode fmt
    (unpackCodes f.bits (q.1.length / (f.bits / 8)) q.1).any (fun c => !(f.decode c).isFinite)

/-- The merge with a previous step's row (R171): the values, the LSE and whether the row is EMPTY. In modes U and S the previous
row counts as empty when its LSE is −∞. -/
def mergeStep (mode : Nat) (oa ob : List Word) (la lb : Word) (emptyA emptyB : Bool) : List Word × Word × Bool :=
  if mode = 2 then (List.zipWith fadd oa ob, lb, emptyA && emptyB)
  else if la = ninf32 ∧ lb = ninf32 then (ob.map (fun _ => 0), ninf32, emptyB)
  else
    let m := fmax la lb
    let wa := fnExp (argFma (fsub la m) one32 0)
    let wb := fnExp (argFma (fsub lb m) one32 0)
    let sm := fadd wa wb
    (List.zipWith (fun a b => fdiv (ffma wa a (fmul wb b)) sm) oa ob, lseOf sm m, false)

/-- The row that R171 merges with, as the epilogue's reads found it (R172; log 33): its values, its LSE and whether it counts as empty. -/
def Batch.previous (x : Batch) (s : State) (row : Nat) : List Word × Word × Bool :=
  let s := { s with mem := x.prior }
  let fmt := argW x.l 0x34 1
  let n := x.d * plainBytes fmt
  let o := (plainVals fmt x.d (s.seen x.t ((x.l.addr 0x36).getD 0 + row * n) n)).map rne32
  let la := match x.l.addr 0x37 with | some a => s.seenW x.t (a + 4 * row) | none => ninf32
  let st := match x.l.addr 0x38 with | some a => bitOf (s.seenByte x.t (a + row)).toNat 0 | none => false
  (o, la, st)

/-- Bytes of an output row and of its scales. -/
def scaleBytes (fmt d : Nat) : Nat := if fmt = 3 ∨ fmt = 4 then 4 else d / 32

/-- What the epilogue writes for a command row: each address with its bytes, in order (R159 to R163, R171). A row that kept no key
gives +0 (R163), in a tile with a NaN or infinite value element too, which is the model's choice (R156; log 33). -/
def Batch.rowWrites (x : Batch) (s : State) (row : Nat) (r : RowRes) : List (Nat × List Byte) :=
  let fmt := argW x.l 0x34 1
  let h := x.l.f32 0x35 0x3F800000
  let ys := if r.kept then x.outRow s r else List.replicate x.d 0
  let lse := if r.kept then lseOf r.l r.b else ninf32
  let prev := x.previous s row
  let y := if argW x.l 0x42 0 = 1 then mergeStep x.mode prev.1 ys prev.2.1 lse prev.2.2 (!r.kept) else (ys, lse, !r.kept)
  let vs := if x.noArithmetic && r.kept then r.z.map exact2 else y.1.map val32
  let q := quantVals fmt h vs
  let bad := rowNonfinite fmt q || (x.mode != 2 && !y.2.2 && !isFinite32 y.2.1)
  let st := natOfBool y.2.2 + 2 * natOfBool r.modeS + 4 * natOfBool r.due + 8 * natOfBool bad + 16 * natOfBool (rowSaturates fmt h vs)
  [((x.l.addr 0x36).getD 0 + row * (x.d * outBits fmt / 8), q.1)] ++
  (match x.l.addr 0x39 with | some a => if q.2.isEmpty then [] else [(a + row * scaleBytes fmt x.d, q.2)] | none => []) ++
  (match x.l.addr 0x37 with | some a => if x.mode = 2 then [] else [(a + 4 * row, leBytes 4 y.2.1.toNat)] | none => []) ++
  (match x.l.addr 0x38 with | some a => [(a + row, leBytes 1 st)] | none => [])

/-- The biases of a tile's rows; mode L has none (R149). -/
def Batch.biasReads (x : Batch) (e u : Nat) : List ByteRange :=
  if x.mode ≠ 2 ∧ argW x.l 0x06 0 = 2 then (x.liveRows e u).flatMap (fun p => x.argRange 0x08 (4 * (x.rowBase e + p)) 4) else []

/-- What the epilogue of a tile reads: its column vectors, and the rows it merges with, with their LSE, or in mode L their status
(R149, R171). -/
def Batch.epilogueReads (x : Batch) (e u : Nat) : List ByteRange :=
  let n := x.d * plainBytes (argW x.l 0x34 1)
  x.argRange 0x31 0 (4 * x.d) ++ x.argRange 0x33 0 (4 * x.d) ++
  (if argW x.l 0x42 0 = 1 then (x.liveRows e u).flatMap (fun p =>
      let row := x.rowBase e + p
      x.argRange 0x36 (row * n) n ++ (if x.mode = 2 then x.argRange 0x38 row 1 else x.argRange 0x37 (4 * row) 4)) else [])

/-- The writes of a tile's epilogue; padding rows are not written (R155). -/
def Batch.tileWrites (x : Batch) (s : State) (e u : Nat) (rows : List RowRes) : List (Nat × List Byte) :=
  ((x.tileRows e u).zip rows).flatMap (fun r => match r.1 with
    | some p => x.rowWrites s (x.rowBase e + p) r.2
    | none => [])

end Sys2Proof.Machine
end

