-- ==== Sys2Proof/Machine/Backward.lean ====
section
/-! DEFINITION. Backward attention on the tasks of a chain, and reference mode (spec/07_backward.md R173 to R195). -/
namespace Sys2Proof.Machine

/-! ### Passes and chains (R182, Table 7.5) -/

/-- Columns of one column pass. -/
def passWidth (d : Nat) : Nat := if d = 192 then 96 else if 256 ≤ d then 128 else d
/-- Column passes. -/
def passCount (d : Nat) : Nat := d / max (passWidth d) 1
/-- QT_TASK as it acts (R176). -/
def qtTask (v : Nat) : Nat := max 4 (min v 256)

/-- The query tiles of a chain (R182). -/
def Batch.chainTiles (x : Batch) (s : State) (e n : Nat) : List Nat := (List.range (x.tiles e)).filter (fun u => x.computes s e u n)
/-- The tiles of a chain position. -/
def Batch.posTiles (x : Batch) (s : State) (e n p : Nat) : List Nat :=
  let q := qtTask (argW x.l 0x45 32)
  ((x.chainTiles s e n).drop (p * q)).take q
/-- Positions of a chain; one that no tile computes still has a first, which is its last (log 33). -/
def Batch.positions (x : Batch) (s : State) (e n : Nat) : Nat :=
  let q := qtTask (argW x.l 0x45 32)
  max 1 (((x.chainTiles s e n).length + q - 1) / q)

/-! ### Rows of the saved set -/

/-- The element values of a saved output row (R177). Where O_SCALE_ADDR is absent, the scales of a scaled format are those at address 0 and
no read of them is counted, which is the model's choice (log 33). -/
def Batch.oRow (x : Batch) (s : State) (row : Nat) : List Word :=
  let fmt := argW x.l 0x51 1
  let n := x.d * outBits fmt / 8
  let bs := s.seen x.t ((x.l.addr 0x50).getD 0 + row * n) n
  let sa := (x.l.addr 0x52).getD 0
  let sc := fun (i : Nat) =>
    if fmt = 3 ∨ fmt = 4 then val32 (s.seenW x.t (sa + 4 * row)) else e8m0 (s.seenByte x.t (sa + row * (x.d / 32) + i / 32)).toNat
  let f := if fmt = 6 then e2m1 else if fmt = 5 then e4m3 else fmtOfCode fmt
  let codes := unpackCodes (storedBits fmt) x.d bs
  (List.range x.d).map (fun i =>
    let v := f.decode (codes.getD i 0)
    if fmt ≤ 2 then rne32 v else if fmt ≤ 4 then rne32 (v.mul (sc i)) else rne32 (bf16.decode (bf16.round (v.mul (sc i)))))

/-- A row of dO as stored. -/
def Batch.dORaw (x : Batch) (s : State) (row : Nat) : List Val :=
  let fmt := argW x.l 0x54 1
  let n := x.d * plainBytes fmt
  plainVals fmt x.d (s.seen x.t ((x.l.addr 0x53).getD 0 + row * n) n)
/-- A row of dO as the cells read it: FP32 is rounded to BF16 (log 33). -/
def Batch.dORow (x : Batch) (s : State) (row : Nat) : List Val :=
  if argW x.l 0x54 1 = 0 then (x.dORaw s row).map (fun v => bf16.decode (bf16.round v)) else x.dORaw s row

/-- The statistic D of a row (R177). -/
def Batch.statD (x : Batch) (s : State) (row : Nat) : Word :=
  if argW x.l 0x01 0 = 2 then 0
  else ((((x.dORaw s row).map rne32).zip (x.oRow s row))).foldl (fun r p => ffma p.1 p.2 r) 0

/-- What a prologue task leaves for its tile: for each row the BF16 codes of Q, then D (R177). -/
def Batch.prologue (x : Batch) (s : State) (e u : Nat) : List Word :=
  (x.tileRows e u).flatMap (fun r => match r with
    | some p => (x.qCodes s bf16 e p).map (BitVec.ofNat 32) ++ [x.statD s (x.rowBase e + p)]
    | none => List.replicate (x.d + 1) 0)

/-- A row is empty in the backward sense (R178). -/
def Batch.bwdEmpty (x : Batch) (s : State) (row : Nat) : Bool :=
  let st := match x.l.addr 0x38 with | some a => bitOf (s.seenByte x.t (a + row)).toNat 0 | none => false
  let lse := s.seenW x.t ((x.l.addr 0x37).getD 0 + 4 * row)
  st || (argW x.l 0x01 0 != 2 && (lse == ninf32 || lse == inf32))

/-- What the prologue of a tile reads beside its queries: O with its scales, and dO (R177). -/
def Batch.statReads (x : Batch) (e u : Nat) : List ByteRange :=
  let fmt := argW x.l 0x51 1
  let n := x.d * outBits fmt / 8
  let m := x.d * plainBytes (argW x.l 0x54 1)
  if argW x.l 0x01 0 = 2 then []
  else (x.liveRows e u).flatMap (fun p =>
    let row := x.rowBase e + p
    x.argRange 0x50 (row * n) n ++ (if 3 ≤ fmt then x.argRange 0x52 (row * scaleBytes fmt x.d) (scaleBytes fmt x.d) else []) ++
    x.argRange 0x53 (row * m) m)

/-- What the pairs of a tile read of its rows: dO, the LSE and the row status (R178, R179). -/
def Batch.gradReads (x : Batch) (e u : Nat) : List ByteRange :=
  let m := x.d * plainBytes (argW x.l 0x54 1)
  (x.liveRows e u).flatMap (fun p =>
    let row := x.rowBase e + p
    x.argRange 0x53 (row * m) m ++ (if argW x.l 0x01 0 = 2 then [] else x.argRange 0x37 (4 * row) 4) ++ x.argRange 0x38 row 1)

/-- What a pair needs of one row: its place, Q, dO, D and the LSE. -/
structure GradRow where
  p : Option Nat
  q : List Val
  dO : List Val
  stat : Word
  lse : Word
  empty : Bool

/-- A row that contributes +0 to everything: one that is empty in the backward sense, or padding (R155, R178). -/
def GradRow.none (d : Nat) (p : Option Nat) : GradRow :=
  { p := p, q := List.replicate d zeroVal, dO := List.replicate d zeroVal, stat := 0, lse := 0, empty := true }

/-- The rows of a tile, with what its prologue task left; of a row that is empty in the backward sense nothing contributes (R178). -/
def Batch.gradRows (x : Batch) (s : State) (e u : Nat) (pro : List Word) : List GradRow :=
  (List.range 32).map (fun r =>
    let w := (pro.drop (r * (x.d + 1))).take (x.d + 1)
    let q := (w.take x.d).map (fun c => bf16.decode c.toNat)
    match x.rowIn e u r with
    | some p =>
      let row := x.rowBase e + p
      if x.bwdEmpty s row then GradRow.none x.d (some p)
      else
        { p := some p, q := q, dO := x.dORow s row, stat := w.getD x.d 0
          lse := (match x.l.addr 0x37 with | some a => s.seenW x.t (a + 4 * row) | none => 0), empty := false }
    | none => GradRow.none x.d none)

/-! ### One pair (R179, R180, R185) -/

/-- p̂ and ds of a kept element (Tables 7.3, 7.4). -/
def Att.grad (p : Att) (mode : Nat) (sc dp stat lse : Word) : Word × Word :=
  let t := p.source sc
  let a := if mode = 2 then argFma t p.mu p.lam else argFma t p.mu (fneg32 lse)
  let pr := if mode = 2 then fnLogistic a else fnExp a
  let ds := if mode = 2 then fmul dp (ffnma pr pr pr) else fmul pr (fsub dp stat)
  (pr, if p.capped then fmul ds (ffnma t t one32) else ds)

/-- BF16 values of FP32 words. -/
def toBf16 (l : List Word) : List Val := l.map (fun w => bf16.decode (bf16.round (val32 w)))

/-- The P and dS tiles of a pair, as the cells read them: one list of 32 keys for each row. -/
def Batch.pairTiles (x : Batch) (s : State) (e n : Nat) (rows : List GradRow) (keys vals : List (List Val)) :
    List (List Val × List Val) :=
  let p := x.att s e
  let mode := argW x.l 0x01 0
  rows.map (fun r =>
    let el := ((List.range 32).zip (keys.zip vals)).map (fun k =>
      let keep := match r.p with | some q => !r.empty && x.keeps s e q (32 * n + k.1) | none => false
      if keep then p.grad mode (oneRun 4 r.q k.2.1) (oneRun 4 r.dO k.2.2) r.stat r.lse else (0, 0))
    (toBf16 (el.map (·.1)), toBf16 (el.map (·.2))))

/-- ρ (R181). -/
def Att.rho (p : Att) : Word := if p.capped then fmul p.cap (fdiv p.tau p.cap) else p.tau

/-- The stationary rows of a chain task: dV and dK of its 32 keys. -/
abbrev Grads := List Lane × List Lane

/-- One pair into dV and dK (R185 step 5): each reduced over query rows in ascending groups of four. -/
def gradPair (chunk w c0 : Nat) (g : Grads) (rows : List GradRow) (pd : List (List Val × List Val)) : Grads :=
  let cols := fun (f : GradRow → List Val) => columns w (rows.map (fun r => (f r).drop c0))
  let red := fun (f : List Val × List Val → List Val) (i : Nat) => pd.map (fun r => (f r).getD i zeroVal)
  let go := fun (ls : List Lane) (ch : Nat) (f : List Val × List Val → List Val) (b : List (List Val)) =>
    ((List.range 32).zip ls).map (fun y => y.2.feed ch 4 w false (red f y.1) b)
  (go g.1 chunk (·.1) (cols (·.dO)), go g.2 (if w = 128 then 8 else chunk) (·.2) (cols (·.q)))

/-- The atomic adds of a run of words: the aligned blocks of 256 bytes that it covers whole, and lines of 64 (R322), where an element of
a line that the run does not reach adds −0, which leaves the value there as it is (log 33). -/
def addPieces (addr : Nat) (l : List Word) : List (Nat × List Word) :=
  let a := addr / 4 * 4
  let lo := a / 64 * 64
  let hi := (a + 4 * l.length + 63) / 64 * 64
  let words := List.replicate ((a - lo) / 4) negZero32 ++ l ++ List.replicate ((hi - (a + 4 * l.length)) / 4) negZero32
  if l.isEmpty then [] else (cutRange ((hi - lo) / 64) lo hi).map (fun p => (p.1, (words.drop ((p.1 - lo) / 4)).take (p.2 / 4)))

/-- The adds of the rows of one query tile, each `w` words: by column tile, and in each by row (R188). -/
def tileAdds (w : Nat) (rows : List (Nat × List Word)) : List (Nat × List Word) :=
  (List.range (w / 32)).flatMap (fun t => rows.flatMap (fun r =>
    (addPieces r.1 r.2).filter (fun p => (max p.1 r.1 - r.1) / 128 == t)))

/-- The dQ contributions of a pair: for each row in the entry, the words of its columns in this pass (R185 step 6). -/
def Batch.dQ (x : Batch) (s : State) (e w c0 : Nat) (rows : List GradRow) (pd : List (List Val × List Val)) (keys : List (List Val)) :
    List (Nat × List Word) :=
  let p := x.att s e
  let kc := columns w (keys.map (fun k => k.drop c0))
  let base := (x.l.addr 0x55).getD 0
  tileAdds w ((rows.zip pd).filterMap (fun r => r.1.p.map (fun q =>
    (base + ((x.rowBase e + q) * x.d + c0) * 4,
      (List.range w).map (fun c => if r.1.empty then 0 else fmul (oneRun 4 r.2.2 (kc.getD c [])) p.rho)))))

/-- The rows a chain task starts with: the carry as the first run, or fresh ledgers (R183). -/
def startLanes (w : Nat) (carry : Option (List Word)) : List Lane :=
  (List.range 32).map (fun i => match carry with
    | none => Lane.fresh w
    | some l => { cols := ((l.drop (i * w)).take w).map (fun v => (0, promote negZero32 negZero32 v)) })

/-- The carry form of a row: hi + lo rounded once (R183). -/
def carryWords (l : List Lane) : List Word := l.flatMap (fun y => y.cols.map (fun c => fadd c.2.1 c.2.2))

/-- The gradients of a chain task, and its dQ contributions in order (R182 to R185). -/
def Batch.chain (x : Batch) (s : State) (e n c p : Nat) (pro : Nat → List Word) (carry : Option (List Word × List Word)) :
    Grads × List (Nat × List Word) :=
  let w := passWidth x.d
  let chunk := chunkOf (argW x.l 0x40 64)
  let keys := x.kvBlock s e 0 n
  let vals := x.kvBlock s e 1 n
  let g0 : Grads := (startLanes w (carry.map (·.1)), startLanes w (carry.map (·.2)))
  let r := (x.posTiles s e n p).foldl (fun (acc : Grads × List (Nat × List Word)) u =>
    let rows := x.gradRows s e u (pro u)
    let pd := x.pairTiles s e n rows keys vals
    (gradPair chunk w (c * w) acc.1 rows pd, acc.2 ++ x.dQ s e w (c * w) rows pd keys)) (g0, [])
  let stat := fun (l : List Lane) => l.map (fun y => y.swap w false)
  ((stat r.1.1, if w = 128 then r.1.2 else stat r.1.2), r.2)

/-! ### Carries between chips and final gradients (R183, R184, R192) -/

/-- Keys of every entry of the command. -/
def Batch.allKeys (x : Batch) : Nat := x.keyBase x.es.length

/-- Where DKV_IN's carry lies: whether in the shared store, and its address. Mailbag handles stand under entry 4,096. -/
def Batch.carryAt (x : Batch) : Option (Bool × Nat) :=
  (argOf x.l 0x59).map (fun v => match v / 2 ^ 60 % 16 with
    | 0 => (false, v % 2 ^ 48)
    | 1 => (true, v % 2 ^ 28)
    | _ => (true, ((x.handles.find? (fun h => h.1 == 4096)).map (·.2)).getD 0 % 2 ^ 28))

/-- The carry words of a key block in a pass: dK rows of the command first, then dV rows (log 33). -/
def Batch.carryIn (x : Batch) (s : State) (e n c : Nat) : Option (List Word × List Word) :=
  x.carryAt.map (fun a =>
    let w := passWidth x.d
    let part := fun (off : Nat) => (List.range 32).flatMap (fun i =>
      if x.kvLen e ≤ 32 * n + i then List.replicate w 0
      else
        let at_ := a.2 + ((off + x.keyBase e + 32 * n + i) * x.d + c * w) * 4
        (unpackCodes 32 w (if a.1 then (s.sharedRead x.t at_ (4 * w)).1 else s.seen x.t at_ (4 * w))).map (BitVec.ofNat 32))
    (part x.allKeys, part 0))

/-- The ranges that hold the carry of a key block in a pass. -/
def Batch.carryReads (x : Batch) (e n c : Nat) : List ByteRange :=
  match x.carryAt with
  | none => []
  | some a =>
    let w := passWidth x.d
    [x.allKeys, 0].flatMap (fun off => (x.blockKeys e n).map (fun j =>
      (a.1, a.2 + ((off + x.keyBase e + j) * x.d + c * w) * 4, 4 * w)))

/-- The writes of a chain's last position, as (address, bytes) per key: final gradients, or the FP32 carry (R184, R192). -/
def Batch.chainWrites (x : Batch) (s : State) (e n c : Nat) (g : Grads) : List (Nat × List Byte) :=
  let w := passWidth x.d
  let fin := argW x.l 0x5A 0 != 1
  let fmt := if fin then argW x.l 0x58 1 else 0
  let f := fmtOfCode fmt
  let rho := (x.att s e).rho
  let out := fun (id : Nat) (l : List Lane) (el : Word × Word → Nat) => ((List.range 32).zip l).filterMap (fun y =>
    if x.kvLen e ≤ 32 * n + y.1 then none
    else some ((x.l.addr id).getD 0 + ((x.keyBase e + 32 * n + y.1) * x.d + c * w) * f.bytes,
      y.2.cols.flatMap (fun h => leBytes f.bytes (el h.2))))
  let plain := fun (h : Word × Word) => (fadd h.1 h.2).toNat
  out 0x57 g.1 (fun h => if fin then f.round (exact2 h) else plain h) ++
  out 0x56 g.2 (fun h => if fin then f.round (val32 (fmul (collapse2 h) rho)) else plain h)

/-! ### Reference mode (Table 7.8) -/

/-- Every mask, the bitmap and the block rule keep a key for a row of a tile. -/
def Batch.refKeeps (x : Batch) (s : State) (e u p j : Nat) : Bool := x.computes s e u (j / 32) && x.keeps s e p j

/-- The tile and place of a row (R435). -/
def Batch.tileOfRow (x : Batch) (e p : Nat) : Nat :=
  if [2, 4, 8, 16].contains x.g then p / 32 else p % x.g * (((x.entry e).qLen + 31) / 32) + p / x.g / 32

/-- The scores of a row: t under a cap, X, and whether the key is kept. -/
def Batch.refScores (x : Batch) (s : State) (e p : Nat) : List (Word × Word × Bool) :=
  let a := x.att s e
  let q := x.qVals s e (some p)
  let u := x.tileOfRow e p
  (List.range (x.kvLen e)).map (fun j =>
    if x.refKeeps s e u p j then
      let sc := oneRun a.kq q (x.kvRow s e 0 j)
      let t := a.source sc
      (t, if a.capped then fmul a.cap t else fmul sc a.tau, true)
    else (0, ninf32, false))

/-- P of a row as stored in P_FMT, and its LSE (Table 7.8). -/
def Batch.refSoftmax (x : Batch) (l : List (Word × Word × Bool)) (lam : Word) : List Val × Word :=
  let f := fmtOfCode (argW x.l 0x02 1)
  let rnd := fun (w : Word) => f.decode (f.round (val32 w))
  if argW x.l 0x01 0 = 2 then (l.map (fun v => rnd (fnLogistic (fadd v.2.1 lam))), 0)
  else if l.all (fun v => !v.2.2) then (l.map (fun _ => zeroVal), ninf32)
  else
    let m := (l.filter (·.2.2)).foldl (fun m v => fmax m v.2.1) ninf32
    let ex := l.map (fun v => if v.2.2 then fnExp (fsub v.2.1 m) else 0)
    let sm := ex.foldl fadd 0
    (ex.map (fun w => rnd (fdiv w sm)), lseOf sm m)

/-- A matrix-product element: runs cut by ACC_CHUNK and promoted (R65, R67). -/
def matElem (chunk k : Nat) (a b : List Val) : Word × Word :=
  promoteAll ((runsOf (a.length + 1) chunk k a b).map (fun r => (r, false))) ledger0

/-- What the reference forward writes for a row (Table 7.8, R193). -/
def Batch.refWrites (x : Batch) (s : State) (e p : Nat) : List (Nat × List Byte) :=
  let a := x.att s e
  let l := x.refScores s e p
  let sm := x.refSoftmax l a.lam
  let chunk := chunkOf (argW x.l 0x40 64)
  let v := columns x.d ((List.range (x.kvLen e)).map (x.kvRow s e 1))
  let z := v.map (fun c => matElem chunk a.kp sm.1 c)
  let fmt := argW x.l 0x34 1
  let h := x.l.f32 0x35 0x3F800000
  let row := x.rowBase e + p
  let empty := l.all (fun v => !v.2.2)
  let vs := if empty then List.replicate x.d zeroVal else z.map exact2
  let q := quantVals fmt h vs
  let bad := rowNonfinite fmt q || (argW x.l 0x01 0 != 2 && !empty && !isFinite32 sm.2)
  let st := natOfBool empty + 8 * natOfBool bad + 16 * natOfBool (rowSaturates fmt h vs)
  [((x.l.addr 0x36).getD 0 + row * (x.d * outBits fmt / 8), q.1)] ++
  (match x.l.addr 0x39 with | some a => if q.2.isEmpty then [] else [(a + row * scaleBytes fmt x.d, q.2)] | none => []) ++
  (match x.l.addr 0x37 with | some a => if argW x.l 0x01 0 = 2 then [] else [(a + 4 * row, leBytes 4 sm.2.toNat)] | none => []) ++
  (match x.l.addr 0x38 with | some a => [(a + row, leBytes 1 st)] | none => [])

/-- P and dS of a row in reference mode, as the cells read them (Table 7.8); +0 for a row that is empty in the backward sense
(R178). -/
def Batch.refGrad (x : Batch) (s : State) (e p : Nat) : List Val × List Val :=
  if x.bwdEmpty s (x.rowBase e + p) then (List.replicate (x.kvLen e) zeroVal, List.replicate (x.kvLen e) zeroVal) else
  let a := x.att s e
  let l := x.refScores s e p
  let sm := (x.refSoftmax l a.lam).1
  let dO := x.dORow s (x.rowBase e + p)
  let dp := (List.range (x.kvLen e)).map (fun j => oneRun 4 dO (x.kvRow s e 1 j))
  let pw := sm.map rne32
  let dsum := (pw.zip dp).foldl (fun r y => ffma y.1 y.2 r) 0
  let ds := (l.zip (pw.zip dp)).map (fun y =>
    let g := if argW x.l 0x01 0 = 2 then fmul y.2.2 (ffnma y.2.1 y.2.1 y.2.1) else fmul y.2.1 (fsub y.2.2 dsum)
    if !y.1.2.2 then 0 else if a.capped then fmul g (ffnma y.1.1 y.1.1 one32) else g)
  (sm, toBf16 ds)

/-- The reference backward of an entry: dQ contributions per row, and the writes of dV and dK (Table 7.8). P_FMT is not rejected whatever it
is, and DKV_IN and DKV_OUT are checked and have no effect: final gradients are written, which is the model's choice (R193; log 33). -/
def Batch.refBackward (x : Batch) (s : State) (e : Nat) : List (Nat × List Word) × List (Nat × List Byte) :=
  let chunk := chunkOf (argW x.l 0x40 64)
  let rho := (x.att s e).rho
  let rows := List.range (x.rows e)
  let g := rows.map (x.refGrad s e)
  let kc := columns x.d ((List.range (x.kvLen e)).map (x.kvRow s e 0))
  let gone := fun (p : Nat) => x.bwdEmpty s (x.rowBase e + p)
  let act := fun (p : Nat) (l : List Val) => if gone p then List.replicate x.d zeroVal else l
  let qc := columns x.d (rows.map (fun p => act p ((x.qCodes s bf16 e p).map bf16.decode)))
  let oc := columns x.d (rows.map (fun p => act p (x.dORow s (x.rowBase e + p))))
  let f := fmtOfCode (argW x.l 0x58 1)
  let dq := (rows.zip g).flatMap (fun r =>
    addPieces ((x.l.addr 0x55).getD 0 + (x.rowBase e + r.1) * x.d * 4) 
      (kc.map (fun c => if gone r.1 then 0 else fmul rho (collapse2 (matElem chunk 4 r.2.2 c)))))
  let col := fun (id : Nat) (get : List Val × List Val → List Val) (b : List (List Val)) (el : Word × Word → Nat) =>
    (List.range (x.kvLen e)).map (fun j =>
      ((x.l.addr id).getD 0 + (x.keyBase e + j) * x.d * f.bytes,
        b.flatMap (fun c => leBytes f.bytes (el (matElem chunk 4 (g.map (fun y => (get y).getD j zeroVal)) c)))))
  (dq, col 0x57 (·.1) oc (fun h => f.round (exact2 h)) ++
    col 0x56 (·.2) qc (fun h => f.round (val32 (fmul rho (collapse2 h)))))

end Sys2Proof.Machine
end

