-- ==== Sys2Proof/Machine/Matrix.lean ====
section
/-! DEFINITION. The vendor routines that are no attention: matrix products, quantisation, key preparation and the prologue
gradient (spec/10_instructions.md Table 10.16; spec/03_numbers.md R65 to R77; spec/06_forward.md R157, R160). -/
namespace Sys2Proof.Machine

/-! ### Matrix products -/

/-- An element of a stored matrix; leading dimensions count elements (log 33). -/
def Batch.elemAt (x : Batch) (s : State) (addr fmt ld i j : Nat) : Val :=
  let f := fmtOfCode fmt
  f.decode (s.seenLe x.t (addr + (i * ld + j) * f.bytes) f.bytes)

/-- Row `i` of A, or of its imaginary part. -/
def Batch.aRow (x : Batch) (s : State) (id i : Nat) : List Val :=
  (List.range (argW x.l 0x75 0)).map (fun k => x.elemAt s ((x.l.addr id).getD 0) (argW x.l 0x76 0) (argW x.l 0x79 0) i k)
/-- Column `j` of B, or of its imaginary part; B_TRANS stores B by columns. -/
def Batch.bCol (x : Batch) (s : State) (id j : Nat) : List Val :=
  let tr := argW x.l 0x7C 0 == 1
  (List.range (argW x.l 0x75 0)).map (fun k =>
    x.elemAt s ((x.l.addr id).getD 0) (argW x.l 0x77 0) (argW x.l 0x7A 0) (if tr then j else k) (if tr then k else j))

/-- Products per beat of the A format. -/
def Batch.matK (x : Batch) : Nat := if x.routine = 5 then 4 else kOf (argW x.l 0x76 1)

/-- The runs of a product under the command's ACC_CHUNK. -/
def Batch.runs (x : Batch) (a b : List Val) : List Word := runsOf (a.length + 1) (chunkOf (argW x.l 0x40 64)) x.matK a b

/-- A BF16 split of FP32 values: the high and the low parts (R75). -/
def split3 (l : List Val) : List Val × List Val :=
  let hi := fun (v : Val) => bf16.decode (bf16.round v)
  let fits := fun (v : Val) => v.isFinite && !((Val.fin false 255 120).lt v.abs)
  (l.map hi, l.map (fun v => if fits v then bf16.decode (bf16.round (val32 (fsub (rne32 v) (rne32 (hi v))))) else zeroVal))

/-- Runs of several passes, chunk by chunk in pass order, each with its sign (R76, R77). -/
def interleave (fuel : Nat) (ps : List (List Word × Bool)) : List (Word × Bool) :=
  match fuel with
  | 0 => []
  | n + 1 =>
    if ps.all (fun p => p.1.isEmpty) then []
    else ps.filterMap (fun p => p.1.head?.map (fun w => (w, p.2))) ++ interleave n (ps.map (fun p => (p.1.drop 1, p.2)))

/-- Promotes the interleaved runs of some passes into one ledger. -/
def passLedger (ps : List (List Word × Bool)) : Word × Word :=
  promoteAll (interleave (ps.foldl (fun n p => max n p.1.length) 0) ps) ledger0

/-- An element of the BF16×3 product (R76). -/
def Batch.x3Elem (x : Batch) (a b : List Val × List Val) : Word × Word :=
  passLedger [(x.runs a.2 b.1, false), (x.runs a.1 b.2, false), (x.runs a.1 b.1, false)]

/-- The Gauss operand: the sum of the parts rounded to FP32 and then to the operand's format (R77). -/
def gaussSum (fmt : Nat) (a b : List Val) : List Val :=
  let f := fmtOfCode fmt
  List.zipWith (fun p q => f.decode (f.round (val32 (fadd (rne32 p) (rne32 q))))) a b

/-- Real and imaginary elements of a complex product (Table 3.3). -/
def Batch.complexElem (x : Batch) (ar ai br bi : List Val) : (Word × Word) × (Word × Word) :=
  let rr := x.runs ar br
  let ii := x.runs ai bi
  if argW x.l 0x7E 0 = 1 then
    let ss := x.runs (gaussSum (argW x.l 0x76 1) ar ai) (gaussSum (argW x.l 0x77 1) br bi)
    (passLedger [(rr, false), (ii, true)], passLedger [(rr, true), (ii, true), (ss, false)])
  else (passLedger [(rr, false), (ii, true)], passLedger [(x.runs ar bi, false), (x.runs ai br, false)])

/-- The ledgers of row `i` of C, and of its imaginary part in a complex product. -/
def Batch.cRow (x : Batch) (s : State) (i : Nat) : List (Word × Word) × List (Word × Word) :=
  let cols := List.range (argW x.l 0x74 0)
  let a := x.aRow s 0x70 i
  if x.routine = 5 then
    let sa := split3 a
    (cols.map (fun j => x.x3Elem sa (split3 (x.bCol s 0x71 j))), [])
  else if x.routine = 6 then
    let ai := x.aRow s 0x81 i
    let e := cols.map (fun j => x.complexElem a ai (x.bCol s 0x71 j) (x.bCol s 0x82 j))
    (e.map (·.1), e.map (·.2))
  else (cols.map (fun j => matElem (chunkOf (argW x.l 0x40 64)) x.matK a (x.bCol s 0x71 j)), [])

/-- The address of a row of C. -/
def Batch.cAddr (x : Batch) (id i bytes : Nat) : Nat := (x.l.addr id).getD 0 + i * argW x.l 0x7B 0 * bytes

/-- The ledgers of a row stored in a plain format: the exact value of each converted once by Table 3.2 (R53, R71). -/
def plainRow (fmt : Nat) (l : List (Word × Word)) : List Byte :=
  l.flatMap (fun h => leBytes (plainBytes fmt) ((fmtOfCode fmt).round (exact2 h)))

/-- The writes of a product with C_MODE 0 (R71). -/
def Batch.matWrites (x : Batch) (s : State) : List (Nat × List Byte) :=
  let fmt := argW x.l 0x78 0
  (List.range (argW x.l 0x73 0)).flatMap (fun i =>
    let r := x.cRow s i
    (x.cAddr 0x72 i (plainBytes fmt), plainRow fmt r.1) ::
      (if x.routine = 6 then [(x.cAddr 0x83 i (plainBytes fmt), plainRow fmt r.2)] else []))

/-- The atomic adds of a product with C_MODE 1: hi + lo rounded once to FP32. -/
def Batch.matAdds (x : Batch) (s : State) : List (Nat × List Word) :=
  (List.range (argW x.l 0x73 0)).flatMap (fun i =>
    let r := x.cRow s i
    let w := fun (l : List (Word × Word)) => l.map (fun h => rne32 (exact2 h))
    addPieces (x.cAddr 0x72 i 4) (w r.1) ++ (if x.routine = 6 then addPieces (x.cAddr 0x83 i 4) (w r.2) else []))

/-- The ranges that a product's operands are read from, row by row. -/
def Batch.matReads (x : Batch) : List ByteRange :=
  let ids := if x.routine = 6 then [(0x70, 0x71), (0x81, 0x82)] else [(0x70, 0x71)]
  let m := argW x.l 0x73 0
  let n := argW x.l 0x74 0
  let k := argW x.l 0x75 0
  let tr := argW x.l 0x7C 0 == 1
  let ab := plainBytes (argW x.l 0x76 0)
  let bb := plainBytes (argW x.l 0x77 0)
  ids.flatMap (fun p =>
    (List.range m).flatMap (fun i => x.argRange p.1 (i * argW x.l 0x79 0 * ab) (k * ab)) ++
    (List.range (if tr then n else k)).flatMap (fun i => x.argRange p.2 (i * argW x.l 0x7A 0 * bb) ((if tr then k else n) * bb)))

/-! ### QUANT and KV_PREP -/

/-- A row of an input in a plain format, as FP32. -/
def Batch.inRow (x : Batch) (s : State) (fmt i : Nat) : List Word :=
  let n := x.d * plainBytes fmt
  (plainVals fmt x.d (s.seen x.t ((x.l.addr 0x85).getD 0 + i * n) n)).map rne32

/-- What QUANT writes (R160, R198). -/
def Batch.quantWrites (x : Batch) (s : State) : List (Nat × List Byte) :=
  let fmt := argW x.l 0x34 1
  (List.range (argW x.l 0x87 0)).flatMap (fun i =>
    let q := quantRow fmt (x.l.f32 0x35 0x3F800000) (x.inRow s (argW x.l 0x86 0) i)
    ((x.l.addr 0x36).getD 0 + i * (x.d * outBits fmt / 8), q.1) ::
      (match x.l.addr 0x39 with | some a => if q.2.isEmpty then [] else [(a + i * scaleBytes fmt x.d, q.2)] | none => []))

/-- The rotary position of row `i` of a KV_PREP: the array at QPOS_ADDR, else the position of the key in entry order (log 33). -/
def Batch.prepPos (x : Batch) (s : State) (i : Nat) : Nat :=
  match x.l.addr 0x24 with
  | some a => s.seenLe x.t (a + 4 * i) 4
  | none =>
    match (List.range x.es.length).find? (fun e => decide (x.keyBase e ≤ i) && decide (i < x.keyBase (e + 1))) with
    | some e => (x.kpos e (i - x.keyBase e)) % 2 ^ 32
    | none => i

/-- What KV_PREP writes: prepared rows in BF16 (R157, R158). -/
def Batch.keyWrites (x : Batch) (s : State) : List (Nat × List Byte) :=
  let p : Prep := { x.prep s with
    norm := argW x.l 0x89 0 == 1
    gamma := (x.l.addr 0x88).map (fun a => (List.range x.d).map (fun i => s.seenW x.t (a + 4 * i))) }
  (List.range (argW x.l 0x87 0)).map (fun i =>
    let y := prepRow p (x.prepPos s i) (fun k => s.seenW x.t ((x.l.addr 0x23).getD 0 + 4 * k)) (x.inRow s 1 i)
    ((x.l.addr 0x36).getD 0 + i * (x.d * 2), y.flatMap (fun w => leBytes 2 (bf16.round (val32 w)))))

/-- The ranges that an input of NROWS rows is read from. -/
def Batch.inReads (x : Batch) (fmt : Nat) : List ByteRange := x.argRange 0x85 0 (argW x.l 0x87 0 * x.d * plainBytes fmt)

/-- The ranges that KV_PREP reads. -/
def Batch.keyReads (x : Batch) (s : State) : List ByteRange :=
  let n := argW x.l 0x87 0
  x.inReads 1 ++ (if argW x.l 0x20 0 = 0 then [] else x.argRange 0x24 0 (4 * n)) ++
    x.prepReads (argW x.l 0x89 0 == 1) 0x88 ((List.range n).map (x.prepPos s))

/-! ### PRO_GRAD -/

/-- Rows of dQ that PRO_GRAD transforms: those of every entry. -/
def Batch.allRows (x : Batch) : Nat := x.rowBase x.es.length

/-- PRO_GRAD changes its gradient: the prologue it inverts does something. -/
def Batch.gradActs (x : Batch) : Bool := argW x.l 0x26 0 == 1 || argW x.l 0x20 0 != 0

end Sys2Proof.Machine
end

