-- ==== Sys2Proof/Machine/Forming.lean ====
section
/-! DEFINITION. RUN: its checks and the forming of its tasks (spec/11_queues_and_sync.md R278, R279, R434; spec/06_forward.md
R132, R167, R170; spec/07_backward.md R176, R177, R182, R188, R194; spec/09_decode.md R226, R233; spec/10_instructions.md R261,
R262). -/
namespace Sys2Proof.Machine

/-! ### Checks of a vendor routine's arguments -/

/-- Arguments of a routine that have no default (R261). -/
def requiredArgs (r : Nat) (l : Args) : List Nat :=
  let fwd := [0x03, 0x05, 0x36, 0x60, 0x61]
  let bwd := [0x03, 0x05, 0x38, 0x50, 0x51, 0x53, 0x55, 0x56, 0x57, 0x60, 0x61]
  let mat := (List.range 14).map (· + 0x70)
  match r with
  | 0 => fwd
  | 1 => bwd
  | 2 => 0x44 :: fwd
  | 3 => 0x80 :: (if argW l 0x80 0 = 1 then bwd else fwd)
  | 4 => mat
  | 5 => mat
  | 6 => mat ++ [0x7E, 0x81, 0x82, 0x83]
  | 7 => [0x03, 0x55, 0x60, 0x61, 0x84, 0x8A]
  | 8 => [0x03, 0x36, 0x85, 0x86, 0x87]
  | _ => [0x03, 0x36, 0x60, 0x61, 0x85, 0x87]

/-- Arguments that an enabled option needs (R261). -/
def optionArgs (r : Nat) (l : Args) : List Nat :=
  let fwd := r == 0 || r == 2 || (r == 3 && argW l 0x80 0 == 0)
  (if fwd && argW l 0x06 0 == 1 then [0x07] else []) ++ (if fwd && argW l 0x06 0 == 2 then [0x08] else []) ++
  (if (r == 0 || r == 3) && (argOf l 0x17).isSome then [0x18] else []) ++
  (if r ≤ 3 && (argOf l 0x19).isSome then [0x1A] else []) ++
  (if (r ≤ 3 || r == 7 || r == 9) && argW l 0x20 0 != 0 then [0x21, 0x23] else [])

/-- A length in bytes that is no whole number of records, an unknown ID, or a parameter that is lacking (R260, R261). -/
def recordsBad (r len : Nat) (l : Args) : Bool :=
  len % 16 != 0 || l.any (fun a => !knownArg a.1) || (requiredArgs r l ++ optionArgs r l).any (fun id => (argOf l id).isNone)

/-- Head dimensions (Table 6.1). -/
def headDims : List Nat := [32, 64, 96, 128, 192, 256, 512]

/-- Conditions of R132 on D, GROUP, TAU, CAP and ROT_DIMS. -/
def scalarsBad (x : Batch) : Bool :=
  let tau := x.l.f32 0x05 0
  let cap := x.l.f32 0x0A 0
  !headDims.contains x.d || x.g == 0 || decide (16 < x.g) || !(isFinite32 tau && flt 0 tau) || flt cap 0 || !isFinite32 cap ||
    argW x.l 0x21 0 % 2 == 1 || decide (x.d < argW x.l 0x21 0)

/-- Coded mask and prologue parameters outside their values (R132, R176). -/
def codesBad (l : Args) : Bool :=
  decide (2 < argW l 0x01 0) || decide (1 < argW l 0x10 0) || decide (1 < argW l 0x12 0) || decide (1 < argW l 0x16 0) ||
  decide (2 < argW l 0x20 0) || decide (1 < argW l 0x22 0) || decide (1 < argW l 0x26 0)

/-- Coded parameters of the forward routine alone (R132). -/
def fwdCodesBad (l : Args) : Bool :=
  let p := argW l 0x02 1
  p == 0 || decide (4 < p) || decide (2 < argW l 0x06 0) || decide (4 < argW l 0x32 0) || decide (6 < argW l 0x34 1) ||
  decide (1 < argW l 0x42 0)

/-- MERGE_IN with what it excludes (R132). -/
def mergeInBad (x : Batch) : Bool :=
  argW x.l 0x42 0 == 1 && (x.l.f32 0x30 0x3F800000 != one32 || (x.l.addr 0x31).isSome || argW x.l 0x32 0 != 0 ||
    (x.l.addr 0x33).isSome || decide (2 < argW x.l 0x34 1) || (argW x.l 0x01 0 != 2 && (x.l.addr 0x37).isNone))

/-- Q_FMT or KV_FMT outside its values (R132). -/
def formatsBad (x : Batch) : Bool :=
  let kv := argW x.l 0x0D 1
  decide (4 < argW x.l 0x0C 1) || ((kv == 0 || decide (4 < kv)) && x.es.any (fun e => e.kind != 2))

/-- The entries' count, lengths, kinds and pools (R132, R226, R262). -/
def entriesBad (x : Batch) (s : State) : Bool :=
  let n := argW x.l 0x61 0
  n == 0 || decide (4096 < n) || x.es.any (fun e =>
    e.qLen == 0 || decide (2097152 < e.qLen) || (e.kvLen == 0 && !x.decode) || decide (2097152 < e.kvLen) || decide (3 < e.kind) ||
    (e.kind == 2 && (match s.poolOf x.t e.seq with | .ok p => (s.pool p).d != x.d | .error _ => false)))

/-- The operand classes of P and V differ (R132, R134). -/
def classesBad (x : Batch) (s : State) : Bool :=
  let p8 := decide (3 ≤ argW x.l 0x02 1)
  x.es.any (fun e =>
    if e.kind = 2 then p8 && (match s.poolOf x.t e.seq with | .ok p => (s.pool p).fmt == 0 | .error _ => false)
    else isFp8 (argW x.l 0x0D 1) != p8)

/-- The checks of R132, with the changes of R226 and R194. -/
def fwdBad (x : Batch) (s : State) : Bool :=
  scalarsBad x || codesBad x.l || fwdCodesBad x.l || mergeInBad x || formatsBad x || entriesBad x s || classesBad x s ||
  (x.decode && (x.d == 512 || decide (3 ≤ argW x.l 0x02 1) || argW x.l 0x44 0 == 0 || decide (16 < argW x.l 0x44 0) ||
    x.es.any (fun e => e.kind != 2))) ||
  (x.routine == 3 && x.es.any (fun e => decide (8192 < e.kvLen)))

/-- DKV_IN is of no kind that a table has, or names a carry of another D or count of KV heads, which is free at every check (R176;
log 33). -/
def carryBad (x : Batch) (s : State) : Bool :=
  match argOf x.l 0x59 with
  | some v => ! [0, 1, 3].contains (v / 2 ^ 60 % 16) || !Config.carryMatches s.freeCtr v x.d x.es.length
  | none => false

/-- An entry is of a kind that no table has (R262). -/
def kindsBad (x : Batch) : Bool := x.es.any (fun e => decide (3 < e.kind))

/-- The checks of R176, with R194. -/
def bwdBad (x : Batch) (s : State) : Bool :=
  scalarsBad x || codesBad x.l || formatsBad x || entriesBad x s || decide (6 < argW x.l 0x51 1) || decide (2 < argW x.l 0x54 1) ||
  decide (2 < argW x.l 0x58 1) || decide (1 < argW x.l 0x5A 0) || decide (1 < argW x.l 0x46 0) ||
  (argW x.l 0x01 0 != 2 && (x.l.addr 0x37).isNone) ||
  carryBad x s ||
  (x.routine == 3 && x.es.any (fun e => decide (8192 < e.kvLen)))

/-- Codes that a matrix routine cannot run with (log 33). -/
def matBad (x : Batch) : Bool :=
  let a := argW x.l 0x76 0
  let b := argW x.l 0x77 0
  (if x.routine = 5 then a != 0 || b != 0 else a == 0 || decide (4 < a) || b == 0 || decide (4 < b) || isFp8 a != isFp8 b) ||
  decide (4 < argW x.l 0x78 0) || decide (1 < argW x.l 0x7C 0) || decide (1 < argW x.l 0x7D 0) || decide (1 < argW x.l 0x7E 0)

/-- The argument checks of a vendor routine (R434 step 5). -/
def vendorBad (x : Batch) (s : State) : Bool :=
  match x.routine with
  | 0 => fwdBad x s
  | 1 => bwdBad x s
  | 2 => fwdBad x s
  | 3 => decide (1 < argW x.l 0x80 0) || (if argW x.l 0x80 0 = 1 then bwdBad x s else fwdBad x s)
  | 7 => codesBad x.l || kindsBad x || !headDims.contains x.d || argW x.l 0x21 0 % 2 == 1 || decide (x.d < argW x.l 0x21 0)
  | 8 => !headDims.contains x.d || decide (4 < argW x.l 0x86 0) || decide (6 < argW x.l 0x34 1)
  | 9 => codesBad x.l || kindsBad x || !headDims.contains x.d || decide (1 < argW x.l 0x89 0) || argW x.l 0x21 0 % 2 == 1 || decide (x.d < argW x.l 0x21 0)
  | _ => matBad x

/-- An entry names a cache source outside the tenancy's pools, or a plane its pool does not have (R205). -/
def sourcesBad (x : Batch) (s : State) : Bool :=
  decide (x.routine ≤ 3) && x.es.any (fun e => e.kind == 2 && (match s.poolOf x.t e.seq with
    | .ok p => decide ((s.pool p).planes ≤ e.plane)
    | .error _ => true))

/-! ### Assignment (R170) -/

/-- Puts a plan behind those of at least its cost. -/
def insertPlan (p : Plan) (l : List Plan) : List Plan :=
  match l with
  | [] => [p]
  | q :: r => if p.cost ≤ q.cost then q :: insertPlan p r else p :: q :: r

/-- The array of least cost so far, the lowest on a tie. -/
def leastOf (load : List (Nat × Nat)) : Nat × Nat :=
  match load with
  | [] => (0, 0)
  | x :: r => r.foldl (fun b y => if y.2 < b.2 then y else b) x

/-- Gives each plan its array: highest cost first, ties in task order, each to the array of least cost so far. -/
def assignPlans (el : List Nat) (l : List Plan) : List (Nat × Nat) :=
  let sorted := l.foldl (fun acc p => insertPlan p acc) []
  (sorted.foldl (fun (acc : List (Nat × Nat) × List (Nat × Nat)) p =>
    let b := leastOf acc.1
    (acc.1.map (fun y => if y.1 == b.1 then (y.1, y.2 + p.cost) else y), acc.2 ++ [(p.index, b.1)]))
    (el.map (fun a => (a, 0)), [])).2

/-- Plans with their arrays; a later chain position goes where the first went (R182). -/
def placePlans (el : List Nat) (l : List Plan) : List Plan :=
  let m := assignPlans el (l.filter (fun p => p.params.pos == 0 || p.params.kind != 0 || p.after.isEmpty))
  let find := fun (i : Nat) => ((m.find? (fun y => y.1 == i)).map (·.2)).getD (el.headD 0)
  let same := fun (p q : Plan) => p.params.entry == q.params.entry && p.params.tile == q.params.tile && p.params.pass == q.params.pass &&
    q.params.kind == 0 && q.params.pos == 0
  l.map (fun p =>
    let i := if p.params.pos ≠ 0 ∧ p.after ≠ [] ∧ p.params.kind = 0 then ((l.find? (same p)).map (·.index)).getD p.index else p.index
    { p with array := find i })

/-- Numbers plans by their place. -/
def numberPlans (k : Nat) (l : List Plan) : List Plan :=
  match l with
  | [] => []
  | p :: r => { p with index := k } :: numberPlans (k + 1) r

/-! ### Forward and decode tasks (R167, R170, R233) -/

/-- The split threshold in keys, 0 for none (R133, R233). -/
def Batch.splitLen (x : Batch) : Nat :=
  if x.decode then
    let v := argW x.l 0x43 4096
    if v = 0 then 0 else max v 1024
  else
    let v := argW x.l 0x41 16384
    if v = 0 then 0 else if v < 2048 then 2048 else v / 32 * 32

/-- The segments of a tile with `k` computed blocks; 0 where it is not cut. -/
def Batch.segments (x : Batch) (k : Nat) : Nat :=
  let n := x.splitLen
  if n ≠ 0 ∧ n < k * 32 then (k * 32 + n - 1) / n else 0

/-- The computed blocks of segment `i` of `n` (R167). -/
def segmentOf (l : List Nat) (i n : Nat) : List Nat := (l.drop (i * l.length / n)).take ((i + 1) * l.length / n - i * l.length / n)

/-- Beats per computed block (Tables 1.5, 6.2, 6.4; R231). -/
def Batch.blockBeats (x : Batch) : Nat :=
  let fp8 := decide (3 ≤ argW x.l 0x02 1)
  let cap := if isZero32 (x.l.f32 0x0A 0) then 0 else 32
  if x.decode then x.rowsPerGroup * x.d / 8 + x.d / 4
  else
    let mma := (if x.d = 512 then 384 else x.d / 2) / (if fp8 then 2 else 1)
    max mma (if x.mode = 1 then 33 + cap else 32 + cap)

/-- The cost of an epilogue; in decode only a merge task has one (R233). -/
def Batch.epilogueCost (x : Batch) (merge : Bool) : Nat := if x.decode && !merge then 0 else 4 * x.d + 32

/-- The tasks of one tile, numbered from `k`. -/
def Batch.tilePlans (x : Batch) (s : State) (k e u : Nat) : List Plan :=
  let c := (x.blocks s e u).length
  let n := x.segments c
  let prm : TaskParams := { tile := u, entry := e }
  if n = 0 then [{ index := k, params := prm, cost := c * x.blockBeats + x.epilogueCost false }]
  else
    (List.range n).map (fun i =>
      { index := k + i, params := { prm with pos := i }, cost := ((i + 1) * c / n - i * c / n) * x.blockBeats }) ++
    [{ index := k + n, params := { prm with kind := 1 }, cost := x.epilogueCost true, after := (List.range n).map (· + k) }]

/-- The tasks of a forward or decode command: entries, tiles and segments ascending, each merge behind its segments. -/
def Batch.fwdPlans (x : Batch) (s : State) : List Plan :=
  (List.range x.es.length).foldl (fun (l : List Plan) e =>
    (List.range (x.tiles e)).foldl (fun (l : List Plan) u => l ++ x.tilePlans s l.length e u) l) []

/-! ### Backward tasks (R177, R182, R188) -/

/-- Beats per pair of one pass (Table 7.5). -/
def Batch.pairBeats (x : Batch) : Nat :=
  let cap := !isZero32 (x.l.f32 0x0A 0)
  let mma := match x.d with | 32 => 64 | 64 => 80 | 96 => 120 | 128 => 160 | 192 => 168 | 256 => 224 | _ => 352
  if cap then max mma 128 else mma

/-- The prologue tasks, by entry and tile. Their cost is 3 × D in every mode, which is the model's choice: no table gives it (R177; log
33). -/
def Batch.proPlans (x : Batch) : List Plan :=
  numberPlans 0 ((List.range x.es.length).flatMap (fun e => (List.range (x.tiles e)).map (fun u =>
    { index := 0, params := { tile := u, entry := e, kind := 2 }, cost := 3 * x.d })))

/-- The index of the prologue task of a tile. -/
def Batch.proIndex (x : Batch) (e u : Nat) : Nat := (List.range e).foldl (fun n i => n + x.tiles i) 0 + u

/-- The tasks of one chain, numbered from `k` (R182). -/
def Batch.chainPlans (x : Batch) (s : State) (k e c n : Nat) : List Plan :=
  let tiles := x.chainTiles s e n
  (List.range (x.positions s e n)).map (fun p =>
    { index := k + p, params := { tile := n, entry := e, pass := c, pos := p }
      cost := (x.posTiles s e n p).length * x.pairBeats + 192
      after := if p = 0 then tiles.map (x.proIndex e) else [k + p - 1] })

/-- The tasks of a backward command: the prologue tasks, then entry, column pass, key block and chain position (R188). -/
def Batch.bwdPlans (x : Batch) (s : State) : List Plan :=
  (List.range x.es.length).foldl (fun (l : List Plan) e =>
    (List.range (passCount x.d)).foldl (fun (l : List Plan) c =>
      (List.range (x.blockCount e)).foldl (fun (l : List Plan) n => l ++ x.chainPlans s l.length e c n) l) l) x.proPlans

/-- The tasks of a vendor command, with their arrays. -/
def Batch.plans (x : Batch) (s : State) (el : List Nat) : List Plan :=
  placePlans el (match x.routine with
    | 0 => x.fwdPlans s
    | 2 => x.fwdPlans s
    | 1 => x.bwdPlans s
    | _ => [{ index := 0 }])

/-- The tasks of a tenancy routine (R278). -/
def tenancyPlans (el : List Nat) (tasks : Nat) (collective : Bool) : List Plan :=
  let n := if tasks = 0 ∨ collective then el.length else tasks
  (List.range n).map (fun i => { index := i, array := el.getD (i % el.length) 0 })

/-! ### The outputs of a vendor command (R363) -/

/-- The outputs of the forward routines: OUT, its scales, the LSE and the row status. -/
def Batch.fwdOuts (x : Batch) : List ByteRange :=
  let n := x.allRows
  let fmt := argW x.l 0x34 1
  x.argRange 0x36 0 (n * (x.d * outBits fmt / 8)) ++ (if 3 ≤ fmt then x.argRange 0x39 0 (n * scaleBytes fmt x.d) else []) ++
  (if x.mode = 2 then [] else x.argRange 0x37 0 (4 * n)) ++ x.argRange 0x38 0 n

/-- The outputs of the backward: dQ, and dV and dK or the carry. -/
def Batch.bwdOuts (x : Batch) : List ByteRange :=
  let carry := x.routine == 1 && argW x.l 0x5A 0 == 1
  let n := x.allKeys * x.d * plainBytes (if carry then 0 else argW x.l 0x58 1)
  x.argRange 0x55 0 (4 * x.allRows * x.d) ++ (x.argRange 0x57 0 n ++ x.argRange 0x56 0 n).map (fun r => (carry, r.2))

/-- The outputs of a matrix product: the rows of C. -/
def Batch.matOuts (x : Batch) : List ByteRange :=
  let b := if argW x.l 0x7D 0 = 1 then 4 else plainBytes (argW x.l 0x78 0)
  (if x.routine = 6 then [0x72, 0x83] else [0x72]).flatMap (fun id =>
    (List.range (argW x.l 0x73 0)).flatMap (fun i => x.argRange id (i * argW x.l 0x7B 0 * b) (argW x.l 0x74 0 * b)))

/-- The outputs of a vendor command. -/
def Batch.outRanges (x : Batch) : List ByteRange :=
  let fmt := argW x.l 0x34 1
  let n := argW x.l 0x87 0
  match x.routine with
  | 0 => x.fwdOuts
  | 2 => x.fwdOuts
  | 1 => x.bwdOuts
  | 3 => if argW x.l 0x80 0 = 1 then x.bwdOuts else x.fwdOuts
  | 7 => x.argRange 0x55 0 (4 * x.allRows * x.d) ++ x.argRange 0x84 0 (4 * x.d)
  | 8 => x.argRange 0x36 0 (n * (x.d * outBits fmt / 8)) ++ (if 3 ≤ fmt then x.argRange 0x39 0 (n * scaleBytes fmt x.d) else [])
  | 9 => x.argRange 0x36 0 (2 * n * x.d)
  | _ => x.matOuts

/-! ### RUN (R434) -/

/-- The entry records that an argument block names, as (address, count). -/
def entriesOf (l : Args) : Nat × Nat :=
  match l.addr 0x60 with
  | some a => (a, min (argW l 0x61 0) 4096)
  | none => (0, 0)

/-- The entry records that some bytes hold. -/
def entryRecs (bs : List Byte) : List EntryRec := (List.range (bs.length / 32)).map (fun i => EntryRec.ofBytes ((bs.drop (32 * i)).take 32))

/-- The sequences whose snapshots the command's tasks take (R289). -/
def snapNames (es : List EntryRec) : List Snap :=
  ((es.filter (fun e => e.kind == 2)).map (·.seq)).eraseDups.map (fun q => { seq := q, pool := 0, len := 0, wtop := 0, dlen := 0 })

/-- A RUN for which no array serves (R279). -/
def State.noArrays (s : State) (t r : Nat) (collective : Bool) : Bool :=
  (s.eligible t r).isEmpty || (collective && !s.narrowOk r && (s.usable t).any s.narrow)

/-- Forms the tasks of a RUN whose checks have passed; `outs` are the outputs that its routine names. -/
def State.enterRun (s : State) (c : Cmd) (r : Nat) (l : Args) (es : List Byte) (plans : List Plan) (outs : List ByteRange) : State :=
  (s.onCmd c.cid fun c => { c with
    verify := r == 2 && argW l 0x10 0 == 1 && (argOf l 0x17).isSome
    phase := .running, plans := plans, formed := plans, tasks := plans.length, routine := r, snaps := snapNames (entryRecs es), entries := es
    ordered := r == 1 && argW l 0x46 0 == 1, collective := cmdCollective c.bytes, outs := outs
    mergeIn := (r == 0 || r == 2) && argW l 0x42 0 == 1 }).settleCmd c.cid

/-- Checks the arguments of a vendor routine and forms its tasks (R434 step 5). What the forming reads is counted, of a decode command the
descriptors of its sequences too; an error to one of those ends the command as it does at a snapshot (R205; log 33). -/
def State.formVendor (s : State) (c : Cmd) (t r len : Nat) (l : Args) (bs : List Byte) (el : List Nat) (ans : PortAnswer) : State :=
  let es := entryRecs bs
  let names := if r = 2 then snapNames es else []
  let descs := s.snapReads t names
  let x : Batch := { t := t, routine := r, l := l, es := es, snaps := (s.takeSnaps t names).toOption.getD [] }
  let bad := vendorBad x s
  let s := if (argOf l 0x59).isSome then s.drew else s
  if recordsBad r len l || bad then s.completeCmd c.cid stBadArgs
  else if sourcesBad x s then s.completeCmd c.cid stBadSeq
  else
    let v := descs.foldl (fun (s : State) a => s.chargeRead t a 64) s
    match answered ans descs with
    | some (at_, e) => (v.unitError t at_ 0 e).completeCmd c.cid stWindowFault
    | none =>
      let reads := if r ≤ 2 then x.formReads v else []
      let u := v.countRanges t reads
      match answered (answerPast descs.length ans) ((memLines reads).filter (v.inWindow t)) with
      | some (at_, e) => (u.unitError t at_ 0 e).completeCmd c.cid stImageFault
      | none => u.enterRun c r l bs (x.plans v el) x.outRanges

/-- Checks a RUN in the order of R434 and forms its tasks. What the forming reads is counted; an error to one of these reads ends the
command as one to its argument block does (R335; log 33). -/
def State.formRun (s : State) (c : Cmd) (ans : PortAnswer) : State :=
  let t := tenOfQueue c.queue
  let r := cmdBits c.bytes 0x18 9 0
  let len := cmdBits c.bytes 0x1C 12 0
  let addr := cmdBits c.bytes 0x20 47 0
  let fin := fun (s : State) (st : Nat) => s.completeCmd c.cid st
  if s.routineKind r ≠ 1 || !s.mayUse t r then fin s stBadRoutine
  else if 4096 < len then fin s stBadArgs
  else if s.noArrays t r (cmdCollective c.bytes) then fin s stNoArrays
  else if !s.spanInWindow t addr len then fin s stImageFault
  else
    let l := parseArgs 256 (s.readMem addr len)
    let ea := entriesOf l
    let a := s.unitRead t addr len ans
    let b := a.1.unitRead t ea.1 (32 * ea.2) (answerPast (linesOf addr len).length ans)
    if !a.2 || !s.spanInWindow t ea.1 (32 * ea.2) then fin a.1 stImageFault
    else if !b.2 then fin b.1 stImageFault
    else
      let s := b.1
      let bs := s.readMem ea.1 (32 * ea.2)
      let el := s.eligible t r
      if 256 ≤ r then s.enterRun c r l bs (tenancyPlans el (cmdBits c.bytes 0x1C 31 16) (cmdCollective c.bytes)) []
      else s.formVendor c t r len l bs el (answerPast ((linesOf addr len).length + (linesOf ea.1 (32 * ea.2)).length) ans)

/-- RUN. -/
def execRun (q : Queue) (ans : PortAnswer) (s : State) : Host.Outcome State Fault Refusal :=
  s.onPortTurn q.toNat 0x01 fun s c => s.formRun c ans

end Sys2Proof.Machine
end

