-- ==== Sys2Proof/Machine/Vendor.lean ====
section
/-! DEFINITION. TASK_END: the end of a task's last operation, and what a task of a vendor entry routine has done by then
(spec/10_instructions.md R252, R264; spec/06_forward.md R144, R167, R168; spec/07_backward.md R177, R183 to R188). -/
namespace Sys2Proof.Machine

/-! ### What a vendor task does -/

/-- The effects of a vendor task: its translations and the ranges it reads, its writes to memory and to the shared store, its
FP32 adds of 64 or 256 bytes to stage, what it leaves in the command's staging area, its caught rows and its status. -/
structure Effects where
  pages : List (Snap × Nat) := []
  reads : List ByteRange := []
  writes : List (Nat × List Byte) := []
  shared : List (Nat × List Byte) := []
  adds : List (Nat × List Word) := []
  left : Option (List Word) := none
  caught : Nat := 0
  status : Nat := 0

/-- Where the handles that a command's tasks took stand among what its tasks left. -/
def handleKey : Nat := 2 ^ 32

/-- The batch that a task works from: the argument block as copied to its array, the entry records that the dispatcher read for its
command, which is the model's choice (R434; log 33), its snapshots, and the
handles its command took. -/
def State.batchOf (s : State) (a : Nat) (t : Task) (c : Cmd) : Batch :=
  let l := parseArgs 256 ((s.arr a).load argBlock 4096)
  { t := t.ten, routine := t.routine, l := l, es := entryRecs c.entries, snaps := t.snaps
    prior := t.prior.getD s.mem
    handles := (c.segs.filter (fun g => decide (handleKey ≤ g.1))).map (fun g => (g.1 - handleKey, (g.2.headD 0).toNat)) }

/-- The mailbags whose handle a task needs: an entry's KV source, and DKV_IN under entry 4,096 (R192, R428; log 33). -/
def Batch.bagsOf (x : Batch) (t : Task) : List (Nat × Nat) :=
  let ent := fun (e : Nat) => if (x.entry e).kind = 3 then [(e, (x.entry e).kv % 256)] else []
  let dkv := match argOf x.l 0x59 with
    | some v => if v / 2 ^ 60 % 16 = 3 then [(4096, v % 256)] else []
    | none => []
  match x.routine with
  | 0 => if t.params.kind = 0 then ent t.params.entry else []
  | 1 => if t.params.kind = 0 then ent t.params.entry ++ (if t.params.pos = 0 then dkv else []) else []
  | 3 => (List.range x.es.length).flatMap ent
  | _ => []

/-- What a task of a command left, by task index. -/
def Cmd.leftBy (c : Cmd) (i : Nat) : List Word := ((c.segs.find? (fun g => g.1 == i)).map (·.2)).getD []
/-- The tasks of a command with given parameters, in task order. -/
def Cmd.formedAs (c : Cmd) (p : TaskParams → Bool) : List Plan := c.formed.filter (fun q => p q.params)

/-- Another task's parameters name the same entry, tile and pass. -/
def TaskParams.beside (p q : TaskParams) : Bool := p.entry == q.entry && p.tile == q.tile && p.pass == q.pass

/-- The tile of a forward or decode task is cut into segments, whose results a merge task takes through the epilogue (R167). -/
def Cmd.cuts (c : Cmd) (p : TaskParams) : Bool := !(c.formedAs (fun q => q.kind == 1 && q.beside p)).isEmpty

/-- The task has an epilogue that reads the previous step's result (R171). -/
def Batch.mergesIn (x : Batch) (c : Cmd) (p : TaskParams) : Bool :=
  (x.routine == 0 || x.routine == 2) && argW x.l 0x42 0 == 1 && (p.kind == 1 || !c.cuts p)

/-- A forward or decode task: a whole tile, a segment, or a merge. -/
def Batch.attnTask (x : Batch) (s : State) (c : Cmd) (t : Task) : Effects :=
  let p := t.params
  let n := (x.tileRows p.entry p.tile).length
  let segs := c.formedAs (fun q => q.kind == 0 && q.beside p)
  if p.kind = 1 then
    { reads := x.epilogueReads p.entry p.tile, writes := x.tileWrites s p.entry p.tile (mergeRows x.mode n x.d (segs.map (fun q => c.leftBy q.index))) }
  else
    let all := x.blocks s p.entry p.tile
    let cut := c.cuts p
    let blocks := if cut then segmentOf all p.pos segs.length else all
    let rows := x.tile s p.entry p.tile blocks
    let reads := x.queryReads s p.entry p.tile ++ x.biasReads p.entry p.tile ++ x.maskReads s p.entry p.tile blocks ++
      blocks.flatMap (x.blockReads s p.entry)
    let e : Effects :=
      { pages := blocks.flatMap (x.blockPages p.entry), reads := reads, caught := (rows.filter (·.due)).length, status := x.readStatus s p.entry blocks }
    if cut then { e with left := some (rows.flatMap RowRes.words) } else { e with reads := reads ++ x.epilogueReads p.entry p.tile, writes := x.tileWrites s p.entry p.tile rows }

/-- A backward task: a prologue, or a chain position (R177, R182 to R187). -/
def Batch.gradTask (x : Batch) (s : State) (c : Cmd) (t : Task) : Effects :=
  let p := t.params
  if p.kind = 2 then
    { reads := x.queryReads s p.entry p.tile ++ x.statReads p.entry p.tile, left := some (x.prologue s p.entry p.tile) }
  else
    let w := passWidth x.d
    let chain := c.formedAs (fun q => q.kind == 0 && q.beside p)
    let carry := if p.pos = 0 then x.carryIn s p.entry p.tile p.pass
      else ((chain.find? (fun q => q.params.pos + 1 == p.pos)).map (fun q =>
        let l := c.leftBy q.index
        (l.take (32 * w), l.drop (32 * w))))
    let pro := fun (u : Nat) => ((c.formedAs (fun q => q.kind == 2 && q.entry == p.entry && q.tile == u)).head?.map
      (fun q => c.leftBy q.index)).getD []
    let r := x.chain s p.entry p.tile p.pass p.pos pro carry
    let tiles := x.posTiles s p.entry p.tile p.pos
    let e : Effects :=
      { pages := x.blockPages p.entry p.tile
        reads := x.blockReads s p.entry p.tile ++ tiles.flatMap (fun u => x.gradReads p.entry u ++ x.maskReads s p.entry u [p.tile]) ++
          (if p.pos = 0 then x.carryReads p.entry p.tile p.pass else [])
        adds := r.2, status := x.readStatus s p.entry [p.tile] }
    if p.pos + 1 < chain.length then { e with left := some (carryWords r.1.1 ++ carryWords r.1.2) }
    else
      let wr := x.chainWrites s p.entry p.tile p.pass r.1
      if argW x.l 0x5A 0 = 1 then { e with shared := wr } else { e with writes := wr }

/-- Everything that the reference routine reads of an entry. -/
def Batch.refReads (x : Batch) (s : State) (e : Nat) : List ByteRange :=
  let blocks := List.range (x.blockCount e)
  (List.range (x.tiles e)).flatMap (fun u => x.queryReads s e u ++ x.maskReads s e u blocks ++
    (if x.backward then x.gradReads e u else [])) ++ blocks.flatMap (x.blockReads s e)

/-- The one task of a reference command. -/
def Batch.refTask (x : Batch) (s : State) : Effects :=
  let es := List.range x.es.length
  let e : Effects :=
    { pages := es.flatMap (fun e => (List.range (x.blockCount e)).flatMap (x.blockPages e)), reads := es.flatMap (x.refReads s)
      status := es.foldl (fun n e => joinStatus n (x.readStatus s e (List.range (x.blockCount e)))) stOK }
  if argW x.l 0x80 0 = 1 then
    let g := es.map (x.refBackward s)
    { e with adds := g.flatMap (·.1), writes := g.flatMap (·.2) }
  else { e with writes := es.flatMap (fun i => (List.range (x.rows i)).flatMap (x.refWrites s i)) }

/-- The gradient with respect to the row that R157 step 3 rotates, from the one with respect to the rotated row: the transposed rotation,
its operations and roundings those of the rotation with the sine negated (log 33). -/
def turnBack (P : Prep) (pos : Nat) (w : Nat → Word) (d : List Word) : List Word :=
  if P.rot = 0 then d
  else (List.range (P.rotDims / 2)).foldl (fun d i =>
    let c := rotCosSin P pos w i
    rotPair P c.1 (fneg32 c.2) i d) d

/-- What the gradients of one row are formed from: the gradient of its row of DQ before the rotation, and its row of Q in FP32. -/
def Batch.gradOperands (x : Batch) (s : State) (e p : Nat) : List Word × List Word :=
  let r := x.rowBase e + p
  let dq := (List.range x.d).map (fun i => s.seenW x.t ((x.l.addr 0x55).getD 0 + 4 * (r * x.d + i)))
  let q := (plainVals (argW x.l 0x0C 1) x.d (s.seen x.t ((x.l.addr 0x8A).getD 0 + r * x.qRowBytes) x.qRowBytes)).map rne32
  (turnBack (x.prep s) (x.rotPos s e p) (fun k => s.seenW x.t ((x.l.addr 0x23).getD 0 + 4 * k)) dq, q)

/-- The gradient of one row with respect to the query as stored: that before the rotation and, with QNORM, its product with γ taken
through the normalisation, of which no rule gives the roundings (R157; log 33). -/
def Batch.gradRow (x : Batch) (s : State) (e p : Nat) : List Word :=
  let P := x.prep s
  let o := x.gradOperands s e p
  if P.norm then
    let d := match P.gamma with | some gm => List.zipWith fmul o.1 gm | none => o.1
    (List.range x.d).map (Config.gradWord d o.2 (rmsFactor P o.2))
  else o.1

/-- The terms of the gradient with respect to γ_i, of each row: the gradient before the rotation times the normalised element, the factor
of γ_i in R157. -/
def Batch.gammaTerms (x : Batch) (s : State) (rows : List (Nat × Nat)) (i : Nat) : List Word :=
  rows.map (fun r =>
    let o := x.gradOperands s r.1 r.2
    fmul (o.1.getD i 0) (fmul (o.2.getD i 0) (rmsFactor (x.prep s) o.2)))

/-- The one task of PRO_GRAD: the gradient rows in place, and the gradient of γ as sealed atomic adds; the order in which its terms are
summed is free (log 33). -/
def Batch.proGradTask (x : Batch) (s : State) : Effects :=
  let n := x.allRows * x.d
  let a := (x.l.addr 0x55).getD 0
  let rows := (List.range x.es.length).flatMap (fun e => (List.range (x.rows e)).map (fun p => (e, p)))
  let reads := (false, a, 4 * n) :: x.argRange 0x8A 0 (x.allRows * x.qRowBytes) ++
    x.prepReads (argW x.l 0x26 0 == 1) 0x27 (rows.map (fun r => x.rotPos s r.1 r.2))
  if x.gradActs then
    let g := match x.l.addr 0x84 with
      | some b => if (x.prep s).norm then addPieces b ((List.range x.d).map (fun i => Config.sumWord (x.gammaTerms s rows i))) else []
      | none => []
    { reads := reads, writes := [(a, (rows.flatMap (fun r => x.gradRow s r.1 r.2)).flatMap (fun w => leBytes 4 w.toNat))], adds := g }
  else { reads := reads }

/-- What a vendor task does. -/
def Batch.effects (x : Batch) (s : State) (c : Cmd) (t : Task) : Effects :=
  match x.routine with
  | 0 => x.attnTask s c t
  | 2 => x.attnTask s c t
  | 1 => x.gradTask s c t
  | 3 => x.refTask s
  | 7 => x.proGradTask s
  | 8 => { reads := x.inReads (argW x.l 0x86 0), writes := x.quantWrites s }
  | 9 => { reads := x.keyReads s, writes := x.keyWrites s }
  | _ => if argW x.l 0x7D 0 = 1 then { reads := x.matReads, adds := x.matAdds s } else { reads := x.matReads, writes := x.matWrites s }

/-! ### The effects take place -/

/-- Takes the elements of a list in turn, from a state that there may be; none once one cannot be taken. -/
def foldOpt {β : Type} (f : State → β → Option State) (l : List β) (o : Option State) : Option State :=
  l.foldl (fun r x => r.bind (fun s => f s x)) o

/-- One atomic add of a vendor task is staged (R322, R331); one outside the windows is discarded and recorded. -/
def State.stageWords (s : State) (cid rid t addr : Nat) (l : List Word) : Option State :=
  let bs := l.flatMap (fun w => leBytes 4 w.toNat)
  if s.spanInWindow t addr bs.length then s.stageAdd cid rid t 4 0 addr bs else some (s.violate t addr 1)

/-- A task of the command has taken the handle with a key. -/
def Cmd.holds (c : Cmd) (key : Nat) : Bool := c.segs.any (fun (g : Nat × List Word) => g.1 == handleKey + key)

/-- Takes the handles that are there and not yet taken; the rest are waited for. A handle is the command's: one is taken for each source
that names a mailbag, its tasks waiting in one place for it, whichever of them asks first, which is the model's choice (R172; log 33). -/
def State.takeHandles (s : State) (c : Cmd) (l : List (Nat × Nat)) : State × Bool :=
  l.foldl (fun (r : State × Bool) h =>
    let have_ := ((r.1.cmd c.cid).map (fun (c : Cmd) => c.holds h.1)).getD true
    let t := tenOfQueue c.queue
    if have_ then r
    else if !r.1.mbxIn t h.2 then (r.1, false)
    else match r.1.bagTake (r.1.mbxAbs t h.2) (cmdWho c.cid h.1) with
      | some (w, s) => (s.onCmd c.cid fun c => { c with segs := c.segs ++ [(handleKey + h.1, [w])] }, r.2)
      | none => (r.1.bagWaitTake (r.1.mbxAbs t h.2) (cmdWho c.cid h.1), false)) (s, true)

/-- The store of an array after a vendor task holds free bytes (R361; log 33). -/
def State.spoilStore (s : State) (a : Nat) : State :=
  let n := Config.arrayStoreBytes
  (s.onArr a fun A => A.save 0 ((List.range n).map (fun i => Config.freeByte (s.freeCtr + i)))).drew n

/-- The runs that a vendor task's schedule drained are counted, and the beats in which its own accesses met at one bank; how many there
were is free (R90, R96, R100; log 33). -/
def State.countRuns (s : State) (a : Nat) : State :=
  (s.onArr a fun A => { A with ctr := { A.ctr with
    tallyRuns := satAdd32 A.ctr.tallyRuns (Config.freeWord s.freeCtr).toNat
    tallySkip := satAdd32 A.ctr.tallySkip (Config.freeWord (s.freeCtr + 1)).toNat
    bankRepeat := satAdd32 A.ctr.bankRepeat (Config.freeWord (s.freeCtr + 2)).toNat } }).drew 3

/-- A vendor task's own arming of engines 0 to 2: what it arms them with is not stated, so the programs, base registers, windows
and modes it leaves are free; their reservations stay (R294; log 16). -/
def State.armVendor (s : State) (a : Nat) : State :=
  let w := fun (i : Nat) => Config.freeWord (s.freeCtr + i)
  ((List.range 3).foldl (fun (s : State) e => s.onArr a fun A =>
    let x := A.eng e
    let at_ := fun (i : Nat) => w (100 * e + i)
    let arm : Arming := { x.arm with
      armed := true, free := bitOf (at_ 0).toNat 1, slotCode := (at_ 0).toNat / 4 % 8, winSlots := 1 + (at_ 1).toNat % 64
      winBase := (at_ 2).toNat % 2 ^ 20, image := (List.range 80).map (fun i => at_ (3 + i)) }
    A.setEng e { x with
      arm := arm, sb := (List.range 8).map (fun i => ((at_ (83 + 2 * i)).toNat + 2 ^ 32 * (at_ (84 + 2 * i)).toNat) % 2 ^ 48)
      credit := (at_ 99).toNat % 16385 }) s).drew 300

/-- The reads of a vendor task are counted: its translations, then the ranges. -/
def State.seeReads (s : State) (a t : Nat) (e : Effects) : State :=
  (e.pages.foldl (fun (s : State) p => s.translate a t p.1 p.2) s).countRanges t e.reads

/-- The lines of memory that a vendor task's transactions read and write within its windows, in order, with their kinds. -/
def State.vendorLines (s : State) (t : Nat) (e : Effects) : List (Nat × Nat) :=
  ((memLines e.reads).filter (s.inWindow t)).map (fun l => (l, 0)) ++
  ((e.writes.flatMap (fun w => linesOf w.1 w.2.length)).filter (s.inWindow t)).map (fun l => (l, 1))

/-- The error of an answer to a vendor task's transactions: its record, unspecified bytes where a write fails, and the task's
failed check of class MEMORY (R335). -/
def State.vendorError (s : State) (a t addr kind : Nat) (e : PortError) : State :=
  let s := s.unitError t addr kind e
  (if kind = 1 then s.spoilBytes addr 64 else s).failNow a 7 (addr % 2 ^ 48 + errCode e * 2 ^ 48)

/-- Carries out a vendor task's effects; `none` while the staging areas are full. -/
def State.applyEffects (a rid : Nat) (t : Task) (e : Effects) (s : State) : Option State :=
  let staged := foldOpt (fun s w => s.stageWords t.cid rid t.ten w.1 w.2) e.adds (some (s.seeReads a t.ten e))
  staged.map (fun s =>
    let s := e.writes.foldl (fun (s : State) w => s.taskWrite t.ten w.1 w.2) s
    let s := e.shared.foldl (fun (s : State) w => s.sharedWrite t.ten w.1 w.2) s
    let s := match e.left with
      | some l => s.onCmd t.cid fun c => { c with segs := c.segs.filter (fun (g : Nat × List Word) => g.1 != t.index) ++ [(t.index, l)] }
      | none => s
    let s := s.onTask rid fun t => { t with ended := true, caught := e.caught, status := e.status }
    (((s.spoilStore a).countRuns a).armVendor a).onArr a fun A => { A with seq := { A.seq with state := .idle }, stalled := [] })

/-- The array of a vendor task freezes with cause DRAIN: both staging areas are full (R191, R328). -/
def State.freezeStaging (s : State) (a : Nat) : State := s.onArr a fun A => { A with stalled := [.staging] }

/-- The tally checks of a vendor task: none where it multiplies nothing, those of runs for 0, and for a decode task, which closes its
queries' accumulations at the end of each block, the number of its queries (R94, R106, R229). -/
def Batch.tallies (x : Batch) (s : State) (t : Task) : Option Nat :=
  let p := t.params
  let acts := match x.routine with
    | 0 => p.kind == 0 && !(x.blocks s p.entry p.tile).isEmpty
    | 2 => p.kind == 0 && !(x.blocks s p.entry p.tile).isEmpty
    | 1 => p.kind == 0 && !(x.posTiles s p.entry p.tile p.pos).isEmpty
    | 3 => true
    | r => decide (r < 7) && decide (0 < argW x.l 0x73 0 * argW x.l 0x74 0 * argW x.l 0x75 0)
  if acts then some (if x.decode then x.rowsPerGroup else 0) else none

/-- The checks of a vendor task, each of which an armed injection can make fail (R372): those of class SHARED (6) take place
only where the task reads the shared store, a tally check where it decides one. Which one is decided first is free. -/
def State.vendorChecks (s : State) (a : Nat) (shared : Bool) (tally : Option Nat) : State :=
  let w := fun (i : Nat) => (Config.freeWord (s.freeCtr + i)).toNat
  let s := match tally with
    | some n =>
      if s.injected a 1 then
        ((s.setReg Reg.FAULT_INJ_ARM 0 0).tallyOutcome a .mismatch (w 0 % (if n = 0 then 8 else n)) (if n = 0 then w 1 % 32 else 0) (n != 0)
          (Config.freeWord (s.freeCtr + 2))).drew 3
      else s
    | none => s
  let s := ([2, 3, 4, 5] ++ (if shared then [6] else []) ++ [7]).foldl (fun (s : State) cls => s.checkUnit a cls) s
  match (s.arr a).fail with
  | some (c, d) => s.beginAbandon a (some (c, d))
  | none => s

/-- A vendor task runs to its end: its checks, the handles it waits for, and its effects; `ans` answers its transactions. -/
def State.endVendor (s : State) (a rid : Nat) (t : Task) (c : Cmd) (ans : PortAnswer) : State :=
  let x := s.batchOf a t c
  let k := (x.entry t.params.entry).kind
  let s := s.vendorChecks a (k == 1 || k == 3) (x.tallies s t)
  if !s.attempting a then s
  else
    let h := s.takeHandles c (x.bagsOf t)
    if !h.2 then h.1
    else match h.1.cmd c.cid with
      | none => h.1
      | some c =>
        if t.prior.isNone && x.mergesIn c t.params then h.1.onTask rid fun t => { t with prior := some h.1.mem }
        else
        let e := (h.1.batchOf a t c).effects h.1 c t
        match answered ans ((h.1.vendorLines t.ten e).map (·.1)), ans with
        | some (addr, err), .error y =>
          (h.1.seeReads a t.ten e).vendorError a t.ten addr (((h.1.vendorLines t.ten e).map (·.2)).getD y.k 0) err
        | _, _ => (h.1.applyEffects a rid t e).getD (h.1.freezeStaging a)

/-- A vendor task on its way to its end stands before its halt point, or comes to it (R266; log 8). -/
def ArrayState.meetsHalt (A : ArrayState) : Bool :=
  A.modes.haltEn && !A.seq.resumed && (A.atHalt || (decide (A.modes.haltRoutine < 256) &&
    Config.romMeets A.seq.routine A.seq.pos A.modes.haltRoutine A.modes.haltPc))

/-- The array halts before the bundle at its halt point. -/
def State.haltAt (s : State) (a : Nat) : State :=
  (s.onArr a fun A => { A with seq := { A.seq with state := .halted, pc := A.modes.haltPc % 2 ^ 19 } }).raiseArr .prog 1 a

/-! ### TASK_END (R252) -/

/-- A transaction of an array's task. -/
def Txn.ofArray (a : Nat) (x : Txn) : Bool := x.owner.ofArray a

/-- Every operation has landed, every drain has finished, and every stream engine paced by the array has completed its
steps and had its writes accepted (R252, R325). -/
def State.allEnded (s : State) (a : Nat) : Bool :=
  let A := s.arr a
  A.flight.isEmpty && A.acc.drain.isNone && A.stalled.isEmpty &&
  A.engines.all (fun e => e.2.arm.free || (e.2.steps == 0 && e.2.posts.isEmpty)) && !s.outstanding (Txn.ofArray a)

/-- A task after END ends: its engines stop, wait for no handle any more, and its sequencer is idle. -/
def State.endTenancy (s : State) (a rid : Nat) : State :=
  ((s.bagForget (fun b => b == a)).onTask rid fun t => { t with ended := true }).onArr a fun A =>
    { A with
      seq := { A.seq with state := .idle }
      engines := (A.engines.map (fun e => (e.1, e.2.stop))).filter (fun e => decide (e.2 ≠ {})) }

/-- The task on an array ends, if it can (R252); `ans` answers the transactions of a vendor task. -/
def State.taskEnd (s : State) (a : Nat) (ans : PortAnswer) : State :=
  if !s.arrOn a || !s.attempting a then s
  else match (s.arr a).task with
    | none => s
    | some rid => match s.task rid with
      | none => s
      | some t =>
        if t.ended || (s.arr a).fail.isSome then s
        else if t.routine < 256 then
          match s.cmd t.cid with
          | some c =>
            if (s.arr a).seq.state = .running ∧ !s.extStop a then
              (if (s.arr a).meetsHalt then s.haltAt a else s.endVendor a rid t c ans)
            else s
          | none => s
        else if (s.arr a).seq.state = .ending && s.allEnded a then s.endTenancy a rid
        else s

/-- TASK_END of an array, with the answer to a vendor task's transactions. -/
def execTaskEnd (a : Arr × PortAnswer) (s : State) : Host.Outcome State Fault Refusal := 
  .next (s.portRow a.1.toNat 0 fun s => s.taskEnd a.1.toNat a.2)

end Sys2Proof.Machine
end

