-- ==== Sys2Proof/Machine/Dispatch.lean ====
section
/-! DEFINITION. One arm for each command of the block: the direct call of its meaning. -/
namespace Sys2Proof.Machine

/-- The effect of a command on everything but the queue. -/
def exec (i : Instr) (s : State) : Host.Outcome State Fault Refusal :=
  match i with
  | .doorbell fid addr cmd => Sys2Proof.Machine.execDoorbell fid addr cmd s
  | .registerWrite fid addr form v => Sys2Proof.Machine.execRegisterWrite fid addr form v s
  | .loWordRead fid addr form => Sys2Proof.Machine.execLoWordRead fid addr form s
  | .expertUnlock fid page v => Sys2Proof.Machine.execExpertUnlock fid page v s
  | .eventSend => Sys2Proof.Machine.execEventSend s
  | .eventAck => Sys2Proof.Machine.execEventAck s
  | .hostFidWrite fid n v => Sys2Proof.Machine.execHostFidWrite fid n v s
  | .pmXfer fid v => Sys2Proof.Machine.execPmXfer fid v s
  | .nop q => Sys2Proof.Machine.execNop q s
  | .run q ans => Sys2Proof.Machine.execRun q ans s
  | .append q ans => Sys2Proof.Machine.execAppend q ans s
  | .fork q ans => Sys2Proof.Machine.execFork q ans s
  | .commit q ans => Sys2Proof.Machine.execCommit q ans s
  | .free q ans => Sys2Proof.Machine.execFree q ans s
  | .loadProgram q ans => Sys2Proof.Machine.execLoadProgram q ans s
  | .tableLoad q ans => Sys2Proof.Machine.execTableLoad q ans s
  | .streamArm q ans => Sys2Proof.Machine.execStreamArm q ans s
  | .readdress q => Sys2Proof.Machine.execReaddress q s
  | .collect q => Sys2Proof.Machine.execCollect q s
  | .save q ans => Sys2Proof.Machine.execSave q ans s
  | .restore q ans => Sys2Proof.Machine.execRestore q ans s
  | .meterRead q => Sys2Proof.Machine.execMeterRead q s
  | .commandAccept => Sys2Proof.Machine.execCommandAccept s
  | .taskDispatch q ans => Sys2Proof.Machine.execTaskDispatch q ans s
  | .taskStart a ans => Sys2Proof.Machine.execTaskStart a ans s
  | .beat a => Sys2Proof.Machine.execBeat a s
  | .frozenBeatComplete a => Sys2Proof.Machine.execFrozenBeatComplete a s
  | .freezeLong a => Sys2Proof.Machine.execFreezeLong a s
  | .wait a n => Sys2Proof.Machine.execWait a n s
  | .feederRead a p sideB desc kstep => Sys2Proof.Machine.execFeederRead a p sideB desc kstep s
  | .feederDeliver a => Sys2Proof.Machine.execFeederDeliver a s
  | .mma a p f => Sys2Proof.Machine.execMma a p f s
  | .mmaLand a => Sys2Proof.Machine.execMmaLand a s
  | .dot a p f => Sys2Proof.Machine.execDot a p f s
  | .axpy a p f => Sys2Proof.Machine.execAxpy a p f s
  | .mvLand a close => Sys2Proof.Machine.execMvLand a close s
  | .swap a p grp dest => Sys2Proof.Machine.execSwap a p grp dest s
  | .swapLand a => Sys2Proof.Machine.execSwapLand a s
  | .drainRow a => Sys2Proof.Machine.execDrainRow a s
  | .rowscale a p grp vreg => Sys2Proof.Machine.execRowscale a p grp vreg s
  | .rowscaleLand a => Sys2Proof.Machine.execRowscaleLand a s
  | .gload a p grp src => Sys2Proof.Machine.execGload a p grp src s
  | .gloadComplete a => Sys2Proof.Machine.execGloadComplete a s
  | .specialFunctionIssue a p f => Sys2Proof.Machine.execSpecialFunctionIssue a p f s
  | .evalResult a => Sys2Proof.Machine.execEvalResult a s
  | .operationLands a => Sys2Proof.Machine.execOperationLands a s
  | .fadd a p f => Sys2Proof.Machine.execFadd a p f s
  | .fsub a p f => Sys2Proof.Machine.execFsub a p f s
  | .fmul a p f => Sys2Proof.Machine.execFmul a p f s
  | .fma a p f => Sys2Proof.Machine.execFma a p f s
  | .fnma a p f => Sys2Proof.Machine.execFnma a p f s
  | .fdiv a p f => Sys2Proof.Machine.execFdiv a p f s
  | .fmax a p f => Sys2Proof.Machine.execFmax a p f s
  | .fmin a p f => Sys2Proof.Machine.execFmin a p f s
  | .fclt a p f => Sys2Proof.Machine.execFclt a p f s
  | .fsel a p f => Sys2Proof.Machine.execFsel a p f s
  | .cvt a p f => Sys2Proof.Machine.execCvt a p f s
  | .iand a p f => Sys2Proof.Machine.execIand a p f s
  | .ior a p f => Sys2Proof.Machine.execIor a p f s
  | .iadd a p f => Sys2Proof.Machine.execIadd a p f s
  | .iclt a p f => Sys2Proof.Machine.execIclt a p f s
  | .vld a p vd desc => Sys2Proof.Machine.execVld a p vd desc s
  | .vst a p vs desc => Sys2Proof.Machine.execVst a p vs desc s
  | .xsum a p f => Sys2Proof.Machine.execXsum a p f s
  | .bcast a p f => Sys2Proof.Machine.execBcast a p f s
  | .extr a p f => Sys2Proof.Machine.execExtr a p f s
  | .rsumrd a p f => Sys2Proof.Machine.execRsumrd a p f s
  | .rsumwr a p f => Sys2Proof.Machine.execRsumwr a p f s
  | .laneid a p f => Sys2Proof.Machine.execLaneid a p f s
  | .gfrd a p f => Sys2Proof.Machine.execGfrd a p f s
  | .add a p f => Sys2Proof.Machine.execAdd a p f s
  | .sub a p f => Sys2Proof.Machine.execSub a p f s
  | .andW a p f => Sys2Proof.Machine.execAndW a p f s
  | .orW a p f => Sys2Proof.Machine.execOrW a p f s
  | .xorW a p f => Sys2Proof.Machine.execXorW a p f s
  | .shl a p f => Sys2Proof.Machine.execShl a p f s
  | .shr a p f => Sys2Proof.Machine.execShr a p f s
  | .addi a p sd sa imm => Sys2Proof.Machine.execAddi a p sd sa imm s
  | .lli a p sd imm => Sys2Proof.Machine.execLli a p sd imm s
  | .lui a p sd imm => Sys2Proof.Machine.execLui a p sd imm s
  | .mul a p f => Sys2Proof.Machine.execMul a p f s
  | .ptset a p pt sa => Sys2Proof.Machine.execPtset a p pt sa s
  | .ptcfg a p pt level rewind sa => Sys2Proof.Machine.execPtcfg a p pt level rewind sa s
  | .ptrd a p sd pt => Sys2Proof.Machine.execPtrd a p sd pt s
  | .ctset a p ct sa => Sys2Proof.Machine.execCtset a p ct sa s
  | .ctadd a p ct imm => Sys2Proof.Machine.execCtadd a p ct imm s
  | .ctrd a p sd ct => Sys2Proof.Machine.execCtrd a p sd ct s
  | .cmpset a p f => Sys2Proof.Machine.execCmpset a p f s
  | .repeatBody a p body1 csrc count1 => Sys2Proof.Machine.execRepeatBody a p body1 csrc count1 s
  | .call a p routine => Sys2Proof.Machine.execCall a p routine s
  | .ret a p => Sys2Proof.Machine.execRet a p s
  | .endTask a p => Sys2Proof.Machine.execEndTask a p s
  | .tepoch a p => Sys2Proof.Machine.execTepoch a p s
  | .astg a p f => Sys2Proof.Machine.execAstg a p f s
  | .dset a p desc sa => Sys2Proof.Machine.execDset a p desc sa s
  | .lbpost a p obj sa => Sys2Proof.Machine.execLbpost a p obj sa s
  | .lbwait a p obj sa => Sys2Proof.Machine.execLbwait a p obj sa s
  | .lbread a p obj sd => Sys2Proof.Machine.execLbread a p obj sd s
  | .mbput a p obj sa => Sys2Proof.Machine.execMbput a p obj sa s
  | .mbtake a p obj sd => Sys2Proof.Machine.execMbtake a p obj sd s
  | .collectionArrival a p => Sys2Proof.Machine.execCollectionArrival a p s
  | .resume fid g v => Sys2Proof.Machine.execResume fid g v s
  | .sgo a p e entry => Sys2Proof.Machine.execSgo a p e entry s
  | .sadv a p e n1 => Sys2Proof.Machine.execSadv a p e n1 s
  | .shalt a p e => Sys2Proof.Machine.execShalt a p e s
  | .sfree a p e slot => Sys2Proof.Machine.execSfree a p e slot s
  | .scopy a p e dsrc ddst => Sys2Proof.Machine.execScopy a p e dsrc ddst s
  | .streamMove a e => Sys2Proof.Machine.execStreamMove a e s
  | .streamNextbase a e => Sys2Proof.Machine.execStreamNextbase a e s
  | .streamPost a e => Sys2Proof.Machine.execStreamPost a e s
  | .sharedStoreDelivery a arrived => Sys2Proof.Machine.execSharedStoreDelivery a arrived s
  | .memoryResponse ch tag status form => Sys2Proof.Machine.execMemoryResponse ch tag status form s
  | .memoryCreditReturn ch n => Sys2Proof.Machine.execMemoryCreditReturn ch n s
  | .respTimeout ch tag => Sys2Proof.Machine.execRespTimeout ch tag s
  | .orderedRelease q => Sys2Proof.Machine.execOrderedRelease q s
  | .translationWalk a seq page => Sys2Proof.Machine.execTranslationWalk a seq page s
  | .taskEnd a => Sys2Proof.Machine.execTaskEnd a s
  | .attemptSeal a => Sys2Proof.Machine.execAttemptSeal a s
  | .abandonmentEnd a => Sys2Proof.Machine.execAbandonmentEnd a s
  | .mbHput fid v => Sys2Proof.Machine.execMbHput fid v s
  | .letterboxSet fid t slot v => Sys2Proof.Machine.execLetterboxSet fid t slot v s
  | .letterboxPost fid t slot v => Sys2Proof.Machine.execLetterboxPost fid t slot v s
  | .dispStep fid v => Sys2Proof.Machine.execDispStep fid v s
  | .tenEnWrite fid t v => Sys2Proof.Machine.execTenEnWrite fid t v s
  | .hostMaskWrite fid t v => Sys2Proof.Machine.execHostMaskWrite fid t v s
  | .poolEnWrite fid v => Sys2Proof.Machine.execPoolEnWrite fid v s
  | .initPool fid v => Sys2Proof.Machine.execInitPool fid v s
  | .initDone pool => Sys2Proof.Machine.execInitDone pool s
  | .softBypWrite fid g v => Sys2Proof.Machine.execSoftBypWrite fid g v s
  | .audClear fid g v => Sys2Proof.Machine.execAudClear fid g v s
  | .flPop fid v => Sys2Proof.Machine.execFlPop fid v s
  | .dlPop fid v => Sys2Proof.Machine.execDlPop fid v s
  | .injArm fid v => Sys2Proof.Machine.execInjArm fid v s
  | .slFlush fid v => Sys2Proof.Machine.execSlFlush fid v s
  | .phFlush fid v => Sys2Proof.Machine.execPhFlush fid v s
  | .keyData fid v => Sys2Proof.Machine.execKeyData fid v s
  | .keyCommit fid v => Sys2Proof.Machine.execKeyCommit fid v s
  | .keyClear fid v => Sys2Proof.Machine.execKeyClear fid v s
  | .linkEn fid p v => Sys2Proof.Machine.execLinkEn fid p v s
  | .forceRetrain fid p v => Sys2Proof.Machine.execForceRetrain fid p v s
  | .retrain p => Sys2Proof.Machine.execRetrain p s
  | .chEnWrite fid p v => Sys2Proof.Machine.execChEnWrite fid p v s
  | .resSlotsWrite fid p v => Sys2Proof.Machine.execResSlotsWrite fid p v s
  | .credWrite fid p v => Sys2Proof.Machine.execCredWrite fid p v s
  | .frameStart p => Sys2Proof.Machine.execFrameStart p s
  | .sendMessageStart p ch => Sys2Proof.Machine.execSendMessageStart p ch s
  | .dataPacket p pkt => Sys2Proof.Machine.execDataPacket p pkt s
  | .controlFlit p flit => Sys2Proof.Machine.execControlFlit p flit s
  | .landingStart p ch => Sys2Proof.Machine.execLandingStart p ch s
  | .retryTimeout p => Sys2Proof.Machine.execRetryTimeout p s
  | .domReqWrite fid v => Sys2Proof.Machine.execDomReqWrite fid v s
  | .powerAck d => Sys2Proof.Machine.execPowerAck d s
  | .domainSramZeroed d => Sys2Proof.Machine.execDomainSramZeroed d s
  | .pwrTimeout d => Sys2Proof.Machine.execPwrTimeout d s
  | .monitorRefresh m => Sys2Proof.Machine.execMonitorRefresh m s
  | .governorStep => Sys2Proof.Machine.execGovernorStep s
  | .meterApportion => Sys2Proof.Machine.execMeterApportion s
  | .capWindowEnd => Sys2Proof.Machine.execCapWindowEnd s
  | .thermalLimitStep g => Sys2Proof.Machine.execThermalLimitStep g s
  | .vmonOut d => Sys2Proof.Machine.execVmonOut d s
  | .vinSample mv => Sys2Proof.Machine.execVinSample mv s
  | .vinLost => Sys2Proof.Machine.execVinLost s
  | .holdExit => Sys2Proof.Machine.execHoldExit s
  | .holdReq fid v => Sys2Proof.Machine.execHoldReq fid v s
  | .tbLost => Sys2Proof.Machine.execTbLost s
  | .coldReset cause fuses => Sys2Proof.Machine.execColdReset cause fuses s
  | .blockReset input => Sys2Proof.Machine.execBlockReset input s
  | .blockDone => Sys2Proof.Machine.execBlockDone s
  | .tenancyReset fid v => Sys2Proof.Machine.execTenancyReset fid v s
  | .tenDone => Sys2Proof.Machine.execTenDone s
  | .arrayReset fid v => Sys2Proof.Machine.execArrayReset fid v s
  | .arrDone failCol => Sys2Proof.Machine.execArrDone failCol s
  | .arrayRejoin a => Sys2Proof.Machine.execArrayRejoin a s
  | .unitReset fid page v => Sys2Proof.Machine.execUnitReset fid page v s
  | .bypass => Sys2Proof.Machine.execBypass s
  | .idcode => Sys2Proof.Machine.execIdcode s
  | .ieee1687Access d ins => Sys2Proof.Machine.execIeee1687Access d ins s
  | .timeBaseValidRises => Sys2Proof.Machine.execTimeBaseValidRises s
  | .moduleLaneLoss p => Sys2Proof.Machine.execModuleLaneLoss p s
  | .trainingAttemptIncomplete p => Sys2Proof.Machine.execTrainingAttemptIncomplete p s

end Sys2Proof.Machine
end

