-- ==== Sys2Proof/Machine/Step.lean ====
section
/-! DEFINITION. One step of the block: the command at the front of the queue takes effect. -/
namespace Sys2Proof.Machine

/-- With no command waiting the block lets one count of the time base pass (log 5, DESIGN CHOICE). -/
def State.idle (s : State) : State := s.tick

/-- Takes the front command from the queue and runs it on the rest. -/
def step (s : State) : Host.Outcome State Fault Refusal :=
  match s.pending with
  | [] => .next s.idle
  | c :: r => exec c { s with pending := r }

/-- Puts the command that a word spells, if any, at the front of the queue. -/
def State.withFetchWord (s : State) (nbits w : Nat) : State :=
  match decodeTableWord nbits w with
  | some c => { s with pending := c :: s.pending }
  | none => s

end Sys2Proof.Machine
end

