-- ==== Sys2Proof/WellFormed.lean ====
section
/-! DEFINITION. Which commands are well formed: the ranges the spec gives the operands that their types do not fix. -/
namespace Sys2Proof

/-- An error has a STATUS other than OK, or is late (R323, R334). -/
def PortError.wf (e : PortError) : Bool := e.status != 0 || e.late
/-- An answer whose error, if it is one, is well formed. -/
def PortAnswer.wf (x : PortAnswer) : Bool := match x with | .ok => true | .error e => e.wf
/-- The same of the answer to a cache command. -/
def CacheAnswer.wf (x : CacheAnswer) : Bool :=
  match x with | .ok => true | .rowError e _ => e.wf | .structError e => e.wf | .pubError e => e.wf

/-- A well-formed command, for the rows whose operand types are wider than the spec's ranges: a WAIT of 1 to 65,536 beats (R236), a domain of
Table 16.1, a letterbox slot a page has (R297), an error of the memory port with a STATUS other than OK (R323), a fuse record for
arrays 0 to 1023 only (R101), a payload of the packet's flits (R300), a control flit's 16 credit bytes (R301), a
monitor refresh with a reading for every monitor (R380), and a cause of reset 1 to 3 (Table 16.12). -/
def Instr.wf (i : Instr) : Bool :=
  match i with
  | .wait _ n => decide (1 ≤ n ∧ n ≤ 65536)
  | .powerAck d | .domainSramZeroed d | .pwrTimeout d | .vmonOut d | .ieee1687Access d _ => decide (d < 24)
  | .letterboxSet _ _ slot _ | .letterboxPost _ _ slot _ => decide (slot.toNat < 240)
  | .run _ x | .loadProgram _ x | .tableLoad _ x | .streamArm _ x | .save _ x | .restore _ x | .taskDispatch _ x | .taskStart _ x
  | .taskEnd (_, x) => x.wf
  | .append _ x | .fork _ x | .commit _ x | .free _ x => x.wf
  | .coldReset c f => decide (1 ≤ c.toNat) && f.records.all (fun r => decide (r.1 < 1024))
  | .dataPacket _ p => decide (p.payload.length ≤ 2048)
  | .controlFlit _ f => decide (f.credits.length = 16 ∧ f.more.length = 40)
  | .monitorRefresh m =>
    decide (m.thermal.length = 64) && decide (m.voltage.length = 48) && decide (m.paceArray.length = 128) &&
      decide (m.paceStore.length = 128)
  | _ => true

end Sys2Proof
end

