-- ==== Sys2Proof/Certificates/Slice0/Obligations.lean ====
section
/-! DEFINITION. The statements for the provers, and the words they are made of. -/

namespace Sys2Proof.Claims
open Sys2Proof.Machine

/-! ### The words the statements are made of -/

/-- The event bit `bit` of page `page` is set in the block's context. -/
def Raised (u : State) (page bit : Nat) : Prop := (u.ctx page ctxBlock).raw.getLsbD bit = true

/-- Nothing differs but arrays, register fields, event state and the count of free values drawn. -/
def Elsewhere (s t : State) : Prop :=
  ({ t with arrs := [], regs := [], ctl := {}, freeCtr := 0 } : State) = { s with arrs := [], regs := [], ctl := {}, freeCtr := 0 }

/-- The word of an operation as the logs show it: the group half of the array slot stands in the upper 32 bits. -/
def slotLogWord (k : Part) (w : BitVec 32) : Nat := if k = 7 then 2 ^ 32 * w.toNat else w.toNat

/-- Operation `i` may issue on array `a` in the present beat, in state `L`: the array issues, the part of the bundle has not
issued yet, and hold mode does not keep the operation back (R28, R44). -/
def MayIssue (L : State) (a : Nat) (p : Pred) (i : Instr) : Prop :=
  ∃ k w, slotWord i = some (k, w) ∧ L.canIssue a = true ∧ (L.arr a).seq.issued.contains k = false ∧
    ((L.arr a).modes.hold = false ∨ mustHold (L.hazards a (slotLogWord k w) p i) = false)

/-- Operation `i` with predicate `p` issues on array `a` in the present beat of `s`, whose start-of-beat landings come first
(R27, R238). -/
def Issues (s : State) (a : Nat) (p : Pred) (i : Instr) : Prop :=
  MayIssue (s.landEarly a) a p i ∧ ((s.landEarly a).arr a).regs.predTrue p = true

/-- An operation in flight but for where it comes from. -/
def unmarked (f : Flight) : Flight := { f with org := {} }

/-- `t` is `u`, but that part `k` of array `a`'s bundle counts as issued; in audit mode what it starts notes where it comes from and the
hazards of the operation are logged, which touches nothing else but that array's audit log, event state and registers (R43). -/
structure Marked (L u t : State) (a : Nat) (k : Part) : Prop where
  plain : (L.arr a).modes.audit = false →
    t = u.onArr a fun A => { A with seq := { A.seq with issued := A.seq.issued ++ [k] } }
  logged : ∃ log lost fl, fl.map unmarked = (u.arr a).flight.map unmarked ∧ t.arr a =
    { u.arr a with
      seq := { (u.arr a).seq with issued := (u.arr a).seq.issued ++ [k] }, flight := fl, audit := log, auditLost := lost }
  others : ∀ b, b ≠ a → t.arr b = u.arr b
  rest : Elsewhere u t

/-- `i` completes on `s` in a state that is `u` but for the marks of the issue. -/
def Completes (i : Instr) (s : State) (a : Nat) (k : Part) (u : State) : Prop :=
  ∃ t, exec i s = .next t ∧ Marked (s.landEarly a) u t a k

/-- `L` with one more operation in flight on array `a`. -/
def started (L : State) (a : Nat) (f : Flight) : State := L.onArr a fun A => { A with flight := A.flight ++ [f] }

/-- A vector lane operand VB: the lane of a vector register, or with BS a scalar register (R246). -/
def laneB (A : ArrayState) (f : VFields) (i : Nat) : Word := if f.bs then A.sreg f.vb.toNat else A.vlane f.vb.toNat i

/-- The scalar operations of form R, each with the result of its two source values (Table 10.9). -/
def formR (a : Arr) (p : Pred) (f : RForm) : List (Instr × (Word → Word → Word)) :=
  [ (.add a p f, fun x y => x + y), (.sub a p f, fun x y => x - y), (.andW a p f, fun x y => x &&& y),
    (.orW a p f, fun x y => x ||| y), (.xorW a p f, fun x y => x ^^^ y),
    (.shl a p f, fun x y => x <<< (y.toNat % 32)), (.shr a p f, fun x y => x >>> (y.toNat % 32)),
    (.mul a p f, fun x y => x * y) ]

/-- The scalar operations of other forms, each with its destination and result (Table 10.9). -/
def formI (A : ArrayState) (a : Arr) (p : Pred) (sd sa : BitVec 5) (imm12 : BitVec 12) (imm16 : BitVec 16) (pt : BitVec 4)
    (ct : BitVec 3) : List (Instr × Word) :=
  [ (.addi a p sd sa imm12, A.sreg sa.toNat + imm12.signExtend 32),
    (.lli a p sd imm16, imm16.setWidth 32),
    (.lui a p sd imm16, imm16 ++ (A.sreg sd.toNat).setWidth 16),
    (.ptrd a p sd pt, BitVec.ofNat 32 (A.ptr pt.toNat).value),
    (.ctrd a p sd ct, A.regs.counter ct.toNat) ]

/-- The vector operations with one result per lane and a latency of 3, each with what it makes of VA, VB and VC
(Table 10.8). -/
def formV (a : Arr) (p : Pred) (f : VFields) : List (Instr × (Word → Word → Word → Word)) :=
  [ (.fadd a p f, fun x y _ => fadd x y), (.fsub a p f, fun x y _ => fsub x y), (.fmul a p f, fun x y _ => fmul x y),
    (.fma a p f, fun x y z => ffma x y z), (.fnma a p f, fun x y z => ffma (fneg32 x) y z),
    (.fmax a p f, fun x y _ => fmax x y), (.fmin a p f, fun x y _ => fmin x y),
    (.fclt a p f, fun x y _ => if flt x y then 0x3F800000#32 else 0#32),
    (.fsel a p f, fun x y z => if isZero32 x then z else y),
    (.iand a p f, fun x y _ => x &&& y), (.ior a p f, fun x y _ => x ||| y), (.iadd a p f, fun x y _ => x + y),
    (.iclt a p f, fun x y _ => if x.toNat < y.toNat then 1#32 else 0#32) ]
end Sys2Proof.Claims

section
open Sys2Proof Sys2Proof.Machine Sys2Proof.Claims
/-- A scalar operation that writes a register completes with nothing changed but its result in flight to that register, to land one
beat later (R247, Table 10.9). A lane operation of the vector slot completes with nothing changed but its 32 results in flight to
VD, to land three beats later (R246, Table 10.8). -/
def Obligations.ScalarAndLaneOperationsSendResults : Prop :=
  (∀ (s : State) (a : Arr) (p : Pred),
      (∀ (f : RForm), ∀ x ∈ formR a p f, Issues s a.toNat p x.1 →
        Completes x.1 s a.toNat 6 (started (s.landEarly a.toNat) a.toNat
          { left := 1, rank := 10, op := .sreg f.sd.toNat
              (x.2 (((s.landEarly a.toNat).arr a.toNat).sreg f.sa.toNat) (((s.landEarly a.toNat).arr a.toNat).sreg f.sb.toNat)) })) ∧
      (∀ sd sa imm12 imm16 pt ct, ∀ x ∈ formI ((s.landEarly a.toNat).arr a.toNat) a p sd sa imm12 imm16 pt ct,
        Issues s a.toNat p x.1 →
        Completes x.1 s a.toNat 6 (started (s.landEarly a.toNat) a.toNat { left := 1, rank := 10, op := .sreg sd.toNat x.2 }))) ∧
  (∀ (s : State) (a : Arr) (p : Pred) (f : VFields), ∀ x ∈ formV a p f, Issues s a.toNat p x.1 →
      let A := (s.landEarly a.toNat).arr a.toNat
      Completes x.1 s a.toNat 5 (started (s.landEarly a.toNat) a.toNat
        { left := 3, rank := 9, op := .vreg f.vd.toNat
            ((List.range 32).map fun i => x.2 (A.vlane f.va.toNat i) (laneB A f i) (A.vlane f.vc.toNat i)) }))
end

namespace Sys2Proof.Claims
open Sys2Proof.Machine

/-- No failure is armed on the block (R372). -/
def Unarmed (L : State) : Prop := L.flag Reg.FAULT_INJ_ARM = false

/-- `L` with the present beat of array `a` holding an access to some 32-byte units of its store (R90). -/
def accessed (L : State) (a : Nat) (units : List Nat) : State :=
  L.onArr a fun A => { A with seq := { A.seq with touched := A.seq.touched ++ units } }

/-- `L` with a cause of freeze added to the present beat of array `a` (R32). -/
def waiting (L : State) (a : Nat) (w : Stalled) : State :=
  L.onArr a fun A => { A with stalled := if A.stalled.contains w then A.stalled else A.stalled ++ [w] }

/-- `L` with the sequencer of array `a` set to go on after the present bundle as `f` says. -/
def heading (L : State) (a : Nat) (f : Flow) : State := L.onArr a fun A => { A with seq := { A.seq with flow := f } }

/-- The operations of the scalar slot that set pointers, counters, comparators, the table epoch and the argument stage, each with
what lands a beat later (Table 10.9). -/
def formX (A : ArrayState) (a : Arr) (p : Pred) (pt : BitVec 4) (sa : BitVec 5) (lv : BitVec 2) (rw : Bool) (ct : BitVec 3)
    (imm16 : BitVec 16) (c : CmpSetFields) (g : AstgFields) : List (Instr × Landing) :=
  let cfg : Comparator :=
    { rel := c.rel.toNat, ct := c.ct.toNat, osrc := c.osrc, imm := if c.osrc then c.imm.toNat % 8 else c.imm.toNat }
  let res := relHolds cfg.rel (A.regs.counter cfg.ct).toNat (if c.osrc then (A.regs.counter cfg.imm).toNat else cfg.imm)
  [ (.ptset a p pt sa, .ptset pt.toNat ((A.sreg sa.toNat).toNat % 2 ^ 28)),
    (.ptcfg a p pt lv rw sa, .ptcfg pt.toNat (A.sreg sa.toNat) (if lv = 3#2 then 0 else lv.toNat) rw),
    (.ctset a p ct sa, .counter ct.toNat (A.sreg sa.toNat)),
    (.ctadd a p ct imm16, .counter ct.toNat (A.regs.counter ct.toNat + imm16.signExtend 32)),
    (.cmpset a p c, .cmpCfg c.cmp.toNat { cfg with result := res }),
    (.tepoch a p, .epoch),
    (.astg a p g, .astg (A.sreg g.sa.toNat) (A.sreg g.sb.toNat) (A.vreg g.vk.toNat) ((A.sreg g.sm.toNat).toNat % 2 ^ 20) g.rstcol) ]

/-- The vector operations that are no plain lane operation of VA, VB and VC, each with its latency and what lands
(Table 10.8). -/
def formW (A : ArrayState) (a : Arr) (p : Pred) (f : VFields) : List (Instr × Nat × Landing) :=
  [ (.xsum a p f, 15, .vreg f.vd.toNat (List.replicate 32 (laneSum (A.vreg f.va.toNat)))),
    (.bcast a p f, 3, .vreg f.vd.toNat (List.replicate 32 (A.sreg f.va.toNat))),
    (.extr a p f, 3, .sreg f.vd.toNat (A.vlane f.va.toNat ((if f.bs then (A.sreg f.vb.toNat).toNat else f.vb.toNat) % 32))),
    (.rsumrd a p f, 3, .vreg f.vd.toNat ((List.range 32).map fun i => A.rsum i)),
    (.rsumwr a p f, 3, .rsumW (A.vreg f.va.toNat)),
    (.laneid a p f, 3, .vreg f.vd.toNat ((List.range 32).map natToFp32)),
    (.gfrd a p f, 3, .vreg f.vd.toNat ((List.range 32).map fun i => if Tbl.get false A.regs.guard i then 0x3F800000#32 else 0#32)) ]
end Sys2Proof.Claims

section
open Sys2Proof Sys2Proof.Machine Sys2Proof.Claims
/-- An operation on a pointer, a counter, a comparator, the table epoch or the argument stage completes with nothing changed but its
result in flight, to land one beat later; a LEVEL of 3 acts as 0, and a comparator is evaluated on the counters of the issue beat
(R239, R245, R247, Table 10.9). The other operations of the vector slot send their result with the latency of Table 10.8: XSUM in 15
beats, the rest in 3; CVT rounds each lane to the format coded in VB, 0 to 4, and a code of 5 or more is skipped as BAD_FMT (R246).
That CVT and EXTR read their code and lane from VB or, with BS, from the scalar register, and that codes of 8 and above are BAD_FMT
too, are the model's reading (log 11). -/
def Obligations.ControlAndVectorMovesSendResults : Prop :=
  (∀ (s : State) (a : Arr) (p : Pred) pt sa lv rw ct imm16 c g,
      ∀ x ∈ formX ((s.landEarly a.toNat).arr a.toNat) a p pt sa lv rw ct imm16 c g, Issues s a.toNat p x.1 →
        Completes x.1 s a.toNat 6 (started (s.landEarly a.toNat) a.toNat { left := 1, rank := 10, op := x.2 })) ∧
  (∀ (s : State) (a : Arr) (p : Pred) (f : VFields),
      let L := s.landEarly a.toNat
      let A := L.arr a.toNat
      (∀ x ∈ formW A a p f, Issues s a.toNat p x.1 →
        Completes x.1 s a.toNat 5 (started L a.toNat { left := x.2.1, rank := 9, op := x.2.2 })) ∧
      (Issues s a.toNat p (.cvt a p f) →
        let code := if f.bs then (A.sreg f.vb.toNat).toNat else f.vb.toNat
        Completes (.cvt a p f) s a.toNat 5
          (if code ≤ 4 then started L a.toNat { left := 3, rank := 9, op := .vreg f.vd.toNat ((A.vreg f.va.toNat).map (cvtHeld code)) }
           else L.deadLetter a.toNat dlBadFmt 5 (vWord 0x0B#6 p f).toNat)))
end

section
open Sys2Proof Sys2Proof.Machine Sys2Proof.Claims
/-- FDIV sends its 32 quotients with a latency of 12 and holds the divider for 4 beats; one issued while the divider is held is
skipped as BUSY (R38, R246). VLD reads one element per lane at the effective address of its descriptor plus lane times LSTRIDE and
sends it, converted to FP32, with a latency of 2; VST sends the 32 converted elements to those addresses; a descriptor that is no
array-store lane descriptor is skipped as BAD_DESC; DSET sends the four words at the address in SA, low four bits ignored, with
the reserved bits of a descriptor reading zero (R8, R240, R241, R246, R247, Table 10.4). -/
def Obligations.DivisionAndLaneAccessSendResults : Prop :=
  (∀ (s : State) (a : Arr) (p : Pred) (f : VFields), Issues s a.toNat p (.fdiv a p f) →
      let L := s.landEarly a.toNat
      let A := L.arr a.toNat
      let quotients := (List.range 32).map fun i => fdiv (A.vlane f.va.toNat i) (laneB A f i)
      Completes (.fdiv a p f) s a.toNat 5
        (if A.vdivBusy = 0 then
          (started L a.toNat { left := 12, rank := 9, op := .vreg f.vd.toNat quotients }).onArr a.toNat fun A => { A with vdivBusy := 4 }
         else L.deadLetter a.toNat dlBusy 5 (vWord 0x06#6 p f).toNat)) ∧
  (∀ (s : State) (a : Arr) (p : Pred) (v : BitVec 5) (desc : BitVec 6) (sa : BitVec 5),
      let L := s.landEarly a.toNat
      let A := L.arr a.toNat
      let d := A.descr desc.toNat
      let addr := fun (r : Nat) => (d.base + (if d.pten then (A.ptr d.pt).value else 0) + r * d.lstride) % 2 ^ 20
      let at_ := (A.sreg sa.toNat).toNat / 16 * 16 % 2 ^ 20
      let code := fun (r : Nat) => leNat ((List.range (plainBytes d.fmt)).map fun i => A.store.byte ((addr r + i) % 2 ^ 20))
      let lane := fun (r : Nat) => if d.fmt = 0 then BitVec.ofNat 32 (code r) else rne32 ((fmtOfCode d.fmt).decode (code r))
      let cell := fun (r : Nat) => (addr r, leBytes (plainBytes d.fmt) ((fmtOfCode d.fmt).round (val32 (A.vlane v.toNat r))))
      let kept := fun (i : Nat) => if i = 0 then 0x7FFFFFFF#32 else if i = 1 then 0xFFFF01FF#32 else 0xFFFFFFFF#32
      let word := fun (i : Nat) => BitVec.ofNat 32 (leNat ((List.range 4).map fun j => A.store.byte ((at_ + 4 * i + j) % 2 ^ 20))) &&& kept i
      (Unarmed L → Issues s a.toNat p (.vld a p v desc) → Completes (.vld a p v desc) s a.toNat 5
        (if d.space = 0 ∧ d.fmt ≤ 4 then
          started (accessed L a.toNat (unitsOfDests (A.laneDests d))) a.toNat
            { left := 2, rank := 9, op := .vreg v.toNat ((List.range 32).map lane) }
         else L.deadLetter a.toNat dlBadDesc 5 ((0#11 ++ desc ++ v ++ 0x10#6 ++ predBits p : BitVec 32).toNat))) ∧
      (Issues s a.toNat p (.vst a p v desc) → Completes (.vst a p v desc) s a.toNat 5
        (if d.space = 0 ∧ d.fmt ≤ 4 then
          started L a.toNat { left := 2, rank := 9, op := .bytes ((List.range 32).map cell) }
         else L.deadLetter a.toNat dlBadDesc 5 ((0#11 ++ desc ++ v ++ 0x11#6 ++ predBits p : BitVec 32).toNat))) ∧
      (Unarmed L → Issues s a.toNat p (.dset a p desc sa) → Completes (.dset a p desc sa) s a.toNat 6
        (started L a.toNat { left := 2, rank := 10, op := .desc desc.toNat ((List.range 4).map word) })))
end

section
open Sys2Proof Sys2Proof.Machine Sys2Proof.Claims
/-- REPEAT opens its body with its count, or skips the body where the counter it names holds 0; CALL enters a helper routine the
tenancy may use at a depth below 4, by the kind that the code the task was dispatched with has; RET returns, or ends the task at
depth 0; END ends it. Where CALL may not, it is skipped as CALL_DEPTH or CALL_TARGET (R249, R251, R252, R258, R264). WAIT n takes
the next n beats of an array in a beat in which nothing has issued; nothing else changes (R236). An operation of any slot whose
predicate is false has no effect but that its part of the bundle counts as issued; a REPEAT skips its body (R238, R249). -/
def Obligations.ControlFlowAndWaitSteerSequencer : Prop :=
  (∀ (s : State) (a : Arr) (p : Pred) (body1 : BitVec 6) (csrc : Bool) (count1 : BitVec 12) (r : BitVec 10),
      let L := s.landEarly a.toNat
      let A := L.arr a.toNat
      let n := if csrc then (A.regs.counter (count1.toNat % 8)).toNat else count1.toNat + 1
      let w := (0#12 ++ r ++ 0x21#6 ++ predBits p : BitVec 32).toNat
      (Issues s a.toNat p (.repeatBody a p body1 csrc count1) → Completes (.repeatBody a p body1 csrc count1) s a.toNat 6
        (heading L a.toNat (if n = 0 then .skip (body1.toNat + 1) else .open_ (body1.toNat + 1) n))) ∧
      (Issues s a.toNat p (.call a p r) → Completes (.call a p r) s a.toNat 6
        (if 4 ≤ A.seq.calls.length then L.deadLetter a.toNat dlCallDepth 6 w
         else if L.kindAt r.toNat A.seq.version = 2 ∧ L.mayUse (L.tenRunning a.toNat) r.toNat = true then
           heading L a.toNat (.call r.toNat A.seq.version)
         else L.deadLetter a.toNat dlCallTarget 6 w)) ∧
      (Issues s a.toNat p (.ret a p) → Completes (.ret a p) s a.toNat 6
        (heading L a.toNat (if A.seq.calls = [] then .stop else .ret))) ∧
      (Issues s a.toNat p (.endTask a p) → Completes (.endTask a p) s a.toNat 6 (heading L a.toNat .stop))) ∧
  (∀ (s : State) (a : Arr) (n : Nat),
      let L := s.landEarly a.toNat
      Unarmed L → L.canIssue a.toNat = true → (L.arr a.toNat).seq.issued = [] →
        exec (.wait a n) s = .next (L.onArr a.toNat fun A =>
          { A with seq := { A.seq with waitLeft := n, issued := [0, 1, 2, 3, 4, 5, 6, 7, 8] } })) ∧
  (∀ (s : State) (a : Arr) (i : Instr) (k : Part) (w : BitVec 32), slotWord i = some (k, w) → decodePart a k w = .op i →
      let L := s.landEarly a.toNat
      MayIssue L a.toNat (predOf w) i → (L.arr a.toNat).regs.predTrue (predOf w) = false →
      Completes i s a.toNat k (match i with
        | .repeatBody _ _ body1 _ _ => heading L a.toNat (.skip (body1.toNat + 1))
        | _ => L))
end

section
open Sys2Proof Sys2Proof.Machine Sys2Proof.Claims
/-- A feeder operation on an array-store or stream-window descriptor reads the slice of its reduction step and sends it to its side
with a latency of 2; while a window slot it reads is not filled the array waits; any other space is skipped as BAD_DESC. (The
slice of an FP32 descriptor holds free elements: log 2.) (R91, R242, Table 10.4.) MMA sends the product of the two presented
slices with a latency of 4 and is skipped as CLASS_MIX where one is FP8 and the other is not; DOT and AXPY read their input slot
and query or factors and send their sums with a latency of 6, wait while the slot is not filled, and a DOT past entry 127 is
skipped as QUERY_RANGE (R60, R78, R92, R105, Table 10.5). -/
def Obligations.FeederAndProductOperationsSend : Prop :=
  (∀ (s : State) (a : Arr) (p : Pred) (b : Bool) (desc : BitVec 6) (k : BitVec 7),
      let L := s.landEarly a.toNat
      let A := L.arr a.toNat
      let d := A.descr desc.toNat
      let part : Part := if b then 2 else 1
      let units := unitsOfDests (A.opReads (.feederRead a p b desc k))
      let free : Slice := ⟨1, (List.range 128).map fun i => (Config.freeWord (L.freeCtr + i)).toNat % 65536⟩
      Unarmed L → Issues s a.toNat p (.feederRead a p b desc k) → Completes (.feederRead a p b desc k) s a.toNat part
        (if d.space = 0 ∨ d.space = 2 then
          if A.sliceReady d k.toNat = true then
            (if d.fmt = 0 then
              started ((accessed L a.toNat units).drew 128) a.toNat { left := 2, rank := part, op := .feeder b free }
             else started (accessed L a.toNat units) a.toNat { left := 2, rank := part, op := .feeder b (A.slice d k.toNat) })
          else waiting L a.toNat (.feederRead b desc.toNat k.toNat)
         else L.deadLetter a.toNat dlBadDesc part (0#15 ++ k ++ desc ++ predBits p : BitVec 32).toNat)) ∧
  (∀ (s : State) (a : Arr) (p : Pred) (f : MmaFields) (g : DotFields) (h : AxpyFields),
      let L := s.landEarly a.toNat
      let A := L.arr a.toNat
      (Issues s a.toNat p (.mma a p f) → Completes (.mma a p f) s a.toNat 3
        (if (decide (3 ≤ A.regs.presA.code) = decide (3 ≤ A.regs.presB.code)) then
          started L a.toNat { left := 4, rank := 3, op := .mma A.regs.presA A.regs.presB f }
         else L.deadLetter a.toNat dlClassMix 3 (0#18 ++ BitVec.ofBool f.nhi ++ BitVec.ofBool f.n16 ++ BitVec.ofBool f.mhi ++
           BitVec.ofBool f.m16 ++ f.grp ++ 1#3 ++ predBits p : BitVec 32).toNat)) ∧
      (Issues s a.toNat p (.dot a p g) → Completes (.dot a p g) s a.toNat 3
        (if 127 < g.e0.toNat + g.qry.toNat then
          L.deadLetter a.toNat dlQueryRange 3 (0#5 ++ g.e0 ++ g.chunk ++ g.qry ++ g.mslot ++ 2#3 ++ predBits p : BitVec 32).toNat
         else if A.mv.filled.contains g.mslot.toNat = true then
          started L a.toNat { left := 6, rank := 3, op := .dotAdd g (A.mv.slotLanes g.mslot.toNat) (A.mv.queryChunk g.qry.toNat g.chunk.toNat) }
         else waiting L a.toNat (.dotRead g))) ∧
      (Issues s a.toNat p (.axpy a p h) → Completes (.axpy a p h) s a.toNat 3
        (if A.mv.filled.contains h.mslot.toNat = true then
          started L a.toNat { left := 6, rank := 3, op := .axpyAdd h (A.mv.slotLanes h.mslot.toNat) (A.vreg h.vreg.toNat) }
         else waiting L a.toNat (.axpyRead h))))
end

section
open Sys2Proof Sys2Proof.Machine Sys2Proof.Claims
/-- SWAP starts a swap that lands a beat later and bars the next swap for 16 beats, within which one is skipped as SWAP_SPACING;
ROWSCALE sends its 32 factors with a latency of 2; GLOAD starts the load of its group from its first row and stops the array's
issue for 16 beats. A tile address is TILE times 4,096 plus the pointer's value, modulo the store (R29, R82, R85, R86, R88, R241,
Table 10.6). A special-function operation evaluates its function slot on one argument per lane, v, v·μ + κ or (v − σ)·μ by FORM
and −∞ on a masked lane; the results, converted to DFMT, land after 2s beats in a register or, two beats later, in the array
store; with GUARD the unmasked lanes whose argument is above G set their flags; ACOL steps on (R109, R135, R136, R137, R244,
R245); adds to RSUM land in issue order, so that an add waits for those of operations issued before it, which may need more steps
(R137). One with FORM 3 is skipped as RESERVED_OP, one with a DFMT above 4 as BAD_FMT, one with a source or destination that is no
lane descriptor of the array store as BAD_DESC, and one that would be the ninth evaluation in progress as BUSY (R110, R244,
R239); where several hold, the first of these is logged: the model's order (log 49). -/
def Obligations.GroupAndSpecialFunctionOperationsStart : Prop :=
  (∀ (s : State) (a : Arr) (p : Pred) (g : BitVec 3) (dest : SwapDest) (v : BitVec 5) (src : TileAddr),
      let L := s.landEarly a.toNat
      let A := L.arr a.toNat
      let tile := fun (t : TileAddr) => (4096 * t.tile.toNat + (if t.pten then (A.ptr t.pt.toNat).value else 0)) % 2 ^ 20
      let at_ := match dest with | .store t => tile t | _ => 0
      (Issues s a.toNat p (.swap a p g dest) → Completes (.swap a p g dest) s a.toNat 7
        (if A.acc.swapBusy = 0 then
          started (L.onArr a.toNat fun A => { A with acc := { A.acc with swapBusy := 16 } }) a.toNat
            { left := 1, rank := 5, op := .swap g.toNat dest at_ }
         else L.deadLetter a.toNat dlSwapSpacing 3 (2 ^ 32 * (destBits dest ++ g ++ 1#3 ++ predBits p : BitVec 32).toNat))) ∧
      (Issues s a.toNat p (.rowscale a p g v) → Completes (.rowscale a p g v) s a.toNat 7
        (started L a.toNat { left := 2, rank := 4, op := .rowscale g.toNat (A.vreg v.toNat) })) ∧
      (Issues s a.toNat p (.gload a p g src) → Completes (.gload a p g src) s a.toNat 7
        (started (L.onArr a.toNat fun A => { A with seq := { A.seq with stall := 16 } }) a.toNat
          { left := 0, rank := 6, op := .loadRow g.toNat (tile src) 0 [] }))) ∧
  (∀ (s : State) (a : Arr) (p : Pred) (f : SfFields),
      let L := s.landEarly a.toNat
      let A := L.arr a.toNat
      let ds := A.descr f.src.toNat
      let dd := A.descr f.dst.toNat
      let masked := fun (r : Nat) => f.mask && !bitOf (A.loadLe ((A.regs.amsk + 4 * r) % 2 ^ 20) 4) A.regs.acol
      let v := fun (r : Nat) => (if f.srck then A.laneRead ds else A.vreg (f.src.toNat % 32)).getD r 0
      let k := fun (r : Nat) => Tbl.get 0 A.regs.aks r
      let arg := fun (r : Nat) => if masked r then 0xFF800000#32 else
        if f.form = 0#2 then v r else if f.form = 1#2 then ffma (v r) A.regs.amu (k r)
        else rne32 ((exactSum [val32 (v r), (val32 (k r)).neg]).mul (val32 A.regs.amu))
      let bank := if A.banks.active then 1 else 0
      let img := A.banks.image bank f.fslot.toNat
      let vals := (List.range 32).map fun r => cvtHeld f.dfmt.toNat (evalImage img (A.banks.image bank) (arg r))
      let hit := if f.guard then (List.range 32).filter fun r => !masked r && flt A.regs.agrd (arg r) else []
      let n := 2 * max (imgSteps img) 4
      let L1 := if f.srck then accessed L a.toNat (unitsOfDests (A.laneDests ds)) else L
      let reg := if f.dstk then none else some (f.dst.toNat % 32)
      let due := A.flight.foldl (fun m g => match g.op with | .eval _ true _ | .rsumAdd _ => max m g.left | _ => m) 0
      let sent : List Flight := if f.sum = true ∧ n < due then
          [{ left := n, rank := 8, op := .eval vals false reg }, { left := due, rank := 8, op := .rsumAdd vals }]
        else [{ left := n, rank := 8, op := .eval vals f.sum reg }]
      let L2 := sent.foldl (fun (u : State) g => started u a.toNat g) L1
      let L3 := if f.dstk then started L2 a.toNat { left := n + 2, rank := 8, op := .bytes (A.laneCells dd f.dfmt.toNat vals) } else L2
      let L4 := if hit = [] then L3 else started L3 a.toNat { left := 1, rank := 8, op := .guard hit }
      let described := (f.srck = true → ds.space = 0 ∧ ds.fmt ≤ 4) ∧ (f.dstk = true → dd.space = 0 ∧ dd.fmt ≤ 4)
      let skipped := fun (why : Nat) => Completes (.specialFunctionIssue a p f) s a.toNat 4 (L.deadLetter a.toNat why 4
        (0#2 ++ f.dfmt ++ f.dst ++ BitVec.ofBool f.dstk ++ f.src ++ BitVec.ofBool f.srck ++ BitVec.ofBool f.guard ++
          BitVec.ofBool f.mask ++ BitVec.ofBool f.sum ++ f.form ++ f.fslot ++ predBits p : BitVec 32).toNat)
      Issues s a.toNat p (.specialFunctionIssue a p f) →
        (Unarmed L → f.form ≠ 3#2 → f.dfmt.toNat ≤ 4 → described → A.evalBusy < 8 →
          Completes (.specialFunctionIssue a p f) s a.toNat 4
            (L4.onArr a.toNat fun A => { A with regs := { A.regs with acol := (A.regs.acol + 1) % 32 } })) ∧
        (f.form = 3#2 → skipped dlReservedOp) ∧ (f.form ≠ 3#2 → 5 ≤ f.dfmt.toNat → skipped dlBadFmt) ∧
        (f.form ≠ 3#2 → f.dfmt.toNat ≤ 4 → ¬ described → skipped dlBadDesc) ∧
        (f.form ≠ 3#2 → f.dfmt.toNat ≤ 4 → described → 8 ≤ A.evalBusy → skipped dlBusy))
end

namespace Sys2Proof.Claims
open Sys2Proof.Machine

/-- Nothing differs but register fields, event state, the shared store, ring ports, meters, mailbags and the count of free
values drawn: what ring messages that were waiting to land may change. -/
def BesideMessages (s t : State) : Prop :=
  ({ t with regs := [], ctl := {}, shared := [], ring := [], meter := {}, freeCtr := 0, disp := { t.disp with mbx := [] } } : State) =
  { s with regs := [], ctl := {}, shared := [], ring := [], meter := {}, freeCtr := 0, disp := { s.disp with mbx := [] } }

/-- Object `n` of tenancy `t`'s range of letterboxes or mailbags: within its size (R343). The range of a tenancy that is not
enabled, which nothing has checked, gives no part in what an enabled one holds: the model's choice (log 38). -/
abbrev InRange (s : State) (t : Nat) (first size : FieldSpec) (n : Nat) : Prop :=
  n < s.reg size t ∧ (s.tenEn t = true ∨ ∀ u, u < 16 → s.tenEn u = true →
    ¬ (s.reg first u ≤ s.reg first t + n ∧ s.reg first t + n < s.reg first u + s.reg size u))

/-- The word of a scalar-slot operation on letterbox or mailbag `obj`. -/
def syncWord (p : Pred) (op : BitVec 6) (obj : BitVec 13) (r : BitVec 5) : Nat := (0#4 ++ r ++ obj ++ op ++ predBits p : BitVec 32).toNat

/-- A waiting list with `who` in it: at its place, or at the end. -/
def queued (l : List Nat) (who : Nat) : List Nat := if l.contains who then l else l ++ [who]
end Sys2Proof.Claims

section
open Sys2Proof Sys2Proof.Machine Sys2Proof.Claims
/-- LBPOST adds to its letterbox, saturating at 0xFFFFFFFF, and is journalled; a journalled post is passed without repeating it;
LBWAIT goes on once the letterbox has reached its target, a wait that was met staying so for its beat, and freezes the array until
then; LBREAD sends the letterbox to a register; a letterbox outside the tenancy's range is skipped as OBJ_RANGE (R280, R287, R343).
Messages that waited for the letterbox may land. MBPUT adds its handle at the end of a mailbag with room for it and MBTAKE sends the
first handle its place in the waiting list gives it to a register; each is journalled, each freezes the array in the waiting list
while it has to wait, and each acts from the journal in a replayed attempt; a mailbag outside the tenancy's range is skipped as
OBJ_RANGE (R282, R287). COLLECT journals the array's arrival; where the arrivals reach the tenancy's usable arrays the generation
completes and GEN advances by 1, and until then the array stays frozen; a journalled COLLECT passes in its issue beat, and one whose
frozen beat is met again has arrived already (R284, R287). -/
def Obligations.SynchronisationOperationsAct : Prop :=
  (∀ (s : State) (a : Arr) (p : Pred) (obj : BitVec 13) (r : BitVec 5),
      let L := s.landEarly a.toNat
      let t := L.tenRunning a.toNat
      let v := ((L.arr a.toNat).sreg r.toNat).toNat
      let box := L.reg Reg.TEN_LB_FIRST t + obj.toNat
      let inside := InRange L t Reg.TEN_LB_FIRST Reg.TEN_LB_SIZE obj.toNat
      (Issues s a.toNat p (.lbpost a p obj r) →
        (inside → L.journalNext a.toNat = none → ∃ u, Completes (.lbpost a p obj r) s a.toNat 6 u ∧
          BesideMessages ((L.journalAdd a.toNat .post).putLb box (BitVec.ofNat 32 (min ((L.lb box).toNat + v) (2 ^ 32 - 1)))) u) ∧
        (inside → L.journalNext a.toNat ≠ none → Completes (.lbpost a p obj r) s a.toNat 6 (L.journalPass a.toNat)) ∧
        (¬ inside → Completes (.lbpost a p obj r) s a.toNat 6 (L.deadLetter a.toNat dlObjRange 6 (syncWord p 0x28#6 obj r)))) ∧
      (Issues s a.toNat p (.lbwait a p obj r) → Completes (.lbwait a p obj r) s a.toNat 6
        (if inside then
          (if v ≤ (L.lb box).toNat ∨ (L.arr a.toNat).seq.lbMet = true then L.onArr a.toNat fun A => { A with seq := { A.seq with lbMet := true } }
           else waiting L a.toNat (.lbWait obj.toNat v))
         else L.deadLetter a.toNat dlObjRange 6 (syncWord p 0x29#6 obj r))) ∧
      (Issues s a.toNat p (.lbread a p obj r) → Completes (.lbread a p obj r) s a.toNat 6
        (if inside then started L a.toNat { left := 1, rank := 10, op := .sreg r.toNat (L.lb box) }
         else L.deadLetter a.toNat dlObjRange 6 (syncWord p 0x2A#6 obj r)))) ∧
  (∀ (s : State) (a : Arr) (p : Pred) (obj : BitVec 13) (r : BitVec 5),
      let L := s.landEarly a.toNat
      let t := L.tenRunning a.toNat
      let h := (L.arr a.toNat).sreg r.toNat
      let m := L.reg Reg.TEN_MB_FIRST t + obj.toNat
      let b := L.bag m
      let me := bagWho a.toNat 4
      let inside := InRange L t Reg.TEN_MB_FIRST Reg.TEN_MB_SIZE obj.toNat
      (Issues s a.toNat p (.mbput a p obj r) →
        (inside → L.journalNext a.toNat = none → b.handles.length + indexOf (queued b.putters me) me < 64 →
          ∃ u, Completes (.mbput a p obj r) s a.toNat 6 u ∧ BesideMessages (L.journalAdd a.toNat .put) u ∧
            (u.bag m).handles = b.handles ++ [(h, (L.arr a.toNat).task)] ∧ (u.bag m).takers = b.takers ∧
            (u.bag m).putters = (queued b.putters me).filter (fun x => x != me) ∧ ∀ n, n ≠ m → u.bag n = L.bag n) ∧
        (inside → L.journalNext a.toNat = none → 64 ≤ b.handles.length + indexOf (queued b.putters me) me →
          ∃ u, Completes (.mbput a p obj r) s a.toNat 6 (waiting u a.toNat (.mbPut obj.toNat h)) ∧ BesideMessages L u ∧
            u.bag m = { b with putters := queued b.putters me } ∧ ∀ n, n ≠ m → u.bag n = L.bag n) ∧
        (inside → L.journalNext a.toNat ≠ none → Completes (.mbput a p obj r) s a.toNat 6 (L.journalPass a.toNat)) ∧
        (¬ inside → Completes (.mbput a p obj r) s a.toNat 6 (L.deadLetter a.toNat dlObjRange 6 (syncWord p 0x2B#6 obj r)))) ∧
      (Issues s a.toNat p (.mbtake a p obj r) →
        (inside → L.journalNext a.toNat = none → ∀ g x, b.handles[indexOf (queued b.takers me) me]? = some (g, x) →
          ∃ u more, BesideMessages L u ∧ Completes (.mbtake a p obj r) s a.toNat 6
              (started (u.journalAdd a.toNat (.take g)) a.toNat { left := 1, rank := 10, op := .sreg r.toNat g }) ∧
            (u.bag m).handles = b.handles.eraseIdx (indexOf (queued b.takers me) me) ++ more ∧
            (u.bag m).takers = (queued b.takers me).filter (fun x => x != me)) ∧
        (inside → L.journalNext a.toNat = none → b.handles[indexOf (queued b.takers me) me]? = none →
          ∃ u, Completes (.mbtake a p obj r) s a.toNat 6 (waiting u a.toNat (.mbTake obj.toNat r.toNat)) ∧ BesideMessages L u ∧
            u.bag m = { b with takers := queued b.takers me } ∧ ∀ n, n ≠ m → u.bag n = L.bag n) ∧
        (inside → ∀ g, L.journalNext a.toNat = some (.take g) → Completes (.mbtake a p obj r) s a.toNat 6
          (started (L.journalPass a.toNat) a.toNat { left := 1, rank := 10, op := .sreg r.toNat g })) ∧
        (¬ inside → Completes (.mbtake a p obj r) s a.toNat 6 (L.deadLetter a.toNat dlObjRange 6 (syncWord p 0x2C#6 obj r))))) ∧
  (∀ (s : State) (a : Arr) (p : Pred), Issues s a.toNat p (.collectionArrival a p) →
      let L := s.landEarly a.toNat
      let t := L.tenRunning a.toNat
      let c := L.collection t
      let arrived := c.arrived.filter (fun b => b != a.toNat) ++ [a.toNat]
      let v := (L.journalAdd a.toNat .arrive).setCollection t { c with arrived := arrived }
      ((L.arr a.toNat).seq.arrived = true → Completes (.collectionArrival a p) s a.toNat 6
        (if a.toNat ∈ c.arrived then waiting L a.toNat .arrive else L)) ∧
      ((L.arr a.toNat).seq.arrived = false → L.journalNext a.toNat ≠ none → Completes (.collectionArrival a p) s a.toNat 6 (L.journalPass a.toNat)) ∧
      ((L.arr a.toNat).seq.arrived = false → L.journalNext a.toNat = none → Completes (.collectionArrival a p) s a.toNat 6
        (if (v.usable t).length ≤ arrived.length then v.setCollection t { gen := (c.gen + 1) % 65536, arrived := [] }
         else waiting v a.toNat .arrive)))
end

namespace Sys2Proof.Claims
open Sys2Proof.Machine

/-- Flight `f` is the next of its kind to land on array `a`: the group is ON, nothing stops or freezes the array, no delivery is
late, `f` is the first due flight of the kind in the order of R37 and Table 4.4, and no due late landing comes before it. -/
structure Landable (s : State) (a : Nat) (kind : Landing → Bool) (f : Flight) : Prop where
  on : s.arrOn a = true
  free : s.extStop a = false
  timely : (s.arr a).slip = false
  clear : (s.arr a).stalled = [] ∧ (s.arr a).frozenOn = []
  first : firstDue (fun g => kind g.op) (s.arr a).flight = some f
  front : f.op.late = true → ∀ g ∈ (s.arr a).flight, g.left = 0 → g.op.late = true → f.rank ≤ g.rank

/-- Array `a` of `s` without flight `f`, which a vendor helper in progress may find on what it uses (R263). -/
def landing (s : State) (a : Nat) (f : Flight) : ArrayState :=
  ({ s.arr a with flight := removeFirst (fun g => decide (g = f)) (s.arr a).flight } : ArrayState).noteHelper f

/-- Array `t` is `B`, but that in audit mode what a landing starts notes where the operation that landed comes from (R43). -/
def ArrayIs (t B : ArrayState) : Prop :=
  (B.modes.audit = false → t = B) ∧ t = { B with flight := t.flight } ∧ t.flight.map unmarked = B.flight.map unmarked

/-- `i` completes on `s` with nothing changed but array `a`, which becomes `B`. -/
def Becomes (i : Instr) (s : State) (a : Nat) (B : ArrayState) : Prop :=
  ∃ t, exec i s = .next t ∧ ArrayIs (t.arr a) B ∧ (∀ b, b ≠ a → t.arr b = s.arr b) ∧
    ({ t with arrs := [] } : State) = { s with arrs := [] }

/-- What a write of the vector or scalar slot does to its array when it lands (Tables 10.8, 10.9; R239, R245). -/
def written (op : Landing) (A : ArrayState) : ArrayState :=
  let regs := fun (r : ProgRegs) => { A with regs := r }
  let ptr := fun (n : Nat) (q : Pointer) => regs { A.regs with pt := Tbl.set {} A.regs.pt n q }
  match op with
  | .sreg r v => if r = 0 then A else regs { A.regs with s := Tbl.set 0 A.regs.s r v }
  | .vreg r l => regs { A.regs with v := Tbl.setMany 0 A.regs.v (32 * r) l }
  | .rsumW l => regs { A.regs with rsum := Tbl.setMany 0 A.regs.rsum 0 l }
  | .ptset n v => ptr n { A.ptr n with value := v, base := v }
  | .ptcfg n inc l w => ptr n { A.ptr n with inc := inc, level := l, rewind := w }
  | .counter n v =>
    let r := { A.regs with ct := Tbl.set 0 A.regs.ct n v }
    { A with
      regs := r
      flight := A.flight ++ ((List.range 4).filter (fun c => (r.comparator c).ct == n || ((r.comparator c).osrc && (r.comparator c).imm == n))).map
        fun c => { left := 1, rank := 0, op := .cmpEval c (r.evalCmp (r.comparator c)), age := 1 } }
  | .cmpCfg n c => regs { A.regs with cmp := Tbl.set {} A.regs.cmp n c }
  | .cmpEval n b => regs { A.regs with cmp := Tbl.set {} A.regs.cmp n { A.regs.comparator n with result := b } }
  | .desc n ws => regs { A.regs with desc := Tbl.setMany 0 A.regs.desc (4 * n) ws }
  | .guard l => regs { A.regs with guard := l.foldl (fun t i => Tbl.set false t i true) A.regs.guard }
  | .astg mu gd ks sm rst =>
    regs { A.regs with amu := mu, agrd := gd, aks := Tbl.setMany 0 A.regs.aks 0 ks, amsk := sm, acol := if rst then 0 else A.regs.acol }
  | .epoch => { A with banks := { A.banks with active := !A.banks.active, epochs := (A.banks.epochs + 1) % 65536 } }
  | _ => A

/-- The columns an MMA shape covers that array `a` does not bypass (R92, R98). -/
def inShape (f : MmaFields) (narrow : Bool) (r j : Nat) : Prop :=
  r < 32 ∧ j < 32 ∧ (f.m16 = true → (16 ≤ r ↔ f.mhi = true)) ∧ (f.n16 = true → (16 ≤ j ↔ f.nhi = true)) ∧ (narrow = true → j < 30)

/-- Everything but the accumulators is the same. -/
def SameButAcc (A B : ArrayState) : Prop := { B with acc := {} } = { A with acc := {} }
/-- Everything but the matrix-vector path is the same. -/
def SameButMv (A B : ArrayState) : Prop := { B with mv := {} } = { A with mv := {} }
end Sys2Proof.Claims

section
open Sys2Proof Sys2Proof.Machine Sys2Proof.Claims
/-- OPERATION_LANDS lands the next due write of the vector or scalar slot: the named register takes its value and nothing else
changes, S0 ignores writes, a landed counter sends the comparators that read it their new result, and a VST's or a special
function's bytes are in the array store (R27, R239, R245, R246, R247). FEEDER_DELIVER presents the slice to its side, and
EVAL_RESULT adds the converted results to RSUM with SUM set and writes them to their vector register, if they have one, or makes an
add to RSUM that waited for those issued before it; nothing else changes (R137, R242, R244). -/
def Obligations.OrdinaryResultsLand : Prop :=
  (∀ (s : State) (a : Arr) (f : Flight), Unarmed s → Landable s a.toNat Landing.slotWrite f →
      let A := landing s a.toNat f
      ((∀ cells, f.op ≠ .bytes cells) → Becomes (.operationLands a) s a.toNat (written f.op A)) ∧
      (∀ cells, f.op = .bytes cells → Becomes (.operationLands a) s a.toNat (cells.foldl (fun B c => B.save c.1 c.2)
          { A with seq := { A.seq with touched := A.seq.touched ++ (cells.flatMap fun c => unitsOf (c.1 % 2 ^ 20) c.2.length).eraseDups } }))) ∧
  (∀ (s : State) (a : Arr) (f : Flight), Unarmed s →
      let A := landing s a.toNat f
      (∀ b sl, f.op = .feeder b sl → Landable s a.toNat (fun x => match x with | .feeder _ _ => true | _ => false) f →
        Becomes (.feederDeliver a) s a.toNat
          { A with regs := if b then { A.regs with presB := sl } else { A.regs with presA := sl } }) ∧
      (∀ vals, f.op = .rsumAdd vals → Landable s a.toNat (fun x => match x with | .eval _ _ _ | .rsumAdd _ => true | _ => false) f →
        Becomes (.evalResult a) s a.toNat
          { A with regs := { A.regs with rsum := Tbl.setMany 0 A.regs.rsum 0 ((List.range 32).map fun i => fadd (A.rsum i) (vals.getD i 0)) } }) ∧
      (∀ vals sum reg, f.op = .eval vals sum reg → Landable s a.toNat (fun x => match x with | .eval _ _ _ | .rsumAdd _ => true | _ => false) f →
        Becomes (.evalResult a) s a.toNat
          { A with regs := { A.regs with
              rsum := if sum then Tbl.setMany 0 A.regs.rsum 0 ((List.range 32).map fun i => fadd (A.rsum i) (vals.getD i 0)) else A.regs.rsum
              v := match reg with | some r => Tbl.setMany 0 A.regs.v (32 * r) vals | none => A.regs.v } }))
end

section
open Sys2Proof Sys2Proof.Machine Sys2Proof.Claims
/-- MMA_LAND makes every element of its shape what R61 says: the exact sum of the element and its k products, rounded once; canonical NaN
where the element or an operand is NaN, a product is zero times infinity, or infinities of both signs meet; and that infinity where one
occurs otherwise. It leaves every other element as it was and adds a(ρ)·w and |a(ρ)|·w′ to the tally of the rows of its shape (R61, R92,
R93, R98); while a group load of the group is in flight the update is discarded (R87). -/
def Obligations.ProductLandsWithOneRounding : Prop :=
  ∀ (s : State) (a : Arr) (f : Flight) (x y : Slice) (m : MmaFields), f.op = .mma x y m → Unarmed s →
    Landable s a.toNat (fun x => match x with | .mma _ _ _ => true | _ => false) f →
    let A := landing s a.toNat f
    let g := m.grp.toNat
    let nar := s.narrow a.toNat
    let ks := List.range (kOf x.code)
    let cols := (List.range 32).filter fun j => (!m.n16 || (decide (16 ≤ j) == m.nhi)) && (!nar || decide (j < 30))
    (A.loading g = true → Becomes (.mmaLand a) s a.toNat A) ∧
    (A.loading g = false → ∃ B, Becomes (.mmaLand a) s a.toNat B ∧ SameButAcc A B ∧
      (∀ r j, inShape m nar r j →
        let c := val32 (A.acc.elem g r j)
        let ps := ks.map fun i => (x.val r i).mul (y.val j i)
        B.acc.elem g r j = rne32 (exactSum (c :: ps)) ∧
        (c = .nan ∨ (∃ i ∈ ks, x.val r i = .nan ∨ y.val j i = .nan) → B.acc.elem g r j = 0x7FC00000) ∧
        (∀ i ∈ ks, ∀ n z e, x.val r i = .inf n ∧ y.val j i = .fin z 0 e ∨ x.val r i = .fin z 0 e ∧ y.val j i = .inf n →
          B.acc.elem g r j = 0x7FC00000) ∧
        (Val.inf true ∈ c :: ps → Val.inf false ∈ c :: ps → B.acc.elem g r j = 0x7FC00000) ∧
        (∀ n, Val.inf n ∈ c :: ps → Val.inf (!n) ∉ c :: ps → Val.nan ∉ c :: ps →
          B.acc.elem g r j = if n then 0xFF800000 else 0x7F800000)) ∧
      (∀ h r j, h < 9 → r < 32 → j < 32 → ¬ (h = g ∧ inShape m nar r j) → B.acc.elem h r j = A.acc.elem h r j) ∧
      (∀ r, r < 32 → (m.m16 = true → (16 ≤ r ↔ m.mhi = true)) →
        B.acc.tallyT g r = rne32 (exactSum (val32 (A.acc.tallyT g r) ::
          ks.map fun i => (x.val r i).mul (val32 (rne32 (exactSum (cols.map fun j => y.val j i)))))) ∧
        B.acc.tallyG g r = rne32 (exactSum (val32 (A.acc.tallyG g r) ::
          ks.map fun i => (x.val r i).abs.mul (val32 (rne32 (exactSum (cols.map fun j => (y.val j i).abs))))))) ∧
      B.acc.hi = A.acc.hi ∧ B.acc.lo = A.acc.lo ∧ B.acc.drain = A.acc.drain)
end

section
open Sys2Proof Sys2Proof.Machine Sys2Proof.Claims
/-- SWAP_LAND exchanges the elements and tally values of the group and the shadow bank and starts the drain of the run with its
destination (R82, R83); ROWSCALE_LAND multiplies each element and tally value of row r of the group by f(r), and each row of the
bound ledger that holds an element other than (−0, −0), with one rounding each (R63, R70, R88, R93); a run of the group that is
still draining keeps the factors, by which its rows not yet promoted are multiplied (R70). That the ledger bound to group g is
ledger g in every program is the model's choice (log 49). -/
def Obligations.SwapAndRowScaleLand : Prop :=
  ∀ (s : State) (a : Arr) (f : Flight),
    let A := landing s a.toNat f
    (∀ g dest tile, f.op = .swap g dest tile → g < 8 → Landable s a.toNat (fun x => match x with | .swap _ _ _ => true | _ => false) f →
      ∃ x, Becomes (.swapLand a) s a.toNat
          { A with acc := x, flight := A.flight ++ [{ left := 0, rank := 7, op := .drain 0, age := 1 }] } ∧
        (∀ r j, r < 32 → j < 32 → x.elem 8 r j = A.acc.elem g r j ∧ x.elem g r j = A.acc.elem 8 r j) ∧
        (∀ r, r < 32 → x.tallyT 8 r = A.acc.tallyT g r ∧ x.tallyG 8 r = A.acc.tallyG g r ∧
          x.tallyT g r = A.acc.tallyT 8 r ∧ x.tallyG g r = A.acc.tallyG 8 r) ∧
        (∀ h r j, h < 8 → h ≠ g → r < 32 → j < 32 → x.elem h r j = A.acc.elem h r j) ∧ x.hi = A.acc.hi ∧ x.lo = A.acc.lo ∧
        x.drain = some { grp := g, dest := dest, tile := tile, info := A.acc.info g }) ∧
    (∀ g fs, f.op = .rowscale g fs → g < 8 → Unarmed s → Landable s a.toNat (fun x => match x with | .rowscale _ _ => true | _ => false) f →
      (A.loading g = true → Becomes (.rowscaleLand a) s a.toNat A) ∧
      (A.loading g = false → ∃ B, Becomes (.rowscaleLand a) s a.toNat B ∧ SameButAcc A B ∧
        ∀ r, r < 32 →
          (∀ j, j < 32 → B.acc.elem g r j = fmul (A.acc.elem g r j) (fs.getD r 0) ∧
            (∀ h, h < 9 → h ≠ g → B.acc.elem h r j = A.acc.elem h r j) ∧
            (∀ l, l < 8 → B.acc.hiAt l r j = (if l = g ∧ A.acc.ledgerOpen g r = true then fmul (A.acc.hiAt l r j) (fs.getD r 0) else A.acc.hiAt l r j) ∧
              B.acc.loAt l r j = (if l = g ∧ A.acc.ledgerOpen g r = true then fmul (A.acc.loAt l r j) (fs.getD r 0) else A.acc.loAt l r j))) ∧
          B.acc.tallyT g r = fmul (A.acc.tallyT g r) (fs.getD r 0) ∧ B.acc.tallyG g r = fmul (A.acc.tallyG g r) (fabs32 (fs.getD r 0)) ∧
          B.acc.drain = A.acc.drain.map fun d =>
            if d.grp = g then { d with scale := d.scale ++ (List.range 32).map fun q => (q, fs.getD q 0) } else d))
end

namespace Sys2Proof.Claims
open Sys2Proof.Machine

/-- The tally decision of R94 on a sum, a tally value and a gauge, with TALLY_K of array `A` and the count `n` of landings and values. -/
def judged (A : ArrayState) (n : Nat) (total tally gauge : Word) : Tally :=
  let bound := fmax (fmul (fmul (fmul (natToFp32 (A.modes.tallyK + 1)) (natToFp32 n)) 0x33800000#32) gauge) (rne32 (.fin false n (-149)))
  if A.modes.tallyEn = false ∨ isFinite32 gauge = false then .unchecked
  else if isFinite32 total = true ∧ isFinite32 tally = true ∧ fle (fabs32 (fsub total tally)) bound = true then .pass
  else .mismatch

/-- Array `B` once a decision on row `row` of `id`, a group or (with `mv`) a query, is made: the outcome is counted, and a mismatch is
kept in MISS_INFO while none is, and fails class 1 where an attempt runs (`live`); of two failures of a beat the lower class stays
(R94, R96, R106, R367). -/
def judgedOn (live : Bool) (verdict : Tally) (id row : Nat) (mv : Bool) (delta : Word) (B : ArrayState) : ArrayState :=
  let more := fun (n : Nat) => min (n + 1) 0xFFFFFFFF
  let detail := id + 2 ^ 5 * row + (if mv then 2 ^ 10 else 0) + 2 ^ 11 + 2 ^ 32 * delta.toNat
  match verdict with
  | .unchecked => { B with ctr := { B.ctr with tallySkip := more B.ctr.tallySkip } }
  | .pass => { B with ctr := { B.ctr with tallyRuns := more B.ctr.tallyRuns } }
  | .mismatch =>
    let c := { B.ctr with tallyRuns := more B.ctr.tallyRuns, tallyMiss := more B.ctr.tallyMiss }
    { B with
      ctr := if B.ctr.missValid = true then c
        else { c with missId := id, missRow := row, missSource := mv, missValid := true, missDelta := delta }
      fail := if live = true then some (match B.fail with
          | some x => if 1 < x.1 then (1, detail) else x
          | none => (1, detail))
        else B.fail }

/-- The tally values of query `q` step by sums of products `dt` and of magnitudes `dg`, each sum exact and rounded once; the other
queries' stay (R106). -/
structure TallyAdds (m n : MatVec) (q : Nat) (dt dg : List Val) : Prop where
  t : Tbl.get 0 n.t q = rne32 (exactSum (val32 (Tbl.get 0 m.t q) :: dt))
  g : Tbl.get 0 n.g q = rne32 (exactSum (val32 (Tbl.get 0 m.g q) :: dg))
  issues : Tbl.get 0 n.issues q = Tbl.get 0 m.issues q + 1
  others : ∀ r, r ≠ q → Tbl.get 0 n.t r = Tbl.get 0 m.t r ∧ Tbl.get 0 n.g r = Tbl.get 0 m.g r ∧ Tbl.get 0 n.issues r = Tbl.get 0 m.issues r
end Sys2Proof.Claims

section
open Sys2Proof Sys2Proof.Machine Sys2Proof.Claims
/-- A DOT that lands adds to entry E0 + QRY of every lane the exact sum of its eight products, rounded once; an AXPY adds to each of
the eight entries of its query one product, rounded once; no other entry changes. Each adds to its query's t and g the products of
the query or the factors with the sums of the slot's elements and of their magnitudes, each sum exact and rounded once. Closing a
query's accumulation decides the tally by the tree sum of its entries, with 32 values for DOT and 256 for AXPY, counts the outcome,
raises CHECK_FAIL at a mismatch, sets the tally lane to +0 and forgets the entries; on a frozen array it does nothing (R33, R61, R74,
R94, R96, R105, R106). That a close leaves the accumulator file's entries in place, and the order of the tree's leaves, are the
model's choices (log 49). -/
def Obligations.MatrixVectorResultLands : Prop :=
  (∀ (s : State) (a : Arr) (f : Flight),
    let A := landing s a.toNat f
    let isMv := fun (x : Landing) => match x with | .dotAdd _ _ _ => true | .axpyAdd _ _ _ => true | _ => false
    let code := fun (x : List (List Nat)) (i e : Nat) => bf16.decode ((x.getD i []).getD e 0)
    let once := fun (l : List Val) => val32 (rne32 (exactSum l))
    Unarmed s → Landable s a.toNat isMv f →
    (∀ g x qs, f.op = .dotAdd g x qs → qs.length = 8 → x.length = 32 → (∀ l ∈ x, l.length = 8) →
      let query := fun (e : Nat) => (if Config.queryFp16 A.mv.queryGen then fp16 else bf16).decode (qs.getD e 0)
      ∃ B, Becomes (.mvLand a none) s a.toNat B ∧ SameButMv A B ∧
        (∀ n i, n < 128 → i < 32 → B.mv.entry n i =
          if n = g.e0.toNat + g.qry.toNat then rne32 (exactSum (val32 (A.mv.entry n i) ::
            (List.range 8).map fun e => (code x i e).mul (query e)))
          else A.mv.entry n i) ∧
        TallyAdds A.mv B.mv g.qry.toNat
          ((List.range 8).map fun e => (query e).mul (once ((List.range 32).map fun i => code x i e)))
          ((List.range 8).map fun e => (query e).abs.mul (once ((List.range 32).map fun i => (code x i e).abs)))) ∧
    (∀ g x p, f.op = .axpyAdd g x p → p.length = 32 → x.length = 32 → (∀ l ∈ x, l.length = 8) →
      ∃ B, Becomes (.mvLand a none) s a.toNat B ∧ SameButMv A B ∧ g.qry.toNat ∈ B.mv.axpy ∧
        (∀ n i, n < 128 → i < 32 → B.mv.entry n i =
          if n / 8 = g.qry.toNat then rne32 (exactSum [val32 (A.mv.entry n i), (val32 (p.getD i 0)).mul (code x i (n % 8))])
          else A.mv.entry n i) ∧
        TallyAdds A.mv B.mv g.qry.toNat
          ((List.range 32).map fun i => (val32 (p.getD i 0)).mul (once ((List.range 8).map fun e => code x i e)))
          ((List.range 32).map fun i => (val32 (p.getD i 0)).abs.mul (once ((List.range 8).map fun e => (code x i e).abs))))) ∧
  (∀ (s : State) (a : Arr) (qry : BitVec 4) (t : State), exec (.mvLand a none) s = .next t → Unarmed t →
    let A := t.arr a.toNat
    let m := A.mv
    let q := qry.toNat
    let touched := Tbl.get [] m.entries q
    let leaves := (List.range 32).flatMap fun i => touched.map fun n => m.entry n i
    let total := m.rowSum q
    let tally := Tbl.get 0 m.t q
    let verdict := judged A (Tbl.get 0 m.issues q + if q ∈ m.axpy then 256 else 32) total tally (Tbl.get 0 m.g q)
    (t.arrOn a.toNat = false ∨ t.frozenBy a.toNat = true → exec (.mvLand a (some qry)) s = .next t) ∧
    (t.arrOn a.toNat = true → t.frozenBy a.toNat = false →
      (touched.length = 1 → total = laneSum leaves) ∧ (touched.length = 8 → total = treeSum 8 leaves) ∧
      ∃ u, exec (.mvLand a (some qry)) s = .next u ∧ (∀ b, b ≠ a.toNat → u.arr b = t.arr b) ∧ Elsewhere t u ∧
        (verdict = .mismatch → Raised u (pgCOND (groupOf a.toNat)) 0) ∧
        (verdict ≠ .mismatch → ({ u with arrs := [] } : State) = { t with arrs := [] }) ∧
        ({ u.arr a.toNat with mv := {} } : ArrayState) =
          { judgedOn (t.attempting a.toNat) verdict q 0 true (fsub total tally) A with mv := {} } ∧
        Tbl.get 0 (u.arr a.toNat).mv.t q = 0 ∧ Tbl.get 0 (u.arr a.toNat).mv.g q = 0 ∧
        Tbl.get 0 (u.arr a.toNat).mv.issues q = 0 ∧ q ∉ (u.arr a.toNat).mv.axpy ∧ Tbl.get [] (u.arr a.toNat).mv.entries q = [] ∧
        (u.arr a.toNat).mv.acc = m.acc))
end

section
open Sys2Proof Sys2Proof.Machine Sys2Proof.Claims
/-- GLOAD_COMPLETE replaces every element of the group, positions 30 and 31 of a narrowed array excepted, by the tile's word that the
load has read, and sets each row's tally to the tree sums of the loaded row and of its magnitudes (R86, R95, R99). -/
def Obligations.GroupLoadReplacesGroup : Prop :=
  ∀ (s : State) (a : Arr) (f : Flight) (g addr : Nat) (got : List Word), f.op = .loadRow g addr 15 got → g < 8 → got.length = 960 →
    Unarmed s → Landable s a.toNat (fun x => match x with | .loadRow _ _ 15 _ => true | _ => false) f →
    let A := landing s a.toNat f
    let nar := s.narrow a.toNat
    let tile := got ++ (List.range 64).map fun i => A.loadW ((addr + 3840 + 4 * i) % 2 ^ 20)
    let live := fun (r : Nat) => (List.range 32).map fun j => if nar = true ∧ 30 ≤ j then 0 else tile.getD (32 * r + j) 0
    ∃ x, Becomes (.gloadComplete a) s a.toNat
        { A with seq := { A.seq with touched := A.seq.touched ++ unitsOf ((addr + 3840) % 2 ^ 20) 256 }, acc := x } ∧
      ∀ r, r < 32 →
        (∀ j, j < 32 → x.elem g r j = (if nar = true ∧ 30 ≤ j then A.acc.elem g r j else tile.getD (32 * r + j) 0) ∧
          ∀ h, h < 9 → h ≠ g → x.elem h r j = A.acc.elem h r j) ∧
        x.tallyT g r = laneSum (live r) ∧ x.tallyG g r = laneSum ((live r).map fabs32)
end

namespace Sys2Proof.Claims
open Sys2Proof.Machine

/-- Row `p` of the shadow bank as the drain takes it: +0 in positions 30 and 31 of a narrowed array (R94, R99). -/
def drained (A : ArrayState) (narrow : Bool) (p : Nat) : List Word :=
  (List.range 32).map fun j => if narrow = true ∧ 30 ≤ j then 0 else A.acc.elem 8 p j

/-- The tally decision on row `p` of run `d` (R94): the row's tree sum against its tally value, with the count of landings, row-scales
and columns. -/
def verdict (A : ArrayState) (narrow : Bool) (d : Drain) (p : Nat) : Tally :=
  judged A (d.info.landings + d.info.scales + (if d.info.loaded then 32 else 0) + (if narrow then 30 else 32))
    (laneSum (drained A narrow p)) (A.acc.tallyT 8 p) (A.acc.tallyG 8 p)

/-- Array `B` once row `p` of run `d`, which stands in `A`, is decided, unless DISCARD drops it (R94, R96). -/
def decided (A : ArrayState) (narrow live : Bool) (d : Drain) (p : Nat) (B : ArrayState) : ArrayState :=
  if d.dest = .discard then B
  else judgedOn live (verdict A narrow d p) d.grp p false (fsub (laneSum (drained A narrow p)) (A.acc.tallyT 8 p)) B

/-- A ledger element (hi, lo) that takes a run value (R67). -/
def takes (x : Word × Word) (r : Word) : Word × Word :=
  let s := fadd x.1 r
  let b := fsub s x.1
  if isFinite32 x.1 = true ∧ isFinite32 r = true ∧ isFinite32 s = true then
    (s, fadd x.2 (fadd (fsub x.1 (fsub s b)) (fsub r b)))
  else (s, 0)

/-- The same of an element of ledger `n` for a selection of ledgers, with its sign (R66, Table 4.2). -/
def takesBy (sel : LedgerSel) (n : Nat) (x : Word × Word) (r : Word) : Word × Word :=
  if sel.en = true ∧ sel.ledger.toNat = n then takes x (if sel.neg = true then fneg32 r else r) else x
end Sys2Proof.Claims

section
open Sys2Proof Sys2Proof.Machine Sys2Proof.Claims
/-- DRAIN_ROW takes rows 2r and 2r + 1 of the shadow bank. Each is decided by its tally unless the run is dropped by DISCARD, a
mismatch raising CHECK_FAIL; a LEDGER run promotes its elements, times the factors of row-scales that landed on it, into the
ledgers it names with their signs; a STORE run sends each row to its tile, to land two beats later; an OUT run adds both rows to
its engine's outbound buffer, or waits while they do not fit; both rows and their tally values become +0; the next row follows a
beat later, and after row 15 the drain is finished (R32, R66, R67, R70, R83, R94, R96, R99, Table 4.2). In positions 30 and 31 of a
narrowed array a ledger takes a zero with the selection's sign: the model's choice (log 13). -/
def Obligations.DrainClearsRow : Prop :=
  ∀ (s : State) (a : Arr) (f : Flight) (r : Nat) (d : Drain), f.op = .drain r → r < 16 →
    (s.arr a.toNat).acc.drain = some d → Unarmed s → Landable s a.toNat (fun x => match x with | .drain _ => true | _ => false) f →
    let A := landing s a.toNat f
    let nar := s.narrow a.toNat
    let live := s.attempting a.toNat
    let row := drained A nar
    let bytes := fun (p : Nat) => (row p).flatMap fun w => leBytes 4 w.toNat
    let wait := match d.dest with
      | .out e => if 8192 < s.outboundUse a.toNat e.toNat + 256 then some (Stalled.drainOut e.toNat r) else none
      | _ => none
    let stores : List Flight := match d.dest with
      | .store _ => [2 * r, 2 * r + 1].map fun p =>
          { left := 2, rank := 3, op := .bytes [((d.tile + 128 * p) % 2 ^ 20, bytes p)], age := 1 }
      | _ => []
    let next : List Flight := if r < 15 then [{ left := 1, rank := 7, op := .drain (r + 1), age := 1 }] else []
    let missed := d.dest ≠ .discard ∧ (verdict A nar d (2 * r) = .mismatch ∨ verdict A nar d (2 * r + 1) = .mismatch)
    (∀ w, wait = some w → Becomes (.drainRow a) s a.toNat { A with stalled := [w] }) ∧
    (wait = none → ∃ u x, exec (.drainRow a) s = .next u ∧ (∀ b, b ≠ a.toNat → u.arr b = s.arr b) ∧ Elsewhere s u ∧
      (¬ missed → ({ u with arrs := [] } : State) = { s with arrs := [] }) ∧
      (missed → Raised u (pgCOND (groupOf a.toNat)) 0) ∧
      ArrayIs { u.arr a.toNat with engines := [] }
        { decided A nar live d (2 * r + 1) (decided A nar live d (2 * r) A) with
          acc := x, flight := A.flight ++ stores ++ next, engines := [] } ∧
      (∀ e, e < 4 → (u.arr a.toNat).eng e = (match d.dest with
        | .out o => if o.toNat = e then { A.eng e with outbound := (A.eng e).outbound ++ bytes (2 * r) ++ bytes (2 * r + 1) } else A.eng e
        | _ => A.eng e)) ∧
      (∀ h p, h < 9 → p < 32 →
        (∀ j, j < 32 → x.elem h p j = if h = 8 ∧ p / 2 = r then 0 else A.acc.elem h p j) ∧
        x.tallyT h p = (if h = 8 ∧ p / 2 = r then 0 else A.acc.tallyT h p) ∧
        x.tallyG h p = (if h = 8 ∧ p / 2 = r then 0 else A.acc.tallyG h p)) ∧
      x.drain = (if r < 15 then some d else none) ∧
      (∀ n p j, n < 8 → p < 32 → j < 32 → (x.hiAt n p j, x.loAt n p j) = (match d.dest with
        | .ledger l1 l2 => if p / 2 = r then
            let v := if nar = true ∧ 30 ≤ j then 0 else
              (d.scale.filter fun e => e.1 == p).foldl (fun v e => fmul v e.2) ((row p).getD j 0)
            takesBy l2 n (takesBy l1 n (A.acc.hiAt n p j, A.acc.loAt n p j) v) v
          else (A.acc.hiAt n p j, A.acc.loAt n p j)
        | _ => (A.acc.hiAt n p j, A.acc.loAt n p j))))
end

namespace Sys2Proof.Claims
open Sys2Proof.Machine

/-- Nothing keeps array `a` from completing the present beat, and nothing is left to do in it: its group is ON, it runs, no cause
freezes it from outside, its bundle has issued, no landing is due and no engine has a step or a post to make. -/
structure Flowing (s : State) (a : Nat) : Prop where
  on : s.arrOn a = true
  running : (s.arr a).seq.state = .running
  whole : (s.arr a).abandon = none ∧ (s.arr a).fail = none ∧ (s.arr a).slip = false ∧ (s.arr a).seq.held = false
  free : s.extStop a = false
  fetched : (s.arr a).seq.issued.contains 8 = true
  native : (s.arr a).seq.helper = none
  quiet : ∀ f ∈ (s.arr a).flight, f.left ≠ 0
  engines : ∀ e, e < 4 → (s.engine a e).steps = 0 ∧ (s.engine a e).posts = []

/-- The pointers of one level have stepped by their increments, and no other program register has changed (R250). -/
def PointersStep (A B : ArrayState) (level : Nat) : Prop :=
  (∀ n, n < 16 → B.ptr n = if (A.ptr n).level = level then
      { A.ptr n with value := ((((A.ptr n).value : Int) + (A.ptr n).inc.toInt) % 2 ^ 28).toNat } else A.ptr n) ∧
    ({ B.regs with pt := [] } : ProgRegs) = { A.regs with pt := [] }

/-- No open REPEAT body of a list ends before word `pc`. -/
def NoneEnds (l : List Rep) (pc : Nat) : Prop := ∀ r, l.getLast? = some r → pc ≠ r.start + r.body

/-- The sequencer of `B` stands where that of `A` goes from its bundle: to the next word, stepping the pointers of a REPEAT body that
ends there and back to its start while iterations are left; into a body that a REPEAT opens, the pointers of its level with REWIND at
their base; behind a body it skips; into the routine it calls; behind the CALL it returns from; or nowhere (R236, R249, R250, R251,
R252). -/
structure Steers (A B : ArrayState) : Prop where
  plain : A.seq.flow = .next → NoneEnds A.seq.reps (A.seq.pc + 1) →
    B.seq.pc = A.seq.pc + 1 ∧ B.seq.reps = A.seq.reps ∧ B.regs = A.regs
  again : ∀ l r, A.seq.flow = .next → A.seq.reps = l ++ [r] → A.seq.pc + 1 = r.start + r.body → 1 < r.iters →
    PointersStep A B r.level ∧ B.seq.pc = r.start ∧ B.seq.reps = l ++ [{ r with iters := r.iters - 1 }]
  last : ∀ l r, A.seq.flow = .next → A.seq.reps = l ++ [r] → A.seq.pc + 1 = r.start + r.body → r.iters ≤ 1 →
    NoneEnds l (A.seq.pc + 1) → PointersStep A B r.level ∧ B.seq.pc = A.seq.pc + 1 ∧ B.seq.reps = l
  opens : ∀ body n, A.seq.flow = .open_ body n →
    let level := A.seq.reps.length + 1
    B.seq.pc = A.seq.pc + 1 ∧ B.seq.reps = A.seq.reps ++ [{ start := A.seq.pc + 1, body := body, iters := n, level := level }] ∧
      (∀ k, k < 16 → B.ptr k = if (A.ptr k).level = level ∧ (A.ptr k).rewind = true then { A.ptr k with value := (A.ptr k).base } else A.ptr k) ∧
      ({ B.regs with pt := [] } : ProgRegs) = { A.regs with pt := [] }
  skips : ∀ body, A.seq.flow = .skip body → NoneEnds A.seq.reps (A.seq.pc + 1 + body) →
    B.seq.pc = A.seq.pc + 1 + body ∧ B.seq.reps = A.seq.reps ∧ B.regs = A.regs
  calls : ∀ r v, A.seq.flow = .call r v → B.seq.routine = r ∧ B.seq.version = v ∧ B.seq.pc = 0 ∧ B.seq.reps = [] ∧ B.regs = A.regs ∧
    B.seq.helper = (if r < 256 then some (r, 0) else none) ∧ B.seq.calls = A.seq.calls ++
      [{ routine := A.seq.routine, pc := A.seq.pc + 1, byCall := A.seq.byCall, version := A.seq.version, reps := A.seq.reps }]
  returns : ∀ l f, A.seq.flow = .ret → A.seq.calls = l ++ [f] → NoneEnds f.reps f.pc → B.seq.routine = f.routine ∧
    B.seq.version = f.version ∧ B.seq.pc = f.pc ∧ B.seq.reps = f.reps ∧ B.seq.calls = l ∧ B.regs = A.regs
  ends : A.seq.flow = .stop ∨ (A.seq.flow = .ret ∧ A.seq.calls = []) → B.seq.state = .ending ∧ B.regs = A.regs

/-- The beat of array `a` has completed: every operation in flight has advanced one stage, the beat counts and the schedule position
steps on, the stores and accumulators stand as they were, no other array has changed, and the sequencer stands where its bundle takes
it, or has one beat less to wait; of a vendor routine, whose words are Brillar's, the place is free (log 2). -/
structure BeatDone (s : State) (a : Nat) (t : State) : Prop where
  flights : (t.arr a).flight = (s.arr a).flight.map fun (f : Flight) => { f with left := f.left - 1, age := f.age + 1 }
  counted : (t.arr a).ctr.beats = ((s.arr a).ctr.beats + 1) % 2 ^ 64 ∧ (t.arr a).seq.pos = (s.arr a).seq.pos + 1
  thawed : (t.arr a).stalled = [] ∧ (t.arr a).frozenOn = [] ∧ (t.arr a).frzLen = 0
  data : (t.arr a).store = (s.arr a).store ∧ (t.arr a).mv = (s.arr a).mv ∧ (t.arr a).banks = (s.arr a).banks ∧
    (t.arr a).acc = { (s.arr a).acc with swapBusy := (s.arr a).acc.swapBusy - 1 }
  onward : (s.arr a).seq.waitLeft ≤ 1 → 256 ≤ (s.arr a).seq.routine → Steers (s.arr a) (t.arr a) ∧ (t.arr a).seq.issued = []
  waits : 1 < (s.arr a).seq.waitLeft → 256 ≤ (s.arr a).seq.routine → (t.arr a).seq.pc = (s.arr a).seq.pc ∧
    (t.arr a).seq.waitLeft = (s.arr a).seq.waitLeft - 1 ∧ (t.arr a).regs = (s.arr a).regs
  vendor : (s.arr a).seq.routine < 256 →
    (t.arr a).seq.pc = Config.romPc (s.arr a).seq.routine (s.arr a).seq.pos % 2 ^ 19 ∧ (t.arr a).regs = (s.arr a).regs
  others : ∀ b, b ≠ a → t.arr b = s.arr b
  memories : t.shared = s.shared ∧ t.mem = s.mem ∧ t.regs = s.regs

/-- PACE_SLIP is raised for array `a`, and while the fault record of the tenancy has room the slip is recorded in it with class 9 and the
action of a freeze (R42, R368). -/
def SlipNoted (s t : State) (a : Nat) : Prop :=
  Raised t (pgTIME (groupOf a)) 1 ∧ ∀ rid k, (s.arr a).task = some rid → s.task rid = some k → (s.faultPart k.ten).recs.length < 16 →
    ∃ r, (t.faultPart k.ten).recs = (s.faultPart k.ten).recs ++ [r] ∧ r.cls = 9 ∧ r.action = 3 ∧ r.arr = a ∧ r.receipt = rid ∧
      r.ten = k.ten ∧ r.attempt = k.attempt ∧ r.routine = k.routine
end Sys2Proof.Claims

section
open Sys2Proof Sys2Proof.Machine Sys2Proof.Claims
/-- A pace period of an array that an external cause freezes counts one frozen beat and lengthens the freeze; no operation in flight
advances and nothing of the array's data changes; the period in which the length comes to FRZ_LIMIT raises FREEZE_LONG, once a freeze. The
row FREEZE_LONG takes the count of such a freeze to FRZ_LIMIT at once and raises it (R31, R32, R33, R46). That it is raised where the
length equals the limit alone (log 49), and that the row moves the count to the limit (log 43), are the model's choices. A beat frozen at a
letterbox wait completes once the letterbox has reached its target, exactly as it would have without the freeze, and not before (R32, R34,
R280). A beat with an operation or a landing that must wait freezes with every cause that it meets and with nothing of its bundle done: no
operation of it is in flight, no byte is stored, no letterbox posted (R32, R33, R34, R46); that an engine's steps before one that waits may
act while nothing else waits is left out (log 16). -/
def Obligations.FreezeStopsAndReleasesBeats : Prop :=
  (∀ (s : State) (a : Arr), s.beating a.toNat = true → s.extStop a.toNat = true →
      let A := s.arr a.toNat
      let lim := s.reg Reg.TIME_FRZ_LIMIT a.toNat
      (∃ t, exec (.beat a) s = .next t ∧ (∀ b, b ≠ a.toNat → t.arr b = s.arr b) ∧ t.arr a.toNat =
        { A with ctr := { A.ctr with frozen := (A.ctr.frozen + 1) % 2 ^ 64 }, frzLen := A.frzLen + 1
                 longRaised := A.longRaised || (decide (lim ≠ 0) && decide (A.frzLen + 1 = lim)) } ∧
        (A.longRaised = false → lim ≠ 0 → A.frzLen + 1 = lim → Raised t (pgTIME (groupOf a.toNat)) 0)) ∧
      (A.longRaised = false → A.frzLen < lim → ∃ t, exec (.freezeLong a) s = .next t ∧ (∀ b, b ≠ a.toNat → t.arr b = s.arr b) ∧
        Raised t (pgTIME (groupOf a.toNat)) 0 ∧ t.arr a.toNat =
        { A with ctr := { A.ctr with frozen := (A.ctr.frozen + (lim - A.frzLen)) % 2 ^ 64 }, frzLen := lim, longRaised := true }) ∧
      exec (.frozenBeatComplete a) s = .next s) ∧
  (∀ (s : State) (a : Arr) (obj target : Nat), Flowing s a.toNat → (s.arr a.toNat).stalled = [.lbWait obj target] →
      (s.arr a.toNat).frzLen ≠ 0 →
      let box := s.reg Reg.TEN_LB_FIRST (s.tenRunning a.toNat) + obj
      (target ≤ (s.lb box).toNat ∨ (s.arr a.toNat).seq.lbMet = true →
        ∃ t, exec (.frozenBeatComplete a) s = .next t ∧ BeatDone s a.toNat t) ∧
      ((s.lb box).toNat < target → (s.arr a.toNat).seq.lbMet = false → exec (.frozenBeatComplete a) s = .next s)) ∧
  (∀ (s : State) (a : Arr) ops beats,
      let L := ((s.retryStalls a.toNat).landEarly a.toNat).helperStart a.toNat
      let A := L.arr a.toNat
      let causes := ((((L.markFetched a.toNat beats).issueParts a.toNat (issueOrder ops)).endBeat a.toNat).arr a.toNat).stalled
      let lim := L.reg Reg.TIME_FRZ_LIMIT a.toNat
      s.beating a.toNat = true → s.extStop a.toNat = false → (s.arr a.toNat).slip = false →
      ((s.retryStalls a.toNat).arr a.toNat).stalled = [] → A.seq.held = false → L.fetch a.toNat = .bundle ops beats → causes ≠ [] →
      ((∀ x ∈ causes, x.engine = none) ∨ ((L.issueParts a.toNat (plainParts ops)).arr a.toNat).stalled ≠ []) →
      ∃ t met arrived, exec (.beat a) s = .next t ∧ t.arr a.toNat =
          { A with
            frozenOn := causes
            seq := { A.seq with lbMet := met, arrived := arrived }
            ctr := { A.ctr with frozen := (A.ctr.frozen + 1) % 2 ^ 64 }
            frzLen := A.frzLen + 1
            longRaised := A.longRaised || (decide (lim ≠ 0) && decide (A.frzLen + 1 = lim)) } ∧
        (A.longRaised = false → lim ≠ 0 → A.frzLen + 1 = lim → Raised t (pgTIME (groupOf a.toNat)) 0) ∧
        (∀ b, b ≠ a.toNat → t.arr b = L.arr b) ∧ t.mem = L.mem ∧ t.shared = L.shared ∧ t.disp.lbx = L.disp.lbx)
end

section
open Sys2Proof Sys2Proof.Machine Sys2Proof.Claims
/-- A BEAT of an array that nothing freezes advances every operation in flight by exactly one stage, counts once and takes the
sequencer where its bundle leads; a BEAT of an array that takes no part in beats changes nothing (R27, R28, R34). The bundle of the
beat is the native word at the sequencer's place, where the instruction queue holds it, with its parts decoded; one of which nothing
has to wait issues all of them in the beat, and the beat completes (R27, R236, R249, R250, R251, R253). A shared-store delivery that
has arrived is released into the store of each of its targets in its release beat; one that has not freezes the array with cause SLIP
until it has, with PACE_SLIP and a record (R19, R40, R42); a native word that is late in its issue beat freezes it in the same way
(R253). -/
def Obligations.BeatsAndDeliveriesAreTimed : Prop :=
  (∀ (s : State) (a : Arr),
      (Flowing s a.toNat → (s.arr a.toNat).stalled = [] → ∃ t, exec (.beat a) s = .next t ∧ BeatDone s a.toNat t) ∧
      (s.beating a.toNat = false → exec (.beat a) s = .next s)) ∧
  (∀ (s : State) (a : Nat) (w : List (BitVec 16)),
      let A := s.arr a
      let head := w.getD 0 0
      A.seq.state = .running → A.abandon = none → A.seq.waitLeft = 0 → A.seq.helper = none → A.seq.issued = [] → A.seq.stall = 0 →
      A.atHalt = false → A.modes.hold = false → s.nativeWord a = some w → (A.seq.routine, A.seq.pc) ∈ A.seq.queue →
      s.fetch a = .bundle
        (if head.getLsbD 12 = true then [] else (wordParts w).map fun x => (x.1, x.2.2, decodePart (BitVec.ofNat 10 a) x.1 x.2.1))
        (if head.getLsbD 12 = true then (w.getD 1 0).toNat + 1 else 1)) ∧
  (∀ (s : State) (a : Arr) ops beats,
      let L := ((s.retryStalls a.toNat).landEarly a.toNat).helperStart a.toNat
      let u := ((L.markFetched a.toNat beats).issueParts a.toNat (issueOrder ops)).endBeat a.toNat
      let U := u.arr a.toNat
      s.beating a.toNat = true → s.extStop a.toNat = false → (s.arr a.toNat).slip = false →
      ((s.retryStalls a.toNat).arr a.toNat).stalled = [] → (L.arr a.toNat).seq.held = false → L.fetch a.toNat = .bundle ops beats →
      U.stalled = [] → U.seq.state = .running → U.seq.helper = none → U.fail = none → U.abandon = none →
      (∀ e, e < 4 → (u.engine a.toNat e).posts = []) → ∃ t, exec (.beat a) s = .next t ∧ BeatDone u a.toNat t) ∧
  (∀ (s : State) (a : Arr) (f : Flight) (targets : List Nat) (addr : Nat) (bs : List Byte), s.arrOn a.toNat = true →
      Unarmed s → f.op = .deliver targets addr bs none → f.left = 0 → targets.Nodup →
      (s.arr a.toNat).flight.filter (fun g => decide (g.left = 0)) = [f] →
      (∃ t, exec (.sharedStoreDelivery a true) s = .next t ∧ ({ t with arrs := [] } : State) = { s with arrs := [] } ∧
        (t.arr a.toNat).flight = removeFirst (fun g => decide (g = f)) (s.arr a.toNat).flight ∧ (t.arr a.toNat).slip = false ∧
        ∀ b, (t.arr b).store = (if b ∈ targets then ((s.arr b).save addr bs).store else (s.arr b).store) ∧
          (t.arr b).regs = (s.arr b).regs ∧ (t.arr b).acc = (s.arr b).acc) ∧
      ((s.arr a.toNat).slip = false → ∃ t, exec (.sharedStoreDelivery a false) s = .next t ∧ SlipNoted s t a.toNat ∧
        t.arr a.toNat = { s.arr a.toNat with slip := true } ∧ (∀ b, b ≠ a.toNat → t.arr b = s.arr b) ∧ t.shared = s.shared ∧ t.mem = s.mem)) ∧
  (∀ (s : State) (a : Arr), s.arrOn a.toNat = true → s.wordDue a.toNat = true → (s.arr a.toNat).deliveryDue = false →
      (s.arr a.toNat).slip = false → ∃ t, exec (.sharedStoreDelivery a false) s = .next t ∧ SlipNoted s t a.toNat ∧
        t.arr a.toNat = { s.arr a.toNat with slip := true, seq := { (s.arr a.toNat).seq with queue := [] } } ∧
        (∀ b, b ≠ a.toNat → t.arr b = s.arr b) ∧ t.shared = s.shared ∧ t.mem = s.mem)
end

namespace Sys2Proof.Claims
open Sys2Proof.Machine

/-- The word of a stream-slot operation on engine `e`. -/
def streamSlot (op : BitVec 6) (p : Pred) (e : BitVec 2) (rest : BitVec 20) : Nat := (rest ++ e ++ op ++ predBits p : BitVec 32).toNat

/-- `u` is `s` but for array `a`: its engine `e` is `y`, its other engines are as they were, and the rest of it is as in `B`. -/
structure EngineBecomes (s : State) (a e : Nat) (B : ArrayState) (y : Engine) (u : State) : Prop where
  engine : (u.arr a).eng e = y
  engines : ∀ k, k ≠ e → (u.arr a).eng k = (s.arr a).eng k
  array : ({ u.arr a with engines := [] } : ArrayState) = { B with engines := [] }
  others : ∀ b, b ≠ a → u.arr b = s.arr b
  rest : ({ u with arrs := [] } : State) = { s with arrs := [] }

/-- Engine `e` of an array stands at MOVE `m` from the shared store to the array store, which its arming's half and credit allow, and is
not halting. -/
def AtSharedMove (A : ArrayState) (e : Nat) (m : Move) : Prop :=
  (A.eng e).started = true ∧ (A.eng e).cur = .move m ∧ m.src = 1 ∧ m.dst = 3 ∧ m.bytes ≤ (A.eng e).credit ∧
    (A.eng e).arm.half = (if (A.eng e).addr m.ssb false % 2 ^ 28 < 0x08000000 then 0 else 1) ∧ (A.eng e).halting = false

/-- Engine `e` of array `a` has a step left that SADV gave it, and nothing stops the array or freezes it but steps of that engine
that wait (R33, R290). -/
structure MayStep (s : State) (a e : Nat) : Prop where
  steps : (s.engine a e).steps ≠ 0
  free : s.extStop a = false
  timely : (s.arr a).slip = false
  clear : (s.arr a).frozenOn = []
  own : ∀ x ∈ (s.arr a).stalled, x.engine = some e

/-- Array `A` with the delivery of that MOVE of engine `e` in flight, carrying bytes `bs` to `targets` after `lat` beats. -/
def delivering (A : ArrayState) (e lat : Nat) (targets : List Nat) (m : Move) (bs : List Byte) : ArrayState :=
  { A with flight := A.flight ++
      [{ left := lat, rank := 0, op := .deliver targets ((A.eng e).addr m.dsb true % 2 ^ 20) bs none, eng := e, no := (A.eng e).txnNo }] }

/-- Beats a shared-store delivery takes: 8 from the half of the array's side, 12 from the other, 14 for a block broadcast
(Table 1.2). -/
def deliveryLatency (a addr deliv : Nat) : Nat :=
  if deliv = 2 then 14 else if (a / 64 < 8 ↔ addr < 0x08000000) then 8 else 12
end Sys2Proof.Claims

section
open Sys2Proof Sys2Proof.Machine Sys2Proof.Claims
/-- SGO starts an engine at ENTRY with its indices zero, its loops closed and its window empty, and keeps its base registers (the
model's choice: log 17); SHALT stops a started engine that has no step left, which then waits for no handle (log 16), and lets one
with steps left finish them; SFREE returns the slot; SADV of a FREE engine has no effect (the model's choice: log 16); a SHALT,
SFREE, SADV or SCOPY of an engine that is not started is skipped as ENGINE_STATE (R248, R288, R290, R291). -/
def Obligations.StreamOperationSteersEngine : Prop :=
  ∀ (s : State) (a : Arr) (p : Pred) (e : BitVec 2) (entry : BitVec 5) (n1 : BitVec 8) (slot dsrc ddst : BitVec 6),
    let L := s.landEarly a.toNat
    let A := L.arr a.toNat
    let x := A.eng e.toNat
    let mine := fun n => Tbl.get 0 A.mv.owner n == e.toNat + 1
    let skipped := fun (op : BitVec 6) rest => L.deadLetter a.toNat dlEngineState 0 (streamSlot op p e rest)
    (Issues s a.toNat p (.sgo a p e entry) → ∃ u, Completes (.sgo a p e entry) s a.toNat 0 u ∧ EngineBecomes L a.toNat e.toNat
      { A with mv := { A.mv with
          filled := A.mv.filled.filter fun n => !mine n, filling := A.mv.filling.filter fun f => !mine f.1 } }
      { x with
        started := true, pc := entry.toNat, steps := 0, halting := false, ix := [0, 0, 0, 0], loops := [], nextSlot := 0
        filled := [], filling := [], sb := if x.sb = [] then x.arm.bases else x.sb } u) ∧
    (x.started = false →
      (Issues s a.toNat p (.shalt a p e) → Completes (.shalt a p e) s a.toNat 0 (skipped 3#6 0)) ∧
      (Issues s a.toNat p (.sfree a p e slot) → Completes (.sfree a p e slot) s a.toNat 0 (skipped 4#6 (0#14 ++ slot))) ∧
      (Issues s a.toNat p (.sadv a p e n1) → Completes (.sadv a p e n1) s a.toNat 0 (skipped 2#6 (0#12 ++ n1))) ∧
      (Issues s a.toNat p (.scopy a p e dsrc ddst) → Completes (.scopy a p e dsrc ddst) s a.toNat 0 (skipped 5#6 (0#8 ++ ddst ++ dsrc)))) ∧
    (x.started = true →
      (Issues s a.toNat p (.shalt a p e) → ∃ u, Completes (.shalt a p e) s a.toNat 0 u ∧
        EngineBecomes (if x.steps = 0 then L.bagLeave fun w => w == bagWho a.toNat e.toNat else L) a.toNat e.toNat A
        (if x.steps = 0 then { x with started := false, steps := 0, loops := [], halting := false } else { x with halting := true }) u) ∧
      (Issues s a.toNat p (.sfree a p e slot) → (∀ k, k < 4 → (A.eng k).steps = 0) →
        ∃ u, Completes (.sfree a p e slot) s a.toNat 0 u ∧
          if slot.toNat < 16 ∧ slot.toNat ∈ A.mv.filled ∧ mine slot.toNat = true then
            EngineBecomes L a.toNat e.toNat
              { A with mv := { A.mv with filled := A.mv.filled.filter fun n => n != slot.toNat, owner := Tbl.set 0 A.mv.owner slot.toNat 0 } } x u
          else EngineBecomes L a.toNat e.toNat A { x with filled := x.filled.filter fun n => n != slot.toNat } u) ∧
      (x.arm.free = true → Issues s a.toNat p (.sadv a p e n1) → Completes (.sadv a p e n1) s a.toNat 0 L))
end

section
open Sys2Proof Sys2Proof.Machine Sys2Proof.Claims
/-- SCOPY reads every row of its source descriptor in its issue beat and sends it to the destination's row: between array-store
descriptors with a latency of 2, from the shared store with that of a delivery, and into the shared store at the end of the beat; a
descriptor of another space is skipped as BAD_DESC (R22, R240, R241, R248; Table 1.2). That a copy within one store is carried out, and
when a write into the shared store takes effect, are the model's choices (log 49). -/
def Obligations.PointCopySendsRows : Prop :=
  ∀ (s : State) (a : Arr) (p : Pred) (e : BitVec 2) (dsrc ddst : BitVec 6),
    let L := s.landEarly a.toNat
    let A := L.arr a.toNat
    let ds := A.descr dsrc.toNat
    let dd := A.descr ddst.toNat
    let t := L.tenRunning a.toNat
    let at_ := fun (d : Descr) (i : Nat) =>
      (d.base + (if d.pten then (A.ptr d.pt).value else 0) + i * d.rstride) % (if d.space = 1 then 2 ^ 28 else 2 ^ 20)
    let bytes := fun (i : Nat) => if ds.space = 1 then (L.sharedRead t (at_ ds i) ds.rowLen).1
      else (List.range ds.rowLen).map fun j => A.store.byte ((at_ ds i + j) % 2 ^ 20)
    let seen := if ds.space = 1 then (List.range ds.rows).foldl (fun (u : State) i => (u.sharedRead t (at_ ds i) ds.rowLen).2) L else L
    let lat := fun (i : Nat) => if dd.space = 1 then 1 else if ds.space = 1 then deliveryLatency a.toNat (at_ ds i) 0 else 2
    let op := fun (i : Nat) => if dd.space = 1 then Landing.shared (at_ dd i) (bytes i)
      else if ds.space = 1 then .deliver [a.toNat] (at_ dd i) (bytes i) none else .bytes [(at_ dd i, bytes i)]
    Unarmed L → Issues s a.toNat p (.scopy a p e dsrc ddst) → (A.eng e.toNat).started = true →
    (ds.space < 2 → dd.space < 2 → ∃ u, Completes (.scopy a p e dsrc ddst) s a.toNat 0 u ∧ EngineBecomes seen a.toNat e.toNat
      { A with flight := A.flight ++ (List.range ds.rows).map fun i =>
          { left := lat i, rank := 0, eng := e.toNat, no := (A.eng e.toNat).txnNo, op := op i } } (A.eng e.toNat) u) ∧
    (2 ≤ ds.space ∨ 2 ≤ dd.space → Completes (.scopy a p e dsrc ddst) s a.toNat 0
      (L.deadLetter a.toNat dlBadDesc 0 (streamSlot 5#6 p e (0#8 ++ ddst ++ dsrc))))
end

namespace Sys2Proof.Claims
open Sys2Proof.Machine

/-- Engine `e` of array `a` stands at MOVE `m` and may carry it out by itself or by a step that SADV gave it. -/
structure AtMove (s : State) (a e : Nat) (m : Move) : Prop where
  on : s.arrOn a = true ∧ (s.arr a).abandon = none
  started : (s.engine a e).started = true
  cur : (s.engine a e).cur = .move m
  whole : (s.engine a e).halting = false
  may : (s.engine a e).arm.free = true ∨ MayStep s a e

/-- The engine after its MOVE. -/
def stepped (x : Engine) : Engine := { x with pc := x.pc + 1, steps := x.steps - 1, txnNo := x.txnNo + 1 }

/-- `s` with transactions handed to their channels in turn; an output of a task is noted. -/
def sends (s : State) (l : List Txn) : State := l.foldl (fun (u : State) t => (t.output u).submitTxn t) s

/-- The transactions of a MOVE of array `a` on `n` bytes from a line on: 256-byte ones where they cover a block, else lines; each as
`make` says of its offset and size (R322). -/
def moveTxns (s : State) (a e cls line n : Nat) (make : Nat → Nat → Txn → Txn) : List Txn :=
  (cutRange (n / 64 + 4) line (line + n)).map fun p => make (p.1 - line) p.2
    { kind := 0, addr := p.1 % 2 ^ 48, size := p.2, ten := s.tenRunning a, cls := cls, owner := .task a ((s.arr a).task.getD 0) e
      no := (s.engine a e).txnNo, keep := p.2 }

/-- Every transaction of a list lies in the windows of its tenancy. -/
def InWindows (s : State) (l : List Txn) : Prop := ∀ t ∈ l, s.spanInWindow t.ten t.addr t.size = true

/-- A slot is being filled, or is filled and not freed. -/
def taken (filling : List (Nat × Nat)) (filled : List Nat) (n : Nat) : Prop := n ∈ filling.map (·.1) ∨ n ∈ filled
end Sys2Proof.Claims

section
open Sys2Proof Sys2Proof.Machine Sys2Proof.Claims
/-- One step of a PACED engine at a MOVE from the shared store to the array store sends the bytes of its source to the arrays its
DELIVER names, to be released after 8, 12 or 14 beats, pays its credit and goes on to the next instruction; SADV takes the step in its
issue beat, and STREAM_MOVE takes a step that SADV gave before (R19, R40, R288, R290, R292; Table 1.2). A MOVE from memory sends its
reads, whose bytes go to the array store, the slot it opens (waiting while that is not free) or the shared store; one from memory to
memory sends its reads and its writes in CLASS 2, the writes waiting for the bytes; one from the array store, or from the front of the
outbound buffer, sends its bytes in two beats, in one into the shared store, or as writes to memory, which wait while the buffer holds
no room; to an atomic add it stages a contribution, spilling where the staging area is full and freezing the array where both are; one
from a cache source sends the reads of the row it names, and delivers +0 with status 0x31 for a sequence the task did not name and 0x01
before its first position (R104, R205, R288, R289, R291, R322, R328, R332; Table 1.3). A MOVE on the shared store without its half or
its credit is skipped as BUSY (R292). DELIV code 3 taken as a point delivery, a DELIV that reaches further than SCOPE carried out, a
MOVE of no path of Table 1.3 skipped as RESERVED_OP, and the beat of a write into the shared store are the model's choices (log 49). -/
def Obligations.StreamMoveCarriesBytes : Prop :=
  (∀ (s : State) (a : Arr) (p : Pred) (e : BitVec 2) (m m' : Move),
    (Issues s a.toNat p (.sadv a p e 0) →
      let L := s.landEarly a.toNat
      let A := L.arr a.toNat
      let x := A.eng e.toNat
      let src := x.addr m.ssb false % 2 ^ 28
      let r := L.sharedRead (L.tenRunning a.toNat) src m.bytes
      Unarmed L → AtSharedMove A e.toNat m → x.arm.free = false → x.steps = 0 → ({ x with pc := x.pc + 1 } : Engine).cur = .move m' →
      ∃ u, Completes (.sadv a p e 0) s a.toNat 0 u ∧ EngineBecomes r.2 a.toNat e.toNat
        (delivering A e.toNat (deliveryLatency a.toNat src m.deliv) (r.2.targets a.toNat m.deliv) m r.1)
        { x with word := streamSlot 2#6 p e 0, credit := x.credit - m.bytes, pc := x.pc + 1, txnNo := x.txnNo + 1 } u) ∧
    (let A := s.arr a.toNat
     let x := A.eng e.toNat
     let src := x.addr m.ssb false % 2 ^ 28
     let r := s.sharedRead (s.tenRunning a.toNat) src m.bytes
     Unarmed s → AtSharedMove A e.toNat m → s.arrOn a.toNat = true → A.abandon = none → x.arm.free = false → MayStep s a.toNat e.toNat →
      ∃ u, exec (.streamMove a e) s = .next u ∧ EngineBecomes r.2 a.toNat e.toNat
        (delivering A e.toNat (deliveryLatency a.toNat src m.deliv) (r.2.targets a.toNat m.deliv) m r.1)
        { x with credit := x.credit - m.bytes, pc := x.pc + 1, txnNo := x.txnNo + 1, steps := x.steps - 1 } u)) ∧
  (∀ (s : State) (a : Arr) (eng : BitVec 2) (m : Move), Unarmed s → AtMove s a.toNat eng.toNat m →
    let e := eng.toNat
    let A := s.arr a.toNat
    let x := A.eng e
    let t := s.tenRunning a.toNat
    let i := Instr.streamMove a eng
    let src := x.addr m.ssb false
    let dst := x.addr m.dsb true
    let line := src / 64 * 64
    let into := dst / 64 * 64
    let n := m.bytes
    let shared := m.src = 1 ∨ m.dst = 2
    let allowed := x.arm.half = (if (if m.src = 1 then src else dst) % 2 ^ 28 < 0x08000000 then 0 else 1) ∧ n ≤ x.credit
    let paid := stepped (if shared then { x with credit := x.credit - n } else x)
    let becomes := fun (v : State) (B : ArrayState) (y : Engine) => ∃ u, exec i s = .next u ∧ EngineBecomes v a.toNat e B y u
    let waits := exec i s = .next s
    -- along no path, and without what the shared store asks
    (movePath m.src m.dst = false → let v := s.deadLetter a.toNat dlReservedOp 0 x.word
      becomes v (v.arr a.toNat) (stepped x)) ∧
    (movePath m.src m.dst = true → shared → ¬ allowed → let v := s.deadLetter a.toNat dlBusy 0 x.word
      becomes v (v.arr a.toNat) (stepped x)) ∧
    -- from memory
    (let reads := fun (dest : Nat → TxnDst) (fits : Nat → Nat) =>
       moveTxns s a.toNat e 0 line n fun off size (q : Txn) => { q with dst := dest off, keep := min size (fits off) }
     m.src = 0 →
      (m.dst = 3 → let l := reads (fun off => .store a.toNat ((dst % 2 ^ 20 + off) % 2 ^ 20)) (fun _ => n)
        InWindows s l → becomes (sends s l) A (stepped x)) ∧
      (m.dst = 2 → allowed → let l := reads (fun off => .shared ((dst % 2 ^ 28 + off) % 2 ^ 28)) (fun _ => n)
        InWindows s l → becomes (sends s l) A paid) ∧
      (m.dst = 4 → let slot := x.nextSlot
        let size := x.arm.slotSize
        let at_ := x.arm.slotAddr slot
        let l := reads (fun off => if off < size then .window a.toNat e slot ((at_ + off) % 2 ^ 20) else .none) (fun off => size - off)
        (taken x.filling x.filled slot → waits) ∧
        (¬ taken x.filling x.filled slot → InWindows s l → becomes (sends s l) A { stepped x with
          filling := x.filling ++ [(slot, (l.filter fun q => q.dst != .none).length)], nextSlot := (slot + 1) % x.arm.winSlots })) ∧
      (m.dst = 5 → let slot := A.mv.next
        let l := reads (fun off => if off < 512 then .mvSlot a.toNat slot off else .none) (fun off => 512 - off)
        (taken A.mv.filling A.mv.filled slot → waits) ∧
        (¬ taken A.mv.filling A.mv.filled slot → InWindows s l → becomes (sends s l)
          { A with mv := { A.mv with
              filling := A.mv.filling ++ [(slot, (l.filter fun q => q.dst != .none).length)], next := (slot + 1) % 16
              owner := Tbl.set 0 A.mv.owner slot (e + 1), expand := Tbl.set (0, 0) A.mv.expand slot (0, 0) } } (stepped x))) ∧
      (m.dst = 0 →
        let l := moveTxns s a.toNat e 2 line n fun off _ (q : Txn) => { q with dst := .memory ((into + off) % 2 ^ 48) }
        let w := moveTxns s a.toNat e 2 into n fun _ size (q : Txn) => { q with kind := 1, data := List.replicate size 0, need := size, keep := 256 }
        InWindows s l → InWindows s w → becomes (sends (sends s l) w) A (stepped x))) ∧
    -- from the array store, and from the outbound buffer
    (m.src = 2 ∨ m.src = 4 ∧ n ≤ x.outbound.length →
      let bs := if m.src = 2 then (List.range n).map fun j => A.store.byte ((src % 2 ^ 20 + j) % 2 ^ 20) else x.outbound.take n
      let y := if m.src = 4 then { x with outbound := x.outbound.drop n } else x
      let flies := fun (f : Flight) => { A with flight := A.flight ++ [{ f with rank := 0, eng := e, no := x.txnNo }] }
      let targets := if m.src = 4 then [a.toNat] else s.targets a.toNat m.deliv
      let w := moveTxns s a.toNat e 1 into n fun off size (q : Txn) => { q with kind := 1, data := (bs.drop off).take size, keep := 256 }
      (m.dst = 2 → allowed → becomes s (flies { left := 1, rank := 0, op := .shared (dst % 2 ^ 28) bs })
        (stepped { y with credit := x.credit - n })) ∧
      (m.dst = 3 → becomes s (flies { left := 2, rank := 0, op := .deliver targets (dst % 2 ^ 20) bs none }) (stepped y)) ∧
      (m.dst = 4 → let slot := x.nextSlot
        (taken x.filling x.filled slot → waits) ∧
        (¬ taken x.filling x.filled slot → becomes s
          (flies { left := 2, rank := 0, op := .deliver targets (x.arm.slotAddr slot) (bs.take x.arm.slotSize) (some slot) })
          { stepped y with filling := x.filling ++ [(slot, 1)], nextSlot := (slot + 1) % x.arm.winSlots })) ∧
      (m.dst = 0 → InWindows s w →
        (m.src = 2 → 8192 < s.outboundUse a.toNat e + min n 8192 → exec i s = .next (waiting s a.toNat (.outbound e))) ∧
        (m.src = 4 ∨ s.outboundUse a.toNat e + min n 8192 ≤ 8192 → becomes (sends s w) A (stepped y))) ∧
      (m.dst = 1 → n = 64 → s.spanInWindow t into 64 = true → ∀ rid k, A.task = some rid → s.task rid = some k →
        let room := fun (spilled : Bool) => s.stagedUse t spilled + 2 ≤
          1024 * (if spilled then s.reg Reg.MPORT_OVF_SIZE t else s.reg Reg.MPORT_STG_SIZE t)
        (room false ∨ room true → ∃ u c, exec i s = .next u ∧ u.engine a.toNat e = stepped y ∧ u.mport.staged = s.mport.staged ++ [c] ∧
          c.cid = k.cid ∧ c.rid = rid ∧ c.ten = t ∧ c.addr = into ∧ c.data = bs ∧ c.eng = e ∧ c.no = x.txnNo ∧ c.ready = false ∧
          (∀ d ∈ s.mport.staged, d.order < c.order) ∧ (c.spilled = true ↔ ¬ room false) ∧
          u.task rid = some { k with staged := k.staged + 128 } ∧ u.mem = s.mem ∧ ∀ b, b ≠ a.toNat → u.arr b = s.arr b) ∧
        (¬ room false → ¬ room true → exec i s = .next (waiting s a.toNat (.atomic e))))) ∧
    -- from a cache source
    (m.src = 3 → m.dst = 3 → ∀ rid k, A.task = some rid → s.task rid = some k →
      let name := x.sb.getD m.ssb 0
      let plane := name / 2 ^ 16 % 2 ^ 12
      let pos := x.offset false
      let zeros := fun (v : State) (from_ : Nat) => v.storeArrival a.toNat (dst % 2 ^ 20 + from_) (List.replicate (n - from_) 0)
      let noted := fun (v : State) (status : Nat) =>
        v.onTask rid fun k => { k with status := if k.status = 0 ∨ k.status = 0x01 then status else k.status }
      let gives := fun (v : State) => becomes v (v.arr a.toNat) (stepped x)
      ((∀ y ∈ k.snaps, y.seq ≠ name % 2 ^ 16) → gives (zeros (noted s 0x31) 0)) ∧
      (∀ y, k.snaps.find? (fun y => y.seq == name % 2 ^ 16) = some y →
        let P := s.pool y.pool
        (P.planes ≤ plane → gives (zeros (noted s 0x31) 0)) ∧
        (plane < P.planes → pos < 0 → gives (zeros (noted (s.bump Reg.WALK_NULL_READS) 0x01) 0)) ∧
        (plane < P.planes → 0 ≤ pos → ∀ v, s.seek a.toNat t y (pos.toNat / 16) = (v, true) →
          (y.wtop ≤ pos.toNat → gives (zeros (noted v 0x01) 0)) ∧
          (∀ f, pos.toNat < y.wtop → y.frame (pos.toNat / 16) = some f →
            let c := P.source y f plane m.half pos.toNat (decide (2 ≤ P.fmt) && name.testBit 47)
            let have_ := min n c.valid
            let l := (memPieces c.start have_).map fun (q : Piece) =>
              ({ kind := 0, addr := q.addr % 2 ^ 48, size := q.size, ten := t, cls := 0, owner := .task a.toNat rid e, no := x.txnNo
                 dst := .store a.toNat ((dst % 2 ^ 20 + q.off) % 2 ^ 20), skip := q.skip, keep := q.keep
                 row := some { c.row with off := q.off } } : Txn)
            InWindows s l → gives (zeros (sends (if c.valid < n then noted v 0x01 else v) l) have_))))))
end

section
open Sys2Proof Sys2Proof.Machine Sys2Proof.Claims
/-- STREAM_NEXTBASE puts the handle that the engine's place in the mailbag's queue gives it into its base register and goes on, and
leaves the engine waiting and its array frozen while there is none (R282, R288, R290). -/
def Obligations.NextbaseTakesHandle : Prop :=
  ∀ (s : State) (a : Arr) (e : BitVec 2) (sb n : Nat) (m' : Move),
    let A := s.arr a.toNat
    let x := A.eng e.toNat
    let t := s.tenRunning a.toNat
    let b := s.bag (s.reg Reg.TEN_MB_FIRST t + n)
    let me := bagWho a.toNat e.toNat
    s.arrOn a.toNat = true → A.abandon = none → x.started = true → x.cur = .nextBase sb n →
    InRange s t Reg.TEN_MB_FIRST Reg.TEN_MB_SIZE n → (x.arm.free = true ∨ MayStep s a.toNat e.toNat) →
    (∀ g y, b.handles[indexOf (queued b.takers me) me]? = some (g, y) →
      ({ x with pc := x.pc + 1, sb := listUpd x.sb sb (fun _ => g.toNat) } : Engine).cur = .move m' →
      ∃ u v, exec (.streamNextbase a e) s = .next u ∧ BesideMessages s v ∧ EngineBecomes v a.toNat e.toNat A
        { x with pc := x.pc + 1, sb := listUpd x.sb sb (fun _ => g.toNat) } u) ∧
    (b.handles[indexOf (queued b.takers me) me]? = none → ∃ u, BesideMessages s u ∧
      (u.bag (s.reg Reg.TEN_MB_FIRST t + n)).takers = queued b.takers me ∧
      exec (.streamNextbase a e) s = .next (waiting u a.toNat (.nextBase e.toNat)))
end

section
open Sys2Proof Sys2Proof.Machine Sys2Proof.Claims
/-- STREAM_POST makes a post whose MOVEs have all been accepted: the letterbox is raised by the amount, saturating, and the post is no
longer waiting; while a MOVE before it has not been accepted nothing changes. A post behind staged atomic adds leaves its engine but
is held until each of them has been accepted, which is after the task's seal (R280, R288, R325, R329). -/
def Obligations.StreamPostFollowsItsMoves : Prop :=
  ∀ (s : State) (a : Arr) (e : BitVec 2) (lb amount upTo i : Nat),
    let A := s.arr a.toNat
    let x := A.eng e.toNat
    let box := s.reg Reg.TEN_LB_FIRST (s.tenRunning a.toNat) + lb
    s.arrOn a.toNat = true → A.abandon = none → x.started = false → x.posts = [(lb, amount, upTo, i)] →
    let adds := (s.mport.staged.filter fun c =>
      c.rid == A.task.getD 0 && !c.ready && c.eng == e.toNat && decide (c.no < upTo)).map (·.order)
    (s.movesDone a.toNat e.toNat upTo = true → adds = [] → ∃ u v, exec (.streamPost a e) s = .next u ∧
      EngineBecomes s a.toNat e.toNat A { x with posts := [] } v ∧
      BesideMessages ((v.journalMade a.toNat i).putLb box (BitVec.ofNat 32 (min ((s.lb box).toNat + amount) (2 ^ 32 - 1)))) u) ∧
    (s.movesDone a.toNat e.toNat upTo = true → adds ≠ [] → ∃ u, exec (.streamPost a e) s = .next u ∧
      EngineBecomes { s with mport := { s.mport with posts := s.mport.posts ++
        [{ rid := A.task.getD 0, ten := s.tenRunning a.toNat, lb := lb, amount := amount, waits := adds }] } }
        a.toNat e.toNat A { x with posts := [] } u) ∧
    (s.movesDone a.toNat e.toNat upTo = false → exec (.streamPost a e) s = .next s)
end

namespace Sys2Proof.Claims
open Sys2Proof.Machine

/-- Channel `c` of the memory port has transaction `t` outstanding under `tag`, with nothing waiting behind it and, where a task issued
it, no post of its array that waits; the port is ON. -/
structure Outstanding (s : State) (c tag : Nat) (t : Txn) : Prop where
  on : s.domOn domMPT = true
  out : ((s.chan c).out.find? fun o => o.1 == tag) = some (tag, t)
  wait : (s.chan c).wait = []
  posts : ∀ a r k, t.owner = .task a r k → ∀ e, e < 4 → (s.engine a e).posts = []

/-- Memory once channel `c` has carried out the transactions that reached it before the one under `tag`: accesses of one channel to
one address take effect in the order in which they reached it (R324, R327; that they do so when a response comes is log 15). -/
def reached (s : State) (c tag : Nat) : Memory :=
  ((s.chan c).out.takeWhile fun o => o.1 != tag).foldl (fun m o => if o.2.done then m else o.2.apply m) s.mem

/-- The bytes that a READ under `tag` finds: those of memory at that point, with the staged adds of an earlier MOVE of its engine to a line
that it reads, of its attempt or sealed, which have not reached memory yet (R324; log 15). -/
def foundBy (s : State) (c tag : Nat) (t : Txn) : List Byte :=
  let before := (s.chan c).out.takeWhile fun o => o.1 != tag
  let adds := s.mport.staged.filter fun d =>
    (match t.owner with | .task b _ k => b == d.arr && k == d.eng | _ => false) && (d.ready || decide (d.no < t.no)) && decide (d.addr < t.addr + t.size) &&
      decide (t.addr < d.addr + d.data.length) && !before.any (fun o => o.2.kind == 2 && o.2.no == d.order)
  if t.done then t.data else (adds.foldl (fun (m : Memory) d => addF32 m d.addr d.data) (reached s c tag)).bytes t.addr t.size

/-- A transaction but for whether its channel has carried it out, the bytes that a read then found, and what was written after it. -/
def asIssued (t : Txn) : Txn := { t with done := false, since := [], data := if t.kind = 0 then [] else t.data }

/-- `u` has tag `tag` of channel `c` free, and every other tag and channel as in `s`. -/
structure Retired (s : State) (c tag : Nat) (u : State) : Prop where
  out : ((u.chan c).out.map fun o => (o.1, asIssued o.2)) = ((s.chan c).out.filter fun o => o.1 != tag).map fun o => (o.1, asIssued o.2)
  credits : (u.chan c).credits = (s.chan c).credits
  others : ∀ d, d ≠ c → u.chan d = s.chan d

/-- Transaction `t` belongs to no attempt that runs and to no release: a write of the dispatcher or the cache unit, or of a task that
runs no more. -/
def Bystanding (s : State) (t : Txn) : Prop :=
  (∀ b r e, t.owner = .task b r e → (s.arr b).task ≠ some r) ∧ ∀ cid, t.owner ≠ .release cid

/-- `u` has MEM_ERR counted and raised for `t` with a status, and recorded while no record was held (R335; Table 13.4). -/
structure PortRecorded (s : State) (t : Txn) (status : Nat) (held : Nat) (u : State) : Prop where
  raised : Raised u pgMPORT 0
  counted : u.reg Reg.MPORT_CH_ERR_CNT (chanOfAddr t.addr) =
    min (s.reg Reg.MPORT_CH_ERR_CNT (chanOfAddr t.addr) + 1) (2 ^ Reg.MPORT_CH_ERR_CNT.width - 1)
  first : s.flag Reg.MPORT_ERR_VALID = false → u.flag Reg.MPORT_ERR_VALID = true ∧ u.reg Reg.MPORT_ERR_STATUS = status ∧
    u.reg Reg.MPORT_ERR_ADDR_LO = t.addr % 2 ^ 32 ∧ u.reg Reg.MPORT_ERR_KIND = t.kind ∧ u.reg Reg.MPORT_ERR_SEALED = held ∧
    u.reg Reg.MPORT_ERR_TEN = t.ten % 16
  later : s.flag Reg.MPORT_ERR_VALID = true → u.reg Reg.MPORT_ERR_STATUS = s.reg Reg.MPORT_ERR_STATUS ∧
    u.reg Reg.MPORT_ERR_ADDR_LO = s.reg Reg.MPORT_ERR_ADDR_LO

/-- The FP32 elements of `t` are added to memory `M`, each with one rounding, and nothing else of it changes (R327). -/
def AddsTo (M : Memory) (t : Txn) (m : Memory) : Prop :=
  (∀ i, 4 * i < t.data.length → m.le (t.addr + 4 * i) 4 =
    (fadd (BitVec.ofNat 32 (M.le (t.addr + 4 * i) 4)) (BitVec.ofNat 32 (leNat ((t.data.drop (4 * i)).take 4)))).toNat) ∧
  ∀ x, x < t.addr ∨ t.addr + t.data.length ≤ x → m.byte x = M.byte x
end Sys2Proof.Claims

section
open Sys2Proof Sys2Proof.Machine Sys2Proof.Claims
/-- A response with another STATUS, and a transaction without a response within RESP_TIMEOUT, frees its tag, is counted, raises
MEM_ERR and is recorded while no record is held; a read delivers +0, and memory outside the bytes of a write or add stays as it was.
The attempt of a task that runs fails its check of class MEMORY: the fault record holds the address and the STATUS, and the attempt
is abandoned. An error to an add of a release that the seal issued sets ERR_SEALED and ends the command FAULTED. A timeout counts as
STATUS 3 and raises TIMEOUT; a response to a tag that is not outstanding is a violation of reason 1 and changes no memory (R334,
R335, R336, R359, R363; Tables 13.3, 15.5). -/
def Obligations.FailedTransactionIsRecorded : Prop :=
  ∀ (s : State) (c : Chan) (tag : BitVec 12),
    (∀ (status : BitVec 2) (t : Txn), status ≠ 0 → Outstanding s c.toNat tag.toNat t → Bystanding s t → t.kind ≤ 2 →
      t.data.length ≤ t.size → (∀ x, t.dst ≠ .memory x) →
      let M := reached s c.toNat tag.toNat
      ∃ u, exec (.memoryResponse c tag status .matching) s = .next u ∧ Retired s c.toNat tag.toNat u ∧
        PortRecorded s t status.toNat 0 u ∧
        (t.kind ≠ 0 → (∀ x, x < t.addr ∨ t.addr + t.size ≤ x → u.mem.byte x = M.byte x) ∧ u.shared = s.shared ∧
          ∀ b, u.arr b = s.arr b) ∧
        (t.kind = 0 → u.mem = M ∧ ∀ b at_, t.dst = .store b at_ →
          (u.arr b).store = ((s.arr b).save at_ (((List.replicate t.size 0).drop t.skip).take t.keep)).store ∧
          u.shared = s.shared ∧ ∀ d, d ≠ b → u.arr d = s.arr d)) ∧
    (∀ (status : BitVec 2) (t : Txn) (a rid e : Nat) (k : Task), status ≠ 0 → Outstanding s c.toNat tag.toNat t → Unarmed s →
      t.owner = .task a rid e → t.kind ≤ 2 → t.data.length ≤ t.size → (∀ x, t.dst ≠ .memory x) →
      (s.arr a).task = some rid → (s.arr a).abandon = none → (s.arr a).fail = none →
      s.task rid = some k → k.state = 2 → k.failed = none →
      ∃ u, exec (.memoryResponse c tag status .matching) s = .next u ∧ (∀ o ∈ (u.chan c.toNat).out, o.1 ≠ tag.toNat) ∧
        PortRecorded s t status.toNat 0 u ∧ u.task rid = some { k with failed := some 7, state := 3, staged := 0 } ∧
        (u.arr a).abandon = some 32 ∧ (u.arr a).task = some rid ∧ (t.kind ≠ 0 → ∀ b, b ≠ a → u.arr b = s.arr b) ∧
        (t.kind ≠ 0 → ∀ x, x < t.addr ∨ t.addr + t.size ≤ x → u.mem.byte x = (reached s c.toNat tag.toNat).byte x) ∧
        ((s.faultPart k.ten).recs.length < 16 → ∃ r, (u.faultPart k.ten).recs = (s.faultPart k.ten).recs ++ [r] ∧
          r.cls = 7 ∧ r.ten = k.ten ∧ r.arr = a ∧ r.receipt = rid ∧ r.attempt = k.attempt ∧ r.routine = k.routine ∧
          r.detail = t.addr + status.toNat * 2 ^ 48 ∧ r.action = if k.jover = true then 2 else if k.attempt < 4 then 0 else 2)) ∧
    (∀ (status : BitVec 2) (t : Txn) (cid : Nat) (x : Cmd), status ≠ 0 → Outstanding s c.toNat tag.toNat t →
      t.owner = .release cid → t.kind = 2 → s.cmd cid = some x → x.faulted = false → s.resets.ten = none →
      ∃ u, exec (.memoryResponse c tag status .matching) s = .next u ∧ PortRecorded s t status.toNat 1 u ∧ Raised u pgFAULT 2 ∧
        (∀ o ∈ (u.chan c.toNat).out, o.1 = tag.toNat → o.2.owner = .unit) ∧
        ∀ y, u.cmd cid = some y → y.faulted = true ∧ y.status = 0x40 ∧ y.plans = []) ∧
    (∀ (t : Txn), Outstanding s c.toNat tag.toNat t → Bystanding s t → t.kind = 1 → t.data.length ≤ t.size →
      ∃ u, exec (.respTimeout c tag) s = .next u ∧ Retired s c.toNat tag.toNat u ∧ Raised u pgMPORT 2 ∧ PortRecorded s t 3 0 u ∧
        (∀ x, x < t.addr ∨ t.addr + t.size ≤ x → u.mem.byte x = (reached s c.toNat tag.toNat).byte x)) ∧
    ((∀ o ∈ (s.chan c.toNat).out, o.1 ≠ tag.toNat) →
      exec (.respTimeout c tag) s = .next s ∧
      (s.domOn domMPT = true → ∀ (status : BitVec 2) (form : RespForm), ∃ u, exec (.memoryResponse c tag status form) s = .next u ∧
        Raised u pgMPORT 1 ∧ ({ u with regs := [], ctl := {} } : State) = { s with regs := [], ctl := {} } ∧
        (s.flag Reg.MPORT_VIOL_VALID = false → u.reg Reg.MPORT_VIOL_REASON = 1 ∧ u.reg Reg.MPORT_VIOL_TAG = tag.toNat)))
end

section
open Sys2Proof Sys2Proof.Machine Sys2Proof.Claims
/-- A response with STATUS OK frees its tag; a read's bytes reach the array store at its destination and memory stays as it was; a
write puts its data at its address and an atomic add adds its FP32 elements there, each with one rounding, after those that reached
the channel before it, and every byte of memory outside stays as it was; a read finds the adds that its own engine has staged before it
(R324, R325, R327). The add of a staged contribution that a
release sent frees it, and a post that waited for it alone is made (R325, R329). Returned credits add to a channel's
credits; more than make up its initial grant, with those it keeps for a row, are a violation of reason 4 and are not taken. With the port ON
and nothing waiting for credits nothing else changes (R323, R336; Table 13.3). That a row of the units holds credits while it waits for
others is the model's choice (log 8). -/
def Obligations.ResponsesCompleteAndReturnCredits : Prop :=
  (∀ (s : State) (c : Chan) (tag : BitVec 12) (t : Txn), Unarmed s → Outstanding s c.toNat tag.toNat t → (∀ cid, t.owner ≠ .release cid) →
      let M := reached s c.toNat tag.toNat
      ∃ u, exec (.memoryResponse c tag 0 .matching) s = .next u ∧ ((∀ x, t.dst ≠ .memory x) → Retired s c.toNat tag.toNat u) ∧
        (t.kind = 0 ∨ t.done = true → u.mem = M) ∧
        (∀ b at_, t.kind = 0 → t.dst = .store b at_ → t.row = none →
          let found := foundBy s c.toNat tag.toNat t
          (u.arr b).store = ((s.arr b).save at_ ((found.drop t.skip).take t.keep)).store ∧ ∀ d, d ≠ b → u.arr d = s.arr d) ∧
        (t.kind = 1 → (t.done = false → ∀ x, u.mem.byte x =
            if t.addr ≤ x ∧ x < t.addr + t.data.length then t.data.getD (x - t.addr) 0 else M.byte x) ∧
          ∀ b, u.arr b = s.arr b) ∧
        (t.kind = 2 → t.data.length % 4 = 0 → (t.done = false → AddsTo M t u.mem) ∧ ∀ b, u.arr b = s.arr b)) ∧
  (∀ (s : State) (c : Chan) (tag : BitVec 12) (t : Txn) (cid : Nat), Outstanding s c.toNat tag.toNat t → t.owner = .release cid →
      t.kind = 2 → t.done = false → t.data.length % 4 = 0 → s.resets.ten = none → (∃ x ∈ s.mport.staged, x.cid = cid ∧ x.order ≠ t.no) →
      ∀ (held : Option HeldPost), (s.mport.posts = match held with | some p => [p] | none => []) →
      (∀ p, held = some p → p.waits = [t.no]) →
      ∃ u, exec (.memoryResponse c tag 0 .matching) s = .next u ∧ Retired s c.toNat tag.toNat u ∧
        AddsTo (reached s c.toNat tag.toNat) t u.mem ∧ (∀ b, u.arr b = s.arr b) ∧
        u.mport.staged = s.mport.staged.filter (fun x => x.order != t.no) ∧ u.mport.posts = [] ∧
        ∀ n, u.lb n = (match held with
          | some p => if n = s.reg Reg.TEN_LB_FIRST p.ten + p.lb then BitVec.ofNat 32 (min ((s.lb n).toNat + p.amount) (2 ^ 32 - 1)) else s.lb n
          | none => s.lb n)) ∧
  (∀ (s : State) (c : Chan) (n : Nat), s.domOn domMPT = true → (s.chan c.toNat).wait = [] →
      let x := s.chan c.toNat
      let kept := x.got.length
      (x.credits + kept + n ≤ x.grant →
        exec (.memoryCreditReturn c n) s = .next (s.setChan c.toNat { x with credits := x.credits + n })) ∧
      (x.grant < x.credits + kept + n → ∃ u, exec (.memoryCreditReturn c n) s = .next u ∧
        u.chan c.toNat = { x with credits := x.grant - kept } ∧
        Raised u pgMPORT 1 ∧ (s.flag Reg.MPORT_VIOL_VALID = false → u.reg Reg.MPORT_VIOL_REASON = 4)))
end

namespace Sys2Proof.Claims
open Sys2Proof.Machine

/-- Every channel of the memory port has a credit and a tag for the row of requester `who`, the array of that number or, with 1024, the
units, and the row waits at none (R323, R333). -/
structure PortFree (s : State) (who : Nat) : Prop where
  quiet : ∀ e ∈ s.mport.chans, e.2.asked who = false
  open_ : ∀ c < 16, (s.chan c).full = false

/-- Command `c`, of kind `kind`, is the one of queue `q` whose turn it is. -/
structure OnTurn (s : State) (q kind : Nat) (c : Cmd) : Prop where
  turn : s.turnOf q kind = some c
  found : s.cmd c.cid = some c

/-- The 16 bytes of a completion record (Table 11.4). -/
def completionRecord (c : Cmd) (status : Nat) : List Byte :=
  leBytes 6 (cmdSeqno c.bytes) ++ leBytes 2 (cmdSubmitter c.bytes) ++
    leBytes 4 (status + 2 ^ 16 * c.queue + 2 ^ 22 * min c.replays 63) ++ leBytes 4 (min c.info (2 ^ 32 - 1))

/-- The command asks for no record, message, stamp or post. -/
def Silent (b : BitVec 512) : Prop := cmdCplAddr b = 0 ∧ cmdEvent b = false ∧ cmdStamp b = false ∧ cmdAdd b = 0

/-- `s` but for which arrays have had their letterbox waits met in the present beat. -/
def unlatched (s : State) : State :=
  { s with arrs := s.arrs.map fun e => (e.1, { e.2 with seq := { e.2.seq with lbMet := false } }) }

/-- Nothing differs but registers, event state, memory and the transactions of its channels, the shared store, ring ports, meters, the
count of free values drawn, which arrays' letterbox waits have been met, and of the dispatcher the accepted commands, submitter records,
letterboxes and mailbags. -/
def BesideCompletion (s t : State) : Prop :=
  ({ unlatched t with regs := [], ctl := {}, mem := [], shared := [], ring := [], meter := {}, freeCtr := 0
                      disp := { t.disp with cmds := [], subs := [], lbx := [], mbx := [] }, mport := { t.mport with chans := [] } } : State) =
  { unlatched s with regs := [], ctl := {}, mem := [], shared := [], ring := [], meter := {}, freeCtr := 0
                     disp := { s.disp with cmds := [], subs := [], lbx := [], mbx := [] }, mport := { s.mport with chans := [] } }

/-- From state `v` the accepted command `c` has ended with a status, and nothing else has happened: it is accepted no longer, its
entry of the window it was accepted into is DONE with the status, its record is in memory where it asked for one, its letterbox is
posted (R273, R274); the outputs of a command that ends FAULTED, 0x40, or for a fault WINDOW_FAULT, 0x38, hold unspecified values
(R363). -/
structure Ended (v : State) (c : Cmd) (status : Nat) (u : State) : Prop where
  cmds : u.disp.cmds = v.disp.cmds.filter fun x => x.cid != c.cid
  window : (∃ e ∈ (v.subRec c.sub).window, e.seqno = cmdSeqno c.bytes ∧ e.done = false) →
    u.subRec c.sub = { v.subRec c.sub with
      hc := max (v.subRec c.sub).hc (cmdSeqno c.bytes)
      window := (v.subRec c.sub).window.map fun e =>
        if e.seqno = cmdSeqno c.bytes then { e with done := true, status := status } else e }
  closed : (∀ e ∈ (v.subRec c.sub).window, e.seqno = cmdSeqno c.bytes → e.done = true) → u.subRec c.sub = v.subRec c.sub
  windows : ∀ j, j ≠ c.sub → u.subRec j = v.subRec j
  record : (c.outs = [] ∨ status ∉ [0x38, 0x40]) → cmdStamp c.bytes = false → ∀ x, u.mem.byte x =
    if cmdCplAddr c.bytes ≠ 0 ∧ v.spanInWindow (tenOfQueue c.queue) (cmdCplAddr c.bytes) 16 = true ∧ cmdCplAddr c.bytes ≤ x ∧
        x < cmdCplAddr c.bytes + 16 then
      (completionRecord c status).getD (x - cmdCplAddr c.bytes) 0
    else v.mem.byte x
  letterbox : ∀ n, u.lb n =
    if cmdAdd c.bytes ≠ 0 ∧ v.lbxIn (tenOfQueue c.queue) (cmdLbx c.bytes) = true ∧ n = v.lbxAbs (tenOfQueue c.queue) (cmdLbx c.bytes) then
      BitVec.ofNat 32 (min ((v.lb n).toNat + cmdAdd c.bytes) (2 ^ 32 - 1))
    else v.lb n
  rest : BesideCompletion v u
  silent : (c.outs = [] ∨ status ∉ [0x38, 0x40]) → Silent c.bytes → ({ u with disp := { u.disp with cmds := [], subs := [] } } : State) =
    { v with disp := { v.disp with cmds := [], subs := [] } }

/-- The cache commands, each with its kind (Table 11.2). -/
def cacheCommands (q : Queue) (ans : CacheAnswer) : List (Instr × Nat) :=
  [(.append q ans, 2), (.fork q ans, 3), (.commit q ans, 4), (.free q ans, 5)]

/-- The descriptor of a sequence in a pool, as memory holds it. -/
def descriptor (s : State) (p seq : Nat) : Dsc := Dsc.ofNat (s.mem.le ((s.pool p).descAt seq) 64)

/-- Address `x` lies in no frame-table entry of any pool. -/
def OutsideFrames (s : State) (x : Nat) : Prop := ∀ p f, x < (s.pool p).fteAt f ∨ (s.pool p).fteAt f + 8 ≤ x
end Sys2Proof.Claims

section
open Sys2Proof Sys2Proof.Machine Sys2Proof.Claims
/-- A NOP ends with OK and does nothing else; a COLLECT does so once every task of every earlier command of its tenancy has sealed or
ended, and until then stays; a METER_READ writes the reading taken at its acceptance at DEST_ADDR and ends with INFO the number of its
bytes, as Table 11.4 has it; each leaves its window entry DONE, its completion record in memory and its letterbox posted (R268, R273, R286,
R347). That a METER_READ outside the windows writes nothing and ends OK is the model's choice (log 37), and so is that a completion record
which does not lie in the windows whole is not written (log 20). -/
def Obligations.SimpleCommandEnds : Prop :=
  ∀ (s : State) (q : Queue) (c : Cmd),
    (OnTurn s q.toNat 0x00 c → ∃ u, exec (.nop q) s = .next u ∧ Ended s c 0 u) ∧
    (OnTurn s q.toNat 0x0A c → (s.earlierDone c = true → ∃ u, exec (.collect q) s = .next u ∧ Ended s c 0 u) ∧
      (s.earlierDone c = false → exec (.collect q) s = .next s)) ∧
    (OnTurn s q.toNat 0x0D c →
      let t := tenOfQueue c.queue
      let a := cmdBits c.bytes 0x20 47 0
      let n := c.reading.length
      ∃ v u, exec (.meterRead q) s = .next u ∧
        (s.spanInWindow t a n = true → Ended v { c with info := n } 0 u) ∧ (s.spanInWindow t a n = false → Ended v { c with info := 0 } 0 u) ∧
        (∀ x, v.mem.byte x = if s.spanInWindow t a n = true ∧ a ≤ x ∧ x < a + n then c.reading.getD (x - a) 0 else s.mem.byte x) ∧
        ({ v with regs := [], mem := [], meter := {}, disp := { v.disp with cmds := [] }, mport := { v.mport with chans := [] } } : State) =
          { s with regs := [], mem := [], meter := {}, disp := { s.disp with cmds := [] }, mport := { s.mport with chans := [] } })
end

namespace Sys2Proof.Claims
open Sys2Proof.Machine

/-- The free lists and counts of a pool as a cache command under way has them: FREE_HEAD, FREE_FRAMES, NODE_HEAD, FREE_NODES and
RETIRING. -/
def lists (w : Work) : List Nat :=
  [w.reg Reg.CACHE_FREE_HEAD, w.reg Reg.CACHE_FREE_FRAMES, w.reg Reg.CACHE_NODE_HEAD, w.reg Reg.CACHE_FREE_NODES,
    w.reg Reg.CACHE_RETIRING]

/-- From `w` to `u` a command goes on: it publishes memory `m`, the lists `l` and the releases `r`, has changed the table entries of
the pages `n` and has written no row. -/
structure GoesOn (w u : Work) (m : Memory) (l : List Nat) (r : List (Nat × Nat)) (n : List Nat) : Prop where
  mem : u.pub.mem = m
  lists : lists u = l
  rel : u.rel = r
  changed : u.changed = n
  data : u.data.mem = w.data.mem
  same : u.pool = w.pool ∧ u.seq = w.seq ∧ u.badRead = w.badRead

/-- Entry `e` of the frame table of what a command publishes. -/
def frameEntry (w : Work) (f : Nat) : Fte := Fte.ofNat (w.pub.memLe (w.pool.fteAt f) 8)

/-- `m` with entry `f` of the frame table rewritten. -/
def withFrame (w : Work) (f : Nat) (e : Fte) : Memory := w.pub.mem.putBytes (w.pool.fteAt f) (leBytes 8 e.toNat)

/-- The `n` bytes at `x` lie in the windows of the pool's owner. -/
def seen (w : Work) (x n : Nat) : Prop := w.pub.spanInWindow w.pool.t x n = true

/-- A word of the page table: its frame, DRAFT and COPIED, or no entry (Table 8.6). -/
def pageWord : Option (Nat × Bool × Bool) → Nat
  | some (f, draft, copied) => 1 + 2 * natOfBool draft + 4 * natOfBool copied + 2 ^ 32 * f
  | none => 0

/-- What taking, releasing, fencing and sharing a frame do, and taking and returning a node (R199, R215, R220, R221). -/
def FramesMove : Prop :=
  ∀ w : Work, w.badRead = none → w.pool.p < 16 →
    (let h := w.reg Reg.CACHE_FREE_HEAD
     let next := (frameEntry w h).next
     (w.pool.frames ≤ h → w.takeFrame = w.fail 0x35) ∧
     (h < w.pool.frames → seen w (w.pool.fteAt h) 8 → ∃ u, w.takeFrame = .ok (h, u) ∧
       GoesOn w u (withFrame w h { refcnt := 1, fstate := 1, fenced := false, next := 2 ^ 32 - 1 })
         [if w.pool.frames ≤ next then 2 ^ 32 - 1 else next, w.reg Reg.CACHE_FREE_FRAMES - 1, w.reg Reg.CACHE_NODE_HEAD,
           w.reg Reg.CACHE_FREE_NODES, w.reg Reg.CACHE_RETIRING] w.rel w.changed)) ∧
    (∀ f, seen w (w.pool.fteAt f) 8 →
      let e := frameEntry w f
      let last := e.refcnt ≤ 1 ∧ e.fstate = 1
      (∃ u, w.release f = .ok u ∧
        GoesOn w u (withFrame w f { e with refcnt := e.refcnt - 1, fstate := if last then 2 else e.fstate, fenced := true })
          [w.reg Reg.CACHE_FREE_HEAD, w.reg Reg.CACHE_FREE_FRAMES, w.reg Reg.CACHE_NODE_HEAD, w.reg Reg.CACHE_FREE_NODES,
            if last then (w.reg Reg.CACHE_RETIRING + 1) % 2 ^ 32 else w.reg Reg.CACHE_RETIRING]
          (w.rel ++ [(w.seq, f)]) w.changed) ∧
      (∃ u, w.fence f = .ok u ∧ GoesOn w u (withFrame w f { e with fenced := true }) (lists w) (w.rel ++ [(w.seq, f)]) w.changed) ∧
      (e.refcnt < 65535 → ∃ u, w.share f = .ok u ∧
        GoesOn w u (withFrame w f { e with refcnt := e.refcnt + 1 }) (lists w) w.rel w.changed) ∧
      (65535 ≤ e.refcnt → ∃ u : Work, w.share f = u.fail 0x37 ∧ u.data.mem = w.data.mem)) ∧
    (∀ n, n < 2 ^ 32 → seen w (w.pool.entryAt n 0) 4 → ∃ u, w.pushNode n = .ok u ∧
      GoesOn w u (w.pub.mem.putBytes (w.pool.entryAt n 0) (leBytes 4 (w.reg Reg.CACHE_NODE_HEAD)))
        [w.reg Reg.CACHE_FREE_HEAD, w.reg Reg.CACHE_FREE_FRAMES, n, (w.reg Reg.CACHE_FREE_NODES + 1) % 2 ^ 32,
          w.reg Reg.CACHE_RETIRING] w.rel w.changed)

/-- What writing or clearing the entry of a page does: with a leaf both words are written; without one a node is taken and zeroed first
(Tables 8.5 and 8.6, R199). -/
def EntryWritten : Prop :=
  ∀ (w : Work) (d : Dsc) (n : Nat) (e : Option (Nat × Bool × Bool)), w.badRead = none → w.pool.p < 16 → d.dir < w.pool.nodes →
    let da := w.pool.entryAt d.dir (n / 512)
    let v := w.pub.memLe da 8
    let now := natOfBool e.isSome
    let word := leBytes 8 (pageWord e)
    seen w da 8 →
    (bitOf v 0 = true → v / 2 ^ 32 < w.pool.nodes →
      let la := w.pool.entryAt (v / 2 ^ 32) (n % 512)
      let was := natOfBool (bitOf (w.pub.memLe la 8) 0)
      seen w la 8 → ∃ u, w.setPte d n e = .ok ({ d with pages := d.pages + now - was }, u) ∧
        GoesOn w u ((w.pub.mem.putBytes la word).putBytes da
            (leBytes 8 (1 + 2 * (bitsOf v 10 1 + now - was) + 2 ^ 32 * (v / 2 ^ 32))))
          (lists w) w.rel (w.changed ++ [n])) ∧
    (bitOf v 0 = false →
      let k := w.reg Reg.CACHE_NODE_HEAD
      let ka := w.pool.entryAt k 0
      let la := w.pool.entryAt k (n % 512)
      let next := w.pub.memLe ka 4
      (w.pool.nodes ≤ k → ∃ u : Work, w.setPte d n e = u.fail 0x36 ∧ u.data.mem = w.data.mem) ∧
      (k < w.pool.nodes → seen w ka 4 → seen w ka 4096 → seen w la 8 → ∃ u, w.setPte d n e = .ok ({ d with pages := d.pages + now }, u) ∧
        GoesOn w u (((w.pub.mem.zeroRange ka (ka + 4096)).putBytes la word).putBytes da
            (leBytes 8 (1 + 2 * now + 2 ^ 32 * k)))
          [w.reg Reg.CACHE_FREE_HEAD, w.reg Reg.CACHE_FREE_FRAMES, if w.pool.nodes ≤ next then 2 ^ 32 - 1 else next,
            w.reg Reg.CACHE_FREE_NODES - 1, w.reg Reg.CACHE_RETIRING] w.rel (w.changed ++ [n])))

/-- The frame a written page gets: a new one where it has none, its own where no other entry names that, it is not fenced and
COW_ALWAYS is clear, and else a new one for a copy, COPIED set and the old one released; a page dropped loses its entry and releases
its frame (R212, R216, R218, R219, R221). That the copy's entry keeps DRAFT is the model's choice (log 26). -/
def PageFramed : Prop :=
  ∀ (w : Work) (d : Dsc) (n : Nat) (draft : Bool), w.badRead = none → w.pool.p < 16 →
    let r := w.pub.walkPage w.pool d.dir n
    let leaf := w.pub.memLe (w.pool.entryAt d.dir (n / 512)) 8 / 2 ^ 32
    let word := w.pub.memLe (w.pool.entryAt leaf (n % 512)) 8
    let same := fun (u : Work) => GoesOn w u w.pub.mem (lists w) w.rel w.changed
    (r.1 = 4 → (∃ u, same u ∧ w.pageFrame d n draft = (do
        let (f, v) ← u.takeFrame
        let (d, v) ← v.setPte d n (some (f, draft, false))
        .ok ((f, .fresh), d, v))) ∧ ∃ u, same u ∧ Work.dropPage (d, w) n = .ok (d, u)) ∧
    (r.1 = 0 → seen w (w.pool.fteAt r.2) 8 →
      let e := frameEntry w r.2
      (e.refcnt = 1 ∧ e.fenced = false ∧ w.pool.cow = false → ∃ u, same u ∧ w.pageFrame d n draft = .ok ((r.2, .inPlace), d, u)) ∧
      (¬ (e.refcnt = 1 ∧ e.fenced = false ∧ w.pool.cow = false) → ∃ u, same u ∧ w.pageFrame d n draft = (do
        let (g, v) ← u.takeFrame
        let (d, v) ← v.setPte d n (some (g, bitOf word 1, true))
        let v ← v.release r.2
        .ok ((g, .copyOf r.2), d, v))) ∧
      ∃ u, same u ∧ Work.dropPage (d, w) n = (do
        let (d, v) ← u.setPte d n none
        let v ← v.release r.2
        .ok (d, v))) ∧
    (r.1 ≠ 0 → r.1 ≠ 4 → ∃ u : Work, w.pageFrame d n draft = u.fail 0x38 ∧ u.data.mem = w.data.mem)
end Sys2Proof.Claims

section
open Sys2Proof Sys2Proof.Machine Sys2Proof.Claims
/-- A cache command whose checks pass ends OK in the state its publication leaves. The descriptor it publishes is: of an APPEND to a
live sequence LEN (of a draft DLEN) grown by N where ADVANCE is set and WTOP at least one past its last row; of an APPEND that opens
a sequence a live one of its pool and tag with a new directory, WTOP N and LEN, or of a draft DLEN, 0 or N; of a FORK a live one
of LEN and WTOP PREFIX with its origin; of a COMMIT LEN grown by N_ACC, DLEN 0 and WTOP LEN; of a FREE an invalid one, or LEN and
WTOP FROM and DLEN 0; each with the command's postmark. LIVE_SEQS counts the sequences that open and
that a FREE from 0 closes. A FREE of a sequence that is not live ends OK and writes nothing; a descriptor outside the windows, or a
live one whose directory is no node of the pool, ends a command WINDOW_FAULT with memory as it was (R199, R202). While
the cache unit is not ON a command ends POOL_OFF (R207, R396; Tables 8.9 and 8.10). Of what a command publishes on its way: a frame
is taken from the head of the free list or the command ends NO_FRAME; a released reference subtracts 1 and fences the frame, which
retires at 0; a shared one adds 1 or ends REFCOUNT_FULL at 65,535; a page entry is written with its directory's, with a zeroed node
where it has no leaf, or the command ends NO_NODE; a written page gets a new frame, its own or a copy (R199, R212, R215, R216, R218,
R219, R220, R221). An error to a read of its structures ends it
WINDOW_FAULT with nothing published; a row transaction that fails is tried again, up to three times, and the command then ends as
it would have, or FAULTED where the third replay failed too, its replays counted. So does an error to what a command had read or
written before one of its checks ended it with another status, which publishes nothing (R207, R209, R335, R367). -/
def Obligations.CacheCommandPublishes : Prop :=
  ∀ (s : State) (q : Queue) (ans : CacheAnswer) (c : Cmd) (x : Instr × Nat), x ∈ cacheCommands q ans → OnTurn s q.toNat x.2 c →
    PortFree s unitWho →
    let t := tenOfQueue c.queue
    s.receiptUse t < Config.receiptShare →
    (s.domOn domKVC = false → ∃ u, exec x.1 s = .next u ∧ Ended s c 0x30 u) ∧
    (∀ p w, ans = .ok → s.domOn domKVC = true → s.poolOf t (cmdBits c.bytes 0x18 15 0) = .ok p → s.forkBad t p c.bytes = false →
      s.cacheBody p c.bytes ans = .ok w →
      let seq := if x.2 = 3 then cmdBits c.bytes 0x18 31 16 else cmdBits c.bytes 0x18 15 0
      let src := cmdBits c.bytes 0x18 15 0
      let d := descriptor s p seq
      let n := cmdBits c.bytes 0x1C 29 13
      let grow := if bitOf c.bytes.toNat (8 * 0x18 + 28) then n else 0
      let draft := bitOf c.bytes.toNat (8 * 0x18 + 29)
      let from_ := cmdBits c.bytes 0x1C 21 0
      ∃ u, exec x.1 s = .next u ∧ Ended w.publish c 0 u ∧
        (∀ y, OutsideFrames s y → w.publish.mem.byte y = w.pub.mem.byte y) ∧
        ((x.2 ≠ 5 ∨ d.live = true) → ∃ D : Dsc, w.pub.mem.bytes ((s.pool p).descAt seq) 64 = D.bytes ∧
          D.seqno = cmdSeqno c.bytes ∧ D.sub = cmdSubmitter c.bytes ∧
          (x.2 = 2 → d.live = true → draft = false → D.live = true ∧ D.len = d.len + grow ∧ D.dlen = 0 ∧ D.wtop = max d.wtop (d.len + n)) ∧
          (x.2 = 2 → d.live = true → draft = true → D.live = true ∧ D.len = d.len ∧ D.dlen = d.dlen + grow ∧
            D.wtop = max d.wtop (d.len + d.dlen + n)) ∧
          (x.2 = 2 → d.live = false → D.live = true ∧ D.pool = p ∧ D.dir = s.reg Reg.CACHE_NODE_HEAD p ∧ D.tag = cmdBits c.bytes 0x38 31 0 ∧
            D.wtop = n ∧ D.len = (if draft = true then 0 else grow) ∧ D.dlen = (if draft = true then grow else 0)) ∧
          (x.2 = 3 → D.live = true ∧ D.dir = s.reg Reg.CACHE_NODE_HEAD p ∧ D.len = from_ ∧ D.wtop = from_ ∧ D.dlen = 0 ∧ D.forked = true ∧ D.origin = src) ∧
          (x.2 = 4 → D.live = true ∧ D.len = d.len + cmdBits c.bytes 0x18 20 16 ∧ D.dlen = 0 ∧ D.wtop = D.len) ∧
          (x.2 = 5 → from_ = 0 → D.live = false) ∧
          (x.2 = 5 → from_ ≠ 0 → D.live = true ∧ D.len = from_ ∧ D.dlen = 0 ∧ D.wtop = from_)) ∧
        (x.2 = 5 → d.live = false → w.pub.mem = s.mem) ∧
        w.publish.reg Reg.CACHE_LIVE_SEQS p = (if (x.2 = 2 ∨ x.2 = 3) ∧ d.live = false then (s.reg Reg.CACHE_LIVE_SEQS p + 1) % 2 ^ 17
          else if x.2 = 5 ∧ from_ = 0 ∧ d.live = true then s.reg Reg.CACHE_LIVE_SEQS p - 1 else s.reg Reg.CACHE_LIVE_SEQS p)) ∧
    (∀ p, ans = .ok → s.domOn domKVC = true → s.poolOf t (cmdBits c.bytes 0x18 15 0) = .ok p → s.forkBad t p c.bytes = false →
      let at_ := (s.pool p).descAt (cmdBits c.bytes 0x18 15 0)
      let d := descriptor s p (cmdBits c.bytes 0x18 15 0)
      s.spanInWindow (s.pool p).t at_ 64 = false ∨ (d.live = true ∧ (s.pool p).nodes ≤ d.dir) →
      ∃ v u, exec x.1 s = .next u ∧ Ended v c 0x38 u ∧ v.mem = s.mem) ∧
    (∀ p w (stop : Option Nat), s.domOn domKVC = true → s.poolOf t (cmdBits c.bytes 0x18 15 0) = .ok p →
      s.forkBad t p c.bytes = false →
      s.cacheBody p c.bytes ans = (match stop with | none => .ok w | some st => .error (st, w)) →
      (∀ st, stop = some st → ans = .ok → ∃ v u, exec x.1 s = .next u ∧ Ended v c st u ∧ v.mem = w.data.mem) ∧
      (∀ e a, ans = .structError e → w.reads[e.k]? = some a →
        ∃ v u, exec x.1 s = .next u ∧ Ended v c 0x38 u ∧ v.mem = w.data.mem ∧ Raised u pgMPORT 0) ∧
      (∀ e times a, ans = .rowError e times → w.rows[e.k]? = some a →
        ∃ v u, exec x.1 s = .next u ∧
          (times.toNat < 3 → Ended v { c with replays := c.replays + times.toNat + 1 } (stop.getD 0) u) ∧
          (times.toNat = 3 → Ended v { c with replays := c.replays + 3 } 0x40 u)))
  ∧
    FramesMove ∧ EntryWritten ∧ PageFramed
end

namespace Sys2Proof.Claims
open Sys2Proof.Machine

/-- The channels of the memory port are as they were, but for credits spent (R323). -/
def Spent (s t : State) : Prop := ∀ n, ∃ k, k ≤ (s.chan n).credits ∧ t.chan n = { s.chan n with credits := k }

/-- Nothing differs but registers, event state, meters and credits spent. -/
def BesideCounts (s t : State) : Prop := Spent s t ∧
  ({ t with regs := [], ctl := {}, meter := {}, mport := { t.mport with chans := [] } } : State) =
  { s with regs := [], ctl := {}, meter := {}, mport := { s.mport with chans := [] } }

/-- Nothing differs but arrays, registers, event state, meters, credits spent and the accepted commands. -/
def BesideLoads (s t : State) : Prop := Spent s t ∧
  ({ t with arrs := [], regs := [], ctl := {}, meter := {}, disp := { t.disp with cmds := [] }, mport := { t.mport with chans := [] } } : State) =
  { s with arrs := [], regs := [], ctl := {}, meter := {}, disp := { s.disp with cmds := [] }, mport := { s.mport with chans := [] } }

/-- Some contribution of an ordered command of queue `q` is being released but has not been sent (R330). -/
def Releasing (s : State) (q : Nat) : Prop :=
  ∃ x ∈ s.mport.staged, x.begun = true ∧ x.released = false ∧ ∃ y, s.cmd x.cid = some y ∧ y.queue = q ∧ y.ordered = true

/-- The array can take a load up at once: its group is ON, no task is on it, no other load waits on it and no task of an earlier
command of the queue is to run on it. -/
structure Ready (s : State) (c : Cmd) (a : Nat) : Prop where
  on : s.arrOn a = true
  task : (s.arr a).task = none
  loads : (s.arr a).loads = []
  first : s.earlierTasks a c.cid = false

/-- `i` gives load `x` of command `c` to the arrays `l`: where all of them are ready each takes it up and the command ends with OK; where
each holds a task the load waits behind the others on each, and the command waits for all of them (R128, R293). -/
def GivesLoad (i : Instr) (s : State) (c : Cmd) (l : List Nat) (x : BoundaryLoad) : Prop :=
  ((∀ a ∈ l, Ready s c a) → ∃ v u, exec i s = .next u ∧ Ended v c 0 u ∧ BesideLoads s v ∧
    v.disp.cmds.filter (fun y => y.cid != c.cid) = s.disp.cmds.filter (fun y => y.cid != c.cid) ∧
    ∀ a, v.arr a = if a ∈ l then (s.arr a).applyLoad x else s.arr a) ∧
  (l ≠ [] → (∀ a ∈ l, (s.arr a).task ≠ none) → ∃ u, exec i s = .next u ∧ BesideLoads s u ∧
    u.cmd c.cid = some { c with phase := .loading, left := l } ∧
    ∀ a, u.arr a = if a ∈ l then { s.arr a with loads := (s.arr a).loads ++ [x] } else s.arr a)

/-- Every line of a range that a unit reads or writes is answered OK: the answer of the row names none of them. -/
abbrev LinesOK (ans : PortAnswer) (a n : Nat) : Prop := answered ans (linesOf a n) = none

/-- `i` ends command `c` with a status and changes nothing but counts, records and events before. -/
def EndsWith (i : Instr) (s : State) (c : Cmd) (status : Nat) : Prop :=
  ∃ v u, exec i s = .next u ∧ Ended v c status u ∧ BesideCounts s v
end Sys2Proof.Claims

section
open Sys2Proof Sys2Proof.Machine Sys2Proof.Claims
/-- A LOAD_PROGRAM that Brillar rejects changes no routine and ends with the status of Table 10.13, LAST_LOAD recording the reason and
LOAD_REJECT raised. One that it accepts publishes the translation under its number at a free run of library RAM, owned by the loading
tenancy, of the kind and NARROW_OK of the header, and leaves every other routine; it ends OK, counts in LOAD_CNT and raises LOAD_DONE
(R256, R257, R258). While a channel that the image comes through has no credit or tag the row takes no effect, and its request waits
there (R323, R333); that the whole row waits is the model's choice (log 8). The order in which the checks are made is the model's
reading (log 24). -/
def Obligations.LoadProgramPublishesOrRejects : Prop :=
  ∀ (s : State) (q : Queue) (ans : PortAnswer) (c : Cmd), OnTurn s q.toNat 0x06 c →
    let t := tenOfQueue c.queue
    let r := cmdBits c.bytes 0x18 9 0
    let addr := cmdBits c.bytes 0x20 47 0
    let len := cmdBits c.bytes 0x28 31 0
    let img := s.mem.bytes addr len
    let mayLoad := 256 ≤ r ∧ ((s.routine r).kind = 0 ∨ (s.routine r).owner = t)
    let readable := s.spanInWindow t addr len = true ∧ LinesOK ans addr len
    let records := fun (v : State) (status reason : Nat) => v.reg Reg.LIB_LL_ROUTINE t = r ∧ v.reg Reg.LIB_LL_QUEUE t = c.queue ∧
      v.reg Reg.LIB_LL_STATUS t = status ∧ v.reg Reg.LIB_LL_REASON t = reason ∧ v.flag Reg.LIB_LL_VALID t = true
    let rejects := fun (status reason : Nat) => ∃ v u, exec (.loadProgram q ans) s = .next u ∧ Ended v c status u ∧ BesideCounts s v ∧
      records v status reason ∧ Raised v pgLIB 1
    (mayLoad → s.spanInWindow t addr len = true → (∀ e ∈ s.mport.chans, e.2.asked unitWho = false) →
      (∃ l ∈ linesOf addr len, (s.chan (chanOfAddr l)).full = true) →
      let asks := fun (x : MemChan) =>
        { x with wait := x.wait ++ [{ kind := 0, addr := 0, size := 64, ten := 0, cls := 0, owner := .row unitWho }] }
      ∃ u, exec (.loadProgram q ans) s = .next u ∧
        ({ u with mport := { u.mport with chans := [] } } : State) = { s with mport := { s.mport with chans := [] } } ∧
        (∀ n, u.chan n = s.chan n ∨ (s.chan n).full = true ∧ u.chan n = asks (s.chan n)) ∧
        ∀ l ∈ linesOf addr len, (s.chan (chanOfAddr l)).full = true → u.chan (chanOfAddr l) = asks (s.chan (chanOfAddr l))) ∧
    (PortFree s unitWho →
    (r < 256 → rejects 0x20 10) ∧
    (256 ≤ r → (s.routine r).kind ≠ 0 → (s.routine r).owner ≠ t → rejects 0x21 10) ∧
    (mayLoad → ¬ readable → rejects 0x24 8) ∧
    (∀ n, mayLoad → readable → checkImage img = .error n → rejects (if n = 2 then 0x23 else 0x22) n) ∧
    (∀ l, mayLoad → readable → checkImage img = .ok l → s.ramFind (ramSize (translateImage l)) = none → rejects 0x25 9) ∧
    (∀ l b, mayLoad → readable → checkImage img = .ok l → s.ramFind (ramSize (translateImage l)) = some b →
      (∀ e ∈ s.ramUsed, e.1 + e.2 ≤ b ∨ b + ramSize (translateImage l) ≤ e.1) ∧
      ∃ v u, exec (.loadProgram q ans) s = .next u ∧ Ended v c 0 u ∧ records v 0 0 ∧ Raised v pgLIB 0 ∧
        v.reg Reg.LIB_LOAD_CNT = min (s.reg Reg.LIB_LOAD_CNT + 1) (2 ^ 32 - 1) ∧
        Spent s v ∧
        ({ v with regs := [], ctl := {}, meter := {}, disp := { v.disp with lib := [], libVersion := 0 }
                  mport := { v.mport with chans := [] } } : State) =
          { s with regs := [], ctl := {}, meter := {}, disp := { s.disp with lib := [], libVersion := 0 }
                   mport := { s.mport with chans := [] } } ∧
        (let x := v.routine r
         let flags := leNat ((img.drop 0x0C).take 4)
         x.kind = (if bitOf flags 0 then 2 else 1) ∧ x.narrowOk = bitOf flags 1 ∧ x.owner = t ∧ x.base = 0x100000 + b / 2 ∧
           x.words = translateImage l ∧ x.version = s.disp.libVersion + 1) ∧
        ∀ n, n ≠ r → (v.routine n).kind = (s.routine n).kind ∧ (v.routine n).owner = (s.routine n).owner ∧
          (v.routine n).words = (s.routine n).words ∧ (v.routine n).base = (s.routine n).base))
end

section
open Sys2Proof Sys2Proof.Machine Sys2Proof.Claims
/-- A TABLE_LOAD, STREAM_ARM or READDRESS takes effect on each array of its range at the array's task boundary, at once on arrays that
run nothing, and ends OK when each has taken it up. An image that cannot be read ends it IMAGE_FAULT, a shared-store MOVE in a FREE
program BAD_ARGS, a reservation that does not fit NO_RATE, and a tenancy without usable arrays NO_ARRAYS, with no array changed (R127,
R128, R290, R292, R293). The order of these checks, and that a range left empty by clipping ends OK, are the model's reading (log 17). -/
def Obligations.BoundaryLoadTakesEffect : Prop :=
  ∀ (s : State) (q : Queue) (ans : PortAnswer) (c : Cmd),
    let t := tenOfQueue c.queue
    let addr := cmdBits c.bytes 0x20 47 0
    (OnTurn s q.toNat 0x07 c → PortFree s unitWho →
      let slots := (List.range 16).filter fun k => decide (6 ≤ k) && bitOf (cmdBits c.bytes 0x18 31 16) k
      let images := ((List.range slots.length).zip slots).map fun x => (x.2, wordsOf (s.mem.bytes (addr + 1152 * x.1) 1152))
      (¬ (s.spanInWindow t addr (1152 * slots.length) = true ∧ LinesOK ans addr (1152 * slots.length)) → ∃ v u,
        exec (.tableLoad q ans) s = .next u ∧ Ended v c 0x24 u ∧ BesideCounts s v ∧ v.reg Reg.FTAB_LAST_FAULT t = 1 ∧
        v.reg Reg.FTAB_LAST_FAULT 16 = 1 ∧ Raised v pgFTAB 1) ∧
      (s.spanInWindow t addr (1152 * slots.length) = true → LinesOK ans addr (1152 * slots.length) →
        GivesLoad (.tableLoad q ans) s c (s.usable t) (.tables c.cid (cmdBits c.bytes 0x18 1 0) images))) ∧
    (OnTurn s q.toNat 0x08 c → PortFree s unitWho →
      let image := wordsOf (s.mem.bytes addr 320)
      let free := bitOf (cmdBits c.bytes 0x18 31 0) 2
      let e := cmdBits c.bytes 0x18 1 0
      let arm : Arming :=
        { armed := true, free := free, slotCode := cmdBits c.bytes 0x1C 18 16, winSlots := cmdBits c.bytes 0x1C 25 20 + 1
          winBase := cmdBits c.bytes 0x28 19 0, rate := cmdBits c.bytes 0x2C 8 0, scope := cmdBits c.bytes 0x2C 10 9
          half := cmdBits c.bytes 0x2C 11 11, image := image }
      let l := s.armRange c
      (s.usable t = [] → EndsWith (.streamArm q ans) s c 0x41) ∧
      (s.usable t ≠ [] → ¬ (s.spanInWindow t addr 320 = true ∧ LinesOK ans addr 320) → EndsWith (.streamArm q ans) s c 0x24) ∧
      (s.usable t ≠ [] → s.spanInWindow t addr 320 = true → LinesOK ans addr 320 → free = true → sharedMove image = true →
        EndsWith (.streamArm q ans) s c 0x11) ∧
      (s.usable t ≠ [] → s.spanInWindow t addr 320 = true → LinesOK ans addr 320 → (free = true → sharedMove image = false) →
        s.armFits l e arm = false → EndsWith (.streamArm q ans) s c 0x26) ∧
      (s.usable t ≠ [] → s.spanInWindow t addr 320 = true → LinesOK ans addr 320 → (free = true → sharedMove image = false) →
        s.armFits l e arm = true → GivesLoad (.streamArm q ans) s c l (.arm c.cid e arm))) ∧
    (OnTurn s q.toNat 0x09 c →
      (s.usable t = [] → EndsWith (.readdress q) s c 0x41) ∧
      (s.usable t ≠ [] → GivesLoad (.readdress q) s c (s.armRange c)
        (.readdress c.cid (cmdBits c.bytes 0x18 1 0) (readdressVals c.bytes))))
end

section
open Sys2Proof Sys2Proof.Machine Sys2Proof.Claims
/-- A RUN is refused before it forms a task: BAD_ROUTINE for a routine that is no entry routine or another tenancy's, BAD_ARGS for an
argument block over 4,096 bytes, NO_ARRAYS where no array serves, IMAGE_FAULT where the block cannot be read. A RUN of a tenancy's
routine forms TASKS tasks, or one for each serving array where TASKS is 0 or it is collective, and gives task i the serving array
i, modulo their number (R278, R279, R434). A vendor routine's is BAD_ARGS where ARG_LEN is no whole number of records, an ID is
unknown, a parameter is lacking, or a check of its chapter fails, of the forward and decode routines among others D, GROUP, TAU, CAP,
P_FMT, MODE or NENTRIES outside its values (R261, R132, R226), and BAD_SEQ where an entry of an attention routine names a sequence of
no pool or a plane that its pool lacks (R205); else it forms its plan of tasks, numbered from 0 and each on a serving array, and
notes its outputs. An error to what the forming reads ends it WINDOW_FAULT or IMAGE_FAULT: the model's reading (log 33). -/
def Obligations.RunFormsTasks : Prop :=
  ∀ (s : State) (q : Queue) (ans : PortAnswer) (c : Cmd), OnTurn s q.toNat 0x01 c → PortFree s unitWho →
    let t := tenOfQueue c.queue
    let r := cmdBits c.bytes 0x18 9 0
    let len := cmdBits c.bytes 0x1C 12 0
    let addr := cmdBits c.bytes 0x20 47 0
    let coll := cmdCollective c.bytes
    let runnable := s.routineKind r = 1 ∧ s.mayUse t r = true
    let l := parseArgs 256 (s.mem.bytes addr len)
    let readable := s.spanInWindow t addr len = true ∧ LinesOK ans addr len
    let entries := s.spanInWindow t (entriesOf l).1 (32 * (entriesOf l).2) = true ∧
      LinesOK (answerPast (linesOf addr len).length ans) (entriesOf l).1 (32 * (entriesOf l).2)
    (¬ runnable → EndsWith (.run q ans) s c 0x20) ∧
    (runnable → 4096 < len → EndsWith (.run q ans) s c 0x11) ∧
    (runnable → len ≤ 4096 → s.noArrays t r coll = true → EndsWith (.run q ans) s c 0x41) ∧
    (runnable → len ≤ 4096 → s.noArrays t r coll = false → ¬ readable → EndsWith (.run q ans) s c 0x24) ∧
    (runnable → len ≤ 4096 → s.noArrays t r coll = false → readable →
      ¬ entries → EndsWith (.run q ans) s c 0x24) ∧
    (runnable → len ≤ 4096 → s.noArrays t r coll = false → readable → 256 ≤ r → entries →
      let el := s.eligible t r
      let asked := cmdBits c.bytes 0x1C 31 16
      let n := if asked = 0 ∨ coll = true then el.length else asked
      ∃ u c', exec (.run q ans) s = .next u ∧ u.cmd c.cid = some c' ∧ c'.phase = .running ∧ c'.tasks = n ∧ c'.routine = r ∧
        c'.collective = coll ∧ c'.ordered = false ∧ c'.bytes = c.bytes ∧ c'.plans.length = n ∧
        (∀ i, i < n → ∃ p, c'.plans[i]? = some p ∧ p.index = i ∧ some p.array = el[i % el.length]? ∧ p.after = []) ∧
        u.disp.cmds.filter (fun y => y.cid != c.cid) = s.disp.cmds.filter (fun y => y.cid != c.cid) ∧
        BesideLoads s u ∧ ∀ a, u.arr a = s.arr a) ∧
    (runnable → len ≤ 4096 → s.noArrays t r coll = false → readable → r < 256 → entries →
      let at_ := (entriesOf l).1
      let size := 32 * (entriesOf l).2
      let bs := s.mem.bytes at_ size
      let es := entryRecs bs
      let names := if r = 2 then snapNames es else []
      let v := ((s.unitRead t addr len ans).1.unitRead t at_ size (answerPast (linesOf addr len).length ans)).1
      let x : Batch := { t := t, routine := r, l := l, es := es, snaps := (v.takeSnaps t names).toOption.getD [] }
      let draws := if argOf l 0x59 = none then 0 else 1
      let rest := answerPast ((linesOf addr len).length + (linesOf at_ size).length) ans
      let descs := v.snapReads t names
      let w := descs.foldl (fun (s : State) a => s.chargeRead t a 64) (if argOf l 0x59 = none then v else v.drew)
      let reads := if r ≤ 2 then x.formReads w else []
      let ends := fun (status : Nat) => ∃ y u, exec (.run q ans) s = .next u ∧ Ended y c status u ∧
        BesideCounts { s with freeCtr := s.freeCtr + draws } y
      let lacks := len % 16 ≠ 0 ∨ (∃ z ∈ l, knownArg z.1 = false) ∨ (∃ id ∈ requiredArgs r l ++ optionArgs r l, argOf l id = none)
      let num := fun (id dflt : Nat) => BitVec.ofNat 32 (argW l id dflt)
      let outside := argW l 0x03 0 ∉ [32, 64, 96, 128, 192, 256, 512] ∨ argW l 0x04 1 = 0 ∨ 16 < argW l 0x04 1 ∨
        isFinite32 (num 0x05 0) = false ∨ flt 0 (num 0x05 0) = false ∨ isFinite32 (num 0x0A 0) = false ∨ flt (num 0x0A 0) 0 = true ∨
        argW l 0x02 1 ∉ [1, 2, 3, 4] ∨ 2 < argW l 0x01 0 ∨ argW l 0x61 0 = 0 ∨ 4096 < argW l 0x61 0 ∨ ∃ e ∈ es, e.qLen = 0 ∨ 2097152 < e.qLen
      let noSource := r ≤ 3 ∧ ∃ e ∈ es, e.kind = 2 ∧ ∀ p, s.poolOf t e.seq = .ok p → (s.pool p).planes ≤ e.plane
      BesideCounts s v ∧
      (lacks → ends 0x11) ∧ ((r = 0 ∨ r = 2) → outside → ends 0x11) ∧ (vendorBad x v = true → ends 0x11) ∧
      (¬ lacks → vendorBad x v = false → noSource → ends 0x31) ∧
      (¬ lacks → vendorBad x v = false → ¬ noSource →
        (answered rest descs ≠ none → ends 0x38) ∧
        (answered rest descs = none → answered (answerPast descs.length rest) ((memLines reads).filter (w.inWindow t)) ≠ none → ends 0x24) ∧
        (answered rest descs = none → answered (answerPast descs.length rest) ((memLines reads).filter (w.inWindow t)) = none →
          let plans := x.plans w (s.eligible t r)
          (∀ (i : Nat) (p : Plan), plans[i]? = some p → p.index = i ∧ p.array ∈ s.eligible t r) ∧
          (plans ≠ [] → ∃ u c', exec (.run q ans) s = .next u ∧ u.cmd c.cid = some c' ∧ c'.phase = .running ∧ c'.plans = plans ∧
            c'.tasks = plans.length ∧ c'.routine = r ∧ c'.outs = x.outRanges ∧ c'.entries = bs ∧ c'.snaps = snapNames es ∧
            (c'.ordered = true ↔ r = 1 ∧ argW l 0x46 0 = 1) ∧ (c'.mergeIn = true ↔ (r = 0 ∨ r = 2) ∧ argW l 0x42 0 = 1) ∧ c'.bytes = c.bytes ∧
            u.disp.cmds.filter (fun y => y.cid != c.cid) = s.disp.cmds.filter (fun y => y.cid != c.cid) ∧
            BesideLoads { s with freeCtr := s.freeCtr + draws } u ∧ ∀ a, u.arr a = s.arr a))))
end

section
open Sys2Proof Sys2Proof.Machine Sys2Proof.Claims
/-- SAVE writes its tenancy's parcel at PARCEL_ADDR once every earlier command's tasks have sealed or ended, and ends PARCEL_FAULT
where the parcel exceeds PARCEL_MAX, leaves the windows or meets an error; RESTORE installs a parcel that checks, and ends
PARCEL_FAULT with nothing changed otherwise; until then each stays (R286, R349, R350). What it installs: the user tables, ACTIVE and
the stream arming of each usable array, those of usable index i modulo the saved number; the pool records, their EN clear; the
letterboxes, the rest of the range 0; the meter counters, MEPOCH one past the larger; each saved postmark record that the tenancy has
a record for, the RESTORE's own entry kept; and empty mailbags (R351, R353). Where fields stand in the records is the model's choice
(log 30). The clause on what stands after it is for a state in which no receive channel holds a packet, which could land at once. -/
def Obligations.SaveAndRestoreParcel : Prop :=
  ∀ (s : State) (q : Queue) (ans : PortAnswer) (c : Cmd),
    let t := tenOfQueue c.queue
    let a := cmdBits c.bytes 0x20 47 0
    let own := (cmdSubmitter c.bytes, cmdSeqno c.bytes)
    PortFree s unitWho →
    (OnTurn s q.toNat 0x0B c → (s.earlierDone c = false → exec (.save q ans) s = .next s) ∧
      (s.earlierDone c = true →
        let bs := s.parcel t own.1 own.2
        let fits := bs.length ≤ cmdBits c.bytes 0x28 31 0 ∧ s.spanInWindow t a bs.length = true ∧ LinesOK ans a bs.length
        (fits → ∃ v u, exec (.save q ans) s = .next u ∧ Ended v c 0 u ∧
          (∀ x, v.mem.byte x = if a ≤ x ∧ x < a + bs.length then bs.getD (x - a) 0 else s.mem.byte x) ∧
          ({ v with regs := [], meter := {}, mem := [], mport := { v.mport with chans := [] } } : State) =
            { s with regs := [], meter := {}, mem := [], mport := { s.mport with chans := [] } }) ∧
        (¬ fits → ∃ v u, exec (.save q ans) s = .next u ∧ Ended v c 0x42 u ∧
          (∀ x, (x < a ∨ a + bs.length ≤ x ∨ s.inWindow t x = false) → v.mem.byte x = s.mem.byte x) ∧
          ({ v with regs := [], ctl := {}, meter := {}, mem := [], freeCtr := 0, mport := { v.mport with chans := [] } } : State) =
            { s with regs := [], ctl := {}, meter := {}, mem := [], freeCtr := 0, mport := { s.mport with chans := [] } }))) ∧
    (OnTurn s q.toNat 0x0C c → (s.earlierDone c = false → exec (.restore q ans) s = .next s) ∧
      (s.earlierDone c = true →
        let len := s.mem.le (a + 0x20) 4
        let bs := s.mem.bytes a len
        let checks := s.spanInWindow t a 128 = true ∧ LinesOK ans a 128 ∧ 160 ≤ len ∧ s.spanInWindow t a len = true ∧
          LinesOK (answerPast (linesOf a 128).length ans) (a + 128) (len - 128) ∧
          parcelHead bs = true ∧ s.parcelSealed t bs = true ∧ s.parcelFits t bs = true
        (¬ checks → EndsWith (.restore q ans) s c 0x42) ∧
        (checks → (∀ x ∈ allChans, (s.recvChan x.1 x.2).stash = []) →
          let l := s.usable t
          let n := leNat ((bs.drop 0x0C).take 4) / 2 ^ 16 % 2 ^ 11
          let image := fun (k : Nat) => wordsOf (((parcelPart bs 0).drop (1152 * k)).take 1152)
          let stream := fun (j e : Nat) => (((parcelPart bs 4).drop (1344 * j)).drop (336 * e)).take 336
          let record := fun (i : Nat) => leNat (((parcelPart bs 2).drop (64 * i)).take 64)
          let place := fun (k : Nat) => ((poolPack.take k).map (·.2.2)).foldl (· + ·) 0
          let saved := fun (k : Nat) => ((parcelPart bs 6).drop (1040 * k)).take 1040
          let id := fun (k : Nat) => leNat ((saved k).take 2)
          let meter := fun (i : Nat) => leNat (((parcelPart bs 5).drop (8 * i)).take 8)
          ∃ v u, exec (.restore q ans) s = .next u ∧ Ended v c 0 u ∧ v.mem = s.mem ∧
          (∀ i a, l[i]? = some a →
            (v.arr a).banks.active = bitOf (leNat (parcelPart bs 1)) (i % max n 1) ∧
            (∀ k, k < 20 → Tbl.get {} (v.arr a).banks.user (16 * (k / 10) + 6 + k % 10) =
              if imgSteps (image k) = 0 ∧ imgSegs (image k) = 0 then {} else { words := maskImage (image k) }) ∧
            (∀ e, e < 4 → (v.arr a).eng e = if n = 0 then (s.arr a).eng e else engineFrom (stream (i % max n 1) e))) ∧
          (∀ i p, i < (parcelPart bs 2).length / 64 → (s.poolsOf t)[i]? = some p → v.flag Reg.CACHE_EN p = false ∧ v.reg Reg.CACHE_RETIRING p = 0 ∧
            ∀ k f, poolPack[k]? = some f → f.1.id ≠ Reg.CACHE_ERR_QUEUE.id →
              v.reg f.1 p = record i / 2 ^ place k % 2 ^ f.2.2 * 2 ^ f.2.1) ∧
          (∀ k i, k < (parcelPart bs 6).length / 1040 → (∀ k', k' < (parcelPart bs 6).length / 1040 → k' ≠ k → id k' ≠ id k) →
            (s.subsOf t).find? (fun i => s.reg Reg.DSP_SUB_ID i == id k) = some i →
            let entries := ((List.range 64).filterMap fun j => winEntryFrom (((saved k).drop (16 + 16 * j)).take 16))
            (v.subRec i).hc = leNat (((saved k).drop 2).take 6) ∧ (v.subRec i).floor = leNat (((saved k).drop 8).take 6) ∧
            (id k ≠ own.1 → (v.subRec i).window = entries) ∧
            (id k = own.1 → ∀ e ∈ (s.subRec i).window, e.seqno = own.2 → e ∈ (v.subRec i).window)) ∧
          (∀ i, (∀ k, k < (parcelPart bs 6).length / 1040 → s.reg Reg.DSP_SUB_ID i ≠ id k) → v.subRec i = s.subRec i) ∧
          (let x := v.acct t
           x.beats = meter 0 ∧ x.frozen = meter 1 ∧ x.memBytes = meter 2 ∧ x.ringBytes = meter 3 ∧ x.energyUj = 1000 * meter 4 ∧
             x.commands = meter 5 ∧ x.readSeq = meter 6 / 2 ^ 32) ∧
          (∀ m, s.bagOf t m = true → v.bag m = {}) ∧ (∀ m, s.bagOf t m = false → v.bag m = s.bag m) ∧
          (∀ i, InRange s t Reg.TEN_LB_FIRST Reg.TEN_LB_SIZE i →
            (v.lb (s.reg Reg.TEN_LB_FIRST t + i)).toNat = leNat (((parcelPart bs 3).drop (4 * i)).take 4)) ∧
          (v.acct t).mepoch = (max (s.acct t).mepoch (leNat (((parcelPart bs 5).drop 48).take 8) % 2 ^ 16) + 1) % 2 ^ 16 ∧
          (∀ b, b ∉ s.usable t → (unlatched v).arr b = (unlatched s).arr b) ∧ v.conds = s.conds ∧ v.doms = s.doms ∧ Spent s v)))
end

namespace Sys2Proof.Claims
open Sys2Proof.Machine

/-- Nothing differs but registers, event state, memory and the transactions of its channels, the shared store, ring ports, meters, the
count of free values drawn, which arrays' letterbox waits have been met, letterboxes and mailbags. -/
def BesideReport (s t : State) : Prop :=
  ({ unlatched t with regs := [], ctl := {}, mem := [], shared := [], ring := [], meter := {}, freeCtr := 0
                      disp := { t.disp with lbx := [], mbx := [] }, mport := { t.mport with chans := [] } } : State) =
  { unlatched s with regs := [], ctl := {}, mem := [], shared := [], ring := [], meter := {}, freeCtr := 0
                     disp := { s.disp with lbx := [], mbx := [] }, mport := { s.mport with chans := [] } }

/-- `v` is `s` with the head taken from queue `q`, the round-robin moved past it and the command charged; events may have been raised.
Submitter records and the accepted commands are left open. -/
structure Taken (s : State) (q : Nat) (rest : List (BitVec 512 × Nat)) (v : State) : Prop where
  queue : (v.queue q).entries = rest
  others : ∀ p, p ≠ q → v.queue p = s.queue p
  turn : v.disp.rr = (q + 1) % 64
  commands : (v.acct (q / 4)).commands = ((s.acct (q / 4)).commands + 1) % 2 ^ 64
  frame : ({ v with regs := [], ctl := {}, meter := {}
                    disp := { v.disp with queues := [], rr := 0, subs := [], cmds := [], nextCid := 0 } } : State) =
    { s with regs := [], ctl := {}, meter := {}, disp := { s.disp with queues := [], rr := 0, subs := [], cmds := [], nextCid := 0 } }

/-- From `v`, a copy `b` that came through queue `q` is answered with a status (and ORIG_STATUS): its record is in memory where it asks
for one and its letterbox is posted where `posts` (R272, R274). -/
structure Answered (v : State) (q : Nat) (b : BitVec 512) (status orig : Nat) (posts : Prop) (u : State) : Prop where
  record : cmdStamp b = false ∨ ¬ posts → ∀ x, u.mem.byte x =
    if cmdCplAddr b ≠ 0 ∧ v.spanInWindow (q / 4) (cmdCplAddr b) 16 = true ∧ cmdCplAddr b ≤ x ∧ x < cmdCplAddr b + 16 then
      (leBytes 6 (cmdSeqno b) ++ leBytes 2 (cmdSubmitter b) ++ leBytes 4 (status + 2 ^ 8 * orig + 2 ^ 16 * q) ++
        leBytes 4 0).getD (x - cmdCplAddr b) 0
    else v.mem.byte x
  posted : posts → cmdAdd b ≠ 0 → v.lbxIn (q / 4) (cmdLbx b) = true →
    u.lb (v.lbxAbs (q / 4) (cmdLbx b)) = BitVec.ofNat 32 (min ((v.lb (v.lbxAbs (q / 4) (cmdLbx b))).toNat + cmdAdd b) (2 ^ 32 - 1))
  kept : ¬ posts → ∀ n, u.lb n = v.lb n
  rest : BesideReport v u
  silent : Silent b → u = v
end Sys2Proof.Claims

section
open Sys2Proof Sys2Proof.Machine Sys2Proof.Claims
/-- The dispatcher accepts the command at the head of the queue it reaches: one of no submitter of the tenancy is answered
BAD_SUBMITTER, one in the window ALREADY_DONE or IN_FLIGHT (which never posts), one at or below FLOOR STALE, one more than 64 in
flight WINDOW_FULL, none of them accepted; any other enters the window, evicting the lowest DONE entry of a full one, and ends
BAD_KIND or BAD_LBX or is dispatched. Nothing is accepted during hold, under DISP_PAUSE or with every queue empty or held (R272,
R273, R276). -/
def Obligations.AcceptanceFollowsPostmark : Prop :=
  ∀ (s : State) (q : Nat) (b : BitVec 512) (agent : Nat) (rest : List (BitVec 512 × Nat)),
    ((s.dispatching = false ∨ s.hold = true ∨ s.flag Reg.DSP_DISP_PAUSE = true ∨ s.nextQueue = none) → exec .commandAccept s = .next s) ∧
    (s.dispatching = true → s.hold = false → s.flag Reg.DSP_DISP_PAUSE = false → s.nextQueue = some q →
      (s.queue q).entries = (b, agent) :: rest →
      let seqno := cmdSeqno b
      let turned := fun (status orig : Nat) (posts : Prop) (more : State → Prop) => ∃ v u, exec .commandAccept s = .next u ∧
        Taken s q rest v ∧ v.disp.cmds = s.disp.cmds ∧ v.disp.subs = s.disp.subs ∧ v.disp.nextCid = s.disp.nextCid ∧ more v ∧
        Answered v q b status orig posts u
      ((∀ i, s.submitterRec (cmdSubmitter b) = some i → s.reg Reg.DSP_SUB_TEN i ≠ q / 4) → turned 0x12 0 True fun v => Raised v pgDSP 2) ∧
      (∀ i, s.submitterRec (cmdSubmitter b) = some i → s.reg Reg.DSP_SUB_TEN i = q / 4 →
        let r := s.subRec i
        (∀ e, r.window.find? (fun e => e.seqno == seqno) = some e →
          (e.done = true → turned 0x02 e.status True fun _ => True) ∧ (e.done = false → turned 0x03 0 False fun _ => True)) ∧
        ((∀ e ∈ r.window, e.seqno ≠ seqno) →
          (seqno ≤ r.floor → turned 0x13 0 True fun v => Raised v pgDSP 0) ∧
          (r.floor < seqno → 64 ≤ (r.window.filter fun e => !e.done).length → turned 0x14 0 True fun v => Raised v pgDSP 1) ∧
          (r.floor < seqno → (r.window.filter fun e => !e.done).length < 64 →
            ∃ v, Taken s q rest v ∧
              v.reg Reg.SUBQ_ACCEPTED q = min (s.reg Reg.SUBQ_ACCEPTED q + 1) (2 ^ 32 - 1) ∧ (∀ j, j ≠ i → v.subRec j = s.subRec j) ∧
              (r.window.length < 64 → (v.subRec i).floor = r.floor ∧
                (v.subRec i).window.map (·.seqno) = r.window.map (·.seqno) ++ [seqno]) ∧
              (64 ≤ r.window.length → ∃ low ∈ r.window, low.done = true ∧
                (∀ e ∈ r.window, e.done = true → low.seqno ≤ e.seqno) ∧ (v.subRec i).floor = max r.floor low.seqno ∧
                (v.subRec i).window.map (·.seqno) = (r.window.filter fun e => e.seqno != low.seqno).map (·.seqno) ++ [seqno]) ∧
              (let bad := fun (status : Nat) => v.disp.cmds = s.disp.cmds ∧ v.disp.nextCid = s.disp.nextCid ∧
                 (v.subRec i).hc = max r.hc seqno ∧ (v.subRec i).window.getLast? = some { seqno := seqno, done := true, status := status } ∧
                 ∃ u, exec .commandAccept s = .next u ∧ Answered v q b status 0 True u
               (0x0D < cmdKind b → bad 0x10) ∧
               (cmdKind b ≤ 0x0D → cmdAdd b ≠ 0 → s.lbxIn (q / 4) (cmdLbx b) = false → bad 0x15) ∧
               (cmdKind b ≤ 0x0D → (cmdAdd b = 0 ∨ s.lbxIn (q / 4) (cmdLbx b) = true) → exec .commandAccept s = .next v ∧
                 (v.subRec i).hc = r.hc ∧ (v.subRec i).window.getLast? = some { seqno := seqno, done := false, status := 0 } ∧
                 v.disp.nextCid = s.disp.nextCid + 1 ∧ ∃ c : Cmd, v.disp.cmds = s.disp.cmds ++ [c] ∧ c.cid = s.disp.nextCid ∧
                   c.queue = q ∧ c.agent = agent ∧ c.bytes = b ∧ c.sub = i ∧ c.phase = .waiting ∧ c.plans = [] ∧ c.status = 0 ∧ c.start = s.now ∧
                   (cmdKind b ≠ 0x0D → c.reading = []) ∧
                   (cmdKind b = 0x0D → c.reading.take 4 = leBytes 4 0x4D545231 ∧
                     (v.acct (q / 4)).readSeq = ((s.acct (q / 4)).readSeq + 1) % 2 ^ 32)))))))
end

section
open Sys2Proof Sys2Proof.Machine Sys2Proof.Claims
/-- The dispatcher gives the next ready task of the oldest running command of a queue that has one a receipt-log entry, with the
snapshots of its cache sources, and places it behind the others on the array its assignment gave it, while that array is eligible;
with no ready task, no free entry, or tasks of an earlier command of the tenancy still to enter that array nothing happens; a
snapshot whose read meets an error or leaves the windows ends the command WINDOW_FAULT (a sequence outside the tenancy's pools gives
no snapshot and ends nothing: R289); a command whose task has no array to go to, as the task of a collective one that cannot move,
ends FAULTED. That this is so for any command, and that the error comes before the other status, are the model's choices (logs 21
and 22; R205, R277, R278, R285, R366). -/
def Obligations.DispatchPlacesTask : Prop :=
  ∀ (s : State) (q : Queue) (ans : PortAnswer), PortFree s unitWho →
    let t := tenOfQueue q.toNat
    let next := s.disp.cmds.find? fun c => c.queue == q.toNat && c.phase == .running && c.readyPlan.isSome
    ((s.dispatching = false ∨ s.resets.ten = some t ∨ next = none ∨ s.freeEntry t = none) → exec (.taskDispatch q ans) s = .next s) ∧
    (∀ c p rid, s.dispatching = true → s.resets.ten ≠ some t → next = some c → s.cmd c.cid = some c → c.readyPlan = some p →
      s.freeEntry t = some rid →
      let found := answered ans (s.snapReads t c.snaps)
      let done := fun (status : Nat) => ∃ v u, exec (.taskDispatch q ans) s = .next u ∧ Ended v c status u ∧
        v.disp.cmds.filter (fun y => y.cid != c.cid) = s.disp.cmds.filter (fun y => y.cid != c.cid) ∧ Spent s v ∧
        ({ v with regs := [], ctl := {}, meter := {}, faults := [], disp := { v.disp with cmds := [] }
                  mport := { v.mport with chans := [] } } : State) =
          { s with regs := [], ctl := {}, meter := {}, faults := [], disp := { s.disp with cmds := [] }
                   mport := { s.mport with chans := [] } }
      let ends := s.tasksOf c.cid = [] ∧ c.faulted = false ∧ (∀ x ∈ s.mport.staged, x.cid ≠ c.cid) ∧ c.ordered = false
      (p.array ∈ s.eligible t c.routine → p.params.pos = 0 → s.placeOf c p = some p.array) ∧
      (∀ a, s.placeOf c p = some a → s.heldBehind c a = true → exec (.taskDispatch q ans) s = .next s) ∧
      (∀ a snaps, s.placeOf c p = some a → s.heldBehind c a = false → found = none → s.takeSnaps t c.snaps = .ok snaps →
        ∃ u e, exec (.taskDispatch q ans) s = .next u ∧ u.task rid = some e ∧ e.cid = c.cid ∧ e.ten = t ∧ e.queue = q.toNat ∧
          e.index = p.index ∧ e.tasks = c.tasks ∧ e.routine = c.routine ∧ e.params = p.params ∧ e.array = a ∧ e.state = 1 ∧
          e.attempt = 1 ∧ e.moved = false ∧ e.snaps = snaps ∧ e.s4 = indexOf (s.usable t) a ∧
          e.argAddr = cmdBits c.bytes 0x20 47 0 ∧ e.argLen = cmdBits c.bytes 0x1C 12 0 ∧
          (∀ r, r ≠ rid → u.task r = s.task r) ∧
          u.cmd c.cid = some { c with plans := c.plans.filter fun x => x.index != p.index } ∧
          (∀ b, u.arr b = if b = a then { s.arr b with placed := (s.arr b).placed ++ [rid] } else s.arr b) ∧
          Spent s u ∧
          ({ u with arrs := [], regs := [], meter := {}, disp := { u.disp with cmds := [], tasks := [] }
                    mport := { u.mport with chans := [] } } : State) =
            { s with arrs := [], regs := [], meter := {}, disp := { s.disp with cmds := [], tasks := [] }
                     mport := { s.mport with chans := [] } }) ∧
      (∀ a, s.placeOf c p = some a → s.heldBehind c a = false → ends →
        (found ≠ none → done 0x38) ∧ (∀ status, found = none → s.takeSnaps t c.snaps = .error status → done status)) ∧
      (s.placeOf c p = none → ends → done 0x40))
end

section
open Sys2Proof Sys2Proof.Machine Sys2Proof.Claims
/-- An array that runs no task starts the first of the tasks placed on it that may start. Before the first bundle ARG_LEN bytes of
the argument block, up to 4,096, stand at array-store address 0x000F_F000 with zeros behind them, S1 to S6 hold the values of R260,
every other program register, accumulator and feeder register is clear, and the sequencer is at the entry of the task's routine; the
array takes up its settings, its instruction queue begins with the first word of the entry (R253), and a replay begins with the bank
and the base registers that its first attempt began with (R360). A fault of the copy is a failed check of class MEMORY, at the
first start too: the model's choice (log 22; R237, R260, R434). -/
def Obligations.TaskStartsFromItsEntry : Prop :=
  ∀ (s : State) (a : Arr) (ans : PortAnswer) (rid : Nat) (t : Task),
    s.arrOn a.toNat = true → s.dispatching = true → s.extStop a.toNat = false → (s.arr a.toNat).abandon = none →
    s.task rid = some t →
    ((s.arr a.toNat).task = none ∧ (s.arr a.toNat).loads = [] ∧ (s.arr a.toNat).placed.find? (s.mayStart a.toNat) = some rid ∨
      (s.arr a.toNat).task = some rid ∧ t.state = 1) → Unarmed s → PortFree s unitWho →
    let n := min t.argLen 4096
    let block := s.mem.bytes t.argAddr n ++ List.replicate (4096 - n) (0 : Byte)
    let B := s.arr a.toNat
    (LinesOK ans t.argAddr n → ∃ u, exec (.taskStart a ans) s = .next u ∧
      (let A := u.arr a.toNat
       A.task = some rid ∧ A.regs = { ({} : ProgRegs) with s := A.regs.s } ∧
       (∀ r, A.sreg r = BitVec.ofNat 32 (match r with
          | 1 => 0x000FF000 | 2 => t.index | 3 => t.tasks | 4 => t.s4 | 5 => s.reg Reg.TEN_SS_BASE t.ten * 65536 | 6 => rid | _ => 0)) ∧
       (∀ x, A.store.byte x = if x < 0xFF000 ∨ 0x100000 ≤ x then (s.arr a.toNat).store.byte x
          else if x - 0xFF000 < n then s.mem.byte (t.argAddr + (x - 0xFF000)) else 0) ∧
       { A.seq with queue := [] } =
         ({ state := .running, routine := t.routine, entry := t.routine, version := t.version } : Sys2Proof.Machine.Seq) ∧
       ((s.routineWords t.routine t.version)[0]? ≠ none → (t.routine, 0) ∈ A.seq.queue) ∧
       A.acc = {} ∧ A.mv = { queryGen := t.cid * 2 ^ 32 + t.index } ∧ A.flight = [] ∧ A.stalled = [] ∧ A.frozenOn = [] ∧
       A.banks = { B.banks with active := if B.task = none then B.banks.active else B.began.1 } ∧
       (∀ e, e < 4 → (A.eng e).sb = if B.task = none then (B.eng e).sb else B.began.2.getD e []) ∧
       ((s.arr a.toNat).task = none → A.modes = s.arrModes a.toNat ∧ A.placed = (s.arr a.toNat).placed.filter fun r => r != rid) ∧
       ((s.arr a.toNat).task = some rid → A.modes = (s.arr a.toNat).modes)) ∧
      u.task rid = some { t with
        state := 2, jpos := 0, ended := false, failed := none, status := 0, caught := 0
        prior := none } ∧
      (∀ r, r ≠ rid → u.task r = s.task r) ∧ (∀ b, b ≠ a.toNat → u.arr b = s.arr b) ∧ u.mem = s.mem ∧ u.shared = s.shared) ∧
    (¬ LinesOK ans t.argAddr n → ∃ u e, exec (.taskStart a ans) s = .next u ∧ u.task rid = some e ∧ e.state = 3 ∧ e.failed = some 7 ∧
      (u.arr a.toNat).abandon = some 32 ∧ u.mem = s.mem)
end

namespace Sys2Proof.Claims
open Sys2Proof.Machine

/-- Command `c` with what the sealed task `t` of array `a` hands it: its status, its caught rows and its beats (R274, R437). -/
def sealedInto (c : Cmd) (a : Nat) (t : Task) : Cmd :=
  { c with
    sealedIdx := c.sealedIdx ++ [t.index], beats := c.beats + t.tbeats, info := c.info + t.caught
    status := if c.faulted then c.status else joinStatus c.status t.status
    awaiting := if c.ordered then c.awaiting ++ [(a, t.index)] else c.awaiting
    ranOn := c.ranOn ++ [(t.index, a)] }

/-- The arrays other than `a` that are eligible for a RUN of task `t`'s routine (R279, R365). -/
def elsewhere (s : State) (a : Nat) (t : Task) : List Nat := (s.eligible t.ten t.routine).filter fun b => b != a

/-- `b` is the array of a list with the least cost still to run, the lowest-numbered of those with as little (R365). -/
def Least (s : State) (l : List Nat) (b : Nat) : Prop :=
  b ∈ l ∧ ∀ d ∈ l, s.costOn b < s.costOn d ∨ s.costOn b = s.costOn d ∧ b ≤ d

/-- Task `t` as it stands once it has gone to array `b`, array `a` being no longer usable: at its start (R364, R365). -/
def gone (s : State) (a b : Nat) (t : Task) : Task :=
  { t with state := 1, array := b, s4 := indexOf ((s.usable t.ten).filter fun d => d != a) b }

/-- Array `a` is quarantined and holds nothing of a tenancy (R364). -/
structure Quarantined (a : Nat) (u : State) : Prop where
  marked : (u.cond a).quarantined = true
  raised : Raised u pgFAULT 1
  clean : (u.arr a).task = none ∧ (u.arr a).store = [] ∧ (u.arr a).regs = {} ∧ (u.arr a).banks = {} ∧ (u.arr a).engines = [] ∧
    (u.arr a).acc = {} ∧ (u.arr a).flight = []
end Sys2Proof.Claims

section
open Sys2Proof Sys2Proof.Machine Sys2Proof.Claims
/-- An attempt that has ended, with every write accepted and no check failed, seals: its receipt-log entry is free, the array holds no
task any more, and its command counts its status, caught rows and beats; where it was the command's last task the command ends
with the joined status. Its staged contributions become eligible: they are released at once, and under ordered commit wait for the
release of their task; the command waits for them (R190, R328, R329, R330). The fences that waited for the task wait no more; a frame whose
last fence has passed is free again if it was RETIRING, at the head of the free list, and else no longer FENCED (R220). Until the
attempt may seal nothing happens (R274, R277, R358, R437). -/
def Obligations.SealEndsTheTask : Prop :=
  ∀ (s : State) (a : Arr) (rid : Nat) (t : Task) (c : Cmd),
    (s.arr a.toNat).task = some rid → s.task rid = some t → s.cmd t.cid = some c →
    ((s.dispatching = false ∨ t.state ≠ 2 ∨ t.ended = false ∨ t.failed ≠ none ∨ (s.arr a.toNat).fail ≠ none ∨
      s.writesOut a.toNat = true) → exec (.attemptSeal a) s = .next s) ∧
    (s.dispatching = true → t.state = 2 → t.ended = true → t.failed = none → (s.arr a.toNat).fail = none →
      s.writesOut a.toNat = false → (∀ b, (s.arr b).loads = []) →
      ((∀ x ∈ s.mport.staged, x.cid ≠ t.cid ∧ x.rid ≠ rid) → (∀ p ∈ s.mport.posts, p.rid ≠ rid) → s.cache.fences = [] →
        ∃ v, (∀ r, v.task r = if r = rid then none else s.task r) ∧
          (∀ b, v.arr b = if b = a.toNat then (s.arr a.toNat).idle else s.arr b) ∧
          ({ v with arrs := [], disp := { v.disp with cmds := [], tasks := [], mbx := [], lib := [] } } : State) =
            { s with arrs := [], disp := { s.disp with cmds := [], tasks := [], mbx := [], lib := [] } } ∧
          (Tbl.wf {} s.disp.mbx = true → ∀ m, (v.bag m).handles = (s.bag m).handles.map fun h => if h.2 = some rid then (h.1, none) else h) ∧
          v.disp.cmds = s.disp.cmds.map (fun x => if x.cid = t.cid then sealedInto x a.toNat t else x) ∧
          (c.plans ≠ [] → exec (.attemptSeal a) s = .next v) ∧
          (c.plans = [] → c.phase = .running → (∀ e ∈ s.tasksOf t.cid, e.1 = rid) → c.ordered = false → c.faulted = false →
            ∃ u, exec (.attemptSeal a) s = .next u ∧
              Ended v { c with info := c.info + t.caught } (joinStatus c.status t.status) u)) ∧
      (s.cache.fences = [] → (∃ x ∈ s.mport.staged, x.cid = t.cid) →
        ∃ u, exec (.attemptSeal a) s = .next u ∧ u.task rid = none ∧ (u.arr a.toNat).task = none ∧
          u.cmd t.cid = some (sealedInto c a.toNat t) ∧ u.mem = s.mem ∧ u.mport.staged.length = s.mport.staged.length ∧
          (∀ x ∈ u.mport.staged, x.rid = rid → x.ready = true) ∧
          (c.ordered = true → u.mport.staged = s.mport.staged.map fun x => if x.rid = rid then { x with ready := true } else x) ∧
          (c.ordered = false → (∀ x ∈ s.mport.staged, x.cid = t.cid → x.idx = t.index → x.rid = rid ∧ x.spilled = false ∧
              x.begun = false ∧ x.released = false) →
            ∀ x ∈ u.mport.staged, x.cid = t.cid → x.idx = t.index → x.ready = true ∧ x.begun = true ∧ x.released = true)) ∧
      ((∀ x ∈ s.mport.staged, x.cid ≠ t.cid ∧ x.rid ≠ rid) → c.plans ≠ [] →
        ∃ u, exec (.attemptSeal a) s = .next u ∧ u.task rid = none ∧ u.arr a.toNat = (s.arr a.toNat).idle ∧
          u.cache.fences = (s.cache.fences.map fun f => { f with waits := f.waits.filter fun r => r != rid }).filter
            (fun f => !f.waits.isEmpty) ∧
          ∀ p f seq, s.cache.fences = [{ pool := p, frame := f, seq := seq, waits := [rid] }] → f < 2 ^ 32 →
            let at_ := (s.pool p).fteAt f
            s.spanInWindow (s.pool p).t at_ 8 = true →
            let e := Fte.ofNat (s.mem.le at_ 8)
            u.mem.bytes at_ 8 = leBytes 8 (if e.fstate = 2 then
                Fte.toNat { refcnt := 0, fstate := 0, fenced := false, next := s.reg Reg.CACHE_FREE_HEAD (s.pool p).p }
              else Fte.toNat { e with fenced := false }) ∧
            (e.fstate = 2 → u.reg Reg.CACHE_FREE_HEAD (s.pool p).p = f)))
end

section
open Sys2Proof Sys2Proof.Machine Sys2Proof.Claims
/-- Once the beats of abandonment are over and its writes answered, a task whose attempt failed for the first to third time on its
array is to run again there: one attempt more, the same journal and snapshots, the array without anything of the old attempt; the
replay is counted and REPLAY raised (R359, R360, R362). Where the receipt-log entry fails its parity check as it is read, the task is
not replayed: a record of class RECEIPT is logged and the command ends FAULTED (R357, R363). The fourth failure of a class that counts
against the array quarantines it: it holds nothing of a tenancy any more, and the task moves, once, to the eligible array with the
least cost still to run, as its first attempt there; a task that was placed on the array and had not started goes elsewhere too,
with its attempts as they were; where no array serves, the command ends FAULTED (R362, R364, R365). A task that has moved already, or that a
class fails which does not count, ends its command FAULTED and leaves the array as it is (R362, R363). -/
def Obligations.FailedAttemptIsReplayed : Prop :=
  ∀ (s : State) (a : Arr) (good : Bool) (rid : Nat) (t : Task) (c : Cmd) (cls : Nat),
    (s.arr a.toNat).abandon = some 0 → (s.arr a.toNat).task = some rid → s.task rid = some t → s.cmd t.cid = some c →
    ((s.arrOn a.toNat = false ∨ s.writesOut a.toNat = true ∨ (s.arr a.toNat).flight ≠ [] ∨ s.dispatching = false) →
      exec (.abandonmentEnd (a, good)) s = .next s) ∧
    (s.arrOn a.toNat = true → s.writesOut a.toNat = false → (s.arr a.toNat).flight = [] → s.dispatching = true → c.faulted = false →
      t.failed = some cls →
      let lost := fun (u : State) => u.task rid = none ∧ (u.arr a.toNat).task = none ∧
        ∀ x, u.cmd t.cid = some x → x.faulted = true ∧ x.status = 0x40 ∧ x.plans = []
      let counts := 1 ≤ cls ∧ cls ≤ 5
      (cls ≠ 8 → t.jover = false → t.attempt < 4 →
        (good = true → ∃ u, exec (.abandonmentEnd (a, good)) s = .next u ∧
          u.task rid = some { t with state := 1, attempt := t.attempt + 1, failed := none } ∧
          (∀ r, r ≠ rid → u.task r = s.task r) ∧ u.arr a.toNat = { (s.arr a.toNat).idle with task := some rid } ∧
          (∀ b, b ≠ a.toNat → u.arr b = s.arr b) ∧ u.cmd t.cid = some { c with replays := c.replays + 1 } ∧
          u.reg Reg.FAULT_REPLAY_CNT = min (s.reg Reg.FAULT_REPLAY_CNT + 1) (2 ^ 32 - 1) ∧ Raised u pgFAULT 0 ∧
          ({ u with arrs := [], regs := [], ctl := {}, disp := { u.disp with cmds := [], tasks := [], mbx := [] } } : State) =
            { s with arrs := [], regs := [], ctl := {}, disp := { s.disp with cmds := [], tasks := [], mbx := [] } }) ∧
        (good = false → t.state = 3 → t.array = a.toNat → (s.faultPart t.ten).recs.length < 16 → (∀ b, (s.arr b).fail = none) →
          ∃ u r, exec (.abandonmentEnd (a, good)) s = .next u ∧ lost u ∧
            (u.faultPart t.ten).recs = (s.faultPart t.ten).recs ++ [r] ∧ r.cls = 8 ∧ r.action = 2 ∧ r.receipt = rid ∧ r.arr = a.toNat)) ∧
      (t.state = 3 → t.array = a.toNat → (cls = 8 ∨ t.jover = true ∨ 4 ≤ t.attempt ∧ (¬ counts ∨ t.moved = true)) →
        ∃ u, exec (.abandonmentEnd (a, good)) s = .next u ∧ lost u ∧ (u.cond a.toNat).quarantined = (s.cond a.toNat).quarantined) ∧
      (t.state = 3 → t.array = a.toNat → counts → t.jover = false → 4 ≤ t.attempt → t.moved = false → (s.arr a.toNat).loads = [] →
        (∀ e ∈ s.tasksOn a.toNat, ∀ y, s.cmd e.2.cid = some y → y.collective = false) →
        (good = false → ∃ u, exec (.abandonmentEnd (a, good)) s = .next u ∧ (u.cond a.toNat).quarantined = true ∧ lost u) ∧
        (good = true → (s.arr a.toNat).placed = [] → elsewhere s a.toNat t = [] →
          ∃ u, exec (.abandonmentEnd (a, good)) s = .next u ∧ Quarantined a.toNat u ∧ lost u) ∧
        (good = true → (s.arr a.toNat).placed = [] → elsewhere s a.toNat t ≠ [] →
          ∃ u b, exec (.abandonmentEnd (a, good)) s = .next u ∧ Quarantined a.toNat u ∧ Least s (elsewhere s a.toNat t) b ∧
            u.task rid = some { gone s a.toNat b t with failed := none, attempt := 1, moved := true } ∧
            (∀ r, r ≠ rid → u.task r = s.task r) ∧ u.arr b = { s.arr b with placed := rid :: (s.arr b).placed } ∧
            (∀ d, d ≠ a.toNat → d ≠ b → u.arr d = s.arr d) ∧ u.cmd t.cid = some { c with replays := c.replays + 1 } ∧
            u.reg Reg.FAULT_MOVE_CNT = min (s.reg Reg.FAULT_MOVE_CNT + 1) (2 ^ 32 - 1) ∧
            u.reg Reg.FAULT_REPLAY_CNT = min (s.reg Reg.FAULT_REPLAY_CNT + 1) (2 ^ 32 - 1) ∧ Raised u pgFAULT 0) ∧
        (∀ r k, good = true → (s.arr a.toNat).placed = [r] → r ≠ rid → s.task r = some k → k.array = a.toNat → k.state = 1 →
          elsewhere s a.toNat t ≠ [] → elsewhere s a.toNat k ≠ [] →
          ∃ u b, exec (.abandonmentEnd (a, good)) s = .next u ∧ Quarantined a.toNat u ∧ Least s (elsewhere s a.toNat k) b ∧
            u.task r = some (gone s a.toNat b k) ∧ r ∈ (u.arr b).placed ∧
            u.reg Reg.FAULT_MOVE_CNT = min (s.reg Reg.FAULT_MOVE_CNT + 1) (2 ^ 32 - 1))))
end

section
open Sys2Proof Sys2Proof.Machine Sys2Proof.Claims
/-- Under ordered commit the port releases the sealed task at the cursor: all its eligible contributions go to memory, those that
have spilled once they are read back, the cursor moves on and the array that awaited the release does no longer; a task that has
not sealed, and a release of which some contribution is still to be sent, hold the cursor (R328, R330). -/
def Obligations.OrderedReleaseFollowsTaskOrder : Prop :=
  ∀ (s : State) (q : Queue) (c : Cmd), s.releaseTurn q.toNat = some c → s.cmd c.cid = some c →
    (s.domOn domMPT = false → exec (.orderedRelease q) s = .next s) ∧
    (s.domOn domMPT = true → c.cursor ∉ c.sealedIdx → c.faulted = false → exec (.orderedRelease q) s = .next s) ∧
    (s.domOn domMPT = true → Releasing s q.toNat → exec (.orderedRelease q) s = .next s) ∧
    (s.domOn domMPT = true → c.cursor ∈ c.sealedIdx → c.cursor + 1 < c.tasks → ¬ Releasing s q.toNat →
      ∃ u, exec (.orderedRelease q) s = .next u ∧
        u.cmd c.cid = some { c with cursor := c.cursor + 1, awaiting := c.awaiting.filter fun x => x.2 != c.cursor } ∧
        (∀ x ∈ u.mport.staged, x.cid = c.cid → x.idx = c.cursor → x.ready = true → x.begun = true) ∧
        ((∀ x ∈ s.mport.staged, x.cid = c.cid → x.spilled = false) →
          ∀ x ∈ u.mport.staged, x.cid = c.cid → x.idx = c.cursor → x.ready = true → x.released = true) ∧
        u.mport.staged.length = s.mport.staged.length ∧ u.mem = s.mem ∧ u.disp.tasks = s.disp.tasks ∧ ∀ b, u.arr b = s.arr b)
end

namespace Sys2Proof.Claims
open Sys2Proof.Machine

/-- Walk `w` has ended with its reads answered: it is in flight no more, the valid translations of its page's leaf line are in their sets
of the second level, of eight ways each, the page is at hand for the array that waits for it, or the fault of a page without a frame
is recorded; the sets of other pages and everything else of other arrays are as they were (R205, R225; Table 8.13). -/
structure WalkEnded (s : State) (w : Walk) (u : State) : Prop where
  counted : u.reg Reg.WALK_WALK_CNT = min (s.reg Reg.WALK_WALK_CNT + 1) (2 ^ 32 - 1)
  left : u.cache.walks = removeFirst (fun v => decide (v = w)) s.cache.walks
  line : ∀ n f, n / 8 = w.page / 8 → w.snap.pages[n]? = some (0, f) → (w.ten, w.snap.seq, n, f) ∈ u.cache.second
  kept : ∀ e ∈ s.cache.second, (∀ n, n / 8 = w.page / 8 → secondSet e ≠ secondSet (w.ten, w.snap.seq, n, 0)) → e ∈ u.cache.second
  only : ∀ e ∈ u.cache.second, e ∈ s.cache.second ∨
    ∃ n f, n / 8 = w.page / 8 ∧ w.snap.pages[n]? = some (0, f) ∧ e = (w.ten, w.snap.seq, n, f)
  ways : ∀ z, (s.cache.second.filter fun e => secondSet e == z).length ≤ 8 → (u.cache.second.filter fun e => secondSet e == z).length ≤ 8
  found : (s.arr w.arr).task = some w.rid → ∀ f, w.snap.pages[w.page]? = some (0, f) →
    (w.ten, w.snap.seq, w.page, f) ∈ (u.arr w.arr).pigeon ∧ (w.ten, w.snap.seq, w.page) ∈ (u.arr w.arr).ahead
  fault : ∀ r f, w.snap.pages[w.page]? = some (r, f) → r ≠ 0 → Raised u pgWALK 0 ∧
    ((s.arr w.arr).task = some w.rid → (w.ten, w.snap.seq, w.page) ∈ (u.arr w.arr).missed) ∧
    (s.flag Reg.WALK_WF_VALID = false → u.reg Reg.WALK_WF_SEQ = w.snap.seq ∧ u.reg Reg.WALK_WF_PAGE = w.page ∧
      u.reg Reg.WALK_WF_REASON = r % 8)
  others : ∀ b, b ≠ w.arr → u.arr b = s.arr b
  rest : u.mem = s.mem ∧ u.disp = s.disp
end Sys2Proof.Claims

section
open Sys2Proof Sys2Proof.Machine Sys2Proof.Claims
/-- TRANSLATION_WALK ends the walk of a page that an array's stream waits for, with the answer to its reads. Where none is in flight and
fewer than WALK_LIMIT are, a second-level miss of the array's task starts one, for any page of the task and counted in SL_MISS, which ends
at once: that clause is the model's choice (log 8). A walk that ends installs the valid translations of its page's leaf line in the second
level (which set holds a page is the model's choice, log 49); a valid page's own goes to the array's buffer, and an invalid one is recorded
and raises WALK_FAULT; a read that is answered with an error is recorded, installs nothing and fails the check of class MEMORY of the task
that runs (R205, R225, R335; Table 8.13). -/
def Obligations.WalkInstallsLeafLine : Prop :=
  ∀ (s : State) (a : Arr) (ans : PortAnswer) (seq : BitVec 16) (page : BitVec 17), s.domOn domKVC = true → Unarmed s → PortFree s unitWho →
    let i := Instr.translationWalk (a, ans) seq page
    let waits := s.cache.walks.find? fun w => w.arr == a.toNat && w.snap.seq == seq.toNat && w.page == page.toNat
    (∀ w, waits = some w → answered ans (s.walkReads w.snap w.page) = none → ∃ u, exec i s = .next u ∧ WalkEnded s w u) ∧
    (∀ w e x, waits = some w → answered ans (s.walkReads w.snap w.page) = some (x, e) →
      ∃ u, exec i s = .next u ∧ Raised u pgMPORT 0 ∧ u.cache.second = s.cache.second ∧ u.mem = s.mem ∧
        u.cache.walks = removeFirst (fun v => decide (v = w)) s.cache.walks ∧
        (∀ k, (s.arr a.toNat).task = some w.rid → s.task w.rid = some k → k.state = 2 → k.failed = none →
          (s.arr a.toNat).fail = none → (s.arr a.toNat).abandon = none →
          u.task w.rid = some { k with failed := some 7, state := 3, staged := 0 } ∧ (u.arr a.toNat).abandon = some 32)) ∧
    (∀ rid k x, waits = none → (s.arr a.toNat).task = some rid → s.task rid = some k →
      k.snaps.find? (fun y => y.seq == seq.toNat) = some x → page.toNat < (x.wtop + 15) / 16 →
      lruFind s.cache.second k.ten seq.toNat page.toNat = none →
      (∀ w ∈ s.cache.walks, ¬ (w.ten = k.ten ∧ w.snap.seq = seq.toNat ∧ w.page = page.toNat)) →
      s.cache.walks.length < max 1 (min (s.reg Reg.WALK_WALK_LIMIT) 64) → answered ans (s.walkReads x page.toNat) = none →
      ∃ u, exec i s = .next u ∧ WalkEnded s { arr := a.toNat, rid := rid, ten := k.ten, snap := x, page := page.toNat } u ∧
        u.reg Reg.WALK_SL_MISS = min (s.reg Reg.WALK_SL_MISS + 1) (2 ^ 32 - 1))
end

namespace Sys2Proof.Claims
open Sys2Proof.Machine

/-- The identity is host agent 0, the postmaster (R404). -/
def IsPm (s : State) (fid : Fid) : Prop := s.agentOf fid.toNat = some 0

/-- The host of an identity may act in a tenancy: it is the postmaster, or bound to it (R269, R297). -/
def ActsIn (s : State) (fid : Fid) (t : Nat) : Prop := (s.actor fid.toNat).mayActIn t = true

/-- A page, as its number gives it, whose domain is ON with no BLOCK reset running (R407). -/
def PageOn (s : State) (n : Nat) : Prop := ∃ P, pageAt n = some P ∧ s.pageOn P = true

/-- What an identity has selected with a selection register of page `n` (R418). -/
def chosen (s : State) (fid : Fid) (n : Nat) (f : FieldSpec) : Nat := s.reg f (32 * n + (s.actor fid.toNat).slot)

/-- The write is carried out: the state is `v` but for the answer OK (R402). -/
def Writes (i : Instr) (s v : State) : Prop := exec i s = .next (v.answer 0 0)

/-- Nothing differs but registers and event state. -/
def BesideRegs (s t : State) : Prop := ({ t with regs := [], ctl := {} } : State) = { s with regs := [], ctl := {} }

/-- Every register field instance but those of one word's fields is as before. -/
def OtherRegs (s t : State) (l : List FieldSpec) : Prop :=
  ∀ g ∈ allFields, g ∉ l → g ≠ Reg.BLK_EVT_LOST_CNT → g ≠ Reg.BLK_ROUTE_DROP_CNT → ∀ i j, i < 2 ^ 32 → j < 256 → t.reg g i j = s.reg g i j

/-- A violation of the control-port protocol with its reason: counted, recorded while no record is held, raised and answered, and nothing
else happens (R412). -/
def Violates (i : Instr) (s : State) (fid : Fid) (addr : BitVec 20) (reason : Nat) : Prop :=
  ∃ u, exec i s = .next u ∧ BesideRegs s u ∧ u.ctl.answer = { status := 2, data := 0 } ∧ Raised u pgBLK 0 ∧
    u.reg Reg.BLK_PV_CNT = min (s.reg Reg.BLK_PV_CNT + 1) (2 ^ Reg.BLK_PV_CNT.width - 1) ∧
    (s.flag Reg.BLK_PV_VALID = false → u.flag Reg.BLK_PV_VALID = true ∧ u.reg Reg.BLK_PV_ADDR = addr.toNat ∧
      u.reg Reg.BLK_PV_REASON = reason ∧ u.reg Reg.BLK_PV_FID = fid.toNat) ∧
    (s.flag Reg.BLK_PV_VALID = true → u.reg Reg.BLK_PV_REASON = s.reg Reg.BLK_PV_REASON)

/-- The reason of Table 17.4 for a register request that breaks the protocol. -/
def brokenBy (addr : BitVec 20) (form : AccessForm) : Option Nat :=
  match form with
  | .narrow => some 1
  | .beyondCredits => some 4
  | .undefinedKind => some 5
  | .word => if addr.toNat % 4 = 0 then none else some 2
end Sys2Proof.Claims

section
open Sys2Proof Sys2Proof.Machine Sys2Proof.Claims
/-- A doorbell of the postmaster or a host bound to the queue's tenancy puts its command at the end of an enabled queue with room for
it; a foreign one is dropped with FOREIGN_DB, one to a full or disabled queue with its postmark recorded and OVERPOST, the queue
unchanged either way; one to another address is a violation of reason 3, and one while DSP does not run is answered OFF (R269, R270,
R408, R412). That the record of a dropped command is kept until it is cleared is the model's reading (log 41), and so is that OFF
comes before the drop (log 7). -/
def Obligations.DoorbellPlacesOrDropsCommand : Prop :=
  ∀ (s : State) (fid : Fid) (addr : BitVec 20) (cmd : BitVec 512),
    let q := addr.toNat / 64 % 64
    let t := q / 4
    let x := s.queue q
    let i := Instr.doorbell fid addr cmd
    let valid := addr.toNat / 4096 = 0x15 ∧ addr.toNat % 64 = 0
    (¬ valid → Violates i s fid addr 3) ∧
    (valid → s.dispatching = false → exec i s = .next (s.answer 3 0)) ∧
    (valid → s.dispatching = true → ActsIn s fid t → s.flag Reg.SUBQ_EN q = true → x.entries.length < 256 →
      Writes i s (s.setQueue q { entries := x.entries ++ [(cmd, (s.agentOf fid.toNat).getD 0)] })) ∧
    (valid → s.dispatching = true → ¬ ActsIn s fid t → ∃ u, exec i s = .next u ∧ BesideRegs s u ∧
      u.ctl.answer = { status := 1, data := 0 } ∧ Raised u pgSUBQ 1 ∧
      (s.flag Reg.SUBQ_FD_VALID = false → u.reg Reg.SUBQ_FD_HOST = fid.toNat ∧ u.reg Reg.SUBQ_FD_QUEUE = q ∧
        u.flag Reg.SUBQ_FD_VALID = true)) ∧
    (valid → s.dispatching = true → ActsIn s fid t → (s.flag Reg.SUBQ_EN q = false ∨ 256 ≤ x.entries.length) →
      ∃ u, exec i s = .next u ∧ BesideRegs s u ∧ u.ctl.answer = { status := 1, data := 0 } ∧ Raised u pgSUBQ 0 ∧
        u.reg Reg.SUBQ_OVERPOST_CNT q = min (s.reg Reg.SUBQ_OVERPOST_CNT q + 1) (2 ^ 32 - 1) ∧
        (s.flag Reg.SUBQ_OP_VALID q = false → u.flag Reg.SUBQ_OP_VALID q = true ∧ u.reg Reg.SUBQ_OP_SUB q = cmdSubmitter cmd ∧
          u.reg Reg.SUBQ_OP_SEQ_LO q + 2 ^ 32 * u.reg Reg.SUBQ_OP_SEQ_HI q = cmdSeqno cmd))
end

namespace Sys2Proof.Claims
open Sys2Proof.Machine

/-- A word of page `P` whose write by the postmaster stores its fields and has no effect of its own. -/
def plainWord (s : State) (P : Page) (off : Nat) : Prop :=
  match P.kind with
  | .blk => off ≠ 0x114 ∧ (off < 0x140 ∨ 0x180 ≤ off)
  | .rst => off ∉ [0x100, 0x104, 0x108]
  | .ten => off ∉ [0x100, 0x104] ∧ s.tenEn P.num = false
  | .dsp => off ∉ [0x104, 0x124, 0x900]
  | .lbx => off < 0x080 ∨ 0x800 ≤ off
  | .walk => off ≠ 0x904
  | .meter => off ∉ [0x148, 0x14C]
  | .fault => off ∉ [0x108, 0x900]
  | .dlog => off ≠ 0x108
  | .prog => off ≠ 0x908
  | .time => off ≠ 0x918
  | .cond => off ∉ [0x114, 0x128]
  | .mon | .subq | .lib | .ftab | .stamp | .group => True
  | .pwr | .cache | .mport | .ring => False

/-- Fields that a host writes and that the machine holds elsewhere than in the register file. -/
def heldElsewhere : List Nat :=
  [Reg.BLK_VALID, Reg.PWR_DOM_REQ, Reg.COND_SB_EN, Reg.COND_SB_COL, Reg.COND_VALID, Reg.LBX_VALUE].map (·.id)

/-- Bit `b` of a field of an access code after a write of `bits` over `old` (Table 17.6). -/
def bitAfter (a : Access) (old bits b : Nat) : Bool :=
  match a with
  | .rw | .rwx => bits.testBit b
  | .w1c => old.testBit b && !bits.testBit b
  | .w1s => old.testBit b || bits.testBit b
  | .ro | .wo => old.testBit b
end Sys2Proof.Claims

section
open Sys2Proof Sys2Proof.Machine Sys2Proof.Claims
/-- A register request that breaks the port's protocol is a violation with the reason of Table 17.4; one to a page whose domain is not
ON is answered OFF, and one of a host bound to no tenancy reads zero and writes nothing, outside the BLK page and common words it may
read; a read by the postmaster gives each field of the word its value, WO fields zero, and a write of a word with no effect of its
own sets its RW fields, clears the W1C and sets the W1S bits that it names and leaves the RO ones (R415, R416); the event words show and
set the context of the accessing host, a 1 clearing a raw bit, and OUT bits that a write of EN lets rise make one message to the agent
of the context (R420, R421, R422); a read of the time base's LO word latches its HI word
for the reading host, and a read of the HI word gives that host's latch (R402, R406, R407, R412, R418). The order of these
answers, protocol, OFF, then what the host may see, is the model's reading (log 7). -/
def Obligations.RegisterAccessFollowsPortRules : Prop :=
  ∀ (s : State) (fid : Fid) (addr : BitVec 20) (form : AccessForm) (v : Word),
    let x := s.actor fid.toNat
    let off := addr.toNat % 4096
    let rd := Instr.loWordRead fid addr form
    let wr := Instr.registerWrite fid addr form v
    (∀ r, brokenBy addr form = some r → Violates rd s fid addr r ∧ Violates wr s fid addr r) ∧
    (form = .word → addr.toNat % 4 = 0 → ∀ P, pageAt (addr.toNat / 4096) = some P →
      (s.pageOn P = false → (∀ e ∈ P.kind.wordAt off, shadowed e.1 = false) →
        exec rd s = .next (s.answer 3 0) ∧ exec wr s = .next (s.answer 3 0)) ∧
      (s.pageOn P = true → x.reaches = false →
        exec wr s = .next (s.answer 0 0) ∧ (P.kind ≠ .blk → 0x00C < off → exec rd s = .next (s.answer 0 0)))) ∧
    (IsPm s fid → ∀ f ∈ monFields, f.acc = .rw → f.scope = .block → addr.toNat = 0x2000 + f.off → form = .word →
      ∃ u, Writes wr s u ∧ u.reg f = v.toNat / 2 ^ f.lsb % 2 ^ f.width ∧ BesideRegs s u ∧ u.ctl = s.ctl ∧
        OtherRegs s u (monFields.filter fun g => g.off = f.off)) ∧
    (form = .word → addr.toNat % 4 = 0 → ∀ P, pageAt (addr.toNat / 4096) = some P → s.pageOn P = true →
      (IsPm s fid → 0x020 ≤ off →
        (∃ u, exec rd s = .next u ∧ u.ctl.answer.status = 0 ∧ ∀ e ∈ P.kind.wordAt off, isLatchedHi e.1 = false →
          let i := s.instOf P x e.1
          let shown := u.ctl.answer.data.toNat / 2 ^ e.1.lsb % 2 ^ e.1.width
          shown = (if e.1.acc = .wo then 0 else s.view P x e.1 i e.2 % 2 ^ e.1.width) ∧
          (e.1.acc ∉ [.ro, .wo] → e.1.scope ≠ .dom → e.1.id ∉ heldElsewhere → shown = s.reg e.1 i e.2)) ∧
        (plainWord s P off → (0x800 ≤ off → s.hasExpert P x = true) →
          ∃ u, Writes wr s u ∧ BesideRegs s u ∧ u.ctl = s.ctl ∧ OtherRegs s u ((P.kind.wordAt off).map (·.1)) ∧
            ∀ e ∈ P.kind.wordAt off, let i := s.instOf P x e.1
              ∀ b, (u.reg e.1 i e.2).testBit b = bitAfter e.1.acc (s.reg e.1 i e.2) (v.toNat / 2 ^ e.1.lsb % 2 ^ e.1.width) b)) ∧
      (∀ c, (x.pm = true ∧ c = 16 ∨ x.pm = false ∧ x.ten = some c) → (P.kind = .ten ∨ P.kind = .lbx → x.mayActIn P.num = true) →
        let n := addr.toNat / 4096
        let e := s.ctx n c
        let risen := { e with en := v }.out &&& ~~~ e.out
        let rest := s.setCtx n c { e with en := v }
        let dest := e.route.toNat % 16
        (off = 0x010 → exec rd s = .next (s.answer 0 e.raw.toNat) ∧ Writes wr s (s.setCtx n c { e with raw := e.raw &&& ~~~ v })) ∧
        (off = 0x014 → exec rd s = .next (s.answer 0 e.en.toNat) ∧ (risen = 0 → Writes wr s rest) ∧
          (risen ≠ 0 → (c = 16 → dest = 0) → (c ≠ 16 → e.route.getLsbD 4 = false) → (s.agentQ dest).msgs.length < 16 →
            Writes wr s (rest.setAgentQ dest { s.agentQ dest with
              msgs := (s.agentQ dest).msgs ++ [pageMsg n c { e with en := v }.out risen s.now] }))) ∧
        (off = 0x018 → exec rd s = .next (s.answer 0 (e.raw &&& e.en).toNat) ∧ Writes wr s s) ∧
        (off = 0x01C → exec rd s = .next (s.answer 0 e.route.toNat) ∧ Writes wr s (s.setCtx n c { e with route := v &&& 0x1F#32 })))) ∧
    (x.reaches = true → form = .word → PageOn s 0x32 →
      let key := (x.slot * 256 + 0x32) * 4096 + 0x104
      (addr = 0x32100#20 → ∃ u, exec rd s = .next u ∧ u.ctl.answer = { status := 0, data := BitVec.ofNat 32 s.tb.count } ∧
        Tbl.get 0 u.ctl.latches key = s.tb.count / 2 ^ 32 % 2 ^ 32 ∧
        (∀ k, k ≠ key → Tbl.get 0 u.ctl.latches k = Tbl.get 0 s.ctl.latches k) ∧ u.regs = s.regs ∧ BesideRegs s u) ∧
      (addr = 0x32104#20 → exec rd s = .next (s.answer 0 (Tbl.get 0 s.ctl.latches key))))
end

section
open Sys2Proof Sys2Proof.Machine Sys2Proof.Claims
/-- PG_CTL unlocks and locks the expert words for the writing host alone, but on a TEN or LBX page a host bound to another tenancy
writes nothing, and its SOFT_RESET returns the page's class U fields to their reset values and takes EXPERT from every host. PM_XFER
and HOST_FID move and map identities, refused where another valid entry holds the FID. An event message is sent round-robin while a
credit is held, and its acknowledgement returns the credit (R393, R404, R405, R409, R411, R414, R425). That a bound host sets EXPERT
on the other pages too, those among them on which only the postmaster writes, is the model's reading (log 7). -/
def Obligations.ControlPortRowsAct : Prop :=
  ∀ (s : State) (fid : Fid) (page : PageNo) (n : BitVec 4) (v : Word),
    let x := s.actor fid.toNat
    let k := page.toNat * 17 + x.slot
    let others := s.ctl.expert.filter fun e => e != k
    (∀ P, pageAt page.toNat = some P → s.pageOn P = true → x.reaches = true →
      (((P.kind = .ten ∨ P.kind = .lbx) ∧ x.mayActIn P.num = false) → Writes (.expertUnlock fid page v) s s) ∧
      (((P.kind = .ten ∨ P.kind = .lbx) → x.mayActIn P.num = true) → (IsPm s fid → v.getLsbD 1 = false) →
        Writes (.expertUnlock fid page v) s { s with ctl := { s.ctl with
        expert := if v.getLsbD 4 = false then others else if v.toNat / 2 ^ 8 % 2 ^ 8 = 0xC3 then k :: others else s.ctl.expert } }) ∧
      (IsPm s fid → v.getLsbD 1 = true → ∃ u, Writes (.unitReset fid page v) s u ∧
        (∀ f ∈ allFields, ∀ i j, i < 2 ^ 32 → j < 256 →
          u.reg f i j = if f.page = P.kind ∧ f.cls = .u ∧ onPage P f i = true then f.reset else s.reg f i j) ∧
        (∀ e ∈ u.ctl.expert, e / 17 ≠ page.toNat) ∧
        (P.kind ≠ .time → u.arrs = s.arrs) ∧
        (P.kind = .time → Tbl.wf {} s.arrs = true → ∀ a, u.arr a =
          if a / 64 = P.num then { s.arr a with audit := [], auditLost := 0 } else s.arr a) ∧
        ({ u with regs := [], ctl := {}, arrs := [] } : State) = { s with regs := [], ctl := {}, arrs := [] })) ∧
    (IsPm s fid →
      let free := fun (m : Nat) => ∀ j, j < 16 → j ≠ m → s.mapped j = true → s.reg Reg.BLK_HOST_FID 0 j ≠ v.toNat % 2 ^ 16
      let entry := Instr.hostFidWrite fid n v
      let refusedBy := fun (i : Instr) => ∃ u, Writes i s u ∧ u.flag Reg.BLK_MAP_REFUSED = true ∧ Raised u pgBLK 2 ∧ BesideRegs s u ∧
        OtherRegs s u [Reg.BLK_MAP_REFUSED]
      (n = 0 → Writes entry s s) ∧
      (n ≠ 0 → v.getLsbD 16 = false →
        Writes entry s ((s.setReg Reg.BLK_HOST_FID 0 (v.toNat % 2 ^ 16) n.toNat).setReg Reg.BLK_VALID 0 0 n.toNat)) ∧
      (n ≠ 0 → v.getLsbD 16 = true → free n.toNat →
        Writes entry s ((s.setReg Reg.BLK_HOST_FID 0 (v.toNat % 2 ^ 16) n.toNat).setReg Reg.BLK_VALID 0 1 n.toNat)) ∧
      (n ≠ 0 → v.getLsbD 16 = true → ¬ free n.toNat → refusedBy entry) ∧
      (v.toNat / 2 ^ 24 ≠ 0x5A → Writes (.pmXfer fid v) s s) ∧
      (v.toNat / 2 ^ 24 = 0x5A → free 0 → Writes (.pmXfer fid v) s (s.setReg Reg.BLK_HOST_FID 0 (v.toNat % 2 ^ 16))) ∧
      (v.toNat / 2 ^ 24 = 0x5A → ¬ free 0 → refusedBy (.pmXfer fid v))) ∧
    ((s.ctl.credits = 0 → exec .eventSend s = .next s) ∧
      (∀ m msg l, s.ctl.credits ≠ 0 →
        ((List.range 16).map fun i => (s.ctl.rr + i) % 16).find? (fun j => !(s.agentQ j).msgs.isEmpty) = some m →
        (s.agentQ m).msgs = msg :: l → s.maySend m msg = true → ∃ u, exec .eventSend s = .next u ∧
          u.ctl.sentMsg = some { msg with fid := s.reg Reg.BLK_HOST_FID 0 m } ∧ u.ctl.credits + 1 = s.ctl.credits ∧
          u.ctl.outstanding = s.ctl.outstanding + 1 ∧ u.ctl.rr = (m + 1) % 16 ∧ (u.agentQ m).msgs.take l.length = l ∧
          (l.length ≠ 8 → u.agentQ m = { s.agentQ m with msgs := l }) ∧ (∀ j, j ≠ m → u.agentQ j = s.agentQ j) ∧
          ({ u with ctl := {} } : State) = { s with ctl := {} })) ∧
    (s.ctl.outstanding ≠ 0 → exec .eventAck s =
      .next { s with ctl := { s.ctl with outstanding := s.ctl.outstanding - 1, credits := s.ctl.credits + 1 } })
end

namespace Sys2Proof.Claims
open Sys2Proof.Machine

/-- An identity holds EXPERT on a page (R414). -/
def Expert (s : State) (fid : Fid) (n : Nat) : Prop := (n * 17 + (s.actor fid.toNat).slot) ∈ s.ctl.expert

/-- The array that an identity has selected on the pages of a group (R424). -/
def chosenArray (s : State) (fid : Fid) (g : Group) : Nat := 64 * g.toNat + chosen s fid g.toNat Reg.GROUP_ARR_SEL

/-- The host may act on an array: the postmaster, or a host of the array's tenancy (R415). -/
def ActsOn (s : State) (fid : Fid) (a : Nat) : Prop := s.actsOn (s.actor fid.toNat) a = true

/-- Nothing differs but ring ports, registers and event state. -/
def BesideRing (s t : State) : Prop := ({ t with ring := [], regs := [], ctl := {} } : State) = { s with ring := [], regs := [], ctl := {} }

/-- The instance of a channel's registers: receive channels are numbered from 16 (Table 12.4). -/
def instance_ (p c : Nat) (recv : Bool) : Nat := 32 * p + (if recv then 16 else 0) + c

/-- The rows that write a register only the postmaster writes, each with its page (R103, R225, R305, R339, R340, R355, R372, R376,
R384, R389, R391, R405, R425). -/
def pmRows (fid : Fid) (n : BitVec 4) (t : Ten) (p : PortNo) (v : Word) : List (Instr × Nat) :=
  [(.hostFidWrite fid n v, pgBLK), (.pmXfer fid v, pgBLK), (.tenEnWrite fid t v, pgTEN t.toNat), (.hostMaskWrite fid t v, pgTEN t.toNat),
    (.dispStep fid v, pgDSP), (.slFlush fid v, pgWALK), (.phFlush fid v, pgWALK), (.injArm fid v, pgFAULT)] ++
  [(.keyData fid v, pgMETER), (.keyCommit fid v, pgMETER), (.keyClear fid v, pgMETER), (.domReqWrite fid v, pgPWR), (.holdReq fid v, pgPWR)] ++
  [(.tenancyReset fid v, pgRST), (.arrayReset fid v, pgRST), (.blockReset (some (fid, v)), pgRST)] ++
  [(.linkEn fid p v, pgRING p.toNat), (.forceRetrain fid p v, pgRING p.toNat)]
end Sys2Proof.Claims

section
open Sys2Proof Sys2Proof.Machine Sys2Proof.Claims
/-- A write by any host but the postmaster of a register that only the postmaster writes changes nothing but the answer, which is OK
where the domain of its page is ON and OFF where it is not; of SOFT_BYP, which AON shadows hold, it is always OK. A write of PG_CTL
resets nothing: it leaves all but the host's own EXPERT; one of a pool's word leaves EN and OWNER, and one of a channel's word the
tenancy and the slots that the postmaster gives channels (R103, R307, R402, R406, R407, R414, R415). -/
def Obligations.OnlyPostmasterWrites : Prop :=
  ∀ (s : State) (fid : Fid) (n : BitVec 4) (t : Ten) (g : Group) (p : PortNo) (page : PageNo) (v : Word), ¬ IsPm s fid →
    (∀ x ∈ pmRows fid n t p v, (PageOn s x.2 → exec x.1 s = .next (s.answer 0 0)) ∧ (¬ PageOn s x.2 → exec x.1 s = .next (s.answer 3 0))) ∧
    exec (.softBypWrite fid g v) s = .next (s.answer 0 0) ∧
    (∃ l, Writes (.unitReset fid page v) s { s with ctl := { s.ctl with expert := l } } ∨ exec (.unitReset fid page v) s = .next (s.answer 3 0)) ∧
    (∃ u, exec (.poolEnWrite fid v) s = .next u ∧ BesideRegs s u ∧
      ∀ q, q < 16 → u.flag Reg.CACHE_EN q = s.flag Reg.CACHE_EN q ∧ u.reg Reg.CACHE_OWNER q = s.reg Reg.CACHE_OWNER q) ∧
    (∃ u, exec (.resSlotsWrite fid p v) s = .next u ∧ BesideRing s u ∧
      ∀ q c recv, q < 4 → c < 16 → u.reg Reg.RING_RES_SLOTS (instance_ q c recv) = s.reg Reg.RING_RES_SLOTS (instance_ q c recv) ∧
        u.reg Reg.RING_CH_TEN (instance_ q c recv) = s.reg Reg.RING_CH_TEN (instance_ q c recv))
end

section
open Sys2Proof Sys2Proof.Machine Sys2Proof.Claims
/-- A host's write to a letterbox slot sets it or adds to it, saturating; a slot beyond the tenancy's range raises LB_RANGE and writes
nothing; MB_HPUT puts a handle at the end of the selected mailbag, or drops it with HPUT_DROP where the mailbag is full; DISP_STEP
accepts one command under DISP_PAUSE (R280, R281, R283, R297; Table 11.8). That DISP_STEP acts in the same write that sets DISP_PAUSE,
though PAUSE was 0 before it, is the model's reading (log 7). -/
def Obligations.HostWritesReachMessages : Prop :=
  ∀ (s : State) (fid : Fid) (t : Ten) (slot : BitVec 8) (v : Word),
    (PageOn s (0x18 + t.toNat) → ActsIn s fid t.toNat → slot.toNat < 240 →
      let n := chosen s fid t.toNat Reg.LBX_LBW_BASE + slot.toNat
      let box := s.reg Reg.TEN_LB_FIRST t.toNat + n
      (InRange s t.toNat Reg.TEN_LB_FIRST Reg.TEN_LB_SIZE n →
        (∃ u, Writes (.letterboxSet fid t slot v) s u ∧ BesideMessages (s.putLb box v) u) ∧
        (∃ u, Writes (.letterboxPost fid t slot v) s u ∧
          BesideMessages (s.putLb box (BitVec.ofNat 32 (min ((s.lb box).toNat + v.toNat) (2 ^ 32 - 1)))) u)) ∧
      (¬ InRange s t.toNat Reg.TEN_LB_FIRST Reg.TEN_LB_SIZE n → ∀ i ∈ [Instr.letterboxSet fid t slot v, .letterboxPost fid t slot v],
        ∃ u, Writes i s u ∧ BesideRegs s u ∧ Raised u (0x18 + t.toNat) 1)) ∧
    (PageOn s 0x14 →
      (let m := chosen s fid 0 Reg.DSP_MB_SEL
       (IsPm s fid ∨ (∃ w, (s.actor fid.toNat).ten = some w ∧ s.reg Reg.TEN_MB_FIRST w ≤ m ∧
          InRange s w Reg.TEN_MB_FIRST Reg.TEN_MB_SIZE (m - s.reg Reg.TEN_MB_FIRST w)) →
        ((s.bag m).handles.length < 64 →
          Writes (.mbHput fid v) s (s.setBag m { s.bag m with handles := (s.bag m).handles ++ [(v, none)] })) ∧
        (64 ≤ (s.bag m).handles.length → ∃ u, Writes (.mbHput fid v) s u ∧ BesideRegs s u ∧ u.flag Reg.DSP_HPUT_DROP m = true ∧
          Raised u pgDSP 3))) ∧
      (IsPm s fid → Expert s fid 0x14 → v.getLsbD 0 = true → v.getLsbD 1 = true → s.dispatching = true → s.hold = false →
        Writes (.dispStep fid v) s (s.setReg Reg.DSP_DISP_PAUSE 0 1).acceptNext))
end

section
open Sys2Proof Sys2Proof.Machine Sys2Proof.Claims
/-- On the selected array RESUME ends a halt freeze, AUD_CLEAR empties the audit log, and SOFT_BYP records the request and its pending
state; FL_POP and DL_POP take the oldest record of the selected partition, DL_POP of a full one makes room for the first entry that waits in
an array's buffer, and INJ_ARM arms an injection unless its class is 0 or above 7 (R47, R103, R266, R369, R372, R373). -/
def Obligations.HostWritesReachArraysAndLogs : Prop :=
  ∀ (s : State) (fid : Fid) (g : Group) (v : Word),
    let a := chosenArray s fid g
    let A := s.arr a
    (PageOn s (pgPROG g.toNat) → Expert s fid (pgPROG g.toNat) → ActsOn s fid a → v.getLsbD 31 = true →
      ∃ u, Writes (.resume fid g v) s u ∧ BesideRegs s { u with arrs := s.arrs } ∧ (∀ b, b ≠ a → u.arr b = s.arr b) ∧
        (A.seq.state = .halted → u.arr a = { A with seq := { A.seq with state := .running, resumed := true } }) ∧
        (A.seq.state ≠ .halted → u.arr a = A) ∧
        u.reg Reg.PROG_HALT_PC a = v.toNat % 2 ^ 20 ∧ u.reg Reg.PROG_HALT_ROUTINE a = v.toNat / 2 ^ 20 % 2 ^ 10 ∧
        u.flag Reg.PROG_HALT_EN a = v.getLsbD 30) ∧
    (PageOn s (pgTIME g.toNat) → Expert s fid (pgTIME g.toNat) → ActsOn s fid a → v.getLsbD 0 = true →
      Writes (.audClear fid g v) s (s.setArr a { A with audit := [], auditLost := 0 })) ∧
    (IsPm s fid → Writes (.softBypWrite fid g v) s (s.onCond a fun c =>
      { c with softEn := v.getLsbD 0, softCol := v.toNat / 2 % 16, softPend := v.getLsbD 0 || c.applied.isSome })) ∧
    (PageOn s pgFAULT →
      let t := chosen s fid 0 Reg.FAULT_FL_SEL
      (ActsIn s fid t → v.getLsbD 0 = true → (s.actor fid.toNat).reaches = true →
        Writes (.flPop fid v) s (s.setFaultPart t { s.faultPart t with recs := (s.faultPart t).recs.drop 1 })) ∧
      (IsPm s fid → Expert s fid pgFAULT →
        let cls := v.toNat / 2 ^ 10 % 2 ^ 4
        ∃ u, Writes (.injArm fid v) s u ∧ BesideRegs s u ∧ u.reg Reg.FAULT_INJ_ARR = v.toNat % 2 ^ 10 ∧ u.reg Reg.FAULT_INJ_CLASS = cls ∧
          u.flag Reg.FAULT_INJ_ARM = (v.getLsbD 14 && decide (1 ≤ cls ∧ cls ≤ 7)))) ∧
    (PageOn s pgDLOG →
      let t := chosen s fid 0 Reg.DLOG_DL_SEL
      ActsIn s fid t → v.getLsbD 0 = true → (∀ e ∈ s.arrs, e.2.dead = []) →
        Writes (.dlPop fid v) s (s.setDeadPart t { s.deadPart t with recs := (s.deadPart t).recs.drop 1 })) ∧
    (PageOn s pgDLOG →
      let t := chosen s fid 0 Reg.DLOG_DL_SEL
      ActsIn s fid t → v.getLsbD 0 = true → (s.deadPart t).recs.length = 64 → Tbl.wf {} s.arrs = true →
      ∀ b e l, (s.arr b).dead = e :: l → (∀ x ∈ s.arrs, x.2.dead ≠ [] → x.1 = b) → e.ten = t → (∀ x ∈ l.head?, x.ten = t) →
        ∃ u, Writes (.dlPop fid v) s u ∧ ({ u with letters := [], arrs := [] } : State) = { s with letters := [], arrs := [] } ∧
          u.deadPart t = { s.deadPart t with recs := (s.deadPart t).recs.drop 1 ++ [e] } ∧
          (∀ w, w ≠ t → u.deadPart w = s.deadPart w) ∧ u.arr b = { s.arr b with dead := l } ∧ ∀ w, w ≠ b → u.arr w = s.arr w)
end

namespace Sys2Proof.Claims
open Sys2Proof.Machine

/-- Two ranges of memory have no byte in common. -/
def apart (a n b m : Nat) : Prop := a + n ≤ b ∨ b + m ≤ a

/-- What the initialisation of pool `p` leaves, its structures standing apart in the windows of the pool's owner: every frame free and
linked upward, every descriptor zero, every node linked upward, both lists at entry 0, or at their end where there is none, and no
fence; other bytes are as they were (R203). -/
structure InitLeft (s : State) (p : Nat) (u : State) : Prop where
  heads : u.reg Reg.CACHE_FREE_HEAD p = (if (s.pool p).frames = 0 then 2 ^ 32 - 1 else 0) ∧
    u.reg Reg.CACHE_NODE_HEAD p = (if (s.pool p).nodes = 0 then 2 ^ 32 - 1 else 0) ∧ u.reg Reg.CACHE_RETIRING p = 0
  fences : u.cache.fences = s.cache.fences.filter fun f => f.pool != p
  memory : let x := s.pool p
    let nf := 8 * x.frames
    let nd := 64 * (x.stop - x.first)
    let nn := 4096 * x.nodes
    s.spanInWindow x.t x.ft nf = true → s.spanInWindow x.t x.desc nd = true → s.spanInWindow x.t x.node nn = true →
    apart x.ft nf x.desc nd → apart x.ft nf x.node nn → apart x.desc nd x.node nn →
    (∀ f, f < x.frames → u.mem.bytes (x.fteAt f) 8 = leBytes 8 (2 ^ 32 * if f + 1 < x.frames then f + 1 else 2 ^ 32 - 1)) ∧
    (∀ y, x.desc ≤ y → y < x.desc + nd → u.mem.byte y = 0) ∧
    (∀ n, n < x.nodes → u.mem.bytes (x.entryAt n 0) 4 = leBytes 4 (if n + 1 < x.nodes then n + 1 else 2 ^ 32 - 1)) ∧
    (∀ y, (y < x.ft ∨ x.ft + nf ≤ y) → (y < x.desc ∨ x.desc + nd ≤ y) → (∀ n, n < x.nodes → y < x.entryAt n 0 ∨ x.entryAt n 4 ≤ y) →
      u.mem.byte y = s.mem.byte y)
end Sys2Proof.Claims

section
open Sys2Proof Sys2Proof.Machine Sys2Proof.Claims
/-- Setting a tenancy's EN clears its meter counters, and is refused with CFG_OVERLAP where a resource meets another enabled
tenancy's, it has no unit, or a range runs past the end; a HOST_MASK write binds the named hosts that no other tenancy holds. A pool's
EN is refused where its sequences meet another enabled pool's, and INIT makes it busy until INIT_DONE, which clears it and
leaves the pool's structures as R203 has them; SL_FLUSH and
PH_FLUSH empty the translations; KEY_DATA shifts a word in, KEY_COMMIT installs the key and KEY_CLEAR removes it (R203, R204, R225,
R339, R340, R355). That KEY_CLEAR leaves KEY_ID at 0 is the model's choice (log 8). -/
def Obligations.ConfigurationWritesTakeEffect : Prop :=
  ∀ (s : State) (fid : Fid) (t : Ten) (v : Word), IsPm s fid →
    let p := chosen s fid 0 Reg.CACHE_POOL_SEL
    let m := chosen s fid 0 Reg.METER_MT_SEL
    (PageOn s (0x04 + t.toNat) → v.getLsbD 0 = true → s.tenEn t.toNat = false →
      let meets := fun (f n : FieldSpec) (u : Nat) => 0 < s.reg n t.toNat ∧ 0 < s.reg n u ∧
        s.reg f t.toNat < s.reg f u + s.reg n u ∧ s.reg f u < s.reg f t.toNat + s.reg n t.toNat
      let refused := (∃ u, u < 16 ∧ u ≠ t.toNat ∧ s.tenEn u = true ∧ (Nat.land (s.units t.toNat) (s.units u) ≠ 0 ∨
          meets Reg.TEN_SS_BASE Reg.TEN_SS_SIZE u ∨ meets Reg.TEN_LB_FIRST Reg.TEN_LB_SIZE u ∨ meets Reg.TEN_MB_FIRST Reg.TEN_MB_SIZE u)) ∨
        s.units t.toNat = 0 ∨ 4096 < s.reg Reg.TEN_SS_BASE t.toNat + s.reg Reg.TEN_SS_SIZE t.toNat ∨
        8192 < s.reg Reg.TEN_LB_FIRST t.toNat + s.reg Reg.TEN_LB_SIZE t.toNat ∨
        256 < s.reg Reg.TEN_MB_FIRST t.toNat + s.reg Reg.TEN_MB_SIZE t.toNat
      (refused → ∃ u, Writes (.tenEnWrite fid t v) s u ∧ BesideRegs s u ∧ u.tenEn t.toNat = false ∧
        u.flag Reg.TEN_CFG_OVERLAP t.toNat = true ∧ Raised u (0x04 + t.toNat) 2) ∧
      (¬ refused → Writes (.tenEnWrite fid t v) s (((s.setReg Reg.TEN_EN t.toNat 1).setReg Reg.TEN_CFG_OVERLAP t.toNat 0).onAcct t.toNat
        fun c => { c with beats := 0, frozen := 0, memBytes := 0, ringBytes := 0, energyUj := 0, commands := 0 }))) ∧
    (PageOn s (0x04 + t.toNat) → ∃ u, Writes (.hostMaskWrite fid t v) s u ∧ BesideRegs s u ∧
      let taken := fun (n : Nat) => ∃ w, w < 16 ∧ w ≠ t.toNat ∧ bitOf (s.reg Reg.TEN_HOST_MASK w) n = true
      (∀ n, n < 16 → (bitOf (u.reg Reg.TEN_HOST_MASK t.toNat) n = true ↔ v.getLsbD n = true ∧ ¬ taken n)) ∧
      ((∃ n, n < 16 ∧ v.getLsbD n = true ∧ taken n) → u.flag Reg.TEN_CFG_OVERLAP t.toNat = true ∧ Raised u (0x04 + t.toNat) 2)) ∧
    (PageOn s 0x28 → s.flag Reg.CACHE_EN p = false →
      let clash := ∃ q, q < 16 ∧ q ≠ p ∧ s.flag Reg.CACHE_EN q = true ∧ (s.pool p).first < (s.pool q).stop ∧ (s.pool q).first < (s.pool p).stop
      (v.getLsbD 0 = true → v.getLsbD 1 = false → ∃ u, Writes (.poolEnWrite fid v) s u ∧ BesideRegs s u ∧
        (clash → u.flag Reg.CACHE_EN p = false ∧ u.flag Reg.CACHE_CFG_OVERLAP p = true ∧ Raised u pgCACHE 4) ∧
        (¬ clash → u.flag Reg.CACHE_EN p = true ∧ u.flag Reg.CACHE_CFG_OVERLAP p = false ∧ u.ctl = s.ctl)) ∧
      (v.getLsbD 0 = false → v.getLsbD 1 = true → ∃ u, Writes (.initPool fid v) s u ∧ BesideRegs s u ∧ u.ctl = s.ctl ∧
        u.flag Reg.CACHE_INIT_BUSY p = true ∧ u.reg Reg.CACHE_OWNER p = v.toNat / 2 ^ 4 % 2 ^ 4)) ∧
    (∀ q : BitVec 4, s.domOn domKVC = true → s.flag Reg.CACHE_INIT_BUSY q.toNat = true → PortFree s unitWho → ∃ u,
      exec (.initDone q) s = .next u ∧ InitLeft s q.toNat u ∧
      u.flag Reg.CACHE_INIT_BUSY q.toNat = false ∧ u.reg Reg.CACHE_FREE_FRAMES q.toNat = (s.pool q.toNat).frames ∧
      u.reg Reg.CACHE_FREE_NODES q.toNat = (s.pool q.toNat).nodes ∧ u.reg Reg.CACHE_LIVE_SEQS q.toNat = 0 ∧ Raised u pgCACHE 3 ∧
      u.arrs = s.arrs ∧ u.shared = s.shared ∧ u.disp = s.disp) ∧
    (PageOn s pgWALK → Expert s fid pgWALK → Tbl.wf {} s.arrs = true → ∀ i ∈ [Instr.slFlush fid v, .phFlush fid v], ∃ u, Writes i s u ∧
      u.cache = (if v.getLsbD 0 then { s.cache with second := [] } else s.cache) ∧
      (∀ a, u.arr a = if v.getLsbD 1 then { s.arr a with pigeon := [] } else s.arr a) ∧
      ({ u with cache := {}, arrs := [] } : State) = { s with cache := {}, arrs := [] }) ∧
    Writes (.keyData fid v) s { s with meter := { s.meter with
      shift := (s.meter.shift ++ [v]).drop (s.meter.shift.length - 7) } } ∧
    (v.getLsbD 0 = true → v.getLsbD 1 = false → ∃ u, Writes (.keyCommit fid v) s u ∧ Raised u pgMETER 0 ∧
      (u.acct m).key = some (s.meter.shift.foldl (fun n w => n * 2 ^ 32 + w.toNat) 0) ∧ (u.acct m).keyId = v.toNat / 2 ^ 16 ∧
      (∀ w, w ≠ m → u.acct w = s.acct w) ∧ BesideRegs s { u with meter := s.meter }) ∧
    (v.getLsbD 0 = false → v.getLsbD 1 = true →
      Writes (.keyClear fid v) s (s.onAcct m fun c => { c with key := none, keyId := 0 }))
end

namespace Sys2Proof.Claims
open Sys2Proof.Machine

/-- Port `p` becomes `P`, and no other port changes. -/
def PortBecomes (s u : State) (p : Nat) (P : Port) : Prop := u.port p = P ∧ ∀ q, q ≠ p → u.port q = s.port q

/-- A receive channel when its link starts afresh: its count and what it has delivered stay, and of what it has accepted only the
messages that wait whole in its landing store, whose credits are not owed any more (R315). -/
def restarted (r : RecvChan) : RecvChan :=
  let l := wholeMsgs r.stash
  if l = [] then { k := r.k, lastId := r.lastId, heldHandle := r.heldHandle, relaying := r.relaying }
  else { r with
    stash := l, owed := 0, used := 0, kept := (l.filter fun m => m.type != 0).length
    lost := r.lost.filter fun n => l.any fun m => m.msgId.toNat == n }

/-- A control flit that returns no credit. -/
def NoCredits (f : CtlFlit) : Prop := ∀ b ∈ f.credits, b = 0
end Sys2Proof.Claims

section
open Sys2Proof Sys2Proof.Machine Sys2Proof.Claims
/-- LINK_EN starts training of a link that is down or failed, with fresh sequence numbers and credits, every message sent again from
its first packet and every message that was accepted whole still to land, and clearing it takes the link down. A TRAIN flit brings a
training link UP, or fails it on a foreign ring identity or a round trip over 16,384; one brings a retraining link UP again with its
sequence numbers, packets and credits as they were. NAK_LIMIT NAKs of one packet or FORCE_RETRAIN
retrain a link that is UP; lost lanes, and a third incomplete attempt, fail it (R298, R303, R305, R315). LINK_DOWN and FAIL_WHY 4 at
the third incomplete attempt of an initial training, LINK_DOWN at a lane loss of a link that is UP or retrains (log 27), credits that
start at the send channel's own CRED (log 27), and no credit owed for packets kept over the start (log 28) are the model's readings. -/
def Obligations.LinkFollowsTraining : Prop :=
  ∀ (s : State) (fid : Fid) (p : PortNo) (v : Word) (f : CtlFlit), s.domOn (if p.toNat < 2 then domRNA else domRNB) = true →
    s.resets.block = false →
    let P := s.port p.toNat
    let moves := fun (i : Instr) (Q : Port) (more : State → Prop) => ∃ u, exec i s = .next u ∧ BesideRing s u ∧
      PortBecomes s u p.toNat Q ∧ more u
    let down := fun (u : State) => Raised u (0x2B + p.toNat) 0
    (IsPm s fid → v.getLsbD 0 = true → (P.link = .down ∨ P.link = .failed) → moves (.linkEn fid p v)
      { link := .training, msgs := P.msgs.map fun m => { m with next := 0 }, nextMsg := P.nextMsg
        send := (List.range 16).foldl (fun t c => Tbl.set {} t c
          { credits := s.reg Reg.RING_CRED (instance_ p.toNat c false), nextId := (s.sendChan p.toNat c).nextId }) []
        recv := (P.recv.map fun e => (e.1, restarted e.2)).filter fun e => decide (e.2 ≠ {}) }
      fun u => u.flag Reg.RING_LINK_EN p.toNat = true ∧ u.reg Reg.RING_FAIL_WHY p.toNat = 0) ∧
    (IsPm s fid → v.getLsbD 0 = false → moves (.linkEn fid p v) { P with link := .down } fun u => u.flag Reg.RING_LINK_EN p.toNat = false) ∧
    (crc32c (flitBytes f) = f.crc → f.type = 0x6 → P.link = .training →
      let peer := fun (u : State) => u.reg Reg.RING_PEER_ID p.toNat = f.ringId.toNat ∧ u.reg Reg.RING_PEER_POS p.toNat = f.ringPos.toNat
      (f.ringId.toNat = s.reg Reg.RING_RING_ID p.toNat → f.rtt ≤ 16384 → moves (.controlFlit p f) { P with link := .up, attempts := 0 }
        fun u => peer u ∧ u.reg Reg.RING_RTT_NS p.toNat = f.rtt ∧ Raised u (0x2B + p.toNat) 1) ∧
      (f.ringId.toNat ≠ s.reg Reg.RING_RING_ID p.toNat → moves (.controlFlit p f) { P with link := .failed }
        fun u => u.reg Reg.RING_FAIL_WHY p.toNat = 1) ∧
      (f.ringId.toNat = s.reg Reg.RING_RING_ID p.toNat → 16384 < f.rtt → moves (.controlFlit p f) { P with link := .failed }
        fun u => u.reg Reg.RING_FAIL_WHY p.toNat = 2)) ∧
    (crc32c (flitBytes f) = f.crc → f.type = 0x6 → P.link = .retrain → NoCredits f → f.ringId.toNat = s.reg Reg.RING_RING_ID p.toNat →
      f.rtt ≤ 16384 → moves (.controlFlit p f) { P with link := .up, attempts := 0 } fun u => u.ctl = s.ctl) ∧
    (IsPm s fid → Expert s fid (0x2B + p.toNat) → v.getLsbD 8 = true → P.link = .up → moves (.forceRetrain fid p v)
      { P with link := .retrain, attempts := 0, naks := 0 } fun u => Raised u (0x2B + p.toNat) 2 ∧
        u.reg Reg.RING_NAK_LIMIT p.toNat = v.toNat % 2 ^ 8) ∧
    (P.link = .up → max (s.reg Reg.RING_NAK_LIMIT p.toNat) 1 ≤ P.naks → moves (.retrain p)
      { P with link := .retrain, attempts := 0, naks := 0 } fun u => Raised u (0x2B + p.toNat) 2) ∧
    (P.naks < max (s.reg Reg.RING_NAK_LIMIT p.toNat) 1 → exec (.retrain p) s = .next s) ∧
    (P.link ∈ [LinkState.training, .up, .retrain] → moves (.moduleLaneLoss p) { P with link := .failed } fun u =>
      u.reg Reg.RING_FAIL_WHY p.toNat = 3 ∧ (P.link ≠ .training → down u)) ∧
    (P.link ∈ [LinkState.training, .retrain] →
      (P.attempts + 1 < 3 → moves (.trainingAttemptIncomplete p) { P with attempts := P.attempts + 1 } fun u => u.regs = s.regs ∧ u.ctl = s.ctl) ∧
      (3 ≤ P.attempts + 1 → moves (.trainingAttemptIncomplete p) { P with link := .failed } fun u =>
        u.reg Reg.RING_FAIL_WHY p.toNat = 4 ∧ down u))
end

section
open Sys2Proof Sys2Proof.Machine Sys2Proof.Claims
/-- CH_EN enables a channel for a host of its tenancy, a send channel with its configured credits, a receive channel with the credits
it still owes; it is refused with RES_REFUSED where the port's 25 slots or the shared-store reservation do not hold it. While it is 1
its tenancy's writes of its words are ignored. The postmaster's RES_SLOTS and the tenancy's CRED are stored, or refused where the
port's 25 slots or 1,024 credits are exceeded (R304, R306, R307, R308, R318). Send credits taken from the channel's own CRED (log 27),
and a receive channel that keeps the credits it owes at its enabling (log 28), are the model's readings. -/
def Obligations.ChannelWritesKeepTheBudget : Prop :=
  ∀ (s : State) (fid : Fid) (p : PortNo) (v : Word), PageOn s (0x2B + p.toNat) →
    let ch := chosen s fid p.toNat Reg.RING_CH_SEL
    let recv := decide (16 ≤ ch)
    let c := ch % 16
    let i := instance_ p.toNat c recv
    let mine := ∃ t, (s.actor fid.toNat).ten = some t ∧ s.reg Reg.RING_CH_TEN i = t
    let slots := ((List.range 16).filter fun k => k != c && s.flag Reg.RING_CH_EN (instance_ p.toNat k false)).foldl
      (fun n k => n + s.reg Reg.RING_RES_SLOTS (instance_ p.toNat k false)) 0
    let creds := ((List.range 16).filter fun k => k != c).foldl (fun n k => n + s.reg Reg.RING_CRED (instance_ p.toNat k true)) 0
    let refused := fun (u : State) => Raised u (0x2B + p.toNat) 5 ∧ u.ring = s.ring
    (mine → ¬ IsPm s fid → s.flag Reg.RING_CH_EN i = false → v.getLsbD 0 = true →
      let n := s.reg Reg.RING_RES_SLOTS i
      let tooMuch := (recv = false ∧ 25 < slots + n) ∨ (v.getLsbD 1 = false ∧ s.channelFits n = false)
      ∃ u, Writes (.chEnWrite fid p v) s u ∧ BesideRing s u ∧ u.reg Reg.RING_CLASS i = natOfBool (v.getLsbD 1) ∧
        (tooMuch → refused u ∧ u.flag Reg.RING_CH_EN i = false) ∧
        (¬ tooMuch → u.flag Reg.RING_CH_EN i = true ∧ u.ctl = s.ctl ∧
          (recv = true → u.recvChan p.toNat c = { owed := (s.recvChan p.toNat c).owed }) ∧
          (recv = false → u.sendChan p.toNat c = { credits := s.reg Reg.RING_CRED i }))) ∧
    (mine → ¬ IsPm s fid → s.flag Reg.RING_CH_EN i = true → Writes (.chEnWrite fid p v) s s ∧ Writes (.credWrite fid p v) s s) ∧
    (IsPm s fid → ¬ mine →
      let n := v.toNat / 2 ^ 12 % 2 ^ 5
      let tooMuch := recv = false ∧ s.flag Reg.RING_CH_EN i = true ∧ 25 < slots + n
      ∃ u, Writes (.resSlotsWrite fid p v) s u ∧ BesideRegs s u ∧ u.reg Reg.RING_CH_TEN i = v.toNat / 2 ^ 8 % 2 ^ 4 ∧
        (tooMuch → refused u ∧ u.reg Reg.RING_RES_SLOTS i = s.reg Reg.RING_RES_SLOTS i) ∧
        (¬ tooMuch → u.reg Reg.RING_RES_SLOTS i = n ∧ u.ctl = s.ctl)) ∧
    (mine → s.flag Reg.RING_CH_EN i = false →
      let n := v.toNat / 2 ^ 16 % 2 ^ 11
      let tooMuch := recv = true ∧ 1024 < creds + n
      ∃ u, Writes (.credWrite fid p v) s u ∧ BesideRegs s u ∧ u.reg Reg.RING_BUF_SIZE i = v.toNat % 2 ^ 4 ∧
        u.reg Reg.RING_NBUF i = v.toNat / 2 ^ 8 % 2 ^ 8 ∧
        (tooMuch → refused u ∧ u.reg Reg.RING_CRED i = s.reg Reg.RING_CRED i) ∧ (¬ tooMuch → u.reg Reg.RING_CRED i = n ∧ u.ctl = s.ctl))
end

section
open Sys2Proof Sys2Proof.Machine Sys2Proof.Claims
/-- A port sends a message whose handle stands at the head of a send channel's mailbag, for a gated channel only once the task that
put it has sealed, with the descriptor at the handle; a gated channel discards the handles of tasks that ended without a seal and
waits while its head's task has not sealed; a frame sends the next packet of a channel that has a credit, holds it for
retry and spends the credit; without an advancing acknowledgement everything held is to be sent again. Nothing starts on a link that
is not UP, where a frame does no more than to begin its count of CRC failures afresh (R303, R304, R307, R309, R310, R316). -/
def Obligations.PortSendsMessages : Prop :=
  ∀ (s : State) (p : PortNo) (ch : Chan),
    let c := ch.toNat
    let i := instance_ p.toNat c false
    let P := s.port p.toNat
    let x := s.sendChan p.toNat c
    let t := s.reg Reg.RING_CH_TEN i
    (s.linkUp p.toNat = false → exec (.sendMessageStart p ch) s = .next s ∧
      exec (.frameStart p) s = .next (s.onPort p.toNat fun P => { P with crcFrame := 0 }) ∧ exec (.retryTimeout p) s = .next s) ∧
    (s.linkUp p.toNat = true →
      (∀ b h by_ rest n, s.flag Reg.RING_CH_EN i = true → (∀ m ∈ P.msgs, m.ch = c → pktCount m.len ≤ m.next) →
        s.chanBag p.toNat c false = some b → s.chanLbx p.toNat c false = some n → (s.bag b).takers = [] →
        (s.bag b).handles = (h, by_) :: rest →
        (s.flag Reg.RING_GATED i = false ∨ by_ = none ∧ ∀ e ∈ rest, e.2 ≠ some unsealedMark) → (∀ j, j < 64 → s.inShared t ((h.toNat + j) % 2 ^ 28) = true) →
        let d := leNat ((List.range 64).map fun j => s.shared.byte ((h.toNat + j) % 2 ^ 28))
        let len := d / 2 ^ 32 % 2 ^ 21
        d / 2 ^ 28 % 2 ^ 4 = 0 → d / 2 ^ 53 % 2 ^ 11 = 0 → d / 2 ^ 106 = 0 → len % 64 = 0 → 64 ≤ len → len ≤ 1048512 →
        ∃ u, exec (.sendMessageStart p ch) s = .next u ∧ (u.port p.toNat).msgs = P.msgs ++
            [{ ch := c, msgId := x.nextId, payload := d % 2 ^ 28, len := len, user := BitVec.ofNat 32 (d / 2 ^ 64)
               hops := d / 2 ^ 96 % 2 ^ 10, srcPos := s.reg Reg.RING_RING_POS p.toNat, no := P.nextMsg }] ∧
          u.sendChan p.toNat c = { x with nextId := (x.nextId + 1) % 65536 } ∧
          ((u.bag b).handles.take rest.length = rest) ∧ (u.port p.toNat).retry = P.retry ∧ u.shared = s.shared ∧ u.arrs = s.arrs) ∧
      (∀ b, s.flag Reg.RING_CH_EN i = true → (∀ m ∈ P.msgs, m.ch = c → pktCount m.len ≤ m.next) →
        s.chanBag p.toNat c false = some b → (s.bag b).takers = [] → s.flag Reg.RING_GATED i = true →
        let l := (s.bag b).handles.filter fun e => decide (e.2 ≠ some unsealedMark)
        (∀ e ∈ l.head?, e.2 ≠ none) →
        ∃ u, exec (.sendMessageStart p ch) s = .next u ∧
          (∀ n, u.bag n = if n = b then { s.bag b with handles := l } else s.bag n) ∧
          ({ u with disp := { u.disp with mbx := [] } } : State) = { s with disp := { s.disp with mbx := [] } }) ∧
      (∀ m, P.retry = [] → P.msgs = [m] → m.ch = c → s.sendable p.toNat c = 1 →
        (s.reg Reg.RING_CLASS i = 0 → 1 ≤ s.reg Reg.RING_RES_SLOTS i) →
        ∃ u h, exec (.frameStart p) s = .next u ∧ (u.port p.toNat).retry = [h] ∧ h.ch = c ∧ h.resend = false ∧
          h.pkt.type = 1 ∧ h.pkt.seq.toNat = P.txTotal % 4096 ∧ h.pkt.chan.toNat = c ∧ h.pkt.msgId.toNat = m.msgId % 65536 ∧
          h.pkt.pktIdx.toNat = m.next % 512 ∧ h.pkt.first = decide (m.next = 0) ∧ h.pkt.last = decide (m.next + 1 = pktCount m.len) ∧
          (∀ j, j < pktLen m.len m.next → h.pkt.payload[j]? =
            some (let a := (m.payload + 2048 * m.next + j) % 2 ^ 28; if s.inShared t a then s.shared.byte a else 0)) ∧
          h.pkt.crc = crc32c (packetBytes h.pkt) ∧ (u.port p.toNat).msgs = [{ m with next := m.next + 1 }] ∧
          (u.port p.toNat).txTotal = P.txTotal + 1 ∧ (u.sendChan p.toNat c).credits + 1 = x.credits ∧ u.shared = s.shared) ∧
      exec (.retryTimeout p) s = .next (s.setPort p.toNat { P with retry := P.retry.map fun h => { h with resend := true } }))
end

section
open Sys2Proof Sys2Proof.Machine Sys2Proof.Claims
/-- A data packet is accepted only with a good CRC and the number expected next; a bad CRC or a number ahead asks for a NAK, and one of a
disabled channel or with a foreign tag is a violation of reason 2 or 3 whose credit is returned; first, middle and last packets wait in
order for the channel's letterbox. An ACK frees what it covers, and one of a message's last packet ends the message: its channel posts 1
and counts it. A NAK marks what follows it; every control flit returns the credits of its payload, whatever its TYPE, clamped at the
channel's own (R301 to R304, R306, R309, R316; Table 12.2). That a number up to 2,047 beyond the expected one counts as ahead, the clamp at
the send channel's own CRED, and that a flit of a TYPE that R301 does not list returns its credits, are the model's choices (log 27). -/
def Obligations.PortReceivesInOrder : Prop :=
  ∀ (s : State) (p : PortNo) (m : Packet) (f : CtlFlit), s.linkUp p.toNat = true →
    let P := s.port p.toNat
    let c := m.chan.toNat
    let i := instance_ p.toNat c true
    let r := s.recvChan p.toNat c
    let ahead := (m.seq.toNat + 4096 - P.rxSeq) % 4096
    let good := crc32c (packetBytes m) = m.crc
    (¬ good → P.crcFrame ≠ 64 → ∃ u, exec (.dataPacket p m) s = .next u ∧ BesideRing s u ∧
      PortBecomes s u p.toNat { P with nakDue := true, crcFrame := P.crcFrame + 1 } ∧
      u.reg Reg.RING_CRC_ERR p.toNat = min (s.reg Reg.RING_CRC_ERR p.toNat + 1) (2 ^ 32 - 1)) ∧
    (good → 0 < ahead → ahead < 2048 → exec (.dataPacket p m) s = .next (s.setPort p.toNat { P with nakDue := true })) ∧
    (good → 2048 ≤ ahead → exec (.dataPacket p m) s = .next s) ∧
    (good → ahead = 0 → m.ackV = false →
      let violates := fun (reason : Nat) => ∃ u, exec (.dataPacket p m) s = .next u ∧ BesideRing s u ∧ Raised u (0x2B + p.toNat) 3 ∧
        (s.flag Reg.RING_VIOL_VALID p.toNat = false → u.reg Reg.RING_VIOL_REASON p.toNat = reason) ∧
        u.recvChan p.toNat c = { r with owed := r.owed + 1 } ∧ (u.port p.toNat).rxSeq = (P.rxSeq + 1) % 4096 ∧
        (u.port p.toNat).ackDue = true
      let tag := s.reg Reg.RING_TAG_LO i + 2 ^ 11 * s.reg Reg.RING_TAG_HI i
      (s.flag Reg.RING_CH_EN i = false → violates 2) ∧
      (s.flag Reg.RING_CH_EN i = true → m.tag.toNat ≠ tag → violates 3) ∧
      (s.flag Reg.RING_CH_EN i = true → m.tag.toNat = tag → m.type = 1 → r.used + r.owed < s.reg Reg.RING_CRED i →
        (∀ y ∈ (r.stash ++ [m]).head?, y.first = true ∧ y.type ≠ 0) → s.mayLand p.toNat c = false →
        ∃ u, exec (.dataPacket p m) s = .next u ∧ BesideRing s u ∧ u.regs = s.regs ∧
          u.recvChan p.toNat c = { r with
            used := r.used + 1, stash := r.stash ++ [m], lost := if m.first then r.lost.erase m.msgId.toNat else r.lost } ∧
          (u.port p.toNat).rxSeq = (P.rxSeq + 1) % 4096)) ∧
    (crc32c (flitBytes f) = f.crc → NoCredits f → P.txTotal ≥ 4096 →
      (f.type = 0x3 → ∃ u, exec (.controlFlit p f) s = .next u ∧ (u.port p.toNat).retry.map (·.pkt) = P.retry.map (·.pkt) ∧
        (∀ h ∈ (u.port p.toNat).retry.dropWhile fun h => h.pkt.seq != f.seq, h.resend = true)) ∧
      (f.type = 0x2 → ∀ l h rest, P.retry = l ++ h :: rest → h.pkt.seq = f.seq → (∀ y ∈ l, y.pkt.seq ≠ f.seq) →
        ((∀ y ∈ l ++ [h], y.pkt.last = false) →
          exec (.controlFlit p f) s = .next (s.setPort p.toNat { P with retry := rest, naks := 0 })) ∧
        (∀ x n, (∀ y ∈ l, y.pkt.last = false) → h.pkt.last = true → h.ch < 16 → P.msgs.find? (fun y => decide (y.no = h.no)) = some x →
          x.relay = none → s.chanLbx p.toNat h.ch false = some n → (∀ q d, (s.recvChan q d).stash = []) →
          let o := instance_ p.toNat h.ch false
          let box := s.reg Reg.TEN_LB_FIRST (s.reg Reg.RING_CH_TEN o) + n
          (s.lb box).toNat + 1 < 2 ^ 32 → ∃ u, exec (.controlFlit p f) s = .next u ∧ (u.port p.toNat).retry = rest ∧
            (u.port p.toNat).msgs = P.msgs.erase x ∧ u.lb box = s.lb box + 1 ∧
            u.reg Reg.RING_MSGS o = (s.reg Reg.RING_MSGS o + 1) % 2 ^ 32))) ∧
    (crc32c (flitBytes f) = f.crc → f.type ∉ [0x2, 0x3, 0x6] → ∃ u, exec (.controlFlit p f) s = .next u ∧
      ∀ k, k < 16 → k < f.credits.length →
        let cap := s.reg Reg.RING_CRED (instance_ p.toNat k false)
        let y := s.sendChan p.toNat k
        let n := (f.credits.getD k 0).toNat
        (u.sendChan p.toNat k).credits = if n = 0 then y.credits else if y.credits + n ≤ cap then y.credits + n else max cap y.credits)
end

section
open Sys2Proof Sys2Proof.Machine Sys2Proof.Claims
/-- LANDING_START lands a packet of a message that its channel's letterbox and mailbag let land: its payload stands at its place in the
message's buffer, and its credit is owed. The last packet of a message also writes the header in its slot of the shared store,
nothing else of which changes; the message's handle joins the channel's mailbag or is held, and the channel counts it. A message
the channel may not take is discarded and counted, packet by packet (R304, R311, R312, R319). -/
def Obligations.LandedMessageReachesItsMailbag : Prop :=
  ∀ (s : State) (p : PortNo) (ch : Chan) (m : Packet) (b n : Nat),
    let c := ch.toNat
    let i := instance_ p.toNat c true
    let t := s.reg Reg.RING_CH_TEN i
    let r := s.recvChan p.toNat c
    let len := m.msgLen.toNat
    let buf := s.bufAddr p.toNat c r.k
    let hdr := s.hdrAddr p.toNat c r.k
    let idx := m.pktIdx.toNat
    let at_ := buf + 2048 * idx
    let size := min 2048 (len - 2048 * idx)
    s.domOn (if p.toNat < 2 then domRNA else domRNB) = true → s.resets.block = false → s.flag Reg.RING_CH_EN i = true →
    r.stash = [m] → r.kept = 0 → m.type = 1 →
    (m.first = true → s.mayLand p.toNat c = false → exec (.landingStart p ch) s = .next s) ∧
    ((m.first = true → s.mayLand p.toNat c = true ∧ r.isOld m.msgId.toNat = false) → r.tail m = false → r.consistent m = true →
      len ≤ s.bufSize p.toNat c → s.chanBag p.toNat c true = some b → s.chanLbx p.toNat c true = some n →
      (s.flag Reg.RING_RELAY_EN i = false ∨ m.hops = 0) → at_ + size ≤ 2 ^ 28 →
      (∀ x, at_ ≤ x → x < at_ + size → s.otherBuffer p.toNat c x = false ∧ s.inShared t x = true ∧ s.inShared t (x / 64 * 64) = true) →
      let held := fun (x : Nat) => if at_ ≤ x ∧ x < at_ + size then m.payload.getD (x - at_) 0 else s.shared.byte x
      (m.last = false → ∃ u, exec (.landingStart p ch) s = .next u ∧ (∀ x, u.shared.byte x = held x) ∧
        (let q := u.recvChan p.toNat c
         q.k = r.k ∧ q.stash = [] ∧ q.owed = r.owed + 1 ∧ q.used = r.used - 1 ∧ q.begun = true ∧ q.nextPkt = idx + 1 ∧
         q.discard = false ∧ q.lastId = r.lastId ∧ q.heldHandle = r.heldHandle) ∧
        u.disp = s.disp ∧ u.reg Reg.RING_MSGS i = s.reg Reg.RING_MSGS i ∧ u.mem = s.mem ∧ u.arrs = s.arrs) ∧
      (m.last = true → hdr + 64 ≤ 2 ^ 28 →
        (∀ x, hdr ≤ x → x < hdr + 64 → s.inShared t x = true ∧ s.inShared t (x / 64 * 64) = true) →
        let head := leBytes 4 len ++ leBytes 4 m.user.toNat ++ leBytes 4 m.srcPos.toNat ++ leBytes 4 m.msgId.toNat ++
          leBytes 4 m.hops.toNat ++ leBytes 44 0
        ∃ u, exec (.landingStart p ch) s = .next u ∧
          (∀ x, u.shared.byte x = if hdr ≤ x ∧ x < hdr + 64 then head.getD (x - hdr) 0 else held x) ∧
          (let q := u.recvChan p.toNat c
           q.k = r.k + 1 ∧ q.stash = [] ∧ q.owed = r.owed + 1 ∧ q.used = r.used - 1 ∧ q.lastId = some m.msgId.toNat ∧
           ((s.bag b).handles.length < 64 → q.heldHandle = r.heldHandle ∧
             (u.bag b).handles = (s.bag b).handles ++ [(BitVec.ofNat 32 (buf % 2 ^ 28), none)]) ∧
           (64 ≤ (s.bag b).handles.length → q.heldHandle = some (BitVec.ofNat 32 (buf % 2 ^ 28)) ∧ u.bag b = s.bag b)) ∧
          u.reg Reg.RING_MSGS i = (s.reg Reg.RING_MSGS i + 1) % 2 ^ 32 ∧ u.mem = s.mem ∧ u.arrs = s.arrs)) ∧
    (m.first = true → s.mayLand p.toNat c = true → r.tail m = false → r.consistent m = true → r.isOld m.msgId.toNat = false →
      (s.bufSize p.toNat c < len ∨ s.chanBag p.toNat c true = none ∨ s.chanLbx p.toNat c true = none) → m.msgId.toNat ∉ r.lost →
        ∃ u, exec (.landingStart p ch) s = .next u ∧ u.shared = s.shared ∧ Raised u (0x2B + p.toNat) 4 ∧
          u.reg Reg.RING_MSG_DROP_CNT p.toNat = min (s.reg Reg.RING_MSG_DROP_CNT p.toNat + 1) (2 ^ Reg.RING_MSG_DROP_CNT.width - 1) ∧
          (u.recvChan p.toNat c).k = r.k ∧ (u.recvChan p.toNat c).owed = r.owed + 1 ∧ (u.recvChan p.toNat c).discard = !m.last ∧
          u.mem = s.mem ∧ u.arrs = s.arrs) ∧
    (r.tail m = true → ∃ u, exec (.landingStart p ch) s = .next u ∧ BesideRing s u ∧ u.regs = s.regs ∧ u.ctl = s.ctl ∧
      (let q := u.recvChan p.toNat c
       q.k = r.k ∧ q.stash = [] ∧ q.owed = r.owed + 1 ∧ q.used = r.used - 1 ∧ q.discard = !m.last ∧ q.heldHandle = r.heldHandle))
end

namespace Sys2Proof.Claims
open Sys2Proof.Machine

/-- RETAIN or OFF of domain `d` is refused as in use (Table 16.3, WHY 1). -/
def InUse (s : State) (d : Nat) : Prop :=
  let anyTen := ∃ t < 16, s.tenEn t = true
  let anyGroup := ∃ g < 16, s.domOn g = true
  let meets := fun (h base size : Nat) => 0 < size ∧ base < (h + 1) * 0x08000000 ∧ h * 0x08000000 < base + size
  (d < 16 ∧ ((∃ t < 16, s.tenEn t = true ∧ ∃ k < 4, (s.units t).testBit (4 * d + k) = true) ∨ ∃ a, s.resets.arr = some a ∧ a / 64 = d)) ∨
  ((d = 16 ∨ d = 17) ∧ (anyGroup ∨ s.domOn 21 = true ∨ s.domOn 22 = true ∨ ∃ t < 16, s.tenEn t = true ∧
    (meets (d - 16) (s.reg Reg.TEN_SS_BASE t * 65536) (s.reg Reg.TEN_SS_SIZE t * 65536) ∨
     meets (d - 16) (s.reg Reg.MPORT_STG_BASE t / 64 * 64) (s.reg Reg.MPORT_STG_SIZE t * 65536)))) ∨
  (d = 18 ∧ (anyTen ∨ anyGroup ∨ ∃ e ∈ [16, 17, 19, 20, 21, 22], s.domOn e = true)) ∨
  (d = 19 ∧ ∃ p < 16, s.flag Reg.CACHE_EN p = true) ∨
  (d = 20 ∧ (anyTen ∨ anyGroup ∨ s.domOn 19 = true)) ∨
  (d = 21 ∧ (s.flag Reg.RING_LINK_EN 0 = true ∨ s.flag Reg.RING_LINK_EN 1 = true)) ∨
  (d = 22 ∧ (s.flag Reg.RING_LINK_EN 2 = true ∨ s.flag Reg.RING_LINK_EN 3 = true))

/-- The domains that must be ON before domain `d` (Table 16.3, WHY 3): 16 SS0, 17 SS1, 18 DSP, 19 KVC, 20 MPT, 21 RNA, 22 RNB. -/
def prerequisites (d : Nat) : List Nat :=
  if d < 16 then [18, 20, 16, 17] else if d = 16 ∨ d = 17 ∨ d = 20 then [18] else if d = 19 then [18, 20]
  else if d = 21 ∨ d = 22 then [18, 16, 17] else []

/-- Why a request of domain `d` for state `r` (0 ON, 1 RETAIN, 2 OFF) is refused, if it is (R376). -/
def RefusedFor (s : State) (d r why : Nat) : Prop :=
  if d = 23 then r ≠ 0 ∧ why = 4
  else if r = 0 then why = 3 ∧ ∃ n ∈ prerequisites d, s.domOn n = false
  else if r = 1 ∧ s.domOn d = false ∧ (s.dom d).state ≠ .retain then why = 2
  else why = 1 ∧ InUse s d

/-- `u` is `s` with domain `d` at `x`, but for event state and counters and what `f` hides besides. -/
def DomBecomes (s u : State) (d : Nat) (x : Domain) (f : State → State) : Prop :=
  u.dom d = x ∧ (∀ e, e ≠ d → u.dom e = s.dom e) ∧
    f { u with doms := [], regs := [], ctl := {} } = f { s with doms := [], regs := [], ctl := {} }

/-- A state without what a domain that loses its supply may take with it: `hide d` of two states compares the rest. -/
def hide (d : Nat) (w : State) : State :=
  if d < 16 then { w with arrs := [] }
  else { w with arrs := [], shared := [], disp := {}, faults := [], letters := [], cache := {}, mport := {}, ring := [] }

/-- What an array of a group in RETAIN (Table 16.8) or in OFF keeps, the rest being as reset leaves it. -/
def keptArray (A : ArrayState) (retain : Bool) : ArrayState :=
  if retain then { store := A.store, banks := A.banks, engines := A.engines, dead := A.dead, loads := A.loads, placed := A.placed }
  else { banks := { epochs := A.banks.epochs, loads := A.banks.loads }, loads := A.loads, placed := A.placed }

/-- A domain that loses its supply (Table 16.8): fields of classes B, T and U of its pages return to reset values but for the submitter
records kept in RETAIN; class C and F fields stay. Array stores, tables and arming, a half of the shared store, and the dispatcher's
letterboxes, mailbags, library, receipt entries and logs stay in RETAIN and are gone in OFF. Collection generations, the counts of lost
records and the walk buffers return to 0, the links of a ring domain are DOWN, and every other domain's state stays (R375, R395). -/
def LosesSupply (s u : State) (d : Nat) (retain : Bool) : Prop :=
  (∀ f ∈ allFields, ∀ i j, i < 2 ^ 32 → j < 256 → f ≠ Reg.BLK_EVT_LOST_CNT → f ≠ Reg.BLK_ROUTE_DROP_CNT →
    u.reg f i j = if f.cls ∈ [RClass.b, .t, .u] ∧ fieldDom f i = d ∧
      ¬ (retain = true ∧ f ∈ [Reg.DSP_SUB_EN, Reg.DSP_SUB_TEN, Reg.DSP_SUB_ID]) then f.reset else s.reg f i j) ∧
  (∀ x, u.shared.byte x = if retain = false ∧ (d = 16 ∨ d = 17) ∧ (d - 16) * 0x08000000 ≤ x ∧ x < (d - 15) * 0x08000000 then 0
    else s.shared.byte x) ∧
  (Tbl.wf {} s.arrs = true → ∀ a, u.arr a = if d < 16 ∧ a / 64 = d then keptArray (s.arr a) retain
    else if d = 18 then { s.arr a with banks := { (s.arr a).banks with epochs := 0, loads := 0 } } else s.arr a) ∧
  u.disp = (if d ≠ 18 then s.disp else if retain then { s.disp with queues := [], rr := 0, coll := [] } else {}) ∧
  (Tbl.wf {} s.faults = true → Tbl.wf {} s.letters = true → ∀ p,
    u.faultPart p = (if d ≠ 18 then s.faultPart p else if retain then { s.faultPart p with lost := 0 } else {}) ∧
    u.deadPart p = (if d ≠ 18 then s.deadPart p else if retain then { s.deadPart p with lost := 0 } else {})) ∧
  u.cache = (if d = 19 then {} else s.cache) ∧ u.mport = (if d = 20 then {} else s.mport) ∧
  ∀ p, u.port p = if (d = 21 ∧ p < 2) ∨ (d = 22 ∧ 2 ≤ p) then {} else s.port p
end Sys2Proof.Claims

section
open Sys2Proof Sys2Proof.Machine Sys2Proof.Claims
/-- A request of the postmaster that Table 16.3 refuses changes nothing but REFUSED and WHY and raises DOM_FAIL; another begins the
transition with its voltage code, or waits for REST where it leaves a domain that works, until a refresh of the monitors finds it without
work. One that turns back from RETAIN or OFF has lost what that state loses (both the model's choice, log 34). The acknowledge, and after
OFF the zeroed SRAM, end it with DOM_DONE; a domain that goes to RETAIN or OFF keeps and loses the state of Table 16.8, of an array, the
dispatcher, the cache unit, the memory port and the ring links as of its registers and stores; without acknowledge it FAILS with DOM_FAIL,
and what its SRAM held is gone as in OFF: the model's choice (log 34) (R375, R376, R378, R379, R395). A domain number of 24 or more, which
Table 16.1 does not have, stops the row (the model's choice, log 36). -/
def Obligations.PowerDomainsFollowRequests : Prop :=
  ∀ (s : State) (fid : Fid) (v : Word) (d : Nat) (m : MonSample),
    let x := s.dom d
    let r := min (v.toNat % 4) 2
    (d < 24 → IsPm s fid → chosen s fid 1 Reg.PWR_DOM_SEL = d →
      (∀ why, RefusedFor s d r why → ∃ u, Writes (.domReqWrite fid v) s u ∧
        DomBecomes s u d { x with refused := true, why := why } id ∧ Raised u 1 1) ∧
      ((∀ why, ¬ RefusedFor s d r why) →
        let y := { x with req := r, refused := false, why := 0, acked := false, waiting := false }
        let start := if d ∈ [20, 21, 22] then 150 else 140
        let works := r ≠ 0 ∧ s.domOn d = true ∧ s.domWorks d = true
        (works → Writes (.domReqWrite fid v) s (s.setDom d { x with req := r, refused := false, why := 0, waiting := true })) ∧
        (r = 0 → x.state = .poweringDown → ∃ u, Writes (.domReqWrite fid v) s u ∧ LosesSupply s u d (x.req == 1) ∧
          DomBecomes s u d { y with state := .poweringUp, from_ := if x.req = 1 then .retain else .off, vcode := start } (hide d)) ∧
        (¬ works → (r = 0 → x.state ≠ .poweringDown) → Writes (.domReqWrite fid v) s (s.setDom d
          (if r = 0 then (if s.domOn d = true then y
            else { y with state := .poweringUp, vcode := start
                          from_ := if x.state = .retain then .retain else if x.state = .poweringUp then x.from_ else .off })
           else if r = 1 then (if x.state = .retain then y else { y with state := .poweringDown, vcode := 100 })
           else if x.state = .off then y else { y with state := .poweringDown, vcode := 0 }))))) ∧
    (∃ u, exec (.monitorRefresh m) s = .next u ∧ (x.waiting = false ∨ s.domOn d = false ∨ s.domWorks d = true → u.dom d = x) ∧
      (d < 24 → x.waiting = true → s.domOn d = true → s.domWorks d = false → x.req = 1 ∨ x.req = 2 →
        u.dom d = { state := .poweringDown, req := x.req, from_ := x.from_, vcode := if x.req = 1 then 100 else 0 })) ∧
    (d < 24 → x.state = .poweringUp →
      (x.from_ ≠ .retain → exec (.powerAck d) s = .next (s.setDom d { x with acked := true })) ∧
      (x.from_ = .retain → ∃ u, exec (.powerAck d) s = .next u ∧ DomBecomes s u d { x with state := .rest } id ∧ Raised u 1 0) ∧
      (x.acked = true → ∃ u, exec (.domainSramZeroed d) s = .next u ∧ DomBecomes s u d { x with state := .rest } id ∧ Raised u 1 0)) ∧
    (d < 24 → x.state ≠ .poweringUp ∨ x.acked = false → exec (.domainSramZeroed d) s = .next s) ∧
    ((d < 24 → x.state = .poweringDown → ∃ u, exec (.powerAck d) s = .next u ∧ Raised u 1 0 ∧ LosesSupply s u d (x.req == 1) ∧
       DomBecomes s u d { x with state := if x.req = 1 then .retain else .off } (hide d)) ∧
     (d < 24 → (x.state = .poweringUp ∧ x.acked = false) ∨ x.state = .poweringDown → ∃ u, exec (.pwrTimeout d) s = .next u ∧ Raised u 1 1 ∧
       LosesSupply s u d false ∧ DomBecomes s u d { x with state := .failed, vcode := 0, why := 5 } (hide d))) ∧
    (d < 24 → x.state ∉ [DomState.poweringUp, .poweringDown] → exec (.powerAck d) s = .next s ∧ exec (.pwrTimeout d) s = .next s) ∧
    (24 ≤ d → ∀ ins, ∀ i ∈ [Instr.powerAck d, .domainSramZeroed d, .pwrTimeout d, .vmonOut d, .ieee1687Access d ins],
      exec i s = .fault .noSuchDomain)
end

namespace Sys2Proof.Claims
open Sys2Proof.Machine

/-- Nothing differs but registers, event state and monitors. -/
def BesideMonitors (s t : State) : Prop := ({ t with regs := [], ctl := {}, mon := {} } : State) = { s with regs := [], ctl := {}, mon := {} }

/-- The hold of the block begins and ends with an event (R384). -/
def HoldEvents (s t : State) : Prop :=
  (s.hold = false → t.hold = true → Raised t 1 3) ∧ (s.hold = true → t.hold = false → Raised t 1 4)

/-- A signed register or reading in quarter degrees. -/
def quarters (n : Nat) : Int := if n < 2 ^ 15 then n else (n : Int) - 2 ^ 16

/-- The pace limit of a group as the rules bound it (R386; Table 16.9). -/
def paceLimitOf (s : State) (g : Nat) : Nat :=
  min (max 700 (min (s.reg Reg.PWR_PACE_TGT g) 1300)) (min (Tbl.get 1300 s.mon.thermLimit g) (s.reg Reg.PWR_CAP_LIMIT))

/-- Nothing differs but registers, event state, monitors and power domains. -/
def BesideRefresh (s t : State) : Prop :=
  ({ t with regs := [], ctl := {}, mon := {}, doms := [] } : State) = { s with regs := [], ctl := {}, mon := {}, doms := [] }

/-- The energy in µJ of one microsecond of domain `d` that goes to tenancy `t` (R346). -/
def energyShare (s : State) (d t : Nat) : Nat :=
  let accrued := fun (n : Nat) => Tbl.get 0 s.meter.accrued (d * 16 + n)
  let total := (List.range 16).foldl (fun n k => n + accrued k) 0
  let e := s.reg Reg.PWR_P_EST d / 10
  let busy := min 64 (s.meter.busy.filter fun a => a / 64 == d).length
  let part := if d = 23 then 0 else if d < 16 then e * busy / 64 else e
  if total = 0 then 0 else part * accrued t / total
end Sys2Proof.Claims

section
open Sys2Proof Sys2Proof.Machine Sys2Proof.Claims
/-- A refresh takes the readings, shows the hottest, sums the estimates and enters or leaves THERMAL hold; THERMAL_LIMIT_STEP moves a
group's limit by 10 Mbeat/s; ten microseconds out of window of one monitor set its domain's VMON_OUT. A VIN sample outside the warning
range warns, one at or below VIN_HOLD holds, and the hold ends once good samples span HOLD_DWELL; a missing one keeps the value, and
three in a row raise VIN_LOST and do not hold. HOLD_REQ is the host cause (R380 to R385). That a rail of code 0 is never out of its
window and that a missing sample starts the span of good ones anew (log 32), and that VIN_LOST acts at the third missing sample in a
row (log 41), are the model's readings. -/
def Obligations.MonitorsEnterAndLeaveHold : Prop :=
  ∀ (s : State) (m : MonSample) (fid : Fid) (v : Word) (g : Group) (d : Nat) (mv : BitVec 16),
    let thr := quarters (s.reg Reg.MON_TJ_THROTTLE)
    let crit := quarters (s.reg Reg.MON_TJ_CRIT)
    (∃ u, exec (.monitorRefresh m) s = .next u ∧ BesideRefresh s u ∧ HoldEvents s u ∧
      u.mon.thermal = m.thermal ∧ u.mon.voltage = m.voltage ∧ u.mon.paceArr = m.paceArray ∧ u.mon.paceStore = m.paceStore ∧
      (∀ (k : Nat) h, k < 64 → m.thermal[k]? = some h → (∀ (j : Nat) y, m.thermal[j]? = some y → y.toInt ≤ h.toInt ∧ (y.toInt = h.toInt → k ≤ j)) →
        u.reg Reg.MON_TJ_HOT = h.toNat ∧ u.reg Reg.MON_TJ_HOT_IDX = k) ∧
      (u.mon.hot = true ↔ (∃ y ∈ m.thermal, crit ≤ y.toInt) ∨ (s.mon.hot = true ∧ ∃ y ∈ m.thermal, thr ≤ y.toInt)) ∧
      (∀ i, i < 48 → let want := 5 * (s.dom (i / 2)).vcode
        let y := (m.voltage.getD i 0).toNat
        Tbl.get 0 u.mon.vmonBad i = if (s.dom (i / 2)).vcode ≠ 0 ∧ s.reg Reg.MON_V_WIN < max y want - min y want
          then Tbl.get 0 s.mon.vmonBad i + 1 else 0) ∧
      u.reg Reg.PWR_P_TOTAL = min ((List.range 24).foldl (fun n e => n + u.reg Reg.PWR_P_EST e) 0) 0xFFFF ∧
      u.mon.brownout = s.mon.brownout ∧ u.reg Reg.PWR_HOLD_REQ = s.reg Reg.PWR_HOLD_REQ) ∧
    (let lim := Tbl.get 1300 s.mon.thermLimit g.toNat
     let set := fun (n : Nat) => { s.mon with thermLimit := Tbl.set 1300 s.mon.thermLimit g.toNat n }
     let y := fun (k : Nat) => (s.mon.thermal.getD (3 * g.toNat + k) 0).toInt
     ((∃ k, k < 3 ∧ thr < y k) → ∃ u, exec (.thermalLimitStep g) s = .next u ∧ BesideMonitors s u ∧ u.mon = set (lim - 10) ∧ Raised u 2 0) ∧
     ((∀ k, k < 3 → y k < thr - 8) → exec (.thermalLimitStep g) s = .next { s with mon := set (min (lim + 10) 1300) }) ∧
     ((∀ k, k < 3 → y k ≤ thr) → (∃ k, k < 3 ∧ thr - 8 ≤ y k) → exec (.thermalLimitStep g) s = .next s)) ∧
    (d < 24 → (10 ≤ Tbl.get 0 s.mon.vmonBad (2 * d) ∨ 10 ≤ Tbl.get 0 s.mon.vmonBad (2 * d + 1) → ∃ u, exec (.vmonOut d) s = .next u ∧ BesideRegs s u ∧ Raised u 2 4 ∧
        ∀ e, e < 24 → ((u.reg Reg.MON_VMON_OUT).testBit e = true ↔ e = d ∨ (s.reg Reg.MON_VMON_OUT).testBit e = true)) ∧
      (Tbl.get 0 s.mon.vmonBad (2 * d) < 10 → Tbl.get 0 s.mon.vmonBad (2 * d + 1) < 10 → exec (.vmonOut d) s = .next s)) ∧
    (let low := max 40000 (min (s.reg Reg.MON_VIN_HOLD) 46000)
     let good := max (s.reg Reg.MON_VIN_RESUME) low
     ∃ u, exec (.vinSample (some mv)) s = .next u ∧ BesideMonitors s u ∧ HoldEvents s u ∧
      u.reg Reg.MON_VIN = mv.toNat ∧ u.flag Reg.MON_VIN_VALID = true ∧
      (mv.toNat < s.reg Reg.MON_VIN_WARN_LO ∨ s.reg Reg.MON_VIN_WARN_HI < mv.toNat → Raised u 2 2) ∧
      (mv.toNat ≤ low → Raised u 2 3) ∧
      u.mon = { s.mon with brownout := s.mon.brownout || decide (mv.toNat ≤ low)
                           vinBad := 0
                           vinGood := if good ≤ mv.toNat then s.mon.vinGood + 1 else 0 }) ∧
    (∃ u, exec (.vinSample none) s = .next u ∧ BesideMonitors s u ∧ u.flag Reg.MON_VIN_VALID = false ∧ u.ctl = s.ctl ∧
      u.reg Reg.MON_VIN = s.reg Reg.MON_VIN ∧ u.mon = { s.mon with vinGood := 0, vinBad := s.mon.vinBad + 1 } ∧ u.hold = s.hold) ∧
    (3 ≤ s.mon.vinBad → ∃ u, exec .vinLost s = .next u ∧ BesideRegs s u ∧ Raised u 2 5 ∧ (∀ f ∈ monFields, u.reg f = s.reg f) ∧
      u.hold = s.hold) ∧
    (s.mon.vinBad < 3 → exec .vinLost s = .next s) ∧
    (s.mon.brownout = true → 0 < s.mon.vinGood → s.reg Reg.MON_HOLD_DWELL ≤ 10 * (s.mon.vinGood - 1) →
      ∃ u, exec .holdExit s = .next u ∧ BesideMonitors s u ∧ HoldEvents s u ∧ u.mon = { s.mon with brownout := false } ∧ (∀ f ∈ pwrFields, u.reg f = s.reg f)) ∧
    (s.mon.brownout = false ∨ s.mon.vinGood = 0 ∨ 10 * (s.mon.vinGood - 1) < s.reg Reg.MON_HOLD_DWELL → exec .holdExit s = .next s) ∧
    (IsPm s fid → ∃ u, Writes (.holdReq fid v) s u ∧ BesideRegs s u ∧ HoldEvents s u ∧ u.reg Reg.PWR_HOLD_REQ = v.toNat % 2) ∧
    (s.hold = true ↔ s.mon.brownout = true ∨ s.mon.hot = true ∨ s.flag Reg.PWR_HOLD_REQ = true)
end

section
open Sys2Proof Sys2Proof.Machine Sys2Proof.Claims
/-- A governor step sets the pace limit of each group that is ON, and moves the request of each governed rail that is ON by at most 2
codes: toward 124 in hold, toward V_OVR where it is enabled, down where an array line exceeds 1,300 Mbeat/s. The cap limit follows the
average over CAP_WINDOW between 700 and 1,300. The meter takes the estimate of a microsecond and gives each tenancy its share, the
rest being UNASSIGNED. The time base loses and regains its valid signal (R346, R348, R378, R384, R386, R387). The governor's range of
124 to 170, the size of its steps, the energy of a microsecond as the estimate over 10 rounded down, and what is rounded off going to
UNASSIGNED are the model's readings (log 32). -/
def Obligations.GovernorAndMeterFollowEstimates : Prop :=
  ∀ (s : State) (d : Nat),
    (∃ u, exec .governorStep s = .next u ∧
      (∀ g, Tbl.get 1300 u.mon.paceLimit g = if g < 16 ∧ s.domOn g = true then paceLimitOf s g else Tbl.get 1300 s.mon.paceLimit g) ∧
      u.mon = { s.mon with paceLimit := u.mon.paceLimit } ∧
      ({ u with mon := {}, doms := [], freeCtr := 0 } : State) = { s with mon := {}, doms := [], freeCtr := 0 } ∧
      (∀ e, ¬ (e < 20 ∧ s.domOn e = true) → u.dom e = s.dom e) ∧
      (d < 20 → s.domOn d = true →
        let c := (s.dom d).vcode
        let n := (u.dom d).vcode
        let toward := fun (t : Nat) => if c < t then min t (c + 2) else max t (c - 2)
        u.dom d = { s.dom d with vcode := n } ∧ n ≤ c + 2 ∧ c ≤ n + 2 ∧
        (s.flag Reg.PWR_V_OVR_EN d = true → n = toward (max 124 (min (s.reg Reg.PWR_V_OVR d) 170))) ∧
        (s.flag Reg.PWR_V_OVR_EN d = false →
          (s.hold = true → n = toward 124) ∧
          (s.hold = false → d < 16 → (∃ k, k < 8 ∧ 1300 < (s.mon.paceArr.getD (8 * d + k) 0).toNat) →
            (124 < c → n < c ∧ 124 ≤ n) ∧ (c ≤ 124 → n = toward 124))))) ∧
    (let n := s.mon.capCount
     let cap := max 300 (min (s.reg Reg.PWR_POWER_CAP) 1800)
     let lim := s.reg Reg.PWR_CAP_LIMIT
     let above := 10 * cap * n < s.mon.capSum
     let well := 100 * s.mon.capSum < 95 * (10 * cap * n)
     (n < max (s.reg Reg.PWR_CAP_WINDOW) 1 → exec .capWindowEnd s = .next s) ∧
     (max (s.reg Reg.PWR_CAP_WINDOW) 1 ≤ n → ∃ u, exec .capWindowEnd s = .next u ∧ BesideMonitors s u ∧
       u.mon = { s.mon with capSum := 0, capCount := 0 } ∧
       (above → lim ≤ 700 → Raised u 1 2 ∧ u.reg Reg.PWR_CAP_LIMIT = lim) ∧
       (above → 700 < lim → u.reg Reg.PWR_CAP_LIMIT = max 700 (lim - 10) ∧ u.ctl = s.ctl) ∧
       (well → u.reg Reg.PWR_CAP_LIMIT = min 1300 (lim + 10) ∧ u.ctl = s.ctl) ∧
       (¬ above → ¬ well → u.regs = s.regs ∧ u.ctl = s.ctl))) ∧
    (∃ u, exec .meterApportion s = .next u ∧ u.meter.accrued = [] ∧ u.meter.busy = [] ∧ u.meter.work = [] ∧ u.meter.shift = s.meter.shift ∧ ({ u with meter := {} } : State) = { s with meter := {} } ∧
      (∀ t, u.acct t = if t < 16 then { s.acct t with energyUj := (s.acct t).energyUj + (List.range 24).foldl (fun n e => n + energyShare s e t) 0 }
        else s.acct t) ∧
      u.meter.unassignedUj = s.meter.unassignedUj + (List.range 24).foldl (fun n e => n + (s.reg Reg.PWR_P_EST e / 10 -
        (List.range 16).foldl (fun k t => k + energyShare s e t) 0)) 0) ∧
    (∃ u, exec .tbLost s = .next u ∧ u.tb = { s.tb with valid := false } ∧ (s.domOn 18 = true → Raised u 0x32 0) ∧
      ({ u with tb := {}, regs := [], ctl := {} } : State) = { s with tb := {}, regs := [], ctl := {} }) ∧
    exec .timeBaseValidRises s = .next { s with tb := { s.tb with valid := true } }
end

namespace Sys2Proof.Claims
open Sys2Proof.Machine

/-- The tenancy that a ring channel names. -/
def chanTenancy (s : State) (p c : Nat) (recv : Bool) : Nat := s.reg Reg.RING_CH_TEN (instance_ p c recv)

/-- `u` is `s` after steps 1 to 4 of a reset of the tenancies that `p` names: their queues are disabled and empty, their accepted commands
and tasks are gone, the arrays that ran them idle, their ring channels disabled; memory, power states and the stores stay (R390). -/
def Emptied (s u : State) (p : Nat → Bool) : Prop :=
  (∀ q, q < 64 → p (q / 4) = true → u.flag Reg.SUBQ_EN q = false ∧ (u.queue q).entries = []) ∧
  (∀ q, q < 64 → p (q / 4) = false → u.flag Reg.SUBQ_EN q = s.flag Reg.SUBQ_EN q ∧ u.queue q = s.queue q) ∧
  (∀ c ∈ u.disp.cmds, p (c.queue / 4) = false) ∧
  (∀ c ∈ s.disp.cmds, p (c.queue / 4) = false → c ∈ u.disp.cmds) ∧
  (∀ rid x, u.task rid = some x → p x.ten = false) ∧
  (Tbl.wf none s.disp.tasks = true → ∀ rid x, s.task rid = some x →
    (p x.ten = false → u.task rid = some x) ∧ (p x.ten = true → (s.arr x.array).task = some rid → (u.arr x.array).task = none)) ∧
  (∀ k c r, k < 4 → c < 16 → p (chanTenancy s k c r) = true → u.flag Reg.RING_CH_EN (instance_ k c r) = false) ∧
  (∀ k c r, k < 4 → c < 16 → p (chanTenancy s k c r) = false →
    u.flag Reg.RING_CH_EN (instance_ k c r) = s.flag Reg.RING_CH_EN (instance_ k c r)) ∧
  u.mem = s.mem ∧ u.shared = s.shared ∧ u.doms = s.doms

/-- Some write of a tenancy is neither accepted nor timed out, or still to be released. -/
def WritesLeft (s : State) (t : Nat) : Prop :=
  s.outstanding (fun x => x.ten == t && x.kind != 0) = true ∨ ∃ c ∈ s.mport.staged, c.ten = t

/-- A TENANCY, ARRAY or BLOCK reset runs. -/
def ResetRuns (s : State) : Prop := s.resets.ten ≠ none ∨ s.resets.arr ≠ none ∨ s.resets.block = true

/-- Array `a` may be reset: its group is ON, and it is quarantined, dead by soft bypass alone, or in no enabled tenancy's units (R391). -/
def MayReset (s : State) (a : Nat) : Prop :=
  let softDead := s.isDead a = true ∧ (s.fuseRec a).testBit 6 = false ∧ fuseBad (s.fuseRec a) = false
  s.domOn (a / 64) = true ∧ ((s.cond a).quarantined = true ∨ softDead ∨ ∀ t < 16, s.tenEn t = true → (s.units t).testBit (a / 16) = false)

/-- Every field of the tables but the counters of lost events. -/
def counted (f : FieldSpec) : Prop := f ≠ Reg.BLK_EVT_LOST_CNT ∧ f ≠ Reg.BLK_ROUTE_DROP_CNT
end Sys2Proof.Claims

section
open Sys2Proof Sys2Proof.Machine Sys2Proof.Claims
/-- COLD leaves every unit at its reset state, every domain but AON OFF, the fuses loaded and host agent 0 mapped to the fused
postmaster; the memory outside stays. BLOCK empties every tenancy, and once no write is left returns classes B, T and U and what
they govern to reset with BLOCK_DONE and the event credits at the initial grant (the model's choice: none outstanding, log 31),
keeping power states, class C and the fuses (R101, R388, R389, R394, R395, R404). -/
def Obligations.ColdAndBlockResetTheBlock : Prop :=
  ∀ (s : State) (cause : BitVec 2) (f : FuseImage) (fid : Fid) (v : Word),
    (∃ u, exec (.coldReset cause f) s = .next u ∧ u.pending = s.pending ∧ u.mem = s.mem ∧
      (∀ g ∈ allFields, ∀ i j, i < 2 ^ 32 → j < 256 → u.reg g i j =
        if g = Reg.RST_COLD_CAUSE ∧ i = 0 ∧ j = 0 then cause.toNat
        else if g = Reg.BLK_HOST_FID ∧ i = 0 ∧ j = 0 then f.pmFid.toNat else g.reset) ∧
      (∀ d, u.dom d = if d = 23 then { state := .run, req := 0 } else {}) ∧
      (∀ a, a < 1024 → ((∀ e ∈ f.records, e.1 ≠ a) → u.fuseRec a = 0) ∧
        ∀ l r k, f.records = l ++ (a, r) :: k → (∀ e ∈ k, e.1 ≠ a) → u.fuseRec a = r.toNat) ∧
      u.fuses.idcode = f.idcode.toNat ∧ u.fuses.blockId = f.blockId.toNat ∧ u.fuses.pmFid = f.pmFid.toNat ∧
      u.arrs = [] ∧ u.conds = [] ∧ u.shared = [] ∧ u.disp = {} ∧ u.cache = {} ∧ u.mport = {} ∧ u.ring = [] ∧ u.faults = [] ∧
      u.letters = [] ∧ u.meter = {} ∧ u.mon = {} ∧ u.resets = {}) ∧
    (let starts := fun (u : State) => Emptied s u (fun t => decide (t < 16)) ∧ u.resets = { block := true }
     (∃ u, exec (.blockReset none) s = .next u ∧ starts u) ∧
     (IsPm s fid → v.getLsbD 0 = true → v.toNat / 2 ^ 8 % 2 ^ 8 = 0xA5 → ∃ u, Writes (.blockReset (some (fid, v))) s u ∧ starts u) ∧
     (IsPm s fid → v.getLsbD 0 = false ∨ v.toNat / 2 ^ 8 % 2 ^ 8 ≠ 0xA5 → Writes (.blockReset (some (fid, v))) s s)) ∧
    (s.resets.block = false ∨ (∃ t < 16, WritesLeft s t) → exec .blockDone s = .next s) ∧
    (s.resets.block = true → (∀ t < 16, ¬ WritesLeft s t) → ∃ u, exec .blockDone s = .next u ∧ Raised u 3 2 ∧ u.resets = {} ∧
      (∀ g ∈ allFields, counted g → ∀ i j, i < 2 ^ 32 → j < 256 → u.reg g i j =
        if g.cls ∈ [RClass.b, .t, .u] ∧ ¬ (g = Reg.BLK_HOST_FID ∧ i = 0 ∧ j = 0) then g.reset else s.reg g i j) ∧
      u.arrs = [] ∧ u.shared = [] ∧ u.disp = {} ∧ u.cache = {} ∧ u.ring = [] ∧ u.faults = [] ∧ u.letters = [] ∧ u.mport.staged = [] ∧
      (Tbl.wf {} s.conds = true → ∀ a, u.cond a = { s.cond a with rejoin := false }) ∧
      u.ctl.credits = s.ctl.grant ∧ u.ctl.grant = s.ctl.grant ∧ u.ctl.outstanding = 0 ∧
      u.doms = s.doms ∧ u.fuses = s.fuses ∧ u.meter = s.meter ∧ u.mon = s.mon ∧ u.mem = s.mem ∧ u.tb = s.tb ∧ u.segment = s.segment)
end

section
open Sys2Proof Sys2Proof.Machine Sys2Proof.Claims
/-- A TENANCY or ARRAY reset is refused while another reset runs, and an ARRAY reset of an array that may not be reset. A TENANCY
reset empties the tenancy and, once no write of it is left, zeroes what Table 16.8 gives it and raises TEN_DONE, every other class and
tenancy as before. An ARRAY reset zeroes the array and ends with PASS or FAIL, quarantine following the result; a passed array of an
enabled tenancy that is not dead rejoins once no task of it is left, with the banks of its lowest usable array (R102, R103, R389 to
R392, R395). ARR_RESULT reading 0 from the start of an ARRAY reset, and BIST_SKIP read at its end, are the model's readings (log 31).
An ARRAY reset clears EXPERT of every host on the pages of the array's group (R414). -/
def Obligations.TenancyAndArrayResetTheirScope : Prop :=
  ∀ (s : State) (fid : Fid) (v : Word),
    let refused := s.setReg Reg.RST_REFUSED 0 1
    (IsPm s fid →
      let t := v.toNat % 16
      (v.getLsbD 4 = false → Writes (.tenancyReset fid v) s s) ∧
      (v.getLsbD 4 = true → ResetRuns s → Writes (.tenancyReset fid v) s refused) ∧
      (v.getLsbD 4 = true → ¬ ResetRuns s → ∃ u, Writes (.tenancyReset fid v) s u ∧ Emptied s u (fun k => k == t) ∧
        u.resets = { ten := some t } ∧ u.reg Reg.RST_TEN_CUR = t ∧ (∀ k, u.tenEn k = s.tenEn k))) ∧
    (s.resets.ten = none → exec .tenDone s = .next s) ∧
    (∀ t, s.resets.ten = some t → (WritesLeft s t → exec .tenDone s = .next s) ∧
      (t < 16 → ¬ WritesLeft s t → ∃ u, exec .tenDone s = .next u ∧ Raised u 3 0 ∧ u.resets = { s.resets with ten := none } ∧ u.tenEn t = false ∧
        (∀ g ∈ allFields, counted g → g ≠ Reg.TEN_EN → g.cls ≠ .t → ∀ i j, i < 2 ^ 32 → j < 256 → u.reg g i j = s.reg g i j) ∧
        (∀ g ∈ allFields, g ≠ Reg.TEN_EN → g.cls = .t → ∀ i j, i < 2 ^ 32 → j < 256 →
          u.reg g i j = if s.tenField t g i = true then g.reset else s.reg g i j) ∧
        (let mine := fun (first size : FieldSpec) (n : Nat) => s.reg first t ≤ n ∧ InRange s t first size (n - s.reg first t)
         (∀ x, (mine Reg.TEN_SS_BASE Reg.TEN_SS_SIZE (x / 65536) → u.shared.byte x = 0) ∧
          (¬ mine Reg.TEN_SS_BASE Reg.TEN_SS_SIZE (x / 65536) → u.shared.byte x = s.shared.byte x)) ∧
         ∀ n, (mine Reg.TEN_LB_FIRST Reg.TEN_LB_SIZE n → Tbl.get 0 u.disp.lbx n = 0) ∧
          (¬ mine Reg.TEN_LB_FIRST Reg.TEN_LB_SIZE n → Tbl.get 0 u.disp.lbx n = Tbl.get 0 s.disp.lbx n) ∧
          (mine Reg.TEN_MB_FIRST Reg.TEN_MB_SIZE n → u.bag n = {}) ∧ (¬ mine Reg.TEN_MB_FIRST Reg.TEN_MB_SIZE n → u.bag n = s.bag n)) ∧
        (Tbl.wf {} s.arrs = true → ∀ a, a < 1024 →
          ((s.units t).testBit (a / 16) = true → let A := u.arr a
            A.store = [] ∧ A.engines = [] ∧ A.banks = {} ∧ A.task = none ∧ A.ctr = (s.arr a).ctr ∧ A.modes = (s.arr a).modes) ∧
          ((s.units t).testBit (a / 16) = false → u.arr a = s.arr a)) ∧
        (∀ q, u.queue q = if q / 4 = t then {} else s.queue q) ∧
        u.disp.lib = s.disp.lib.filter (fun e => e.2.owner != t) ∧ Tbl.get {} u.faults t = {} ∧ Tbl.get {} u.letters t = {} ∧
        u.meter = s.meter ∧ u.mem = s.mem ∧ u.doms = s.doms ∧ u.ring = s.ring)) ∧
    (IsPm s fid →
      let a := v.toNat % 1024
      (v.getLsbD 10 = false → Writes (.arrayReset fid v) s s) ∧
      (v.getLsbD 10 = true → ResetRuns s ∨ ¬ MayReset s a → Writes (.arrayReset fid v) s refused) ∧
      (v.getLsbD 10 = true → ¬ ResetRuns s → MayReset s a → ∃ u, Writes (.arrayReset fid v) s u ∧ u.resets = { arr := some a } ∧
        u.reg Reg.RST_ARR_CUR = a ∧ u.reg Reg.RST_ARR_RESULT = 0 ∧ (∀ b, b ≠ a → u.arr b = s.arr b ∧ u.cond b = s.cond b) ∧
        (u.arr a).store = [] ∧ (u.arr a).acc = {} ∧ (u.arr a).banks.user = [] ∧ (u.arr a).engines = [] ∧ (u.arr a).pigeon = [] ∧
        u.cond a = { s.cond a with
          softPend := false
          applied := if (s.cond a).softEn = true ∧ fuseCol (s.fuseRec a) ≠ some (s.cond a).softCol then some (s.cond a).softCol else none } ∧
        (∀ g ∈ allFields, counted g → g.scope = .array → (g.cls = .b ∨ g.cls = .u) → ∀ j, j < 256 → u.reg g a j = g.reset) ∧
        (∀ e, e ∈ u.ctl.expert ↔ e ∈ s.ctl.expert ∧ ¬ (pgPROG (a / 64) ≤ e / 17 ∧ e / 17 < pgPROG (a / 64) + 4)) ∧
        u.mem = s.mem ∧ u.shared = s.shared)) ∧
    (s.resets.arr = none → ∀ c, exec (.arrDone c) s = .next s) ∧
    (∀ a c, s.resets.arr = some a → ∃ u, exec (.arrDone c) s = .next u ∧ Raised u 3 1 ∧ u.resets = { s.resets with arr := none } ∧
      (∀ b, u.arr b = s.arr b) ∧ (∀ b, b ≠ a → u.cond b = s.cond b) ∧
      (c = none ∨ s.flag Reg.RST_BIST_SKIP = true → u.reg Reg.RST_ARR_RESULT = 1 ∧ (u.cond a).quarantined = false ∧
        ((u.cond a).rejoin = true ↔ s.isDead a = false ∧ ∃ t < 16, s.tenEn t = true ∧ (s.units t).testBit (a / 16) = true)) ∧
      (∀ k, c = some k → s.flag Reg.RST_BIST_SKIP = false → u.reg Reg.RST_ARR_RESULT = 2 ∧ u.reg Reg.RST_ARR_FCOL = k.toNat ∧
        (u.cond a).quarantined = true ∧ (u.cond a).rejoin = false)) ∧
    (∀ (a : Arr), (s.cond a.toNat).rejoin = true → s.dispatching = true → ∀ t, s.tenOfArr a.toNat = some t →
      ((∃ rid x, s.task rid = some x ∧ x.ten = t) ∨ s.isDead a.toNat = true → exec (.arrayRejoin a) s = .next s) ∧
      (s.isDead a.toNat = false → (∀ e ∈ s.disp.tasks, ∀ x, e.2 = some x → x.ten ≠ t) → ∃ u, exec (.arrayRejoin a) s = .next u ∧
        u.cond a.toNat = { s.cond a.toNat with rejoin := false } ∧ (∀ b, b ≠ a.toNat → u.arr b = s.arr b ∧ u.cond b = s.cond b) ∧
        (∀ b rest, s.usable t = b :: rest → u.arr a.toNat = { s.arr a.toNat with banks :=
          { (s.arr a.toNat).banks with user := (s.arr b).banks.user, active := (s.arr b).banks.active } }) ∧
        (s.usable t = [] → u.arr a.toNat = s.arr a.toNat) ∧
        ({ u with arrs := [], conds := [] } : State) = { s with arrs := [], conds := [] })) ∧
    (∀ (a : Arr), ((s.cond a.toNat).rejoin = false ∨ s.dispatching = false ∨ s.tenOfArr a.toNat = none) → exec (.arrayRejoin a) s = .next s)
end

section
open Sys2Proof Sys2Proof.Machine Sys2Proof.Claims
/-- The debug segment shifts one 0 for BYPASS and the fused identity with bit 0 = 1 for IDCODE; an access to an instrument of a domain
that is not ON, which it leaves bypassed, or with DBG_LOCK set to any but the monitors, selects nothing, and any other sets the
domain's segment insertion bit; the monitor instrument reads out the domain's state, rail code, readings, pace lines and, in AON, the
module input, in the model's order (log 51); a halt stops and releases an array group; a self-test control is recorded
(R397). The instruction codes 0, 1 and 2, and a data register of 0 where the access selects nothing, are the model's choices (log 45). -/
def Obligations.DebugSegmentShifts : Prop :=
  ∀ (s : State) (d : Nat) (ins : Instrument),
    exec .bypass s = .next { s with segment := { s.segment with ir := 0, dr := 0, out := [] } } ∧
    exec .idcode s = .next { s with segment := { s.segment with ir := 1, dr := 2 * s.fuses.idcode + 1, out := [] } } ∧
    (d < 24 → s.domOn d = true → s.flag Reg.RST_DBG_LOCK = true → ins ≠ .monitors →
      exec (.ieee1687Access d ins) s = .next { s with segment := { s.segment with ir := 2, dr := 0, out := [] } }) ∧
    (d < 24 → s.domOn d = false → ∃ l, exec (.ieee1687Access d ins) s =
        .next { s with segment := { s.segment with ir := 2, dr := 0, out := [], inserted := l } } ∧
      ∀ g, (g ∈ l ↔ g ≠ d ∧ g ∈ s.segment.inserted)) ∧
    (d < 24 → s.domOn d = true → (s.flag Reg.RST_DBG_LOCK = false ∨ ins = .monitors) → ∃ u, exec (.ieee1687Access d ins) s = .next u ∧
      u.segment.ir = 2 ∧ ({ u with segment := {} } : State) = { s with segment := {} } ∧
      (∀ g, (g ∈ u.segment.inserted ↔ g = d ∨ g ∈ s.segment.inserted)) ∧
      (ins = .monitors → ∃ temps volts paces, u.segment.out = [s.domShown d, (s.dom d).vcode] ++ temps ++ volts ++ paces ∧
        volts = [2 * d, 2 * d + 1].map (fun i => (s.mon.voltage.getD i 0).toNat) ∧
        temps = (if d < 16 then [3 * d, 3 * d + 1, 3 * d + 2] else [16 + 2 * d, 17 + 2 * d]).map (fun i => (s.mon.thermal.getD i 0).toNat) ∧
        paces = if d < 16 then (List.range 8).map (fun k => (s.mon.paceArr.getD (8 * d + k) 0).toNat)
          else if d < 18 then (List.range 64).map (fun k => (s.mon.paceStore.getD (64 * (d - 16) + k) 0).toNat)
          else if d = 23 then [s.reg Reg.MON_VIN, s.reg Reg.MON_VIN_VALID] else []) ∧
      (∀ on, ins = .selfTest on → ∀ g, (g ∈ u.segment.tests ↔ if g = d then on = true else g ∈ s.segment.tests)) ∧
      ((∀ on, ins ≠ .selfTest on) → u.segment.tests = s.segment.tests) ∧
      (∀ on, ins = .halt on → ∀ g, (g ∈ u.segment.halts ↔ if g = d ∧ d < 16 then on = true else g ∈ s.segment.halts)) ∧
      ((∀ on, ins ≠ .halt on) → u.segment.halts = s.segment.halts)) ∧
    (∀ (a : Arr), a.toNat / 64 ∈ s.segment.halts → s.extStop a.toNat = true)
end

namespace Sys2Proof.Claims
open Sys2Proof.Machine

/-- Memory, the shared store and every array store list bytes at strictly rising addresses and none that reads as an unlisted one. -/
structure Canonical (s : State) : Prop where
  mem : Memory.wf s.mem = true
  shared : Memory.wf s.shared = true
  stores : ∀ e ∈ s.arrs, Memory.wf e.2.store = true

/-- Every submission queue, every postmark window and the credits of every ring and memory channel are within their bounds. -/
structure Bounded (s : State) : Prop where
  queues : ∀ e ∈ s.disp.queues, e.2.entries.length ≤ 256
  windows : ∀ e ∈ s.disp.subs, e.2.window.length ≤ 64
  links : ∀ e ∈ s.ring, ∀ x ∈ e.2.send, x.2.credits ≤ 2047
  channels : ∀ e ∈ s.mport.chans, e.2.credits + e.2.got.length ≤ e.2.grant
end Sys2Proof.Claims

section
open Sys2Proof Sys2Proof.Machine Sys2Proof.Claims
/-- A step takes the command at the front of the queue and is exec of it with the queue's rest. With no command waiting one count of
the time base passes, where it is valid, and nothing else happens (the model's choice, log 5). -/
def Obligations.StepRunsFront : Prop :=
  (∀ (s : State) (c : Instr) (r : List Instr), step { s with pending := c :: r } = exec c { s with pending := r }) ∧
  (∀ s : State, s.pending = [] → (s.tb.valid = true → step s = .next { s with tb := { s.tb with count := (s.tb.count + 1) % 2 ^ 64 } }) ∧
    (s.tb.valid = false → step s = .next s))
end

section
open Sys2Proof Sys2Proof.Machine Sys2Proof.Claims
/-- Every well-formed command completes from every state; it leaves the queue to the sender, and no command but COLD_RESET touches the
fuse shadow (R101, R401). That a row whose condition does not hold changes nothing, and that the queue is the sender's, are the
model's choices (log 4). -/
def Obligations.EveryCommandCompletes : Prop :=
  ∀ (i : Instr) (s : State), i.wf = true → ∃ t, exec i s = .next t ∧ t.pending = s.pending ∧
    ((∀ c f, i ≠ .coldReset c f) → t.fuses = s.fuses) ∧
    (∀ c f, i = .coldReset c f → t.fuses.pmFid = f.pmFid.toNat ∧ t.fuses.blockId = f.blockId.toNat)
end

section
open Sys2Proof Sys2Proof.Machine Sys2Proof.Claims
/-- From every state with canonical byte stores, a step leaves the byte stores canonical: equal contents are equal data. -/
def Obligations.EveryStepKeepsStoresCanonical : Prop :=
 ∀ s t : State, Canonical s → step s = .next t → Canonical t
end

section
open Sys2Proof Sys2Proof.Machine Sys2Proof.Claims
/-- The reset state meets both invariants and holds nothing waiting: every register field reads the reset value of its table,
COLD_CAUSE shows power-on, every domain but AON is OFF with DOM_REQ OFF, and every byte of the stores reads zero (R378, R396, R400).
COLD_CAUSE 1 and zero for the fields that come from fuses are the model's choices (log 3), as is what the stores read (log 1). -/
def Obligations.ResetLeavesStatedValues : Prop :=
  Canonical State.reset ∧ Bounded State.reset ∧ State.reset.pending = [] ∧
    (∀ f ∈ allFields, ∀ i j, i < 2 ^ 32 → j < 256 → State.reset.reg f i j = if f = Reg.RST_COLD_CAUSE ∧ i = 0 ∧ j = 0 then 1 else f.reset) ∧
    Reg.PWR_PACE_TGT.reset = 1000 ∧ State.reset.domOn 23 = true ∧
    (∀ d, d ≠ 23 → (State.reset.dom d).state = .off ∧ (State.reset.dom d).req = 2) ∧
    (∀ x, State.reset.shared.byte x = 0) ∧ ∀ a x, (State.reset.arr a).store.byte x = 0
end

section
open Sys2Proof Sys2Proof.Machine Sys2Proof.Claims
/-- Decoding the word that spells an operation of a bundle gives that operation with every field, whatever the fields hold (Tables
10.3 to 10.10). The words of the worked example of R255 are the operations that it names: the feeder reads of D2 and D3 with KSTEP 2,
the MMA into G4, and REPEAT of one bundle 30 times. -/
def Obligations.SlotWordsDecodeBack : Prop :=
  (∀ (i : Instr) (k : Nat) (w : BitVec 32), slotWord i = some (k, w) → ∃ a, decodePart a k w = .op i) ∧
  ∀ a : Arr, let always : Pred := { pen := false, cmp := 0, neg := false }
    decodePart a 1 0x00000820 = .op (.feederRead a always false 2 2) ∧
    decodePart a 2 0x00000830 = .op (.feederRead a always true 3 2) ∧
    decodePart a 3 0x00000210 = .op (.mma a always { grp := 4, m16 := false, mhi := false, n16 := false, nhi := false }) ∧
    decodePart a 6 0x003A0200 = .op (.repeatBody a always 0 false 29)
end

section
open Sys2Proof Sys2Proof.Machine Sys2Proof.Claims
/-- From every state within its bounds, a step leaves the bounds: no submission queue grows past 256 commands, no postmark window past
64 numbers, no send channel's credits past the 2,047 that CRED can hold, and no memory channel's past its grant (R270, R272, R304,
R316, R323, R336). -/
def Obligations.EveryStepKeepsBounds : Prop :=
 ∀ s t : State, Bounded s → step s = .next t → Bounded t
end

namespace Sys2Proof.Claims
open Sys2Proof.Machine

/-- Array `a` runs task `t` of receipt entry `rid`, of a tenancy routine that has executed END, and everything it started has
ended: no operation in flight, no drain, nothing stalled, every PACED engine without steps or posts, and no transaction of it
without response (R252). -/
structure Finished (s : State) (a rid : Nat) (t : Task) : Prop where
  on : s.arrOn a = true
  runs : (s.arr a).task = some rid
  task : s.task rid = some t
  attempt : t.state = 2 ∧ t.failed = none ∧ (s.arr a).abandon = none ∧ (s.arr a).fail = none
  open_ : t.ended = false
  tenancy : 256 ≤ t.routine
  atEnd : (s.arr a).seq.state = .ending
  landed : (s.arr a).flight = [] ∧ (s.arr a).acc.drain = none ∧ (s.arr a).stalled = []
  engines : ∀ e ∈ (s.arr a).engines, e.2.arm.free = true ∨ (e.2.steps = 0 ∧ e.2.posts = [])
  answered : ∀ c ∈ s.mport.chans, ∀ x ∈ c.2.wait ++ c.2.out.map (·.2), ∀ r e, x.owner ≠ .task a r e
  quiet : ∀ e ∈ s.mport.chans, e.2.asked a = false

/-- Array `a` runs task `t` of command `c` in a vendor entry routine, under receipt entry `rid`: nothing stops it, no check of it has
failed and none is armed to fail, and the memory port has room for its transactions. -/
structure MayEnd (s : State) (a rid : Nat) (t : Task) (c : Cmd) : Prop where
  on : s.arrOn a = true
  runs : (s.arr a).task = some rid
  task : s.task rid = some t
  attempt : t.state = 2 ∧ t.failed = none ∧ (s.arr a).abandon = none ∧ (s.arr a).fail = none
  open_ : t.ended = false
  vendor : t.routine < 256
  command : s.cmd t.cid = some c
  running : (s.arr a).seq.state = .running ∧ s.extStop a = false
  unarmed : Unarmed s
  free : PortFree s a

/-- Command `c` is the first of queue `q`'s ordered commands that run and have tasks to release; the task at its cursor has sealed and
is not its last, and no contribution of the queue's ordered commands is still to be sent (R330). -/
structure MayRelease (s : State) (q : Nat) (c : Cmd) : Prop where
  on : s.domOn domMPT = true
  first : ∃ l k, s.disp.cmds = l ++ c :: k ∧ ∀ x ∈ l, x.cid ≠ c.cid ∧
    ¬ (x.queue = q ∧ x.ordered = true ∧ x.phase = .running ∧ x.cursor < x.tasks)
  only : ∀ x ∈ s.disp.cmds, x.cid = c.cid → x = c
  turn : c.queue = q ∧ c.ordered = true ∧ c.phase = .running
  sealed_ : c.cursor ∈ c.sealedIdx
  more : c.cursor + 1 < c.tasks
  sent : ¬ Releasing s q
end Sys2Proof.Claims

section
open Sys2Proof Sys2Proof.Machine Sys2Proof.Claims
/-- Three rows complete with their own effect. STREAM_NEXTBASE with a handle in a mailbag on which nothing else waits gives the engine
the oldest handle. ORDERED_RELEASE releases the sealed task at the cursor and goes on to the next. TASK_END of a tenancy's task that
has executed END and finished ends it, with its sequencer idle and its engines stopped, FREE ones too, which wait at no mailbag any
more: the model's choice (log 16). TASK_END of a vendor task that needs no handle and stages nothing carries out what its entry
describes, ends it and leaves engines 0 to 2 armed as the routine leaves them, whose value is free, and engine 3 to the tenancy;
what its description does not name stays. Such a task whose results merge with earlier ones comes first to its epilogue's reads, and
one that meets its halt point halts there (log 33; R252, R263, R264, R266, R282, R290, R294, R330). -/
def Obligations.HandleReleaseAndEndComplete : Prop :=
  (∀ (s : State) (a : Arr) (e : BitVec 2) (sb n : Nat) (h : Word) (by_ : Option Nat) (rest : List (Word × Option Nat)) (m : Move),
    let x := s.engine a.toNat e.toNat
    let box := s.reg Reg.TEN_MB_FIRST (s.tenRunning a.toNat) + n
    let y : Engine := { x with pc := x.pc + 1, sb := listUpd x.sb sb (fun _ => h.toNat) }
    s.arrOn a.toNat = true → (s.arr a.toNat).abandon = none → x.started = true → x.cur = .nextBase sb n → y.cur = .move m →
    s.tenEn (s.tenRunning a.toNat) = true → n < s.reg Reg.TEN_MB_SIZE (s.tenRunning a.toNat) →
    (s.bag box).takers = [] → (s.bag box).handles = (h, by_) :: rest → (x.arm.free = true ∨ MayStep s a.toNat e.toNat) →
    ∃ u, exec (.streamNextbase a e) s = .next u ∧ u.engine a.toNat e.toNat = y ∧ (u.bag box).takers = [] ∧
      (∃ more, (u.bag box).handles = rest ++ more) ∧ (∀ b, b ≠ a.toNat → u.arr b = s.arr b) ∧ u.mem = s.mem ∧ u.shared = s.shared) ∧
  (∀ (s : State) (q : Queue) (c : Cmd), MayRelease s q.toNat c →
    ∃ u, exec (.orderedRelease q) s = .next u ∧
      u.cmd c.cid = some { c with cursor := c.cursor + 1, awaiting := c.awaiting.filter fun x => x.2 != c.cursor } ∧
      (∀ x ∈ u.mport.staged, x.cid = c.cid → x.idx = c.cursor → x.ready = true → x.begun = true) ∧
      u.mport.staged.length = s.mport.staged.length ∧ u.mem = s.mem ∧ u.disp.tasks = s.disp.tasks ∧ ∀ b, u.arr b = s.arr b) ∧
  (∀ (s : State) (a : Arr) (ans : PortAnswer) (rid : Nat) (t : Task), Finished s a.toNat rid t →
    ∃ u, exec (.taskEnd (a, ans)) s = .next u ∧ u.task rid = some { t with ended := true } ∧ (∀ r, r ≠ rid → u.task r = s.task r) ∧
      (u.arr a.toNat).seq = { (s.arr a.toNat).seq with state := .idle } ∧ (∀ e, ((u.arr a.toNat).eng e).started = false) ∧
      ({ u.arr a.toNat with seq := {}, engines := [] } : ArrayState) = { s.arr a.toNat with seq := {}, engines := [] } ∧
      (∀ b, b ≠ a.toNat → u.arr b = s.arr b) ∧
      (Tbl.wf {} s.disp.mbx = true → ∀ m, (u.bag m).handles = (s.bag m).handles ∧
        (u.bag m).takers = (s.bag m).takers.filter fun x => x / 8 != a.toNat) ∧
      ({ u with arrs := [], disp := { u.disp with tasks := [], mbx := [] } } : State) =
        { s with arrs := [], disp := { s.disp with tasks := [], mbx := [] } }) ∧
  (∀ (s : State) (a : Arr) (rid : Nat) (t : Task) (c : Cmd), MayEnd s a.toNat rid t c →
    let E := (s.batchOf a.toNat t c).effects s c t
    let A := s.arr a.toNat
    (A.meetsHalt = true → ∃ u, exec (.taskEnd (a, .ok)) s = .next u ∧
      (u.arr a.toNat).seq = { A.seq with state := .halted, pc := A.modes.haltPc % 2 ^ 19 } ∧ u.task rid = some t ∧ u.mem = s.mem) ∧
    (A.meetsHalt = false → (s.batchOf a.toNat t c).bagsOf t = [] →
    (t.prior = none → (s.batchOf a.toNat t c).mergesIn c t.params = true →
      exec (.taskEnd (a, .ok)) s = .next (s.onTask rid fun t => { t with prior := some s.mem })) ∧
    (t.prior ≠ none ∨ (s.batchOf a.toNat t c).mergesIn c t.params = false → E.adds = [] →
    ∃ u, exec (.taskEnd (a, .ok)) s = .next u ∧ u.task rid = some { t with ended := true, caught := E.caught, status := E.status } ∧
      (∀ r, r ≠ rid → u.task r = s.task r) ∧ (u.arr a.toNat).seq = { A.seq with state := .idle } ∧
      (∀ e, e < 3 → (u.engine a.toNat e).arm.armed = true ∧ (u.engine a.toNat e).arm.rate = (s.engine a.toNat e).arm.rate) ∧
      u.engine a.toNat 3 = s.engine a.toNat 3 ∧
      ({ u.arr a.toNat with seq := {}, engines := [], store := [], ctr := {}, stalled := [], pigeon := [], ahead := [] } : ArrayState) =
        { A with seq := {}, engines := [], store := [], ctr := {}, stalled := [], pigeon := [], ahead := [] } ∧
      (∀ b, b ≠ a.toNat → u.arr b = s.arr b) ∧
      (∀ x, (∀ w ∈ E.writes, x < w.1 ∨ w.1 + w.2.length ≤ x) → u.mem.byte x = s.mem.byte x) ∧ (E.shared = [] → u.shared = s.shared) ∧
      (∀ w, E.writes = [w] → s.spanInWindow t.ten w.1 w.2.length = true → ∀ j, j < w.2.length → u.mem.byte (w.1 + j) = w.2.getD j 0))))
end
end

