-- ==== Sys2Proof/Laws/Table.lean ====
section
/-! SUPPORT. Laws of sparse tables and byte stores: a read after a write, and every operation keeps the canonical form. -/
namespace Sys2Proof.Machine

/-! ### Read after write -/

@[simp] theorem Tbl.get_nil {α : Type} (d : α) (k : Nat) : Tbl.get d ([] : Tbl α) k = d := rfl

@[simp] theorem Tbl.get_insert_same {α : Type} (d : α) (t : Tbl α) (k : Nat) (v : α) : Tbl.get d (t.insert k v) k = v := by
  induction t with
  | nil => simp [Tbl.insert, Tbl.get]
  | cons e r ih =>
    obtain ⟨k', v'⟩ := e
    simp only [Tbl.insert]
    split
    · simp [Tbl.get]
    · split
      · simp [Tbl.get]
      · next h => simp only [Tbl.get, if_neg (fun e => h (Eq.symm e))]; exact ih

theorem Tbl.get_insert_other {α : Type} (d : α) (t : Tbl α) {k j : Nat} (v : α) (h : k ≠ j) :
    Tbl.get d (t.insert k v) j = Tbl.get d t j := by
  induction t with
  | nil => simp [Tbl.insert, Tbl.get, h]
  | cons e r ih =>
    obtain ⟨k', v'⟩ := e
    simp only [Tbl.insert]
    split
    · simp [Tbl.get, h]
    · split
      · next e => subst e; simp [Tbl.get, h]
      · simp [Tbl.get, ih]

/-- Reading where the entries of some keys were removed. -/
theorem Tbl.get_filter {α : Type} (d : α) (q : Nat → Bool) (t : Tbl α) (k : Nat) :
    Tbl.get d (t.filter (fun e => q e.1)) k = if q k then Tbl.get d t k else d := by
  induction t with
  | nil => simp
  | cons e r ih =>
    by_cases h : q e.1 <;> by_cases hk : e.1 = k
    · subst hk; simp [Tbl.get, h]
    · simp only [List.filter_cons, h, if_true, Tbl.get, if_neg hk, ih]
    · subst hk; simpa [List.filter_cons, h] using ih
    · simp only [List.filter_cons, h, Tbl.get, if_neg hk]; simpa using ih

theorem Tbl.get_erase {α : Type} (d : α) (t : Tbl α) (k j : Nat) :
    Tbl.get d (t.erase k) j = if j = k then d else Tbl.get d t j := by
  have := Tbl.get_filter d (fun n => decide (n ≠ k)) t j
  rw [Tbl.erase, this]
  by_cases h : j = k <;> simp [h]

@[simp] theorem Tbl.get_erase_same {α : Type} (d : α) (t : Tbl α) (k : Nat) : Tbl.get d (t.erase k) k = d := by
  simp [Tbl.get_erase]

theorem Tbl.get_erase_other {α : Type} (d : α) (t : Tbl α) {k j : Nat} (h : k ≠ j) :
    Tbl.get d (t.erase k) j = Tbl.get d t j := by
  simp [Tbl.get_erase, Ne.symm h]

@[simp] theorem Tbl.get_set_same {α : Type} [DecidableEq α] (d : α) (t : Tbl α) (k : Nat) (v : α) :
    Tbl.get d (t.set d k v) k = v := by
  unfold Tbl.set; split
  · next h => simp [h]
  · simp

theorem Tbl.get_set_other {α : Type} [DecidableEq α] (d : α) (t : Tbl α) {k j : Nat} (v : α) (h : k ≠ j) :
    Tbl.get d (t.set d k v) j = Tbl.get d t j := by
  unfold Tbl.set; split
  · exact Tbl.get_erase_other d t h
  · exact Tbl.get_insert_other d t v h

/-- Reading after a write, at any key. -/
theorem Tbl.get_set {α : Type} [DecidableEq α] (d : α) (t : Tbl α) (k j : Nat) (v : α) :
    Tbl.get d (t.set d k v) j = if j = k then v else Tbl.get d t j := by
  by_cases h : j = k
  · simp [h]
  · simp [h, Tbl.get_set_other d t v (Ne.symm h)]

theorem Tbl.get_upd {α : Type} [DecidableEq α] (d : α) (t : Tbl α) (k j : Nat) (f : α → α) :
    Tbl.get d (t.upd d k f) j = if j = k then f (Tbl.get d t k) else Tbl.get d t j := by
  simp [Tbl.upd, Tbl.get_set]

theorem Tbl.get_clearRange {α : Type} (d : α) (t : Tbl α) (lo hi k : Nat) :
    Tbl.get d (t.clearRange lo hi) k = if lo ≤ k ∧ k < hi then d else Tbl.get d t k := by
  have := Tbl.get_filter d (fun n => decide (n < lo ∨ hi ≤ n)) t k
  rw [Tbl.clearRange, this]
  by_cases h : lo ≤ k ∧ k < hi
  · have : ¬ (k < lo ∨ hi ≤ k) := by omega
    simp [h, this]
  · have : k < lo ∨ hi ≤ k := by omega
    simp [h, this]

theorem Tbl.get_setMany {α : Type} [DecidableEq α] (d : α) (vs : List α) (t : Tbl α) (k j : Nat) :
    Tbl.get d (Tbl.setMany d t k vs) j = if k ≤ j ∧ j < k + vs.length then vs.getD (j - k) d else Tbl.get d t j := by
  induction vs generalizing t k with
  | nil => rw [Tbl.setMany, if_neg (by rw [List.length_nil]; omega)]
  | cons v r ih =>
    simp only [Tbl.setMany, ih, Tbl.get_set, List.length_cons]
    by_cases h : j = k
    · subst h; simp +arith
    · by_cases h2 : k + 1 ≤ j ∧ j < k + 1 + r.length
      · have h3 : k ≤ j ∧ j < k + (r.length + 1) := by omega
        obtain ⟨m, hm⟩ : ∃ m, j - k = m + 1 := ⟨j - k - 1, by omega⟩
        have : j - (k + 1) = m := by omega
        simp [h2, h3, hm, this]
      · have h3 : ¬ (k ≤ j ∧ j < k + (r.length + 1)) := by omega
        rw [if_neg h2, if_neg h, if_neg h3]

/-! ### The canonical form -/

theorem Tbl.rising_tail {α : Type} {e : Nat × α} {r : Tbl α} (h : Tbl.rising (e :: r) = true) : Tbl.rising r = true := by
  cases r with
  | nil => rfl
  | cons b r => simp [Tbl.rising] at h; exact h.2

/-- In a rising table every later key is above the first. -/
theorem Tbl.rising_lt {α : Type} {e : Nat × α} {r : Tbl α} (h : Tbl.rising (e :: r) = true) :
    ∀ x ∈ r, e.1 < x.1 := by
  induction r generalizing e with
  | nil => simp
  | cons b r ih =>
    simp [Tbl.rising] at h
    intro x hx
    rcases List.mem_cons.1 hx with rfl | hx
    · exact h.1
    · exact Nat.lt_trans h.1 (ih h.2 x hx)

theorem Tbl.rising_cons {α : Type} {e : Nat × α} {r : Tbl α} (h : ∀ x ∈ r, e.1 < x.1) (hr : Tbl.rising r = true) :
    Tbl.rising (e :: r) = true := by
  cases r with
  | nil => rfl
  | cons b r => simp [Tbl.rising, hr, h b (by simp)]

theorem Tbl.rising_filter {α : Type} (p : Nat × α → Bool) {t : Tbl α} (h : Tbl.rising t = true) :
    Tbl.rising (t.filter p) = true := by
  induction t with
  | nil => rfl
  | cons e r ih =>
    have hr := ih (Tbl.rising_tail h)
    by_cases hp : p e
    · simp only [List.filter_cons, hp, if_true]
      exact Tbl.rising_cons (fun x hx => Tbl.rising_lt h x (List.mem_filter.1 hx).1) hr
    · simpa [List.filter_cons, hp] using hr

theorem Tbl.mem_insert {α : Type} {t : Tbl α} {k : Nat} {v : α} {x : Nat × α} (h : x ∈ t.insert k v) :
    x = (k, v) ∨ x ∈ t := by
  induction t with
  | nil => simp [Tbl.insert] at h; exact .inl h
  | cons e r ih =>
    simp only [Tbl.insert] at h
    split at h
    · simpa using h
    · split at h
      · rcases List.mem_cons.1 h with h | h
        · exact .inl h
        · exact .inr (List.mem_cons_of_mem _ h)
      · rcases List.mem_cons.1 h with h | h
        · exact .inr (by simp [h])
        · rcases ih h with h | h
          · exact .inl h
          · exact .inr (List.mem_cons_of_mem _ h)

theorem Tbl.rising_insert {α : Type} {t : Tbl α} (k : Nat) (v : α) (h : Tbl.rising t = true) :
    Tbl.rising (t.insert k v) = true := by
  induction t with
  | nil => rfl
  | cons e r ih =>
    simp only [Tbl.insert]
    split
    · next hk => exact Tbl.rising_cons (fun x hx => by
        rcases List.mem_cons.1 hx with rfl | hx
        · exact hk
        · exact Nat.lt_trans hk (Tbl.rising_lt h x hx)) h
    · split
      · next hk => exact Tbl.rising_cons (fun x hx => by simpa [hk] using Tbl.rising_lt h x hx) (Tbl.rising_tail h)
      · refine Tbl.rising_cons (fun x hx => ?_) (ih (Tbl.rising_tail h))
        rcases Tbl.mem_insert hx with rfl | hx
        · simp only; omega
        · exact Tbl.rising_lt h x hx

theorem Tbl.wf_iff {α : Type} [DecidableEq α] (d : α) (t : Tbl α) :
    Tbl.wf d t = true ↔ Tbl.rising t = true ∧ ∀ e ∈ t, e.2 ≠ d := by
  simp [Tbl.wf]

@[simp] theorem Tbl.wf_nil {α : Type} [DecidableEq α] (d : α) : Tbl.wf d ([] : Tbl α) = true := rfl

theorem Tbl.wf_filter {α : Type} [DecidableEq α] {d : α} (p : Nat × α → Bool) {t : Tbl α} (h : Tbl.wf d t = true) :
    Tbl.wf d (t.filter p) = true := by
  rw [Tbl.wf_iff] at h ⊢
  exact ⟨Tbl.rising_filter p h.1, fun e he => h.2 e (List.mem_filter.1 he).1⟩

theorem Tbl.wf_set {α : Type} [DecidableEq α] {d : α} {t : Tbl α} (k : Nat) (v : α) (h : Tbl.wf d t = true) :
    Tbl.wf d (t.set d k v) = true := by
  unfold Tbl.set; split
  · exact Tbl.wf_filter _ h
  · next hv =>
    rw [Tbl.wf_iff] at h ⊢
    refine ⟨Tbl.rising_insert k v h.1, fun e he => ?_⟩
    rcases Tbl.mem_insert he with rfl | he
    · exact hv
    · exact h.2 e he

theorem Tbl.wf_upd {α : Type} [DecidableEq α] {d : α} {t : Tbl α} (k : Nat) (f : α → α) (h : Tbl.wf d t = true) :
    Tbl.wf d (t.upd d k f) = true := Tbl.wf_set _ _ h

theorem Tbl.wf_setMany {α : Type} [DecidableEq α] {d : α} (vs : List α) {t : Tbl α} (k : Nat) (h : Tbl.wf d t = true) :
    Tbl.wf d (Tbl.setMany d t k vs) = true := by
  induction vs generalizing t k with
  | nil => exact h
  | cons v r ih => exact ih (k + 1) (Tbl.wf_set k v h)

theorem Tbl.wf_clearRange {α : Type} [DecidableEq α] {d : α} {t : Tbl α} (lo hi : Nat) (h : Tbl.wf d t = true) :
    Tbl.wf d (t.clearRange lo hi) = true := Tbl.wf_filter _ h

theorem Tbl.mem_set {α : Type} [DecidableEq α] {d : α} {t : Tbl α} {k : Nat} {v : α} {x : Nat × α} (h : x ∈ t.set d k v) :
    x = (k, v) ∨ x ∈ t := by
  unfold Tbl.set at h; split at h
  · exact .inr (List.mem_filter.1 h).1
  · exact Tbl.mem_insert h

/-- What holds of the default and of every entry holds of what any key reads. -/
theorem Tbl.get_all {α : Type} {P : α → Prop} {d : α} {t : Tbl α} {k : Nat} (hd : P d) (h : ∀ e ∈ t, P e.2) :
    P (Tbl.get d t k) := by
  induction t with
  | nil => exact hd
  | cons e r ih =>
    obtain ⟨k', v⟩ := e
    simp only [Tbl.get]; split
    · exact h (k', v) (by simp)
    · exact ih (fun e he => h e (by simp [he]))

/-! ### Byte stores -/

theorem Memory.wf_put {m : Memory} (a : Nat) (b : Byte) (h : Memory.wf m = true) : Memory.wf (m.put a b) = true :=
  Tbl.wf_set a b h
theorem Memory.wf_putBytes {m : Memory} (a : Nat) (bs : List Byte) (h : Memory.wf m = true) :
    Memory.wf (m.putBytes a bs) = true := Tbl.wf_setMany bs a h
theorem Memory.wf_putLe {m : Memory} (a n v : Nat) (h : Memory.wf m = true) : Memory.wf (m.putLe a n v) = true :=
  Memory.wf_putBytes a _ h
theorem Memory.wf_zeroRange {m : Memory} (lo hi : Nat) (h : Memory.wf m = true) : Memory.wf (m.zeroRange lo hi) = true :=
  Tbl.wf_clearRange lo hi h
theorem Memory.wf_zeroWhere {m : Memory} (p : Nat → Bool) (h : Memory.wf m = true) : Memory.wf (m.zeroWhere p) = true :=
  Tbl.wf_filter _ h

/-- The byte read at an address after one byte is written. -/
theorem Memory.byte_put (m : Memory) (a x : Nat) (b : Byte) : (m.put a b).byte x = if x = a then b else m.byte x :=
  Tbl.get_set _ m a x b

/-- The byte read at an address after bytes are written from `a` upward. -/
theorem Memory.byte_putBytes (m : Memory) (a x : Nat) (bs : List Byte) :
    (m.putBytes a bs).byte x = if a ≤ x ∧ x < a + bs.length then bs.getD (x - a) Memory.blank else m.byte x :=
  Tbl.get_setMany _ bs m a x

/-- Bytes outside the range written read as before. -/
theorem Memory.byte_putBytes_outside (m : Memory) {a x : Nat} (bs : List Byte) (h : x < a ∨ a + bs.length ≤ x) :
    (m.putBytes a bs).byte x = m.byte x := by
  rw [Memory.byte_putBytes, if_neg (by omega)]

theorem Memory.byte_zeroRange (m : Memory) (lo hi x : Nat) :
    (m.zeroRange lo hi).byte x = if lo ≤ x ∧ x < hi then Memory.blank else m.byte x := Tbl.get_clearRange _ m lo hi x

/-- A byte whose address is not zeroed reads as before; the others read as bytes that nothing has written. -/
theorem Memory.byte_zeroWhere (m : Memory) (p : Nat → Bool) (x : Nat) :
    (m.zeroWhere p).byte x = if p x = true then Memory.blank else m.byte x := by
  have := Tbl.get_filter Memory.blank (fun n => !p n) m x
  unfold Memory.zeroWhere Tbl.clearWhere Memory.byte
  rw [this]
  cases p x <;> rfl

/-- Two stores in canonical form that read the same at every address are the same data. -/
theorem Tbl.ext_wf {α : Type} [DecidableEq α] {d : α} {t u : Tbl α} (ht : Tbl.wf d t = true) (hu : Tbl.wf d u = true)
    (h : ∀ k, Tbl.get d t k = Tbl.get d u k) : t = u := by
  induction t generalizing u with
  | nil =>
    cases u with
    | nil => rfl
    | cons e r =>
      have := h e.1
      obtain ⟨k, v⟩ := e
      simp [Tbl.get] at this
      exact absurd this.symm (((Tbl.wf_iff d _).1 hu).2 (k, v) (by simp))
  | cons e r ih =>
    obtain ⟨k, v⟩ := e
    rw [Tbl.wf_iff] at ht
    cases u with
    | nil =>
      have := h k
      simp [Tbl.get] at this
      exact absurd this (ht.2 (k, v) (by simp))
    | cons e' r' =>
      obtain ⟨k', v'⟩ := e'
      rw [Tbl.wf_iff] at hu
      have lt1 := Tbl.rising_lt ht.1
      have lt2 := Tbl.rising_lt hu.1
      have above : ∀ {s : Tbl α} {n : Nat}, (∀ x ∈ s, n < x.1) → Tbl.get d s n = d := by
        intro s n hs
        induction s with
        | nil => rfl
        | cons x s ih' =>
          have hx := hs x (by simp)
          simp only [Tbl.get, if_neg (by omega : ¬ x.1 = n)]
          exact ih' (fun y hy => hs y (by simp [hy]))
      have hk : k = k' := by
        rcases Nat.lt_trichotomy k k' with hlt | he | hlt
        · have := h k
          simp only [Tbl.get, if_true, if_neg (by omega : ¬ k' = k)] at this
          rw [above (fun x hx => Nat.lt_trans hlt (lt2 x hx))] at this
          exact absurd this (ht.2 (k, v) (by simp))
        · exact he
        · have := h k'
          simp only [Tbl.get, if_true, if_neg (by omega : ¬ k = k')] at this
          rw [above (fun x hx => Nat.lt_trans hlt (lt1 x hx))] at this
          exact absurd this.symm (hu.2 (k', v') (by simp))
      subst hk
      have hv : v = v' := by simpa [Tbl.get] using h k
      subst hv
      have : r = r' := by
        refine ih ((Tbl.wf_iff d _).2 ⟨Tbl.rising_tail ht.1, fun x hx => ht.2 x (by simp [hx])⟩)
          ((Tbl.wf_iff d _).2 ⟨Tbl.rising_tail hu.1, fun x hx => hu.2 x (by simp [hx])⟩) (fun n => ?_)
        by_cases hn : k = n
        · subst hn; rw [above lt1, above lt2]
        · simpa [Tbl.get, hn] using h n
      rw [this]

end Sys2Proof.Machine
end

