-- ==== Sys2Proof/Laws/ArrayStore.lean ====
section
/-! SUPPORT. What the operations on one array do to its store: most leave it as it is; a save writes bytes and keeps the
canonical form. -/
namespace Sys2Proof.Machine

/-! ### Operations that leave the store -/

@[simp] theorem ArrayState.setS_store (A : ArrayState) (i : Nat) (v : Word) : (A.setS i v).store = A.store := by
  unfold ArrayState.setS; split <;> rfl
@[simp] theorem ArrayState.setV_store (A : ArrayState) (i : Nat) (l : List Word) : (A.setV i l).store = A.store := rfl
@[simp] theorem ArrayState.onPtr_store (A : ArrayState) (i : Nat) (f : Pointer → Pointer) : (A.onPtr i f).store = A.store := rfl
@[simp] theorem ArrayState.setCt_store (A : ArrayState) (i : Nat) (v : Word) : (A.setCt i v).store = A.store := rfl
@[simp] theorem ArrayState.setCmp_store (A : ArrayState) (i : Nat) (c : Comparator) : (A.setCmp i c).store = A.store := rfl
@[simp] theorem ArrayState.setRsum_store (A : ArrayState) (l : List Word) : (A.setRsum l).store = A.store := rfl
@[simp] theorem ArrayState.setEng_store (A : ArrayState) (i : Nat) (x : Engine) : (A.setEng i x).store = A.store := rfl
@[simp] theorem ArrayState.abandoned_store (A : ArrayState) : A.abandoned.store = A.store := rfl
@[simp] theorem ArrayState.advanceUnits_store (A : ArrayState) : A.advanceUnits.store = A.store := rfl
@[simp] theorem ArrayState.enter_store (A : ArrayState) (r v : Nat) : (A.enter r v).store = A.store := rfl
@[simp] theorem ArrayState.idle_store (A : ArrayState) : A.idle.store = A.store := rfl
@[simp] theorem ArrayState.retained_store (A : ArrayState) : A.retained.store = A.store := rfl

theorem ArrayState.foldl_store {β : Type} {f : ArrayState → β → ArrayState} (hf : ∀ A x, (f A x).store = A.store)
    (l : List β) (A : ArrayState) : (l.foldl f A).store = A.store := by
  induction l generalizing A with
  | nil => rfl
  | cons x r ih => rw [List.foldl_cons, ih, hf]

@[simp] theorem ArrayState.gainCredit_store (A : ArrayState) : A.gainCredit.store = A.store := by
  refine ArrayState.foldl_store (fun B x => ?_) _ A
  dsimp only; split <;> rfl
@[simp] theorem ArrayState.applyLoad_store (A : ArrayState) (l : BoundaryLoad) : (A.applyLoad l).store = A.store := by
  cases l <;> rfl
@[simp] theorem ArrayState.stepPointers_store (A : ArrayState) (n : Nat) : (A.stepPointers n).store = A.store := by
  refine ArrayState.foldl_store (fun B x => ?_) _ A
  split <;> rfl
@[simp] theorem ArrayState.rewindPointers_store (A : ArrayState) (n : Nat) : (A.rewindPointers n).store = A.store := by
  refine ArrayState.foldl_store (fun B x => ?_) _ A
  split <;> rfl
@[simp] theorem ArrayState.closeReps_store (n : Nat) (A : ArrayState) : (ArrayState.closeReps n A).store = A.store := by
  induction n generalizing A with
  | zero => rfl
  | succ n ih =>
    unfold ArrayState.closeReps
    split
    · rfl
    · split
      · dsimp only; split
        · simp
        · rw [ih]; simp
      · rfl
@[simp] theorem ArrayState.goto_store (A : ArrayState) (n : Nat) : (A.goto n).store = A.store := by simp [ArrayState.goto]
@[simp] theorem ArrayState.leave_store (A : ArrayState) : A.leave.store = A.store := by
  unfold ArrayState.leave; split <;> simp
@[simp] theorem ArrayState.follow_store (A : ArrayState) : A.follow.store = A.store := by
  unfold ArrayState.follow; dsimp only; split <;> simp
@[simp] theorem ArrayState.noteHelper_store (A : ArrayState) (x : Flight) : (A.noteHelper x).store = A.store := by
  unfold ArrayState.noteHelper; split
  · split <;> rfl
  · rfl
@[simp] theorem ArrayState.countClash_store (A : ArrayState) : A.countClash.store = A.store := by
  unfold ArrayState.countClash; split <;> rfl
@[simp] theorem ArrayState.helperBeat_store (A : ArrayState) : A.helperBeat.store = A.store := by
  unfold ArrayState.helperBeat; split
  · split
    · simp
    · rfl
  · rfl
@[simp] theorem ArrayState.nextBundle_store (A : ArrayState) (l : Bool) : (A.nextBundle l).store = A.store := by
  unfold ArrayState.nextBundle; dsimp only; split
  · rfl
  · split
    · simp
    · split
      · rfl
      · split
        · rfl
        · simp
@[simp] theorem ArrayState.install_store (A : ArrayState) (bs : List Byte) (i n : Nat) : (A.install bs i n).store = A.store := by
  unfold ArrayState.install; dsimp only; split
  · rfl
  · rw [ArrayState.foldl_store (fun B k => ArrayState.setEng_store B k _)]

/-! ### Operations that empty the store -/

@[simp] theorem ArrayState.unpowered_store (A : ArrayState) : A.unpowered.store = [] := rfl
@[simp] theorem ArrayState.tenReset_store (A : ArrayState) (t : Nat) : (A.tenReset t).store = [] := rfl
@[simp] theorem ArrayState.zeroed_store (A : ArrayState) : A.zeroed.store = [] := rfl

/-! ### Operations that write the store -/

theorem ArrayState.save_wf {A : ArrayState} (a : Nat) (bs : List Byte) (h : Memory.wf A.store = true) :
    Memory.wf (A.save a bs).store = true := by
  unfold ArrayState.save; split
  · exact Memory.wf_putBytes _ _ h
  · exact Memory.wf_putBytes _ _ (Memory.wf_putBytes _ _ h)

theorem ArrayState.foldl_wf {β : Type} {f : ArrayState → β → ArrayState}
    (hf : ∀ A x, Memory.wf A.store = true → Memory.wf (f A x).store = true) (l : List β) {A : ArrayState}
    (h : Memory.wf A.store = true) : Memory.wf (l.foldl f A).store = true := by
  induction l generalizing A with
  | nil => exact h
  | cons x r ih => exact ih (hf A x h)

theorem ArrayState.putTileRow_wf {A : ArrayState} (d : Descr) (r : Nat) (l : List Word) (h : Memory.wf A.store = true) :
    Memory.wf (A.putTileRow d r l).store = true := ArrayState.save_wf _ _ h

theorem ArrayState.helperDone_wf {A : ArrayState} (r : Nat) (h : Memory.wf A.store = true) :
    Memory.wf (A.helperDone r).store = true := by
  unfold ArrayState.helperDone; dsimp only; split
  · exact ArrayState.foldl_wf (fun _ _ => ArrayState.putTileRow_wf _ _ _) _ h
  · exact h
  · exact ArrayState.foldl_wf (fun _ _ => ArrayState.putTileRow_wf _ _ _) _ h
  · exact ArrayState.foldl_wf (fun _ _ h => ArrayState.save_wf _ _ (ArrayState.save_wf _ _ h)) _ h
  · exact ArrayState.foldl_wf (fun _ _ h => ArrayState.putTileRow_wf _ _ _ (ArrayState.putTileRow_wf _ _ _ h)) _ h
  · exact h

theorem ArrayState.freeLedger_store (A : ArrayState) (l : Nat) (w : Nat → Word) : (A.freeLedger l w).store = A.store := by
  unfold ArrayState.freeLedger; dsimp only

theorem ArrayState.freeTile_wf {A : ArrayState} (b : Nat → Byte) (n bytes base : Nat) (h : Memory.wf A.store = true) :
    Memory.wf (A.freeTile b n bytes base).store = true :=
  ArrayState.foldl_wf (fun _ _ => ArrayState.save_wf _ _) _ h

theorem ArrayState.helperFree_wf {A : ArrayState} (r : Nat) (b : Nat → Byte) (w : Nat → Word) (h : Memory.wf A.store = true) :
    Memory.wf (A.helperFree r b w).store = true := by
  unfold ArrayState.helperFree; dsimp only; split
  · rw [ArrayState.freeLedger_store]; exact ArrayState.freeTile_wf _ _ _ _ h
  · exact h
  · exact ArrayState.freeTile_wf _ _ _ _ h
  · exact ArrayState.foldl_wf (fun _ _ h => ArrayState.save_wf _ _ (ArrayState.save_wf _ _ h)) _ h
  · exact ArrayState.freeTile_wf _ _ _ _ (ArrayState.freeTile_wf _ _ _ _ h)
  · exact h

end Sys2Proof.Machine
end

