-- ==== Sys2Proof/Laws/State.lean ====
section
/-! SUPPORT. Each primitive update of the state, field by field: what it writes, and that it leaves every other field; and
reads after writes. -/
namespace Sys2Proof.Machine
section
variable (s : State)

/-! `State.setReg` writes `regs`. -/
@[simp] theorem State.setReg_pending (f : FieldSpec) (i v j : Nat) : (s.setReg f i v j).pending = s.pending := rfl
@[simp] theorem State.setReg_freeCtr (f : FieldSpec) (i v j : Nat) : (s.setReg f i v j).freeCtr = s.freeCtr := rfl
@[simp] theorem State.setReg_regs (f : FieldSpec) (i v j : Nat) : (s.setReg f i v j).regs = Regs.set s.regs f i v j := rfl
@[simp] theorem State.setReg_ctl (f : FieldSpec) (i v j : Nat) : (s.setReg f i v j).ctl = s.ctl := rfl
@[simp] theorem State.setReg_fuses (f : FieldSpec) (i v j : Nat) : (s.setReg f i v j).fuses = s.fuses := rfl
@[simp] theorem State.setReg_doms (f : FieldSpec) (i v j : Nat) : (s.setReg f i v j).doms = s.doms := rfl
@[simp] theorem State.setReg_mon (f : FieldSpec) (i v j : Nat) : (s.setReg f i v j).mon = s.mon := rfl
@[simp] theorem State.setReg_tb (f : FieldSpec) (i v j : Nat) : (s.setReg f i v j).tb = s.tb := rfl
@[simp] theorem State.setReg_meter (f : FieldSpec) (i v j : Nat) : (s.setReg f i v j).meter = s.meter := rfl
@[simp] theorem State.setReg_disp (f : FieldSpec) (i v j : Nat) : (s.setReg f i v j).disp = s.disp := rfl
@[simp] theorem State.setReg_arrs (f : FieldSpec) (i v j : Nat) : (s.setReg f i v j).arrs = s.arrs := rfl
@[simp] theorem State.setReg_conds (f : FieldSpec) (i v j : Nat) : (s.setReg f i v j).conds = s.conds := rfl
@[simp] theorem State.setReg_shared (f : FieldSpec) (i v j : Nat) : (s.setReg f i v j).shared = s.shared := rfl
@[simp] theorem State.setReg_mem (f : FieldSpec) (i v j : Nat) : (s.setReg f i v j).mem = s.mem := rfl
@[simp] theorem State.setReg_cache (f : FieldSpec) (i v j : Nat) : (s.setReg f i v j).cache = s.cache := rfl
@[simp] theorem State.setReg_mport (f : FieldSpec) (i v j : Nat) : (s.setReg f i v j).mport = s.mport := rfl
@[simp] theorem State.setReg_ring (f : FieldSpec) (i v j : Nat) : (s.setReg f i v j).ring = s.ring := rfl
@[simp] theorem State.setReg_faults (f : FieldSpec) (i v j : Nat) : (s.setReg f i v j).faults = s.faults := rfl
@[simp] theorem State.setReg_letters (f : FieldSpec) (i v j : Nat) : (s.setReg f i v j).letters = s.letters := rfl
@[simp] theorem State.setReg_resets (f : FieldSpec) (i v j : Nat) : (s.setReg f i v j).resets = s.resets := rfl
@[simp] theorem State.setReg_segment (f : FieldSpec) (i v j : Nat) : (s.setReg f i v j).segment = s.segment := rfl

/-! `State.bump` writes `regs`. -/
@[simp] theorem State.bump_pending (f : FieldSpec) (i n : Nat) : (s.bump f i n).pending = s.pending := rfl
@[simp] theorem State.bump_freeCtr (f : FieldSpec) (i n : Nat) : (s.bump f i n).freeCtr = s.freeCtr := rfl
@[simp] theorem State.bump_regs (f : FieldSpec) (i n : Nat) : (s.bump f i n).regs = Regs.bump s.regs f i n := rfl
@[simp] theorem State.bump_ctl (f : FieldSpec) (i n : Nat) : (s.bump f i n).ctl = s.ctl := rfl
@[simp] theorem State.bump_fuses (f : FieldSpec) (i n : Nat) : (s.bump f i n).fuses = s.fuses := rfl
@[simp] theorem State.bump_doms (f : FieldSpec) (i n : Nat) : (s.bump f i n).doms = s.doms := rfl
@[simp] theorem State.bump_mon (f : FieldSpec) (i n : Nat) : (s.bump f i n).mon = s.mon := rfl
@[simp] theorem State.bump_tb (f : FieldSpec) (i n : Nat) : (s.bump f i n).tb = s.tb := rfl
@[simp] theorem State.bump_meter (f : FieldSpec) (i n : Nat) : (s.bump f i n).meter = s.meter := rfl
@[simp] theorem State.bump_disp (f : FieldSpec) (i n : Nat) : (s.bump f i n).disp = s.disp := rfl
@[simp] theorem State.bump_arrs (f : FieldSpec) (i n : Nat) : (s.bump f i n).arrs = s.arrs := rfl
@[simp] theorem State.bump_conds (f : FieldSpec) (i n : Nat) : (s.bump f i n).conds = s.conds := rfl
@[simp] theorem State.bump_shared (f : FieldSpec) (i n : Nat) : (s.bump f i n).shared = s.shared := rfl
@[simp] theorem State.bump_mem (f : FieldSpec) (i n : Nat) : (s.bump f i n).mem = s.mem := rfl
@[simp] theorem State.bump_cache (f : FieldSpec) (i n : Nat) : (s.bump f i n).cache = s.cache := rfl
@[simp] theorem State.bump_mport (f : FieldSpec) (i n : Nat) : (s.bump f i n).mport = s.mport := rfl
@[simp] theorem State.bump_ring (f : FieldSpec) (i n : Nat) : (s.bump f i n).ring = s.ring := rfl
@[simp] theorem State.bump_faults (f : FieldSpec) (i n : Nat) : (s.bump f i n).faults = s.faults := rfl
@[simp] theorem State.bump_letters (f : FieldSpec) (i n : Nat) : (s.bump f i n).letters = s.letters := rfl
@[simp] theorem State.bump_resets (f : FieldSpec) (i n : Nat) : (s.bump f i n).resets = s.resets := rfl
@[simp] theorem State.bump_segment (f : FieldSpec) (i n : Nat) : (s.bump f i n).segment = s.segment := rfl

/-! `State.bumpWrap` writes `regs`. -/
@[simp] theorem State.bumpWrap_pending (f : FieldSpec) (i : Nat) : (s.bumpWrap f i).pending = s.pending := rfl
@[simp] theorem State.bumpWrap_freeCtr (f : FieldSpec) (i : Nat) : (s.bumpWrap f i).freeCtr = s.freeCtr := rfl
@[simp] theorem State.bumpWrap_regs (f : FieldSpec) (i : Nat) : (s.bumpWrap f i).regs = Regs.set s.regs f i (s.reg f i + 1) := rfl
@[simp] theorem State.bumpWrap_ctl (f : FieldSpec) (i : Nat) : (s.bumpWrap f i).ctl = s.ctl := rfl
@[simp] theorem State.bumpWrap_fuses (f : FieldSpec) (i : Nat) : (s.bumpWrap f i).fuses = s.fuses := rfl
@[simp] theorem State.bumpWrap_doms (f : FieldSpec) (i : Nat) : (s.bumpWrap f i).doms = s.doms := rfl
@[simp] theorem State.bumpWrap_mon (f : FieldSpec) (i : Nat) : (s.bumpWrap f i).mon = s.mon := rfl
@[simp] theorem State.bumpWrap_tb (f : FieldSpec) (i : Nat) : (s.bumpWrap f i).tb = s.tb := rfl
@[simp] theorem State.bumpWrap_meter (f : FieldSpec) (i : Nat) : (s.bumpWrap f i).meter = s.meter := rfl
@[simp] theorem State.bumpWrap_disp (f : FieldSpec) (i : Nat) : (s.bumpWrap f i).disp = s.disp := rfl
@[simp] theorem State.bumpWrap_arrs (f : FieldSpec) (i : Nat) : (s.bumpWrap f i).arrs = s.arrs := rfl
@[simp] theorem State.bumpWrap_conds (f : FieldSpec) (i : Nat) : (s.bumpWrap f i).conds = s.conds := rfl
@[simp] theorem State.bumpWrap_shared (f : FieldSpec) (i : Nat) : (s.bumpWrap f i).shared = s.shared := rfl
@[simp] theorem State.bumpWrap_mem (f : FieldSpec) (i : Nat) : (s.bumpWrap f i).mem = s.mem := rfl
@[simp] theorem State.bumpWrap_cache (f : FieldSpec) (i : Nat) : (s.bumpWrap f i).cache = s.cache := rfl
@[simp] theorem State.bumpWrap_mport (f : FieldSpec) (i : Nat) : (s.bumpWrap f i).mport = s.mport := rfl
@[simp] theorem State.bumpWrap_ring (f : FieldSpec) (i : Nat) : (s.bumpWrap f i).ring = s.ring := rfl
@[simp] theorem State.bumpWrap_faults (f : FieldSpec) (i : Nat) : (s.bumpWrap f i).faults = s.faults := rfl
@[simp] theorem State.bumpWrap_letters (f : FieldSpec) (i : Nat) : (s.bumpWrap f i).letters = s.letters := rfl
@[simp] theorem State.bumpWrap_resets (f : FieldSpec) (i : Nat) : (s.bumpWrap f i).resets = s.resets := rfl
@[simp] theorem State.bumpWrap_segment (f : FieldSpec) (i : Nat) : (s.bumpWrap f i).segment = s.segment := rfl

/-! `State.drew` writes `freeCtr`. -/
@[simp] theorem State.drew_pending (n : Nat) : (s.drew n).pending = s.pending := rfl
@[simp] theorem State.drew_freeCtr (n : Nat) : (s.drew n).freeCtr = s.freeCtr + n := rfl
@[simp] theorem State.drew_regs (n : Nat) : (s.drew n).regs = s.regs := rfl
@[simp] theorem State.drew_ctl (n : Nat) : (s.drew n).ctl = s.ctl := rfl
@[simp] theorem State.drew_fuses (n : Nat) : (s.drew n).fuses = s.fuses := rfl
@[simp] theorem State.drew_doms (n : Nat) : (s.drew n).doms = s.doms := rfl
@[simp] theorem State.drew_mon (n : Nat) : (s.drew n).mon = s.mon := rfl
@[simp] theorem State.drew_tb (n : Nat) : (s.drew n).tb = s.tb := rfl
@[simp] theorem State.drew_meter (n : Nat) : (s.drew n).meter = s.meter := rfl
@[simp] theorem State.drew_disp (n : Nat) : (s.drew n).disp = s.disp := rfl
@[simp] theorem State.drew_arrs (n : Nat) : (s.drew n).arrs = s.arrs := rfl
@[simp] theorem State.drew_conds (n : Nat) : (s.drew n).conds = s.conds := rfl
@[simp] theorem State.drew_shared (n : Nat) : (s.drew n).shared = s.shared := rfl
@[simp] theorem State.drew_mem (n : Nat) : (s.drew n).mem = s.mem := rfl
@[simp] theorem State.drew_cache (n : Nat) : (s.drew n).cache = s.cache := rfl
@[simp] theorem State.drew_mport (n : Nat) : (s.drew n).mport = s.mport := rfl
@[simp] theorem State.drew_ring (n : Nat) : (s.drew n).ring = s.ring := rfl
@[simp] theorem State.drew_faults (n : Nat) : (s.drew n).faults = s.faults := rfl
@[simp] theorem State.drew_letters (n : Nat) : (s.drew n).letters = s.letters := rfl
@[simp] theorem State.drew_resets (n : Nat) : (s.drew n).resets = s.resets := rfl
@[simp] theorem State.drew_segment (n : Nat) : (s.drew n).segment = s.segment := rfl

/-! `State.setArr` writes `arrs`. -/
@[simp] theorem State.setArr_pending (a : Nat) (A : ArrayState) : (s.setArr a A).pending = s.pending := rfl
@[simp] theorem State.setArr_freeCtr (a : Nat) (A : ArrayState) : (s.setArr a A).freeCtr = s.freeCtr := rfl
@[simp] theorem State.setArr_regs (a : Nat) (A : ArrayState) : (s.setArr a A).regs = s.regs := rfl
@[simp] theorem State.setArr_ctl (a : Nat) (A : ArrayState) : (s.setArr a A).ctl = s.ctl := rfl
@[simp] theorem State.setArr_fuses (a : Nat) (A : ArrayState) : (s.setArr a A).fuses = s.fuses := rfl
@[simp] theorem State.setArr_doms (a : Nat) (A : ArrayState) : (s.setArr a A).doms = s.doms := rfl
@[simp] theorem State.setArr_mon (a : Nat) (A : ArrayState) : (s.setArr a A).mon = s.mon := rfl
@[simp] theorem State.setArr_tb (a : Nat) (A : ArrayState) : (s.setArr a A).tb = s.tb := rfl
@[simp] theorem State.setArr_meter (a : Nat) (A : ArrayState) : (s.setArr a A).meter = s.meter := rfl
@[simp] theorem State.setArr_disp (a : Nat) (A : ArrayState) : (s.setArr a A).disp = s.disp := rfl
@[simp] theorem State.setArr_arrs (a : Nat) (A : ArrayState) : (s.setArr a A).arrs = Tbl.set {} s.arrs a A := rfl
@[simp] theorem State.setArr_conds (a : Nat) (A : ArrayState) : (s.setArr a A).conds = s.conds := rfl
@[simp] theorem State.setArr_shared (a : Nat) (A : ArrayState) : (s.setArr a A).shared = s.shared := rfl
@[simp] theorem State.setArr_mem (a : Nat) (A : ArrayState) : (s.setArr a A).mem = s.mem := rfl
@[simp] theorem State.setArr_cache (a : Nat) (A : ArrayState) : (s.setArr a A).cache = s.cache := rfl
@[simp] theorem State.setArr_mport (a : Nat) (A : ArrayState) : (s.setArr a A).mport = s.mport := rfl
@[simp] theorem State.setArr_ring (a : Nat) (A : ArrayState) : (s.setArr a A).ring = s.ring := rfl
@[simp] theorem State.setArr_faults (a : Nat) (A : ArrayState) : (s.setArr a A).faults = s.faults := rfl
@[simp] theorem State.setArr_letters (a : Nat) (A : ArrayState) : (s.setArr a A).letters = s.letters := rfl
@[simp] theorem State.setArr_resets (a : Nat) (A : ArrayState) : (s.setArr a A).resets = s.resets := rfl
@[simp] theorem State.setArr_segment (a : Nat) (A : ArrayState) : (s.setArr a A).segment = s.segment := rfl

/-! `State.onArr` writes `arrs`. -/
@[simp] theorem State.onArr_pending (a : Nat) (f : ArrayState → ArrayState) : (s.onArr a f).pending = s.pending := rfl
@[simp] theorem State.onArr_freeCtr (a : Nat) (f : ArrayState → ArrayState) : (s.onArr a f).freeCtr = s.freeCtr := rfl
@[simp] theorem State.onArr_regs (a : Nat) (f : ArrayState → ArrayState) : (s.onArr a f).regs = s.regs := rfl
@[simp] theorem State.onArr_ctl (a : Nat) (f : ArrayState → ArrayState) : (s.onArr a f).ctl = s.ctl := rfl
@[simp] theorem State.onArr_fuses (a : Nat) (f : ArrayState → ArrayState) : (s.onArr a f).fuses = s.fuses := rfl
@[simp] theorem State.onArr_doms (a : Nat) (f : ArrayState → ArrayState) : (s.onArr a f).doms = s.doms := rfl
@[simp] theorem State.onArr_mon (a : Nat) (f : ArrayState → ArrayState) : (s.onArr a f).mon = s.mon := rfl
@[simp] theorem State.onArr_tb (a : Nat) (f : ArrayState → ArrayState) : (s.onArr a f).tb = s.tb := rfl
@[simp] theorem State.onArr_meter (a : Nat) (f : ArrayState → ArrayState) : (s.onArr a f).meter = s.meter := rfl
@[simp] theorem State.onArr_disp (a : Nat) (f : ArrayState → ArrayState) : (s.onArr a f).disp = s.disp := rfl
@[simp] theorem State.onArr_arrs (a : Nat) (f : ArrayState → ArrayState) : (s.onArr a f).arrs = Tbl.set {} s.arrs a (f (s.arr a)) := rfl
@[simp] theorem State.onArr_conds (a : Nat) (f : ArrayState → ArrayState) : (s.onArr a f).conds = s.conds := rfl
@[simp] theorem State.onArr_shared (a : Nat) (f : ArrayState → ArrayState) : (s.onArr a f).shared = s.shared := rfl
@[simp] theorem State.onArr_mem (a : Nat) (f : ArrayState → ArrayState) : (s.onArr a f).mem = s.mem := rfl
@[simp] theorem State.onArr_cache (a : Nat) (f : ArrayState → ArrayState) : (s.onArr a f).cache = s.cache := rfl
@[simp] theorem State.onArr_mport (a : Nat) (f : ArrayState → ArrayState) : (s.onArr a f).mport = s.mport := rfl
@[simp] theorem State.onArr_ring (a : Nat) (f : ArrayState → ArrayState) : (s.onArr a f).ring = s.ring := rfl
@[simp] theorem State.onArr_faults (a : Nat) (f : ArrayState → ArrayState) : (s.onArr a f).faults = s.faults := rfl
@[simp] theorem State.onArr_letters (a : Nat) (f : ArrayState → ArrayState) : (s.onArr a f).letters = s.letters := rfl
@[simp] theorem State.onArr_resets (a : Nat) (f : ArrayState → ArrayState) : (s.onArr a f).resets = s.resets := rfl
@[simp] theorem State.onArr_segment (a : Nat) (f : ArrayState → ArrayState) : (s.onArr a f).segment = s.segment := rfl

/-! `State.onCond` writes `conds`. -/
@[simp] theorem State.onCond_pending (a : Nat) (f : ArrCond → ArrCond) : (s.onCond a f).pending = s.pending := rfl
@[simp] theorem State.onCond_freeCtr (a : Nat) (f : ArrCond → ArrCond) : (s.onCond a f).freeCtr = s.freeCtr := rfl
@[simp] theorem State.onCond_regs (a : Nat) (f : ArrCond → ArrCond) : (s.onCond a f).regs = s.regs := rfl
@[simp] theorem State.onCond_ctl (a : Nat) (f : ArrCond → ArrCond) : (s.onCond a f).ctl = s.ctl := rfl
@[simp] theorem State.onCond_fuses (a : Nat) (f : ArrCond → ArrCond) : (s.onCond a f).fuses = s.fuses := rfl
@[simp] theorem State.onCond_doms (a : Nat) (f : ArrCond → ArrCond) : (s.onCond a f).doms = s.doms := rfl
@[simp] theorem State.onCond_mon (a : Nat) (f : ArrCond → ArrCond) : (s.onCond a f).mon = s.mon := rfl
@[simp] theorem State.onCond_tb (a : Nat) (f : ArrCond → ArrCond) : (s.onCond a f).tb = s.tb := rfl
@[simp] theorem State.onCond_meter (a : Nat) (f : ArrCond → ArrCond) : (s.onCond a f).meter = s.meter := rfl
@[simp] theorem State.onCond_disp (a : Nat) (f : ArrCond → ArrCond) : (s.onCond a f).disp = s.disp := rfl
@[simp] theorem State.onCond_arrs (a : Nat) (f : ArrCond → ArrCond) : (s.onCond a f).arrs = s.arrs := rfl
@[simp] theorem State.onCond_conds (a : Nat) (f : ArrCond → ArrCond) : (s.onCond a f).conds = Tbl.set {} s.conds a (f (s.cond a)) := rfl
@[simp] theorem State.onCond_shared (a : Nat) (f : ArrCond → ArrCond) : (s.onCond a f).shared = s.shared := rfl
@[simp] theorem State.onCond_mem (a : Nat) (f : ArrCond → ArrCond) : (s.onCond a f).mem = s.mem := rfl
@[simp] theorem State.onCond_cache (a : Nat) (f : ArrCond → ArrCond) : (s.onCond a f).cache = s.cache := rfl
@[simp] theorem State.onCond_mport (a : Nat) (f : ArrCond → ArrCond) : (s.onCond a f).mport = s.mport := rfl
@[simp] theorem State.onCond_ring (a : Nat) (f : ArrCond → ArrCond) : (s.onCond a f).ring = s.ring := rfl
@[simp] theorem State.onCond_faults (a : Nat) (f : ArrCond → ArrCond) : (s.onCond a f).faults = s.faults := rfl
@[simp] theorem State.onCond_letters (a : Nat) (f : ArrCond → ArrCond) : (s.onCond a f).letters = s.letters := rfl
@[simp] theorem State.onCond_resets (a : Nat) (f : ArrCond → ArrCond) : (s.onCond a f).resets = s.resets := rfl
@[simp] theorem State.onCond_segment (a : Nat) (f : ArrCond → ArrCond) : (s.onCond a f).segment = s.segment := rfl

/-! `State.setDom` writes `doms`. -/
@[simp] theorem State.setDom_pending (d : Nat) (x : Domain) : (s.setDom d x).pending = s.pending := rfl
@[simp] theorem State.setDom_freeCtr (d : Nat) (x : Domain) : (s.setDom d x).freeCtr = s.freeCtr := rfl
@[simp] theorem State.setDom_regs (d : Nat) (x : Domain) : (s.setDom d x).regs = s.regs := rfl
@[simp] theorem State.setDom_ctl (d : Nat) (x : Domain) : (s.setDom d x).ctl = s.ctl := rfl
@[simp] theorem State.setDom_fuses (d : Nat) (x : Domain) : (s.setDom d x).fuses = s.fuses := rfl
@[simp] theorem State.setDom_doms (d : Nat) (x : Domain) : (s.setDom d x).doms = Tbl.set {} s.doms d x := rfl
@[simp] theorem State.setDom_mon (d : Nat) (x : Domain) : (s.setDom d x).mon = s.mon := rfl
@[simp] theorem State.setDom_tb (d : Nat) (x : Domain) : (s.setDom d x).tb = s.tb := rfl
@[simp] theorem State.setDom_meter (d : Nat) (x : Domain) : (s.setDom d x).meter = s.meter := rfl
@[simp] theorem State.setDom_disp (d : Nat) (x : Domain) : (s.setDom d x).disp = s.disp := rfl
@[simp] theorem State.setDom_arrs (d : Nat) (x : Domain) : (s.setDom d x).arrs = s.arrs := rfl
@[simp] theorem State.setDom_conds (d : Nat) (x : Domain) : (s.setDom d x).conds = s.conds := rfl
@[simp] theorem State.setDom_shared (d : Nat) (x : Domain) : (s.setDom d x).shared = s.shared := rfl
@[simp] theorem State.setDom_mem (d : Nat) (x : Domain) : (s.setDom d x).mem = s.mem := rfl
@[simp] theorem State.setDom_cache (d : Nat) (x : Domain) : (s.setDom d x).cache = s.cache := rfl
@[simp] theorem State.setDom_mport (d : Nat) (x : Domain) : (s.setDom d x).mport = s.mport := rfl
@[simp] theorem State.setDom_ring (d : Nat) (x : Domain) : (s.setDom d x).ring = s.ring := rfl
@[simp] theorem State.setDom_faults (d : Nat) (x : Domain) : (s.setDom d x).faults = s.faults := rfl
@[simp] theorem State.setDom_letters (d : Nat) (x : Domain) : (s.setDom d x).letters = s.letters := rfl
@[simp] theorem State.setDom_resets (d : Nat) (x : Domain) : (s.setDom d x).resets = s.resets := rfl
@[simp] theorem State.setDom_segment (d : Nat) (x : Domain) : (s.setDom d x).segment = s.segment := rfl

/-! `State.onDisp` writes `disp`. -/
@[simp] theorem State.onDisp_pending (f : Dispatcher → Dispatcher) : (s.onDisp f).pending = s.pending := rfl
@[simp] theorem State.onDisp_freeCtr (f : Dispatcher → Dispatcher) : (s.onDisp f).freeCtr = s.freeCtr := rfl
@[simp] theorem State.onDisp_regs (f : Dispatcher → Dispatcher) : (s.onDisp f).regs = s.regs := rfl
@[simp] theorem State.onDisp_ctl (f : Dispatcher → Dispatcher) : (s.onDisp f).ctl = s.ctl := rfl
@[simp] theorem State.onDisp_fuses (f : Dispatcher → Dispatcher) : (s.onDisp f).fuses = s.fuses := rfl
@[simp] theorem State.onDisp_doms (f : Dispatcher → Dispatcher) : (s.onDisp f).doms = s.doms := rfl
@[simp] theorem State.onDisp_mon (f : Dispatcher → Dispatcher) : (s.onDisp f).mon = s.mon := rfl
@[simp] theorem State.onDisp_tb (f : Dispatcher → Dispatcher) : (s.onDisp f).tb = s.tb := rfl
@[simp] theorem State.onDisp_meter (f : Dispatcher → Dispatcher) : (s.onDisp f).meter = s.meter := rfl
@[simp] theorem State.onDisp_disp (f : Dispatcher → Dispatcher) : (s.onDisp f).disp = f s.disp := rfl
@[simp] theorem State.onDisp_arrs (f : Dispatcher → Dispatcher) : (s.onDisp f).arrs = s.arrs := rfl
@[simp] theorem State.onDisp_conds (f : Dispatcher → Dispatcher) : (s.onDisp f).conds = s.conds := rfl
@[simp] theorem State.onDisp_shared (f : Dispatcher → Dispatcher) : (s.onDisp f).shared = s.shared := rfl
@[simp] theorem State.onDisp_mem (f : Dispatcher → Dispatcher) : (s.onDisp f).mem = s.mem := rfl
@[simp] theorem State.onDisp_cache (f : Dispatcher → Dispatcher) : (s.onDisp f).cache = s.cache := rfl
@[simp] theorem State.onDisp_mport (f : Dispatcher → Dispatcher) : (s.onDisp f).mport = s.mport := rfl
@[simp] theorem State.onDisp_ring (f : Dispatcher → Dispatcher) : (s.onDisp f).ring = s.ring := rfl
@[simp] theorem State.onDisp_faults (f : Dispatcher → Dispatcher) : (s.onDisp f).faults = s.faults := rfl
@[simp] theorem State.onDisp_letters (f : Dispatcher → Dispatcher) : (s.onDisp f).letters = s.letters := rfl
@[simp] theorem State.onDisp_resets (f : Dispatcher → Dispatcher) : (s.onDisp f).resets = s.resets := rfl
@[simp] theorem State.onDisp_segment (f : Dispatcher → Dispatcher) : (s.onDisp f).segment = s.segment := rfl

/-! `State.setQueue` writes `disp`. -/
@[simp] theorem State.setQueue_pending (q : Nat) (x : SubQueue) : (s.setQueue q x).pending = s.pending := rfl
@[simp] theorem State.setQueue_freeCtr (q : Nat) (x : SubQueue) : (s.setQueue q x).freeCtr = s.freeCtr := rfl
@[simp] theorem State.setQueue_regs (q : Nat) (x : SubQueue) : (s.setQueue q x).regs = s.regs := rfl
@[simp] theorem State.setQueue_ctl (q : Nat) (x : SubQueue) : (s.setQueue q x).ctl = s.ctl := rfl
@[simp] theorem State.setQueue_fuses (q : Nat) (x : SubQueue) : (s.setQueue q x).fuses = s.fuses := rfl
@[simp] theorem State.setQueue_doms (q : Nat) (x : SubQueue) : (s.setQueue q x).doms = s.doms := rfl
@[simp] theorem State.setQueue_mon (q : Nat) (x : SubQueue) : (s.setQueue q x).mon = s.mon := rfl
@[simp] theorem State.setQueue_tb (q : Nat) (x : SubQueue) : (s.setQueue q x).tb = s.tb := rfl
@[simp] theorem State.setQueue_meter (q : Nat) (x : SubQueue) : (s.setQueue q x).meter = s.meter := rfl
@[simp] theorem State.setQueue_arrs (q : Nat) (x : SubQueue) : (s.setQueue q x).arrs = s.arrs := rfl
@[simp] theorem State.setQueue_conds (q : Nat) (x : SubQueue) : (s.setQueue q x).conds = s.conds := rfl
@[simp] theorem State.setQueue_shared (q : Nat) (x : SubQueue) : (s.setQueue q x).shared = s.shared := rfl
@[simp] theorem State.setQueue_mem (q : Nat) (x : SubQueue) : (s.setQueue q x).mem = s.mem := rfl
@[simp] theorem State.setQueue_cache (q : Nat) (x : SubQueue) : (s.setQueue q x).cache = s.cache := rfl
@[simp] theorem State.setQueue_mport (q : Nat) (x : SubQueue) : (s.setQueue q x).mport = s.mport := rfl
@[simp] theorem State.setQueue_ring (q : Nat) (x : SubQueue) : (s.setQueue q x).ring = s.ring := rfl
@[simp] theorem State.setQueue_faults (q : Nat) (x : SubQueue) : (s.setQueue q x).faults = s.faults := rfl
@[simp] theorem State.setQueue_letters (q : Nat) (x : SubQueue) : (s.setQueue q x).letters = s.letters := rfl
@[simp] theorem State.setQueue_resets (q : Nat) (x : SubQueue) : (s.setQueue q x).resets = s.resets := rfl
@[simp] theorem State.setQueue_segment (q : Nat) (x : SubQueue) : (s.setQueue q x).segment = s.segment := rfl

/-! `State.setBag` writes `disp`. -/
@[simp] theorem State.setBag_pending (m : Nat) (x : Mailbag) : (s.setBag m x).pending = s.pending := rfl
@[simp] theorem State.setBag_freeCtr (m : Nat) (x : Mailbag) : (s.setBag m x).freeCtr = s.freeCtr := rfl
@[simp] theorem State.setBag_regs (m : Nat) (x : Mailbag) : (s.setBag m x).regs = s.regs := rfl
@[simp] theorem State.setBag_ctl (m : Nat) (x : Mailbag) : (s.setBag m x).ctl = s.ctl := rfl
@[simp] theorem State.setBag_fuses (m : Nat) (x : Mailbag) : (s.setBag m x).fuses = s.fuses := rfl
@[simp] theorem State.setBag_doms (m : Nat) (x : Mailbag) : (s.setBag m x).doms = s.doms := rfl
@[simp] theorem State.setBag_mon (m : Nat) (x : Mailbag) : (s.setBag m x).mon = s.mon := rfl
@[simp] theorem State.setBag_tb (m : Nat) (x : Mailbag) : (s.setBag m x).tb = s.tb := rfl
@[simp] theorem State.setBag_meter (m : Nat) (x : Mailbag) : (s.setBag m x).meter = s.meter := rfl
@[simp] theorem State.setBag_arrs (m : Nat) (x : Mailbag) : (s.setBag m x).arrs = s.arrs := rfl
@[simp] theorem State.setBag_conds (m : Nat) (x : Mailbag) : (s.setBag m x).conds = s.conds := rfl
@[simp] theorem State.setBag_shared (m : Nat) (x : Mailbag) : (s.setBag m x).shared = s.shared := rfl
@[simp] theorem State.setBag_mem (m : Nat) (x : Mailbag) : (s.setBag m x).mem = s.mem := rfl
@[simp] theorem State.setBag_cache (m : Nat) (x : Mailbag) : (s.setBag m x).cache = s.cache := rfl
@[simp] theorem State.setBag_mport (m : Nat) (x : Mailbag) : (s.setBag m x).mport = s.mport := rfl
@[simp] theorem State.setBag_ring (m : Nat) (x : Mailbag) : (s.setBag m x).ring = s.ring := rfl
@[simp] theorem State.setBag_faults (m : Nat) (x : Mailbag) : (s.setBag m x).faults = s.faults := rfl
@[simp] theorem State.setBag_letters (m : Nat) (x : Mailbag) : (s.setBag m x).letters = s.letters := rfl
@[simp] theorem State.setBag_resets (m : Nat) (x : Mailbag) : (s.setBag m x).resets = s.resets := rfl
@[simp] theorem State.setBag_segment (m : Nat) (x : Mailbag) : (s.setBag m x).segment = s.segment := rfl

/-! `State.setLb` writes `disp`. -/
@[simp] theorem State.setLb_pending (n : Nat) (v : Word) : (s.setLb n v).pending = s.pending := rfl
@[simp] theorem State.setLb_freeCtr (n : Nat) (v : Word) : (s.setLb n v).freeCtr = s.freeCtr := rfl
@[simp] theorem State.setLb_regs (n : Nat) (v : Word) : (s.setLb n v).regs = s.regs := rfl
@[simp] theorem State.setLb_ctl (n : Nat) (v : Word) : (s.setLb n v).ctl = s.ctl := rfl
@[simp] theorem State.setLb_fuses (n : Nat) (v : Word) : (s.setLb n v).fuses = s.fuses := rfl
@[simp] theorem State.setLb_doms (n : Nat) (v : Word) : (s.setLb n v).doms = s.doms := rfl
@[simp] theorem State.setLb_mon (n : Nat) (v : Word) : (s.setLb n v).mon = s.mon := rfl
@[simp] theorem State.setLb_tb (n : Nat) (v : Word) : (s.setLb n v).tb = s.tb := rfl
@[simp] theorem State.setLb_meter (n : Nat) (v : Word) : (s.setLb n v).meter = s.meter := rfl
@[simp] theorem State.setLb_arrs (n : Nat) (v : Word) : (s.setLb n v).arrs = s.arrs := rfl
@[simp] theorem State.setLb_conds (n : Nat) (v : Word) : (s.setLb n v).conds = s.conds := rfl
@[simp] theorem State.setLb_shared (n : Nat) (v : Word) : (s.setLb n v).shared = s.shared := rfl
@[simp] theorem State.setLb_mem (n : Nat) (v : Word) : (s.setLb n v).mem = s.mem := rfl
@[simp] theorem State.setLb_cache (n : Nat) (v : Word) : (s.setLb n v).cache = s.cache := rfl
@[simp] theorem State.setLb_mport (n : Nat) (v : Word) : (s.setLb n v).mport = s.mport := rfl
@[simp] theorem State.setLb_ring (n : Nat) (v : Word) : (s.setLb n v).ring = s.ring := rfl
@[simp] theorem State.setLb_faults (n : Nat) (v : Word) : (s.setLb n v).faults = s.faults := rfl
@[simp] theorem State.setLb_letters (n : Nat) (v : Word) : (s.setLb n v).letters = s.letters := rfl
@[simp] theorem State.setLb_resets (n : Nat) (v : Word) : (s.setLb n v).resets = s.resets := rfl
@[simp] theorem State.setLb_segment (n : Nat) (v : Word) : (s.setLb n v).segment = s.segment := rfl

/-! `State.setCollection` writes `disp`. -/
@[simp] theorem State.setCollection_pending (t : Nat) (c : Collection) : (s.setCollection t c).pending = s.pending := rfl
@[simp] theorem State.setCollection_freeCtr (t : Nat) (c : Collection) : (s.setCollection t c).freeCtr = s.freeCtr := rfl
@[simp] theorem State.setCollection_regs (t : Nat) (c : Collection) : (s.setCollection t c).regs = s.regs := rfl
@[simp] theorem State.setCollection_ctl (t : Nat) (c : Collection) : (s.setCollection t c).ctl = s.ctl := rfl
@[simp] theorem State.setCollection_fuses (t : Nat) (c : Collection) : (s.setCollection t c).fuses = s.fuses := rfl
@[simp] theorem State.setCollection_doms (t : Nat) (c : Collection) : (s.setCollection t c).doms = s.doms := rfl
@[simp] theorem State.setCollection_mon (t : Nat) (c : Collection) : (s.setCollection t c).mon = s.mon := rfl
@[simp] theorem State.setCollection_tb (t : Nat) (c : Collection) : (s.setCollection t c).tb = s.tb := rfl
@[simp] theorem State.setCollection_meter (t : Nat) (c : Collection) : (s.setCollection t c).meter = s.meter := rfl
@[simp] theorem State.setCollection_arrs (t : Nat) (c : Collection) : (s.setCollection t c).arrs = s.arrs := rfl
@[simp] theorem State.setCollection_conds (t : Nat) (c : Collection) : (s.setCollection t c).conds = s.conds := rfl
@[simp] theorem State.setCollection_shared (t : Nat) (c : Collection) : (s.setCollection t c).shared = s.shared := rfl
@[simp] theorem State.setCollection_mem (t : Nat) (c : Collection) : (s.setCollection t c).mem = s.mem := rfl
@[simp] theorem State.setCollection_cache (t : Nat) (c : Collection) : (s.setCollection t c).cache = s.cache := rfl
@[simp] theorem State.setCollection_mport (t : Nat) (c : Collection) : (s.setCollection t c).mport = s.mport := rfl
@[simp] theorem State.setCollection_ring (t : Nat) (c : Collection) : (s.setCollection t c).ring = s.ring := rfl
@[simp] theorem State.setCollection_faults (t : Nat) (c : Collection) : (s.setCollection t c).faults = s.faults := rfl
@[simp] theorem State.setCollection_letters (t : Nat) (c : Collection) : (s.setCollection t c).letters = s.letters := rfl
@[simp] theorem State.setCollection_resets (t : Nat) (c : Collection) : (s.setCollection t c).resets = s.resets := rfl
@[simp] theorem State.setCollection_segment (t : Nat) (c : Collection) : (s.setCollection t c).segment = s.segment := rfl

/-! `State.setSubRec` writes `disp`. -/
@[simp] theorem State.setSubRec_pending (i : Nat) (r : SubRec) : (s.setSubRec i r).pending = s.pending := rfl
@[simp] theorem State.setSubRec_freeCtr (i : Nat) (r : SubRec) : (s.setSubRec i r).freeCtr = s.freeCtr := rfl
@[simp] theorem State.setSubRec_regs (i : Nat) (r : SubRec) : (s.setSubRec i r).regs = s.regs := rfl
@[simp] theorem State.setSubRec_ctl (i : Nat) (r : SubRec) : (s.setSubRec i r).ctl = s.ctl := rfl
@[simp] theorem State.setSubRec_fuses (i : Nat) (r : SubRec) : (s.setSubRec i r).fuses = s.fuses := rfl
@[simp] theorem State.setSubRec_doms (i : Nat) (r : SubRec) : (s.setSubRec i r).doms = s.doms := rfl
@[simp] theorem State.setSubRec_mon (i : Nat) (r : SubRec) : (s.setSubRec i r).mon = s.mon := rfl
@[simp] theorem State.setSubRec_tb (i : Nat) (r : SubRec) : (s.setSubRec i r).tb = s.tb := rfl
@[simp] theorem State.setSubRec_meter (i : Nat) (r : SubRec) : (s.setSubRec i r).meter = s.meter := rfl
@[simp] theorem State.setSubRec_arrs (i : Nat) (r : SubRec) : (s.setSubRec i r).arrs = s.arrs := rfl
@[simp] theorem State.setSubRec_conds (i : Nat) (r : SubRec) : (s.setSubRec i r).conds = s.conds := rfl
@[simp] theorem State.setSubRec_shared (i : Nat) (r : SubRec) : (s.setSubRec i r).shared = s.shared := rfl
@[simp] theorem State.setSubRec_mem (i : Nat) (r : SubRec) : (s.setSubRec i r).mem = s.mem := rfl
@[simp] theorem State.setSubRec_cache (i : Nat) (r : SubRec) : (s.setSubRec i r).cache = s.cache := rfl
@[simp] theorem State.setSubRec_mport (i : Nat) (r : SubRec) : (s.setSubRec i r).mport = s.mport := rfl
@[simp] theorem State.setSubRec_ring (i : Nat) (r : SubRec) : (s.setSubRec i r).ring = s.ring := rfl
@[simp] theorem State.setSubRec_faults (i : Nat) (r : SubRec) : (s.setSubRec i r).faults = s.faults := rfl
@[simp] theorem State.setSubRec_letters (i : Nat) (r : SubRec) : (s.setSubRec i r).letters = s.letters := rfl
@[simp] theorem State.setSubRec_resets (i : Nat) (r : SubRec) : (s.setSubRec i r).resets = s.resets := rfl
@[simp] theorem State.setSubRec_segment (i : Nat) (r : SubRec) : (s.setSubRec i r).segment = s.segment := rfl

/-! `State.setTask` writes `disp`. -/
@[simp] theorem State.setTask_pending (r : Nat) (t : Option Task) : (s.setTask r t).pending = s.pending := rfl
@[simp] theorem State.setTask_freeCtr (r : Nat) (t : Option Task) : (s.setTask r t).freeCtr = s.freeCtr := rfl
@[simp] theorem State.setTask_regs (r : Nat) (t : Option Task) : (s.setTask r t).regs = s.regs := rfl
@[simp] theorem State.setTask_ctl (r : Nat) (t : Option Task) : (s.setTask r t).ctl = s.ctl := rfl
@[simp] theorem State.setTask_fuses (r : Nat) (t : Option Task) : (s.setTask r t).fuses = s.fuses := rfl
@[simp] theorem State.setTask_doms (r : Nat) (t : Option Task) : (s.setTask r t).doms = s.doms := rfl
@[simp] theorem State.setTask_mon (r : Nat) (t : Option Task) : (s.setTask r t).mon = s.mon := rfl
@[simp] theorem State.setTask_tb (r : Nat) (t : Option Task) : (s.setTask r t).tb = s.tb := rfl
@[simp] theorem State.setTask_meter (r : Nat) (t : Option Task) : (s.setTask r t).meter = s.meter := rfl
@[simp] theorem State.setTask_arrs (r : Nat) (t : Option Task) : (s.setTask r t).arrs = s.arrs := rfl
@[simp] theorem State.setTask_conds (r : Nat) (t : Option Task) : (s.setTask r t).conds = s.conds := rfl
@[simp] theorem State.setTask_shared (r : Nat) (t : Option Task) : (s.setTask r t).shared = s.shared := rfl
@[simp] theorem State.setTask_mem (r : Nat) (t : Option Task) : (s.setTask r t).mem = s.mem := rfl
@[simp] theorem State.setTask_cache (r : Nat) (t : Option Task) : (s.setTask r t).cache = s.cache := rfl
@[simp] theorem State.setTask_mport (r : Nat) (t : Option Task) : (s.setTask r t).mport = s.mport := rfl
@[simp] theorem State.setTask_ring (r : Nat) (t : Option Task) : (s.setTask r t).ring = s.ring := rfl
@[simp] theorem State.setTask_faults (r : Nat) (t : Option Task) : (s.setTask r t).faults = s.faults := rfl
@[simp] theorem State.setTask_letters (r : Nat) (t : Option Task) : (s.setTask r t).letters = s.letters := rfl
@[simp] theorem State.setTask_resets (r : Nat) (t : Option Task) : (s.setTask r t).resets = s.resets := rfl
@[simp] theorem State.setTask_segment (r : Nat) (t : Option Task) : (s.setTask r t).segment = s.segment := rfl

/-! `State.onTask` writes `disp`. -/
@[simp] theorem State.onTask_pending (r : Nat) (f : Task → Task) : (s.onTask r f).pending = s.pending := rfl
@[simp] theorem State.onTask_freeCtr (r : Nat) (f : Task → Task) : (s.onTask r f).freeCtr = s.freeCtr := rfl
@[simp] theorem State.onTask_regs (r : Nat) (f : Task → Task) : (s.onTask r f).regs = s.regs := rfl
@[simp] theorem State.onTask_ctl (r : Nat) (f : Task → Task) : (s.onTask r f).ctl = s.ctl := rfl
@[simp] theorem State.onTask_fuses (r : Nat) (f : Task → Task) : (s.onTask r f).fuses = s.fuses := rfl
@[simp] theorem State.onTask_doms (r : Nat) (f : Task → Task) : (s.onTask r f).doms = s.doms := rfl
@[simp] theorem State.onTask_mon (r : Nat) (f : Task → Task) : (s.onTask r f).mon = s.mon := rfl
@[simp] theorem State.onTask_tb (r : Nat) (f : Task → Task) : (s.onTask r f).tb = s.tb := rfl
@[simp] theorem State.onTask_meter (r : Nat) (f : Task → Task) : (s.onTask r f).meter = s.meter := rfl
@[simp] theorem State.onTask_arrs (r : Nat) (f : Task → Task) : (s.onTask r f).arrs = s.arrs := rfl
@[simp] theorem State.onTask_conds (r : Nat) (f : Task → Task) : (s.onTask r f).conds = s.conds := rfl
@[simp] theorem State.onTask_shared (r : Nat) (f : Task → Task) : (s.onTask r f).shared = s.shared := rfl
@[simp] theorem State.onTask_mem (r : Nat) (f : Task → Task) : (s.onTask r f).mem = s.mem := rfl
@[simp] theorem State.onTask_cache (r : Nat) (f : Task → Task) : (s.onTask r f).cache = s.cache := rfl
@[simp] theorem State.onTask_mport (r : Nat) (f : Task → Task) : (s.onTask r f).mport = s.mport := rfl
@[simp] theorem State.onTask_ring (r : Nat) (f : Task → Task) : (s.onTask r f).ring = s.ring := rfl
@[simp] theorem State.onTask_faults (r : Nat) (f : Task → Task) : (s.onTask r f).faults = s.faults := rfl
@[simp] theorem State.onTask_letters (r : Nat) (f : Task → Task) : (s.onTask r f).letters = s.letters := rfl
@[simp] theorem State.onTask_resets (r : Nat) (f : Task → Task) : (s.onTask r f).resets = s.resets := rfl
@[simp] theorem State.onTask_segment (r : Nat) (f : Task → Task) : (s.onTask r f).segment = s.segment := rfl

/-! `State.onCmd` writes `disp`. -/
@[simp] theorem State.onCmd_pending (c : Nat) (f : Cmd → Cmd) : (s.onCmd c f).pending = s.pending := rfl
@[simp] theorem State.onCmd_freeCtr (c : Nat) (f : Cmd → Cmd) : (s.onCmd c f).freeCtr = s.freeCtr := rfl
@[simp] theorem State.onCmd_regs (c : Nat) (f : Cmd → Cmd) : (s.onCmd c f).regs = s.regs := rfl
@[simp] theorem State.onCmd_ctl (c : Nat) (f : Cmd → Cmd) : (s.onCmd c f).ctl = s.ctl := rfl
@[simp] theorem State.onCmd_fuses (c : Nat) (f : Cmd → Cmd) : (s.onCmd c f).fuses = s.fuses := rfl
@[simp] theorem State.onCmd_doms (c : Nat) (f : Cmd → Cmd) : (s.onCmd c f).doms = s.doms := rfl
@[simp] theorem State.onCmd_mon (c : Nat) (f : Cmd → Cmd) : (s.onCmd c f).mon = s.mon := rfl
@[simp] theorem State.onCmd_tb (c : Nat) (f : Cmd → Cmd) : (s.onCmd c f).tb = s.tb := rfl
@[simp] theorem State.onCmd_meter (c : Nat) (f : Cmd → Cmd) : (s.onCmd c f).meter = s.meter := rfl
@[simp] theorem State.onCmd_arrs (c : Nat) (f : Cmd → Cmd) : (s.onCmd c f).arrs = s.arrs := rfl
@[simp] theorem State.onCmd_conds (c : Nat) (f : Cmd → Cmd) : (s.onCmd c f).conds = s.conds := rfl
@[simp] theorem State.onCmd_shared (c : Nat) (f : Cmd → Cmd) : (s.onCmd c f).shared = s.shared := rfl
@[simp] theorem State.onCmd_mem (c : Nat) (f : Cmd → Cmd) : (s.onCmd c f).mem = s.mem := rfl
@[simp] theorem State.onCmd_cache (c : Nat) (f : Cmd → Cmd) : (s.onCmd c f).cache = s.cache := rfl
@[simp] theorem State.onCmd_mport (c : Nat) (f : Cmd → Cmd) : (s.onCmd c f).mport = s.mport := rfl
@[simp] theorem State.onCmd_ring (c : Nat) (f : Cmd → Cmd) : (s.onCmd c f).ring = s.ring := rfl
@[simp] theorem State.onCmd_faults (c : Nat) (f : Cmd → Cmd) : (s.onCmd c f).faults = s.faults := rfl
@[simp] theorem State.onCmd_letters (c : Nat) (f : Cmd → Cmd) : (s.onCmd c f).letters = s.letters := rfl
@[simp] theorem State.onCmd_resets (c : Nat) (f : Cmd → Cmd) : (s.onCmd c f).resets = s.resets := rfl
@[simp] theorem State.onCmd_segment (c : Nat) (f : Cmd → Cmd) : (s.onCmd c f).segment = s.segment := rfl

/-! `State.setRoutine` writes `disp`. -/
@[simp] theorem State.setRoutine_pending (r : Nat) (x : Routine) : (s.setRoutine r x).pending = s.pending := rfl
@[simp] theorem State.setRoutine_freeCtr (r : Nat) (x : Routine) : (s.setRoutine r x).freeCtr = s.freeCtr := rfl
@[simp] theorem State.setRoutine_regs (r : Nat) (x : Routine) : (s.setRoutine r x).regs = s.regs := rfl
@[simp] theorem State.setRoutine_ctl (r : Nat) (x : Routine) : (s.setRoutine r x).ctl = s.ctl := rfl
@[simp] theorem State.setRoutine_fuses (r : Nat) (x : Routine) : (s.setRoutine r x).fuses = s.fuses := rfl
@[simp] theorem State.setRoutine_doms (r : Nat) (x : Routine) : (s.setRoutine r x).doms = s.doms := rfl
@[simp] theorem State.setRoutine_mon (r : Nat) (x : Routine) : (s.setRoutine r x).mon = s.mon := rfl
@[simp] theorem State.setRoutine_tb (r : Nat) (x : Routine) : (s.setRoutine r x).tb = s.tb := rfl
@[simp] theorem State.setRoutine_meter (r : Nat) (x : Routine) : (s.setRoutine r x).meter = s.meter := rfl
@[simp] theorem State.setRoutine_arrs (r : Nat) (x : Routine) : (s.setRoutine r x).arrs = s.arrs := rfl
@[simp] theorem State.setRoutine_conds (r : Nat) (x : Routine) : (s.setRoutine r x).conds = s.conds := rfl
@[simp] theorem State.setRoutine_shared (r : Nat) (x : Routine) : (s.setRoutine r x).shared = s.shared := rfl
@[simp] theorem State.setRoutine_mem (r : Nat) (x : Routine) : (s.setRoutine r x).mem = s.mem := rfl
@[simp] theorem State.setRoutine_cache (r : Nat) (x : Routine) : (s.setRoutine r x).cache = s.cache := rfl
@[simp] theorem State.setRoutine_mport (r : Nat) (x : Routine) : (s.setRoutine r x).mport = s.mport := rfl
@[simp] theorem State.setRoutine_ring (r : Nat) (x : Routine) : (s.setRoutine r x).ring = s.ring := rfl
@[simp] theorem State.setRoutine_faults (r : Nat) (x : Routine) : (s.setRoutine r x).faults = s.faults := rfl
@[simp] theorem State.setRoutine_letters (r : Nat) (x : Routine) : (s.setRoutine r x).letters = s.letters := rfl
@[simp] theorem State.setRoutine_resets (r : Nat) (x : Routine) : (s.setRoutine r x).resets = s.resets := rfl
@[simp] theorem State.setRoutine_segment (r : Nat) (x : Routine) : (s.setRoutine r x).segment = s.segment := rfl

/-! `State.setPort` writes `ring`. -/
@[simp] theorem State.setPort_pending (p : Nat) (x : Port) : (s.setPort p x).pending = s.pending := rfl
@[simp] theorem State.setPort_freeCtr (p : Nat) (x : Port) : (s.setPort p x).freeCtr = s.freeCtr := rfl
@[simp] theorem State.setPort_regs (p : Nat) (x : Port) : (s.setPort p x).regs = s.regs := rfl
@[simp] theorem State.setPort_ctl (p : Nat) (x : Port) : (s.setPort p x).ctl = s.ctl := rfl
@[simp] theorem State.setPort_fuses (p : Nat) (x : Port) : (s.setPort p x).fuses = s.fuses := rfl
@[simp] theorem State.setPort_doms (p : Nat) (x : Port) : (s.setPort p x).doms = s.doms := rfl
@[simp] theorem State.setPort_mon (p : Nat) (x : Port) : (s.setPort p x).mon = s.mon := rfl
@[simp] theorem State.setPort_tb (p : Nat) (x : Port) : (s.setPort p x).tb = s.tb := rfl
@[simp] theorem State.setPort_meter (p : Nat) (x : Port) : (s.setPort p x).meter = s.meter := rfl
@[simp] theorem State.setPort_disp (p : Nat) (x : Port) : (s.setPort p x).disp = s.disp := rfl
@[simp] theorem State.setPort_arrs (p : Nat) (x : Port) : (s.setPort p x).arrs = s.arrs := rfl
@[simp] theorem State.setPort_conds (p : Nat) (x : Port) : (s.setPort p x).conds = s.conds := rfl
@[simp] theorem State.setPort_shared (p : Nat) (x : Port) : (s.setPort p x).shared = s.shared := rfl
@[simp] theorem State.setPort_mem (p : Nat) (x : Port) : (s.setPort p x).mem = s.mem := rfl
@[simp] theorem State.setPort_cache (p : Nat) (x : Port) : (s.setPort p x).cache = s.cache := rfl
@[simp] theorem State.setPort_mport (p : Nat) (x : Port) : (s.setPort p x).mport = s.mport := rfl
@[simp] theorem State.setPort_ring (p : Nat) (x : Port) : (s.setPort p x).ring = Tbl.set {} s.ring p x := rfl
@[simp] theorem State.setPort_faults (p : Nat) (x : Port) : (s.setPort p x).faults = s.faults := rfl
@[simp] theorem State.setPort_letters (p : Nat) (x : Port) : (s.setPort p x).letters = s.letters := rfl
@[simp] theorem State.setPort_resets (p : Nat) (x : Port) : (s.setPort p x).resets = s.resets := rfl
@[simp] theorem State.setPort_segment (p : Nat) (x : Port) : (s.setPort p x).segment = s.segment := rfl

/-! `State.onPort` writes `ring`. -/
@[simp] theorem State.onPort_pending (p : Nat) (f : Port → Port) : (s.onPort p f).pending = s.pending := rfl
@[simp] theorem State.onPort_freeCtr (p : Nat) (f : Port → Port) : (s.onPort p f).freeCtr = s.freeCtr := rfl
@[simp] theorem State.onPort_regs (p : Nat) (f : Port → Port) : (s.onPort p f).regs = s.regs := rfl
@[simp] theorem State.onPort_ctl (p : Nat) (f : Port → Port) : (s.onPort p f).ctl = s.ctl := rfl
@[simp] theorem State.onPort_fuses (p : Nat) (f : Port → Port) : (s.onPort p f).fuses = s.fuses := rfl
@[simp] theorem State.onPort_doms (p : Nat) (f : Port → Port) : (s.onPort p f).doms = s.doms := rfl
@[simp] theorem State.onPort_mon (p : Nat) (f : Port → Port) : (s.onPort p f).mon = s.mon := rfl
@[simp] theorem State.onPort_tb (p : Nat) (f : Port → Port) : (s.onPort p f).tb = s.tb := rfl
@[simp] theorem State.onPort_meter (p : Nat) (f : Port → Port) : (s.onPort p f).meter = s.meter := rfl
@[simp] theorem State.onPort_disp (p : Nat) (f : Port → Port) : (s.onPort p f).disp = s.disp := rfl
@[simp] theorem State.onPort_arrs (p : Nat) (f : Port → Port) : (s.onPort p f).arrs = s.arrs := rfl
@[simp] theorem State.onPort_conds (p : Nat) (f : Port → Port) : (s.onPort p f).conds = s.conds := rfl
@[simp] theorem State.onPort_shared (p : Nat) (f : Port → Port) : (s.onPort p f).shared = s.shared := rfl
@[simp] theorem State.onPort_mem (p : Nat) (f : Port → Port) : (s.onPort p f).mem = s.mem := rfl
@[simp] theorem State.onPort_cache (p : Nat) (f : Port → Port) : (s.onPort p f).cache = s.cache := rfl
@[simp] theorem State.onPort_mport (p : Nat) (f : Port → Port) : (s.onPort p f).mport = s.mport := rfl
@[simp] theorem State.onPort_ring (p : Nat) (f : Port → Port) : (s.onPort p f).ring = Tbl.set {} s.ring p (f (s.port p)) := rfl
@[simp] theorem State.onPort_faults (p : Nat) (f : Port → Port) : (s.onPort p f).faults = s.faults := rfl
@[simp] theorem State.onPort_letters (p : Nat) (f : Port → Port) : (s.onPort p f).letters = s.letters := rfl
@[simp] theorem State.onPort_resets (p : Nat) (f : Port → Port) : (s.onPort p f).resets = s.resets := rfl
@[simp] theorem State.onPort_segment (p : Nat) (f : Port → Port) : (s.onPort p f).segment = s.segment := rfl

/-! `State.setChan` writes `mport`. -/
@[simp] theorem State.setChan_pending (c : Nat) (x : MemChan) : (s.setChan c x).pending = s.pending := rfl
@[simp] theorem State.setChan_freeCtr (c : Nat) (x : MemChan) : (s.setChan c x).freeCtr = s.freeCtr := rfl
@[simp] theorem State.setChan_regs (c : Nat) (x : MemChan) : (s.setChan c x).regs = s.regs := rfl
@[simp] theorem State.setChan_ctl (c : Nat) (x : MemChan) : (s.setChan c x).ctl = s.ctl := rfl
@[simp] theorem State.setChan_fuses (c : Nat) (x : MemChan) : (s.setChan c x).fuses = s.fuses := rfl
@[simp] theorem State.setChan_doms (c : Nat) (x : MemChan) : (s.setChan c x).doms = s.doms := rfl
@[simp] theorem State.setChan_mon (c : Nat) (x : MemChan) : (s.setChan c x).mon = s.mon := rfl
@[simp] theorem State.setChan_tb (c : Nat) (x : MemChan) : (s.setChan c x).tb = s.tb := rfl
@[simp] theorem State.setChan_meter (c : Nat) (x : MemChan) : (s.setChan c x).meter = s.meter := rfl
@[simp] theorem State.setChan_disp (c : Nat) (x : MemChan) : (s.setChan c x).disp = s.disp := rfl
@[simp] theorem State.setChan_arrs (c : Nat) (x : MemChan) : (s.setChan c x).arrs = s.arrs := rfl
@[simp] theorem State.setChan_conds (c : Nat) (x : MemChan) : (s.setChan c x).conds = s.conds := rfl
@[simp] theorem State.setChan_shared (c : Nat) (x : MemChan) : (s.setChan c x).shared = s.shared := rfl
@[simp] theorem State.setChan_mem (c : Nat) (x : MemChan) : (s.setChan c x).mem = s.mem := rfl
@[simp] theorem State.setChan_cache (c : Nat) (x : MemChan) : (s.setChan c x).cache = s.cache := rfl
@[simp] theorem State.setChan_mport (c : Nat) (x : MemChan) : (s.setChan c x).mport = { s.mport with chans := Tbl.set {} s.mport.chans c x } := rfl
@[simp] theorem State.setChan_ring (c : Nat) (x : MemChan) : (s.setChan c x).ring = s.ring := rfl
@[simp] theorem State.setChan_faults (c : Nat) (x : MemChan) : (s.setChan c x).faults = s.faults := rfl
@[simp] theorem State.setChan_letters (c : Nat) (x : MemChan) : (s.setChan c x).letters = s.letters := rfl
@[simp] theorem State.setChan_resets (c : Nat) (x : MemChan) : (s.setChan c x).resets = s.resets := rfl
@[simp] theorem State.setChan_segment (c : Nat) (x : MemChan) : (s.setChan c x).segment = s.segment := rfl

/-! `State.onAcct` writes `meter`. -/
@[simp] theorem State.onAcct_pending (t : Nat) (f : Account → Account) : (s.onAcct t f).pending = s.pending := rfl
@[simp] theorem State.onAcct_freeCtr (t : Nat) (f : Account → Account) : (s.onAcct t f).freeCtr = s.freeCtr := rfl
@[simp] theorem State.onAcct_regs (t : Nat) (f : Account → Account) : (s.onAcct t f).regs = s.regs := rfl
@[simp] theorem State.onAcct_ctl (t : Nat) (f : Account → Account) : (s.onAcct t f).ctl = s.ctl := rfl
@[simp] theorem State.onAcct_fuses (t : Nat) (f : Account → Account) : (s.onAcct t f).fuses = s.fuses := rfl
@[simp] theorem State.onAcct_doms (t : Nat) (f : Account → Account) : (s.onAcct t f).doms = s.doms := rfl
@[simp] theorem State.onAcct_mon (t : Nat) (f : Account → Account) : (s.onAcct t f).mon = s.mon := rfl
@[simp] theorem State.onAcct_tb (t : Nat) (f : Account → Account) : (s.onAcct t f).tb = s.tb := rfl
@[simp] theorem State.onAcct_meter (t : Nat) (f : Account → Account) : (s.onAcct t f).meter = { s.meter with acct := Tbl.upd {} s.meter.acct t f } := rfl
@[simp] theorem State.onAcct_disp (t : Nat) (f : Account → Account) : (s.onAcct t f).disp = s.disp := rfl
@[simp] theorem State.onAcct_arrs (t : Nat) (f : Account → Account) : (s.onAcct t f).arrs = s.arrs := rfl
@[simp] theorem State.onAcct_conds (t : Nat) (f : Account → Account) : (s.onAcct t f).conds = s.conds := rfl
@[simp] theorem State.onAcct_shared (t : Nat) (f : Account → Account) : (s.onAcct t f).shared = s.shared := rfl
@[simp] theorem State.onAcct_mem (t : Nat) (f : Account → Account) : (s.onAcct t f).mem = s.mem := rfl
@[simp] theorem State.onAcct_cache (t : Nat) (f : Account → Account) : (s.onAcct t f).cache = s.cache := rfl
@[simp] theorem State.onAcct_mport (t : Nat) (f : Account → Account) : (s.onAcct t f).mport = s.mport := rfl
@[simp] theorem State.onAcct_ring (t : Nat) (f : Account → Account) : (s.onAcct t f).ring = s.ring := rfl
@[simp] theorem State.onAcct_faults (t : Nat) (f : Account → Account) : (s.onAcct t f).faults = s.faults := rfl
@[simp] theorem State.onAcct_letters (t : Nat) (f : Account → Account) : (s.onAcct t f).letters = s.letters := rfl
@[simp] theorem State.onAcct_resets (t : Nat) (f : Account → Account) : (s.onAcct t f).resets = s.resets := rfl
@[simp] theorem State.onAcct_segment (t : Nat) (f : Account → Account) : (s.onAcct t f).segment = s.segment := rfl

/-! `State.setCtx` writes `ctl`. -/
@[simp] theorem State.setCtx_pending (p c : Nat) (x : EvtCtx) : (s.setCtx p c x).pending = s.pending := rfl
@[simp] theorem State.setCtx_freeCtr (p c : Nat) (x : EvtCtx) : (s.setCtx p c x).freeCtr = s.freeCtr := rfl
@[simp] theorem State.setCtx_regs (p c : Nat) (x : EvtCtx) : (s.setCtx p c x).regs = s.regs := rfl
@[simp] theorem State.setCtx_fuses (p c : Nat) (x : EvtCtx) : (s.setCtx p c x).fuses = s.fuses := rfl
@[simp] theorem State.setCtx_doms (p c : Nat) (x : EvtCtx) : (s.setCtx p c x).doms = s.doms := rfl
@[simp] theorem State.setCtx_mon (p c : Nat) (x : EvtCtx) : (s.setCtx p c x).mon = s.mon := rfl
@[simp] theorem State.setCtx_tb (p c : Nat) (x : EvtCtx) : (s.setCtx p c x).tb = s.tb := rfl
@[simp] theorem State.setCtx_meter (p c : Nat) (x : EvtCtx) : (s.setCtx p c x).meter = s.meter := rfl
@[simp] theorem State.setCtx_disp (p c : Nat) (x : EvtCtx) : (s.setCtx p c x).disp = s.disp := rfl
@[simp] theorem State.setCtx_arrs (p c : Nat) (x : EvtCtx) : (s.setCtx p c x).arrs = s.arrs := rfl
@[simp] theorem State.setCtx_conds (p c : Nat) (x : EvtCtx) : (s.setCtx p c x).conds = s.conds := rfl
@[simp] theorem State.setCtx_shared (p c : Nat) (x : EvtCtx) : (s.setCtx p c x).shared = s.shared := rfl
@[simp] theorem State.setCtx_mem (p c : Nat) (x : EvtCtx) : (s.setCtx p c x).mem = s.mem := rfl
@[simp] theorem State.setCtx_cache (p c : Nat) (x : EvtCtx) : (s.setCtx p c x).cache = s.cache := rfl
@[simp] theorem State.setCtx_mport (p c : Nat) (x : EvtCtx) : (s.setCtx p c x).mport = s.mport := rfl
@[simp] theorem State.setCtx_ring (p c : Nat) (x : EvtCtx) : (s.setCtx p c x).ring = s.ring := rfl
@[simp] theorem State.setCtx_faults (p c : Nat) (x : EvtCtx) : (s.setCtx p c x).faults = s.faults := rfl
@[simp] theorem State.setCtx_letters (p c : Nat) (x : EvtCtx) : (s.setCtx p c x).letters = s.letters := rfl
@[simp] theorem State.setCtx_resets (p c : Nat) (x : EvtCtx) : (s.setCtx p c x).resets = s.resets := rfl
@[simp] theorem State.setCtx_segment (p c : Nat) (x : EvtCtx) : (s.setCtx p c x).segment = s.segment := rfl

/-! `State.setAgentQ` writes `ctl`. -/
@[simp] theorem State.setAgentQ_pending (n : Nat) (q : AgentQ) : (s.setAgentQ n q).pending = s.pending := rfl
@[simp] theorem State.setAgentQ_freeCtr (n : Nat) (q : AgentQ) : (s.setAgentQ n q).freeCtr = s.freeCtr := rfl
@[simp] theorem State.setAgentQ_regs (n : Nat) (q : AgentQ) : (s.setAgentQ n q).regs = s.regs := rfl
@[simp] theorem State.setAgentQ_fuses (n : Nat) (q : AgentQ) : (s.setAgentQ n q).fuses = s.fuses := rfl
@[simp] theorem State.setAgentQ_doms (n : Nat) (q : AgentQ) : (s.setAgentQ n q).doms = s.doms := rfl
@[simp] theorem State.setAgentQ_mon (n : Nat) (q : AgentQ) : (s.setAgentQ n q).mon = s.mon := rfl
@[simp] theorem State.setAgentQ_tb (n : Nat) (q : AgentQ) : (s.setAgentQ n q).tb = s.tb := rfl
@[simp] theorem State.setAgentQ_meter (n : Nat) (q : AgentQ) : (s.setAgentQ n q).meter = s.meter := rfl
@[simp] theorem State.setAgentQ_disp (n : Nat) (q : AgentQ) : (s.setAgentQ n q).disp = s.disp := rfl
@[simp] theorem State.setAgentQ_arrs (n : Nat) (q : AgentQ) : (s.setAgentQ n q).arrs = s.arrs := rfl
@[simp] theorem State.setAgentQ_conds (n : Nat) (q : AgentQ) : (s.setAgentQ n q).conds = s.conds := rfl
@[simp] theorem State.setAgentQ_shared (n : Nat) (q : AgentQ) : (s.setAgentQ n q).shared = s.shared := rfl
@[simp] theorem State.setAgentQ_mem (n : Nat) (q : AgentQ) : (s.setAgentQ n q).mem = s.mem := rfl
@[simp] theorem State.setAgentQ_cache (n : Nat) (q : AgentQ) : (s.setAgentQ n q).cache = s.cache := rfl
@[simp] theorem State.setAgentQ_mport (n : Nat) (q : AgentQ) : (s.setAgentQ n q).mport = s.mport := rfl
@[simp] theorem State.setAgentQ_ring (n : Nat) (q : AgentQ) : (s.setAgentQ n q).ring = s.ring := rfl
@[simp] theorem State.setAgentQ_faults (n : Nat) (q : AgentQ) : (s.setAgentQ n q).faults = s.faults := rfl
@[simp] theorem State.setAgentQ_letters (n : Nat) (q : AgentQ) : (s.setAgentQ n q).letters = s.letters := rfl
@[simp] theorem State.setAgentQ_resets (n : Nat) (q : AgentQ) : (s.setAgentQ n q).resets = s.resets := rfl
@[simp] theorem State.setAgentQ_segment (n : Nat) (q : AgentQ) : (s.setAgentQ n q).segment = s.segment := rfl

/-! `State.onAcc` writes `arrs`. -/
@[simp] theorem State.onAcc_pending (a : Nat) (f : Accs → Accs) : (s.onAcc a f).pending = s.pending := rfl
@[simp] theorem State.onAcc_freeCtr (a : Nat) (f : Accs → Accs) : (s.onAcc a f).freeCtr = s.freeCtr := rfl
@[simp] theorem State.onAcc_regs (a : Nat) (f : Accs → Accs) : (s.onAcc a f).regs = s.regs := rfl
@[simp] theorem State.onAcc_ctl (a : Nat) (f : Accs → Accs) : (s.onAcc a f).ctl = s.ctl := rfl
@[simp] theorem State.onAcc_fuses (a : Nat) (f : Accs → Accs) : (s.onAcc a f).fuses = s.fuses := rfl
@[simp] theorem State.onAcc_doms (a : Nat) (f : Accs → Accs) : (s.onAcc a f).doms = s.doms := rfl
@[simp] theorem State.onAcc_mon (a : Nat) (f : Accs → Accs) : (s.onAcc a f).mon = s.mon := rfl
@[simp] theorem State.onAcc_tb (a : Nat) (f : Accs → Accs) : (s.onAcc a f).tb = s.tb := rfl
@[simp] theorem State.onAcc_meter (a : Nat) (f : Accs → Accs) : (s.onAcc a f).meter = s.meter := rfl
@[simp] theorem State.onAcc_disp (a : Nat) (f : Accs → Accs) : (s.onAcc a f).disp = s.disp := rfl
@[simp] theorem State.onAcc_conds (a : Nat) (f : Accs → Accs) : (s.onAcc a f).conds = s.conds := rfl
@[simp] theorem State.onAcc_shared (a : Nat) (f : Accs → Accs) : (s.onAcc a f).shared = s.shared := rfl
@[simp] theorem State.onAcc_mem (a : Nat) (f : Accs → Accs) : (s.onAcc a f).mem = s.mem := rfl
@[simp] theorem State.onAcc_cache (a : Nat) (f : Accs → Accs) : (s.onAcc a f).cache = s.cache := rfl
@[simp] theorem State.onAcc_mport (a : Nat) (f : Accs → Accs) : (s.onAcc a f).mport = s.mport := rfl
@[simp] theorem State.onAcc_ring (a : Nat) (f : Accs → Accs) : (s.onAcc a f).ring = s.ring := rfl
@[simp] theorem State.onAcc_faults (a : Nat) (f : Accs → Accs) : (s.onAcc a f).faults = s.faults := rfl
@[simp] theorem State.onAcc_letters (a : Nat) (f : Accs → Accs) : (s.onAcc a f).letters = s.letters := rfl
@[simp] theorem State.onAcc_resets (a : Nat) (f : Accs → Accs) : (s.onAcc a f).resets = s.resets := rfl
@[simp] theorem State.onAcc_segment (a : Nat) (f : Accs → Accs) : (s.onAcc a f).segment = s.segment := rfl

/-! `State.onRegs` writes `arrs`. -/
@[simp] theorem State.onRegs_pending (a : Nat) (f : ProgRegs → ProgRegs) : (s.onRegs a f).pending = s.pending := rfl
@[simp] theorem State.onRegs_freeCtr (a : Nat) (f : ProgRegs → ProgRegs) : (s.onRegs a f).freeCtr = s.freeCtr := rfl
@[simp] theorem State.onRegs_regs (a : Nat) (f : ProgRegs → ProgRegs) : (s.onRegs a f).regs = s.regs := rfl
@[simp] theorem State.onRegs_ctl (a : Nat) (f : ProgRegs → ProgRegs) : (s.onRegs a f).ctl = s.ctl := rfl
@[simp] theorem State.onRegs_fuses (a : Nat) (f : ProgRegs → ProgRegs) : (s.onRegs a f).fuses = s.fuses := rfl
@[simp] theorem State.onRegs_doms (a : Nat) (f : ProgRegs → ProgRegs) : (s.onRegs a f).doms = s.doms := rfl
@[simp] theorem State.onRegs_mon (a : Nat) (f : ProgRegs → ProgRegs) : (s.onRegs a f).mon = s.mon := rfl
@[simp] theorem State.onRegs_tb (a : Nat) (f : ProgRegs → ProgRegs) : (s.onRegs a f).tb = s.tb := rfl
@[simp] theorem State.onRegs_meter (a : Nat) (f : ProgRegs → ProgRegs) : (s.onRegs a f).meter = s.meter := rfl
@[simp] theorem State.onRegs_disp (a : Nat) (f : ProgRegs → ProgRegs) : (s.onRegs a f).disp = s.disp := rfl
@[simp] theorem State.onRegs_conds (a : Nat) (f : ProgRegs → ProgRegs) : (s.onRegs a f).conds = s.conds := rfl
@[simp] theorem State.onRegs_shared (a : Nat) (f : ProgRegs → ProgRegs) : (s.onRegs a f).shared = s.shared := rfl
@[simp] theorem State.onRegs_mem (a : Nat) (f : ProgRegs → ProgRegs) : (s.onRegs a f).mem = s.mem := rfl
@[simp] theorem State.onRegs_cache (a : Nat) (f : ProgRegs → ProgRegs) : (s.onRegs a f).cache = s.cache := rfl
@[simp] theorem State.onRegs_mport (a : Nat) (f : ProgRegs → ProgRegs) : (s.onRegs a f).mport = s.mport := rfl
@[simp] theorem State.onRegs_ring (a : Nat) (f : ProgRegs → ProgRegs) : (s.onRegs a f).ring = s.ring := rfl
@[simp] theorem State.onRegs_faults (a : Nat) (f : ProgRegs → ProgRegs) : (s.onRegs a f).faults = s.faults := rfl
@[simp] theorem State.onRegs_letters (a : Nat) (f : ProgRegs → ProgRegs) : (s.onRegs a f).letters = s.letters := rfl
@[simp] theorem State.onRegs_resets (a : Nat) (f : ProgRegs → ProgRegs) : (s.onRegs a f).resets = s.resets := rfl
@[simp] theorem State.onRegs_segment (a : Nat) (f : ProgRegs → ProgRegs) : (s.onRegs a f).segment = s.segment := rfl

/-! `State.launch` writes `arrs`. -/
@[simp] theorem State.launch_pending (a : Nat) (f : Flight) : (s.launch a f).pending = s.pending := rfl
@[simp] theorem State.launch_freeCtr (a : Nat) (f : Flight) : (s.launch a f).freeCtr = s.freeCtr := rfl
@[simp] theorem State.launch_regs (a : Nat) (f : Flight) : (s.launch a f).regs = s.regs := rfl
@[simp] theorem State.launch_ctl (a : Nat) (f : Flight) : (s.launch a f).ctl = s.ctl := rfl
@[simp] theorem State.launch_fuses (a : Nat) (f : Flight) : (s.launch a f).fuses = s.fuses := rfl
@[simp] theorem State.launch_doms (a : Nat) (f : Flight) : (s.launch a f).doms = s.doms := rfl
@[simp] theorem State.launch_mon (a : Nat) (f : Flight) : (s.launch a f).mon = s.mon := rfl
@[simp] theorem State.launch_tb (a : Nat) (f : Flight) : (s.launch a f).tb = s.tb := rfl
@[simp] theorem State.launch_meter (a : Nat) (f : Flight) : (s.launch a f).meter = s.meter := rfl
@[simp] theorem State.launch_disp (a : Nat) (f : Flight) : (s.launch a f).disp = s.disp := rfl
@[simp] theorem State.launch_conds (a : Nat) (f : Flight) : (s.launch a f).conds = s.conds := rfl
@[simp] theorem State.launch_shared (a : Nat) (f : Flight) : (s.launch a f).shared = s.shared := rfl
@[simp] theorem State.launch_mem (a : Nat) (f : Flight) : (s.launch a f).mem = s.mem := rfl
@[simp] theorem State.launch_cache (a : Nat) (f : Flight) : (s.launch a f).cache = s.cache := rfl
@[simp] theorem State.launch_mport (a : Nat) (f : Flight) : (s.launch a f).mport = s.mport := rfl
@[simp] theorem State.launch_ring (a : Nat) (f : Flight) : (s.launch a f).ring = s.ring := rfl
@[simp] theorem State.launch_faults (a : Nat) (f : Flight) : (s.launch a f).faults = s.faults := rfl
@[simp] theorem State.launch_letters (a : Nat) (f : Flight) : (s.launch a f).letters = s.letters := rfl
@[simp] theorem State.launch_resets (a : Nat) (f : Flight) : (s.launch a f).resets = s.resets := rfl
@[simp] theorem State.launch_segment (a : Nat) (f : Flight) : (s.launch a f).segment = s.segment := rfl

/-! `State.touch` writes `arrs`. -/
@[simp] theorem State.touch_pending (a : Nat) (u : List Nat) : (s.touch a u).pending = s.pending := rfl
@[simp] theorem State.touch_freeCtr (a : Nat) (u : List Nat) : (s.touch a u).freeCtr = s.freeCtr := rfl
@[simp] theorem State.touch_regs (a : Nat) (u : List Nat) : (s.touch a u).regs = s.regs := rfl
@[simp] theorem State.touch_ctl (a : Nat) (u : List Nat) : (s.touch a u).ctl = s.ctl := rfl
@[simp] theorem State.touch_fuses (a : Nat) (u : List Nat) : (s.touch a u).fuses = s.fuses := rfl
@[simp] theorem State.touch_doms (a : Nat) (u : List Nat) : (s.touch a u).doms = s.doms := rfl
@[simp] theorem State.touch_mon (a : Nat) (u : List Nat) : (s.touch a u).mon = s.mon := rfl
@[simp] theorem State.touch_tb (a : Nat) (u : List Nat) : (s.touch a u).tb = s.tb := rfl
@[simp] theorem State.touch_meter (a : Nat) (u : List Nat) : (s.touch a u).meter = s.meter := rfl
@[simp] theorem State.touch_disp (a : Nat) (u : List Nat) : (s.touch a u).disp = s.disp := rfl
@[simp] theorem State.touch_conds (a : Nat) (u : List Nat) : (s.touch a u).conds = s.conds := rfl
@[simp] theorem State.touch_shared (a : Nat) (u : List Nat) : (s.touch a u).shared = s.shared := rfl
@[simp] theorem State.touch_mem (a : Nat) (u : List Nat) : (s.touch a u).mem = s.mem := rfl
@[simp] theorem State.touch_cache (a : Nat) (u : List Nat) : (s.touch a u).cache = s.cache := rfl
@[simp] theorem State.touch_mport (a : Nat) (u : List Nat) : (s.touch a u).mport = s.mport := rfl
@[simp] theorem State.touch_ring (a : Nat) (u : List Nat) : (s.touch a u).ring = s.ring := rfl
@[simp] theorem State.touch_faults (a : Nat) (u : List Nat) : (s.touch a u).faults = s.faults := rfl
@[simp] theorem State.touch_letters (a : Nat) (u : List Nat) : (s.touch a u).letters = s.letters := rfl
@[simp] theorem State.touch_resets (a : Nat) (u : List Nat) : (s.touch a u).resets = s.resets := rfl
@[simp] theorem State.touch_segment (a : Nat) (u : List Nat) : (s.touch a u).segment = s.segment := rfl

/-! `State.flow` writes `arrs`. -/
@[simp] theorem State.flow_pending (a : Nat) (f : Flow) : (s.flow a f).pending = s.pending := rfl
@[simp] theorem State.flow_freeCtr (a : Nat) (f : Flow) : (s.flow a f).freeCtr = s.freeCtr := rfl
@[simp] theorem State.flow_regs (a : Nat) (f : Flow) : (s.flow a f).regs = s.regs := rfl
@[simp] theorem State.flow_ctl (a : Nat) (f : Flow) : (s.flow a f).ctl = s.ctl := rfl
@[simp] theorem State.flow_fuses (a : Nat) (f : Flow) : (s.flow a f).fuses = s.fuses := rfl
@[simp] theorem State.flow_doms (a : Nat) (f : Flow) : (s.flow a f).doms = s.doms := rfl
@[simp] theorem State.flow_mon (a : Nat) (f : Flow) : (s.flow a f).mon = s.mon := rfl
@[simp] theorem State.flow_tb (a : Nat) (f : Flow) : (s.flow a f).tb = s.tb := rfl
@[simp] theorem State.flow_meter (a : Nat) (f : Flow) : (s.flow a f).meter = s.meter := rfl
@[simp] theorem State.flow_disp (a : Nat) (f : Flow) : (s.flow a f).disp = s.disp := rfl
@[simp] theorem State.flow_conds (a : Nat) (f : Flow) : (s.flow a f).conds = s.conds := rfl
@[simp] theorem State.flow_shared (a : Nat) (f : Flow) : (s.flow a f).shared = s.shared := rfl
@[simp] theorem State.flow_mem (a : Nat) (f : Flow) : (s.flow a f).mem = s.mem := rfl
@[simp] theorem State.flow_cache (a : Nat) (f : Flow) : (s.flow a f).cache = s.cache := rfl
@[simp] theorem State.flow_mport (a : Nat) (f : Flow) : (s.flow a f).mport = s.mport := rfl
@[simp] theorem State.flow_ring (a : Nat) (f : Flow) : (s.flow a f).ring = s.ring := rfl
@[simp] theorem State.flow_faults (a : Nat) (f : Flow) : (s.flow a f).faults = s.faults := rfl
@[simp] theorem State.flow_letters (a : Nat) (f : Flow) : (s.flow a f).letters = s.letters := rfl
@[simp] theorem State.flow_resets (a : Nat) (f : Flow) : (s.flow a f).resets = s.resets := rfl
@[simp] theorem State.flow_segment (a : Nat) (f : Flow) : (s.flow a f).segment = s.segment := rfl

/-! `State.stallOn` writes `arrs`. -/
@[simp] theorem State.stallOn_pending (a : Nat) (w : Stalled) : (s.stallOn a w).pending = s.pending := rfl
@[simp] theorem State.stallOn_freeCtr (a : Nat) (w : Stalled) : (s.stallOn a w).freeCtr = s.freeCtr := rfl
@[simp] theorem State.stallOn_regs (a : Nat) (w : Stalled) : (s.stallOn a w).regs = s.regs := rfl
@[simp] theorem State.stallOn_ctl (a : Nat) (w : Stalled) : (s.stallOn a w).ctl = s.ctl := rfl
@[simp] theorem State.stallOn_fuses (a : Nat) (w : Stalled) : (s.stallOn a w).fuses = s.fuses := rfl
@[simp] theorem State.stallOn_doms (a : Nat) (w : Stalled) : (s.stallOn a w).doms = s.doms := rfl
@[simp] theorem State.stallOn_mon (a : Nat) (w : Stalled) : (s.stallOn a w).mon = s.mon := rfl
@[simp] theorem State.stallOn_tb (a : Nat) (w : Stalled) : (s.stallOn a w).tb = s.tb := rfl
@[simp] theorem State.stallOn_meter (a : Nat) (w : Stalled) : (s.stallOn a w).meter = s.meter := rfl
@[simp] theorem State.stallOn_disp (a : Nat) (w : Stalled) : (s.stallOn a w).disp = s.disp := rfl
@[simp] theorem State.stallOn_conds (a : Nat) (w : Stalled) : (s.stallOn a w).conds = s.conds := rfl
@[simp] theorem State.stallOn_shared (a : Nat) (w : Stalled) : (s.stallOn a w).shared = s.shared := rfl
@[simp] theorem State.stallOn_mem (a : Nat) (w : Stalled) : (s.stallOn a w).mem = s.mem := rfl
@[simp] theorem State.stallOn_cache (a : Nat) (w : Stalled) : (s.stallOn a w).cache = s.cache := rfl
@[simp] theorem State.stallOn_mport (a : Nat) (w : Stalled) : (s.stallOn a w).mport = s.mport := rfl
@[simp] theorem State.stallOn_ring (a : Nat) (w : Stalled) : (s.stallOn a w).ring = s.ring := rfl
@[simp] theorem State.stallOn_faults (a : Nat) (w : Stalled) : (s.stallOn a w).faults = s.faults := rfl
@[simp] theorem State.stallOn_letters (a : Nat) (w : Stalled) : (s.stallOn a w).letters = s.letters := rfl
@[simp] theorem State.stallOn_resets (a : Nat) (w : Stalled) : (s.stallOn a w).resets = s.resets := rfl
@[simp] theorem State.stallOn_segment (a : Nat) (w : Stalled) : (s.stallOn a w).segment = s.segment := rfl

/-! ### Reads after writes -/

theorem State.arr_setArr (a b : Nat) (A : ArrayState) : (s.setArr a A).arr b = if b = a then A else s.arr b :=
  Tbl.get_set _ _ _ _ _
@[simp] theorem State.arr_setArr_same (a : Nat) (A : ArrayState) : (s.setArr a A).arr a = A := Tbl.get_set_same _ _ _ _
@[simp] theorem State.arr_onArr_same (a : Nat) (f : ArrayState → ArrayState) : (s.onArr a f).arr a = f (s.arr a) :=
  Tbl.get_set_same _ _ _ _
theorem State.arr_onArr_other {a b : Nat} (f : ArrayState → ArrayState) (h : b ≠ a) : (s.onArr a f).arr b = s.arr b :=
  Tbl.get_set_other _ _ _ h.symm
@[simp] theorem State.arr_launch (a : Nat) (f : Flight) : (s.launch a f).arr a = { s.arr a with flight := (s.arr a).flight ++ [f] } :=
  s.arr_onArr_same a _
@[simp] theorem State.dom_setDom (d : Nat) (x : Domain) : (s.setDom d x).dom d = x := Tbl.get_set_same _ _ _ _
@[simp] theorem State.cond_onCond (a : Nat) (f : ArrCond → ArrCond) : (s.onCond a f).cond a = f (s.cond a) :=
  Tbl.get_set_same _ _ _ _
@[simp] theorem State.queue_setQueue (q : Nat) (x : SubQueue) : (s.setQueue q x).queue q = x := Tbl.get_set_same _ _ _ _
@[simp] theorem State.bag_setBag (m : Nat) (x : Mailbag) : (s.setBag m x).bag m = x := Tbl.get_set_same _ _ _ _
@[simp] theorem State.lb_setLb (n : Nat) (v : Word) : (s.setLb n v).lb n = v := Tbl.get_set_same _ _ _ _
@[simp] theorem State.collection_setCollection (t : Nat) (c : Collection) : (s.setCollection t c).collection t = c :=
  Tbl.get_set_same _ _ _ _
@[simp] theorem State.subRec_setSubRec (i : Nat) (r : SubRec) : (s.setSubRec i r).subRec i = r := Tbl.get_set_same _ _ _ _
@[simp] theorem State.task_setTask (r : Nat) (t : Option Task) : (s.setTask r t).task r = t := Tbl.get_set_same _ _ _ _
@[simp] theorem State.routine_setRoutine (r : Nat) (x : Routine) : (s.setRoutine r x).routine r = x := Tbl.get_set_same _ _ _ _
@[simp] theorem State.port_setPort (p : Nat) (x : Port) : (s.setPort p x).port p = x := Tbl.get_set_same _ _ _ _
@[simp] theorem State.chan_setChan (c : Nat) (x : MemChan) : (s.setChan c x).chan c = x := Tbl.get_set_same _ _ _ _

/-! ### Registers of an array -/

theorem ArrayState.sreg_setS (A : ArrayState) (r n : Nat) (v : Word) :
    (A.setS r v).sreg n = if n = r ∧ r ≠ 0 then v else A.sreg n := by
  unfold ArrayState.sreg ArrayState.setS
  by_cases h : r = 0
  · simp [h]
  · by_cases hn : n = 0
    · simp [h, hn, Ne.symm h]
    · by_cases hr : n = r
      · simp [h, hr]
      · simp only [h, hn, hr, if_false, false_and]
        exact Tbl.get_set_other _ _ _ (Ne.symm hr)

/-- A vector register of 32 lanes that was written. -/
theorem ArrayState.vlane_setV (A : ArrayState) (r n i : Nat) (l : List Word) (hl : l.length = 32) (hi : i < 32) :
    (A.setV r l).vlane n i = if n = r then l.getD i 0 else A.vlane n i := by
  unfold ArrayState.vlane ArrayState.setV
  dsimp only
  rw [Tbl.get_setMany]
  by_cases h : n = r
  · subst h
    simp [hl, hi]
  · rw [if_neg h, if_neg]
    omega

@[simp] theorem ArrayState.eng_setEng (A : ArrayState) (e : Nat) (x : Engine) : (A.setEng e x).eng e = x :=
  Tbl.get_set_same _ _ _ _
@[simp] theorem ArrayState.ptr_onPtr (A : ArrayState) (n : Nat) (f : Pointer → Pointer) : (A.onPtr n f).ptr n = f (A.ptr n) :=
  Tbl.get_set_same _ _ _ _

/-! ### Register fields -/

/-- What a field of another storage key reads after a field is stored. -/
theorem Regs.get_set_other (r : Regs) {f g : FieldSpec} {i v j i' j' : Nat} (h : f.key i j ≠ g.key i' j') :
    (r.set f i v j).get g i' j' = r.get g i' j' := by
  unfold Regs.get Regs.set Tbl.set
  congr 1
  split
  · exact Tbl.get_erase_other _ _ h
  · exact Tbl.get_insert_other _ _ _ h
@[simp] theorem Regs.get_set_same (r : Regs) (f : FieldSpec) (i v j : Nat) : (r.set f i v j).get f i j = v % 2 ^ f.width := by
  unfold Regs.get Regs.set
  rw [Tbl.get_set_same, Nat.mod_mod]
/-- A field reads within its width. -/
theorem State.reg_lt (f : FieldSpec) (i j : Nat) : s.reg f i j < 2 ^ f.width := Nat.mod_lt _ (Nat.two_pow_pos _)
@[simp] theorem State.reg_setReg_same (f : FieldSpec) (i v j : Nat) : (s.setReg f i v j).reg f i j = v % 2 ^ f.width :=
  Regs.get_set_same _ _ _ _ _
theorem State.reg_setReg_other {f g : FieldSpec} {i v j i' j' : Nat} (h : f.key i j ≠ g.key i' j') :
    (s.setReg f i v j).reg g i' j' = s.reg g i' j' := Regs.get_set_other _ h
end
/-! ### Rows that use the memory port -/

theorem State.unask_free {s : State} {who : Nat} (h : ∀ e ∈ s.mport.chans, e.2.asked who = false) : s.unask who = s := by
  unfold State.unask
  rw [if_neg]
  rw [List.any_eq_true]
  rintro ⟨e, he, hx⟩
  rw [h e he] at hx
  cases hx

/-- Where nothing of a requester waits and every channel can send a request, its row is carried out. -/
theorem State.portRow_free {s : State} {who : Nat} (cls : Nat) (f : State → State) (h : ∀ e ∈ s.mport.chans, e.2.asked who = false)
    (hc : ∀ c, c < 16 → (s.chan c).full = false) : s.portRow who cls f = f s := by
  unfold State.portRow
  dsimp only
  rw [State.unask_free h, if_pos]
  rw [List.isEmpty_iff, List.filter_eq_nil_iff]
  intro c hm
  rw [hc c (List.mem_range.1 hm), Bool.and_false]
  exact Bool.false_ne_true

end Sys2Proof.Machine
end

