-- ==== Sys2Proof/Laws/Issue.lean ====
section
/-! SUPPORT. What raising events, logging hazards and issuing an operation of a bundle can do. -/
namespace Sys2Proof.Machine

/-! ### Events -/

/-- Event jobs change only event state and registers. -/
theorem State.runEvts_eq (n : Nat) (jobs : List EvtJob) (s : State) :
    ∃ r c, s.runEvts n jobs = { s with regs := r, ctl := c } := by
  induction n generalizing jobs s with
  | zero => exact ⟨s.regs, s.ctl, rfl⟩
  | succ n ih =>
    match jobs with
    | [] => exact ⟨s.regs, s.ctl, rfl⟩
    | .set p c b :: l =>
      have hset : ∃ k, (s.setEvtBits p c b).1 = { s with ctl := k } := by
        unfold State.setEvtBits
        dsimp only
        split <;> exact ⟨_, rfl⟩
      obtain ⟨k, hk⟩ := hset
      obtain ⟨r, c', h⟩ := ih ((s.setEvtBits p c b).2 ++ l) (s.setEvtBits p c b).1
      refine ⟨r, c', ?_⟩
      show ((s.setEvtBits p c b).1).runEvts n _ = _
      rw [h, hk]
    | .send m x :: l =>
      simp only [State.runEvts]
      split
      · obtain ⟨r, c, h⟩ := ih l (s.setAgentQ m { s.agentQ m with msgs := (s.agentQ m).msgs ++ [x] })
        exact ⟨r, c, by rw [h]; rfl⟩
      · obtain ⟨r, c, h⟩ := ih (.set pgBLK ctxBlock 2#32 :: l)
          ((s.setAgentQ m { s.agentQ m with lost := min ((s.agentQ m).lost + 1) 0xFFFF }).bump Reg.BLK_EVT_LOST_CNT)
        exact ⟨r, c, by rw [h]; rfl⟩
    | .drop :: l =>
      obtain ⟨r, c, h⟩ := ih (.set pgBLK ctxBlock 8#32 :: l) (s.bump Reg.BLK_ROUTE_DROP_CNT)
      exact ⟨r, c, by simp only [State.runEvts]; rw [h]; rfl⟩

/-- Raising event bits changes only event state and registers. -/
theorem State.raiseBits_eq (s : State) (page : Nat) (b : Word) (t : Option Nat) :
    ∃ r c, s.raiseBits page b t = { s with regs := r, ctl := c } := by
  unfold State.raiseBits
  cases t with
  | none => exact State.runEvts_eq _ _ _
  | some t =>
    obtain ⟨r, c, h⟩ := State.runEvts_eq evtFuel [.set page t b] s
    obtain ⟨r', c', h'⟩ := State.runEvts_eq evtFuel [.set page ctxBlock b] { s with regs := r, ctl := c }
    exact ⟨r', c', by dsimp only; rw [h, h']⟩

/-- Raising an event changes only event state and registers. -/
theorem State.raise_eq (s : State) (page bit : Nat) (t : Option Nat) :
    ∃ r c, s.raise page bit t = { s with regs := r, ctl := c } := s.raiseBits_eq _ _ _

/-- The same of a per-array event. -/
theorem State.raiseArr_eq (s : State) (p : ArrPage) (bit a : Nat) :
    ∃ r c, s.raiseArr p bit a = { s with regs := r, ctl := c } := by
  unfold State.raiseArr
  dsimp only
  obtain ⟨r, c, h⟩ := (s.setReg (p.field a) (groupOf a) (setBit (s.reg (p.field a) (groupOf a)) (a % 32))).raise_eq
    (p.page (groupOf a)) bit (s.tenOfArr a)
  exact ⟨r, c, by rw [h]; rfl⟩

/-! ### The audit log (R43) -/

/-- Logging hazards changes one array's audit log, event state and registers, and nothing else. -/
theorem State.auditAll_eq (s : State) (a k : Nat) (held : Bool) (l : List Hazard) :
    ∃ r c x, s.auditAll a k held l = { s with regs := r, ctl := c, arrs := x } ∧
      (∀ b, b ≠ a → (s.auditAll a k held l).arr b = s.arr b) ∧
      ∃ log lost, (s.auditAll a k held l).arr a = { s.arr a with audit := log, auditLost := lost } := by
  unfold State.auditAll
  induction l generalizing s with
  | nil => exact ⟨s.regs, s.ctl, s.arrs, rfl, fun _ _ => rfl, (s.arr a).audit, (s.arr a).auditLost, rfl⟩
  | cons h l ih =>
    have one : ∃ r c x, s.auditOne a k held h = { s with regs := r, ctl := c, arrs := x } ∧
        (∀ b, b ≠ a → (s.auditOne a k held h).arr b = s.arr b) ∧
        ∃ log lost, (s.auditOne a k held h).arr a = { s.arr a with audit := log, auditLost := lost } := by
      unfold State.auditOne
      dsimp only
      split
      · exact ⟨s.regs, s.ctl, s.arrs, rfl, fun _ _ => rfl, (s.arr a).audit, (s.arr a).auditLost, rfl⟩
      · split
        · exact ⟨s.regs, s.ctl, _, rfl, fun b hb => s.arr_onArr_other _ hb, (s.arr a).audit, _, s.arr_onArr_same a _⟩
        · generalize hu : s.onArr a _ = u
          have hu1 : ∃ x, u = { s with arrs := x } := ⟨_, by rw [← hu]; rfl⟩
          obtain ⟨x, hx⟩ := hu1
          have hu2 : ∀ b, b ≠ a → u.arr b = s.arr b := fun b hb => by rw [← hu]; exact s.arr_onArr_other _ hb
          have hu3 : ∃ log lost, u.arr a = { s.arr a with audit := log, auditLost := lost } :=
            ⟨_, (s.arr a).auditLost, by rw [← hu]; exact s.arr_onArr_same a _⟩
          have step : ∀ (v : State) (q : Prop) [Decidable q] (bit : Nat),
              ∃ r c, (if q then v.raiseArr .time bit a else v) = { v with regs := r, ctl := c } := by
            intro v q _ bit
            split
            · exact v.raiseArr_eq _ _ _
            · exact ⟨v.regs, v.ctl, rfl⟩
          obtain ⟨r1, c1, h1⟩ := step u ((s.arr a).audit.isEmpty = true) 3
          obtain ⟨r2, c2, h2⟩ := step (if (s.arr a).audit.isEmpty = true then u.raiseArr .time 3 a else u)
            ((s.arr a).audit.length + 1 = auditDepth) 2
          rw [h1] at h2
          rw [h1, h2, hx]
          refine ⟨r2, c2, x, rfl, fun b hb => ?_, ?_⟩
          · exact (by rw [hx] at hu2; exact hu2 b hb)
          · rw [hx] at hu3; exact hu3
    obtain ⟨r1, c1, x1, e1, o1, log1, lost1, a1⟩ := one
    obtain ⟨r2, c2, x2, e2, o2, log2, lost2, a2⟩ := ih (s.auditOne a k held h)
    rw [List.foldl_cons]
    refine ⟨r2, c2, x2, ?_, fun b hb => (o2 b hb).trans (o1 b hb), log2, lost2, ?_⟩
    · rw [e2]; generalize s.auditOne a k held h = u at e1 ⊢; rw [e1]
    · rw [a2, a1]

/-! ### The predicate field of a slot word -/

/-- The low four bits of a slot word are its predicate field. -/
theorem predOf_append (x : BitVec 28) (p : Pred) : predOf (x ++ predBits p) = p := by
  obtain ⟨pen, cmp, neg⟩ := p
  have h : ∀ n, n < 4 → (x ++ predBits ⟨pen, cmp, neg⟩).getLsbD n = (predBits ⟨pen, cmp, neg⟩).getLsbD n := by
    intro n hn
    rw [BitVec.getLsbD_append, if_pos (by simpa using hn)]
  unfold predOf flag fld
  simp only [Pred.mk.injEq]
  refine ⟨?_, ?_, ?_⟩
  · rw [h 0 (by decide)]; clear h; revert pen cmp neg; decide
  · refine BitVec.eq_of_getLsbD_eq (fun n hn => ?_)
    rw [BitVec.getLsbD_extractLsb', h (1 + n) (by omega)]
    clear h; revert pen cmp neg n; decide
  · rw [h 3 (by decide)]; clear h; revert pen cmp neg; decide

/-! ### Issue -/

/-- The word that the logs show for an operation of a part. -/
def logWord (k : Part) (w : BitVec 32) : Nat := if k = 7 then 2 ^ 32 * w.toNat else w.toNat

/-- A part of an array's present bundle counts as issued. -/
def ArrayState.marked (A : ArrayState) (k : Part) : ArrayState :=
  { A with seq := { A.seq with issued := A.seq.issued ++ [k] } }

/-- An operation issues: not twice in a beat, only in a beat that may issue, and not while hold mode keeps it back. -/
theorem State.issueRow_eq (s : State) (a : Nat) (i : Instr) {k : Part} {w : BitVec 32} (hw : slotWord i = some (k, w))
    (may : (s.landEarly a).canIssue a = true) (first : ((s.landEarly a).arr a).seq.issued.contains k = false)
    (free : (((s.landEarly a).arr a).modes.hold && mustHold ((s.landEarly a).hazards a (logWord k w) (predOf w) i)) = false) :
    s.issueRow a i = ((s.landEarly a).issueAudited a k (logWord k w) (predOf w) i).onArr a (·.marked k) := by
  unfold State.issueRow
  rw [hw]
  dsimp only
  unfold logWord at free ⊢
  rw [may, first]
  simp only [Bool.not_true, Bool.or_self, Bool.false_eq_true, if_false, free]
  rfl

end Sys2Proof.Machine
end

