-- ==== Sys2Proof/Laws/Events.lean ====
section
/-! SUPPORT. What raising an event leaves of the registers, and what it sets. -/
namespace Sys2Proof.Machine

/-- Storing a field leaves every field of another number as it was. -/
theorem Regs.get_set_id (r : Regs) {f g : FieldSpec} (h : f.id ≠ g.id) {i j i' j' : Nat} (v : Nat)
    (hi : i < 2 ^ 32) (hj : j < 256) (hi' : i' < 2 ^ 32) (hj' : j' < 256) : (r.set g i' v j').get f i j = r.get f i j := by
  exact Regs.get_set_other _ (by unfold FieldSpec.key; omega)

/-- Event jobs leave every field but the two counters of lost and dropped messages. -/
theorem State.runEvts_reg (n : Nat) (jobs : List EvtJob) (s : State) (f : FieldSpec) (i j : Nat) (hi : i < 2 ^ 32) (hj : j < 256)
    (h1 : f.id ≠ Reg.BLK_EVT_LOST_CNT.id) (h2 : f.id ≠ Reg.BLK_ROUTE_DROP_CNT.id) :
    (s.runEvts n jobs).reg f i j = s.reg f i j := by
  induction n generalizing jobs s with
  | zero => rfl
  | succ n ih =>
    match jobs with
    | [] => rfl
    | .set p c b :: l =>
      show ((s.setEvtBits p c b).1.runEvts n _).reg f i j = _
      rw [ih]
      unfold State.setEvtBits
      dsimp only
      split <;> rfl
    | .send m x :: l =>
      simp only [State.runEvts]
      split
      · rw [ih]; rfl
      · rw [ih]; exact Regs.get_set_id _ h1 _ hi hj (by decide) (by decide)
    | .drop :: l =>
      simp only [State.runEvts]
      rw [ih]; exact Regs.get_set_id _ h2 _ hi hj (by decide) (by decide)

/-- Raising events of a page leaves every field but the two counters of lost and dropped messages. -/
theorem State.raiseBits_reg (s : State) (page : Nat) (b : Word) (t : Option Nat) (f : FieldSpec) (i j : Nat) (hi : i < 2 ^ 32)
    (hj : j < 256) (h1 : f.id ≠ Reg.BLK_EVT_LOST_CNT.id) (h2 : f.id ≠ Reg.BLK_ROUTE_DROP_CNT.id) :
    (s.raiseBits page b t).reg f i j = s.reg f i j := by
  unfold State.raiseBits
  rw [State.runEvts_reg _ _ _ _ _ _ hi hj h1 h2]
  cases t with
  | none => rfl
  | some t => exact State.runEvts_reg _ _ _ _ _ _ hi hj h1 h2

/-- Raising an event leaves every field but the two counters of lost and dropped messages. -/
theorem State.raise_reg (s : State) (page bit : Nat) (t : Option Nat) (f : FieldSpec) (i j : Nat) (hi : i < 2 ^ 32) (hj : j < 256)
    (h1 : f.id ≠ Reg.BLK_EVT_LOST_CNT.id) (h2 : f.id ≠ Reg.BLK_ROUTE_DROP_CNT.id) :
    (s.raise page bit t).reg f i j = s.reg f i j := s.raiseBits_reg _ _ _ _ _ _ hi hj h1 h2

/-- Raw bit `i` of context `c` of a page is set. -/
def State.rawBit (s : State) (page c i : Nat) : Bool := (s.ctx page c).raw.getLsbD i

theorem State.rawBit_setEvtBits (s : State) (p k : Nat) (b : Word) (page c i : Nat) :
    (s.setEvtBits p k b).1.rawBit page c i = (s.rawBit page c i || (decide (p * 17 + k = page * 17 + c) && b.getLsbD i)) := by
  have e : (s.setEvtBits p k b).1 = s.setCtx p k { s.ctx p k with raw := (s.ctx p k).raw ||| b } := by
    unfold State.setEvtBits
    dsimp only
    split <;> rfl
  rw [e]
  show (Tbl.get ({} : EvtCtx) (Tbl.set {} s.ctl.ctx (p * 17 + k) _) (page * 17 + c)).raw.getLsbD i = _
  rw [Tbl.get_set]
  by_cases h : page * 17 + c = p * 17 + k
  · rw [if_pos h, decide_eq_true h.symm]
    simp [State.rawBit, State.ctx, h]
  · rw [if_neg h, decide_eq_false (fun x => h x.symm)]
    simp [State.rawBit, State.ctx]

/-- Event jobs clear no raw bit. -/
theorem State.runEvts_raw (n : Nat) (jobs : List EvtJob) (s : State) (page c i : Nat) (h : s.rawBit page c i = true) :
    (s.runEvts n jobs).rawBit page c i = true := by
  induction n generalizing jobs s with
  | zero => exact h
  | succ n ih =>
    match jobs with
    | [] => exact h
    | .set p k b :: l => exact ih _ _ (by rw [State.rawBit_setEvtBits, h]; rfl)
    | .send m x :: l =>
      simp only [State.runEvts]
      split
      · exact ih _ _ h
      · exact ih _ _ h
    | .drop :: l =>
      simp only [State.runEvts]
      exact ih _ _ h

/-- Raising an event clears no raw bit. -/
theorem State.raise_keeps_raw (s : State) (p b : Nat) (t : Option Nat) (page c i : Nat) (h : s.rawBit page c i = true) :
    (s.raise p b t).rawBit page c i = true := by
  unfold State.raise State.raiseBits
  cases t with
  | none => exact State.runEvts_raw _ _ _ _ _ _ h
  | some t => exact State.runEvts_raw _ _ _ _ _ _ (State.runEvts_raw _ _ _ _ _ _ h)

/-- Raising an event sets its raw bit in the block context. -/
theorem State.raise_raw (s : State) (page bit : Nat) (t : Option Nat) (hb : bit < 32) :
    (s.raise page bit t).rawBit page ctxBlock bit = true := by
  unfold State.raise State.raiseBits
  exact State.runEvts_raw 127 _ _ _ _ _ (by
    rw [State.rawBit_setEvtBits, BitVec.getLsbD_ofNat, Nat.testBit_two_pow_self, decide_eq_true hb]; simp)

end Sys2Proof.Machine
end

