-- ==== Sys2Proof/Laws/Keeps.lean ====
section
/-! SUPPORT. What every operation of the model keeps: the queue, the fuses and the canonical form of each byte store. -/
namespace Sys2Proof.Machine

/-- What every operation of the model keeps: the queue and the fuses stay, the draws of free values only go on, and each byte
store that is in canonical form stays so. -/
structure Keeps (s t : State) : Prop where
  queue : t.pending = s.pending
  fuses : t.fuses = s.fuses
  free : s.freeCtr ≤ t.freeCtr
  mem : Memory.wf s.mem = true → Memory.wf t.mem = true
  shared : Memory.wf s.shared = true → Memory.wf t.shared = true
  store : (∀ e ∈ s.arrs, Memory.wf e.2.store = true) → ∀ e ∈ t.arrs, Memory.wf e.2.store = true

theorem Keeps.refl (s : State) : Keeps s s := ⟨rfl, rfl, Nat.le_refl _, id, id, id⟩

theorem Keeps.trans {s t u : State} (h : Keeps s t) (g : Keeps t u) : Keeps s u :=
  ⟨g.queue.trans h.queue, g.fuses.trans h.fuses, Nat.le_trans h.free g.free, g.mem ∘ h.mem, g.shared ∘ h.shared,
    g.store ∘ h.store⟩

section
variable {s0 s : State}

/-- A change that touches none of the fields that `Keeps` speaks of. -/
theorem Keeps.other {t : State} (h : Keeps s0 s) (hq : t.pending = s.pending := by rfl) (hf : t.fuses = s.fuses := by rfl)
    (hc : t.freeCtr = s.freeCtr := by rfl) (hm : t.mem = s.mem := by rfl) (hs : t.shared = s.shared := by rfl)
    (ha : t.arrs = s.arrs := by rfl) : Keeps s0 t :=
  h.trans ⟨hq, hf, by omega, by simp [hm], by simp [hs], by simp [ha]⟩

/-- The same for a record update, whose base is read off the goal. -/
theorem Keeps.update {regs : Regs} {ctl : CtlPort} {doms : Tbl Domain} {mon : Monitors} {tb : TimeBase} {meter : Meter}
    {disp : Dispatcher} {conds : Tbl ArrCond} {cache : CacheUnit} {mport : MPort} {ring : Tbl Port} {faults : Tbl FaultPart}
    {letters : Tbl DeadPart} {resets : Resets} {segment : Debug} (h : Keeps s0 s) :
    Keeps s0 ⟨s.pending, s.freeCtr, regs, ctl, s.fuses, doms, mon, tb, meter, disp, s.arrs, conds, s.shared, s.mem, cache,
      mport, ring, faults, letters, resets, segment⟩ := h.other

/-- A record update that also gives memory a new content in canonical form. -/
theorem Keeps.withMem {regs : Regs} {ctl : CtlPort} {doms : Tbl Domain} {mon : Monitors} {tb : TimeBase} {meter : Meter}
    {disp : Dispatcher} {conds : Tbl ArrCond} {cache : CacheUnit} {mport : MPort} {ring : Tbl Port} {faults : Tbl FaultPart}
    {letters : Tbl DeadPart} {resets : Resets} {segment : Debug} {m : Memory}
    (hm : Memory.wf s.mem = true → Memory.wf m = true) (h : Keeps s0 s) :
    Keeps s0 ⟨s.pending, s.freeCtr, regs, ctl, s.fuses, doms, mon, tb, meter, disp, s.arrs, conds, s.shared, m, cache,
      mport, ring, faults, letters, resets, segment⟩ :=
  h.trans ⟨rfl, rfl, Nat.le_refl _, hm, id, id⟩

theorem Keeps.setArr (h : Keeps s0 s) (a : Nat) (A : ArrayState)
    (hA : Memory.wf (s.arr a).store = true → Memory.wf A.store = true) : Keeps s0 (s.setArr a A) :=
  h.trans ⟨rfl, rfl, Nat.le_refl _, id, id, fun hs e he => by
    rcases Tbl.mem_set he with rfl | he
    · exact hA (Tbl.get_all (P := fun B : ArrayState => Memory.wf B.store = true) rfl hs)
    · exact hs e he⟩

/-- Every array changes by an operation that keeps the form of its store, and entries may be dropped. -/
theorem Keeps.mapArrs (h : Keeps s0 s) (f : Nat × ArrayState → ArrayState) (p : Nat × ArrayState → Bool)
    (hf : ∀ e, Memory.wf e.2.store = true → Memory.wf (f e).store = true) :
    Keeps s0 { s with arrs := (s.arrs.map (fun e => (e.1, f e))).filter p } :=
  h.trans ⟨rfl, rfl, Nat.le_refl _, id, id, fun hs e he => by
    dsimp only at he
    obtain ⟨x, hx, rfl⟩ := List.mem_map.1 (List.mem_filter.1 he).1
    exact hf x (hs x hx)⟩

theorem Keeps.onArr (h : Keeps s0 s) (a : Nat) (f : ArrayState → ArrayState)
    (hf : ∀ A, Memory.wf A.store = true → Memory.wf (f A).store = true) : Keeps s0 (s.onArr a f) :=
  h.setArr a _ (hf _)

theorem Keeps.drew (h : Keeps s0 s) (n : Nat) : Keeps s0 (s.drew n) :=
  h.trans ⟨rfl, rfl, Nat.le_add_right _ _, id, id, id⟩

theorem Keeps.foldl {β : Type} {f : State → β → State} (h : Keeps s0 s) (l : List β)
    (hf : ∀ t x, Keeps s0 t → Keeps s0 (f t x)) : Keeps s0 (l.foldl f s) := by
  induction l generalizing s with
  | nil => exact h
  | cons x r ih => exact ih (hf s x h)

theorem Keeps.ite {c : Prop} [Decidable c] {t u : State} (ht : c → Keeps s0 t) (hu : ¬ c → Keeps s0 u) :
    Keeps s0 (if c then t else u) := by
  split
  · exact ht ‹_›
  · exact hu ‹_›

theorem Keeps.ite2 {α : Type} {c : Prop} [Decidable c] {t u : α × State} (ht : c → Keeps s0 t.2) (hu : ¬ c → Keeps s0 u.2) :
    Keeps s0 (if c then t else u).2 := by
  split
  · exact ht ‹_›
  · exact hu ‹_›

theorem Keeps.ite3 {α β : Type} {c : Prop} [Decidable c] {t u : α × β × State} (ht : c → Keeps s0 t.2.2)
    (hu : ¬ c → Keeps s0 u.2.2) : Keeps s0 (if c then t else u).2.2 := by
  split
  · exact ht ‹_›
  · exact hu ‹_›

theorem Keeps.ite1 {α : Type} {c : Prop} [Decidable c] {t u : State × α} (ht : c → Keeps s0 t.1) (hu : ¬ c → Keeps s0 u.1) :
    Keeps s0 (if c then t else u).1 := by
  split
  · exact ht ‹_›
  · exact hu ‹_›
end
end Sys2Proof.Machine
end

