-- ==== Sys2Proof/Laws/KeepsOps.lean ====
section
/-! SUPPORT. What every operation keeps (Keeps): the named operations. -/
set_option Elab.async false
namespace Sys2Proof.Machine
section
variable {s0 s : State}
theorem Keeps.setReg (h : Keeps s0 s) (x1 : FieldSpec) (x2 : Nat) (x3 : Nat) (x4 : Nat) : Keeps s0 (@State.setReg s x1 x2 x3 x4) := h.other

theorem Keeps.bump (h : Keeps s0 s) (x1 : FieldSpec) (x2 : Nat) (x3 : Nat) : Keeps s0 (@State.bump s x1 x2 x3) := h.other

theorem Keeps.bumpWrap (h : Keeps s0 s) (x1 : FieldSpec) (x2 : Nat) : Keeps s0 (@State.bumpWrap s x1 x2) := h.other

theorem Keeps.onCond (h : Keeps s0 s) (x1 : Nat) (x2 : (ArrCond → ArrCond)) : Keeps s0 (@State.onCond s x1 x2) := h.other

theorem Keeps.setDom (h : Keeps s0 s) (x1 : Nat) (x2 : Domain) : Keeps s0 (@State.setDom s x1 x2) := h.other

theorem Keeps.onDisp (h : Keeps s0 s) (x1 : (Dispatcher → Dispatcher)) : Keeps s0 (@State.onDisp s x1) := h.other

theorem Keeps.setQueue (h : Keeps s0 s) (x1 : Nat) (x2 : SubQueue) : Keeps s0 (@State.setQueue s x1 x2) := h.other

theorem Keeps.setBag (h : Keeps s0 s) (x1 : Nat) (x2 : Mailbag) : Keeps s0 (@State.setBag s x1 x2) := h.other

theorem Keeps.setLb (h : Keeps s0 s) (x1 : Nat) (x2 : Word) : Keeps s0 (@State.setLb s x1 x2) := h.other

theorem Keeps.setCollection (h : Keeps s0 s) (x1 : Nat) (x2 : Collection) : Keeps s0 (@State.setCollection s x1 x2) := h.other

theorem Keeps.setSubRec (h : Keeps s0 s) (x1 : Nat) (x2 : SubRec) : Keeps s0 (@State.setSubRec s x1 x2) := h.other

theorem Keeps.setTask (h : Keeps s0 s) (x1 : Nat) (x2 : Option Task) : Keeps s0 (@State.setTask s x1 x2) := h.other

theorem Keeps.onTask (h : Keeps s0 s) (x1 : Nat) (x2 : (Task → Task)) : Keeps s0 (@State.onTask s x1 x2) := h.other

theorem Keeps.onCmd (h : Keeps s0 s) (x1 : Nat) (x2 : (Cmd → Cmd)) : Keeps s0 (@State.onCmd s x1 x2) := h.other

theorem Keeps.setRoutine (h : Keeps s0 s) (x1 : Nat) (x2 : Routine) : Keeps s0 (@State.setRoutine s x1 x2) := h.other

theorem Keeps.setPort (h : Keeps s0 s) (x1 : Nat) (x2 : Port) : Keeps s0 (@State.setPort s x1 x2) := h.other

theorem Keeps.onPort (h : Keeps s0 s) (x1 : Nat) (x2 : (Port → Port)) : Keeps s0 (@State.onPort s x1 x2) := h.other

theorem Keeps.setChan (h : Keeps s0 s) (x1 : Nat) (x2 : MemChan) : Keeps s0 (@State.setChan s x1 x2) := h.other

theorem Keeps.onAcct (h : Keeps s0 s) (x1 : Nat) (x2 : (Account → Account)) : Keeps s0 (@State.onAcct s x1 x2) := h.other

theorem Keeps.setCtx (h : Keeps s0 s) (x1 : Nat) (x2 : Nat) (x3 : EvtCtx) : Keeps s0 (@State.setCtx s x1 x2 x3) := h.other

theorem Keeps.setAgentQ (h : Keeps s0 s) (x1 : Nat) (x2 : AgentQ) : Keeps s0 (@State.setAgentQ s x1 x2) := h.other

theorem Keeps.setEvtBits (h : Keeps s0 s) (x1 : Nat) (x2 : Nat) (x3 : Word) : Keeps s0 (@State.setEvtBits s x1 x2 x3).1 := by
  grind [State.setEvtBits, Keeps.setCtx]

theorem Keeps.runEvts (n : Nat) (jobs : List EvtJob) (h : Keeps s0 s) : Keeps s0 (s.runEvts n jobs) := by
  induction n generalizing jobs s with
  | zero => exact h
  | succ n ih =>
    match jobs with
    | [] => exact h
    | .set p c b :: r => exact ih _ (h.setEvtBits p c b)
    | .send m x :: r =>
      simp only [State.runEvts]; split
      · exact ih _ (h.setAgentQ _ _)
      · exact ih _ ((h.setAgentQ _ _).bump _ _ _)
    | .drop :: r => exact ih _ (h.bump _ _ _)

theorem Keeps.raiseBits (h : Keeps s0 s) (x1 : Nat) (x2 : Word) (x3 : Option Nat) : Keeps s0 (@State.raiseBits s x1 x2 x3) := by
  unfold State.raiseBits
  cases x3 with
  | none => exact Keeps.runEvts _ _ h
  | some t => exact Keeps.runEvts _ _ (Keeps.runEvts _ _ h)

theorem Keeps.raise (h : Keeps s0 s) (x1 : Nat) (x2 : Nat) (x3 : Option Nat) : Keeps s0 (@State.raise s x1 x2 x3) :=
  h.raiseBits _ _ _

theorem Keeps.sendMsg (h : Keeps s0 s) (x1 : Nat) (x2 : EvtMsg) : Keeps s0 (@State.sendMsg s x1 x2) := by
  grind [State.sendMsg, Keeps.runEvts]

theorem Keeps.dropMsg (h : Keeps s0 s) : Keeps s0 (@State.dropMsg s) := by
  grind [State.dropMsg, Keeps.runEvts]

theorem Keeps.violate (h : Keeps s0 s) (x1 : Nat) (x2 : Nat) (x3 : Nat) : Keeps s0 (@State.violate s x1 x2 x3) := by
  grind [State.violate, Keeps.setReg, Keeps.bump, Keeps.raise]

theorem Keeps.accrue (h : Keeps s0 s) (x1 : Nat) (x2 : Nat) (x3 : Nat) : Keeps s0 (@State.accrue s x1 x2 x3) := h.other

theorem Keeps.chargeMem (h : Keeps s0 s) (x1 : Nat) (x2 : Nat) : Keeps s0 (@State.chargeMem s x1 x2) := h.other

theorem Keeps.chargeRing (h : Keeps s0 s) (x1 : Nat) (x2 : Nat) (x3 : Nat) : Keeps s0 (@State.chargeRing s x1 x2 x3) := h.other

theorem Keeps.chargeBeats (h : Keeps s0 s) (x1 : Nat) (x2 : Nat) (x3 : Nat) : Keeps s0 (@State.chargeBeats s x1 x2 x3) := h.other

theorem Keeps.chargeFrozen (h : Keeps s0 s) (x1 : Nat) (x2 : Nat) (x3 : Nat) : Keeps s0 (@State.chargeFrozen s x1 x2 x3) := h.other

theorem Keeps.chargeCommand (h : Keeps s0 s) (x1 : Nat) : Keeps s0 (@State.chargeCommand s x1) := h.other

theorem Keeps.chargeShared (h : Keeps s0 s) (x1 : Nat) (x2 : Nat) (x3 : Nat) : Keeps s0 (@State.chargeShared s x1 x2 x3) := h.other

theorem Keeps.bump64 (h : Keeps s0 s) (x1 : FieldSpec) (x2 : FieldSpec) (x3 : Nat) (x4 : Nat) : Keeps s0 (@State.bump64 s x1 x2 x3 x4) := h.other

theorem Keeps.spend (h : Keeps s0 s) (c : Nat) : Keeps s0 (s.spend c) := h.other

theorem Keeps.chargeRead (h : Keeps s0 s) (t a n : Nat) : Keeps s0 (s.chargeRead t a n) :=
  h.foldl _ (fun _ _ hu => ((hu.spend _).bump64 _ _ _ _).chargeMem _ _)

theorem Keeps.chargeWrite (h : Keeps s0 s) (t a n : Nat) : Keeps s0 (s.chargeWrite t a n) :=
  h.foldl _ (fun _ _ hu => ((hu.spend _).bump64 _ _ _ _).chargeMem _ _)

theorem Keeps.putBytes (h : Keeps s0 s) (a : Nat) (bs : List Byte) : Keeps s0 { s with mem := s.mem.putBytes a bs } :=
  h.trans ⟨rfl, rfl, Nat.le_refl _, Memory.wf_putBytes a bs, id, id⟩

theorem Keeps.noteWritten (h : Keeps s0 s) (a n : Nat) : Keeps s0 (s.noteWritten a n) := h.other

theorem Keeps.writeMem (h : Keeps s0 s) (t a : Nat) (bs : List Byte) : Keeps s0 (s.writeMem t a bs) :=
  ((h.putBytes a bs).noteWritten a _).chargeWrite t a _

theorem Keeps.clearMem (h : Keeps s0 s) (t a n : Nat) : Keeps s0 (s.clearMem t a n) :=
  ((h.trans ⟨rfl, rfl, Nat.le_refl _, Memory.wf_zeroRange _ _, id, id⟩ :
    Keeps s0 { s with mem := s.mem.zeroRange a (a + n) }).noteWritten a _).chargeWrite t a _

theorem Keeps.pumpChan (n c : Nat) (h : Keeps s0 s) : Keeps s0 (s.pumpChan n c) := by
  induction n generalizing s with
  | zero => exact h
  | succ n ih =>
    unfold State.pumpChan
    dsimp only; split
    · exact h
    · split
      · exact ih ((h.setChan _ _).chargeMem _ _)
      · exact h

theorem Keeps.submitTxn (h : Keeps s0 s) (x1 : Txn) : Keeps s0 (@State.submitTxn s x1) := (h.setChan _ _).pumpChan _ _

theorem Keeps.unask (h : Keeps s0 s) (who : Nat) : Keeps s0 (s.unask who) := .ite (fun _ => h.update) (fun _ => h)

/-- A row's transactions keep what the row keeps, whether or not it is carried out. -/
theorem Keeps.portRow (h : Keeps s0 s) (who cls : Nat) {f : State → State} (hf : ∀ t, Keeps s0 t → Keeps s0 (f t)) :
    Keeps s0 (s.portRow who cls f) :=
  .ite (fun _ => hf _ (h.unask who)) (fun _ => h.foldl _ (fun _ _ hu => hu.setChan _ _))

theorem Keeps.postWrite (h : Keeps s0 s) (t a : Nat) (bs : List Byte) : Keeps s0 (s.postWrite t a bs) :=
  ((h.putBytes a bs).noteWritten a _).foldl _ (fun _ _ hu => hu.submitTxn _)

theorem Keeps.lbLatch (h : Keeps s0 s) (n : Nat) : Keeps s0 (s.lbLatch n) :=
  h.trans ⟨rfl, rfl, Nat.le_refl _, id, id, fun hs e he => by
    obtain ⟨x, hx, rfl⟩ := List.mem_map.1 he
    have := hs x hx
    dsimp only
    split <;> exact this⟩

theorem Keeps.putLb (h : Keeps s0 s) (n : Nat) (v : Word) : Keeps s0 (s.putLb n v) := (h.setLb n v).lbLatch n

theorem Keeps.postLb (h : Keeps s0 s) (t n v : Nat) : Keeps s0 (s.postLb t n v) := by
  unfold State.postLb
  dsimp only
  split
  · exact h.putLb _ _
  · exact (((h.putLb _ _).setReg _ _ _ _).setReg _ _ _ _).raise _ _ _

theorem Keeps.worked (h : Keeps s0 s) (d n : Nat) : Keeps s0 (s.worked d n) := h.other

theorem Keeps.wasBusy (h : Keeps s0 s) (a : Nat) : Keeps s0 (s.wasBusy a) := h.other

theorem Keeps.portErr (h : Keeps s0 s) (x1 x2 x3 x4 : Nat) (x5 : Bool) : Keeps s0 (s.portErr x1 x2 x3 x4 x5) := by
  unfold State.portErr
  repeat' first
    | with_reducible assumption
    | with_reducible apply Keeps.setReg
    | with_reducible apply Keeps.bump
    | with_reducible apply Keeps.bumpWrap
    | with_reducible apply Keeps.raise
    | split
    | dsimp only

theorem Keeps.unitError (h : Keeps s0 s) (t addr kind : Nat) (e : PortError) : Keeps s0 (s.unitError t addr kind e) := by
  unfold State.unitError
  repeat' first
    | with_reducible assumption
    | with_reducible apply Keeps.portErr
    | with_reducible apply Keeps.setReg
    | with_reducible apply Keeps.bump
    | with_reducible apply Keeps.raise
    | split
    | dsimp only

theorem Keeps.unitRead (h : Keeps s0 s) (t a n : Nat) (ans : PortAnswer) : Keeps s0 (s.unitRead t a n ans).1 := by
  unfold State.unitRead
  repeat' first
    | with_reducible assumption
    | with_reducible apply Keeps.chargeRead
    | with_reducible apply Keeps.unitError
    | split
    | dsimp only

theorem Keeps.unitWrite (h : Keeps s0 s) (t a : Nat) (bs : List Byte) : Keeps s0 (s.unitWrite t a bs) := by
  unfold State.unitWrite
  refine h.foldl _ (fun u x hu => ?_)
  split
  · exact hu.postWrite _ _ _
  · exact hu

theorem Keeps.setDeadPart (h : Keeps s0 s) (x1 : Nat) (x2 : DeadPart) : Keeps s0 (@State.setDeadPart s x1 x2) := h.other

theorem Keeps.moveDead (a : Nat) (l : List DeadLetter) (h : Keeps s0 s) : Keeps s0 (s.moveDead a l) := by
  induction l generalizing s with
  | nil => exact h.onArr _ _ (fun _ hA => hA)
  | cons e r ih =>
    unfold State.moveDead
    dsimp only; split
    · split
      · exact ih ((h.setDeadPart _ _).raise _ _ _)
      · exact ih (h.setDeadPart _ _)
    · exact h.onArr _ _ (fun _ hA => hA)

theorem Keeps.setFaultPart (h : Keeps s0 s) (x1 : Nat) (x2 : FaultPart) : Keeps s0 (@State.setFaultPart s x1 x2) := h.other

theorem Keeps.logFault (h : Keeps s0 s) (x1 : FaultRec) : Keeps s0 (@State.logFault s x1) := by
  grind [State.logFault, Keeps.raise, Keeps.setFaultPart]

theorem Keeps.tick (h : Keeps s0 s) : Keeps s0 (@State.tick s) := by
  unfold State.tick
  repeat' first
    | with_reducible exact h
    | with_reducible apply Keeps.ite
    | with_reducible intro _
    | with_reducible apply Keeps.update

end
end Sys2Proof.Machine
end

