-- ==== Sys2Proof/Laws/KeepsTasks.lean ====
section
/-! SUPPORT. What every operation keeps (Keeps): tasks and receipts. -/
set_option Elab.async false
namespace Sys2Proof.Machine
section
variable {s0 s : State}
theorem Keeps.raiseArr (h : Keeps s0 s) (x1 : ArrPage) (x2 : Nat) (x3 : Nat) : Keeps s0 (@State.raiseArr s x1 x2 x3) := by
  grind [State.raiseArr, Keeps.setReg, Keeps.raise]

theorem Keeps.deadLetter (h : Keeps s0 s) (x1 : Nat) (x2 : Nat) (x3 : Nat) (x4 : Nat) : Keeps s0 (@State.deadLetter s x1 x2 x3 x4) := by
  grind [State.deadLetter, Keeps.setArr, Keeps.onArr, Keeps.raise, Keeps.setDeadPart, Keeps.moveDead, Keeps.raiseArr]

theorem Keeps.dropReads (h : Keeps s0 s) (x1 : Nat) : Keeps s0 (@State.dropReads s x1) := (h.unask x1).update

theorem Keeps.dropStaged (h : Keeps s0 s) (x1 : Nat) : Keeps s0 (@State.dropStaged s x1) := h.other

theorem Keeps.beginAbandon (h : Keeps s0 s) (x1 : Nat) (x2 : Option (Nat × Nat)) : Keeps s0 (@State.beginAbandon s x1 x2) := by
  unfold State.beginAbandon
  repeat' first
    | with_reducible exact h
    | with_reducible apply Keeps.onArr
    | with_reducible apply Keeps.onTask
    | with_reducible apply Keeps.logFault
    | with_reducible apply Keeps.dropReads
    | with_reducible apply Keeps.dropStaged
    | (intro A hA; exact hA)
    | split

theorem Keeps.failCheck (h : Keeps s0 s) (x1 : Nat) (x2 : Nat) (x3 : Nat) : Keeps s0 (@State.failCheck s x1 x2 x3) := by
  grind [State.failCheck, Keeps.onArr]

theorem Keeps.failNow (h : Keeps s0 s) (x1 : Nat) (x2 : Nat) (x3 : Nat) : Keeps s0 (@State.failNow s x1 x2 x3) := by
  grind [State.failNow, Keeps.beginAbandon]

theorem Keeps.checkPoint (h : Keeps s0 s) (x1 : Nat) (x2 : Nat) (x3 : Nat) : Keeps s0 (@State.checkPoint s x1 x2 x3) := by
  grind [State.checkPoint, Keeps.setReg, Keeps.failCheck]

theorem Keeps.checkUnit (h : Keeps s0 s) (a c : Nat) : Keeps s0 (s.checkUnit a c) := by
  unfold State.checkUnit
  exact .ite (fun _ => (h.checkPoint _ _ _).drew _) (fun _ => h)

end
end Sys2Proof.Machine
end

