-- ==== Sys2Proof/Laws/KeepsMail.lean ====
section
/-! SUPPORT. What every operation keeps (Keeps): letterboxes, mailbags and collections. -/
set_option Elab.async false
namespace Sys2Proof.Machine
section
variable {s0 s : State}
theorem Keeps.sharedRead (h : Keeps s0 s) (x1 : Nat) (x2 : Nat) (x3 : Nat) : Keeps s0 (@State.sharedRead s x1 x2 x3).2 := by
  unfold State.sharedRead
  repeat' first
    | with_reducible assumption
    | with_reducible apply Keeps.violate
    | with_reducible apply Keeps.chargeShared
    | with_reducible apply Keeps.ite
    | with_reducible apply Keeps.foldl
    | with_reducible intro _

theorem Keeps.withShared (h : Keeps s0 s) (m : Memory) (hm : Memory.wf s.shared = true → Memory.wf m = true) :
    Keeps s0 { s with shared := m } := h.trans ⟨rfl, rfl, Nat.le_refl _, id, hm, id⟩

theorem Keeps.sharedWrite (h : Keeps s0 s) (t a : Nat) (bs : List Byte) : Keeps s0 (s.sharedWrite t a bs) := by
  unfold State.sharedWrite
  refine Keeps.withShared (Keeps.foldl h _ (fun u x hu => ?_)) _ (fun hm => ?_)
  · dsimp only; split
    · exact hu.chargeShared _ _ _
    · exact hu.violate _ _ _
  · dsimp only at hm ⊢
    generalize ((List.range bs.length).zip bs).filter _ = l
    generalize State.shared _ = m at hm ⊢
    induction l generalizing m with
    | nil => exact hm
    | cons x r ih => exact ih _ (Memory.wf_put _ _ hm)

theorem Keeps.bagPut (h : Keeps s0 s) (x1 : Nat) (x2 : Word) (x3 : Option Nat) : Keeps s0 (@State.bagPut s x1 x2 x3) := h.other

theorem Keeps.refillBag (h : Keeps s0 s) (x1 : Nat) : Keeps s0 (@State.refillBag s x1) := by
  unfold State.refillBag
  try dsimp only
  repeat' first
    | with_reducible assumption
    | with_reducible apply Keeps.onPort
    | with_reducible apply Keeps.bagPut
    | with_reducible apply Keeps.foldl
    | with_reducible intro _
    | split

theorem Keeps.bagTake (h : Keeps s0 s) (m w : Nat) : ∀ x, s.bagTake m w = some x → Keeps s0 x.2 := by
  intro x hx
  unfold State.bagTake at hx
  dsimp only at hx
  split at hx
  · obtain rfl := Option.some.inj hx
    with_reducible exact (h.setBag _ _).refillBag _
  · cases hx

theorem Keeps.bagWaitTake (h : Keeps s0 s) (x1 : Nat) (x2 : Nat) : Keeps s0 (@State.bagWaitTake s x1 x2) := by
  grind [State.bagWaitTake, Keeps.setBag]

theorem Keeps.bagTryPut (h : Keeps s0 s) (x1 : Nat) (x2 : Nat) (x3 : Word) (x4 : Option Nat) : ∀ u, @State.bagTryPut s x1 x2 x3 x4 = some u → Keeps s0 u := by
  grind [State.bagTryPut, Keeps.setBag, Keeps.bagPut]

theorem Keeps.bagWaitPut (h : Keeps s0 s) (x1 : Nat) (x2 : Nat) : Keeps s0 (@State.bagWaitPut s x1 x2) := by
  grind [State.bagWaitPut, Keeps.setBag]

theorem Keeps.bagLeave (h : Keeps s0 s) (x1 : Nat → Bool) : Keeps s0 (@State.bagLeave s x1) := h.other

theorem Keeps.bagPurge (h : Keeps s0 s) (x1 : Nat) : Keeps s0 (@State.bagPurge s x1) := h.other

theorem Keeps.bagQuit (h : Keeps s0 s) (cid : Nat) : Keeps s0 (s.bagQuit cid) := h.other

theorem Keeps.bagForget (h : Keeps s0 s) (x1 : (Nat → Bool)) : Keeps s0 (@State.bagForget s x1) := h.other

theorem Keeps.bagSettle (h : Keeps s0 s) (x1 : Nat) (x2 : Bool) : Keeps s0 (@State.bagSettle s x1 x2) := h.other

theorem Keeps.setRecv (h : Keeps s0 s) (x1 : Nat) (x2 : Nat) (x3 : RecvChan) : Keeps s0 (@State.setRecv s x1 x2 x3) := h.other

theorem Keeps.setSend (h : Keeps s0 s) (x1 : Nat) (x2 : Nat) (x3 : SendChan) : Keeps s0 (@State.setSend s x1 x2 x3) := h.other

theorem Keeps.raiseRing (h : Keeps s0 s) (x1 : Nat) (x2 : Nat) (x3 : Option Nat) : Keeps s0 (@State.raiseRing s x1 x2 x3) := by
  grind [State.raiseRing, Keeps.raise]

theorem Keeps.msgDrop (h : Keeps s0 s) (x1 : Nat) (x2 : Nat) : Keeps s0 (@State.msgDrop s x1 x2) := by
  grind [State.msgDrop, Keeps.bump, Keeps.raiseRing]

theorem Keeps.ringViol (h : Keeps s0 s) (x1 : Nat) (x2 : Nat) (x3 : Nat) (x4 : Nat) : Keeps s0 (@State.ringViol s x1 x2 x3 x4) := by
  grind [State.ringViol, Keeps.setReg, Keeps.bump, Keeps.raiseRing]

theorem Keeps.enterRetrain (h : Keeps s0 s) (x1 : Nat) : Keeps s0 (@State.enterRetrain s x1) := by
  grind [State.enterRetrain, Keeps.onPort, Keeps.raiseRing]

theorem Keeps.linkFail (h : Keeps s0 s) (x1 : Nat) (x2 : Nat) : Keeps s0 (@State.linkFail s x1 x2) := by
  grind [State.linkFail, Keeps.setReg, Keeps.onPort, Keeps.raiseRing]

theorem Keeps.relay (h : Keeps s0 s) (x1 : Nat) (x2 : Nat) (x3 : Packet) (x4 : Nat) : Keeps s0 (@State.relay s x1 x2 x3 x4) := by
  grind [State.relay, Keeps.onPort, Keeps.setRecv, Keeps.setSend, Keeps.msgDrop]

theorem Keeps.messageLanded (h : Keeps s0 s) (x1 : Nat) (x2 : Nat) (x3 : Packet) : Keeps s0 (@State.messageLanded s x1 x2 x3) := by
  grind [State.messageLanded, Keeps.setReg, Keeps.sharedWrite, Keeps.bagPut, Keeps.setRecv, Keeps.relay]

theorem Keeps.freeSlot (h : Keeps s0 s) (x1 : Nat) (x2 : Nat) : Keeps s0 (@State.freeSlot s x1 x2) := h.other

theorem Keeps.loseMsg (h : Keeps s0 s) (p c id : Nat) : Keeps s0 (s.loseMsg p c id) := by
  unfold State.loseMsg
  dsimp only
  split
  · exact h
  · exact (h.msgDrop _ _).setRecv _ _ _

theorem Keeps.landPayload (h : Keeps s0 s) (p c a : Nat) (bs : List Byte) : Keeps s0 (s.landPayload p c a bs) := by
  unfold State.landPayload
  dsimp only
  split
  · exact (h.sharedWrite _ _ _).drew _
  · exact h.sharedWrite _ _ _

theorem Keeps.landPacket (h : Keeps s0 s) (p c : Nat) (m : Packet) : Keeps s0 (s.landPacket p c m) := by
  unfold State.landPacket
  dsimp only
  repeat' first
    | with_reducible exact h
    | with_reducible apply Keeps.setRecv
    | with_reducible apply Keeps.loseMsg
    | with_reducible apply Keeps.ringViol
    | with_reducible apply Keeps.messageLanded
    | with_reducible apply Keeps.chargeRing
    | with_reducible apply Keeps.bump64
    | with_reducible apply Keeps.landPayload
    | with_reducible apply Keeps.freeSlot
    | split

theorem Keeps.landStash (n p c : Nat) (h : Keeps s0 s) : Keeps s0 (s.landStash n p c) := by
  induction n generalizing s with
  | zero => exact h
  | succ n ih =>
    unfold State.landStash
    dsimp only; split
    · exact h
    · split
      · exact h
      · exact ih ((h.setRecv _ _ _).landPacket _ _ _)

theorem Keeps.landAll (h : Keeps s0 s) : Keeps s0 (@State.landAll s) := by
  unfold State.landAll
  repeat' first
    | with_reducible assumption
    | with_reducible apply Keeps.landStash
    | with_reducible apply Keeps.ite
    | with_reducible apply Keeps.foldl
    | with_reducible intro _

theorem Keeps.postAndLand (h : Keeps s0 s) (x1 : Nat) (x2 : Nat) (x3 : Nat) : Keeps s0 (@State.postAndLand s x1 x2 x3) := by
  grind [State.postAndLand, Keeps.postLb, Keeps.landAll]

end
end Sys2Proof.Machine
end

