-- ==== Sys2Proof/Laws/KeepsPool.lean ====
section
/-! SUPPORT. What every operation keeps (Keeps): cache pools and the account. -/
set_option Elab.async false
namespace Sys2Proof.Machine
section
variable {s0 s : State}
theorem Keeps.walkFault (h : Keeps s0 s) (x1 : Nat) (x2 : Nat) (x3 : Nat) (x4 : Nat) : Keeps s0 (@State.walkFault s x1 x2 x3 x4) := by
  grind [State.walkFault, Keeps.setReg, Keeps.raise]

theorem Keeps.installPigeon (h : Keeps s0 s) (x1 : Nat) (x2 : Nat × Nat × Nat × Nat) : Keeps s0 (@State.installPigeon s x1 x2) := by
  grind [State.installPigeon, Keeps.onArr]

theorem Keeps.chargeWalk (h : Keeps s0 s) (t : Nat) (x : Snap) (page : Nat) : Keeps s0 (State.chargeWalk s t x page) := by
  unfold State.chargeWalk
  try dsimp only
  repeat' first
    | with_reducible assumption
    | with_reducible apply Keeps.chargeRead
    | with_reducible apply Keeps.foldl
    | with_reducible intro _
    | split

theorem Keeps.walk (h : Keeps s0 s) (t : Nat) (x : Snap) (page : Nat) : Keeps s0 (s.walk t x page).2 := by
  refine Keeps.foldl ((h.bump _ _ _).chargeWalk _ _ _) _ (fun u n hu => ?_)
  dsimp only; split
  · exact hu.other
  · exact hu

theorem Keeps.secondLevel (h : Keeps s0 s) (x1 : Nat) (x2 : Nat) (x3 : Snap) (x4 : Nat) : Keeps s0 (@State.secondLevel s x1 x2 x3 x4) := by
  grind [State.secondLevel, Keeps.bump, Keeps.walkFault, Keeps.installPigeon, Keeps.walk]

theorem Keeps.usedPage (h : Keeps s0 s) (a t : Nat) (x : Snap) (page : Nat) : Keeps s0 (s.usedPage a t x page) :=
  h.onArr _ _ (fun _ hA => hA)

theorem Keeps.prefetch (h : Keeps s0 s) (a t : Nat) (x : Snap) (page : Nat) : Keeps s0 (s.prefetch a t x page) := by
  unfold State.prefetch
  dsimp only
  refine .ite (fun _ => Keeps.onArr ((h.usedPage _ _ _ _).secondLevel _ _ _ _) _ _ ?_) (fun _ => h.usedPage _ _ _ _)
  exact fun _ hA => hA

theorem Keeps.translate (h : Keeps s0 s) (a t : Nat) (x : Snap) (page : Nat) : Keeps s0 (s.translate a t x page) := by
  unfold State.translate
  refine .ite (fun _ => h.bump _ _ _) (fun _ => ?_)
  split
  · exact .ite (fun _ => (h.installPigeon _ _).prefetch _ _ _ _) (fun _ => h.installPigeon _ _)
  · exact ((h.bump _ _ _).secondLevel _ _ _ _).prefetch _ _ _ _

theorem Keeps.startWalk (h : Keeps s0 s) (a t : Nat) (x : Snap) (page : Nat) : Keeps s0 (s.startWalk a t x page) :=
  .ite (fun _ => h) (fun _ => (h.bump _ _ _).update)

theorem Keeps.prefetchNext (h : Keeps s0 s) (a t : Nat) (x : Snap) (page : Nat) : Keeps s0 (s.prefetchNext a t x page) := by
  have hu := h.usedPage a t x page
  unfold State.prefetchNext
  dsimp only
  refine .ite (fun _ => ?_) (fun _ => hu)
  split
  · refine ((hu.bump _ _ _).installPigeon _ _).onArr _ _ ?_
    exact fun _ hA => hA
  · exact hu.startWalk _ _ _ _

theorem Keeps.seek (h : Keeps s0 s) (a t : Nat) (x : Snap) (page : Nat) : Keeps s0 (s.seek a t x page).1 := by
  unfold State.seek
  dsimp only
  refine .ite1 (fun _ => h.bump _ _ _) (fun _ => ?_)
  split
  · exact .ite (fun _ => (h.installPigeon _ _).prefetchNext _ _ _ _) (fun _ => h.installPigeon _ _)
  · refine .ite1 (fun _ => ?_) (fun _ => ?_)
    · dsimp only
      exact (h.bump _ _ _).onArr _ _ (fun _ hA => hA)
    · split
      · exact (((h.bump _ _ _).bump _ _ _).installPigeon _ _).prefetchNext _ _ _ _
      · exact .ite (fun _ => h.startWalk _ _ _ _) (fun _ => (h.startWalk _ _ _ _).bump _ _ _)

theorem Keeps.endWalk (h : Keeps s0 s) (w : Walk) : Keeps s0 (s.endWalk w) := by
  have hw := h.walk w.ten w.snap w.page
  unfold State.endWalk
  dsimp only
  refine .ite (fun _ => .ite (fun _ => (hw.installPigeon _ _).onArr _ _ ?_) (fun _ => hw))
    (fun _ => .ite (fun _ => (hw.walkFault _ _ _ _).onArr _ _ ?_) (fun _ => hw.walkFault _ _ _ _))
  · exact fun _ hA => hA
  · exact fun _ hA => hA

theorem Keeps.invalidate (h : Keeps s0 s) (t q : Nat) (l : List Nat) : Keeps s0 (s.invalidate t q l) :=
  (h.mapArrs (fun e => { e.2 with pigeon := e.2.pigeon.filter (fun e => !(e.1 == t && e.2.1 == q && l.contains e.2.2.1)) })
    (fun e => decide (e.2 ≠ {})) (fun _ he => he)).other

theorem Keeps.markStale (h : Keeps s0 s) (p seq : Nat) (b : Bool) (m : Nat × Nat × Nat × Nat) : Keeps s0 (s.markStale p seq b m) := h.other

theorem Keeps.addReg (h : Keeps s0 s) (x1 : FieldSpec) (x2 : Nat) (x3 : Nat) : Keeps s0 (@State.addReg s x1 x2 x3) := h.other

theorem Keeps.subReg (h : Keeps s0 s) (x1 : FieldSpec) (x2 : Nat) (x3 : Nat) : Keeps s0 (@State.subReg s x1 x2 x3) := h.other

theorem Keeps.passFrame (h : Keeps s0 s) (x : Pool) (f : Nat) : Keeps s0 (State.passFrame s x f) := by
  unfold State.passFrame
  try dsimp only
  repeat' first
    | with_reducible assumption
    | with_reducible apply Keeps.chargeRead
    | with_reducible apply Keeps.unitWrite
    | with_reducible apply Keeps.setReg
    | with_reducible apply Keeps.addReg
    | with_reducible apply Keeps.subReg
    | with_reducible apply Keeps.foldl
    | with_reducible intro _
    | split

theorem Keeps.lowFrames (h : Keeps s0 s) (x1 : Nat) (x2 : Nat) : Keeps s0 (@State.lowFrames s x1 x2) := by
  grind [State.lowFrames, Keeps.raise]

theorem Keeps.passFences (h : Keeps s0 s) : Keeps s0 (@State.passFences s) := by
  unfold State.passFences
  repeat' first
    | with_reducible assumption
    | with_reducible apply Keeps.passFrame
    | with_reducible apply Keeps.foldl
    | with_reducible intro _
    | with_reducible apply Keeps.update

theorem Keeps.fenceTaskEnd (h : Keeps s0 s) (x1 : Nat) : Keeps s0 (@State.fenceTaskEnd s x1) := by
  unfold State.fenceTaskEnd
  repeat' first
    | with_reducible exact h
    | with_reducible apply Keeps.passFences
    | with_reducible apply Keeps.update

end
end Sys2Proof.Machine
end

