-- ==== Sys2Proof/Laws/KeepsMemTxn.lean ====
section
/-! SUPPORT. What every operation keeps (Keeps): memory transactions. -/
set_option Elab.async false
namespace Sys2Proof.Machine
section
variable {s0 s : State}
theorem Keeps.storeArrival (h : Keeps s0 s) (a addr : Nat) (bs : List Byte) : Keeps s0 (s.storeArrival a addr bs) :=
  h.onArr a _ (fun _ hA => ArrayState.save_wf _ _ hA)

theorem Keeps.fillWrites (h : Keeps s0 s) (o : TxnOwner) (no a : Nat) (bs : List Byte) : Keeps s0 (s.fillWrites o no a bs) :=
  Keeps.foldl h.update _ (fun _ _ hu => hu.pumpChan _ _)

theorem Keeps.deliverRead (h : Keeps s0 s) (t : Txn) (l : List Byte) : Keeps s0 (s.deliverRead t l) := by
  unfold State.deliverRead
  dsimp only
  split
  · exact h
  · with_reducible exact (h.storeArrival _ _ _).checkUnit _ _
  · exact h.other
  · with_reducible refine Keeps.checkUnit ?_ _ _
    exact (h.storeArrival _ _ _).onArr _ _ (fun A hA => hA)
  · with_reducible refine Keeps.checkUnit ?_ _ _
    exact h.onArr _ _ (fun A hA => hA)
  · with_reducible refine Keeps.checkUnit ?_ _ _
    exact h.onArr _ _ (fun A hA => hA)
  · with_reducible refine Keeps.checkUnit ?_ _ _
    exact h.onArr _ _ (fun A hA => hA)
  · exact h.sharedWrite _ _ _
  · exact h.other
  · exact h.fillWrites _ _ _ _

theorem Keeps.noteOut (h : Keeps s0 s) (rid : Nat) (b : Bool) (a n : Nat) : Keeps s0 (s.noteOut rid b a n) := by
  unfold State.noteOut
  split
  · exact h.onCmd _ _
  · exact h

theorem Keeps.noteShared (h : Keeps s0 s) (a addr n : Nat) : Keeps s0 (s.noteShared a addr n) := by
  unfold State.noteShared
  split
  · exact h.noteOut _ _ _ _
  · exact h

theorem Keeps.output (h : Keeps s0 s) (t : Txn) : Keeps s0 (t.output s) := by
  unfold Txn.output
  split
  · exact h.noteOut _ _ _ _
  · exact .ite (fun _ => h) (fun _ => h.noteOut _ _ _ _)
  · exact h

theorem Keeps.issueTxn (h : Keeps s0 s) (t : Txn) : Keeps s0 (s.issueTxn t) := by
  unfold State.issueTxn
  dsimp only
  have ho := h.output t
  exact .ite (fun _ => ho.submitTxn _) (fun _ => .ite (fun _ => (ho.violate _ _ _).deliverRead _ _) (fun _ => ho.violate _ _ _))

theorem Keeps.memViol (h : Keeps s0 s) (x1 : Nat) (x2 : Nat) (x3 : Nat) : Keeps s0 (@State.memViol s x1 x2 x3) := by
  grind [State.memViol, Keeps.setReg, Keeps.bump, Keeps.raise]

theorem Keeps.spillWrite (h : Keeps s0 s) (rid : Nat) (c : Contribution) : Keeps s0 (s.spillWrite rid c) :=
  h.foldl _ (fun _ _ hu => (hu.drew _).submitTxn _)

theorem Keeps.withSharedMem (h : Keeps s0 s) (a : Nat) (bs : List Byte) : Keeps s0 { s with shared := s.shared.putBytes a bs } :=
  h.withShared _ (Memory.wf_putBytes a bs)

theorem Keeps.stageWrite (h : Keeps s0 s) (c : Contribution) : Keeps s0 (s.stageWrite c) :=
  h.foldl _ (fun _ _ hu => .ite (fun _ => (hu.withSharedMem _ _).drew _) (fun _ => hu))

theorem Keeps.stageAdd (h : Keeps s0 s) (cid rid t e no addr : Nat) (bs : List Byte) :
    ∀ u, s.stageAdd cid rid t e no addr bs = some u → Keeps s0 u := by
  intro u hu
  unfold State.stageAdd at hu
  try dsimp only at hu
  repeat' split at hu
  all_goals first | cases hu | obtain rfl := Option.some.inj hu
  repeat' first
    | with_reducible exact h
    | with_reducible apply Keeps.onTask
    | with_reducible apply Keeps.raise
    | with_reducible apply Keeps.spillWrite
    | with_reducible apply Keeps.stageWrite
    | with_reducible apply Keeps.update

theorem Keeps.onStaged (h : Keeps s0 s) (n : Nat) (f : Contribution → Contribution) : Keeps s0 (s.onStaged n f) := h.other

theorem Keeps.sendAdd (h : Keeps s0 s) (c : Contribution) : Keeps s0 (s.sendAdd c) := (h.onStaged _ _).submitTxn _

theorem Keeps.foldl2 {α β : Type} {f : α × State → β → α × State} (l : List β) {r : α × State} (h : Keeps s0 r.2)
    (hf : ∀ r x, Keeps s0 r.2 → Keeps s0 (f r x).2) : Keeps s0 (l.foldl f r).2 := by
  induction l generalizing r with
  | nil => exact h
  | cons x l ih => exact ih (hf r x h)

theorem Keeps.sendReleased (h : Keeps s0 s) (cid : Nat) : Keeps s0 (s.sendReleased cid) := by
  refine Keeps.foldl2 _ h (fun r x hr => ?_)
  exact .ite2 (fun _ => hr) (fun _ => .ite2 (fun _ => hr) (fun _ => hr.sendAdd _))

theorem Keeps.beginRelease (h : Keeps s0 s) (c : Contribution) : Keeps s0 (s.beginRelease c) :=
  (h.onStaged _ _).foldl _ (fun _ _ hu => hu.submitTxn _)

theorem Keeps.releaseTask (h : Keeps s0 s) (cid idx : Nat) : Keeps s0 (s.releaseTask cid idx) :=
  (h.foldl _ (fun _ _ hu => hu.beginRelease _)).sendReleased _

theorem Keeps.releaseAll (n t : Nat) : ∀ {s : State} (_ : Keeps s0 s), Keeps s0 (s.releaseAll n t) := by
  induction n with
  | zero => exact fun h => h
  | succ n ih =>
    intro s h
    unfold State.releaseAll
    refine .ite (fun _ => h) (fun _ => ?_)
    split
    · exact h
    · exact ih (h.releaseTask _ _)

theorem Keeps.releaseOn (h : Keeps s0 s) (t : Nat) : Keeps s0 (s.releaseOn t) := Keeps.releaseAll _ _ h

theorem Keeps.releaseReset (h : Keeps s0 s) : Keeps s0 s.releaseReset := by
  unfold State.releaseReset
  split
  · exact h.releaseOn _
  · exact h

theorem Keeps.duePosts (h : Keeps s0 s) : Keeps s0 s.duePosts :=
  Keeps.foldl h.update _ (fun _ _ hu => hu.postAndLand _ _ _)

theorem Keeps.unstage (h : Keeps s0 s) (x1 : Nat) : Keeps s0 (@State.unstage s x1) := Keeps.duePosts h.update

theorem Keeps.losePosts (h : Keeps s0 s) (x1 : Nat) : Keeps s0 (@State.losePosts s x1) := h.other

theorem Keeps.stageReady (h : Keeps s0 s) (x1 : Nat) : Keeps s0 (@State.stageReady s x1) := h.other

end
end Sys2Proof.Machine
end

