-- ==== Sys2Proof/Laws/KeepsStreams.lean ====
section
/-! SUPPORT. What every operation keeps (Keeps): the stream engines. -/
set_option Elab.async false
namespace Sys2Proof.Machine
section
variable {s0 s : State}
theorem Keeps.journalPass (h : Keeps s0 s) (x1 : Nat) : Keeps s0 (@State.journalPass s x1) := h.other

theorem Keeps.journalAdd (h : Keeps s0 s) (x1 : Nat) (x2 : JEntry) : Keeps s0 (@State.journalAdd s x1 x2) := h.other

theorem Keeps.journalMade (h : Keeps s0 s) (x1 : Nat) (x2 : Nat) : Keeps s0 (@State.journalMade s x1 x2) := h.other

theorem Keeps.onEng (h : Keeps s0 s) (x1 : Nat) (x2 : Nat) (x3 : (Engine → Engine)) : Keeps s0 (@State.onEng s x1 x2 x3) := by
  unfold State.onEng
  repeat' first
    | with_reducible exact h
    | with_reducible apply Keeps.onArr
    | (intro A hA; exact hA)

theorem Keeps.between (n a e : Nat) (b : Bool) (h : Keeps s0 s) : Keeps s0 (s.between n a e b).1 := by
  induction n generalizing s with
  | zero => exact h
  | succ n ih =>
    rw [State.between]
    dsimp only
    split
    · exact h.onEng _ _ _
    · exact (h.deadLetter _ _ _ _).onEng _ _ _
    · exact h
    · exact ih (h.onEng _ _ _)
    · split
      · exact ih (h.onEng _ _ _)
      · split
        · exact ih (h.onEng _ _ _)
        · exact ih (h.onEng _ _ _)
    · split
      · exact h
      · split
        · exact ih ((h.deadLetter _ _ _ _).onEng _ _ _)
        · split
          · exact ih ((h.bagTake _ _ _ ‹_›).onEng _ _ _)
          · exact h.bagWaitTake _ _
    · split
      · exact ih ((h.deadLetter _ _ _ _).onEng _ _ _)
      · split
        · exact ih ((h.journalPass _).onEng _ _ _)
        · exact ih ((h.journalPass _).onEng _ _ _)
        · exact ih ((h.journalAdd _ _).onEng _ _ _)
        · exact ih (h.onEng _ _ _)

theorem Keeps.makePost (h : Keeps s0 s) (a e lb amount u i : Nat) : Keeps s0 (s.makePost a e lb amount u i) :=
  .ite (fun _ => (h.journalMade _ _).postAndLand _ _ _) (fun _ => h.update)

theorem Keeps.enginePosts (n a e : Nat) (h : Keeps s0 s) : Keeps s0 (s.enginePosts n a e) := by
  induction n generalizing s with
  | zero => exact h
  | succ n ih =>
    unfold State.enginePosts
    split
    · exact h
    · split
      · exact ih ((h.onEng _ _ _).makePost _ _ _ _ _ _)
      · exact h

theorem Keeps.runPosts (h : Keeps s0 s) (x1 : Nat) : Keeps s0 (@State.runPosts s x1) := by
  unfold State.runPosts
  repeat' first
    | with_reducible exact h
    | with_reducible apply Keeps.enginePosts
    | with_reducible apply Keeps.foldl
    | with_reducible intro _

theorem Keeps.openSlot (h : Keeps s0 s) (x1 : Nat) (x2 : Nat) (x3 : MoveDst) (x4 : Nat) : Keeps s0 (@State.openSlot s x1 x2 x3 x4) := by
  unfold State.openSlot
  repeat' first
    | with_reducible exact h
    | with_reducible apply Keeps.onArr
    | with_reducible apply Keeps.onEng
    | (intro A hA; exact hA)
    | split

theorem Keeps.closeSlot (h : Keeps s0 s) (x1 : Nat) (x2 : Nat) (x3 : MoveDst) : Keeps s0 (@State.closeSlot s x1 x2 x3) := by
  unfold State.closeSlot
  repeat' first
    | with_reducible exact h
    | with_reducible apply Keeps.onArr
    | with_reducible apply Keeps.onEng
    | (intro A hA; exact hA)
    | split

theorem Keeps.issueReads (h : Keeps s0 s) (a e no cls : Nat) (d : MoveDst) (l : List Piece) (row : Option RowSrc) :
    Keeps s0 (s.issueReads a e no cls d l row) := h.foldl _ (fun _ _ hu => hu.issueTxn _)

theorem Keeps.issueWrites (h : Keeps s0 s) (a e no cls addr : Nat) (bs : List Byte) :
    Keeps s0 (s.issueWrites a e no cls addr bs) := h.foldl _ (fun _ _ hu => hu.issueTxn _)

theorem Keeps.offloadWrites (h : Keeps s0 s) (a e no addr n : Nat) : Keeps s0 (s.offloadWrites a e no addr n) :=
  h.foldl _ (fun _ _ hu => hu.issueTxn _)

theorem Keeps.issueMove (h : Keeps s0 s) (a e no n : Nat) (d : MoveDst) (l : List Piece) (row : Option RowSrc) :
    Keeps s0 (s.issueMove a e no n d l row) := by
  unfold State.issueMove
  split
  · exact ((h.issueReads _ _ _ _ _ _ _).offloadWrites _ _ _ _ _).issueReads _ _ _ _ _ _ _
  · exact h.issueReads _ _ _ _ _ _ _

theorem Keeps.putDirect (h : Keeps s0 s) (a e no : Nat) (d : MoveDst) (off : Nat) (bs : List Byte) :
    Keeps s0 (s.putDirect a e no d off bs) := by
  unfold State.putDirect
  split
  · exact h.fillWrites _ _ _ _
  · exact (h.noteShared _ _ _).sharedWrite _ _ _
  · exact h.storeArrival _ _ _
  · exact h.storeArrival _ _ _
  · exact h.onArr _ _ (fun _ hA => hA)
  · exact h

theorem Keeps.stageMove (h : Keeps s0 s) (a e no d : Nat) (bs : List Byte) :
    ∀ u, s.stageMove a e no d bs = some u → Keeps s0 u := by
  unfold State.stageMove
  dsimp only
  generalize cutRange _ _ _ = l
  have key : ∀ (l : List (Nat × Nat)) (r : Option State) (_ : ∀ v, r = some v → Keeps s0 v) (g : Option State → Nat × Nat → Option State)
      (_ : ∀ p, g none p = none) (_ : ∀ v p, Keeps s0 v → ∀ u, g (some v) p = some u → Keeps s0 u) (u : State),
      l.foldl g r = some u → Keeps s0 u := by
    intro l
    induction l with
    | nil => intro r hr g _ _ u hu; exact hr u hu
    | cons p l ih =>
      intro r hr g hn hs u hu
      refine ih (g r p) (fun v hv => ?_) g hn hs u hu
      cases r with
      | none => rw [hn] at hv; cases hv
      | some w => exact hs w p (hr w rfl) v hv
  intro u hu
  refine key l (some s) (fun v hv => Option.some.inj hv ▸ h) _ (fun _ => rfl) (fun v p hv u hu => ?_) u hu
  dsimp only at hu
  split at hu
  · exact (hv.noteOut _ _ _ _).stageAdd _ _ _ _ _ _ _ _ hu
  · exact Option.some.inj hu ▸ hv.violate _ _ _

theorem Keeps.cacheSrc (h : Keeps s0 s) (x1 : Nat) (x2 : Nat) (x3 : Nat) (x4 : Int) : Keeps s0 (@State.cacheSrc s x1 x2 x3 x4).state := by
  grind [State.cacheSrc, Keeps.bump, Keeps.seek]

theorem Keeps.issueExpanded (h : Keeps s0 s) (a e no slot : Nat) (c : CacheSrc) (l sl : List Piece) (b : Bool) :
    Keeps s0 (s.issueExpanded a e no slot c l sl b) :=
  Keeps.foldl (h.foldl _ (fun _ _ hu => hu.issueTxn _)) _ (fun _ _ hu => hu.issueTxn _)

theorem Keeps.taskStatus (h : Keeps s0 s) (x1 : Nat) (x2 : Nat) : Keeps s0 (@State.taskStatus s x1 x2) := h.other

theorem Keeps.launch (h : Keeps s0 s) (x1 : Nat) (x2 : Flight) : Keeps s0 (@State.launch s x1 x2) := by
  grind [State.launch, Keeps.onArr]

theorem Keeps.freeBytes (h : Keeps s0 s) (x1 : Nat) : Keeps s0 (@State.freeBytes s x1).2 := by
  grind [State.freeBytes, Keeps.drew]

theorem Keeps.codeSlot (h : Keeps s0 s) (a slot b n : Nat) : Keeps s0 (s.codeSlot a slot b n) := h.onArr _ _ (fun _ hA => hA)

theorem Keeps.moveFound (h : Keeps s0 s) (a e no : Nat) (m : Move) (d : MoveDst) (c : Option CacheSrc) :
    Keeps s0 (s.moveFound a e no m d c) := by
  cases c with
  | none => exact (((h.openSlot _ _ _ _).issueMove _ _ _ _ _ _ _).putDirect _ _ _ _ _ _).closeSlot _ _ _
  | some c =>
    unfold State.moveFound
    dsimp only
    split
    · exact (((h.openSlot _ _ _ _).codeSlot _ _ _ _).issueExpanded _ _ _ _ _ _ _ _).closeSlot _ _ _
    · exact (((h.openSlot _ _ _ _).issueMove _ _ _ _ _ _ _).putDirect _ _ _ _ _ _).closeSlot _ _ _

theorem CacheFind.noted_keeps {r : CacheFind} (h : Keeps s0 r.state) (a n : Nat) : Keeps s0 (r.noted a n) :=
  .ite (fun _ => h.taskStatus _ _) (fun _ => .ite (fun _ => h.taskStatus _ _) (fun _ => h))

theorem Keeps.settleHalt (h : Keeps s0 s) (a e : Nat) : Keeps s0 (s.settleHalt a e) :=
  .ite (fun _ => (h.onEng _ _ _).bagLeave _) (fun _ => h)

/-- What a MOVE leaves, done or not. -/
def MoveEnd.Keeps (s0 : State) (x : MoveEnd) : Prop :=
  match x with
  | .done u => Sys2Proof.Machine.Keeps s0 u
  | .waits u => Sys2Proof.Machine.Keeps s0 u
  | .frozen _ => True

theorem MoveEnd.Keeps.ite {c : Prop} [Decidable c] {x y : MoveEnd} (hx : c → MoveEnd.Keeps s0 x) (hy : ¬ c → MoveEnd.Keeps s0 y) :
    MoveEnd.Keeps s0 (if c then x else y) := by
  split
  · exact hx ‹_›
  · exact hy ‹_›
/-- A MOVE that is done goes on by `f`. -/
theorem MoveEnd.Keeps.andThen {x : MoveEnd} {f : State → State} (hx : MoveEnd.Keeps s0 x)
    (hf : ∀ u, Sys2Proof.Machine.Keeps s0 u → Sys2Proof.Machine.Keeps s0 (f u)) : MoveEnd.Keeps s0 (x.andThen f) := by
  cases x with
  | done u => exact hf u hx
  | frozen w => trivial
  | waits u => exact hx

theorem Keeps.moveCache (h : Keeps s0 s) (a e no : Nat) (m : Move) (d : MoveDst) : MoveEnd.Keeps s0 (s.moveCache a e no m d) := by
  have hc := h.cacheSrc a (((s.engine a e).sb.getD m.ssb 0)) m.half ((s.engine a e).offset false)
  unfold State.moveCache
  exact .ite (fun _ => hc) (fun _ => (CacheFind.noted_keeps hc _ _).moveFound _ _ _ _ _ _)

theorem Keeps.sentBytes (h : Keeps s0 s) (a : Nat) (m : Move) : Keeps s0 (s.sentBytes a m) :=
  .ite (fun _ => h) (fun _ => h.checkUnit _ _)

theorem Keeps.moveBytes (h : Keeps s0 s) (a e no lat : Nat) (m : Move) (bs : List Byte) :
    MoveEnd.Keeps s0 (s.moveBytes a e no lat m bs) := by
  unfold State.moveBytes
  dsimp only
  split
  · exact .ite (fun _ => trivial) (fun _ => Keeps.sentBytes (h.issueWrites _ _ _ _ _ _) _ _)
  · split
    · exact Keeps.sentBytes (h.stageMove _ _ _ _ _ _ ‹_›) _ _
    · trivial
  · exact h.launch _ _
  · exact h.launch _ _
  · exact (h.openSlot _ _ _ _).launch _ _

theorem Keeps.moveAdd (h : Keeps s0 s) (a e no : Nat) (m : Move) : MoveEnd.Keeps s0 (s.moveAdd a e no m) := by
  have hc := h.cacheSrc a (((s.engine a e).sb.getD m.ssb 0)) m.half ((s.engine a e).offset false)
  unfold State.moveAdd
  dsimp only
  refine .ite (fun _ => .ite (fun _ => hc) (fun _ => ?_)) (fun _ => ?_)
  · split
    · trivial
    · exact ((CacheFind.noted_keeps hc _ _).stageMove _ _ _ _ _ _ ‹_›).moveFound _ _ _ _ _ _
  · split
    · trivial
    · exact (h.stageMove _ _ _ _ _ _ ‹_›).issueReads _ _ _ _ _ _ _

theorem Keeps.moveSource (h : Keeps s0 s) (a e : Nat) (m : Move) : ∀ r, s.moveSource a e m = some r → Keeps s0 r.2 := by
  intro r hr
  unfold State.moveSource at hr
  dsimp only at hr
  split at hr
  · obtain rfl := Option.some.inj hr
    exact h.checkPoint _ _ _
  · split at hr
    · cases hr
    · obtain rfl := Option.some.inj hr
      exact ((h.freeBytes _).onEng _ _ _).checkUnit _ _

theorem Keeps.moveOut (h : Keeps s0 s) (a e no lat : Nat) (m : Move) : MoveEnd.Keeps s0 (s.moveOut a e no lat m) := by
  unfold State.moveOut
  split
  · exact h
  · exact (h.moveSource _ _ _ _ ‹_›).moveBytes _ _ _ _ _ _

theorem Keeps.moveShared (h : Keeps s0 s) (a e no sa : Nat) (m : Move) : MoveEnd.Keeps s0 (s.moveShared a e no sa m) := by
  unfold State.moveShared
  dsimp only
  split
  · exact .ite (fun _ => h) (fun _ => ((h.sharedRead _ _ _).checkPoint _ _ _).moveBytes _ _ _ _ _ _)
  · exact h.moveCache _ _ _ _ _
  · exact h.issueReads _ _ _ _ _ _ _
  · exact h.moveOut _ _ _ _ _

theorem Keeps.moveIn (h : Keeps s0 s) (a e no : Nat) (m : Move) (d : MoveDst) : MoveEnd.Keeps s0 (s.moveIn a e no m d) := by
  unfold State.moveIn
  exact .ite (fun _ => h.moveCache _ _ _ _ _) (fun _ => ((h.openSlot _ _ _ _).issueMove _ _ _ _ _ _ _).closeSlot _ _ _)

theorem Keeps.runMove (h : Keeps s0 s) (a e : Nat) (m : Move) : MoveEnd.Keeps s0 (s.runMove a e m) := by
  unfold State.runMove
  dsimp only
  refine .ite (fun _ => (h.deadLetter _ _ _ _).onEng _ _ _) (fun _ => .ite (fun _ => .ite (fun _ =>
    (h.deadLetter _ _ _ _).onEng _ _ _) (fun _ => (h.moveShared _ _ _ _ _).andThen (fun _ hu => (hu.onEng _ _ _).onEng _ _ _)))
    (fun _ => .ite (fun _ => .ite (fun _ => h) (fun _ => (h.moveOut _ _ _ _ _).andThen (fun _ hu => hu.onEng _ _ _)))
    (fun _ => .ite (fun _ => (h.moveAdd _ _ _ _).andThen (fun _ hu => hu.onEng _ _ _)) (fun _ => ?_))))
  split
  · exact h
  · exact (h.moveIn _ _ _ _ _).andThen (fun _ hu => hu.onEng _ _ _)

theorem Keeps.engineStep (h : Keeps s0 s) (a e : Nat) : Keeps s0 (s.engineStep a e).1 := by
  have hb : Keeps s0 (s.between streamFuel a e true).1 := h.between _ _ _ _
  unfold State.engineStep
  generalize s.between streamFuel a e true = r at hb ⊢
  dsimp only
  split
  · exact hb
  · exact hb
  · have hm := hb.runMove a e ‹_›
    split
    · exact Eq.subst (motive := MoveEnd.Keeps s0) ‹_› hm
    · exact hb
    · exact Eq.subst (motive := MoveEnd.Keeps s0) ‹_› hm

theorem Keeps.engineSteps (n a e : Nat) (h : Keeps s0 s) : Keeps s0 (s.engineSteps n a e) := by
  induction n generalizing s with
  | zero => exact h
  | succ n ih =>
    rw [State.engineSteps]
    dsimp only
    have hb : Keeps s0 (s.between streamFuel a e false).1 := h.between _ _ _ _
    have hr := h.engineStep a e
    generalize s.between streamFuel a e false = r1 at hb ⊢
    generalize s.engineStep a e = r at hr ⊢
    split
    · exact h
    · split
      · exact hb.settleHalt _ _
      · split
        · exact ih hr
        · exact hr.onArr _ _ (fun _ hA => hA)
        · split
          · exact hr.deadLetter _ _ _ _
          · exact hr

theorem Keeps.retrySteps (h : Keeps s0 s) (x1 : Nat) : Keeps s0 (@State.retrySteps s x1) := by
  unfold State.retrySteps
  repeat' first
    | with_reducible assumption
    | with_reducible apply Keeps.engineSteps
    | with_reducible apply Keeps.ite
    | with_reducible apply Keeps.foldl
    | with_reducible intro _

theorem Keeps.freeWinSlot (h : Keeps s0 s) (x1 : Nat) (x2 : Nat) (x3 : Nat) : Keeps s0 (@State.freeWinSlot s x1 x2 x3) := by
  unfold State.freeWinSlot
  repeat' first
    | with_reducible exact h
    | with_reducible apply Keeps.onArr
    | (intro A hA; split <;> first | exact hA | simpa using hA)

theorem Keeps.startEngine (h : Keeps s0 s) (x1 : Nat) (x2 : Nat) (x3 : Nat) : Keeps s0 (@State.startEngine s x1 x2 x3) := by
  unfold State.startEngine
  repeat' first
    | with_reducible exact h
    | with_reducible apply Keeps.onArr
    | (intro A hA; exact hA)

theorem Keeps.scopyRun (h : Keeps s0 s) (a e : Nat) (ds dd : Descr) : Keeps s0 (s.scopyRun a e ds dd) := by
  refine h.foldl _ (fun u i hu => ?_)
  dsimp only
  exact Keeps.launch (.ite2 (fun _ => (hu.sharedRead _ _ _).checkPoint _ _ _) (fun _ => hu.checkPoint _ _ _)) _ _

end
end Sys2Proof.Machine
end

