-- ==== Sys2Proof/Laws/KeepsIssue.lean ====
section
/-! SUPPORT. What every operation keeps (Keeps): issue of an operation. -/
set_option Elab.async false
namespace Sys2Proof.Machine
section
variable {s0 s : State}
theorem Keeps.touch (h : Keeps s0 s) (x1 : Nat) (x2 : List Nat) : Keeps s0 (@State.touch s x1 x2) := by
  grind [State.touch, Keeps.onArr]

theorem Keeps.freeSlice (h : Keeps s0 s) : Keeps s0 (@State.freeSlice s).2 := by
  grind [State.freeSlice, Keeps.drew]

theorem Keeps.feederGo (h : Keeps s0 s) (x1 : Nat) (x2 : Bool) (x3 : Nat) (x4 : Nat) : Keeps s0 (@State.feederGo s x1 x2 x3 x4) := by
  grind [State.feederGo, Keeps.checkPoint, Keeps.launch, Keeps.touch, Keeps.freeSlice]

theorem Keeps.stallOn (h : Keeps s0 s) (x1 : Nat) (x2 : Stalled) : Keeps s0 (@State.stallOn s x1 x2) := by
  grind [State.stallOn, Keeps.onArr]

theorem Keeps.issueFeeder (h : Keeps s0 s) (x1 : Nat) (x2 : Nat) (x3 : Bool) (x4 : BitVec 6) (x5 : BitVec 7) : Keeps s0 (@State.issueFeeder s x1 x2 x3 x4 x5) := by
  grind [State.issueFeeder, Keeps.deadLetter, Keeps.feederGo, Keeps.stallOn]

theorem Keeps.issueMma (h : Keeps s0 s) (x1 : Nat) (x2 : Nat) (x3 : MmaFields) : Keeps s0 (@State.issueMma s x1 x2 x3) := by
  grind [State.issueMma, Keeps.deadLetter, Keeps.launch]

theorem Keeps.dotGo (h : Keeps s0 s) (x1 : Nat) (x2 : DotFields) : Keeps s0 (@State.dotGo s x1 x2) := by
  grind [State.dotGo, Keeps.launch]

theorem Keeps.issueDot (h : Keeps s0 s) (x1 : Nat) (x2 : Nat) (x3 : DotFields) : Keeps s0 (@State.issueDot s x1 x2 x3) := by
  grind [State.issueDot, Keeps.deadLetter, Keeps.stallOn, Keeps.dotGo]

theorem Keeps.axpyGo (h : Keeps s0 s) (x1 : Nat) (x2 : AxpyFields) : Keeps s0 (@State.axpyGo s x1 x2) := by
  grind [State.axpyGo, Keeps.launch]

theorem Keeps.issueAxpy (h : Keeps s0 s) (x1 : Nat) (x2 : AxpyFields) : Keeps s0 (@State.issueAxpy s x1 x2) := by
  grind [State.issueAxpy, Keeps.stallOn, Keeps.axpyGo]

theorem Keeps.issueSwap (h : Keeps s0 s) (x1 : Nat) (x2 : Nat) (x3 : BitVec 3) (x4 : SwapDest) : Keeps s0 (@State.issueSwap s x1 x2 x3 x4) := by
  unfold State.issueSwap
  repeat' first
    | with_reducible assumption
    | with_reducible apply Keeps.onArr
    | with_reducible apply Keeps.deadLetter
    | with_reducible apply Keeps.launch
    | with_reducible apply Keeps.ite
    | with_reducible intro _

theorem Keeps.issueRowscale (h : Keeps s0 s) (x1 : Nat) (x2 : BitVec 3) (x3 : BitVec 5) : Keeps s0 (@State.issueRowscale s x1 x2 x3) := by
  grind [State.issueRowscale, Keeps.launch]

theorem Keeps.issueGload (h : Keeps s0 s) (x1 : Nat) (x2 : BitVec 3) (x3 : TileAddr) : Keeps s0 (@State.issueGload s x1 x2 x3) := by
  grind [State.issueGload, Keeps.onArr, Keeps.launch]

theorem Keeps.issueSf (h : Keeps s0 s) (x1 : Nat) (x2 : Nat) (x3 : SfFields) : Keeps s0 (@State.issueSf s x1 x2 x3) := by
  unfold State.issueSf
  dsimp only
  repeat' first
    | with_reducible assumption
    | with_reducible apply Keeps.deadLetter
    | with_reducible apply Keeps.checkPoint
    | with_reducible apply Keeps.launch
    | with_reducible apply Keeps.touch
    | with_reducible apply Keeps.foldl
    | with_reducible apply Keeps.onArr
    | with_reducible apply Keeps.ite
    | intro _
    | exact fun h => h

theorem Keeps.launchV (h : Keeps s0 s) (x1 : Nat) (x2 : Nat) (x3 : BitVec 5) (x4 : List Word) : Keeps s0 (@State.launchV s x1 x2 x3 x4) := by
  grind [State.launchV, Keeps.launch]

theorem Keeps.vec2 (h : Keeps s0 s) (x1 : Nat) (x2 : VFields) (x3 : Nat) (x4 : (Word → Word → Word)) : Keeps s0 (@State.vec2 s x1 x2 x3 x4) := by
  grind [State.vec2, Keeps.launchV]

theorem Keeps.vec3 (h : Keeps s0 s) (x1 : Nat) (x2 : VFields) (x3 : Nat) (x4 : (Word → Word → Word → Word)) : Keeps s0 (@State.vec3 s x1 x2 x3 x4) := by
  grind [State.vec3, Keeps.launchV]

theorem Keeps.issueFdiv (h : Keeps s0 s) (x1 : Nat) (x2 : Nat) (x3 : VFields) : Keeps s0 (@State.issueFdiv s x1 x2 x3) := by
  grind [State.issueFdiv, Keeps.onArr, Keeps.deadLetter, Keeps.vec2]

theorem Keeps.issueCvt (h : Keeps s0 s) (x1 : Nat) (x2 : Nat) (x3 : VFields) : Keeps s0 (@State.issueCvt s x1 x2 x3) := by
  grind [State.issueCvt, Keeps.deadLetter, Keeps.launchV]

theorem Keeps.issueVld (h : Keeps s0 s) (x1 : Nat) (x2 : Nat) (x3 : BitVec 5) (x4 : BitVec 6) : Keeps s0 (@State.issueVld s x1 x2 x3 x4) := by
  grind [State.issueVld, Keeps.deadLetter, Keeps.checkPoint, Keeps.touch, Keeps.launchV]

theorem Keeps.issueVst (h : Keeps s0 s) (x1 : Nat) (x2 : Nat) (x3 : BitVec 5) (x4 : BitVec 6) : Keeps s0 (@State.issueVst s x1 x2 x3 x4) := by
  grind [State.issueVst, Keeps.deadLetter, Keeps.launch]

theorem Keeps.issueExtr (h : Keeps s0 s) (x1 : Nat) (x2 : VFields) : Keeps s0 (@State.issueExtr s x1 x2) := by
  grind [State.issueExtr, Keeps.launch]

theorem Keeps.launchS (h : Keeps s0 s) (x1 : Nat) (x2 : BitVec 5) (x3 : Word) : Keeps s0 (@State.launchS s x1 x2 x3) := by
  grind [State.launchS, Keeps.launch]

theorem Keeps.scal2 (h : Keeps s0 s) (x1 : Nat) (x2 : RForm) (x3 : (Word → Word → Word)) : Keeps s0 (@State.scal2 s x1 x2 x3) := by
  grind [State.scal2, Keeps.launchS]

theorem Keeps.launchX (h : Keeps s0 s) (x1 : Nat) (x2 : Nat) (x3 : Landing) : Keeps s0 (@State.launchX s x1 x2 x3) := by
  grind [State.launchX, Keeps.launch]

theorem Keeps.flow (h : Keeps s0 s) (x1 : Nat) (x2 : Flow) : Keeps s0 (@State.flow s x1 x2) := by
  grind [State.flow, Keeps.onArr]

theorem Keeps.issueCmpset (h : Keeps s0 s) (x1 : Nat) (x2 : CmpSetFields) : Keeps s0 (@State.issueCmpset s x1 x2) := by
  grind [State.issueCmpset, Keeps.launchX]

theorem Keeps.issueRepeat (h : Keeps s0 s) (x1 : Nat) (x2 : BitVec 6) (x3 : Bool) (x4 : BitVec 12) : Keeps s0 (@State.issueRepeat s x1 x2 x3 x4) := by
  grind [State.issueRepeat, Keeps.flow]

theorem Keeps.issueCall (h : Keeps s0 s) (x1 : Nat) (x2 : Nat) (x3 : BitVec 10) : Keeps s0 (@State.issueCall s x1 x2 x3) := by
  grind [State.issueCall, Keeps.deadLetter, Keeps.flow]

theorem Keeps.issueRet (h : Keeps s0 s) (x1 : Nat) : Keeps s0 (@State.issueRet s x1) := by
  grind [State.issueRet, Keeps.flow]

theorem Keeps.issueAstg (h : Keeps s0 s) (x1 : Nat) (x2 : AstgFields) : Keeps s0 (@State.issueAstg s x1 x2) := by
  grind [State.issueAstg, Keeps.launchX]

theorem Keeps.issueDset (h : Keeps s0 s) (x1 : Nat) (x2 : BitVec 6) (x3 : BitVec 5) : Keeps s0 (@State.issueDset s x1 x2 x3) := by
  grind [State.issueDset, Keeps.checkPoint, Keeps.launchX]

theorem Keeps.issueLbpost (h : Keeps s0 s) (x1 : Nat) (x2 : Nat) (x3 : BitVec 13) (x4 : BitVec 5) : Keeps s0 (@State.issueLbpost s x1 x2 x3 x4) := by
  grind [State.issueLbpost, Keeps.deadLetter, Keeps.postAndLand, Keeps.journalPass, Keeps.journalAdd]

theorem Keeps.issueLbwait (h : Keeps s0 s) (x1 : Nat) (x2 : Nat) (x3 : BitVec 13) (x4 : BitVec 5) : Keeps s0 (@State.issueLbwait s x1 x2 x3 x4) := by
  unfold State.issueLbwait
  exact .ite (fun _ => h.deadLetter _ _ _ _) (fun _ => .ite (fun _ => h.onArr _ _ (fun _ hA => hA)) (fun _ => h.stallOn _ _))

theorem Keeps.issueLbread (h : Keeps s0 s) (x1 : Nat) (x2 : Nat) (x3 : BitVec 13) (x4 : BitVec 5) : Keeps s0 (@State.issueLbread s x1 x2 x3 x4) := by
  grind [State.issueLbread, Keeps.deadLetter, Keeps.launchS]

theorem Keeps.putGo (h : Keeps s0 s) (a obj : Nat) (v : Word) : ∀ u, s.putGo a obj v = some u → Keeps s0 u := by
  intro u hu
  obtain ⟨w, hw, rfl⟩ := Option.map_eq_some_iff.1 hu
  exact (h.bagTryPut _ _ _ _ _ hw).journalAdd _ _

theorem Keeps.issueMbput (h : Keeps s0 s) (x1 : Nat) (x2 : Nat) (x3 : BitVec 13) (x4 : BitVec 5) : Keeps s0 (@State.issueMbput s x1 x2 x3 x4) := by
  grind [State.issueMbput, Keeps.deadLetter, Keeps.bagWaitPut, Keeps.journalPass, Keeps.stallOn, Keeps.putGo]

theorem Keeps.takeGo (h : Keeps s0 s) (a obj sd : Nat) : ∀ u, s.takeGo a obj sd = some u → Keeps s0 u := by
  intro u hu
  obtain ⟨w, hw, rfl⟩ := Option.map_eq_some_iff.1 hu
  exact ((h.bagTake _ _ _ hw).journalAdd _ _).launchX _ _ _

theorem Keeps.issueMbtake (h : Keeps s0 s) (x1 : Nat) (x2 : Nat) (x3 : BitVec 13) (x4 : BitVec 5) : Keeps s0 (@State.issueMbtake s x1 x2 x3 x4) := by
  grind [State.issueMbtake, Keeps.deadLetter, Keeps.bagWaitTake, Keeps.journalPass, Keeps.stallOn, Keeps.launchX, Keeps.takeGo]

theorem Keeps.collectCheck (h : Keeps s0 s) (x1 : Nat) : Keeps s0 (@State.collectCheck s x1) := by
  grind [State.collectCheck, Keeps.setCollection]

theorem Keeps.arriveAt (h : Keeps s0 s) (a : Nat) : Keeps s0 (s.arriveAt a) :=
  ((h.journalAdd _ _).setCollection _ _).collectCheck _

theorem Keeps.issueCollect (h : Keeps s0 s) (a : Nat) : Keeps s0 (s.issueCollect a) := by
  unfold State.issueCollect
  dsimp only
  refine .ite (fun _ => .ite (fun _ => h.stallOn _ _) (fun _ => h)) (fun _ => ?_)
  split
  · exact h.journalPass _
  · exact .ite (fun _ => (h.arriveAt _).stallOn _ _) (fun _ => h.arriveAt _)

theorem Keeps.onStarted (h : Keeps s0 s) (a w : Nat) (e : BitVec 2) {f : State → State} (hf : Keeps s0 (f s)) :
    Keeps s0 (s.onStarted a w e f) := .ite (fun _ => hf) (fun _ => h.deadLetter _ _ _ _)

theorem Keeps.issueSadv (h : Keeps s0 s) (a w : Nat) (e : BitVec 2) (n : BitVec 8) : Keeps s0 (s.issueSadv a w e n) :=
  h.onStarted _ _ _ (.ite (fun _ => h) (fun _ => (h.onEng _ _ _).engineSteps _ _ _))

theorem Keeps.issueShalt (h : Keeps s0 s) (a w : Nat) (e : BitVec 2) : Keeps s0 (s.issueShalt a w e) :=
  h.onStarted _ _ _ ((h.onEng _ _ _).settleHalt _ _)

theorem Keeps.issueScopy (h : Keeps s0 s) (a w : Nat) (e : BitVec 2) (x y : BitVec 6) : Keeps s0 (s.issueScopy a w e x y) :=
  h.onStarted _ _ _ (.ite (fun _ => h.deadLetter _ _ _ _) (fun _ => h.scopyRun _ _ _ _))

theorem Keeps.issueInstr (h : Keeps s0 s) (a w : Nat) (i : Instr) : Keeps s0 (s.issueInstr a w i) := by
  cases i with
  | feederRead _ _ _ _ _ => exact h.issueFeeder _ _ _ _ _
  | mma _ _ _ => exact h.issueMma _ _ _
  | dot _ _ _ => exact h.issueDot _ _ _
  | axpy _ _ _ => exact h.issueAxpy _ _
  | swap _ _ _ _ => exact h.issueSwap _ _ _ _
  | rowscale _ _ _ _ => exact h.issueRowscale _ _ _
  | gload _ _ _ _ => exact h.issueGload _ _ _
  | specialFunctionIssue _ _ _ => exact h.issueSf _ _ _
  | fadd _ _ _ => exact h.vec2 _ _ _ _
  | fsub _ _ _ => exact h.vec2 _ _ _ _
  | fmul _ _ _ => exact h.vec2 _ _ _ _
  | fma _ _ _ => exact h.vec3 _ _ _ _
  | fnma _ _ _ => unfold State.issueInstr; dsimp only; exact h.vec3 _ _ _ _
  | fdiv _ _ _ => exact h.issueFdiv _ _ _
  | fmax _ _ _ => exact h.vec2 _ _ _ _
  | fmin _ _ _ => exact h.vec2 _ _ _ _
  | fclt _ _ _ => unfold State.issueInstr; dsimp only; exact h.vec2 _ _ _ _
  | fsel _ _ _ => exact h.vec3 _ _ _ _
  | cvt _ _ _ => exact h.issueCvt _ _ _
  | iand _ _ _ => exact h.vec2 _ _ _ _
  | ior _ _ _ => exact h.vec2 _ _ _ _
  | iadd _ _ _ => exact h.vec2 _ _ _ _
  | iclt _ _ _ => unfold State.issueInstr; dsimp only; exact h.vec2 _ _ _ _
  | vld _ _ _ _ => exact h.issueVld _ _ _ _
  | vst _ _ _ _ => exact h.issueVst _ _ _ _
  | xsum _ _ _ => exact h.launchV _ _ _ _
  | bcast _ _ _ => exact h.launchV _ _ _ _
  | extr _ _ _ => exact h.issueExtr _ _
  | rsumrd _ _ _ => exact h.launchV _ _ _ _
  | rsumwr _ _ _ => exact h.launch _ _
  | laneid _ _ _ => exact h.launchV _ _ _ _
  | gfrd _ _ _ => unfold State.issueInstr; dsimp only; exact h.launchV _ _ _ _
  | add _ _ _ => exact h.scal2 _ _ _
  | sub _ _ _ => exact h.scal2 _ _ _
  | andW _ _ _ => exact h.scal2 _ _ _
  | orW _ _ _ => exact h.scal2 _ _ _
  | xorW _ _ _ => exact h.scal2 _ _ _
  | shl _ _ _ => unfold State.issueInstr; dsimp only; exact h.scal2 _ _ _
  | shr _ _ _ => unfold State.issueInstr; dsimp only; exact h.scal2 _ _ _
  | addi _ _ _ _ _ => exact h.launchS _ _ _
  | lli _ _ _ _ => exact h.launchS _ _ _
  | lui _ _ _ _ => exact h.launchS _ _ _
  | mul _ _ _ => exact h.scal2 _ _ _
  | ptset _ _ _ _ => exact h.launchX _ _ _
  | ptcfg _ _ _ _ _ _ => exact h.launchX _ _ _
  | ptrd _ _ _ _ => exact h.launchS _ _ _
  | ctset _ _ _ _ => exact h.launchX _ _ _
  | ctadd _ _ _ _ => exact h.launchX _ _ _
  | ctrd _ _ _ _ => exact h.launchS _ _ _
  | cmpset _ _ _ => exact h.issueCmpset _ _
  | repeatBody _ _ _ _ _ => exact h.issueRepeat _ _ _ _
  | call _ _ _ => exact h.issueCall _ _ _
  | ret _ _ => exact h.issueRet _
  | endTask _ _ => exact h.flow _ _
  | tepoch _ _ => exact h.launchX _ _ _
  | astg _ _ _ => exact h.issueAstg _ _
  | dset _ _ _ _ => exact h.issueDset _ _ _
  | lbpost _ _ _ _ => exact h.issueLbpost _ _ _ _
  | lbwait _ _ _ _ => exact h.issueLbwait _ _ _ _
  | lbread _ _ _ _ => exact h.issueLbread _ _ _ _
  | mbput _ _ _ _ => exact h.issueMbput _ _ _ _
  | mbtake _ _ _ _ => exact h.issueMbtake _ _ _ _
  | collectionArrival _ _ => exact h.issueCollect _
  | sgo _ _ _ _ => exact h.startEngine _ _ _
  | sadv _ _ _ _ => exact h.issueSadv _ _ _ _
  | shalt _ _ _ => exact h.issueShalt _ _ _
  | sfree _ _ _ _ => unfold State.issueInstr; dsimp only; exact h.onStarted _ _ _ ((h.freeWinSlot _ _ _).retrySteps _)
  | scopy _ _ _ _ _ => exact h.issueScopy _ _ _ _ _
  | _ => exact h

theorem Keeps.issueOne (h : Keeps s0 s) (x1 : Nat) (x2 : Nat) (x3 : Pred) (x4 : Instr) : Keeps s0 (@State.issueOne s x1 x2 x3 x4) := by
  unfold State.issueOne
  repeat' first
    | with_reducible exact h
    | with_reducible apply Keeps.flow
    | with_reducible apply Keeps.issueInstr
    | with_reducible intro _
    | split

theorem Keeps.auditOne (h : Keeps s0 s) (x1 : Nat) (x2 : Nat) (x3 : Bool) (x4 : Hazard) : Keeps s0 (@State.auditOne s x1 x2 x3 x4) := by
  grind [State.auditOne, Keeps.onArr, Keeps.raiseArr]

theorem Keeps.auditAll (h : Keeps s0 s) (x1 : Nat) (x2 : Nat) (x3 : Bool) (x4 : List Hazard) : Keeps s0 (@State.auditAll s x1 x2 x3 x4) := by
  unfold State.auditAll
  repeat' first
    | with_reducible assumption
    | with_reducible apply Keeps.auditOne
    | with_reducible apply Keeps.foldl
    | with_reducible intro _

theorem Keeps.markNew (h : Keeps s0 s) (a n : Nat) (o : Origin) : Keeps s0 (s.markNew a n o) := h.onArr a _ (fun _ hA => hA)

theorem Keeps.auditNew {t : State} (h : Keeps s0 t) (a k : Nat) : Keeps s0 (s.auditNew a k t) := by
  unfold State.auditNew
  dsimp only
  exact .ite (fun _ => ((h.drew _).markNew _ _ _).auditAll _ _ _ _) (fun _ => h)

theorem Keeps.issueAudited (h : Keeps s0 s) (a k w : Nat) (p : Pred) (i : Instr) : Keeps s0 (s.issueAudited a k w p i) := by
  unfold State.issueAudited
  exact .ite (fun _ => (((h.issueOne _ _ _ _).drew _).markNew _ _ _).auditAll _ _ _ _) (fun _ => h.issueOne _ _ _ _)

end
end Sys2Proof.Machine
end

