-- ==== Sys2Proof/Laws/KeepsBeats.lean ====
section
/-! SUPPORT. What every operation keeps (Keeps): a beat. -/
set_option Elab.async false
namespace Sys2Proof.Machine
section
variable {s0 s : State}
theorem Keeps.onAcc (h : Keeps s0 s) (x1 : Nat) (x2 : (Accs → Accs)) : Keeps s0 (@State.onAcc s x1 x2) := by
  grind [State.onAcc, Keeps.onArr]

theorem Keeps.onRegs (h : Keeps s0 s) (x1 : Nat) (x2 : (ProgRegs → ProgRegs)) : Keeps s0 (@State.onRegs s x1 x2) := by
  grind [State.onRegs, Keeps.onArr]

theorem Keeps.landBytes (h : Keeps s0 s) (a : Nat) (l : List (Nat × List Byte)) : Keeps s0 (s.landBytes a l) :=
  (h.touch _ _).onArr _ _ (fun _ hA => ArrayState.foldl_wf (fun _ c hB => ArrayState.save_wf c.1 c.2 hB) l hA)

theorem Keeps.landDelivery (h : Keeps s0 s) (x1 : Nat) (x2 : Nat) (x3 : List Nat) (x4 : Nat) (x5 : List Byte) (x6 : Option Nat) : Keeps s0 (@State.landDelivery s x1 x2 x3 x4 x5 x6) := by
  unfold State.landDelivery
  repeat' first
    | with_reducible assumption
    | with_reducible apply Keeps.onEng
    | with_reducible apply Keeps.landBytes
    | with_reducible apply Keeps.foldl
    | with_reducible intro _
    | split

theorem Keeps.landCounter (h : Keeps s0 s) (x1 : Nat) (x2 : Nat) (x3 : Word) : Keeps s0 (@State.landCounter s x1 x2 x3) := by
  unfold State.landCounter
  repeat' first
    | with_reducible exact h
    | with_reducible apply Keeps.onArr
    | (intro A hA; exact hA)

theorem Keeps.tallyOutcome (h : Keeps s0 s) (x1 : Nat) (x2 : Tally) (x3 : Nat) (x4 : Nat) (x5 : Bool) (x6 : Word) : Keeps s0 (@State.tallyOutcome s x1 x2 x3 x4 x5 x6) := by
  unfold State.tallyOutcome
  repeat' first
    | with_reducible exact h
    | with_reducible apply Keeps.onArr
    | with_reducible apply Keeps.raiseArr
    | with_reducible apply Keeps.failCheck
    | with_reducible apply Keeps.checkPoint
    | (intro A hA; exact hA)
    | split

theorem Keeps.tallyCheck (h : Keeps s0 s) (a : Nat) (o : Tally) (id row : Nat) (mv : Bool) (d : Word) :
    Keeps s0 (s.tallyCheck a o id row mv d) := by
  unfold State.tallyCheck
  exact .ite (fun _ => (h.setReg _ _ _ _).tallyOutcome _ _ _ _ _ _) (fun _ => h.tallyOutcome _ _ _ _ _ _)

theorem Keeps.checkRow (h : Keeps s0 s) (a : Nat) (d : Drain) (r : Nat) : Keeps s0 (s.checkRow a d r) :=
  h.tallyCheck _ _ _ _ _ _

theorem Keeps.sendRow (h : Keeps s0 s) (x1 : Nat) (x2 : Drain) (x3 : Nat) : Keeps s0 (@State.sendRow s x1 x2 x3) := by
  unfold State.sendRow
  dsimp only
  split
  · exact h.onAcc _ _
  · exact h.launch _ _
  · exact h.onEng _ _ _
  · exact h

theorem Keeps.drainRow (h : Keeps s0 s) (a : Nat) (r : Nat) : Keeps s0 (State.drainRow s a r) := by
  unfold State.drainRow
  try dsimp only
  repeat' first
    | with_reducible assumption
    | with_reducible exact h
    | with_reducible apply Keeps.stallOn
    | with_reducible apply Keeps.checkRow
    | with_reducible apply Keeps.sendRow
    | with_reducible apply Keeps.onAcc
    | with_reducible apply Keeps.checkUnit
    | with_reducible apply Keeps.launch
    | with_reducible apply Keeps.checkUnit
    | with_reducible apply Keeps.foldl
    | with_reducible intro _
    | split

theorem Keeps.loadRows (h : Keeps s0 s) (a : Nat) (g : Nat) (addr : Nat) (r : Nat) (got : List Word) : Keeps s0 (State.loadRows s a g addr r got) := by
  unfold State.loadRows
  try dsimp only
  repeat' first
    | with_reducible assumption
    | with_reducible exact h
    | with_reducible apply Keeps.touch
    | with_reducible apply Keeps.checkPoint
    | with_reducible apply Keeps.launch
    | with_reducible apply Keeps.checkUnit
    | with_reducible apply Keeps.onAcc
    | with_reducible apply Keeps.checkUnit
    | with_reducible apply Keeps.foldl
    | with_reducible intro _
    | split

theorem Keeps.landEval (h : Keeps s0 s) (a : Nat) (l : List Word) (b : Bool) (r : Option Nat) : Keeps s0 (s.landEval a l b r) :=
  h.onArr _ _ (fun A hA => by cases r <;> cases b <;> exact hA)

theorem Keeps.landChecked (h : Keeps s0 s) (a : Nat) (l : List (Nat × List Byte)) : Keeps s0 (s.landChecked a l) :=
  (h.landBytes _ _).checkUnit _ _

theorem Keeps.landScalar (h : Keeps s0 s) (a r : Nat) (v : Word) (b : Bool) : Keeps s0 (s.landScalar a r v b) := by
  have hr : Keeps s0 (s.onArr a fun A => A.setS r v) := h.onArr _ _ (fun A hA => by simpa using hA)
  exact .ite (fun _ => hr.checkUnit _ _) (fun _ => hr)

theorem Keeps.land (h : Keeps s0 s) (a : Nat) (f : Flight) : Keeps s0 (s.land a f) := by
  unfold State.land
  split
  · with_reducible exact h.landScalar _ _ _ _
  · with_reducible refine (h.onArr _ _ ?_).checkUnit _ _
    exact fun A hA => by simpa using hA
  · with_reducible refine (h.onArr _ _ ?_).checkUnit _ _
    exact fun A hA => by simpa using hA
  · with_reducible exact (h.landEval _ _ _ _).checkUnit _ _
  · with_reducible exact (h.landEval _ _ _ _).checkUnit _ _
  · with_reducible refine h.onArr _ _ ?_
    exact fun A hA => by simpa using hA
  · with_reducible refine h.onArr _ _ ?_
    exact fun A hA => by simpa using hA
  · with_reducible exact h.landCounter _ _ _
  · with_reducible refine h.onArr _ _ ?_
    exact fun A hA => by simpa using hA
  · with_reducible refine h.onArr _ _ ?_
    exact fun A hA => by simpa using hA
  · with_reducible exact h.onRegs _ _
  · with_reducible exact h.landChecked _ _
  · with_reducible exact ((h.noteShared _ _ _).sharedWrite _ _ _).checkUnit _ _
  · with_reducible exact (h.onRegs _ _).checkUnit _ _
  · with_reducible exact .ite (fun _ => h) (fun _ => (h.onAcc _ _).checkUnit _ _)
  · with_reducible refine (h.onArr _ _ ?_).checkUnit _ _
    exact fun A hA => hA
  · with_reducible refine (h.onArr _ _ ?_).checkUnit _ _
    exact fun A hA => hA
  · with_reducible exact .ite (fun _ => h) (fun _ => (h.onAcc _ _).checkUnit _ _)
  · with_reducible exact (h.onAcc _ _).launch _ _
  · with_reducible exact h.drainRow _ _
  · with_reducible exact h.loadRows _ _ _ _ _
  · with_reducible exact h.onRegs _ _
  · with_reducible exact (h.landDelivery _ _ _ _ _ _).checkUnit _ _
  · with_reducible exact h.onRegs _ _
  · with_reducible refine h.onArr _ _ ?_
    exact fun A hA => hA

theorem Keeps.landOne (h : Keeps s0 s) (a : Nat) (f : Flight) : Keeps s0 (s.landOne a f) := by
  have hu : Keeps s0 (s.onArr a fun A => ({ A with flight := removeFirst (fun g => decide (g = f)) A.flight } : ArrayState).noteHelper f) :=
    h.onArr _ _ (fun A hA => by rw [ArrayState.noteHelper_store]; exact hA)
  unfold State.landOne
  dsimp only
  exact .ite (fun _ => (hu.land _ _).markNew _ _ _) (fun _ => hu.land _ _)

theorem Keeps.landFirst (h : Keeps s0 s) (a : Nat) (p : Flight → Bool) : ∀ u, s.landFirst a p = some u → Keeps s0 u := by
  intro u hu
  obtain ⟨f, _, rfl⟩ := Option.map_eq_some_iff.1 hu
  exact h.landOne _ _

theorem Keeps.landAllDue (n a : Nat) (p : Flight → Bool) (h : Keeps s0 s) : Keeps s0 (s.landAllDue n a p) := by
  induction n generalizing s with
  | zero => exact h
  | succ n ih =>
    unfold State.landAllDue
    split
    · exact h
    · exact ih (h.landFirst _ _ _ ‹_›)

theorem Keeps.landEarly (h : Keeps s0 s) (x1 : Nat) : Keeps s0 (@State.landEarly s x1) := by
  grind [State.landEarly, Keeps.landAllDue]

theorem Keeps.landLate (h : Keeps s0 s) (x1 : Nat) : Keeps s0 (@State.landLate s x1) := by
  grind [State.landLate, Keeps.landAllDue]

theorem Keeps.auditHeld (h : Keeps s0 s) (a : Nat) (l : List (Part × Hazard)) : Keeps s0 (s.auditHeld a l) := by
  unfold State.auditHeld
  exact Keeps.onArr (h.foldl _ (fun _ _ hu => hu.auditOne _ _ _ _)) _ _ (fun _ hA => hA)

theorem Keeps.issueRow (h : Keeps s0 s) (x1 : Nat) (x2 : Instr) : Keeps s0 (@State.issueRow s x1 x2) := by
  grind [State.issueRow, Keeps.onArr, Keeps.auditHeld, Keeps.issueAudited, Keeps.landEarly]

theorem Keeps.landRow (h : Keeps s0 s) (a : Nat) (p : Landing → Bool) : Keeps s0 (s.landRow a p) := by
  refine .ite (fun _ => h) (fun _ => ?_)
  cases e : s.landFirst a (fun f => p f.op) with
  | none => exact h
  | some u => exact h.landFirst _ _ _ e

theorem Keeps.issuePart (h : Keeps s0 s) (x1 : Nat) (x2 : Part × Nat × SlotOp) : Keeps s0 (@State.issuePart s x1 x2) := by
  grind [State.issuePart, Keeps.deadLetter, Keeps.issueAudited]

theorem Keeps.issueParts (h : Keeps s0 s) (a : Nat) (l : List (Part × Nat × SlotOp)) : Keeps s0 (s.issueParts a l) :=
  h.foldl l (fun _ _ hu => hu.issuePart _ _)

theorem Keeps.deliverWords (h : Keeps s0 s) (a : Nat) : Keeps s0 (s.deliverWords a) := by
  unfold State.deliverWords
  exact h.onArr _ _ (fun _ hA => hA)

theorem Keeps.markFetched (h : Keeps s0 s) (a n : Nat) : Keeps s0 (s.markFetched a n) :=
  (h.checkUnit _ _).onArr _ _ (fun _ hA => hA)

theorem Keeps.retry (h : Keeps s0 s) (a : Nat) (x : Stalled) : ∀ u, s.retry a x = some u → Keeps s0 u := by
  intro u hu
  cases x with
  | feederRead b d k =>
    unfold State.retry at hu; dsimp only at hu; split at hu
    · exact Option.some.inj hu ▸ h.feederGo _ _ _ _
    · cases hu
  | dotRead f =>
    unfold State.retry at hu; dsimp only at hu; split at hu
    · exact Option.some.inj hu ▸ h.dotGo _ _
    · cases hu
  | axpyRead f =>
    unfold State.retry at hu; dsimp only at hu; split at hu
    · exact Option.some.inj hu ▸ h.axpyGo _ _
    · cases hu
  | drainOut e r =>
    unfold State.retry at hu; dsimp only at hu; split at hu
    · cases hu
    · exact Option.some.inj hu ▸ h.drainRow _ _
  | outbound e => exact Option.some.inj hu ▸ h
  | atomic e => exact Option.some.inj hu ▸ h
  | nextBase e => exact Option.some.inj hu ▸ h
  | staging => cases hu
  | lbWait o v =>
    unfold State.retry at hu; dsimp only at hu; split at hu
    · exact Option.some.inj hu ▸ h
    · cases hu
  | mbTake o sd =>
    obtain ⟨w, hw, rfl⟩ := Option.map_eq_some_iff.1 hu
    exact (h.takeGo _ _ _ _ hw).auditNew _ _
  | mbPut o v => exact h.putGo _ _ _ _ hu
  | arrive =>
    unfold State.retry at hu; dsimp only at hu; split at hu
    · cases hu
    · exact Option.some.inj hu ▸ h

theorem Keeps.oneStep (h : Keeps s0 s) (a e : Nat) : Keeps s0 (s.oneStep a e) := by
  unfold State.oneStep
  dsimp only
  split
  · exact (h.engineStep _ _).stallOn _ _
  · exact (h.engineStep _ _).settleHalt _ _

theorem Keeps.upToMove (h : Keeps s0 s) (a e : Nat) : Keeps s0 (s.upToMove a e) := by
  have hb := h.between streamFuel a e true
  unfold State.upToMove
  dsimp only
  split
  · exact hb.stallOn _ _
  · exact hb

theorem Keeps.engineAgain (h : Keeps s0 s) (a e : Nat) (x : Stalled) : Keeps s0 (s.engineAgain a e x) := by
  unfold State.engineAgain
  refine .ite (fun _ => ?_) (fun _ => (h.engineSteps _ _ _).auditNew _ _)
  split
  · exact h.upToMove _ _
  · exact h.oneStep _ _

theorem Keeps.enginesAgain (h : Keeps s0 s) (a : Nat) (l : List Stalled) : Keeps s0 (s.enginesAgain a l) := by
  refine h.foldl _ (fun u x hu => ?_)
  split
  · exact hu.engineAgain _ _ _
  · exact hu

theorem Keeps.foldlSome {β : Type} {f : State → β → Option State} (l : List β) (r : Option State)
    (hr : ∀ u, r = some u → Keeps s0 u) (hf : ∀ u x, Keeps s0 u → ∀ v, f u x = some v → Keeps s0 v) :
    ∀ u, l.foldl (fun r x => r.bind (fun t => f t x)) r = some u → Keeps s0 u := by
  induction l generalizing r with
  | nil => exact hr
  | cons x l ih =>
    refine ih _ (fun u hu => ?_)
    obtain ⟨w, hw, hu⟩ := Option.bind_eq_some_iff.1 hu
    exact hf w x (hr w hw) u hu

theorem Keeps.stallsSet (h : Keeps s0 s) (a : Nat) (m : List Stalled) :
    Keeps s0 (s.onArr a fun A => { A with stalled := m }) := h.onArr _ _ (fun _ hA => hA)

theorem Keeps.retryStalls (h : Keeps s0 s) (a : Nat) : Keeps s0 (s.retryStalls a) := by
  unfold State.retryStalls
  dsimp only
  split
  · exact h
  · rename_i t ht
    have ht := Keeps.foldlSome _ _ (fun u hu => Option.some.inj hu ▸ h.stallsSet a []) (fun u x hu => hu.retry a x) t ht
    exact .ite (fun _ => ht.enginesAgain _ _) (fun _ => (h.stallsSet _ _).enginesAgain _ _)

theorem Keeps.freezeOne (h : Keeps s0 s) (x1 : Nat) : Keeps s0 (@State.freezeOne s x1) := by
  unfold State.freezeOne
  repeat' first
    | with_reducible assumption
    | with_reducible apply Keeps.onArr
    | with_reducible apply Keeps.chargeFrozen
    | with_reducible apply Keeps.raiseArr
    | with_reducible apply Keeps.ite
    | with_reducible intro _

theorem Keeps.makeKnown (h : Keeps s0 s) (a : Nat) (x : Stalled) : Keeps s0 (s.makeKnown a x) := by
  unfold State.makeKnown
  split
  · exact h.bagWaitTake _ _
  · exact h.bagWaitPut _ _
  · refine .ite (fun _ => h) (fun _ => (h.arriveAt _).onArr _ _ ?_)
    exact fun _ hA => hA
  · exact h

theorem Keeps.freezeFor (h : Keeps s0 s) (a : Nat) (l : List Stalled) (b : Bool) : Keeps s0 (s.freezeFor a l b) := by
  unfold State.freezeFor
  with_reducible refine ((h.foldl _ ?_).onArr _ _ ?_).freezeOne _
  · exact fun _ _ hu => hu.makeKnown _ _
  · exact fun _ hA => hA

theorem Keeps.freezeOn (h : Keeps s0 s) (t : State) (a : Nat) : Keeps s0 (s.freezeOn t a) := h.freezeFor _ _ _

theorem Keeps.slipBegin (h : Keeps s0 s) (a : Nat) : Keeps s0 (s.slipBegin a) := by
  unfold State.slipBegin
  dsimp only
  have h1 := (h.onArr a (fun A => { A with slip := true }) (fun _ hA => hA)).raiseArr .time 1 a
  split
  · exact (h1.drew _).logFault _
  · exact h1

theorem Keeps.helperChecks (h : Keeps s0 s) (a r : Nat) : Keeps s0 (s.helperChecks a r) := by
  unfold State.helperChecks
  repeat' first
    | with_reducible exact h
    | with_reducible apply Keeps.checkUnit
    | with_reducible apply Keeps.checkPoint
    | with_reducible apply Keeps.ite
    | with_reducible intro _
    | dsimp only

theorem Keeps.helperResult (h : Keeps s0 s) (a : Nat) (x : Option Nat) : Keeps s0 (s.helperResult a x) := by
  cases x with
  | none => exact h
  | some r =>
    unfold State.helperResult
    dsimp only
    refine ((h.helperChecks _ _).onArr _ _ (fun A hA => ?_)).drew _
    dsimp only
    split
    · exact ArrayState.helperFree_wf _ _ _ hA
    · exact ArrayState.helperDone_wf _ hA

theorem Keeps.lateSwap (h : Keeps s0 s) (a : Nat) : Keeps s0 (s.lateSwap a) := (h.drew _).deadLetter _ _ _ _

theorem Keeps.helperStart (h : Keeps s0 s) (a : Nat) : Keeps s0 (s.helperStart a) := by
  unfold State.helperStart
  dsimp only
  split
  · exact .ite (fun _ => h) (fun _ => Keeps.onArr (.ite (fun _ => h.lateSwap _) (fun _ => h)) _ _ (fun _ hA => hA))
  · exact h

theorem Keeps.completeBeat (h : Keeps s0 s) (a : Nat) : Keeps s0 (s.completeBeat a) := by
  unfold State.completeBeat
  extract_lets run s1 s2 s3 s4
  have h1 : Keeps s0 s1 := h.helperResult _ _
  clear_value s1
  have h2 : Keeps s0 s2 := h1.onArr _ _ (fun A hA => by dsimp only; simpa using hA)
  clear_value s2
  have h3 : Keeps s0 s3 := h2.deliverWords _
  clear_value s3
  have h4 : Keeps s0 s4 := .ite (fun _ => (h3.chargeBeats _ _ _).onTask _ _) (fun _ => h3)
  clear_value s4
  split
  · exact (h4.beginAbandon _ _).runPosts _
  · exact h4.runPosts _

theorem Keeps.holdBeat (h : Keeps s0 s) (a : Nat) : Keeps s0 (s.holdBeat a) := by
  unfold State.holdBeat
  extract_lets s1 s2
  have h1 : Keeps s0 s1 := h.onArr _ _ (fun A hA => by dsimp only; simpa using hA)
  clear_value s1
  have h2 : Keeps s0 s2 := .ite (fun _ => h1.chargeFrozen _ _ _) (fun _ => h1)
  clear_value s2
  split
  · exact h2.beginAbandon _ _
  · exact h2

/-- What fetching leaves. -/
def Fetch.Keeps (s0 : State) (x : Fetch) : Prop :=
  match x with
  | .hold u => Sys2Proof.Machine.Keeps s0 u
  | .halt u => Sys2Proof.Machine.Keeps s0 u
  | _ => True

theorem Fetch.Keeps.ite {c : Prop} [Decidable c] {x y : Fetch} (hx : c → Fetch.Keeps s0 x) (hy : ¬ c → Fetch.Keeps s0 y) :
    Fetch.Keeps s0 (if c then x else y) := by
  split
  · exact hx ‹_›
  · exact hy ‹_›

theorem Keeps.fetch (h : Keeps s0 s) (a : Nat) : Fetch.Keeps s0 (s.fetch a) := by
  unfold State.fetch
  dsimp only
  refine .ite (fun _ => trivial) (fun _ => .ite (fun _ => trivial) (fun _ => .ite (fun _ => ?_) (fun _ => ?_)))
  · refine Keeps.raiseArr (h.onArr _ _ ?_) _ _ _
    exact fun _ hA => hA
  · split
    · trivial
    · refine .ite (fun _ => trivial) (fun _ => .ite (fun _ => ?_) (fun _ => trivial))
      exact h.auditHeld _ _

theorem Keeps.endBeat (h : Keeps s0 s) (a : Nat) : Keeps s0 (s.endBeat a) := ((h.retrySteps _).auditNew _ _).landLate _

theorem Keeps.holdOrFreeze (h : Keeps s0 s) (a : Nat) : Keeps s0 (s.holdOrFreeze a) := by
  unfold State.holdOrFreeze
  dsimp only
  exact .ite (fun _ => (h.landLate _).holdBeat _) (fun _ => h.freezeOn _ _)

theorem Keeps.streamFirst (h : Keeps s0 s) (a : Nat) (l : List (Part × Nat × SlotOp)) : Keeps s0 (s.streamFirst a l) := by
  unfold State.streamFirst
  dsimp only
  with_reducible refine (((h.issueParts _ _).retrySteps _).auditNew _ _).onArr _ _ ?_
  exact fun _ hA => hA

theorem Keeps.tryBeat (h : Keeps s0 s) (a : Nat) (l : List (Part × Nat × SlotOp)) (mark : State → State)
    (hm : ∀ u, Keeps s0 u → Keeps s0 (mark u)) : Keeps s0 (s.tryBeat a l mark) := by
  unfold State.tryBeat
  dsimp only
  exact .ite (fun _ => (((hm _ h).issueParts _ _).endBeat _).completeBeat _)
    (fun _ => .ite (fun _ => (h.streamFirst _ _).freezeFor _ _ _) (fun _ => h.freezeOn _ _))

theorem Keeps.wave (h : Keeps s0 s) (a : Nat) : Keeps s0 (s.wave a) := by
  unfold State.wave
  dsimp only
  have h1 : Keeps s0 ((s.landEarly a).helperStart a) := (h.landEarly a).helperStart a
  generalize (s.landEarly a).helperStart a = s1 at h1 ⊢
  refine .ite (fun _ => h1.holdOrFreeze _) (fun _ => ?_)
  have h2 := h1.fetch a
  generalize s1.fetch a = x at h2 ⊢
  cases x with
  | idle => exact h1.tryBeat _ _ _ (fun _ hu => hu)
  | bundle l n => exact h1.tryBeat _ _ _ (fun _ hu => hu.markFetched _ _)
  | hold u => exact Keeps.holdOrFreeze h2 _
  | halt u => exact Keeps.freezeOne h2 _
  | late => exact (h1.slipBegin _).freezeOne _

theorem Keeps.beat (h : Keeps s0 s) (a : Nat) : Keeps s0 (s.beat a) := by
  unfold State.beat
  dsimp only
  exact .ite (fun _ => h) (fun _ => .ite (fun _ => h.freezeOne _) (fun _ => .ite (fun _ => (h.retryStalls _).wave _)
    (fun _ => (h.retryStalls _).freezeOne _)))

theorem Keeps.frozenComplete (h : Keeps s0 s) (a : Nat) : Keeps s0 (s.frozenComplete a) := by
  unfold State.frozenComplete
  dsimp only
  exact .ite (fun _ => h) (fun _ => .ite (fun _ => h.beat _) (fun _ => h))

end
end Sys2Proof.Machine
end

