-- ==== Sys2Proof/Laws/KeepsArrayRows.lean ====
section
/-! SUPPORT. What every operation keeps (Keeps): the landing rows of an array. -/
set_option Elab.async false
namespace Sys2Proof.Machine
section
variable {s0 s : State}
theorem Keeps.freezeLong (h : Keeps s0 s) (x1 : Nat) : Keeps s0 (@State.freezeLong s x1) := by
  grind [State.freezeLong, Keeps.onArr, Keeps.chargeFrozen, Keeps.raiseArr]

theorem Keeps.waitRow (h : Keeps s0 s) (x1 : Nat) (x2 : Nat) : Keeps s0 (@State.waitRow s x1 x2) := by
  unfold State.waitRow
  exact .ite (fun _ => ((h.landEarly _).checkUnit _ _).onArr _ _ (fun _ hA => hA)) (fun _ => h.landEarly _)

theorem Keeps.landOrdered (h : Keeps s0 s) (x1 : Nat) (x2 : (Landing → Bool)) : Keeps s0 (@State.landOrdered s x1 x2) := by
  grind [State.landOrdered, Keeps.landAllDue, Keeps.landRow]

theorem Keeps.closeQuery (h : Keeps s0 s) (x1 : Nat) (x2 : Nat) : Keeps s0 (@State.closeQuery s x1 x2) := by
  unfold State.closeQuery
  dsimp only
  refine Keeps.onArr ((h.checkUnit _ _).tallyCheck _ _ _ _ _ _) _ _ ?_
  exact fun _ hA => hA

theorem Keeps.moveRow (h : Keeps s0 s) (x1 : Nat) (x2 : Nat) : Keeps s0 (@State.moveRow s x1 x2) := by
  grind [State.moveRow, Keeps.oneStep]

theorem Keeps.nextBaseRow (h : Keeps s0 s) (x1 : Nat) (x2 : Nat) : Keeps s0 (@State.nextBaseRow s x1 x2) := by
  grind [State.nextBaseRow, Keeps.upToMove]

theorem Keeps.postRow (h : Keeps s0 s) (x1 : Nat) (x2 : Nat) : Keeps s0 (@State.postRow s x1 x2) := by
  grind [State.postRow, Keeps.between, Keeps.enginePosts]

theorem Keeps.landDeliveries (h : Keeps s0 s) (x1 : Nat) : Keeps s0 (@State.landDeliveries s x1) := by
  grind [State.landDeliveries, Keeps.landAllDue]

theorem Keeps.wordLate (h : Keeps s0 s) (a : Nat) : Keeps s0 (State.wordLate s a) := by
  unfold State.wordLate
  try dsimp only
  repeat' first
    | with_reducible assumption
    | with_reducible exact h
    | with_reducible refine Keeps.onArr ?_ _ _ (fun _ hA => hA)
    | with_reducible apply Keeps.slipBegin
    | with_reducible apply Keeps.foldl
    | with_reducible intro _
    | split

theorem Keeps.deliveryRow (h : Keeps s0 s) (a : Nat) (arrived : Bool) : Keeps s0 (State.deliveryRow s a arrived) := by
  unfold State.deliveryRow
  try dsimp only
  repeat' first
    | with_reducible assumption
    | with_reducible exact h
    | with_reducible refine Keeps.onArr ?_ _ _ (fun _ hA => hA)
    | with_reducible apply Keeps.landDeliveries
    | with_reducible apply Keeps.deliverWords
    | with_reducible apply Keeps.slipBegin
    | with_reducible apply Keeps.wordLate
    | with_reducible apply Keeps.foldl
    | with_reducible intro _
    | split

end
end Sys2Proof.Machine
end

