-- ==== Sys2Proof/Laws/KeepsWork.lean ====
section
/-! SUPPORT. What every operation keeps (Keeps): the steps of a cache command. -/
set_option Elab.async false
namespace Sys2Proof.Machine
section
variable {s0 : State}

/-- A cache command's work so far: both of its states keep what `Keeps` says. -/
structure Work.Keeps (s0 : State) (w : Work) : Prop where
  data : Sys2Proof.Machine.Keeps s0 w.data
  pub : Sys2Proof.Machine.Keeps s0 w.pub

/-- What a step of a cache command leaves, by its result's work or by its error's. -/
def CM.Keeps {α : Type} (s0 : State) (P : α → Prop) (x : CM α) : Prop :=
  match x with
  | .ok a => P a
  | .error e => e.2.Keeps s0

/-- The work in a result of one, two or three parts. -/
def Work.K1 (s0 : State) (w : Work) : Prop := w.Keeps s0
def Work.K2 {α : Type} (s0 : State) (r : α × Work) : Prop := r.2.Keeps s0
def Work.K3 {α β : Type} (s0 : State) (r : α × β × Work) : Prop := r.2.2.Keeps s0

theorem CM.Keeps.bind {α β : Type} {P : α → Prop} {Q : β → Prop} {x : CM α} {f : α → CM β} (hx : CM.Keeps s0 P x)
    (hf : ∀ a, P a → CM.Keeps s0 Q (f a)) : CM.Keeps s0 Q (x >>= f) := by
  cases x with
  | ok a => exact hf a hx
  | error e => exact hx
theorem CM.Keeps.bind1 {β : Type} {Q : β → Prop} {x : CM Work} {f : Work → CM β} (hx : CM.Keeps s0 (Work.K1 s0) x)
    (hf : ∀ w, w.Keeps s0 → CM.Keeps s0 Q (f w)) : CM.Keeps s0 Q (x >>= f) := hx.bind hf
theorem CM.Keeps.bind2 {α β : Type} {Q : β → Prop} {x : CM (α × Work)} {f : α × Work → CM β}
    (hx : CM.Keeps s0 (Work.K2 s0) x) (hf : ∀ a w, w.Keeps s0 → CM.Keeps s0 Q (f (a, w))) : CM.Keeps s0 Q (x >>= f) :=
  hx.bind (fun r hr => hf r.1 r.2 hr)
theorem CM.Keeps.bind3 {α γ β : Type} {Q : β → Prop} {x : CM (α × γ × Work)} {f : α × γ × Work → CM β}
    (hx : CM.Keeps s0 (Work.K3 s0) x) (hf : ∀ a c w, w.Keeps s0 → CM.Keeps s0 Q (f (a, c, w))) : CM.Keeps s0 Q (x >>= f) :=
  hx.bind (fun r hr => hf r.1 r.2.1 r.2.2 hr)
theorem CM.Keeps.ite {α : Type} {P : α → Prop} {c : Prop} [Decidable c] {x y : CM α} (hx : c → CM.Keeps s0 P x)
    (hy : ¬ c → CM.Keeps s0 P y) : CM.Keeps s0 P (if c then x else y) := by
  split
  · exact hx ‹_›
  · exact hy ‹_›
theorem CM.Keeps.ok {α : Type} {P : α → Prop} {a : α} (h : P a) : CM.Keeps s0 P (.ok a) := h
theorem CM.Keeps.ok1 {w : Work} (h : w.Keeps s0) : CM.Keeps s0 (Work.K1 s0) (.ok w) := h
theorem CM.Keeps.ok2 {α : Type} {a : α} {w : Work} (h : w.Keeps s0) : CM.Keeps s0 (Work.K2 s0) (.ok (a, w)) := h
theorem CM.Keeps.ok3 {α β : Type} {a : α} {b : β} {w : Work} (h : w.Keeps s0) : CM.Keeps s0 (Work.K3 s0) (.ok (a, b, w)) := h
theorem CM.Keeps.fail {α : Type} {P : α → Prop} {w : Work} (h : w.Keeps s0) (st : Nat) :
    CM.Keeps s0 P (w.fail st : CM α) := h
theorem CM.Keeps.foldlM {α β : Type} {P : α → Prop} {f : α → β → CM α} (l : List β) {a : α} (h : P a)
    (hf : ∀ a x, P a → CM.Keeps s0 P (f a x)) : CM.Keeps s0 P (l.foldlM f a) := by
  induction l generalizing a with
  | nil => exact h
  | cons x r ih =>
    rw [List.foldlM_cons]
    exact (hf a x h).bind (fun b hb => ih hb)
theorem CM.Keeps.fold1 {β : Type} {f : Work → β → CM Work} (l : List β) {w : Work} (h : w.Keeps s0)
    (hf : ∀ w x, w.Keeps s0 → CM.Keeps s0 (Work.K1 s0) (f w x)) : CM.Keeps s0 (Work.K1 s0) (l.foldlM f w) := .foldlM l h hf
theorem CM.Keeps.fold2 {α β : Type} {f : α × Work → β → CM (α × Work)} (l : List β) {a : α} {w : Work} (h : w.Keeps s0)
    (hf : ∀ a w x, w.Keeps s0 → CM.Keeps s0 (Work.K2 s0) (f (a, w) x)) : CM.Keeps s0 (Work.K2 s0) (l.foldlM f (a, w)) :=
  .foldlM l h (fun r x hr => hf r.1 r.2 x hr)
theorem CM.Keeps.fold3 {α γ β : Type} {f : α × γ × Work → β → CM (α × γ × Work)} (l : List β) {a : α} {c : γ} {w : Work} (h : w.Keeps s0)
    (hf : ∀ a c w x, w.Keeps s0 → CM.Keeps s0 (Work.K3 s0) (f (a, c, w) x)) :
    CM.Keeps s0 (Work.K3 s0) (l.foldlM f (a, c, w)) :=
  .foldlM l h (fun r x hr => hf r.1 r.2.1 r.2.2 x hr)

theorem Work.Keeps.ite {c : Prop} [Decidable c] {v w : Work} (hv : c → v.Keeps s0) (hw : ¬ c → w.Keeps s0) :
    Work.Keeps s0 (if c then v else w) := by
  split
  · exact hv ‹_›
  · exact hw ‹_›
theorem Work.Keeps.setReg {w : Work} (h : w.Keeps s0) (f : FieldSpec) (v : Nat) : (w.setReg f v).Keeps s0 :=
  ⟨h.data, h.pub.setReg _ _ _ _⟩
theorem Work.Keeps.chargeAt {w : Work} (h : w.Keeps s0) (a n : Nat) : (w.chargeAt a n).Keeps s0 :=
  ⟨h.data.chargeRead _ _ _, h.pub.chargeRead _ _ _⟩
/-- A change of the records beside the two states. -/
theorem Work.Keeps.other {w : Work} (h : w.Keeps s0) {pool : Pool} {seq : Nat} {rel : List (Nat × Nat)} {changed : List Nat}
    {sat : Nat} {satEv : Bool} {reads : List Nat} {rows : List (Nat × Nat × Bool)} {writes : List (Nat × Nat)}
    {badRead badRow : Option Nat} :
    Work.Keeps s0 ⟨w.data, w.pub, pool, seq, rel, changed, sat, satEv, reads, rows, writes, badRead, badRow⟩ := ⟨h.data, h.pub⟩
theorem Work.Keeps.rewrites {w : Work} (h : w.Keeps s0) (x npl pos n : Nat) : (w.rewrites x npl pos n).Keeps s0 :=
  ⟨h.data.markStale _ _ _ _, h.pub.markStale _ _ _ _⟩
theorem Work.Keeps.endsDrafts {w : Work} (h : w.Keeps s0) (pos n : Nat) : (w.endsDrafts pos n).Keeps s0 :=
  ⟨h.data.markStale _ _ _ _, h.pub.markStale _ _ _ _⟩
theorem Work.Keeps.foldl {β : Type} {f : Work → β → Work} (l : List β) {w : Work} (h : w.Keeps s0)
    (hf : ∀ w x, w.Keeps s0 → (f w x).Keeps s0) : (l.foldl f w).Keeps s0 := by
  induction l generalizing w with
  | nil => exact h
  | cons x r ih => exact ih (hf w x h)

theorem Work.Keeps.noteRead {w : Work} (h : w.Keeps s0) (a n : Nat) : CM.Keeps s0 (Work.K1 s0) (w.noteRead a n) :=
  .ite (fun _ => .fail (h.chargeAt _ _).other _) (fun _ => .ok1 (h.chargeAt _ _).other)
theorem Work.Keeps.noteRow {w u : Work} (h : w.Keeps s0) (hu : u.Keeps s0) (a n : Nat) (b : Bool) :
    CM.Keeps s0 (Work.K1 s0) (w.noteRow u a n b) := .ite (fun _ => .fail h.other _) (fun _ => .ok1 hu.other)
theorem Work.Keeps.rdBytes {w : Work} (h : w.Keeps s0) (a n : Nat) : CM.Keeps s0 (Work.K2 s0) (w.rdBytes a n) :=
  .ite (fun _ => .bind1 (h.noteRow (h.chargeAt _ _) _ _ _) (fun _ hw => .ok2 hw)) (fun _ => .fail h _)
theorem Work.Keeps.rd {w : Work} (h : w.Keeps s0) (a n : Nat) : CM.Keeps s0 (Work.K2 s0) (w.rd a n) :=
  .ite (fun _ => .bind1 (h.noteRead _ _) (fun _ hw => .ok2 hw)) (fun _ => .fail h _)
theorem Work.Keeps.wr {w : Work} (h : w.Keeps s0) (a : Nat) (bs : List Byte) : CM.Keeps s0 (Work.K1 s0) (w.wr a bs) :=
  .ite (fun _ => .ok1 ⟨h.data, h.pub.writeMem _ _ _⟩) (fun _ => .fail h _)
theorem Work.Keeps.wrRow {w : Work} (h : w.Keeps s0) (a : Nat) (bs : List Byte) : CM.Keeps s0 (Work.K1 s0) (w.wrRow a bs) :=
  .ite (fun _ => h.noteRow ⟨h.data.writeMem _ _ _, h.pub.writeMem _ _ _⟩ _ _ _) (fun _ => .fail h _)
theorem Work.Keeps.clear {w : Work} (h : w.Keeps s0) (a n : Nat) : CM.Keeps s0 (Work.K1 s0) (w.clear a n) :=
  .ite (fun _ => .ok1 ⟨h.data, h.pub.clearMem _ _ _⟩) (fun _ => .fail h _)
theorem Work.Keeps.takeNode {w : Work} (h : w.Keeps s0) : CM.Keeps s0 (Work.K2 s0) w.takeNode := by
  unfold Work.takeNode
  dsimp only
  refine .ite (fun _ => .fail h _) (fun _ => .bind2 (h.rd _ _) (fun n w hw => ?_))
  exact .bind1 (hw.clear _ _) (fun w hw => .ok2 ((hw.setReg _ _).setReg _ _))

theorem Work.Keeps.pushNode {w : Work} (h : w.Keeps s0) (n : Nat) : CM.Keeps s0 (Work.K1 s0) (w.pushNode n) := by
  unfold Work.pushNode
  repeat' first
    | with_reducible assumption
    | with_reducible apply CM.Keeps.ok1
    | with_reducible apply Work.Keeps.wr
    | with_reducible apply Work.Keeps.setReg
    | with_reducible apply CM.Keeps.bind1
    | with_reducible intro _

theorem Work.Keeps.fte {w : Work} (h : w.Keeps s0) (f : Nat) : CM.Keeps s0 (Work.K2 s0) (w.fte f) := by
  unfold Work.fte
  repeat' first
    | with_reducible assumption
    | with_reducible apply CM.Keeps.ok2
    | with_reducible apply Work.Keeps.rd
    | with_reducible apply CM.Keeps.bind2
    | with_reducible intro _

theorem Work.Keeps.setFte {w : Work} (h : w.Keeps s0) (f : Nat) (e : Fte) : CM.Keeps s0 (Work.K1 s0) (w.setFte f e) := by
  unfold Work.setFte
  repeat' first
    | with_reducible assumption
    | with_reducible apply Work.Keeps.wr

theorem Work.Keeps.takeFrame {w : Work} (h : w.Keeps s0)  : CM.Keeps s0 (Work.K2 s0) (w.takeFrame) := by
  unfold Work.takeFrame
  repeat' first
    | with_reducible assumption
    | with_reducible apply CM.Keeps.ok2
    | with_reducible apply CM.Keeps.fail
    | with_reducible apply Work.Keeps.fte
    | with_reducible apply Work.Keeps.setFte
    | with_reducible apply Work.Keeps.setReg
    | with_reducible apply CM.Keeps.bind1
    | with_reducible apply CM.Keeps.bind2
    | with_reducible apply CM.Keeps.ite
    | with_reducible intro _

theorem Work.Keeps.fence {w : Work} (h : w.Keeps s0) (f : Nat) : CM.Keeps s0 (Work.K1 s0) (w.fence f) := by
  unfold Work.fence
  repeat' first
    | with_reducible assumption
    | with_reducible apply CM.Keeps.ok1
    | with_reducible apply Work.Keeps.fte
    | with_reducible apply Work.Keeps.setFte
    | with_reducible apply Work.Keeps.other
    | with_reducible apply CM.Keeps.bind1
    | with_reducible apply CM.Keeps.bind2
    | with_reducible intro _

theorem Work.Keeps.release {w : Work} (h : w.Keeps s0) (f : Nat) : CM.Keeps s0 (Work.K1 s0) (w.release f) := by
  unfold Work.release
  refine .bind2 (h.fte _) (fun e w hw => ?_)
  extract_lets retire
  refine .bind1 (hw.setFte _ _) (fun w hw => ?_)
  extract_lets v
  have hv : v.Keeps s0 := .ite (fun _ => hw.setReg _ _) (fun _ => hw)
  exact .ok1 hv.other

theorem Work.Keeps.desc {w : Work} (h : w.Keeps s0) (seq : Nat) : CM.Keeps s0 (Work.K2 s0) (w.desc seq) := by
  unfold Work.desc
  repeat' first
    | with_reducible assumption
    | with_reducible apply CM.Keeps.ok2
    | with_reducible apply CM.Keeps.fail
    | with_reducible apply Work.Keeps.rd
    | with_reducible apply CM.Keeps.ite
    | with_reducible apply CM.Keeps.bind2
    | with_reducible intro _
    | dsimp only

theorem Work.Keeps.setDesc {w : Work} (h : w.Keeps s0) (seq : Nat) (d : Dsc) (c : BitVec 512) : CM.Keeps s0 (Work.K1 s0) (w.setDesc seq d c) := by
  unfold Work.setDesc
  repeat' first
    | with_reducible assumption
    | with_reducible apply Work.Keeps.wr

theorem Work.Keeps.pte {w : Work} (h : w.Keeps s0) (d : Dsc) (n : Nat) : CM.Keeps s0 (Work.K2 s0) (w.pte d n) := by
  unfold Work.pte
  extract_lets r
  refine .bind1 (.fold1 _ h (fun _ _ hw => hw.noteRead _ _)) (fun w hw => ?_)
  exact .ite (fun _ => .ok2 hw) (fun _ => .ite (fun _ => .fail hw _) (fun _ => .ok2 hw))

theorem Work.Keeps.setPte {w : Work} (h : w.Keeps s0) (d : Dsc) (n : Nat) (e : Option (Nat × Bool × Bool)) : CM.Keeps s0 (Work.K2 s0) (w.setPte d n e) := by
  unfold Work.setPte
  repeat' first
    | with_reducible assumption
    | with_reducible apply CM.Keeps.ok2
    | with_reducible apply CM.Keeps.ok3
    | with_reducible apply CM.Keeps.fail
    | with_reducible apply Work.Keeps.rd
    | with_reducible apply Work.Keeps.wr
    | with_reducible apply Work.Keeps.takeNode
    | with_reducible apply Work.Keeps.other
    | with_reducible apply CM.Keeps.bind1
    | with_reducible apply CM.Keeps.bind2
    | with_reducible apply CM.Keeps.bind3
    | with_reducible apply CM.Keeps.ite
    | with_reducible intro _

theorem Work.Keeps.trailer {w : Work} (h : w.Keeps s0) (f plane : Nat) : CM.Keeps s0 (Work.K2 s0) (w.trailer f plane) :=
  .bind2 (h.rdBytes _ _) (fun _ _ hw => .ok2 hw)

theorem Work.Keeps.setTrailer {w : Work} (h : w.Keeps s0) (f plane : Nat) (x : Trailer) : CM.Keeps s0 (Work.K1 s0) (w.setTrailer f plane x) := by
  unfold Work.setTrailer
  repeat' first
    | with_reducible assumption
    | with_reducible apply Work.Keeps.wrRow

theorem Work.Keeps.freshTrailers {w : Work} (h : w.Keeps s0) (f page : Nat) : CM.Keeps s0 (Work.K1 s0) (w.freshTrailers f page) := by
  unfold Work.freshTrailers
  repeat' first
    | with_reducible assumption
    | with_reducible apply Work.Keeps.setTrailer
    | with_reducible apply CM.Keeps.fold1
    | with_reducible intro _

theorem Work.Keeps.copyFrame {w : Work} (h : w.Keeps s0) (old new : Nat) : CM.Keeps s0 (Work.K1 s0) (w.copyFrame old new) := by
  unfold Work.copyFrame
  repeat' first
    | with_reducible assumption
    | with_reducible apply Work.Keeps.rdBytes
    | with_reducible apply Work.Keeps.wrRow
    | with_reducible apply CM.Keeps.fold1
    | with_reducible apply CM.Keeps.bind2
    | with_reducible intro _

theorem Work.Keeps.inPlace {w : Work} (h : w.Keeps s0) (f : Nat) : CM.Keeps s0 (Work.K2 s0) (w.inPlace f) := by
  unfold Work.inPlace
  repeat' first
    | with_reducible assumption
    | with_reducible apply CM.Keeps.ok2
    | with_reducible apply Work.Keeps.fte
    | with_reducible apply CM.Keeps.bind2
    | with_reducible intro _

theorem Work.Keeps.copyPage {w : Work} (h : w.Keeps s0) (d : Dsc) (n old : Nat) (draft : Bool) : CM.Keeps s0 (Work.K3 s0) (w.copyPage d n old draft) := by
  unfold Work.copyPage
  repeat' first
    | with_reducible assumption
    | with_reducible apply CM.Keeps.ok3
    | with_reducible apply Work.Keeps.takeFrame
    | with_reducible apply Work.Keeps.release
    | with_reducible apply Work.Keeps.setPte
    | with_reducible apply CM.Keeps.bind1
    | with_reducible apply CM.Keeps.bind2
    | with_reducible intro _

theorem Work.Keeps.pageFrame {w : Work} (h : w.Keeps s0) (d : Dsc) (n : Nat) (draft : Bool) :
    CM.Keeps s0 (Work.K3 s0) (w.pageFrame d n draft) := by
  unfold Work.pageFrame
  refine .bind2 (h.pte _ _) (fun e w hw => ?_)
  dsimp only
  split
  · exact .bind2 hw.takeFrame (fun f w hw => .bind2 (hw.setPte _ _ _) (fun d w hw => .ok3 hw))
  · exact .bind2 (hw.inPlace _) (fun b w hw => .ite (fun _ => .ok3 hw) (fun _ =>
      .bind3 (hw.copyPage _ _ _ _) (fun _ _ _ hw => .ok3 hw)))

theorem Work.Keeps.putRow {w : Work} (h : w.Keeps s0) (f plane half q : Nat) (el sc : List Byte) : CM.Keeps s0 (Work.K1 s0) (w.putRow f plane half q el sc) := by
  unfold Work.putRow
  repeat' first
    | with_reducible assumption
    | with_reducible apply CM.Keeps.ok1
    | with_reducible apply Work.Keeps.wrRow
    | with_reducible apply CM.Keeps.bind1
    | with_reducible apply CM.Keeps.ite
    | with_reducible intro _

theorem Work.Keeps.words {w : Work} (h : w.Keeps s0) (a n : Nat) : CM.Keeps s0 (Work.K2 s0) (w.words a n) := by
  unfold Work.words
  repeat' first
    | with_reducible assumption
    | with_reducible apply CM.Keeps.ok2
    | with_reducible apply Work.Keeps.rdBytes
    | with_reducible apply CM.Keeps.bind2
    | with_reducible intro _

theorem Work.Keeps.readArgs (n a : Nat) {w : Work} (h : w.Keeps s0) : CM.Keeps s0 (Work.K2 s0) (w.readArgs n a) := by
  induction n generalizing a w with
  | zero => exact .ok2 h
  | succ n ih =>
    exact .bind2 (h.rdBytes _ _) (fun bs w hw => .ite (fun _ => .ok2 hw) (fun _ => .bind2 (ih _ hw) (fun _ w hw => .ok2 hw)))

theorem Work.Keeps.prepKey {w : Work} (h : w.Keeps s0) (k : KeyPrep) (gm : Option (List Word)) (i q : Nat) (x : List Word) :
    CM.Keeps s0 (Work.K2 s0) (w.prepKey k gm i q x) := by
  unfold Work.prepKey
  exact .ite (fun _ => .ok2 h) (fun _ =>
    .bind2 (.ite (fun _ => .bind2 (h.rdBytes _ _) (fun _ _ hw => .ok2 hw)) (fun _ => .ok2 h)) (fun _ _ hw =>
      .bind2 (.ite (fun _ => .ok2 hw) (fun _ => hw.words _ _)) (fun _ _ hw => .ok2 hw)))

theorem Work.Keeps.inputRow {w : Work} (h : w.Keeps s0) (a : Nat) : CM.Keeps s0 (Work.K2 s0) (w.inputRow a) := by
  unfold Work.inputRow
  repeat' first
    | with_reducible assumption
    | with_reducible apply CM.Keeps.ok2
    | with_reducible apply Work.Keeps.rdBytes
    | with_reducible apply CM.Keeps.bind2
    | with_reducible intro _

theorem Work.Keeps.markSat {w : Work} (h : w.Keeps s0) (x : Trailer) (half : Nat) : (w.markSat x half).2.Keeps s0 := h.other

theorem Work.Keeps.putHalf {w : Work} (h : w.Keeps s0) (f plane half : Nat) (x : Trailer) (rows : List (Nat × List Word)) :
    CM.Keeps s0 (Work.K2 s0) (w.putHalf f plane half x rows) := by
  refine .fold2 rows h (fun x w r hw => ?_)
  extract_lets e y
  have hy : y.2.Keeps s0 := by
    unfold y; split
    · exact hw.markSat _ _
    · exact hw
  exact .bind1 (hy.putRow _ _ _ _ _ _) (fun w hw => .ok2 hw)

theorem Work.Keeps.appendPage {w : Work} (h : w.Keeps s0) (c : BitVec 512) (k : KeyPrep) (gm : Option (List Word)) (npl j plane f start lo hi : Nat) : CM.Keeps s0 (Work.K2 s0) (w.appendPage c k gm npl j plane f start lo hi) := by
  unfold Work.appendPage
  repeat' first
    | with_reducible assumption
    | with_reducible apply CM.Keeps.ok2
    | with_reducible apply Work.Keeps.trailer
    | with_reducible apply Work.Keeps.setTrailer
    | with_reducible apply Work.Keeps.prepKey
    | with_reducible apply Work.Keeps.inputRow
    | with_reducible apply Work.Keeps.putHalf
    | with_reducible apply CM.Keeps.fold2
    | with_reducible apply CM.Keeps.bind1
    | with_reducible apply CM.Keeps.bind2
    | with_reducible intro _

theorem Work.Keeps.fillFrames {w : Work} (h : w.Keeps s0) (l : List (Nat × Nat × PageUse)) : CM.Keeps s0 (Work.K1 s0) (w.fillFrames l) := by
  unfold Work.fillFrames
  repeat' first
    | with_reducible assumption
    | with_reducible apply CM.Keeps.ok1
    | with_reducible apply Work.Keeps.freshTrailers
    | with_reducible apply Work.Keeps.copyFrame
    | with_reducible apply CM.Keeps.fold1
    | with_reducible apply CM.Keeps.bind1
    | with_reducible intro _
    | split

theorem Work.Keeps.append {w : Work} (h : w.Keeps s0) (c : BitVec 512) : CM.Keeps s0 (Work.K1 s0) (w.append c) := by
  unfold Work.append
  refine .bind2 (h.desc _) (fun d0 w hw => .ite (fun _ => .fail hw _) (fun _ =>
    .bind2 (.ite (fun _ => .ok2 hw) (fun _ => hw.readArgs _ _)) (fun args w hw => ?_)))
  dsimp only
  split
  · exact .fail hw _
  · refine .ite (fun _ => .fail hw _) (fun _ => .ite (fun _ => .fail hw _) (fun _ => .ite (fun _ => .fail hw _) (fun _ =>
      .bind2 (.ite (fun _ => .ok2 hw) (fun _ => .bind2 hw.takeNode (fun _ _ hw => .ok2 (hw.setReg _ _)))) (fun d w hw =>
      .bind3 (.fold3 _ hw (fun _ _ _ _ hw => .bind3 (hw.pageFrame _ _ _) (fun _ _ _ hw => .ok3 hw))) (fun fs d w hw =>
      .bind1 ((hw.rewrites _ _ _ _).fillFrames _) (fun w hw => .bind2 (.fold2 _ hw (fun _ _ _ hw => ?_)) (fun _ _ hw => hw.setDesc _ _ _)))))))
    refine .bind2 (.ite (fun _ => .bind2 (hw.words _ _) (fun _ _ hw => .ok2 hw)) (fun _ => .ok2 hw)) (fun _ _ hw => ?_)
    exact .fold2 _ hw (fun _ _ _ hw => .bind2 (hw.appendPage _ _ _ _ _ _ _ _ _ _) (fun _ _ hw => .ok2 hw))

theorem Work.Keeps.fork {w : Work} (h : w.Keeps s0) (c : BitVec 512) (src : Nat) :
    CM.Keeps s0 (Work.K1 s0) (w.fork c src) := by
  unfold Work.fork
  refine .bind2 (h.desc _) (fun ds w hw => .bind2 (hw.desc _) (fun dd w hw => .ite (fun _ => .fail hw _) (fun _ =>
    .ite (fun _ => .fail hw _) (fun _ => ?_))))
  refine .bind2 (.fold2 _ hw (fun _ _ _ hw => .bind2 (hw.pte _ _) (fun e w hw => ?_))) (fun ents w hw => ?_)
  · dsimp only
    split
    · exact .ok2 hw
    · exact .ok2 hw
  refine .bind2 hw.takeNode (fun _ w hw => .bind2 (.fold2 _ hw (fun _ _ _ hw => hw.setPte _ _ _)) (fun _ w hw => ?_))
  refine .bind1 (.fold1 _ hw (fun _ _ hw => .bind2 (hw.fte _) (fun _ _ hw => ?_))) (fun w hw =>
    .bind1 (hw.setDesc _ _ _) (fun _ hw => .ok1 (hw.setReg _ _)))
  exact .ite (fun _ => .fail hw _) (fun _ => hw.setFte _ _)

theorem Work.Keeps.moveHalf {w : Work} (h : w.Keeps s0) (fs ft plane half s t : Nat) (xs xt : Trailer) (same : Bool) :
    CM.Keeps s0 (Work.K2 s0) (w.moveHalf fs ft plane half s t xs xt same) := by
  unfold Work.moveHalf
  refine .bind2 (h.rdBytes _ _) (fun el w hw => .bind2 (hw.rdBytes _ _) (fun sc w hw => .ite (fun _ => ?_)
    (fun _ => .bind1 (hw.putRow _ _ _ _ _ _) (fun _ hw => .ok2 hw))))
  extract_lets a b vs y
  have hy : y.2.Keeps s0 := by
    unfold y; split
    · exact hw.markSat _ _
    · exact hw
  exact .bind1 (hy.putRow _ _ _ _ _ _) (fun _ hw => .ok2 hw)

theorem Work.Keeps.move {w : Work} (h : w.Keeps s0) (d : Dsc) (s t : Nat) : CM.Keeps s0 (Work.K1 s0) (w.move d s t) := by
  unfold Work.move
  try dsimp only
  repeat' first
    | with_reducible assumption
    | with_reducible apply CM.Keeps.ok1
    | with_reducible apply Work.Keeps.pte
    | with_reducible apply Work.Keeps.trailer
    | with_reducible apply Work.Keeps.setTrailer
    | with_reducible apply Work.Keeps.moveHalf
    | with_reducible apply CM.Keeps.fold1
    | with_reducible apply CM.Keeps.bind2
    | with_reducible intro _
    | split

theorem Work.Keeps.fenceTail {w : Work} (h : w.Keeps s0) (d : Dsc) (len : Nat) : CM.Keeps s0 (Work.K1 s0) (w.fenceTail d len) := by
  unfold Work.fenceTail
  try dsimp only
  repeat' first
    | with_reducible assumption
    | with_reducible apply CM.Keeps.ok1
    | with_reducible apply Work.Keeps.fence
    | with_reducible apply Work.Keeps.pte
    | with_reducible apply CM.Keeps.bind2
    | with_reducible intro _
    | split

theorem Work.Keeps.dropPage {r : Dsc × Work} (h : r.2.Keeps s0) (n : Nat) : CM.Keeps s0 (Work.K2 s0) (Work.dropPage r n) := by
  unfold Work.dropPage
  refine .bind2 (h.pte _ _) (fun e w hw => ?_)
  dsimp only
  split
  · exact .bind2 (hw.setPte _ _ _) (fun _ _ hw => .bind1 (hw.release _) (fun _ hw => .ok2 hw))
  · exact .ok2 hw

theorem Work.Keeps.commit {w : Work} (h : w.Keeps s0) (c : BitVec 512) : CM.Keeps s0 (Work.K1 s0) (w.commit c) := by
  unfold Work.commit
  refine .bind2 (h.desc _) (fun d w hw => .ite (fun _ => .fail hw _) (fun _ => .ite (fun _ => .fail hw _) (fun _ =>
    .bind3 (.fold3 _ hw (fun _ _ _ _ hw => .bind2 (hw.pte _ _) (fun e w hw => ?_))) (fun fs d w hw =>
    .bind1 ((Work.Keeps.foldl _ (hw.endsDrafts _ _) (fun _ _ hw => hw.rewrites _ _ _ _)).fillFrames _) (fun w hw => .bind1 (.fold1 _ hw (fun _ _ hw => hw.move _ _ _)) (fun w hw =>
    .bind2 (.fold2 _ hw (fun _ _ _ hw => Work.Keeps.dropPage hw _)) (fun _ w hw =>
    .bind1 (hw.fenceTail _ _) (fun _ hw => hw.setDesc _ _ _))))))))
  dsimp only
  split
  · exact .ok3 hw
  · exact .bind2 (hw.inPlace _) (fun _ _ hw => .ite (fun _ => .ok3 hw) (fun _ =>
      .bind3 (hw.copyPage _ _ _ _) (fun _ _ _ hw => .ok3 hw)))

theorem Work.Keeps.dropLeaf {r : Dsc × Work} (h : r.2.Keeps s0) (first i : Nat) :
    CM.Keeps s0 (Work.K2 s0) (Work.dropLeaf first r i) := by
  unfold Work.dropLeaf
  generalize (List.range 512).map _ = l
  refine .bind2 (h.rd _ _) (fun v w hw => .ite (fun _ => .ok2 hw) (fun _ => .ite (fun _ => .fail hw _) (fun _ => ?_)))
  refine .bind2 (.fold2 l hw (fun _ _ _ hw => .ite (fun _ => .ok2 hw) (fun _ => Work.Keeps.dropPage hw _))) (fun d w hw => ?_)
  refine .bind2 (hw.rd _ _) (fun _ w hw => .ite (fun _ => ?_) (fun _ => .ok2 hw))
  exact .bind1 (hw.wr _ _) (fun _ hw => .bind1 (hw.pushNode _) (fun _ hw => .ok2 hw))

theorem Work.Keeps.free {w : Work} (h : w.Keeps s0) (c : BitVec 512) : CM.Keeps s0 (Work.K1 s0) (w.free c) := by
  unfold Work.free
  dsimp only
  generalize List.range 256 = l
  refine .bind2 (h.desc _) (fun d w hw => .ite (fun _ => .ok1 hw) (fun _ => .ite (fun _ => .fail hw _) (fun _ => ?_)))
  refine .bind2 (.fold2 _ (hw.endsDrafts _ _) (fun _ _ _ hw => Work.Keeps.dropLeaf hw _ _)) (fun d w hw => ?_)
  exact .ite (fun _ => .bind1 (hw.pushNode _) (fun _ hw => .bind1 (hw.setDesc _ _ _) (fun _ hw => .ok1 (hw.setReg _ _))))
    (fun _ => .bind1 (hw.fenceTail _ _) (fun _ hw => hw.setDesc _ _ _))


end
end Sys2Proof.Machine
end

