-- ==== Sys2Proof/Laws/KeepsCache.lean ====
section
/-! SUPPORT. What every operation keeps (Keeps): the cache commands. -/
set_option Elab.async false
namespace Sys2Proof.Machine
section
variable {s0 s : State}
theorem Keeps.work_publish {w : Work} (h : w.Keeps s0) : Keeps s0 w.publish := by
  have hp := h.pub
  unfold Work.publish
  extract_lets s p before waits old new cu s1 s2 s3
  have h1 : Keeps s0 s1 := (hp.other).passFences
  have h2 : Keeps s0 s2 := (h1.bump _ _ _).invalidate _ _ _
  have h3 : Keeps s0 s3 := .ite (fun _ => h2.raise _ _ _) (fun _ => h2)
  exact h3.lowFrames _ _

theorem Keeps.cacheErr (h : Keeps s0 s) (x1 : Option Nat) (x2 : Nat) (x3 : Nat) (x4 : Nat) (x5 : Nat) : Keeps s0 (@State.cacheErr s x1 x2 x3 x4 x5) := by
  unfold State.cacheErr
  repeat' first
    | with_reducible exact h
    | with_reducible apply Keeps.setReg
    | with_reducible apply Keeps.raise
    | with_reducible intro _
    | split

theorem Keeps.cacheFault (h : Keeps s0 s) (t rid addr : Nat) (c : BitVec 512) (wr : Bool) (e : PortError) (k : Nat) :
    Keeps s0 (s.cacheFault t rid addr c wr e k) := by
  unfold State.cacheFault
  dsimp only
  have h1 := fun r => (h.unitError t addr (natOfBool wr) e).logFault r
  exact .ite (fun _ => ((h1 _).bump _ _ _).raise _ _ _) (fun _ => h1 _)

theorem Keeps.spoilBytes (h : Keeps s0 s) (a n : Nat) : Keeps s0 (s.spoilBytes a n) := (h.putBytes _ _).drew _

theorem Keeps.cacheBody (h : Keeps s0 s) (p : Nat) (c : BitVec 512) (ans : CacheAnswer) :
    CM.Keeps s0 (Work.K1 s0) (s.cacheBody p c ans) := by
  have hw : ∀ q : Nat, Work.Keeps s0 { data := s, pub := s, pool := s.pool p, seq := q, badRead := readEnds ans, badRow := rowEnds ans } :=
    fun _ => ⟨h, h⟩
  unfold State.cacheBody
  dsimp only
  split
  · exact (hw _).append _
  · exact (hw _).fork _ _
  · exact (hw _).commit _
  · exact (hw _).free _

theorem Keeps.outcome {w : Work} (h : w.Keeps s0) {bad : State → Nat → Nat → Nat × Nat × State}
    (hbad : ∀ u st n, Keeps s0 u → Keeps s0 (bad u st n).2.2) (stop : Option Nat) (n : Nat) :
    Keeps s0 (w.outcome bad stop n).2.2 := by
  cases stop with
  | none => exact Keeps.work_publish h
  | some st => exact hbad _ _ _ h.data

theorem Keeps.cacheFaults (h : Keeps s0 s) (t rid addr : Nat) (c : BitVec 512) (wr : Bool) (e : PortError) (n : Nat) :
    Keeps s0 (s.cacheFaults t rid addr c wr e n) := h.foldl _ (fun _ _ ht => ht.cacheFault _ _ _ _ _ _ _)

theorem Keeps.cacheAnswer {w : Work} (h : w.Keeps s0) (p t q rid : Nat) (c : BitVec 512) (stop : Option Nat) (ans : CacheAnswer) :
    Keeps s0 (w.answer p t q rid c stop ans).2.2 := by
  unfold Work.answer
  extract_lets bad
  have hbad : ∀ (u : State) st n, Keeps s0 u → Keeps s0 (bad u st n).2.2 := by
    intro u st n hu
    unfold bad
    with_reducible exact hu.cacheErr _ _ _ _ _
  clear_value bad
  have ho := fun n => Keeps.outcome h hbad stop n
  split
  · exact ho 0
  · split
    · exact ho 0
    · exact hbad _ _ _ (h.data.unitError _ _ _ _)
  · split
    · exact ho 0
    · rename_i e times x a n wr hr
      extract_lets go
      have hgo : ∀ u, Keeps s0 u → Keeps s0 (go u) := fun u hu => hu.cacheFaults _ _ _ _ _ _ _
      clear_value go
      have hw : Work.Keeps s0 { w with data := go w.data, pub := go w.pub } := ⟨hgo _ h.data, hgo _ h.pub⟩
      exact .ite3 (fun _ => hbad _ _ _ (.ite (fun _ => (hgo _ h.data).spoilBytes _ _) (fun _ => hgo _ h.data)))
        (fun _ => Keeps.outcome hw hbad stop _)
  · split
    · exact hbad _ _ _ (((Keeps.work_publish h).unitError _ _ _ _).spoilBytes _ _)
    · exact ho 0

theorem Keeps.cacheCommand (h : Keeps s0 s) (t q rid : Nat) (c : BitVec 512) (ans : CacheAnswer) :
    Keeps s0 (s.cacheCommand t q rid c ans).2.2 := by
  unfold State.cacheCommand
  extract_lets seq bad
  have hbad : ∀ u st, Keeps s0 u → Keeps s0 (bad u st).2.2 := fun u st hu => hu.cacheErr _ _ _ _ _
  clear_value bad
  refine .ite3 (fun _ => h) (fun _ => ?_)
  generalize s.poolOf t seq = y
  cases y with
  | error st => exact hbad _ _ h
  | ok p =>
    dsimp only
    refine .ite3 (fun _ => hbad _ _ h) (fun _ => ?_)
    have hb := h.cacheBody p c ans
    generalize s.cacheBody p c ans = x at hb ⊢
    cases x with
    | error e => exact Keeps.cacheAnswer hb _ _ _ _ _ _ _
    | ok w => exact Keeps.cacheAnswer hb _ _ _ _ _ _ _

theorem Keeps.initStructures (h : Keeps s0 s) (p : Nat) : Keeps s0 (s.initStructures p) := by
  unfold State.initStructures
  extract_lets x link s1 s2 s3 s4 s5 s6 cu
  have h1 : Keeps s0 s1 := h.unitWrite _ _ _
  clear_value s1
  have h2 : Keeps s0 s2 := h1.unitWrite _ _ _
  clear_value s2
  have h3 : Keeps s0 s3 := h2.foldl _ (fun _ _ ht => ht.unitWrite _ _ _)
  clear_value s3
  have h6 : Keeps s0 s6 := by
    iterate 6 refine Keeps.setReg ?_ ..
    exact h3
  clear_value s6
  exact h6.update

theorem Keeps.initDone (h : Keeps s0 s) (x1 : Nat) : Keeps s0 (@State.initDone s x1) := by
  grind [State.initDone, Keeps.setReg, Keeps.raise, Keeps.initStructures]

theorem Keeps.poolEnable (h : Keeps s0 s) (x1 : Nat) : Keeps s0 (@State.poolEnable s x1) := by
  grind [State.poolEnable, Keeps.setReg, Keeps.raise]

end
end Sys2Proof.Machine
end

