-- ==== Sys2Proof/Laws/KeepsDispatcher.lean ====
section
/-! SUPPORT. What every operation keeps (Keeps): acceptance, dispatch and completion. -/
set_option Elab.async false
namespace Sys2Proof.Machine
section
variable {s0 s : State}
theorem Keeps.writeRecord (h : Keeps s0 s) (x1 : Report) : Keeps s0 (@State.writeRecord s x1) := by
  grind [State.writeRecord, Keeps.postWrite]

theorem Keeps.sendCompletion (h : Keeps s0 s) (x1 : Report) : Keeps s0 (@State.sendCompletion s x1) := by
  grind [State.sendCompletion, Keeps.sendMsg, Keeps.dropMsg]

theorem Keeps.writeStamp (h : Keeps s0 s) (x1 : Report) : Keeps s0 (@State.writeStamp s x1) := by
  grind [State.writeStamp, Keeps.setReg, Keeps.bump, Keeps.raise, Keeps.postWrite]

theorem Keeps.postCompletion (h : Keeps s0 s) (x1 : Report) : Keeps s0 (@State.postCompletion s x1) := by
  grind [State.postCompletion, Keeps.postAndLand]

theorem Keeps.report (h : Keeps s0 s) (x1 : Report) : Keeps s0 (@State.report s x1) := by
  grind [State.report, Keeps.writeRecord, Keeps.sendCompletion, Keeps.writeStamp, Keeps.postCompletion]

theorem Keeps.reportInFlight (h : Keeps s0 s) (x1 : Report) : Keeps s0 (@State.reportInFlight s x1) := by
  grind [State.reportInFlight, Keeps.writeRecord, Keeps.sendCompletion]

theorem Keeps.windowDone (h : Keeps s0 s) (x1 : Nat) (x2 : Nat) (x3 : Nat) : Keeps s0 (@State.windowDone s x1 x2 x3) := by
  grind [State.windowDone, Keeps.setSubRec]

theorem Memory.foldl_wf {β : Type} {f : Memory → β → Memory} (hf : ∀ m x, Memory.wf m = true → Memory.wf (f m x) = true)
    (l : List β) {m : Memory} (h : Memory.wf m = true) : Memory.wf (l.foldl f m) = true := by
  induction l generalizing m with
  | nil => exact h
  | cons x r ih => exact ih (hf m x h)

theorem Keeps.spoil (h : Keeps s0 s) (t a n : Nat) : Keeps s0 (s.spoil t a n) := by
  refine Keeps.drew (h.withMem (fun hm => Memory.foldl_wf (fun m x hm => ?_) _ hm)) _
  split
  · exact Memory.wf_put _ _ hm
  · exact hm

theorem Keeps.spoilShared (h : Keeps s0 s) (t a n : Nat) : Keeps s0 (s.spoilShared t a n) := by
  refine Keeps.drew (h.withShared _ (fun hm => Memory.foldl_wf (fun m x hm => ?_) _ hm)) _
  dsimp only
  split
  · exact Memory.wf_put _ _ hm
  · exact hm

theorem Keeps.spoilOuts (h : Keeps s0 s) (c : Cmd) : Keeps s0 (s.spoilOuts c) :=
  h.foldl _ (fun _ _ hu => .ite (fun _ => hu.spoilShared _ _ _) (fun _ => hu.spoil _ _ _))

theorem Keeps.completeCmd (h : Keeps s0 s) (cid st : Nat) : Keeps s0 (s.completeCmd cid st) := by
  unfold State.completeCmd
  dsimp only
  split
  · exact h
  · refine Keeps.report (Keeps.windowDone (.ite (fun _ => ?_) (fun _ => ?_)) _ _ _) _
    · exact (h.onDisp _).spoilOuts _
    · exact h.onDisp _

theorem Keeps.acceptHead (h : Keeps s0 s) (q : Nat) {reading : State → BitVec 512 → List Byte × State}
    (hr : ∀ u b, Keeps s0 u → Keeps s0 (reading u b).2) : Keeps s0 (s.acceptHead q reading) := by
  unfold State.acceptHead
  generalize (s.queue q).entries = l
  match l with
  | [] => exact h
  | (b, agent) :: rest =>
    dsimp only
    have h1 : Keeps s0 (((s.setQueue q { entries := rest }).onDisp fun d => { d with rr := (q + 1) % 64 }).chargeCommand
        (tenOfQueue q)) := ((h.setQueue _ _).onDisp _).chargeCommand _
    generalize ((s.setQueue q { entries := rest }).onDisp fun d => { d with rr := (q + 1) % 64 }).chargeCommand (tenOfQueue q) = u
      at h1 ⊢
    cases u.submitterRec (cmdSubmitter b) with
    | none => exact (h1.raise _ _ _).report _
    | some i =>
      dsimp only
      refine .ite (fun _ => (h1.raise _ _ _).report _) (fun _ => ?_)
      cases (u.subRec i).window.find? (fun e => e.seqno == cmdSeqno b) with
      | some e => exact .ite (fun _ => h1.report _) (fun _ => h1.reportInFlight _)
      | none =>
        dsimp only
        refine .ite (fun _ => (h1.raise _ _ _).report _) (fun _ => .ite (fun _ => (h1.raise _ _ _).report _) (fun _ => ?_))
        have h2 := (h1.setSubRec i ((u.subRec i).insert (cmdSeqno b))).bump Reg.SUBQ_ACCEPTED q 1
        refine .ite (fun _ => (h2.windowDone _ _ _).report _) (fun _ => .ite (fun _ => (h2.windowDone _ _ _).report _) (fun _ => ?_))
        refine Keeps.onDisp ?_ _
        exact .ite2 (fun _ => hr _ _ h2) (fun _ => h2)

theorem Keeps.settleCmd (h : Keeps s0 s) (x1 : Nat) : Keeps s0 (@State.settleCmd s x1) := by
  grind [State.settleCmd, Keeps.completeCmd]

theorem Keeps.purgeOld (h : Keeps s0 s) (x1 : Nat) : Keeps s0 (@State.purgeOld s x1) := h.other

theorem Keeps.freeReceipt (h : Keeps s0 s) (x1 : Nat) : Keeps s0 (@State.freeReceipt s x1) := by
  grind [State.freeReceipt, Keeps.setTask, Keeps.fenceTaskEnd, Keeps.purgeOld]

theorem Keeps.endTask (h : Keeps s0 s) (x1 : Nat) : Keeps s0 (@State.endTask s x1) := by
  unfold State.endTask
  repeat' first
    | with_reducible exact h
    | with_reducible apply Keeps.onArr
    | with_reducible apply Keeps.onCmd
    | with_reducible apply Keeps.dropStaged
    | with_reducible apply Keeps.bagForget
    | with_reducible apply Keeps.bagSettle
    | with_reducible apply Keeps.freeReceipt
    | (intro A hA; split <;> first | exact hA | simpa using hA)
    | split

theorem Keeps.commandFault (h : Keeps s0 s) (c : Cmd) (t : Option Nat) : Keeps s0 (s.commandFault c t) := h.logFault _

theorem Keeps.faultCmd (h : Keeps s0 s) (cid st : Nat) : Keeps s0 (s.faultCmd cid st) := by
  unfold State.faultCmd
  dsimp only
  split
  · exact h
  · have hf : Keeps s0 (if st = stFaulted then (s.bump Reg.FAULT_FAULTED_CNT).raise pgFAULT 2 (some (tenOfQueue ‹Cmd›.queue)) else s) :=
      .ite (fun _ => (h.bump _ _ _).raise _ _ _) (fun _ => h)
    refine .ite (fun _ => .ite (fun _ => hf.onCmd _ _) (fun _ => h)) (fun _ => ?_)
    refine Keeps.settleCmd (((hf.onCmd _ _).bagQuit _).foldl _ (fun u x hu => ?_)) _
    exact .ite (fun _ => hu.beginAbandon _ _) (fun _ => .ite (fun _ => hu) (fun _ => hu.endTask _))

theorem Keeps.lastTable (h : Keeps s0 s) (t q n : Nat) : Keeps s0 (s.lastTable t q n) := h.other

theorem Keeps.settleLoad (h : Keeps s0 s) (cid : Nat) : Keeps s0 (s.settleLoad cid) := by
  unfold State.settleLoad
  dsimp only
  split
  · exact h
  · refine .ite (fun _ => ?_) (fun _ => h)
    exact Keeps.completeCmd (.ite (fun _ => (h.lastTable _ _ _).raise _ _ _) (fun _ => h)) _ _

theorem Keeps.applyLoads (h : Keeps s0 s) (x1 : Nat) : Keeps s0 (@State.applyLoads s x1) := by
  unfold State.applyLoads
  repeat' first
    | with_reducible assumption
    | with_reducible apply Keeps.onArr
    | with_reducible apply Keeps.onCmd
    | with_reducible apply Keeps.settleLoad
    | with_reducible apply Keeps.ite
    | with_reducible apply Keeps.foldl
    | (intro A hA; simpa using hA)
    | with_reducible intro _

theorem Keeps.applyAllLoads (h : Keeps s0 s) : Keeps s0 (@State.applyAllLoads s) := by
  unfold State.applyAllLoads
  repeat' first
    | with_reducible assumption
    | with_reducible apply Keeps.applyLoads
    | with_reducible apply Keeps.foldl
    | with_reducible intro _

theorem Keeps.place (h : Keeps s0 s) (x1 : Nat) (x2 : Nat) (x3 : Bool) : Keeps s0 (@State.place s x1 x2 x3) := by
  grind [State.place, Keeps.onArr, Keeps.onTask]

theorem Keeps.enterTask (h : Keeps s0 s) (c : Cmd) (p : Plan) (rid a : Nat) (ans : PortAnswer) :
    Keeps s0 (s.enterTask c p rid a ans) := by
  unfold State.enterTask
  extract_lets t reads r
  have hr : Keeps s0 r := h.foldl _ (fun _ _ hu => hu.chargeRead _ _ _)
  clear_value r
  split
  · exact (hr.unitError _ _ _ _).faultCmd _ _
  · split
    · exact hr.faultCmd _ _
    · exact ((hr.onCmd _ _).setTask _ _).place _ _ _

theorem Keeps.dispatchTask (h : Keeps s0 s) (q : Nat) (ans : PortAnswer) : Keeps s0 (s.dispatchTask q ans) := by
  unfold State.dispatchTask
  refine .ite (fun _ => h) (fun _ => ?_)
  split
  · exact h
  · split
    · split
      · exact (h.commandFault _ _).faultCmd _ _
      · exact .ite (fun _ => h) (fun _ => h.enterTask _ _ _ _ _)
    · exact h

theorem Keeps.startAttempt (h : Keeps s0 s) (a rid : Nat) (t : Task) : Keeps s0 (s.startAttempt a rid t) := by
  unfold State.startAttempt
  extract_lets n bs ss u v w st
  have hv : Keeps s0 v := (h.chargeRead _ _ _).onArr _ _ (fun A hA => ArrayState.save_wf _ _ hA)
  clear_value v
  exact ((hv.deliverWords _).onTask _ _).onCmd _ _

theorem Keeps.beginAttempt (h : Keeps s0 s) (a rid : Nat) (t : Task) (ans : PortAnswer) : Keeps s0 (s.beginAttempt a rid t ans) := by
  unfold State.beginAttempt
  extract_lets u lines inj v
  have hu : Keeps s0 u := h.startAttempt _ _ _
  clear_value u
  have hv : Keeps s0 v := .ite (fun _ => hu.setReg _ _ _ _) (fun _ => hu)
  clear_value v
  split
  · exact hv
  · exact (hv.unitError _ _ _ _).failNow _ _ _

@[simp] theorem ArrayState.backToBegin_store (A : ArrayState) : A.backToBegin.store = A.store :=
  ArrayState.foldl_store (fun B e => ArrayState.setEng_store B e _) _ _

theorem Keeps.startTask (h : Keeps s0 s) (a : Nat) (ans : PortAnswer) : Keeps s0 (s.startTask a ans) := by
  unfold State.startTask
  dsimp only
  refine .ite (fun _ => h) (fun _ => ?_)
  split
  · split
    · refine .ite (fun _ => Keeps.beginAttempt (h.onArr _ _ ?_) _ _ _ _) (fun _ => h)
      exact fun A hA => by simpa using hA
    · exact h
  · have hl := h.applyLoads a
    split
    · exact hl
    · split
      · exact hl
      · refine Keeps.beginAttempt (hl.onArr _ _ ?_) _ _ _ _
        exact fun A hA => hA

theorem Keeps.sealTask (h : Keeps s0 s) (x1 : Nat) : Keeps s0 (@State.sealTask s x1) := by
  unfold State.sealTask
  repeat' first
    | with_reducible exact h
    | with_reducible apply Keeps.onArr
    | with_reducible apply Keeps.onCmd
    | with_reducible apply Keeps.bagSettle
    | with_reducible apply Keeps.releaseTask
    | with_reducible apply Keeps.stageReady
    | with_reducible apply Keeps.settleCmd
    | with_reducible apply Keeps.freeReceipt
    | with_reducible apply Keeps.applyAllLoads
    | (intro A hA; exact hA)
    | with_reducible intro _
    | split

theorem Keeps.releaseNext (h : Keeps s0 s) (q : Nat) : Keeps s0 (s.releaseNext q) := by
  unfold State.releaseNext
  dsimp only
  refine .ite (fun _ => h) (fun _ => ?_)
  split
  · exact h
  · exact .ite (fun _ => h) (fun _ => .ite (fun _ => ((h.releaseTask _ _).onCmd _ _).settleCmd _)
      (fun _ => .ite (fun _ => (h.onCmd _ _).settleCmd _) (fun _ => h)))

theorem Keeps.moveTask (h : Keeps s0 s) (x1 : Nat) (x2 : Bool) : ∀ u, @State.moveTask s x1 x2 = some u → Keeps s0 u := by
  intro u hu
  unfold State.moveTask at hu
  try dsimp only at hu
  repeat' split at hu
  all_goals first | cases hu | obtain rfl := Option.some.inj hu
  repeat' first
    | with_reducible exact h
    | with_reducible apply Keeps.onArr
    | with_reducible apply Keeps.bump
    | with_reducible apply Keeps.onTask
    | with_reducible apply Keeps.place
    | (intro A hA; exact hA)

theorem Keeps.loseCmd (h : Keeps s0 s) (cid : Nat) (rid : Option Nat) : Keeps s0 (s.loseCmd cid rid) := by
  unfold State.loseCmd
  split
  · exact h
  · exact .ite (fun _ => h) (fun _ => (h.commandFault _ _).faultCmd _ _)

theorem Keeps.loseCollectives (h : Keeps s0 s) (x1 : Nat) : Keeps s0 (@State.loseCollectives s x1) := by
  unfold State.loseCollectives
  repeat' first
    | with_reducible assumption
    | with_reducible apply Keeps.loseCmd
    | with_reducible apply Keeps.foldl
    | with_reducible intro _
    | split

theorem Keeps.relocateAll (h : Keeps s0 s) (x1 : Nat) : Keeps s0 (@State.relocateAll s x1) := by
  unfold State.relocateAll
  repeat' first
    | with_reducible assumption
    | with_reducible exact Keeps.moveTask ‹_› _ _ _ ‹_›
    | with_reducible apply Keeps.loseCmd
    | with_reducible apply Keeps.foldl
    | with_reducible intro _
    | split

theorem Keeps.quarantine (h : Keeps s0 s) (a : Nat) : Keeps s0 (s.quarantine a) := by
  unfold State.quarantine
  extract_lets t s1 s2 lost s3 s4 s5
  have h1 : Keeps s0 s1 := (h.onCond _ _).raise _ _ _
  clear_value s1 t
  have h2 : Keeps s0 s2 := by
    cases t with
    | some t => exact (h1.setCollection _ _).collectCheck _
    | none => exact h1
  clear_value s2
  have h3 : Keeps s0 s3 := h2.onArr _ _ (fun _ hA => hA)
  clear_value s3
  have h4 : Keeps s0 s4 := h3.foldl _ (fun _ _ hu => (hu.onCmd _ _).settleLoad _)
  clear_value s4
  have h5 : Keeps s0 s5 := (h4.loseCollectives _).relocateAll _
  clear_value s5
  exact h5.onArr _ _ (fun _ _ => rfl)

theorem Keeps.receiptFault (h : Keeps s0 s) (a rid : Nat) (t : Task) : Keeps s0 (s.receiptFault a rid t) := by
  unfold State.receiptFault
  dsimp only
  exact ((h.drew _).logFault _).faultCmd _ _

theorem Keeps.quarantineAfter (h : Keeps s0 s) (a rid : Nat) (t : Task) : Keeps s0 (s.quarantineAfter a rid t) := by
  unfold State.quarantineAfter
  split
  · with_reducible refine .ite (fun _ => ((h.onArr _ _ ?_).onTask _ _).quarantine _) (fun _ => h)
    exact fun _ hA => hA
  · exact h

theorem Keeps.finishAttempts (h : Keeps s0 s) (rid cid : Nat) : Keeps s0 (((s.endTask rid).applyAllLoads).settleCmd cid) :=
  ((h.endTask _).applyAllLoads).settleCmd _

theorem Keeps.attemptAgain (h : Keeps s0 s) (a rid : Nat) (t : Task) (cls : Nat) : Keeps s0 (s.attemptAgain a rid t cls) := by
  unfold State.attemptAgain
  extract_lets again
  have ha : ∀ u, Keeps s0 u → Keeps s0 (again u) := fun u hu => ((hu.onCmd _ _).bump _ _ _).raise _ _ _
  clear_value again
  split
  · exact ha _ ((h.onTask _ _).onArr _ _ (fun _ hA => hA))
  · split
    · exact ha _ (h.moveTask _ _ _ ‹_›)
    · exact h.loseCmd _ _
  · exact (h.faultCmd _ _).finishAttempts _ _

theorem Keeps.afterAbandon (h : Keeps s0 s) (a rid : Nat) (t : Task) (good : Bool) : Keeps s0 (s.afterAbandon a rid t good) := by
  unfold State.afterAbandon
  extract_lets u gone v w
  have hv : Keeps s0 v := by
    have hu : Keeps s0 u := h.bagForget _
    clear_value u
    unfold v
    split
    · exact .ite (fun _ => hu.receiptFault _ _ _) (fun _ => hu)
    · exact hu
  have hw : Keeps s0 w := hv.quarantineAfter _ _ _
  clear_value w
  split
  · exact hw.attemptAgain _ _ _ _
  · exact hw.finishAttempts _ _

theorem Keeps.abandonEnd (h : Keeps s0 s) (a : Nat) (good : Bool) : Keeps s0 (s.abandonEnd a good) := by
  unfold State.abandonEnd
  dsimp only
  split
  · refine .ite (fun _ => ?_) (fun _ => h)
    split
    · refine Keeps.afterAbandon (h.onArr _ _ ?_) _ _ _ _
      exact fun _ hA => hA
    · exact h
  · refine .ite (fun _ => h.onArr _ _ ?_) (fun _ => h)
    exact fun _ hA => hA
  · exact h

end
end Sys2Proof.Machine
end

