-- ==== Sys2Proof/Laws/KeepsLibrary.lean ====
section
/-! SUPPORT. What every operation keeps (Keeps): the library. -/
set_option Elab.async false
namespace Sys2Proof.Machine
section
variable {s0 s : State}
theorem Keeps.lastLoad (h : Keeps s0 s) (x1 : Nat) (x2 : Nat) (x3 : Nat) (x4 : Nat) (x5 : Nat) : Keeps s0 (@State.lastLoad s x1 x2 x3 x4 x5) := h.other

theorem Keeps.rejectLoad (h : Keeps s0 s) (x1 : Nat) (x2 : Nat) (x3 : Nat) (x4 : Nat) (x5 : Nat) : Keeps s0 (@State.rejectLoad s x1 x2 x3 x4 x5).2 := by
  grind [State.rejectLoad, Keeps.raise, Keeps.lastLoad]

theorem Keeps.publishRoutine (h : Keeps s0 s) (x1 : Nat) (x2 : Nat) (x3 : Nat) (x4 : List Byte) (x5 : List (List (BitVec 16))) : Keeps s0 (@State.publishRoutine s x1 x2 x3 x4 x5) := h.other

theorem Keeps.loadProgram (h : Keeps s0 s) (t q r addr len : Nat) (ans : PortAnswer) :
    Keeps s0 (s.loadProgram t q r addr len ans).2 := by
  unfold State.loadProgram
  dsimp only
  have hu := h.unitRead t addr len ans
  refine .ite2 (fun _ => h.rejectLoad _ _ _ _ _) (fun _ => .ite2 (fun _ => h.rejectLoad _ _ _ _ _) (fun _ =>
    .ite2 (fun _ => h.rejectLoad _ _ _ _ _) (fun _ => .ite2 (fun _ => hu.rejectLoad _ _ _ _ _) (fun _ => ?_))))
  split
  · exact hu.rejectLoad _ _ _ _ _
  · split
    · exact hu.rejectLoad _ _ _ _ _
    · with_reducible exact (((hu.publishRoutine _ _ _ _ _).bump _ _ _).lastLoad _ _ _ _ _).raise _ _ _

end
end Sys2Proof.Machine
end

