-- ==== Sys2Proof/Laws/KeepsRegRead.lean ====
section
/-! SUPPORT. What every operation keeps (Keeps): a register read. -/
set_option Elab.async false
namespace Sys2Proof.Machine
section
variable {s0 s : State}
theorem Keeps.latch (h : Keeps s0 s) (x1 : Page) (x2 : Actor) (x3 : Nat) : Keeps s0 (@State.latch s x1 x2 x3) := by
  unfold State.latch
  repeat' first
    | with_reducible assumption
    | with_reducible apply Keeps.foldl
    | with_reducible intro _
    | split
    | with_reducible apply Keeps.update

theorem Keeps.lbxRange (h : Keeps s0 s) (x1 : Page) (x2 : Actor) (x3 : Nat) : Keeps s0 (@State.lbxRange s x1 x2 x3) := by
  grind [State.lbxRange, Keeps.raise]

theorem Keeps.readEffects (h : Keeps s0 s) (x1 : Page) (x2 : Actor) (x3 : Nat) : Keeps s0 (@State.readEffects s x1 x2 x3) := by
  grind [State.readEffects, Keeps.drew, Keeps.latch, Keeps.lbxRange]

theorem Keeps.answer (h : Keeps s0 s) (x1 : Nat) (x2 : Nat) : Keeps s0 (@State.answer s x1 x2) := h.other

theorem Keeps.portViol (h : Keeps s0 s) (x1 : Nat) (x2 : Nat) (x3 : Nat) : Keeps s0 (@State.portViol s x1 x2 x3) := by
  grind [State.portViol, Keeps.setReg, Keeps.bump, Keeps.raise]

theorem Keeps.busRead (h : Keeps s0 s) (x1 : Nat) (x2 : Nat) (x3 : AccessForm) : Keeps s0 (@State.busRead s x1 x2 x3) := by
  grind [State.busRead, Keeps.readEffects, Keeps.answer, Keeps.portViol]

end
end Sys2Proof.Machine
end

