-- ==== Sys2Proof/Laws/KeepsRegStore.lean ====
section
/-! SUPPORT. What every operation keeps (Keeps): a register write. -/
set_option Elab.async false
namespace Sys2Proof.Machine
section
variable {s0 s : State}
/-- Arrays may change, and entries may go, where every store left was kept in form. -/
theorem Keeps.withArrs {pending : List Instr} {freeCtr : Nat} {regs : Regs} {ctl : CtlPort} {fuses : Fuses} {doms : Tbl Domain} {mon : Monitors}
    {tb : TimeBase} {meter : Meter} {disp : Dispatcher} {arrs : Tbl ArrayState} {conds : Tbl ArrCond} {shared mem : Memory}
    {cache : CacheUnit} {mport : MPort} {ring : Tbl Port} {faults : Tbl FaultPart} {letters : Tbl DeadPart} {resets : Resets}
    {segment : Debug} (hq : pending = s.pending) (hf : fuses = s.fuses) (hc : freeCtr = s.freeCtr)
    (hm : Memory.wf s.mem = true → Memory.wf mem = true) (hs : Memory.wf s.shared = true → Memory.wf shared = true)
    (ha : (∀ e ∈ s.arrs, Memory.wf e.2.store = true) → ∀ e ∈ arrs, Memory.wf e.2.store = true) (h : Keeps s0 s) :
    Keeps s0 ⟨pending, freeCtr, regs, ctl, fuses, doms, mon, tb, meter, disp, arrs, conds, shared, mem, cache,
      mport, ring, faults, letters, resets, segment⟩ :=
  h.trans ⟨hq, hf, by simp [hc], hm, hs, ha⟩

theorem Keeps.clearArrs (h : Keeps s0 s) (p : Nat → Bool) (f : ArrayState → ArrayState)
    (hf : ∀ A, Memory.wf A.store = true → Memory.wf (f A).store = true) : Keeps s0 (s.clearArrs p f) := by
  refine Keeps.withArrs rfl rfl rfl id id (fun hs e he => ?_) h
  obtain ⟨x, hx, rfl⟩ := List.mem_map.1 (List.mem_filter.1 he).1
  split
  · exact hf _ (hs x hx)
  · exact hs x hx

theorem Keeps.storeField (h : Keeps s0 s) (x1 : Page) (x2 : Actor) (x3 : Nat) (x4 : FieldSpec × Nat) : Keeps s0 (@State.storeField s x1 x2 x3 x4) := by
  grind [State.storeField, Keeps.setReg]

theorem Keeps.storeWord (h : Keeps s0 s) (x1 : Page) (x2 : Actor) (x3 : Nat) (x4 : Nat) (x5 : (FieldSpec → Bool)) : Keeps s0 (@State.storeWord s x1 x2 x3 x4 x5) := by
  unfold State.storeWord
  repeat' first
    | with_reducible assumption
    | with_reducible apply Keeps.storeField
    | with_reducible apply Keeps.foldl
    | with_reducible intro _

theorem Keeps.mapRefused (h : Keeps s0 s) : Keeps s0 (@State.mapRefused s) := by
  grind [State.mapRefused, Keeps.setReg, Keeps.raise]

theorem Keeps.hostFid (h : Keeps s0 s) (x1 : Actor) (x2 : Nat) (x3 : Nat) : Keeps s0 (@State.hostFid s x1 x2 x3) := by
  grind [State.hostFid, Keeps.setReg, Keeps.mapRefused]

theorem Keeps.pmXfer (h : Keeps s0 s) (x1 : Actor) (x2 : Nat) : Keeps s0 (@State.pmXfer s x1 x2) := by
  grind [State.pmXfer, Keeps.setReg, Keeps.mapRefused]

theorem Keeps.cfgOverlap (h : Keeps s0 s) (x1 : Nat) : Keeps s0 (@State.cfgOverlap s x1) := by
  grind [State.cfgOverlap, Keeps.setReg, Keeps.raise]

theorem Keeps.tenEnable (h : Keeps s0 s) (x1 : Actor) (x2 : Nat) (x3 : Nat) : Keeps s0 (@State.tenEnable s x1 x2 x3) := by
  grind [State.tenEnable, Keeps.setReg, Keeps.onAcct, Keeps.cfgOverlap]

theorem Keeps.hostMask (h : Keeps s0 s) (x1 : Actor) (x2 : Nat) (x3 : Nat) : Keeps s0 (@State.hostMask s x1 x2 x3) := by
  grind [State.hostMask, Keeps.setReg, Keeps.cfgOverlap]

theorem Keeps.storeTen (h : Keeps s0 s) (x1 : Page) (x2 : Actor) (x3 : Nat) (x4 : Nat) : Keeps s0 (@State.storeTen s x1 x2 x3 x4) := by
  grind [State.storeTen, Keeps.storeWord, Keeps.tenEnable, Keeps.hostMask]

theorem Keeps.subCtl (h : Keeps s0 s) (x1 : Page) (x2 : Actor) (x3 : Nat) : Keeps s0 (@State.subCtl s x1 x2 x3) := by
  grind [State.subCtl, Keeps.setReg]

theorem Keeps.hostPut (h : Keeps s0 s) (x1 : Page) (x2 : Actor) (x3 : Nat) : Keeps s0 (@State.hostPut s x1 x2 x3) := by
  grind [State.hostPut, Keeps.setReg, Keeps.raise, Keeps.bagPut]

theorem Keeps.storeLbx (h : Keeps s0 s) (x1 : Page) (x2 : Actor) (x3 : Nat) (x4 : Nat) : Keeps s0 (@State.storeLbx s x1 x2 x3 x4) := by
  grind [State.storeLbx, Keeps.putLb, Keeps.raise, Keeps.landAll, Keeps.postAndLand, Keeps.storeWord]

theorem Keeps.storeCache (h : Keeps s0 s) (x1 : Page) (x2 : Actor) (x3 : Nat) (x4 : Nat) : Keeps s0 (@State.storeCache s x1 x2 x3 x4) := by
  grind [State.storeCache, Keeps.setReg, Keeps.poolEnable, Keeps.storeWord]

theorem Keeps.flushWalks (h : Keeps s0 s) (x1 : Nat) : Keeps s0 (@State.flushWalks s x1) := by
  unfold State.flushWalks
  repeat' first
    | with_reducible assumption
    | with_reducible apply Keeps.clearArrs
    | with_reducible apply Keeps.ite
    | with_reducible intro _
    | with_reducible apply Keeps.update

theorem Keeps.storeWalk (h : Keeps s0 s) (x1 : Page) (x2 : Actor) (x3 : Nat) (x4 : Nat) : Keeps s0 (@State.storeWalk s x1 x2 x3 x4) := by
  grind [State.storeWalk, Keeps.storeWord, Keeps.flushWalks]

theorem Keeps.storeMport (h : Keeps s0 s) (x1 : Page) (x2 : Actor) (x3 : Nat) (x4 : Nat) : Keeps s0 (@State.storeMport s x1 x2 x3 x4) := by
  grind [State.storeMport, Keeps.storeWord]

theorem Keeps.storeMeter (h : Keeps s0 s) (x1 : Page) (x2 : Actor) (x3 : Nat) (x4 : Nat) : Keeps s0 (@State.storeMeter s x1 x2 x3 x4) := by
  unfold State.storeMeter
  repeat' first
    | with_reducible exact h
    | with_reducible apply Keeps.onAcct
    | with_reducible apply Keeps.raise
    | with_reducible apply Keeps.storeWord
    | with_reducible apply Keeps.ite
    | with_reducible intro _
    | with_reducible apply Keeps.update

theorem Keeps.popFault (h : Keeps s0 s) (x1 : Nat) : Keeps s0 (@State.popFault s x1) := h.other

theorem Keeps.moveAllDead (h : Keeps s0 s) : Keeps s0 (@State.moveAllDead s) := by
  unfold State.moveAllDead
  repeat' first
    | with_reducible exact h
    | with_reducible apply Keeps.moveDead
    | with_reducible apply Keeps.foldl
    | with_reducible intro _

theorem Keeps.popDead (h : Keeps s0 s) (x1 : Nat) : Keeps s0 (@State.popDead s x1) := by
  grind [State.popDead, Keeps.setDeadPart, Keeps.moveAllDead]

theorem Keeps.storeFault (h : Keeps s0 s) (x1 : Page) (x2 : Actor) (x3 : Nat) (x4 : Nat) : Keeps s0 (@State.storeFault s x1 x2 x3 x4) := by
  grind [State.storeFault, Keeps.setReg, Keeps.storeWord, Keeps.popFault]

theorem Keeps.storeDlog (h : Keeps s0 s) (x1 : Page) (x2 : Actor) (x3 : Nat) (x4 : Nat) : Keeps s0 (@State.storeDlog s x1 x2 x3 x4) := by
  grind [State.storeDlog, Keeps.storeWord, Keeps.popDead]

theorem Keeps.storeFtab (h : Keeps s0 s) (x1 : Page) (x2 : Actor) (x3 : Nat) (x4 : Nat) : Keeps s0 (@State.storeFtab s x1 x2 x3 x4) := by
  grind [State.storeFtab, Keeps.storeWord]

theorem Keeps.resume (h : Keeps s0 s) (x1 : Nat) : Keeps s0 (@State.resume s x1) := by
  grind [State.resume, Keeps.onArr]

theorem Keeps.storeProg (h : Keeps s0 s) (x1 : Page) (x2 : Actor) (x3 : Nat) (x4 : Nat) : Keeps s0 (@State.storeProg s x1 x2 x3 x4) := by
  grind [State.storeProg, Keeps.storeWord, Keeps.resume]

theorem Keeps.storeTime (h : Keeps s0 s) (x1 : Page) (x2 : Actor) (x3 : Nat) (x4 : Nat) : Keeps s0 (@State.storeTime s x1 x2 x3 x4) := by
  grind [State.storeTime, Keeps.onArr, Keeps.storeWord]

theorem Keeps.storeCond (h : Keeps s0 s) (x1 : Page) (x2 : Actor) (x3 : Nat) (x4 : Nat) : Keeps s0 (@State.storeCond s x1 x2 x3 x4) := by
  grind [State.storeCond, Keeps.onArr, Keeps.onCond, Keeps.storeWord]

theorem Keeps.writeEvtEn (h : Keeps s0 s) (x1 : Nat) (x2 : Nat) (x3 : Word) : Keeps s0 (@State.writeEvtEn s x1 x2 x3) := by
  grind [State.writeEvtEn, Keeps.setCtx, Keeps.runEvts]

theorem Keeps.writeEvt (h : Keeps s0 s) (x1 : Page) (x2 : Actor) (x3 : Nat) (x4 : Word) : Keeps s0 (@State.writeEvt s x1 x2 x3 x4) := by
  grind [State.writeEvt, Keeps.setCtx, Keeps.writeEvtEn]

theorem Keeps.writeExpert (h : Keeps s0 s) (x1 : Page) (x2 : Actor) (x3 : Nat) : Keeps s0 (@State.writeExpert s x1 x2 x3) := by
  unfold State.writeExpert
  repeat' first
    | with_reducible exact h
    | with_reducible apply Keeps.ite
    | with_reducible intro _
    | with_reducible apply Keeps.update

theorem Keeps.clearExpert (h : Keeps s0 s) (x1 : Page) : Keeps s0 (@State.clearExpert s x1) := h.other

theorem Keeps.unitReset (h : Keeps s0 s) (x1 : Page) : Keeps s0 (@State.unitReset s x1) := by
  unfold State.unitReset
  repeat' first
    | with_reducible assumption
    | with_reducible apply Keeps.clearArrs
    | with_reducible apply Keeps.clearExpert
    | with_reducible apply Keeps.ite
    | with_reducible intro _
    | with_reducible apply Keeps.update

theorem Keeps.writeCommon (h : Keeps s0 s) (x1 : Page) (x2 : Actor) (x3 : Nat) (x4 : Word) : Keeps s0 (@State.writeCommon s x1 x2 x3 x4) := by
  grind [State.writeCommon, Keeps.writeEvt, Keeps.writeExpert, Keeps.unitReset]

end
end Sys2Proof.Machine
end

