-- ==== Sys2Proof/Laws/KeepsPower.lean ====
section
/-! SUPPORT. What every operation keeps (Keeps): power, monitors and the governor. -/
set_option Elab.async false
namespace Sys2Proof.Machine
section
variable {s0 s : State}
theorem Keeps.domFields (h : Keeps s0 s) (x1 : Nat) (x2 : Bool) : Keeps s0 (@State.domFields s x1 x2) := h.other

theorem Keeps.domDown (h : Keeps s0 s) (d : Nat) (r : Bool) : Keeps s0 (s.domDown d r) := by
  unfold State.domDown
  have h1 := h.domFields d r
  generalize s.domFields d r = u at h1 ⊢
  dsimp only
  refine .ite (fun _ => h1.clearArrs _ _ (fun A hA => ?_)) (fun _ => .ite (fun _ => .ite (fun _ => h1) (fun _ => ?_)) (fun _ =>
    .ite (fun _ => ?_) (fun _ => .ite (fun _ => h1.update) (fun _ => .ite (fun _ => h1.update) (fun _ =>
    .ite (fun _ => h1.update) (fun _ => .ite (fun _ => h1.update) (fun _ => h1)))))))
  · cases r
    · rfl
    · exact hA
  · exact h1.withShared _ (fun hm => Memory.wf_zeroRange _ _ hm)
  · have h2 := h1.clearArrs (fun _ => true) (fun A => { A with banks := { A.banks with epochs := 0, loads := 0 } }) (fun _ hA => hA)
    exact .ite (fun _ => h2.update) (fun _ => h2.update)

theorem Keeps.waitRest (h : Keeps s0 s) (d r : Nat) : Keeps s0 (s.waitRest d r) := by
  unfold State.waitRest
  exact .ite (fun _ => h.setDom _ _) (fun _ => h.setDom _ _)

theorem Keeps.domReq (h : Keeps s0 s) (d v : Nat) : Keeps s0 (s.domReq d v) := by
  unfold State.domReq
  dsimp only
  split
  · exact (h.setDom _ _).raise _ _ _
  · exact Keeps.waitRest (.ite (fun _ => h.domDown _ _) (fun _ => h)) _ _

theorem Keeps.domSettle (h : Keeps s0 s) (d : Nat) : Keeps s0 (s.domSettle d) := by
  unfold State.domSettle
  exact .ite (fun _ => h.setDom _ _) (fun _ => h)

theorem Keeps.domDone (h : Keeps s0 s) (x1 : Nat) (x2 : DomState) : Keeps s0 (@State.domDone s x1 x2) := by
  grind [State.domDone, Keeps.setDom, Keeps.raise]

theorem Keeps.powerAck (h : Keeps s0 s) (x1 : Nat) : Keeps s0 (@State.powerAck s x1) := by
  grind [State.powerAck, Keeps.setDom, Keeps.domDown, Keeps.domDone]

theorem Keeps.sramZeroed (h : Keeps s0 s) (x1 : Nat) : Keeps s0 (@State.sramZeroed s x1) := by
  grind [State.sramZeroed, Keeps.domDone]

theorem Keeps.pwrTimeout (h : Keeps s0 s) (x1 : Nat) : Keeps s0 (@State.pwrTimeout s x1) := by
  grind [State.pwrTimeout, Keeps.setDom, Keeps.raise, Keeps.domDown]

theorem Keeps.holdEvents (old : State) (h : Keeps s0 s) : Keeps s0 (State.holdEvents old s) := by
  unfold State.holdEvents
  exact .ite (fun _ => h.raise _ _ _) (fun _ => .ite (fun _ => h.raise _ _ _) (fun _ => h))

theorem Keeps.holdReq (h : Keeps s0 s) (v : Nat) : Keeps s0 (s.holdReq v) := (h.setReg _ _ _ _).holdEvents _

theorem Keeps.monitorRefresh (h : Keeps s0 s) (m : MonSample) : Keeps s0 (s.monitorRefresh m) := by
  unfold State.monitorRefresh
  extract_lets old mon m1 s1 hot s2 bad crit cool now m3 s3 s4 s5 s6 total s7 m8 s8
  have h2 : Keeps s0 s2 := ((h.update).setReg _ _ _ _).setReg _ _ _ _
  clear_value s2
  have h3 : Keeps s0 s3 := h2.update
  clear_value s3
  have h4 : Keeps s0 s4 := .ite (fun _ => h3.raise _ _ _) (fun _ => h3)
  clear_value s4
  have h5 : Keeps s0 s5 := h4.holdEvents _
  clear_value s5
  have h6 : Keeps s0 s6 := h5.foldl _ (fun _ _ ht => ht.setReg _ _ _ _)
  clear_value s6
  have h7 : Keeps s0 s7 := h6.setReg _ _ _ _
  clear_value s7
  have h8 : Keeps s0 s8 := h7.update
  clear_value s8
  exact h8.foldl _ (f := State.domSettle) (fun _ _ ht => ht.domSettle _)

theorem Keeps.thermalStep (h : Keeps s0 s) (x1 : Nat) : Keeps s0 (@State.thermalStep s x1) := by
  unfold State.thermalStep
  repeat' first
    | with_reducible exact h
    | with_reducible apply Keeps.raise
    | with_reducible apply Keeps.ite
    | with_reducible intro _
    | with_reducible apply Keeps.update

theorem Keeps.vmonOut (h : Keeps s0 s) (x1 : Nat) : Keeps s0 (@State.vmonOut s x1) := by
  grind [State.vmonOut, Keeps.setReg, Keeps.raise]

theorem Keeps.vinSample (h : Keeps s0 s) (mv : Option Nat) : Keeps s0 (s.vinSample mv) := by
  unfold State.vinSample
  split
  · exact Keeps.setReg h.update _ _ _ _
  · rename_i mv
    extract_lets old s1 good low warn m2 s2
    have h1 : Keeps s0 s1 := (h.setReg _ _ _ _).setReg _ _ _ _
    clear_value s1
    have h2 : Keeps s0 s2 := h1.update
    clear_value s2
    exact Keeps.holdEvents _ (.ite (fun _ => h2.raiseBits _ _ _) (fun _ => h2))

theorem Keeps.vinLost (h : Keeps s0 s) : Keeps s0 s.vinLost := by
  unfold State.vinLost
  exact .ite (fun _ => h.raise _ _ _) (fun _ => h)

theorem Keeps.holdExit (h : Keeps s0 s) : Keeps s0 s.holdExit := by
  unfold State.holdExit
  exact .ite (fun _ => Keeps.holdEvents _ h.update) (fun _ => h)

theorem Keeps.governorStep (h : Keeps s0 s) : Keeps s0 (@State.governorStep s) := by
  unfold State.governorStep
  repeat' first
    | with_reducible assumption
    | with_reducible apply Keeps.drew
    | with_reducible apply Keeps.setDom
    | with_reducible apply Keeps.foldl
    | with_reducible intro _
    | with_reducible apply Keeps.update

theorem Keeps.capWindowEnd (h : Keeps s0 s) : Keeps s0 (@State.capWindowEnd s) := by
  unfold State.capWindowEnd
  repeat' first
    | with_reducible exact h
    | with_reducible apply Keeps.setReg
    | with_reducible apply Keeps.raise
    | with_reducible apply Keeps.ite
    | with_reducible intro _
    | with_reducible apply Keeps.update

theorem Keeps.apportion (h : Keeps s0 s) (x1 : Nat) : Keeps s0 (@State.apportion s x1) := by
  unfold State.apportion
  repeat' first
    | with_reducible assumption
    | with_reducible apply Keeps.onAcct
    | with_reducible apply Keeps.foldl
    | with_reducible intro _
    | with_reducible apply Keeps.update

theorem Keeps.meterApportion (h : Keeps s0 s) : Keeps s0 s.meterApportion := by
  have h1 := h.foldl (List.range 24) (f := fun (s : State) d => s.apportion d) (fun _ _ ht => ht.apportion _)
  unfold State.meterApportion
  generalize (List.range 24).foldl (fun (s : State) d => s.apportion d) s = u at h1 ⊢
  exact h1.update

theorem Keeps.tbLost (h : Keeps s0 s) : Keeps s0 (@State.tbLost s) := by
  unfold State.tbLost
  repeat' first
    | with_reducible exact h
    | with_reducible apply Keeps.raise
    | with_reducible apply Keeps.ite
    | with_reducible intro _
    | with_reducible apply Keeps.update

theorem Keeps.jtag (h : Keeps s0 s) (ir dr : Nat) (out : List Nat) : Keeps s0 (s.jtag ir dr out) := h.other

theorem Keeps.insert (h : Keeps s0 s) (d : Nat) (on : Bool) : Keeps s0 (s.insert d on) := h.update

theorem Keeps.instrument (h : Keeps s0 s) (d : Nat) (i : Instrument) : Keeps s0 (s.instrument d i) := by
  unfold State.instrument
  refine .ite (fun _ => (h.insert _ _).jtag _ _ _) (fun _ => .ite (fun _ => h.jtag _ _ _) (fun _ => ?_))
  have hi := h.insert d true
  generalize s.insert d true = v at hi ⊢
  dsimp only
  split
  · exact hi.jtag _ _ _
  · exact hi.jtag _ _ _
  · have h1 := hi.jtag 2 0 []
    generalize v.jtag 2 0 [] = u at h1 ⊢
    exact .ite (fun _ => h1.update) (fun _ => h1)
  · have h1 := hi.jtag 2 0 []
    generalize v.jtag 2 0 [] = u at h1 ⊢
    exact h1.update

end
end Sys2Proof.Machine
end

