-- ==== Sys2Proof/Laws/KeepsRingRows.lean ====
section
/-! SUPPORT. What every operation keeps (Keeps): the ring ports. -/
set_option Elab.async false
namespace Sys2Proof.Machine
section
variable {s0 s : State}
theorem Keeps.endMsg (h : Keeps s0 s) (x1 : Nat) (x2 : SendMsg) : Keeps s0 (@State.endMsg s x1 x2) := by
  grind [State.endMsg, Keeps.setRecv]

theorem Keeps.chanOff (h : Keeps s0 s) (x1 : Nat) (x2 : Nat) (x3 : Bool) : Keeps s0 (@State.chanOff s x1 x2 x3) := by
  unfold State.chanOff
  repeat' first
    | with_reducible assumption
    | with_reducible apply Keeps.setReg
    | with_reducible apply Keeps.onPort
    | with_reducible apply Keeps.setRecv
    | with_reducible apply Keeps.endMsg
    | with_reducible apply Keeps.ite
    | with_reducible apply Keeps.foldl
    | with_reducible intro _

theorem Keeps.resRefused (h : Keeps s0 s) (x1 : Nat) (x2 : Nat) (x3 : Bool) : Keeps s0 (@State.resRefused s x1 x2 x3) := by
  grind [State.resRefused, Keeps.raiseRing]

theorem Keeps.chanOn (h : Keeps s0 s) (x1 : Nat) (x2 : Nat) (x3 : Bool) : Keeps s0 (@State.chanOn s x1 x2 x3) := by
  grind [State.chanOn, Keeps.setReg, Keeps.setRecv, Keeps.setSend, Keeps.resRefused]

theorem Keeps.putResSlots (h : Keeps s0 s) (x1 : Nat) (x2 : Nat) (x3 : Bool) (x4 : Nat) : Keeps s0 (@State.putResSlots s x1 x2 x3 x4) := by
  grind [State.putResSlots, Keeps.setReg, Keeps.resRefused]

theorem Keeps.putCred (h : Keeps s0 s) (x1 : Nat) (x2 : Nat) (x3 : Bool) (x4 : Nat) : Keeps s0 (@State.putCred s x1 x2 x3 x4) := by
  grind [State.putCred, Keeps.setReg, Keeps.resRefused]

theorem Keeps.startTraining (h : Keeps s0 s) (x1 : Nat) : Keeps s0 (@State.startTraining s x1) := h.other

theorem Keeps.putLinkEn (h : Keeps s0 s) (x1 : Nat) (x2 : Nat) : Keeps s0 (@State.putLinkEn s x1 x2) := by
  grind [State.putLinkEn, Keeps.setReg, Keeps.onPort, Keeps.startTraining]

theorem Keeps.train (h : Keeps s0 s) (x1 : Nat) (x2 : CtlFlit) : Keeps s0 (@State.train s x1 x2) := by
  grind [State.train, Keeps.setReg, Keeps.onPort, Keeps.raiseRing, Keeps.linkFail]

theorem Keeps.attemptFails (h : Keeps s0 s) (x1 : Nat) : Keeps s0 (@State.attemptFails s x1) := by
  grind [State.attemptFails, Keeps.setPort, Keeps.raiseRing, Keeps.linkFail]

theorem Keeps.laneLoss (h : Keeps s0 s) (x1 : Nat) : Keeps s0 (@State.laneLoss s x1) := by
  grind [State.laneLoss, Keeps.linkFail]

theorem Keeps.storeRing (h : Keeps s0 s) (x1 : Page) (x2 : Actor) (x3 : Nat) (x4 : Nat) : Keeps s0 (@State.storeRing s x1 x2 x3 x4) := by
  grind [State.storeRing, Keeps.setReg, Keeps.enterRetrain, Keeps.storeWord, Keeps.chanOff, Keeps.chanOn, Keeps.putResSlots, Keeps.putCred, Keeps.putLinkEn]

theorem Keeps.msgAcked (h : Keeps s0 s) (x1 : Nat) (x2 : HeldPkt) : Keeps s0 (@State.msgAcked s x1 x2) := by
  unfold State.msgAcked
  try dsimp only
  repeat' first
    | with_reducible exact h
    | with_reducible apply Keeps.setReg
    | with_reducible apply Keeps.onPort
    | with_reducible apply Keeps.landAll
    | with_reducible apply Keeps.postAndLand
    | with_reducible apply Keeps.endMsg
    | with_reducible intro _
    | split

theorem Keeps.acked (h : Keeps s0 s) (x1 : Nat) (x2 : Nat) (x3 : Nat) (x4 : Nat) : Keeps s0 (@State.acked s x1 x2 x3 x4) := by
  unfold State.acked
  repeat' first
    | with_reducible assumption
    | with_reducible apply Keeps.onPort
    | with_reducible apply Keeps.ringViol
    | with_reducible apply Keeps.msgAcked
    | with_reducible apply Keeps.ite
    | with_reducible apply Keeps.foldl
    | with_reducible intro _

theorem Keeps.naked (h : Keeps s0 s) (x1 : Nat) (x2 : Nat) : Keeps s0 (@State.naked s x1 x2) := by
  grind [State.naked, Keeps.onPort, Keeps.ringViol]

theorem Keeps.retryAll (h : Keeps s0 s) (x1 : Nat) : Keeps s0 (@State.retryAll s x1) := by
  grind [State.retryAll, Keeps.onPort]

theorem Keeps.takeCredits (h : Keeps s0 s) (x1 : Nat) (x2 : Nat) (x3 : List Byte) : Keeps s0 (@State.takeCredits s x1 x2 x3) := by
  unfold State.takeCredits
  repeat' first
    | with_reducible assumption
    | with_reducible apply Keeps.setSend
    | with_reducible apply Keeps.ringViol
    | with_reducible apply Keeps.ite
    | with_reducible apply Keeps.foldl
    | with_reducible intro _

theorem Keeps.crcFail (h : Keeps s0 s) (x1 : Nat) (x2 : Nat) : Keeps s0 (@State.crcFail s x1 x2) := by
  grind [State.crcFail, Keeps.bump, Keeps.onPort, Keeps.ringViol, Keeps.enterRetrain]

theorem Keeps.takeFlit (h : Keeps s0 s) (x1 : Nat) (x2 : CtlFlit) : Keeps s0 (@State.takeFlit s x1 x2) := by
  grind [State.takeFlit, Keeps.train, Keeps.acked, Keeps.naked, Keeps.takeCredits, Keeps.crcFail]

theorem Keeps.acceptPacket (h : Keeps s0 s) (x1 : Nat) (x2 : Packet) : Keeps s0 (@State.acceptPacket s x1 x2) := by
  grind [State.acceptPacket, Keeps.setRecv, Keeps.loseMsg, Keeps.ringViol, Keeps.landStash]

theorem Keeps.takePacket (h : Keeps s0 s) (x1 : Nat) (x2 : Packet) : Keeps s0 (@State.takePacket s x1 x2) := by
  grind [State.takePacket, Keeps.onPort, Keeps.acked, Keeps.crcFail, Keeps.acceptPacket]

theorem Keeps.startMessage (h : Keeps s0 s) (x1 : Nat) (x2 : Nat) : Keeps s0 (@State.startMessage s x1 x2) := by
  unfold State.startMessage
  refine .ite (fun _ => h) (fun _ => ?_)
  split
  · exact h
  · rename_i b hb
    extract_lets gated u
    have hu : Keeps s0 u := .ite (fun _ => h.bagPurge _) (fun _ => h)
    clear_value u gated
    refine .ite (fun _ => hu) (fun _ => ?_)
    split
    · exact hu
    · rename_i w v hv
      have ht := (hu.bagTake _ _ _ hv)
      extract_lets t x d v2 len clean
      have hx : Keeps s0 v2 := Keeps.sharedRead ht _ _ _
      clear_value v2 d clean len x
      split
      · exact hx.msgDrop _ _
      · exact .ite (fun _ => (hx.msgDrop _ _).postAndLand _ _ _) (fun _ => (hx.setSend _ _ _).onPort _ _)

theorem Keeps.resent (h : Keeps s0 s) (x1 : Nat) (x2 : Nat) : Keeps s0 (@State.resent s x1 x2) := h.other

theorem Keeps.resendAll (p : Nat) (l : List HeldPkt) : ∀ {s : State} (_ : Keeps s0 s) (r n : Nat) (u b : List Nat),
    Keeps s0 (s.resendAll p l r n u b).1 := by
  induction l with
  | nil => intro s h r n u b; unfold State.resendAll; exact h
  | cons x l ih =>
    intro s h r n u b
    unfold State.resendAll
    split
    · exact ih (h.resent _ _) _ _ _ _
    · split
      · exact ih h _ _ _ _
      · refine ih ?_ _ _ _ _
        refine Keeps.resent ?_ _ _
        split
        · exact h.bump _ _ _
        · exact h

theorem Keeps.sendPacket (h : Keeps s0 s) (x1 : Nat) (x2 : Nat) : Keeps s0 (@State.sendPacket s x1 x2) := by
  grind [State.sendPacket, Keeps.setPort, Keeps.chargeRing, Keeps.bump64, Keeps.sharedRead, Keeps.setSend]

theorem Keeps.frame (h : Keeps s0 s) (x1 : Nat) : Keeps s0 (@State.frame s x1) := by
  unfold State.frame
  repeat' first
    | with_reducible assumption
    | with_reducible apply Keeps.onPort
    | with_reducible apply Keeps.resendAll
    | with_reducible apply Keeps.sendPacket
    | with_reducible apply Keeps.ite
    | with_reducible apply Keeps.foldl
    | with_reducible intro _

end
end Sys2Proof.Machine
end

