-- ==== Sys2Proof/Laws/KeepsResets.lean ====
section
/-! SUPPORT. What every operation keeps (Keeps): the resets. -/
set_option Elab.async false
namespace Sys2Proof.Machine
section
variable {s0 s : State}
theorem Keeps.abandonTask (h : Keeps s0 s) (x1 : Nat) : Keeps s0 (@State.abandonTask s x1) := by
  unfold State.abandonTask
  repeat' first
    | with_reducible exact h
    | with_reducible apply Keeps.onArr
    | with_reducible apply Keeps.setTask
    | with_reducible apply Keeps.dropReads
    | with_reducible apply Keeps.dropStaged
    | with_reducible apply Keeps.bagForget
    | with_reducible apply Keeps.bagSettle
    | (intro A hA; exact hA)
    | with_reducible intro _
    | split

theorem Keeps.dropWaiting (h : Keeps s0 s) (x1 : Nat) : Keeps s0 (@State.dropWaiting s x1) := h.other

theorem Keeps.tenBegin (h : Keeps s0 s) (x1 : Nat) : Keeps s0 (@State.tenBegin s x1) := by
  unfold State.tenBegin
  repeat' first
    | with_reducible assumption
    | with_reducible apply Keeps.setReg
    | with_reducible apply Keeps.onDisp
    | with_reducible apply Keeps.setQueue
    | with_reducible apply Keeps.releaseOn
    | with_reducible apply Keeps.clearArrs
    | with_reducible apply Keeps.chanOff
    | with_reducible apply Keeps.abandonTask
    | with_reducible apply Keeps.dropWaiting
    | with_reducible apply Keeps.ite
    | with_reducible apply Keeps.foldl
    | with_reducible intro _

theorem Keeps.tenClear (h : Keeps s0 s) (t : Nat) : Keeps s0 (s.tenClear t) := by
  unfold State.tenClear
  extract_lets pools subs regs mine box bag unit s1 sq conds s2 cache ctl s3
  have h1 : Keeps s0 s1 := h.clearArrs _ _ (fun _ _ => rfl)
  have hq : Keeps s0 sq := h1.foldl _ (fun _ _ ht => ht.setQueue _ _)
  clear_value sq
  have h2 : Keeps s0 s2 := hq.other
  clear_value s2
  have h3 : Keeps s0 s3 := (h2.withShared _ (fun hm => Memory.wf_zeroWhere _ hm)).other
  clear_value s3
  exact h3.setReg _ _ _ _

theorem Keeps.tenDone (h : Keeps s0 s) : Keeps s0 (@State.tenDone s) := by
  unfold State.tenDone
  repeat' first
    | with_reducible exact h
    | with_reducible apply Keeps.raise
    | with_reducible apply Keeps.tenClear
    | with_reducible intro _
    | split
    | with_reducible apply Keeps.update

theorem Keeps.startTen (h : Keeps s0 s) (x1 : Nat) : Keeps s0 (@State.startTen s x1) := by
  unfold State.startTen
  repeat' first
    | with_reducible exact h
    | with_reducible apply Keeps.setReg
    | with_reducible apply Keeps.tenBegin
    | with_reducible apply Keeps.ite
    | with_reducible intro _
    | with_reducible apply Keeps.update

theorem Keeps.applySoft (h : Keeps s0 s) (x1 : Nat) : Keeps s0 (@State.applySoft s x1) := by
  grind [State.applySoft, Keeps.onCond, Keeps.raiseArr]

theorem Keeps.startArr (h : Keeps s0 s) (x1 : Nat) : Keeps s0 (@State.startArr s x1) := by
  unfold State.startArr
  repeat' first
    | with_reducible exact h
    | with_reducible apply Keeps.onArr
    | with_reducible apply Keeps.setReg
    | with_reducible apply Keeps.applySoft
    | with_reducible apply Keeps.ite
    | (intro A hA; simpa using hA)
    | with_reducible intro _
    | with_reducible apply Keeps.update

theorem Keeps.arrDone (h : Keeps s0 s) (x1 : Option Nat) : Keeps s0 (@State.arrDone s x1) := by
  unfold State.arrDone
  repeat' first
    | with_reducible exact h
    | with_reducible apply Keeps.setReg
    | with_reducible apply Keeps.onCond
    | with_reducible apply Keeps.raise
    | split
    | with_reducible apply Keeps.update

theorem Keeps.rejoin (h : Keeps s0 s) (x1 : Nat) : Keeps s0 (@State.rejoin s x1) := by
  grind [State.rejoin, Keeps.onArr, Keeps.onCond]

theorem Keeps.startBlock (h : Keeps s0 s) : Keeps s0 s.startBlock := by
  have h1 := h.foldl (List.range 16) (f := fun (s : State) t => s.tenBegin t) (fun _ _ ht => ht.tenBegin _)
  unfold State.startBlock
  generalize (List.range 16).foldl (fun (s : State) t => s.tenBegin t) s = u at h1 ⊢
  exact h1.update

theorem Keeps.blockDone (h : Keeps s0 s) : Keeps s0 s.blockDone := by
  unfold State.blockDone
  refine .ite (fun _ => h) (fun _ => ?_)
  extract_lets fid regs conds chans s1
  have h1 : Keeps s0 s1 := h.trans ⟨rfl, rfl, Nat.le_refl _, id, fun _ => rfl, fun _ e he => absurd he (by simp [s1])⟩
  clear_value s1
  exact h1.raise _ _ _

/-- COLD_RESET keeps all of it but the fuses. -/
theorem State.cold_keeps (c : Nat) (f : FuseImage) :
    Keeps s { s.cold c f with fuses := s.fuses } :=
  ⟨rfl, rfl, Nat.le_refl _, id, fun _ => rfl, fun _ e he => absurd he (by simp [State.cold, State.reset])⟩

theorem Keeps.storeRst (h : Keeps s0 s) (x1 : Page) (x2 : Actor) (x3 : Nat) (x4 : Nat) : Keeps s0 (@State.storeRst s x1 x2 x3 x4) := by
  grind [State.storeRst, Keeps.storeWord, Keeps.startTen, Keeps.startArr, Keeps.startBlock]

end
end Sys2Proof.Machine
end

