-- ==== Sys2Proof/Laws/KeepsQueueCmds.lean ====
section
/-! SUPPORT. What every operation keeps (Keeps): the queue commands. -/
set_option Elab.async false
namespace Sys2Proof.Machine
section
variable {s0 s : State}
theorem Keeps.countFaulted (h : Keeps s0 s) (x1 : Nat) : Keeps s0 (@State.countFaulted s x1) := by
  grind [State.countFaulted, Keeps.bump, Keeps.raise]

theorem Keeps.runCache (h : Keeps s0 s) (c : Cmd) (ans : CacheAnswer) : Keeps s0 (s.runCache c ans) := by
  unfold State.runCache
  dsimp only
  have hc := fun rid => h.cacheCommand (tenOfQueue c.queue) c.queue rid c.bytes ans
  exact .ite (fun _ => h) (fun _ => Keeps.completeCmd (Keeps.onCmd (.ite (fun _ => (hc _).countFaulted _) (fun _ => hc _)) _ _) _ _)

theorem Keeps.placeLoads (h : Keeps s0 s) (x1 : Cmd) (x2 : List Nat) (x3 : BoundaryLoad) : Keeps s0 (@State.placeLoads s x1 x2 x3) := by
  unfold State.placeLoads
  repeat' first
    | with_reducible assumption
    | with_reducible apply Keeps.onArr
    | with_reducible apply Keeps.onCmd
    | with_reducible apply Keeps.settleLoad
    | with_reducible apply Keeps.applyLoads
    | with_reducible apply Keeps.foldl
    | with_reducible intro _

theorem Keeps.tableFault (h : Keeps s0 s) (c : Cmd) : Keeps s0 (s.tableFault c) :=
  ((h.lastTable _ _ _).raise _ _ _).completeCmd _ _

theorem Keeps.tableLoad (h : Keeps s0 s) (c : Cmd) (ans : PortAnswer) : Keeps s0 (s.tableLoad c ans) := by
  unfold State.tableLoad
  dsimp only
  have hu := fun a n => h.unitRead (tenOfQueue c.queue) a n ans
  exact .ite (fun _ => h.tableFault _) (fun _ => .ite (fun _ => (hu _ _).tableFault _) (fun _ => (hu _ _).placeLoads _ _ _))

theorem Keeps.streamArm (h : Keeps s0 s) (c : Cmd) (ans : PortAnswer) : Keeps s0 (s.streamArm c ans) := by
  unfold State.streamArm
  dsimp only
  have hu := fun a n => h.unitRead (tenOfQueue c.queue) a n ans
  exact .ite (fun _ => h.completeCmd _ _) (fun _ => .ite (fun _ => h.completeCmd _ _) (fun _ => .ite (fun _ => (hu _ _).completeCmd _ _)
    (fun _ => .ite (fun _ => (hu _ _).completeCmd _ _) (fun _ => .ite (fun _ => (hu _ _).completeCmd _ _)
      (fun _ => (hu _ _).placeLoads _ _ _)))))

theorem Keeps.meterRead (h : Keeps s0 s) (x1 : Cmd) : Keeps s0 (@State.meterRead s x1) := by
  grind [State.meterRead, Keeps.onCmd, Keeps.postWrite, Keeps.completeCmd]

end
end Sys2Proof.Machine
end

