-- ==== Sys2Proof/Laws/KeepsParcels.lean ====
section
/-! SUPPORT. What every operation keeps (Keeps): SAVE and RESTORE. -/
set_option Elab.async false
namespace Sys2Proof.Machine
section
variable {s0 s : State}
theorem Keeps.takeReading (h : Keeps s0 s) (x1 : Nat) (x2 : BitVec 512) : Keeps s0 (@State.takeReading s x1 x2).2 := h.other

theorem Keeps.putPoolRecord (h : Keeps s0 s) (p v : Nat) : Keeps s0 (s.putPoolRecord p v) := by
  have hl : ∀ (l : List (FieldSpec × Nat × Nat)) (n : Nat) {u : State}, Keeps s0 u → Keeps s0 (l.foldl (fun (x : State × Nat) f =>
      (x.1.setReg f.1 p (v / 2 ^ x.2 % 2 ^ f.2.2 * 2 ^ f.2.1), x.2 + f.2.2)) (u, n)).1 := by
    intro l
    induction l with
    | nil => intro n u hu; exact hu
    | cons f r ih => intro n u hu; exact ih _ (hu.setReg _ _ _ _)
  unfold State.putPoolRecord
  extract_lets s1
  have h1 : Keeps s0 s1 := hl _ 0 h
  clear_value s1
  exact ((h1.setReg _ _ _ _).setReg _ _ _ _).setReg _ _ _ _

theorem Keeps.save (h : Keeps s0 s) (c : Cmd) (ans : PortAnswer) : Keeps s0 (s.save c ans) := by
  unfold State.save
  dsimp only
  refine .ite (fun _ => (h.spoil _ _ _).completeCmd _ _) (fun _ => ?_)
  split
  · exact (Keeps.spoil (Keeps.unitError (h.chargeWrite _ _ _) _ _ _ _) _ _ _).completeCmd _ _
  · exact (h.writeMem _ _ _).completeCmd _ _

theorem Keeps.installSub (h : Keeps s0 s) (x1 : Nat) (x2 : Nat) (x3 : Nat) (x4 : List Byte) : Keeps s0 (@State.installSub s x1 x2 x3 x4) := by
  grind [State.installSub, Keeps.setSubRec]

theorem Keeps.installParcel (h : Keeps s0 s) (t sub seqno : Nat) (bs : List Byte) : Keeps s0 (s.installParcel t sub seqno bs) := by
  unfold State.installParcel
  extract_lets w n l s1 pools own s2 lb s3 m v s4 p s5 lo
  have h1 : Keeps s0 s1 := h.foldl _ (fun _ _ ht => ht.onArr _ _ (fun A hA => by rwa [ArrayState.install_store]))
  clear_value s1
  have h2 : Keeps s0 s2 := h1.foldl _ (fun _ _ ht => ht.putPoolRecord _ _)
  clear_value s2
  have h3 : Keeps s0 s3 := h2.foldl _ (fun _ _ ht => .ite (fun _ => ht.putLb _ _) (fun _ => ht))
  clear_value s3
  have h4 : Keeps s0 s4 := h3.onAcct _ _
  clear_value s4
  have h5 : Keeps s0 s5 := h4.foldl _ (fun _ _ ht => ht.installSub _ _ _ _)
  clear_value s5
  exact (h5.onDisp _).landAll

theorem Keeps.restore (h : Keeps s0 s) (c : Cmd) (ans : PortAnswer) : Keeps s0 (s.restore c ans) := by
  unfold State.restore
  extract_lets t a len bad x y s1 bs
  refine .ite (fun _ => h.completeCmd _ _) (fun _ => ?_)
  have h1 : Keeps s0 x.1 := h.unitRead _ _ _ _
  refine .ite (fun _ => h1.completeCmd _ _) (fun _ => ?_)
  have h2 : Keeps s0 s1 := h1.unitRead _ _ _ _
  clear_value s1
  exact .ite (fun _ => (h2.installParcel _ _ _ _).completeCmd _ _) (fun _ => h2.completeCmd _ _)

end
end Sys2Proof.Machine
end

