-- ==== Sys2Proof/Laws/KeepsDispatchRows.lean ====
section
/-! SUPPORT. What every operation keeps (Keeps): the dispatcher rows. -/
set_option Elab.async false
namespace Sys2Proof.Machine
section
variable {s0 s : State}
theorem Keeps.acceptNext (h : Keeps s0 s) : Keeps s0 (@State.acceptNext s) := by
  grind [State.acceptNext, Keeps.acceptHead, Keeps.takeReading]

end
end Sys2Proof.Machine
end

