-- ==== Sys2Proof/Laws/KeepsRegFile.lean ====
section
/-! SUPPORT. What every operation keeps (Keeps): register access. -/
set_option Elab.async false
namespace Sys2Proof.Machine
section
variable {s0 s : State}
theorem Keeps.storeDsp (h : Keeps s0 s) (x1 : Page) (x2 : Actor) (x3 : Nat) (x4 : Nat) : Keeps s0 (@State.storeDsp s x1 x2 x3 x4) := by
  grind [State.storeDsp, Keeps.storeWord, Keeps.subCtl, Keeps.hostPut, Keeps.acceptNext]

theorem Keeps.storeBlk (h : Keeps s0 s) (x1 : Page) (x2 : Actor) (x3 : Nat) (x4 : Nat) : Keeps s0 (@State.storeBlk s x1 x2 x3 x4) := by
  grind [State.storeBlk, Keeps.storeWord, Keeps.hostFid, Keeps.pmXfer]

theorem Keeps.storePwr (h : Keeps s0 s) (x1 : Page) (x2 : Actor) (x3 : Nat) (x4 : Nat) : Keeps s0 (@State.storePwr s x1 x2 x3 x4) := by
  grind [State.storePwr, Keeps.storeWord, Keeps.domReq, Keeps.holdReq]

theorem Keeps.storePage (h : Keeps s0 s) (x1 : Page) (x2 : Actor) (x3 : Nat) (x4 : Nat) : Keeps s0 (@State.storePage s x1 x2 x3 x4) := by
  grind [State.storePage, Keeps.storeWord, Keeps.storeTen, Keeps.storeLbx, Keeps.storeCache, Keeps.storeWalk, Keeps.storeMport, Keeps.storeMeter, Keeps.storeFault, Keeps.storeDlog, Keeps.storeFtab, Keeps.storeProg, Keeps.storeTime, Keeps.storeCond, Keeps.storeRing, Keeps.storeRst, Keeps.storeDsp, Keeps.storeBlk, Keeps.storePwr]

theorem Keeps.writeWord (h : Keeps s0 s) (x1 : Page) (x2 : Actor) (x3 : Nat) (x4 : Word) : Keeps s0 (@State.writeWord s x1 x2 x3 x4) := by
  grind [State.writeWord, Keeps.writeCommon, Keeps.storePage]

theorem Keeps.busWrite (h : Keeps s0 s) (x1 : Nat) (x2 : Nat) (x3 : AccessForm) (x4 : Word) : Keeps s0 (@State.busWrite s x1 x2 x3 x4) := by
  grind [State.busWrite, Keeps.answer, Keeps.portViol, Keeps.writeWord]

theorem Keeps.foreignDb (h : Keeps s0 s) (x1 : Nat) (x2 : Nat) : Keeps s0 (@State.foreignDb s x1 x2) := by
  grind [State.foreignDb, Keeps.setReg, Keeps.raise]

theorem Keeps.overpost (h : Keeps s0 s) (x1 : Nat) (x2 : BitVec 512) : Keeps s0 (@State.overpost s x1 x2) := by
  grind [State.overpost, Keeps.setReg, Keeps.bump, Keeps.raise]

theorem Keeps.doorbell (h : Keeps s0 s) (x1 : Nat) (x2 : Nat) (x3 : BitVec 512) : Keeps s0 (@State.doorbell s x1 x2 x3) := by
  grind [State.doorbell, Keeps.setQueue, Keeps.answer, Keeps.portViol, Keeps.foreignDb, Keeps.overpost]

theorem Keeps.popMsg (h : Keeps s0 s) (x1 : Nat) : Keeps s0 (@State.popMsg s x1) := h.other

theorem Keeps.eventSend (h : Keeps s0 s) : Keeps s0 (@State.eventSend s) := by
  unfold State.eventSend
  repeat' first
    | with_reducible exact h
    | with_reducible apply Keeps.dropMsg
    | with_reducible apply Keeps.popMsg
    | with_reducible intro _
    | split
    | with_reducible apply Keeps.update

theorem Keeps.eventAck (h : Keeps s0 s) : Keeps s0 (@State.eventAck s) := by
  unfold State.eventAck
  repeat' first
    | with_reducible exact h
    | with_reducible apply Keeps.portViol
    | with_reducible apply Keeps.ite
    | with_reducible intro _
    | with_reducible apply Keeps.update

end
end Sys2Proof.Machine
end

