-- ==== Sys2Proof/Laws/KeepsMemRows.lean ====
section
/-! SUPPORT. What every operation keeps (Keeps): the memory port rows. -/
set_option Elab.async false
namespace Sys2Proof.Machine
section
variable {s0 s : State}
theorem Keeps.retire (h : Keeps s0 s) (x1 : Nat) (x2 : Nat) : Keeps s0 (@State.retire s x1 x2) := h.other

theorem Keeps.afterTxn (h : Keeps s0 s) (c : Nat) (t : Txn) : Keeps s0 (s.afterTxn c t) := by
  unfold State.afterTxn
  extract_lets s1
  have h1 : Keeps s0 s1 := by
    unfold s1
    split
    · exact h.runPosts _
    · exact Keeps.releaseReset (.ite (fun _ => (h.unstage _).settleCmd _) (fun _ => h.sendReleased _))
    · exact h
  clear_value s1
  exact h1.pumpChan _ _

theorem Memory.wf_addF32 {m : Memory} (a : Nat) (bs : List Byte) (h : Memory.wf m = true) : Memory.wf (addF32 m a bs) = true := by
  unfold addF32
  generalize List.range (bs.length / 4) = l
  induction l generalizing m with
  | nil => exact h
  | cons i r ih => exact ih (Memory.wf_putLe _ _ _ h)

/-- The effect of an accepted transaction keeps the form of memory. -/
theorem Txn.apply_wf {m : Memory} (t : Txn) (h : Memory.wf m = true) : Memory.wf (t.apply m) = true := by
  unfold Txn.apply
  split
  · exact Memory.wf_putBytes _ _ h
  · exact Memory.wf_addF32 _ _ h
  · exact h

/-- Carrying out a transaction keeps the form of memory. -/
theorem Txn.perform_wf {m : Memory} (t : Txn) (adds : List Contribution) (h : Memory.wf m = true) :
    Memory.wf (t.perform adds m).1 = true := by
  unfold Txn.perform
  split
  · exact h
  · split
    · exact h
    · exact Txn.apply_wf _ h

theorem runTxns_wf {m : Memory} (held : List Contribution) (tag : Nat) (pre l : List (Nat × Txn)) (h : Memory.wf m = true) :
    Memory.wf (runTxns held tag m pre l).1 = true := by
  induction l generalizing m pre with
  | nil => exact h
  | cons x r ih =>
    unfold runTxns
    dsimp only
    split
    · exact Txn.perform_wf _ _ h
    · exact ih _ (Txn.perform_wf _ _ h)

theorem Keeps.carryOut (h : Keeps s0 s) (c tag : Nat) : Keeps s0 (s.carryOut c tag) :=
  (h.withMem (fun hm => runTxns_wf _ tag _ _ hm)).setChan _ _

theorem Keeps.rowBytes (h : Keeps s0 s) (t : Txn) : Keeps s0 (s.rowBytes t).2 := by
  unfold State.rowBytes
  split
  · exact .ite2 (fun _ => h.drew _) (fun _ => h)
  · exact h

theorem Keeps.txnOK (h : Keeps s0 s) (c tag : Nat) (t : Txn) : Keeps s0 (s.txnOK c tag t) := by
  unfold State.txnOK
  have h1 := h.retire c tag
  dsimp only
  exact .ite (fun _ => ((h1.rowBytes t).bump64 _ _ _ _).deliverRead _ _) (fun _ => h1.bump64 _ _ _ _)

theorem Keeps.spoilTxn (h : Keeps s0 s) (t : Txn) : Keeps s0 (s.spoilTxn t) := (h.putBytes _ _).drew _

theorem Keeps.txnError (h : Keeps s0 s) (c tag status : Nat) (t : Txn) : Keeps s0 (s.txnError c tag status t) := by
  unfold State.txnError
  extract_lets rel s1 s2
  have h1 : Keeps s0 s1 := (h.retire c tag).portErr _ _ _ _ _
  clear_value s1
  have h2 : Keeps s0 s2 := .ite (fun _ => h1.deliverRead _ _) (fun _ => h1.spoilTxn _)
  clear_value s2
  split
  · exact Keeps.loseCmd (.ite (fun _ => h2.losePosts _) (fun _ => h2)) _ _
  · split
    · exact h2.failNow _ _ _
    · exact h2
  · exact h2

theorem Keeps.statusOf (h : Keeps s0 s) (t : Txn) (n : Nat) : Keeps s0 (s.statusOf t n).2 := by
  unfold State.statusOf
  split
  · exact .ite2 (fun _ => h.setReg _ _ _ _) (fun _ => h)
  · exact h

theorem Keeps.answerTxn (h : Keeps s0 s) (c tag n : Nat) : Keeps s0 (s.answerTxn c tag n) := by
  unfold State.answerTxn
  dsimp only
  have hc := h.carryOut c tag
  split
  · exact hc
  · exact Keeps.afterTxn (.ite (fun _ => hc.txnOK _ _ _) (fun _ => hc.txnError _ _ _ _)) _ _

theorem Keeps.response (h : Keeps s0 s) (c tag n : Nat) (form : RespForm) : Keeps s0 (s.response c tag n form) := by
  unfold State.response
  dsimp only
  refine .ite (fun _ => h) (fun _ => ?_)
  split
  · exact h.memViol _ _ _
  · exact Keeps.answerTxn (Keeps.statusOf (.ite (fun _ => h) (fun _ => h.memViol _ _ _)) _ _) _ _ _

theorem Keeps.memCredits (h : Keeps s0 s) (x1 : Nat) (x2 : Nat) : Keeps s0 (@State.memCredits s x1 x2) := by
  grind [State.memCredits, Keeps.setChan, Keeps.pumpChan, Keeps.memViol]

theorem Keeps.txnTimeout (h : Keeps s0 s) (x1 : Nat) (x2 : Nat) : Keeps s0 (@State.txnTimeout s x1 x2) := by
  unfold State.txnTimeout
  split
  · exact h
  · exact (h.raise _ _ _).answerTxn _ _ _

theorem Keeps.finishWalk (h : Keeps s0 s) (w : Walk) (ans : PortAnswer) : Keeps s0 (s.finishWalk w ans) := by
  unfold State.finishWalk
  extract_lets cu s1 inj s2
  have h1 : Keeps s0 s1 := h.update
  clear_value s1
  have h2 : Keeps s0 s2 := .ite (fun _ => h1.setReg _ _ _ _) (fun _ => h1)
  clear_value s2
  split
  · extract_lets s3
    have h3 : Keeps s0 s3 := ((h2.bump _ _ _).chargeWalk _ _ _).unitError _ _ _ _
    clear_value s3
    exact .ite (fun _ => h3.failNow _ _ _) (fun _ => h3)
  · exact h2.endWalk _

theorem Keeps.walkRow (h : Keeps s0 s) (a seq page : Nat) (ans : PortAnswer) : Keeps s0 (s.walkRow a seq page ans) := by
  unfold State.walkRow
  refine .ite (fun _ => h) (fun _ => ?_)
  split
  · exact h.finishWalk _ _
  · split
    · exact h
    · split
      · exact h
      · exact .ite (fun _ => h) (fun _ => (h.startWalk _ _ _ _).finishWalk _ _)

end
end Sys2Proof.Machine
end

