-- ==== Sys2Proof/Laws/KeepsBatch.lean ====
section
/-! SUPPORT. What every operation keeps (Keeps): what a batch reads and writes. -/
set_option Elab.async false
namespace Sys2Proof.Machine
section
variable {s0 s : State}
theorem Keeps.countLine (h : Keeps s0 s) (t l : Nat) : Keeps s0 (s.countLine t l) := by
  unfold State.countLine
  exact .ite (fun _ => h.chargeRead _ _ _) (fun _ => h.violate _ _ _)

theorem Keeps.countRanges (h : Keeps s0 s) (t : Nat) (l : List ByteRange) : Keeps s0 (s.countRanges t l) := by
  unfold State.countRanges
  exact Keeps.foldl (h.foldl _ (fun _ _ hu => hu.countLine _ _)) _ (fun _ _ hu => hu.sharedRead _ _ _)

theorem Keeps.taskWrite (h : Keeps s0 s) (x1 : Nat) (x2 : Nat) (x3 : List Byte) : Keeps s0 (@State.taskWrite s x1 x2 x3) := by
  unfold State.taskWrite
  repeat' first
    | with_reducible assumption
    | with_reducible apply Keeps.violate
    | with_reducible apply Keeps.writeMem
    | with_reducible apply Keeps.ite
    | with_reducible apply Keeps.foldl
    | with_reducible intro _

end
end Sys2Proof.Machine
end

