-- ==== Sys2Proof/Laws/KeepsForming.lean ====
section
/-! SUPPORT. What every operation keeps (Keeps): RUN. -/
set_option Elab.async false
namespace Sys2Proof.Machine
section
variable {s0 s : State}
theorem Keeps.enterRun (h : Keeps s0 s) (c : Cmd) (r : Nat) (l : Args) (es : List Byte) (plans : List Plan)
    (outs : List ByteRange) : Keeps s0 (s.enterRun c r l es plans outs) := (h.onCmd _ _).settleCmd _

theorem Keeps.formVendor (h : Keeps s0 s) (c : Cmd) (t r len : Nat) (l : Args) (bs : List Byte) (el : List Nat) (ans : PortAnswer) :
    Keeps s0 (s.formVendor c t r len l bs el ans) := by
  unfold State.formVendor
  extract_lets es names descs x bad s1 v reads u
  have h1 : Keeps s0 s1 := .ite (fun _ => h.drew _) (fun _ => h)
  clear_value s1
  have h2 : Keeps s0 v := h1.foldl _ (fun _ _ ht => ht.chargeRead _ _ _)
  clear_value v
  have h3 : Keeps s0 u := h2.countRanges _ _
  clear_value u
  refine .ite (fun _ => h1.completeCmd _ _) (fun _ => .ite (fun _ => h1.completeCmd _ _) (fun _ => ?_))
  split
  · exact (h2.unitError _ _ _ _).completeCmd _ _
  · split
    · exact (h3.unitError _ _ _ _).completeCmd _ _
    · exact h3.enterRun _ _ _ _ _ _

theorem Keeps.formRun (h : Keeps s0 s) (c : Cmd) (ans : PortAnswer) : Keeps s0 (s.formRun c ans) := by
  unfold State.formRun
  extract_lets t r len addr fin l ea a b s1 bs el
  have hf : ∀ {v : State} st, Keeps s0 v → Keeps s0 (fin v st) := fun st hv => hv.completeCmd _ st
  have h1 : Keeps s0 a.1 := h.unitRead _ _ _ _
  have h2 : Keeps s0 s1 := h1.unitRead _ _ _ _
  clear_value fin
  refine .ite (fun _ => hf _ h) (fun _ => .ite (fun _ => hf _ h) (fun _ => .ite (fun _ => hf _ h) (fun _ => .ite (fun _ => hf _ h)
    (fun _ => .ite (fun _ => hf _ h1) (fun _ => .ite (fun _ => hf _ h2) (fun _ => ?_))))))
  clear_value s1
  exact .ite (fun _ => h2.enterRun _ _ _ _ _ _) (fun _ => h2.formVendor _ _ _ _ _ _ _ _)

end
end Sys2Proof.Machine
end

