-- ==== Sys2Proof/Laws/KeepsVendor.lean ====
section
/-! SUPPORT. What every operation keeps (Keeps): TASK_END. -/
set_option Elab.async false
namespace Sys2Proof.Machine
section
variable {s0 s : State}
theorem Keeps.seeReads (h : Keeps s0 s) (a t : Nat) (e : Effects) : Keeps s0 (s.seeReads a t e) := by
  unfold State.seeReads
  exact Keeps.countRanges (h.foldl _ (fun _ _ hu => hu.translate _ _ _ _)) _ _

theorem Keeps.armVendor (h : Keeps s0 s) (a : Nat) : Keeps s0 (s.armVendor a) := by
  unfold State.armVendor
  extract_lets w
  refine Keeps.drew (h.foldl _ (fun u e hu => ?_)) _
  refine hu.onArr _ _ ?_
  exact fun _ hA => hA

theorem Keeps.freezeStaging (h : Keeps s0 s) (a : Nat) : Keeps s0 (s.freezeStaging a) := by
  refine h.onArr _ _ ?_
  exact fun _ hA => hA

theorem Keeps.vendorError (h : Keeps s0 s) (a t addr kind : Nat) (e : PortError) : Keeps s0 (s.vendorError a t addr kind e) := by
  unfold State.vendorError
  extract_lets s1
  have h1 : Keeps s0 s1 := h.unitError _ _ _ _
  clear_value s1
  exact Keeps.failNow (.ite (fun _ => h1.spoilBytes _ _) (fun _ => h1)) _ _ _

/-- A fold over options that stays at `none`. -/
theorem Keeps.foldlOpt {β : Type} {f : State → β → Option State} (l : List β)
    (hf : ∀ t x, Keeps s0 t → ∀ u, f t x = some u → Keeps s0 u) :
    ∀ {o : Option State}, (∀ t, o = some t → Keeps s0 t) →
      ∀ u, foldOpt f l o = some u → Keeps s0 u := by
  induction l with
  | nil => intro o ho u hu; exact ho u hu
  | cons x r ih =>
    intro o ho
    refine ih ?_
    intro t ht
    cases o with
    | none => cases ht
    | some v => exact hf v x (ho v rfl) t ht

theorem Keeps.stageWords (h : Keeps s0 s) (cid rid t addr : Nat) (l : List Word) :
    ∀ u, s.stageWords cid rid t addr l = some u → Keeps s0 u := by
  intro u hu
  unfold State.stageWords at hu
  dsimp only at hu
  split at hu
  · exact h.stageAdd _ _ _ _ _ _ _ u hu
  · exact Option.some.inj hu ▸ h.violate _ _ _

/-- A fold over states that come with something else. -/
theorem Keeps.foldl1 {α β : Type} {f : State × α → β → State × α} (l : List β) {r : State × α} (h : Keeps s0 r.1)
    (hf : ∀ r x, Keeps s0 r.1 → Keeps s0 (f r x).1) : Keeps s0 (l.foldl f r).1 := by
  induction l generalizing r with
  | nil => exact h
  | cons x l ih => exact ih (hf r x h)

theorem Keeps.takeHandles (h : Keeps s0 s) (c : Cmd) (l : List (Nat × Nat)) : Keeps s0 (s.takeHandles c l).1 := by
  unfold State.takeHandles
  refine Keeps.foldl1 l h (fun r x hr => ?_)
  dsimp only
  split
  · exact hr
  · split
    · exact hr
    · split
      · exact Keeps.onCmd (Keeps.bagTake hr _ _ _ ‹_›) _ _
      · exact hr.bagWaitTake _ _

theorem Keeps.spoilFirst (h : Keeps s0 s) (a n : Nat) (l : List Byte) :
    Keeps s0 ((s.onArr a fun A => A.save 0 l).drew n) :=
  (h.onArr a _ (fun A hA => ArrayState.save_wf _ _ hA)).drew n

theorem Keeps.spoilStore (h : Keeps s0 s) (a : Nat) : Keeps s0 (s.spoilStore a) := by
  unfold State.spoilStore
  dsimp only
  with_reducible exact h.spoilFirst a _ _

theorem Keeps.countRuns (h : Keeps s0 s) (x1 : Nat) : Keeps s0 (@State.countRuns s x1) := by
  grind [State.countRuns, Keeps.onArr, Keeps.drew]

theorem Keeps.applyEffects (h : Keeps s0 s) (a rid : Nat) (t : Task) (e : Effects) :
    ∀ u, s.applyEffects a rid t e = some u → Keeps s0 u := by
  intro u hu
  unfold State.applyEffects at hu
  obtain ⟨v, hv, rfl⟩ := Option.map_eq_some_iff.1 hu
  clear hu
  have hr : Keeps s0 (s.seeReads a t.ten e) := h.seeReads _ _ _
  generalize s.seeReads a t.ten e = q at hv hr
  have h0 : Keeps s0 v := by
    refine Keeps.foldlOpt _ ?_ ?_ v hv
    · exact fun _ _ hw => hw.stageWords _ _ _ _ _
    · exact fun _ hw => Option.some.inj hw ▸ hr
  extract_lets s1 s2 s3 s4
  have h1 : Keeps s0 s1 := h0.foldl _ (fun _ _ hw => hw.taskWrite _ _ _)
  clear_value s1
  have h2 : Keeps s0 s2 := h1.foldl _ (fun _ _ hw => hw.sharedWrite _ _ _)
  clear_value s2
  have h3 : Keeps s0 s3 := by
    simp only [s3]
    split
    · exact h2.onCmd _ _
    · exact h2
  clear_value s3
  have h4 : Keeps s0 s4 := h3.onTask _ _
  clear_value s4
  refine Keeps.onArr (Keeps.armVendor (Keeps.countRuns (h4.spoilStore a) a) a) a _ ?_
  exact fun A hA => hA

theorem Keeps.vendorChecks (h : Keeps s0 s) (a : Nat) (sh : Bool) (ta : Option Nat) : Keeps s0 (s.vendorChecks a sh ta) := by
  unfold State.vendorChecks
  extract_lets w u v
  have hu : Keeps s0 u := by
    unfold u
    split
    · exact .ite (fun _ => Keeps.drew (Keeps.tallyOutcome (h.setReg _ _ _ _) _ _ _ _ _ _) _) (fun _ => h)
    · exact h
  clear_value u
  have hv : Keeps s0 v := hu.foldl _ (fun _ _ ht => ht.checkUnit _ _)
  clear_value v
  split
  · exact hv.beginAbandon _ _
  · exact hv

theorem Keeps.endVendor (h : Keeps s0 s) (a rid : Nat) (t : Task) (c : Cmd) (ans : PortAnswer) :
    Keeps s0 (s.endVendor a rid t c ans) := by
  unfold State.endVendor
  extract_lets x k u v
  have hu : Keeps s0 u := h.vendorChecks _ _ _
  refine .ite (fun _ => hu) (fun _ => ?_)
  have hv : Keeps s0 v.1 := hu.takeHandles _ _
  clear_value v x u
  refine .ite (fun _ => hv) (fun _ => ?_)
  split
  · exact hv
  · refine .ite (fun _ => hv.onTask _ _) (fun _ => ?_)
    extract_lets e
    split
    · exact (hv.seeReads _ _ _).vendorError _ _ _ _ _
    · cases hw : v.1.applyEffects a rid t e with
      | none => exact hv.freezeStaging _
      | some y => exact hv.applyEffects _ _ _ _ y hw

theorem Keeps.haltAt (h : Keeps s0 s) (a : Nat) : Keeps s0 (s.haltAt a) := by
  unfold State.haltAt
  refine Keeps.raiseArr (h.onArr _ _ ?_) _ _ _
  intro A hA
  dsimp only
  exact hA

theorem Keeps.endTenancy (h : Keeps s0 s) (x1 : Nat) (x2 : Nat) : Keeps s0 (@State.endTenancy s x1 x2) := by
  grind [State.endTenancy, Keeps.onArr, Keeps.onTask, Keeps.bagForget]

theorem Keeps.taskEnd (h : Keeps s0 s) (a : Nat) (ans : PortAnswer) : Keeps s0 (s.taskEnd a ans) := by
  grind [State.taskEnd, Keeps.endVendor, Keeps.endTenancy, Keeps.haltAt]

end
end Sys2Proof.Machine
end

