-- ==== Sys2Proof/Laws/KeepsExec.lean ====
section
/-! SUPPORT. What every operation keeps (Keeps): each command. -/
set_option Elab.async false
namespace Sys2Proof.Machine
section
variable {s t : State}

/-- What an outcome's next state keeps. -/
def OutKeeps (s : State) (o : Host.Outcome State Fault Refusal) : Prop := ∀ t, o = .next t → Keeps s t

theorem OutKeeps.next (h : Keeps s t) : OutKeeps s (.next t) := fun u hu => by cases hu; exact h
theorem OutKeeps.onTurn (q k : Nat) (f : Cmd → State) (h : ∀ c, Keeps s (f c)) : OutKeeps s (s.onTurn q k f) := by
  unfold State.onTurn
  split
  · exact .next (h _)
  · exact .next (.refl s)
theorem OutKeeps.onPortTurn (q k : Nat) (f : State → Cmd → State) (h : ∀ c u, Keeps s u → Keeps s (f u c)) :
    OutKeeps s (s.onPortTurn q k f) := .onTurn _ _ _ (fun c => (Keeps.refl s).portRow _ _ (fun u hu => h c u hu))
theorem OutKeeps.portRow (who cls : Nat) (f : State → State) (h : ∀ u, Keeps s u → Keeps s (f u)) :
    OutKeeps s (.next (s.portRow who cls f)) := .next ((Keeps.refl s).portRow _ _ h)
theorem OutKeeps.onDomain (d : Nat) (h : Keeps s t) : OutKeeps s (onDomain d t) := by
  unfold Sys2Proof.Machine.onDomain
  split
  · exact .next h
  · exact fun u hu => by cases hu
theorem OutKeeps.pageWrite (fid : Fid) (page off : Nat) (v : Word) : OutKeeps s (s.pageWrite fid page off v) :=
  .next (.busWrite (.refl s) _ _ _ _)

theorem OutKeeps.execBeat (a : Arr) : OutKeeps s (execBeat a s) :=
  .next (by with_reducible apply Keeps.beat; exact .refl s)
theorem OutKeeps.execFrozenBeatComplete (a : Arr) : OutKeeps s (execFrozenBeatComplete a s) :=
  .next (by with_reducible apply Keeps.frozenComplete; exact .refl s)
theorem OutKeeps.execFreezeLong (a : Arr) : OutKeeps s (execFreezeLong a s) :=
  .next (by with_reducible apply Keeps.freezeLong; exact .refl s)
theorem OutKeeps.execWait (a : Arr) (n : Nat) : OutKeeps s (execWait a n s) :=
  .next (by with_reducible apply Keeps.waitRow; exact .refl s)
theorem OutKeeps.execFeederDeliver (a : Arr) : OutKeeps s (execFeederDeliver a s) :=
  .next (by with_reducible apply Keeps.landOrdered; exact .refl s)
theorem OutKeeps.execMmaLand (a : Arr) : OutKeeps s (execMmaLand a s) :=
  .next (by with_reducible apply Keeps.landOrdered; exact .refl s)
theorem OutKeeps.execMvLand (a : Arr) (close : Option (BitVec 4)) : OutKeeps s (execMvLand a close s) :=
  by
  refine .next ?_
  have h1 := fun p => (Keeps.refl s).landOrdered a.toNat p
  split
  · exact .ite (fun _ => (h1 _).closeQuery _ _) (fun _ => h1 _)
  · exact h1 _
theorem OutKeeps.execSwapLand (a : Arr) : OutKeeps s (execSwapLand a s) :=
  .next (by with_reducible apply Keeps.landOrdered; exact .refl s)
theorem OutKeeps.execDrainRow (a : Arr) : OutKeeps s (execDrainRow a s) :=
  .next (by with_reducible apply Keeps.landOrdered; exact .refl s)
theorem OutKeeps.execRowscaleLand (a : Arr) : OutKeeps s (execRowscaleLand a s) :=
  .next (by with_reducible apply Keeps.landOrdered; exact .refl s)
theorem OutKeeps.execGloadComplete (a : Arr) : OutKeeps s (execGloadComplete a s) :=
  .next (by with_reducible apply Keeps.landOrdered; exact .refl s)
theorem OutKeeps.execEvalResult (a : Arr) : OutKeeps s (execEvalResult a s) :=
  .next (by with_reducible apply Keeps.landOrdered; exact .refl s)
theorem OutKeeps.execOperationLands (a : Arr) : OutKeeps s (execOperationLands a s) :=
  .next (by with_reducible apply Keeps.landOrdered; exact .refl s)
theorem OutKeeps.execStreamMove (a : Arr) (e : BitVec 2) : OutKeeps s (execStreamMove a e s) :=
  .next (by with_reducible apply Keeps.moveRow; exact .refl s)
theorem OutKeeps.execStreamNextbase (a : Arr) (e : BitVec 2) : OutKeeps s (execStreamNextbase a e s) :=
  .next (by with_reducible apply Keeps.nextBaseRow; exact .refl s)
theorem OutKeeps.execStreamPost (a : Arr) (e : BitVec 2) : OutKeeps s (execStreamPost a e s) :=
  .next (by with_reducible apply Keeps.postRow; exact .refl s)
theorem OutKeeps.execSharedStoreDelivery (a : Arr) (arrived : Bool) : OutKeeps s (execSharedStoreDelivery a arrived s) :=
  by
  have h := Keeps.refl s
  refine .next (.ite (fun _ => h) (fun _ => .ite (fun _ => ?_) (fun _ => .ite (fun _ => h) (fun _ =>
    .ite (fun _ => h.slipBegin _) (fun _ => h.wordLate _)))))
  refine Keeps.deliverWords ((h.onArr _ _ ?_).landDeliveries _) _
  exact fun _ hA => hA
theorem OutKeeps.execFeederRead (a : Arr) (p : Pred) (sideB : Bool) (desc : BitVec 6) (kstep : BitVec 7) : OutKeeps s (execFeederRead a p sideB desc kstep s) :=
  .next (by with_reducible apply Keeps.issueRow; exact .refl s)
theorem OutKeeps.execMma (a : Arr) (p : Pred) (f : MmaFields) : OutKeeps s (execMma a p f s) :=
  .next (by with_reducible apply Keeps.issueRow; exact .refl s)
theorem OutKeeps.execDot (a : Arr) (p : Pred) (f : DotFields) : OutKeeps s (execDot a p f s) :=
  .next (by with_reducible apply Keeps.issueRow; exact .refl s)
theorem OutKeeps.execAxpy (a : Arr) (p : Pred) (f : AxpyFields) : OutKeeps s (execAxpy a p f s) :=
  .next (by with_reducible apply Keeps.issueRow; exact .refl s)
theorem OutKeeps.execSwap (a : Arr) (p : Pred) (grp : BitVec 3) (dest : SwapDest) : OutKeeps s (execSwap a p grp dest s) :=
  .next (by with_reducible apply Keeps.issueRow; exact .refl s)
theorem OutKeeps.execRowscale (a : Arr) (p : Pred) (grp : BitVec 3) (vreg : BitVec 5) : OutKeeps s (execRowscale a p grp vreg s) :=
  .next (by with_reducible apply Keeps.issueRow; exact .refl s)
theorem OutKeeps.execGload (a : Arr) (p : Pred) (grp : BitVec 3) (src : TileAddr) : OutKeeps s (execGload a p grp src s) :=
  .next (by with_reducible apply Keeps.issueRow; exact .refl s)
theorem OutKeeps.execSpecialFunctionIssue (a : Arr) (p : Pred) (f : SfFields) : OutKeeps s (execSpecialFunctionIssue a p f s) :=
  .next (by with_reducible apply Keeps.issueRow; exact .refl s)
theorem OutKeeps.execFadd (a : Arr) (p : Pred) (f : VFields) : OutKeeps s (execFadd a p f s) :=
  .next (by with_reducible apply Keeps.issueRow; exact .refl s)
theorem OutKeeps.execFsub (a : Arr) (p : Pred) (f : VFields) : OutKeeps s (execFsub a p f s) :=
  .next (by with_reducible apply Keeps.issueRow; exact .refl s)
theorem OutKeeps.execFmul (a : Arr) (p : Pred) (f : VFields) : OutKeeps s (execFmul a p f s) :=
  .next (by with_reducible apply Keeps.issueRow; exact .refl s)
theorem OutKeeps.execFma (a : Arr) (p : Pred) (f : VFields) : OutKeeps s (execFma a p f s) :=
  .next (by with_reducible apply Keeps.issueRow; exact .refl s)
theorem OutKeeps.execFnma (a : Arr) (p : Pred) (f : VFields) : OutKeeps s (execFnma a p f s) :=
  .next (by with_reducible apply Keeps.issueRow; exact .refl s)
theorem OutKeeps.execFdiv (a : Arr) (p : Pred) (f : VFields) : OutKeeps s (execFdiv a p f s) :=
  .next (by with_reducible apply Keeps.issueRow; exact .refl s)
theorem OutKeeps.execFmax (a : Arr) (p : Pred) (f : VFields) : OutKeeps s (execFmax a p f s) :=
  .next (by with_reducible apply Keeps.issueRow; exact .refl s)
theorem OutKeeps.execFmin (a : Arr) (p : Pred) (f : VFields) : OutKeeps s (execFmin a p f s) :=
  .next (by with_reducible apply Keeps.issueRow; exact .refl s)
theorem OutKeeps.execFclt (a : Arr) (p : Pred) (f : VFields) : OutKeeps s (execFclt a p f s) :=
  .next (by with_reducible apply Keeps.issueRow; exact .refl s)
theorem OutKeeps.execFsel (a : Arr) (p : Pred) (f : VFields) : OutKeeps s (execFsel a p f s) :=
  .next (by with_reducible apply Keeps.issueRow; exact .refl s)
theorem OutKeeps.execCvt (a : Arr) (p : Pred) (f : VFields) : OutKeeps s (execCvt a p f s) :=
  .next (by with_reducible apply Keeps.issueRow; exact .refl s)
theorem OutKeeps.execIand (a : Arr) (p : Pred) (f : VFields) : OutKeeps s (execIand a p f s) :=
  .next (by with_reducible apply Keeps.issueRow; exact .refl s)
theorem OutKeeps.execIor (a : Arr) (p : Pred) (f : VFields) : OutKeeps s (execIor a p f s) :=
  .next (by with_reducible apply Keeps.issueRow; exact .refl s)
theorem OutKeeps.execIadd (a : Arr) (p : Pred) (f : VFields) : OutKeeps s (execIadd a p f s) :=
  .next (by with_reducible apply Keeps.issueRow; exact .refl s)
theorem OutKeeps.execIclt (a : Arr) (p : Pred) (f : VFields) : OutKeeps s (execIclt a p f s) :=
  .next (by with_reducible apply Keeps.issueRow; exact .refl s)
theorem OutKeeps.execVld (a : Arr) (p : Pred) (vd : BitVec 5) (desc : BitVec 6) : OutKeeps s (execVld a p vd desc s) :=
  .next (by with_reducible apply Keeps.issueRow; exact .refl s)
theorem OutKeeps.execVst (a : Arr) (p : Pred) (vs : BitVec 5) (desc : BitVec 6) : OutKeeps s (execVst a p vs desc s) :=
  .next (by with_reducible apply Keeps.issueRow; exact .refl s)
theorem OutKeeps.execXsum (a : Arr) (p : Pred) (f : VFields) : OutKeeps s (execXsum a p f s) :=
  .next (by with_reducible apply Keeps.issueRow; exact .refl s)
theorem OutKeeps.execBcast (a : Arr) (p : Pred) (f : VFields) : OutKeeps s (execBcast a p f s) :=
  .next (by with_reducible apply Keeps.issueRow; exact .refl s)
theorem OutKeeps.execExtr (a : Arr) (p : Pred) (f : VFields) : OutKeeps s (execExtr a p f s) :=
  .next (by with_reducible apply Keeps.issueRow; exact .refl s)
theorem OutKeeps.execRsumrd (a : Arr) (p : Pred) (f : VFields) : OutKeeps s (execRsumrd a p f s) :=
  .next (by with_reducible apply Keeps.issueRow; exact .refl s)
theorem OutKeeps.execRsumwr (a : Arr) (p : Pred) (f : VFields) : OutKeeps s (execRsumwr a p f s) :=
  .next (by with_reducible apply Keeps.issueRow; exact .refl s)
theorem OutKeeps.execLaneid (a : Arr) (p : Pred) (f : VFields) : OutKeeps s (execLaneid a p f s) :=
  .next (by with_reducible apply Keeps.issueRow; exact .refl s)
theorem OutKeeps.execGfrd (a : Arr) (p : Pred) (f : VFields) : OutKeeps s (execGfrd a p f s) :=
  .next (by with_reducible apply Keeps.issueRow; exact .refl s)
theorem OutKeeps.execAdd (a : Arr) (p : Pred) (f : RForm) : OutKeeps s (execAdd a p f s) :=
  .next (by with_reducible apply Keeps.issueRow; exact .refl s)
theorem OutKeeps.execSub (a : Arr) (p : Pred) (f : RForm) : OutKeeps s (execSub a p f s) :=
  .next (by with_reducible apply Keeps.issueRow; exact .refl s)
theorem OutKeeps.execAndW (a : Arr) (p : Pred) (f : RForm) : OutKeeps s (execAndW a p f s) :=
  .next (by with_reducible apply Keeps.issueRow; exact .refl s)
theorem OutKeeps.execOrW (a : Arr) (p : Pred) (f : RForm) : OutKeeps s (execOrW a p f s) :=
  .next (by with_reducible apply Keeps.issueRow; exact .refl s)
theorem OutKeeps.execXorW (a : Arr) (p : Pred) (f : RForm) : OutKeeps s (execXorW a p f s) :=
  .next (by with_reducible apply Keeps.issueRow; exact .refl s)
theorem OutKeeps.execShl (a : Arr) (p : Pred) (f : RForm) : OutKeeps s (execShl a p f s) :=
  .next (by with_reducible apply Keeps.issueRow; exact .refl s)
theorem OutKeeps.execShr (a : Arr) (p : Pred) (f : RForm) : OutKeeps s (execShr a p f s) :=
  .next (by with_reducible apply Keeps.issueRow; exact .refl s)
theorem OutKeeps.execAddi (a : Arr) (p : Pred) (sd sa : BitVec 5) (imm : BitVec 12) : OutKeeps s (execAddi a p sd sa imm s) :=
  .next (by with_reducible apply Keeps.issueRow; exact .refl s)
theorem OutKeeps.execLli (a : Arr) (p : Pred) (sd : BitVec 5) (imm : BitVec 16) : OutKeeps s (execLli a p sd imm s) :=
  .next (by with_reducible apply Keeps.issueRow; exact .refl s)
theorem OutKeeps.execLui (a : Arr) (p : Pred) (sd : BitVec 5) (imm : BitVec 16) : OutKeeps s (execLui a p sd imm s) :=
  .next (by with_reducible apply Keeps.issueRow; exact .refl s)
theorem OutKeeps.execMul (a : Arr) (p : Pred) (f : RForm) : OutKeeps s (execMul a p f s) :=
  .next (by with_reducible apply Keeps.issueRow; exact .refl s)
theorem OutKeeps.execPtset (a : Arr) (p : Pred) (pt : BitVec 4) (sa : BitVec 5) : OutKeeps s (execPtset a p pt sa s) :=
  .next (by with_reducible apply Keeps.issueRow; exact .refl s)
theorem OutKeeps.execPtcfg (a : Arr) (p : Pred) (pt : BitVec 4) (level : BitVec 2) (rewind : Bool) (sa : BitVec 5) : OutKeeps s (execPtcfg a p pt level rewind sa s) :=
  .next (by with_reducible apply Keeps.issueRow; exact .refl s)
theorem OutKeeps.execPtrd (a : Arr) (p : Pred) (sd : BitVec 5) (pt : BitVec 4) : OutKeeps s (execPtrd a p sd pt s) :=
  .next (by with_reducible apply Keeps.issueRow; exact .refl s)
theorem OutKeeps.execCtset (a : Arr) (p : Pred) (ct : BitVec 3) (sa : BitVec 5) : OutKeeps s (execCtset a p ct sa s) :=
  .next (by with_reducible apply Keeps.issueRow; exact .refl s)
theorem OutKeeps.execCtadd (a : Arr) (p : Pred) (ct : BitVec 3) (imm : BitVec 16) : OutKeeps s (execCtadd a p ct imm s) :=
  .next (by with_reducible apply Keeps.issueRow; exact .refl s)
theorem OutKeeps.execCtrd (a : Arr) (p : Pred) (sd : BitVec 5) (ct : BitVec 3) : OutKeeps s (execCtrd a p sd ct s) :=
  .next (by with_reducible apply Keeps.issueRow; exact .refl s)
theorem OutKeeps.execCmpset (a : Arr) (p : Pred) (f : CmpSetFields) : OutKeeps s (execCmpset a p f s) :=
  .next (by with_reducible apply Keeps.issueRow; exact .refl s)
theorem OutKeeps.execRepeatBody (a : Arr) (p : Pred) (body1 : BitVec 6) (csrc : Bool) (count1 : BitVec 12) : OutKeeps s (execRepeatBody a p body1 csrc count1 s) :=
  .next (by with_reducible apply Keeps.issueRow; exact .refl s)
theorem OutKeeps.execCall (a : Arr) (p : Pred) (routine : BitVec 10) : OutKeeps s (execCall a p routine s) :=
  .next (by with_reducible apply Keeps.issueRow; exact .refl s)
theorem OutKeeps.execRet (a : Arr) (p : Pred) : OutKeeps s (execRet a p s) :=
  .next (by with_reducible apply Keeps.issueRow; exact .refl s)
theorem OutKeeps.execEndTask (a : Arr) (p : Pred) : OutKeeps s (execEndTask a p s) :=
  .next (by with_reducible apply Keeps.issueRow; exact .refl s)
theorem OutKeeps.execTepoch (a : Arr) (p : Pred) : OutKeeps s (execTepoch a p s) :=
  .next (by with_reducible apply Keeps.issueRow; exact .refl s)
theorem OutKeeps.execAstg (a : Arr) (p : Pred) (f : AstgFields) : OutKeeps s (execAstg a p f s) :=
  .next (by with_reducible apply Keeps.issueRow; exact .refl s)
theorem OutKeeps.execDset (a : Arr) (p : Pred) (desc : BitVec 6) (sa : BitVec 5) : OutKeeps s (execDset a p desc sa s) :=
  .next (by with_reducible apply Keeps.issueRow; exact .refl s)
theorem OutKeeps.execLbpost (a : Arr) (p : Pred) (obj : BitVec 13) (sa : BitVec 5) : OutKeeps s (execLbpost a p obj sa s) :=
  .next (by with_reducible apply Keeps.issueRow; exact .refl s)
theorem OutKeeps.execLbwait (a : Arr) (p : Pred) (obj : BitVec 13) (sa : BitVec 5) : OutKeeps s (execLbwait a p obj sa s) :=
  .next (by with_reducible apply Keeps.issueRow; exact .refl s)
theorem OutKeeps.execLbread (a : Arr) (p : Pred) (obj : BitVec 13) (sd : BitVec 5) : OutKeeps s (execLbread a p obj sd s) :=
  .next (by with_reducible apply Keeps.issueRow; exact .refl s)
theorem OutKeeps.execMbput (a : Arr) (p : Pred) (obj : BitVec 13) (sa : BitVec 5) : OutKeeps s (execMbput a p obj sa s) :=
  .next (by with_reducible apply Keeps.issueRow; exact .refl s)
theorem OutKeeps.execMbtake (a : Arr) (p : Pred) (obj : BitVec 13) (sd : BitVec 5) : OutKeeps s (execMbtake a p obj sd s) :=
  .next (by with_reducible apply Keeps.issueRow; exact .refl s)
theorem OutKeeps.execCollectionArrival (a : Arr) (p : Pred) : OutKeeps s (execCollectionArrival a p s) :=
  .next (by with_reducible apply Keeps.issueRow; exact .refl s)
theorem OutKeeps.execSgo (a : Arr) (p : Pred) (e : BitVec 2) (entry : BitVec 5) : OutKeeps s (execSgo a p e entry s) :=
  .next (by with_reducible apply Keeps.issueRow; exact .refl s)
theorem OutKeeps.execSadv (a : Arr) (p : Pred) (e : BitVec 2) (n1 : BitVec 8) : OutKeeps s (execSadv a p e n1 s) :=
  .next (by with_reducible apply Keeps.issueRow; exact .refl s)
theorem OutKeeps.execShalt (a : Arr) (p : Pred) (e : BitVec 2) : OutKeeps s (execShalt a p e s) :=
  .next (by with_reducible apply Keeps.issueRow; exact .refl s)
theorem OutKeeps.execSfree (a : Arr) (p : Pred) (e : BitVec 2) (slot : BitVec 6) : OutKeeps s (execSfree a p e slot s) :=
  .next (by with_reducible apply Keeps.issueRow; exact .refl s)
theorem OutKeeps.execScopy (a : Arr) (p : Pred) (e : BitVec 2) (dsrc ddst : BitVec 6) : OutKeeps s (execScopy a p e dsrc ddst s) :=
  .next (by with_reducible apply Keeps.issueRow; exact .refl s)
theorem OutKeeps.execCommandAccept : OutKeeps s (execCommandAccept s) :=
  .next (.ite (fun _ => by with_reducible apply Keeps.acceptNext; exact .refl s) (fun _ => .refl s))
theorem OutKeeps.execTaskDispatch (q : Queue) (ans : PortAnswer) : OutKeeps s (execTaskDispatch q ans s) :=
  .portRow _ _ _ fun _ h => h.dispatchTask _ _
theorem OutKeeps.execTaskStart (a : Arr) (ans : PortAnswer) : OutKeeps s (execTaskStart a ans s) :=
  .portRow _ _ _ fun _ h => h.startTask _ _
theorem OutKeeps.execAttemptSeal (a : Arr) : OutKeeps s (execAttemptSeal a s) :=
  .next (by with_reducible apply Keeps.sealTask; exact .refl s)
theorem OutKeeps.execAbandonmentEnd (a : Arr × Bool) : OutKeeps s (execAbandonmentEnd a s) :=
  .next (by with_reducible apply Keeps.abandonEnd; exact .refl s)
theorem OutKeeps.execOrderedRelease (q : Queue) : OutKeeps s (execOrderedRelease q s) :=
  .next (by with_reducible apply Keeps.releaseNext; exact .refl s)
theorem OutKeeps.execRun (q : Queue) (ans : PortAnswer) : OutKeeps s (execRun q ans s) :=
  .onPortTurn _ _ _ fun _ _ h => by with_reducible apply Keeps.formRun; exact h
theorem OutKeeps.execMemoryResponse (ch : Chan) (tag : BitVec 12) (status : BitVec 2) (form : RespForm) : OutKeeps s (execMemoryResponse ch tag status form s) :=
  .next (by with_reducible apply Keeps.response; exact .refl s)
theorem OutKeeps.execMemoryCreditReturn (ch : Chan) (n : Nat) : OutKeeps s (execMemoryCreditReturn ch n s) :=
  .next (by with_reducible apply Keeps.memCredits; exact .refl s)
theorem OutKeeps.execRespTimeout (ch : Chan) (tag : BitVec 12) : OutKeeps s (execRespTimeout ch tag s) :=
  .next (by with_reducible apply Keeps.txnTimeout; exact .refl s)
theorem OutKeeps.execTranslationWalk (a : Arr × PortAnswer) (seq : BitVec 16) (page : BitVec 17) : OutKeeps s (execTranslationWalk a seq page s) :=
  .portRow _ _ _ fun _ h => h.walkRow _ _ _ _
theorem OutKeeps.execSave (q : Queue) (ans : PortAnswer) : OutKeeps s (execSave q ans s) :=
  .onPortTurn _ _ _ fun _ _ h => .ite (fun _ => by with_reducible apply Keeps.save; exact h) (fun _ => h)
theorem OutKeeps.execRestore (q : Queue) (ans : PortAnswer) : OutKeeps s (execRestore q ans s) :=
  .onPortTurn _ _ _ fun _ _ h => .ite (fun _ => by with_reducible apply Keeps.restore; exact h) (fun _ => h)
theorem OutKeeps.execPowerAck (d : Nat) : OutKeeps s (execPowerAck d s) :=
  .onDomain d (by with_reducible apply Keeps.powerAck; exact .refl s)
theorem OutKeeps.execDomainSramZeroed (d : Nat) : OutKeeps s (execDomainSramZeroed d s) :=
  .onDomain d (by with_reducible apply Keeps.sramZeroed; exact .refl s)
theorem OutKeeps.execPwrTimeout (d : Nat) : OutKeeps s (execPwrTimeout d s) :=
  .onDomain d (by with_reducible apply Keeps.pwrTimeout; exact .refl s)
theorem OutKeeps.execMonitorRefresh (m : MonSample) : OutKeeps s (execMonitorRefresh m s) :=
  .next (by with_reducible apply Keeps.monitorRefresh; exact .refl s)
theorem OutKeeps.execGovernorStep : OutKeeps s (execGovernorStep s) :=
  .next (by with_reducible apply Keeps.governorStep; exact .refl s)
theorem OutKeeps.execMeterApportion : OutKeeps s (execMeterApportion s) :=
  .next (by with_reducible apply Keeps.meterApportion; exact .refl s)
theorem OutKeeps.execCapWindowEnd : OutKeeps s (execCapWindowEnd s) :=
  .next (by with_reducible apply Keeps.capWindowEnd; exact .refl s)
theorem OutKeeps.execThermalLimitStep (g : Group) : OutKeeps s (execThermalLimitStep g s) :=
  .next (by with_reducible apply Keeps.thermalStep; exact .refl s)
theorem OutKeeps.execVmonOut (d : Nat) : OutKeeps s (execVmonOut d s) :=
  .onDomain d (by with_reducible apply Keeps.vmonOut; exact .refl s)
theorem OutKeeps.execVinSample (mv : Option (BitVec 16)) : OutKeeps s (execVinSample mv s) :=
  .next (by with_reducible apply Keeps.vinSample; exact .refl s)
theorem OutKeeps.execVinLost : OutKeeps s (execVinLost s) :=
  .next (by with_reducible apply Keeps.vinLost; exact .refl s)
theorem OutKeeps.execHoldExit : OutKeeps s (execHoldExit s) :=
  .next (by with_reducible apply Keeps.holdExit; exact .refl s)
theorem OutKeeps.execTbLost : OutKeeps s (execTbLost s) :=
  .next (by with_reducible apply Keeps.tbLost; exact .refl s)
theorem OutKeeps.execTimeBaseValidRises : OutKeeps s (execTimeBaseValidRises s) :=
  .next (Keeps.refl s).update
theorem OutKeeps.execBypass : OutKeeps s (execBypass s) :=
  .next (by with_reducible apply Keeps.jtag; exact .refl s)
theorem OutKeeps.execIdcode : OutKeeps s (execIdcode s) :=
  .next (by with_reducible apply Keeps.jtag; exact .refl s)
theorem OutKeeps.execIeee1687Access (d : Nat) (ins : Instrument) : OutKeeps s (execIeee1687Access d ins s) :=
  .onDomain d (by with_reducible apply Keeps.instrument; exact .refl s)
theorem OutKeeps.execNop (q : Queue) : OutKeeps s (execNop q s) :=
  .onTurn _ _ _ fun _ => by with_reducible apply Keeps.completeCmd; exact .refl s
theorem OutKeeps.execAppend (q : Queue) (ans : CacheAnswer) : OutKeeps s (execAppend q ans s) :=
  .onPortTurn _ _ _ fun _ _ h => by with_reducible apply Keeps.runCache; exact h
theorem OutKeeps.execFork (q : Queue) (ans : CacheAnswer) : OutKeeps s (execFork q ans s) :=
  .onPortTurn _ _ _ fun _ _ h => by with_reducible apply Keeps.runCache; exact h
theorem OutKeeps.execCommit (q : Queue) (ans : CacheAnswer) : OutKeeps s (execCommit q ans s) :=
  .onPortTurn _ _ _ fun _ _ h => by with_reducible apply Keeps.runCache; exact h
theorem OutKeeps.execFree (q : Queue) (ans : CacheAnswer) : OutKeeps s (execFree q ans s) :=
  .onPortTurn _ _ _ fun _ _ h => by with_reducible apply Keeps.runCache; exact h
theorem OutKeeps.execLoadProgram (q : Queue) (ans : PortAnswer) : OutKeeps s (execLoadProgram q ans s) :=
  .onPortTurn _ _ _ fun _ _ h => (h.loadProgram _ _ _ _ _ _).completeCmd _ _
theorem OutKeeps.execTableLoad (q : Queue) (ans : PortAnswer) : OutKeeps s (execTableLoad q ans s) :=
  .onPortTurn _ _ _ fun _ _ h => by with_reducible apply Keeps.tableLoad; exact h
theorem OutKeeps.execStreamArm (q : Queue) (ans : PortAnswer) : OutKeeps s (execStreamArm q ans s) :=
  .onPortTurn _ _ _ fun _ _ h => by with_reducible apply Keeps.streamArm; exact h
theorem OutKeeps.execReaddress (q : Queue) : OutKeeps s (execReaddress q s) :=
  .onTurn _ _ _ fun _ => .ite (fun _ => (Keeps.refl s).completeCmd _ _) (fun _ => (Keeps.refl s).placeLoads _ _ _)
theorem OutKeeps.execCollect (q : Queue) : OutKeeps s (execCollect q s) :=
  .onTurn _ _ _ fun _ => .ite (fun _ => by with_reducible apply Keeps.completeCmd; exact .refl s) (fun _ => .refl s)
theorem OutKeeps.execMeterRead (q : Queue) : OutKeeps s (execMeterRead q s) :=
  .onTurn _ _ _ fun _ => by with_reducible apply Keeps.meterRead; exact .refl s
theorem OutKeeps.execRegisterWrite (fid : Fid) (addr : BitVec 20) (form : AccessForm) (v : Word) : OutKeeps s (execRegisterWrite fid addr form v s) :=
  .next (by with_reducible apply Keeps.busWrite; exact .refl s)
theorem OutKeeps.execLoWordRead (fid : Fid) (addr : BitVec 20) (form : AccessForm) : OutKeeps s (execLoWordRead fid addr form s) :=
  .next (by with_reducible apply Keeps.busRead; exact .refl s)
theorem OutKeeps.execDoorbell (fid : Fid) (addr : BitVec 20) (cmd : BitVec 512) : OutKeeps s (execDoorbell fid addr cmd s) :=
  .next (by with_reducible apply Keeps.doorbell; exact .refl s)
theorem OutKeeps.execEventSend : OutKeeps s (execEventSend s) :=
  .next (by with_reducible apply Keeps.eventSend; exact .refl s)
theorem OutKeeps.execEventAck : OutKeeps s (execEventAck s) :=
  .next (by with_reducible apply Keeps.eventAck; exact .refl s)
theorem OutKeeps.execExpertUnlock (fid : Fid) (page : PageNo) (v : Word) : OutKeeps s (execExpertUnlock fid page v s) :=
  .pageWrite _ _ _ _
theorem OutKeeps.execUnitReset (fid : Fid) (page : PageNo) (v : Word) : OutKeeps s (execUnitReset fid page v s) :=
  .pageWrite _ _ _ _
theorem OutKeeps.execHostFidWrite (fid : Fid) (n : BitVec 4) (v : Word) : OutKeeps s (execHostFidWrite fid n v s) :=
  .pageWrite _ _ _ _
theorem OutKeeps.execPmXfer (fid : Fid) (v : Word) : OutKeeps s (execPmXfer fid v s) :=
  .pageWrite _ _ _ _
theorem OutKeeps.execResume (fid : Fid) (g : Group) (v : Word) : OutKeeps s (execResume fid g v s) :=
  .pageWrite _ _ _ _
theorem OutKeeps.execMbHput (fid : Fid) (v : Word) : OutKeeps s (execMbHput fid v s) :=
  .pageWrite _ _ _ _
theorem OutKeeps.execLetterboxSet (fid : Fid) (t : Ten) (slot : BitVec 8) (v : Word) : OutKeeps s (execLetterboxSet fid t slot v s) :=
  .pageWrite _ _ _ _
theorem OutKeeps.execLetterboxPost (fid : Fid) (t : Ten) (slot : BitVec 8) (v : Word) : OutKeeps s (execLetterboxPost fid t slot v s) :=
  .pageWrite _ _ _ _
theorem OutKeeps.execDispStep (fid : Fid) (v : Word) : OutKeeps s (execDispStep fid v s) :=
  .pageWrite _ _ _ _
theorem OutKeeps.execTenEnWrite (fid : Fid) (t : Ten) (v : Word) : OutKeeps s (execTenEnWrite fid t v s) :=
  .pageWrite _ _ _ _
theorem OutKeeps.execHostMaskWrite (fid : Fid) (t : Ten) (v : Word) : OutKeeps s (execHostMaskWrite fid t v s) :=
  .pageWrite _ _ _ _
theorem OutKeeps.execPoolEnWrite (fid : Fid) (v : Word) : OutKeeps s (execPoolEnWrite fid v s) :=
  .pageWrite _ _ _ _
theorem OutKeeps.execInitPool (fid : Fid) (v : Word) : OutKeeps s (execInitPool fid v s) :=
  .pageWrite _ _ _ _
theorem OutKeeps.execInitDone (pool : BitVec 4) : OutKeeps s (execInitDone pool s) :=
  .next (.ite (fun _ => (Keeps.refl s).portRow _ _ fun _ h => h.initDone _) (fun _ => .refl s))
theorem OutKeeps.execSoftBypWrite (fid : Fid) (g : Group) (v : Word) : OutKeeps s (execSoftBypWrite fid g v s) :=
  .pageWrite _ _ _ _
theorem OutKeeps.execAudClear (fid : Fid) (g : Group) (v : Word) : OutKeeps s (execAudClear fid g v s) :=
  .pageWrite _ _ _ _
theorem OutKeeps.execFlPop (fid : Fid) (v : Word) : OutKeeps s (execFlPop fid v s) :=
  .pageWrite _ _ _ _
theorem OutKeeps.execDlPop (fid : Fid) (v : Word) : OutKeeps s (execDlPop fid v s) :=
  .pageWrite _ _ _ _
theorem OutKeeps.execInjArm (fid : Fid) (v : Word) : OutKeeps s (execInjArm fid v s) :=
  .pageWrite _ _ _ _
theorem OutKeeps.execSlFlush (fid : Fid) (v : Word) : OutKeeps s (execSlFlush fid v s) :=
  .pageWrite _ _ _ _
theorem OutKeeps.execPhFlush (fid : Fid) (v : Word) : OutKeeps s (execPhFlush fid v s) :=
  .pageWrite _ _ _ _
theorem OutKeeps.execKeyData (fid : Fid) (v : Word) : OutKeeps s (execKeyData fid v s) :=
  .pageWrite _ _ _ _
theorem OutKeeps.execKeyCommit (fid : Fid) (v : Word) : OutKeeps s (execKeyCommit fid v s) :=
  .pageWrite _ _ _ _
theorem OutKeeps.execKeyClear (fid : Fid) (v : Word) : OutKeeps s (execKeyClear fid v s) :=
  .pageWrite _ _ _ _
theorem OutKeeps.execLinkEn (fid : Fid) (p : PortNo) (v : Word) : OutKeeps s (execLinkEn fid p v s) :=
  .pageWrite _ _ _ _
theorem OutKeeps.execForceRetrain (fid : Fid) (p : PortNo) (v : Word) : OutKeeps s (execForceRetrain fid p v s) :=
  .pageWrite _ _ _ _
theorem OutKeeps.execChEnWrite (fid : Fid) (p : PortNo) (v : Word) : OutKeeps s (execChEnWrite fid p v s) :=
  .pageWrite _ _ _ _
theorem OutKeeps.execResSlotsWrite (fid : Fid) (p : PortNo) (v : Word) : OutKeeps s (execResSlotsWrite fid p v s) :=
  .pageWrite _ _ _ _
theorem OutKeeps.execCredWrite (fid : Fid) (p : PortNo) (v : Word) : OutKeeps s (execCredWrite fid p v s) :=
  .pageWrite _ _ _ _
theorem OutKeeps.execDomReqWrite (fid : Fid) (v : Word) : OutKeeps s (execDomReqWrite fid v s) :=
  .pageWrite _ _ _ _
theorem OutKeeps.execHoldReq (fid : Fid) (v : Word) : OutKeeps s (execHoldReq fid v s) :=
  .pageWrite _ _ _ _
theorem OutKeeps.execTenancyReset (fid : Fid) (v : Word) : OutKeeps s (execTenancyReset fid v s) :=
  .pageWrite _ _ _ _
theorem OutKeeps.execArrayReset (fid : Fid) (v : Word) : OutKeeps s (execArrayReset fid v s) :=
  .pageWrite _ _ _ _
theorem OutKeeps.execBlockReset (input : Option (Fid × Word)) : OutKeeps s (execBlockReset input s) :=
  by
  unfold Sys2Proof.Machine.execBlockReset
  split
  · exact .pageWrite _ _ _ _
  · exact .next (Keeps.refl s).startBlock
theorem OutKeeps.execBlockDone : OutKeeps s (execBlockDone s) :=
  .next (by with_reducible apply Keeps.blockDone; exact .refl s)
theorem OutKeeps.execTenDone : OutKeeps s (execTenDone s) :=
  .next (by with_reducible apply Keeps.tenDone; exact .refl s)
theorem OutKeeps.execArrDone (failCol : Option (BitVec 4)) : OutKeeps s (execArrDone failCol s) :=
  .next (by with_reducible apply Keeps.arrDone; exact .refl s)
theorem OutKeeps.execArrayRejoin (a : Arr) : OutKeeps s (execArrayRejoin a s) :=
  .next (by with_reducible apply Keeps.rejoin; exact .refl s)
theorem OutKeeps.execRetrain (p : PortNo) : OutKeeps s (execRetrain p s) :=
  .next (.ite (fun _ => by with_reducible apply Keeps.enterRetrain; exact .refl s) (fun _ => .refl s))
theorem OutKeeps.execFrameStart (p : PortNo) : OutKeeps s (execFrameStart p s) :=
  .next (by with_reducible apply Keeps.frame; exact .refl s)
theorem OutKeeps.execSendMessageStart (p : PortNo) (ch : Chan) : OutKeeps s (execSendMessageStart p ch s) :=
  .next (by with_reducible apply Keeps.startMessage; exact .refl s)
theorem OutKeeps.execDataPacket (p : PortNo) (pkt : Packet) : OutKeeps s (execDataPacket p pkt s) :=
  .next (by with_reducible apply Keeps.takePacket; exact .refl s)
theorem OutKeeps.execControlFlit (p : PortNo) (flit : CtlFlit) : OutKeeps s (execControlFlit p flit s) :=
  .next (by with_reducible apply Keeps.takeFlit; exact .refl s)
theorem OutKeeps.execLandingStart (p : PortNo) (ch : Chan) : OutKeeps s (execLandingStart p ch s) :=
  .next (.ite (fun _ => by with_reducible apply Keeps.landStash; exact .refl s) (fun _ => .refl s))
theorem OutKeeps.execRetryTimeout (p : PortNo) : OutKeeps s (execRetryTimeout p s) :=
  .next (by with_reducible apply Keeps.retryAll; exact .refl s)
theorem OutKeeps.execModuleLaneLoss (p : PortNo) : OutKeeps s (execModuleLaneLoss p s) :=
  .next (by with_reducible apply Keeps.laneLoss; exact .refl s)
theorem OutKeeps.execTrainingAttemptIncomplete (p : PortNo) : OutKeeps s (execTrainingAttemptIncomplete p s) :=
  .next (by with_reducible apply Keeps.attemptFails; exact .refl s)
theorem OutKeeps.execTaskEnd (a : Arr × PortAnswer) : OutKeeps s (execTaskEnd a s) :=
  .portRow _ _ _ fun _ h => h.taskEnd _ _

end
end Sys2Proof.Machine
end

