-- ==== Sys2Proof/Laws/Mail.lean ====
section
/-! SUPPORT. What landing ring messages and refilling a mailbag can change. -/
namespace Sys2Proof.Machine

/-- Nothing differs but register fields, event state, the shared store, ring ports, meters, mailbags and the count of free
values drawn. -/
def BesideMail (s t : State) : Prop :=
  ({ t with freeCtr := 0, regs := [], ctl := {}, shared := [], ring := [], meter := {}, disp := { t.disp with mbx := [] } } : State) =
  { s with freeCtr := 0, regs := [], ctl := {}, shared := [], ring := [], meter := {}, disp := { s.disp with mbx := [] } }

theorem BesideMail.refl (s : State) : BesideMail s s := rfl
theorem BesideMail.trans {s t u : State} (h : BesideMail s t) (g : BesideMail t u) : BesideMail s u := Eq.trans g h

section
variable {s0 s : State}

theorem BesideMail.of_eq {t : State} (h : BesideMail s0 s) (e : ∃ r c, t = { s with regs := r, ctl := c }) : BesideMail s0 t := by
  obtain ⟨r, c, rfl⟩ := e; exact h.trans rfl
theorem BesideMail.raise (h : BesideMail s0 s) (p b : Nat) (t : Option Nat) : BesideMail s0 (s.raise p b t) :=
  h.of_eq (s.raise_eq _ _ _)
theorem BesideMail.violate (h : BesideMail s0 s) (t a k : Nat) : BesideMail s0 (s.violate t a k) := by
  unfold State.violate
  dsimp only
  refine BesideMail.raise ?_ _ _ _
  split <;> split <;> exact h.trans rfl
theorem BesideMail.foldl {β : Type} {f : State → β → State} (h : BesideMail s0 s) (l : List β)
    (hf : ∀ t x, BesideMail s0 t → BesideMail s0 (f t x)) : BesideMail s0 (l.foldl f s) := by
  induction l generalizing s with
  | nil => exact h
  | cons x r ih => exact ih (hf s x h)
theorem BesideMail.chargeShared (h : BesideMail s0 s) (l t n : Nat) : BesideMail s0 (s.chargeShared l t n) := by
  unfold State.chargeShared
  repeat' split
  all_goals exact h.trans rfl
theorem BesideMail.sharedWrite (h : BesideMail s0 s) (t a : Nat) (bs : List Byte) : BesideMail s0 (s.sharedWrite t a bs) := by
  unfold State.sharedWrite
  dsimp only
  refine BesideMail.trans (BesideMail.foldl h _ (fun u x hu => ?_)) rfl
  split
  · exact hu.chargeShared _ _ _
  · exact hu.violate _ _ _
theorem BesideMail.onPort (h : BesideMail s0 s) (p : Nat) (f : Port → Port) : BesideMail s0 (s.onPort p f) := h.trans rfl
theorem BesideMail.setRecv (h : BesideMail s0 s) (p c : Nat) (r : RecvChan) : BesideMail s0 (s.setRecv p c r) := h.trans rfl
theorem BesideMail.setReg (h : BesideMail s0 s) (f : FieldSpec) (i v j : Nat) : BesideMail s0 (s.setReg f i v j) := h.trans rfl
theorem BesideMail.setBag (h : BesideMail s0 s) (m : Nat) (b : Mailbag) : BesideMail s0 (s.setBag m b) := h.trans rfl
theorem BesideMail.bagPut (h : BesideMail s0 s) (m : Nat) (w : Word) (t : Option Nat) : BesideMail s0 (s.bagPut m w t) := h.trans rfl
theorem BesideMail.bump (h : BesideMail s0 s) (f : FieldSpec) (i : Nat) : BesideMail s0 (s.bump f i) := h.trans rfl
theorem BesideMail.setSend (h : BesideMail s0 s) (p c : Nat) (x : SendChan) : BesideMail s0 (s.setSend p c x) := h.trans rfl
theorem BesideMail.msgDrop (h : BesideMail s0 s) (p t : Nat) : BesideMail s0 (s.msgDrop p t) := by
  unfold State.msgDrop State.raiseRing
  exact BesideMail.raise (h.bump Reg.RING_MSG_DROP_CNT p) _ _ _
theorem BesideMail.ringViol (h : BesideMail s0 s) (p r c q : Nat) : BesideMail s0 (s.ringViol p r c q) := by
  unfold State.ringViol State.raiseRing
  dsimp only
  refine BesideMail.raise ?_ _ _ _
  have hb := h.bump Reg.RING_VIOL_CNT p
  split
  · exact hb
  · exact (((hb.setReg _ _ _ _).setReg _ _ _ _).setReg _ _ _ _).setReg _ _ _ _
theorem BesideMail.relay (h : BesideMail s0 s) (p c : Nat) (m : Packet) (k : Nat) : BesideMail s0 (s.relay p c m k) := by
  unfold State.relay
  dsimp only
  split
  · split
    · exact h.msgDrop _ _
    · exact ((h.setSend _ _ _).onPort _ _).setRecv _ _ _
  · exact h
theorem BesideMail.raiseRing (h : BesideMail s0 s) (p b : Nat) (t : Option Nat) : BesideMail s0 (s.raiseRing p b t) :=
  h.raise _ _ _
theorem BesideMail.messageLanded (h : BesideMail s0 s) (p c : Nat) (m : Packet) : BesideMail s0 (s.messageLanded p c m) := by
  grind [State.messageLanded, BesideMail.setReg, BesideMail.sharedWrite, BesideMail.bagPut, BesideMail.setRecv, BesideMail.relay]
theorem BesideMail.bump64 (h : BesideMail s0 s) (l g : FieldSpec) (i n : Nat) : BesideMail s0 (s.bump64 l g i n) := h.trans rfl
theorem BesideMail.chargeRing (h : BesideMail s0 s) (p t n : Nat) : BesideMail s0 (s.chargeRing p t n) := h.trans rfl
theorem BesideMail.freeSlot (h : BesideMail s0 s) (p c : Nat) : BesideMail s0 (s.freeSlot p c) := h.trans rfl
theorem BesideMail.drew (h : BesideMail s0 s) (n : Nat) : BesideMail s0 (s.drew n) := h.trans rfl
theorem BesideMail.loseMsg (h : BesideMail s0 s) (p c id : Nat) : BesideMail s0 (s.loseMsg p c id) := by
  unfold State.loseMsg
  dsimp only
  split
  · exact h
  · exact (h.msgDrop _ _).setRecv _ _ _
theorem BesideMail.landPayload (h : BesideMail s0 s) (p c a : Nat) (bs : List Byte) : BesideMail s0 (s.landPayload p c a bs) := by
  unfold State.landPayload
  dsimp only
  split
  · exact (h.sharedWrite _ _ _).drew _
  · exact h.sharedWrite _ _ _
theorem BesideMail.landPacket (h : BesideMail s0 s) (p c : Nat) (m : Packet) : BesideMail s0 (s.landPacket p c m) := by
  unfold State.landPacket
  dsimp only
  repeat' first
    | with_reducible exact h
    | with_reducible apply BesideMail.setRecv
    | with_reducible apply BesideMail.loseMsg
    | with_reducible apply BesideMail.ringViol
    | with_reducible apply BesideMail.messageLanded
    | with_reducible apply BesideMail.chargeRing
    | with_reducible apply BesideMail.bump64
    | with_reducible apply BesideMail.landPayload
    | with_reducible apply BesideMail.freeSlot
    | split
theorem BesideMail.landStash (n p c : Nat) (h : BesideMail s0 s) : BesideMail s0 (s.landStash n p c) := by
  induction n generalizing s with
  | zero => exact h
  | succ n ih =>
    unfold State.landStash
    dsimp only
    split
    · exact h
    · split
      · exact h
      · exact ih ((h.setRecv _ _ _).landPacket _ _ _)
/-- Landing what the receive channels hold. -/
theorem BesideMail.landAll (h : BesideMail s0 s) : BesideMail s0 s.landAll := by
  unfold State.landAll
  refine h.foldl _ (fun _ _ hu => ?_)
  split
  · exact hu
  · exact hu.landStash _ _ _
/-- Letting waiting receive channels put their handle. -/
theorem BesideMail.refillBag (h : BesideMail s0 s) (m : Nat) : BesideMail s0 (s.refillBag m) := by
  unfold State.refillBag
  refine h.foldl _ (fun _ _ hu => ?_)
  grind [BesideMail.bagPut, BesideMail.onPort]
end

end Sys2Proof.Machine
end

