-- ==== Sys2Proof/Safety.lean ====
section
/-! DEFINITION. Safe steps and reachable states. -/
namespace Sys2Proof

/-- A step from `s` ends in a next state, not in a fault or a refusal. -/
def Safety.safeStep (s : Machine.State) : Prop := ∃ t, Machine.step s = .next t

/-- States reached from reset when one sender may put any commands in the queue between steps (INVENTORY, Agents). -/
inductive Safety.Reaches : Machine.State → Prop where
  | reset : Safety.Reaches Machine.State.reset
  | send {s : Machine.State} (cs : List Instr) :
      Safety.Reaches s → Safety.Reaches { s with pending := s.pending ++ cs }
  | step {s t : Machine.State} : Safety.Reaches s → Machine.step s = .next t → Safety.Reaches t

end Sys2Proof
end

