-- ==== Sys2Proof/Tests/Slice0.lean ====
section
/-! SUPPORT. Tests: ill-formed commands are refused, and for every statement with hypotheses a state and operands that meet them, by named
theorems. -/

set_option Elab.async false

namespace Sys2Proof.Tests
open Sys2Proof.Machine Sys2Proof.Claims

/-! ### Ill-formed commands are refused -/

theorem test_wf_wait_zero : (Instr.wait 3 0).wf = false := by decide
theorem test_wf_wait_long : (Instr.wait 3 65537).wf = false := by decide
theorem test_wf_wait_max : (Instr.wait 3 65536).wf = true := by decide
theorem test_wf_domain : (Instr.powerAck 24).wf = false ∧ (Instr.domainSramZeroed 24).wf = false ∧ (Instr.pwrTimeout 24).wf = false ∧
    (Instr.vmonOut 24).wf = false ∧ (Instr.ieee1687Access 24 .fuses).wf = false ∧ (Instr.powerAck 23).wf = true := by decide
theorem test_wf_letterbox : (Instr.letterboxSet 0 0 240 0).wf = false ∧ (Instr.letterboxPost 0 0 240 0).wf = false ∧
    (Instr.letterboxPost 0 0 239 0).wf = true := by decide
theorem test_wf_answer : (Instr.run 0 (.error ⟨0, 0, false⟩)).wf = false ∧ (Instr.taskStart 3 (.error ⟨0, 0, true⟩)).wf = true ∧
    (Instr.append 0 (.rowError ⟨0, 0, false⟩ 1)).wf = false ∧ (Instr.free 0 (.structError ⟨5, 3, false⟩)).wf = true := by decide
theorem test_wf_cold : (Instr.coldReset 0 ⟨[], 0, 0, 0, 0, 0, 0, 0, 0⟩).wf = false ∧
    (Instr.coldReset 1 ⟨[(1024, 1)], 0, 0, 0, 0, 0, 0, 0, 0⟩).wf = false ∧
    (Instr.coldReset 1 ⟨[(1023, 1)], 0, 0, 0, 0, 0, 0, 0, 0⟩).wf = true := by decide
theorem test_wf_flit : (Instr.controlFlit 0 { type := 2, seq := 0, credits := [], ringId := 0, ringPos := 0, rtt := 0, crc := 0, more := [] }).wf = false := by
  decide
theorem test_wf_monitors : (Instr.monitorRefresh ⟨[], [], [], []⟩).wf = false := by decide

/-! ### States that the witnesses use -/

/-- Every domain ON. -/
def on : Tbl Domain := (List.range 24).map fun d => (d, { state := .run, req := 0 })
/-- A state with every domain ON and one array. -/
def st (A : ArrayState) : State := { State.reset with doms := on, arrs := [(3, A)] }
/-- An array that runs. -/
def running : ArrayState := { seq := { state := .running } }
/-- The predicate that always holds. -/
def always : Pred := { pen := false, cmp := 0, neg := false }

/-- A write of 64 bytes by engine 0 of array 3 under receipt entry 1. -/
def writing : Txn := { kind := 1, addr := 64, size := 64, ten := 0, cls := 0, owner := .task 3 1 0, data := List.replicate 64 1 }

/-- Whether an operation issues, computed. -/
def issuesB (s : State) (a : Nat) (p : Pred) (i : Instr) : Bool :=
  let L := s.landEarly a
  match slotWord i with
  | some x => L.canIssue a && !(L.arr a).seq.issued.contains x.1 && !(L.arr a).modes.hold && (L.arr a).regs.predTrue p
  | none => false

theorem issues_of {s : State} {a : Nat} {p : Pred} {i : Instr} (h : issuesB s a p i = true) : Issues s a p i := by
  unfold issuesB at h
  cases e : slotWord i with
  | none => simp [e] at h
  | some x =>
    simp only [e, Bool.and_eq_true, Bool.not_eq_true'] at h
    exact ⟨⟨x.1, x.2, e, h.1.1.1, h.1.1.2, .inl h.1.2⟩, h.2⟩

theorem unarmed_of {L : State} (h : L.flag Reg.FAULT_INJ_ARM = false) : Unarmed L := h

/-! ### Witnesses: what the hypotheses of each statement ask can be met -/

theorem witness_scalar_form_r : ∀ x ∈ formR 3 always { sd := 31, sa := 1, sb := 2 }, Issues (st running) 3 always x.1 :=
  fun x hx => issues_of (by revert x; decide)
theorem witness_scalar_form_i : ∀ x ∈ formI (((st running).landEarly 3).arr 3) 3 always 0 31 0xFFF 0xFFFF 15 7, Issues (st running) 3 always x.1 :=
  fun x hx => issues_of (by revert x; decide)
theorem witness_lane : ∀ x ∈ formV 3 always { vd := 31, va := 0, vb := 31, vc := 1, bs := true }, Issues (st running) 3 always x.1 :=
  fun x hx => issues_of (by revert x; decide)
theorem witness_control : ∀ x ∈ formX (((st running).landEarly 3).arr 3) 3 always 15 31 3 true 7 0xFFFF { cmp := 3, ct := 7, rel := 7, osrc := true, imm := 7 }
    { sa := 1, sb := 2, vk := 3, sm := 4, rstcol := true }, Issues (st running) 3 always x.1 :=
  fun x hx => issues_of (by revert x; decide)
theorem witness_vector_moves : ∀ x ∈ formW (((st running).landEarly 3).arr 3) 3 always { vd := 31, va := 0, vb := 31, vc := 0, bs := false },
    Issues (st running) 3 always x.1 := fun x hx => issues_of (by revert x; decide)
/-- Codes 4 and 5, on either side of the border. -/
theorem witness_cvt : Issues (st running) 3 always (.cvt 3 always { vd := 0, va := 0, vb := 4, vc := 0, bs := false }) ∧
    Issues (st running) 3 always (.cvt 3 always { vd := 0, va := 0, vb := 5, vc := 0, bs := false }) :=
  ⟨issues_of (by decide), issues_of (by decide)⟩
/-- The divider free, and held. -/
theorem witness_fdiv : Issues (st running) 3 always (.fdiv 3 always { vd := 0, va := 0, vb := 0, vc := 0, bs := false }) ∧
    Issues (st { running with vdivBusy := 1 }) 3 always (.fdiv 3 always { vd := 0, va := 0, vb := 0, vc := 0, bs := false }) :=
  ⟨issues_of (by decide), issues_of (by decide)⟩
/-- A lane descriptor, and one of the shared store. -/
theorem witness_lane_access :
    let s := st { running with regs := { desc := [(4, 0x10000000#32)] } }
    Unarmed (s.landEarly 3) ∧ Issues s 3 always (.vld 3 always 1 0) ∧ Issues s 3 always (.vst 3 always 1 0) ∧ Issues s 3 always (.dset 3 always 63 1) ∧
      (((s.landEarly 3).arr 3).descr 0).space = 0 ∧ (((s.landEarly 3).arr 3).descr 1).space = 1 := by
  refine ⟨unarmed_of ?_, issues_of ?_, issues_of ?_, issues_of ?_, ?_, by decide⟩ <;> decide +kernel
theorem witness_control_flow : Issues (st running) 3 always (.repeatBody 3 always 63 false 0xFFF) ∧ Issues (st running) 3 always (.repeatBody 3 always 0 true 0) ∧
    Issues (st running) 3 always (.call 3 always 256) ∧ Issues (st running) 3 always (.ret 3 always) ∧ Issues (st running) 3 always (.endTask 3 always) := by
  refine ⟨issues_of ?_, issues_of ?_, issues_of ?_, issues_of ?_, issues_of ?_⟩ <;> decide +kernel
/-- A predicate that is false: SNEG of comparator 0, which is clear, is not asked; the comparator itself is. -/
def never : Pred := { pen := true, cmp := 0, neg := false }
theorem witness_predicate_false :
    (∀ i ∈ [Instr.repeatBody 3 never 5 false 9, .add 3 never { sd := 1, sa := 2, sb := 3 }, .mma 3 never { grp := 7, m16 := false, mhi := false, n16 := false, nhi := false }],
      (match slotWord i with
      | some x => decide (decodePart 3 x.1 x.2 = .op i) && decide (predOf x.2 = never) && ((st running).landEarly 3).canIssue 3 &&
          !(((st running).landEarly 3).arr 3).seq.issued.contains x.1
      | none => false) = true) ∧
      (((st running).landEarly 3).arr 3).modes.hold = false ∧ (((st running).landEarly 3).arr 3).regs.predTrue never = false := by decide
theorem witness_wait : Unarmed ((st running).landEarly 3) ∧ ((st running).landEarly 3).canIssue 3 = true ∧
    (((st running).landEarly 3).arr 3).seq.issued = [] := ⟨unarmed_of (by decide), by decide, by decide⟩
theorem witness_feeder :
    let s := st { running with regs := { desc := [(0, 0x10000000#32), (1, 0x10#32), (4, 0x20000000#32), (8, 0x10000000#32)] } }
    Unarmed (s.landEarly 3) ∧ (∀ d ∈ [0, 1, 2, 63], Issues s 3 always (.feederRead 3 always true d 127)) :=
  ⟨unarmed_of (by decide), fun d hd => issues_of (by revert d; decide)⟩
theorem witness_products : Issues (st running) 3 always (.mma 3 always { grp := 7, m16 := true, mhi := true, n16 := true, nhi := false }) ∧
    Issues (st { running with mv := { filled := [15] } }) 3 always (.dot 3 always { mslot := 15, qry := 15, chunk := 31, e0 := 112 }) ∧
    Issues (st running) 3 always (.dot 3 always { mslot := 0, qry := 15, chunk := 0, e0 := 113 }) ∧
    Issues (st running) 3 always (.axpy 3 always { mslot := 0, qry := 0, vreg := 0 }) := by
  refine ⟨issues_of ?_, issues_of ?_, issues_of ?_, issues_of ?_⟩ <;> decide +kernel
theorem witness_group : Issues (st running) 3 always (.swap 3 always 7 (.store { tile := 255, pten := true, pt := 15 })) ∧
    Issues (st { running with acc := { swapBusy := 1 } }) 3 always (.swap 3 always 0 .discard) ∧
    Issues (st running) 3 always (.rowscale 3 always 7 31) ∧ Issues (st running) 3 always (.gload 3 always 7 { tile := 255, pten := false, pt := 0 }) := by
  refine ⟨issues_of ?_, issues_of ?_, issues_of ?_, issues_of ?_⟩ <;> decide +kernel
theorem witness_special_function :
    let f : SfFields := { fslot := 15, form := 2, sum := true, mask := true, guard := true, srck := true, src := 63, dstk := true, dst := 63, dfmt := 4 }
    let s := st running
    Unarmed (s.landEarly 3) ∧ f.form ≠ 3#2 ∧ f.dfmt.toNat ≤ 4 ∧ (((s.landEarly 3).arr 3).descr 63).space = 0 ∧ ((s.landEarly 3).arr 3).evalBusy < 8 ∧
      Issues s 3 always (.specialFunctionIssue 3 always f) := by
  refine ⟨unarmed_of ?_, ?_, ?_, ?_, ?_, issues_of ?_⟩ <;> decide +kernel

/-- FORM 3; a DFMT of 5; a source in the shared store; and a ninth evaluation. -/
theorem witness_special_function_skipped :
    let f : SfFields := { fslot := 15, form := 2, sum := true, mask := true, guard := true, srck := true, src := 63, dstk := true, dst := 63, dfmt := 4 }
    let busy := st { running with flight := List.replicate 8 { left := 3, rank := 8, op := .eval [] false none } }
    let far := st { running with regs := { desc := [(252, 0x10000000#32)] } }
    Issues (st running) 3 always (.specialFunctionIssue 3 always { f with form := 3 }) ∧ Issues (st running) 3 always (.specialFunctionIssue 3 always { f with dfmt := 5 }) ∧
      Issues far 3 always (.specialFunctionIssue 3 always f) ∧ ((far.landEarly 3).arr 3).descr 63 ≠ ((busy.landEarly 3).arr 3).descr 63 ∧
      (((far.landEarly 3).arr 3).descr 63).space = 1 ∧ Issues busy 3 always (.specialFunctionIssue 3 always f) ∧ 8 ≤ ((busy.landEarly 3).arr 3).evalBusy := by
  refine ⟨issues_of ?_, issues_of ?_, issues_of ?_, ?_, ?_, issues_of ?_, by decide⟩ <;> decide +kernel

/-- Tenancy 0 owns letterboxes 0 to 9 and mailbags 0 to 1, and array 3 runs its task 1. -/
def synced (m : Mailbag) (j : List JEntry) : State :=
  { st { running with task := some 1 } with
    regs := Regs.set (Regs.set State.reset.regs Reg.TEN_LB_SIZE 0 10) Reg.TEN_MB_SIZE 0 2
    disp := { mbx := [(1, m)], tasks := [(1, some { cid := 0, ten := 0, queue := 0, index := 0, tasks := 1, routine := 256, version := 0, array := 3, argAddr := 0, argLen := 0, journal := j, jpos := 0 })] } }
/-- Sixty-four handles. -/
def fullBag : Mailbag := { handles := List.replicate 64 (5, none) }
theorem witness_letterbox :
    (∀ i ∈ [Instr.lbpost 3 always 9 1, .lbwait 3 always 9 1, .lbread 3 always 9 1, .lbpost 3 always 10 1, .lbwait 3 always 10 1, .lbread 3 always 10 1],
      Issues (synced {} []) 3 always i) ∧ Issues (synced {} [.post]) 3 always (.lbpost 3 always 9 1) ∧
    ((synced {} []).landEarly 3).reg Reg.TEN_LB_SIZE 0 = 10 ∧ ((synced {} []).landEarly 3).journalNext 3 = none ∧
    ((synced {} [.post]).landEarly 3).journalNext 3 = some .post := by
  refine ⟨fun i hi => issues_of (by revert i; decide), issues_of ?_, ?_, ?_, by decide⟩ <;> decide +kernel
theorem witness_mailbag :
    (∀ s ∈ [synced {} [], synced fullBag [], synced {} [.put], synced {} [.take 7]], ∀ i ∈ [Instr.mbput 3 always 1 1, .mbtake 3 always 1 1, .mbput 3 always 2 1,
      .mbtake 3 always 2 1], Issues s 3 always i) ∧
    ((synced fullBag []).landEarly 3).bag 1 = fullBag ∧ ((synced {} [.take 7]).landEarly 3).journalNext 3 = some (.take 7) ∧
    fullBag.handles[indexOf (queued fullBag.takers (bagWho 3 4)) (bagWho 3 4)]? = some (5, none) :=
  ⟨fun s hs i hi => issues_of (by revert s; revert i; decide), by decide, by decide, by decide⟩
theorem witness_collection : Issues (synced {} []) 3 always (.collectionArrival 3 always) ∧ Issues (synced {} [.arrive]) 3 always (.collectionArrival 3 always) :=
  ⟨issues_of (by decide), issues_of (by decide)⟩

/-- Whether a flight is the next of its kind to land, computed. -/
def landableB (s : State) (a : Nat) (kind : Landing → Bool) (f : Flight) : Bool :=
  let A := s.arr a
  s.arrOn a && !s.extStop a && !A.slip && A.stalled.isEmpty && A.frozenOn.isEmpty &&
    decide (firstDue (fun g => kind g.op) A.flight = some f) &&
    (!f.op.late || A.flight.all fun g => !(decide (g.left = 0) && g.op.late) || decide (f.rank ≤ g.rank))
theorem landable_of {s : State} {a : Nat} {kind : Landing → Bool} {f : Flight} (h : landableB s a kind f = true) : Landable s a kind f := by
  simp only [landableB, Bool.and_eq_true, Bool.or_eq_true, Bool.not_eq_true', decide_eq_true_eq, List.all_eq_true, List.isEmpty_iff] at h
  obtain ⟨⟨⟨⟨⟨⟨o, e⟩, sl⟩, st⟩, fr⟩, fi⟩, la⟩ := h
  refine ⟨o, e, sl, ⟨st, fr⟩, fi, fun l g m z k => ?_⟩
  rcases la with la | la
  · rw [l] at la; cases la
  · rcases la g m with n | n
    · simp [z, k] at n
    · exact n

/-- An array with operations in flight that are due. -/
def due (l : List Flight) : State := st { running with flight := l }
theorem witness_slot_writes : (∀ op ∈ [Landing.sreg 0 1, .sreg 31 1, .vreg 31 [], .counter 7 5, .bytes [(0xFFFFF, [1])]],
    Landable (due [{ left := 0, rank := 10, op := op }]) 3 Landing.slotWrite { left := 0, rank := 10, op := op }) :=
  fun op hop => landable_of (by revert op; decide)
theorem witness_slice_and_eval :
    let f : Flight := { left := 0, rank := 2, op := .feeder true {} }
    let g : Flight := { left := 0, rank := 8, op := .eval [1] true (some 31) }
    let h : Flight := { left := 0, rank := 8, op := .rsumAdd [1] }
    let result := fun (x : Landing) => match x with | .eval _ _ _ | .rsumAdd _ => true | _ => false
    Unarmed (due [f, g]) ∧ Landable (due [f, g]) 3 (fun x => match x with | .feeder _ _ => true | _ => false) f ∧
      Landable (due [f, g]) 3 result g ∧ Landable (due [h]) 3 result h := by
  refine ⟨unarmed_of ?_, landable_of ?_, landable_of ?_, landable_of ?_⟩ <;> decide +kernel
/-- A product that lands, alone and during a load of its group. -/
theorem witness_product_lands :
    let f : Flight := { left := 0, rank := 3, op := .mma {} {} { grp := 7, m16 := false, mhi := false, n16 := false, nhi := false } }
    let g : Flight := { left := 3, rank := 6, op := .loadRow 7 0 0 [] }
    Landable (due [f]) 3 (fun x => match x with | .mma _ _ _ => true | _ => false) f ∧ (landing (due [f]) 3 f).loading 7 = false ∧
      Landable (due [f, g]) 3 (fun x => match x with | .mma _ _ _ => true | _ => false) f ∧ (landing (due [f, g]) 3 f).loading 7 = true := by
  refine ⟨landable_of ?_, ?_, landable_of ?_, by decide⟩ <;> decide +kernel
theorem witness_swap_and_rowscale :
    let f : Flight := { left := 0, rank := 5, op := .swap 7 .discard 0 }
    let g : Flight := { left := 0, rank := 4, op := .rowscale 7 [] }
    Landable (due [f]) 3 (fun x => match x with | .swap _ _ _ => true | _ => false) f ∧
      Landable (due [g]) 3 (fun x => match x with | .rowscale _ _ => true | _ => false) g := by
  refine ⟨landable_of ?_, landable_of ?_⟩ <;> decide +kernel
/-- A row scale of the group whose run is draining. -/
theorem witness_rowscale_draining :
    let g : Flight := { left := 0, rank := 4, op := .rowscale 7 [] }
    let s := st { running with flight := [g], acc := { drain := some { grp := 7 } } }
    Landable s 3 (fun x => match x with | .rowscale _ _ => true | _ => false) g ∧ Unarmed s ∧ (landing s 3 g).loading 7 = false ∧
      (landing s 3 g).acc.drain.map (·.grp) = some 7 := by
  refine ⟨landable_of ?_, unarmed_of ?_, ?_, by decide⟩ <;> decide +kernel
theorem witness_matrix_vector :
    let isMv := fun (x : Landing) => match x with | .dotAdd _ _ _ => true | .axpyAdd _ _ _ => true | _ => false
    let f : Flight := { left := 0, rank := 3, op := .dotAdd { mslot := 0, qry := 15, chunk := 0, e0 := 112 } (List.replicate 32 (List.replicate 8 1)) (List.replicate 8 1) }
    let g : Flight := { left := 0, rank := 3, op := .axpyAdd { mslot := 0, qry := 15, vreg := 0 } (List.replicate 32 (List.replicate 8 1)) (List.replicate 32 1) }
    Landable (due [f]) 3 isMv f ∧ Landable (due [g]) 3 isMv g ∧ (List.replicate 32 (List.replicate 8 1)).all (fun l => l.length == 8) = true := by
  refine ⟨landable_of ?_, landable_of ?_, by decide⟩ <;> decide +kernel
/-- A query's accumulation of one entry, of DOT, and of eight, of AXPY, to be closed by a program; the same array frozen and OFF. -/
theorem witness_close :
    let s := fun (l : List Nat) => st { running with mv := { entries := [(15, l)], axpy := if l.length = 1 then [] else [15] } }
    (∀ l ∈ [[112], List.range 8], (match exec (.mvLand 3 none) (s l) with | .next t => decide (t = s l) | _ => false) = true ∧
      (s l).flag Reg.FAULT_INJ_ARM = false ∧ (s l).arrOn 3 = true ∧ (s l).frozenBy 3 = false ∧ Tbl.get [] ((s l).arr 3).mv.entries 15 = l) ∧
      (st { running with stalled := [.lbWait 0 1] }).frozenBy 3 = true ∧ (st running).arrOn 64 = true ∧ State.reset.arrOn 3 = false := by
  decide +kernel
/-- The last row of a load: the words of the first fifteen pairs of rows have been read. -/
theorem witness_group_load :
    let f : Flight := { left := 0, rank := 6, op := .loadRow 7 0xFFFFC 15 (List.replicate 960 1) }
    (∃ got : List Word, f.op = .loadRow 7 0xFFFFC 15 got ∧ got.length = 960) ∧ Unarmed (due [f]) ∧
      Landable (due [f]) 3 (fun x => match x with | .loadRow _ _ 15 _ => true | _ => false) f := by
  intro f
  exact ⟨⟨List.replicate 960 1, rfl, List.length_replicate⟩, unarmed_of (by decide), by decide, by decide, by decide, by decide, rfl, fun _ g hg _ _ => by
    obtain rfl := List.mem_singleton.1 (show g ∈ [f] from hg)
    exact Nat.le_refl _⟩
theorem witness_drain :
    let f : Flight := { left := 0, rank := 7, op := .drain 15 }
    let s := st { running with flight := [f], acc := { drain := some {} } }
    Unarmed s ∧ Landable s 3 (fun x => match x with | .drain _ => true | _ => false) f := by
  refine ⟨unarmed_of ?_, landable_of ?_⟩ <;> decide +kernel

/-- Runs that go to a tile, to an engine with room and with none, and to a ledger, and are scaled while they drain. -/
theorem witness_drain_destinations :
    let f : Flight := { left := 0, rank := 7, op := .drain 15 }
    let s := fun (d : SwapDest) (n : Nat) => st { running with
      flight := [f], acc := { drain := some { dest := d, scale := [(30, 0x40000000)] } }, engines := [(0, { outbound := List.replicate n 1 })] }
    (∀ d ∈ [SwapDest.store { tile := 255, pten := true, pt := 15 }, .out 0, .ledger { en := true, ledger := 7, neg := true } { en := false, ledger := 0, neg := false }],
      (((s d 0).arr 3).acc.drain.map (·.dest)) = some d ∧ (s d 0).outboundUse 3 0 + 256 ≤ 8192) ∧
      Landable (s (.out 0) 1) 3 (fun x => match x with | .drain _ => true | _ => false) f ∧ (s (.out 0) 1).attempting 3 = false ∧
      8192 < ({ s (.out 0) 1 with mport := { chans := [(0, { wait := [{ writing with size := 7936, cls := 1 }] })] } } : State).outboundUse 3 0 + 256 := by
  refine ⟨?_, landable_of ?_, ?_, by decide⟩ <;> decide +kernel

/-- An array in a beat whose bundle has issued. -/
def issuedAll : ArrayState := { seq := { state := .running, issued := [8] } }
/-- Whether nothing keeps an array from completing its beat, computed. -/
def flowingB (s : State) (a : Nat) : Bool :=
  let A := s.arr a
  s.arrOn a && decide (A.seq.state = .running) && decide (A.abandon = none ∧ A.fail = none ∧ A.slip = false ∧ A.seq.held = false) && !s.extStop a &&
    A.seq.issued.contains 8 && decide (A.seq.helper = none) && A.flight.all (fun f => decide (f.left ≠ 0)) &&
    (List.range 4).all fun e => decide ((s.engine a e).steps = 0 ∧ (s.engine a e).posts = [])
theorem flowing_of {s : State} {a : Nat} (h : flowingB s a = true) : Flowing s a := by
  simp only [flowingB, Bool.and_eq_true, Bool.not_eq_true', decide_eq_true_eq, List.all_eq_true, List.mem_range] at h
  obtain ⟨⟨⟨⟨⟨⟨⟨o, r⟩, w⟩, x⟩, i⟩, n⟩, q⟩, e⟩ := h
  exact ⟨o, r, w, x, i, n, q, e⟩
theorem witness_beat : Flowing (st issuedAll) 3 ∧ ((st issuedAll).arr 3).stalled = [] ∧ State.reset.beating 3 = false :=
  ⟨flowing_of (by decide), by decide, by decide⟩
/-- Sequencers at the end of a REPEAT body with an iteration left and without, before a body that opens or is skipped, at a CALL of a
helper, at a RET in a helper and in the entry routine, in a WAIT, and in a vendor routine. -/
def places : List Sys2Proof.Machine.Seq :=
  let x : Sys2Proof.Machine.Seq := { state := .running, routine := 256, entry := 256, issued := [8], pc := 9 }
  let r : Rep := { start := 7, body := 3, iters := 2, level := 1 }
  let f : Frame := { routine := 256, pc := 4, byCall := false, version := 1, reps := [] }
  [x, { x with reps := [r] }, { x with reps := [{ r with iters := 1 }] }, { x with flow := .open_ 4 2 }, { x with flow := .skip 4 },
    { x with flow := .call 257 1 }, { x with flow := .ret, calls := [f] }, { x with flow := .ret }, { x with flow := .stop }, { x with waitLeft := 2 },
    { x with routine := 3, entry := 3 }]
theorem witness_places : ∀ x ∈ places, Flowing (st { seq := x }) 3 ∧ ((st { seq := x }).arr 3).stalled = [] :=
  fun x hx => ⟨flowing_of (by revert x; decide +kernel), by revert x; decide +kernel⟩
theorem witness_no_body_ends : NoneEnds [] 10 ∧ NoneEnds [{ start := 7, body := 4, iters := 2, level := 1 }] 10 :=
  ⟨fun _ h => (nomatch h), fun r h => by rw [← Option.some.inj h]; decide⟩
theorem witness_freeze :
    let s : State := { st running with mon := { hot := true } }
    let lim := s.reg Reg.TIME_FRZ_LIMIT 3
    let u : State := { st { running with frzLen := lim - 1 } with mon := { hot := true } }
    s.beating 3 = true ∧ s.extStop 3 = true ∧ (s.arr 3).longRaised = false ∧ (s.arr 3).frzLen < lim ∧ lim ≠ 0 ∧ u.beating 3 = true ∧
      u.extStop 3 = true ∧ (u.arr 3).frzLen + 1 = u.reg Reg.TIME_FRZ_LIMIT 3 := by decide +kernel
/-- The target just reached, and just missed. -/
theorem witness_frozen_beat :
    let A : ArrayState := { issuedAll with stalled := [.lbWait 0 1], frzLen := 2 }
    Flowing (st A) 3 ∧ ((st A).arr 3).stalled = [.lbWait 0 1] ∧ ((st A).lb 0).toNat < 1 ∧
      1 ≤ (({ st A with disp := { lbx := [(0, 1)] } } : State).lb 0).toNat :=
  ⟨flowing_of (by decide), by decide, by decide, by decide⟩
/-- A routine of one bundle, an LBWAIT of letterbox 9 for S1, at which an array stands whose S1 is 1. -/
def atWait (q : Nat) : State :=
  let w : BitVec 32 := match slotWord (.lbwait 3 always 9 1) with | some x => x.2 | none => 0
  let s := synced {} []
  { s with
    arrs := [(3, { task := some 1, regs := { s := [(1, 1)] }, seq := { state := .running, routine := 256, entry := 256, version := 1, queue := (List.range q).map fun i => (256, i) } })]
    disp := { s.disp with lib := [(256, { kind := 1, version := 1, words := [[0x40, w.setWidth 16, (w >>> 16).setWidth 16]] })] } }
theorem witness_bundle_waits :
    let s := atWait 1
    let L := ((s.retryStalls 3).landEarly 3).helperStart 3
    s.beating 3 = true ∧ s.extStop 3 = false ∧ (s.arr 3).slip = false ∧ ((s.retryStalls 3).arr 3).stalled = [] ∧ (L.arr 3).seq.held = false ∧
      (match L.fetch 3 with | .bundle ops _ => ((L.issueParts 3 (plainParts ops)).arr 3).stalled | _ => []) = [.lbWait 9 1] ∧
      (match L.fetch 3 with
        | .bundle ops beats => ((((L.markFetched 3 beats).issueParts 3 (issueOrder ops)).endBeat 3).arr 3).stalled
        | _ => []) = [.lbWait 9 1] := by decide +kernel
/-- The same bundle with the letterbox at its target. -/
theorem witness_bundle_issues :
    let s := { atWait 1 with disp := { (atWait 1).disp with lbx := [(9, 1)] } }
    let L := ((s.retryStalls 3).landEarly 3).helperStart 3
    let A := L.arr 3
    (A.seq.state = .running ∧ A.abandon = none ∧ A.seq.waitLeft = 0 ∧ A.seq.helper = none ∧ A.seq.issued = [] ∧ A.seq.stall = 0) ∧
      A.atHalt = false ∧ A.modes.hold = false ∧ (L.nativeWord 3).isSome = true ∧ (A.seq.routine, A.seq.pc) ∈ A.seq.queue ∧
      s.beating 3 = true ∧ s.extStop 3 = false ∧ (s.arr 3).slip = false ∧ ((s.retryStalls 3).arr 3).stalled = [] ∧ A.seq.held = false ∧
      (match L.fetch 3 with
        | .bundle ops beats =>
          let u := ((L.markFetched 3 beats).issueParts 3 (issueOrder ops)).endBeat 3
          let U := u.arr 3
          decide (ops ≠ [] ∧ U.stalled = [] ∧ U.seq.state = .running ∧ U.seq.helper = none ∧ U.fail = none ∧ U.abandon = none) &&
            (List.range 4).all fun e => (u.engine 3 e).posts.isEmpty
        | _ => false) = true := by decide +kernel
theorem witness_word_late : (atWait 0).arrOn 3 = true ∧ (atWait 0).wordDue 3 = true ∧ ((atWait 0).arr 3).deliveryDue = false := by decide +kernel
theorem witness_delivery :
    let f : Flight := { left := 0, rank := 0, op := .deliver [3, 4] 0xFFFFF [1, 2] none }
    (due [f]).arrOn 3 = true ∧ (due [f]).flag Reg.FAULT_INJ_ARM = false ∧ [3, 4].Nodup ∧ ((due [f]).arr 3).flight.filter (fun g => decide (g.left = 0)) = [f] ∧ ((due [f]).arr 3).slip = false := by
  decide

/-- An array with engine 0 as given. -/
def engined (x : Engine) : State := st { running with engines := [(0, x)] }
theorem witness_stream_operations :
    (∀ s ∈ [engined {}, engined { started := true }, engined { started := true, steps := 1 }, engined { started := true, arm := { free := true } }],
      ∀ i ∈ [Instr.sgo 3 always 0 31, .shalt 3 always 0, .sfree 3 always 0 63, .sadv 3 always 0 255, .scopy 3 always 0 63 63], Issues s 3 always i) ∧
    (((engined { started := true }).landEarly 3).arr 3).eng 0 = { started := true } :=
  ⟨fun s hs i hi => issues_of (by revert s; revert i; decide), by decide⟩
theorem witness_point_copy :
    let s := st { running with engines := [(0, { started := true })], regs := { desc := [(4, 0x20000000#32)] } }
    Issues s 3 always (.scopy 3 always 0 0 0) ∧ Issues s 3 always (.scopy 3 always 0 0 1) ∧ (((s.landEarly 3).arr 3).eng 0).started = true ∧
      (((s.landEarly 3).arr 3).descr 0).space = 0 ∧ 2 ≤ (((s.landEarly 3).arr 3).descr 1).space := by
  refine ⟨issues_of ?_, issues_of ?_, ?_, ?_, by decide⟩ <;> decide +kernel
/-- Descriptors 0 of the array store and 1 of the shared store: copies that read and that write the shared store, and one within it. -/
theorem witness_shared_copy :
    let s := st { running with engines := [(0, { started := true })], regs := { desc := [(4, 0x10000000#32)] } }
    (∀ i ∈ [Instr.scopy 3 always 0 1 0, .scopy 3 always 0 0 1, .scopy 3 always 0 1 1], Issues s 3 always i) ∧ Unarmed (s.landEarly 3) ∧
      (((s.landEarly 3).arr 3).descr 1).space = 1 ∧ (((s.landEarly 3).arr 3).eng 0).started = true := by
  refine ⟨fun i hi => issues_of (by revert i; decide +kernel), unarmed_of ?_, ?_, by decide⟩ <;> decide +kernel
theorem witness_mail_stream :
    let s := engined { started := false, posts := [(9, 1, 0, 0)] }
    s.arrOn 3 = true ∧ (s.arr 3).abandon = none ∧ ((s.arr 3).eng 0).posts = [(9, 1, 0, 0)] ∧ s.movesDone 3 0 0 = true := by decide

/-- Channel 0 of the memory port with one write outstanding under tag 5. -/
def port : State := { State.reset with doms := on, mport := { chans := [(0, { out := [(5, writing)], credits := 0, grant := 1 })] } }
/-- The same port with another transaction under the tag, and the state of its task. -/
def portOf (t : Txn) (attempt : Option Task) (staged : List Contribution) (posts : List HeldPost) : State :=
  { port with
    mport := { chans := [(0, { out := [(5, t)], credits := 0, grant := 1 })], staged := staged, posts := posts }
    arrs := match attempt with | some _ => [(3, { running with task := some 1 })] | none => []
    disp := { tasks := match attempt with | some k => [(1, some k)] | none => [], cmds := [{ cid := 1, queue := 2, agent := 0, bytes := 0 }] } }
/-- A read into the store of array 3, an atomic add, the add of a release, and a write of no task. -/
def others : List Txn :=
  [{ writing with kind := 0, data := [], dst := .store 3 0xFFFFF }, { writing with kind := 2 }, { writing with kind := 2, owner := .release 1 },
    { writing with owner := .unit }]
/-- The task that issued the transaction, running its fourth attempt. -/
def task0 : Task := { cid := 1, ten := 0, queue := 2, index := 0, tasks := 1, routine := 256, version := 0, array := 3, argAddr := 0, argLen := 0, state := 2, attempt := 4 }
/-- A contribution of it, and a post that waits for that one alone. -/
def staged0 : Contribution := { cid := 1, rid := 1, order := 7, ten := 0, addr := 64, data := List.replicate 64 1, spilled := false }
theorem outstanding_of {s : State} {t : Txn} (h : s.domOn domMPT = true ∧ ((s.chan 0).out.find? fun o => o.1 == 5) = some (5, t) ∧ (s.chan 0).wait = [])
    (k : ∀ e, (s.arr e).engines = []) : Outstanding s 0 5 t :=
  ⟨h.1, h.2.1, h.2.2, fun a r j _ e _ => by simp [State.engine, ArrayState.eng, k a, Tbl.get]⟩
theorem portOf_engines (t : Txn) (k : Option Task) (l : List Contribution) (p : List HeldPost) (e : Nat) : ((portOf t k l p).arr e).engines = [] := by
  cases k with
  | none => rfl
  | some x =>
    simp only [portOf, State.arr, Tbl.get]
    split <;> rfl
/-- A write of a task that runs no more, and one of a task that runs; a read, an add and a release's add. -/
theorem witness_outstanding (t : Txn) (k : Option Task) (l : List Contribution) (p : List HeldPost) : Outstanding (portOf t k l p) 0 5 t ∧ Unarmed (portOf t k l p) :=
  ⟨outstanding_of ⟨rfl, rfl, rfl⟩ (portOf_engines t k l p), rfl⟩
theorem witness_failed_task :
    let s := portOf writing (some task0) [] []
    writing.owner = .task 3 1 0 ∧ writing.data.length ≤ writing.size ∧ (s.arr 3).task = some 1 ∧ (s.arr 3).abandon = none ∧ (s.arr 3).fail = none ∧
      s.task 1 = some task0 ∧ task0.state = 2 ∧ task0.failed = none ∧ (s.faultPart 0).recs.length < 16 ∧
      s.cmd 1 = some { cid := 1, queue := 2, agent := 0, bytes := 0 } ∧ (∀ t ∈ others, t.kind ≤ 2 ∧ t.data.length % 4 = 0) := by decide +kernel
theorem witness_bystanding : Bystanding (portOf writing none [] []) writing ∧ ∀ x : State, ∀ t ∈ others, t.owner = .unit → Bystanding x t :=
  ⟨⟨fun b r e h => by cases h; decide +kernel, fun cid h => by cases h⟩, fun x t _ h => ⟨fun b r e k => by (rw [h] at k; cases k), fun cid k => by (rw [h] at k; cases k)⟩⟩
theorem witness_release_answered :
    let s := portOf { writing with kind := 2, owner := .release 1, no := 7 } none [staged0, { staged0 with order := 8 }] [{ rid := 1, ten := 0, lb := 9, amount := 1, waits := [7] }]
    (∃ x ∈ s.mport.staged, x.cid = 1 ∧ x.order ≠ 7) ∧ (∀ p ∈ s.mport.posts, p.waits = [7]) ∧ s.resets.ten = none :=
  ⟨⟨{ staged0 with order := 8 }, by decide, rfl, by decide⟩, by decide, rfl⟩
theorem witness_failed : (port.arr 3).task = none ∧ port.flag Reg.MPORT_ERR_VALID = false ∧ (∀ o ∈ (port.chan 0).out, o.1 ≠ 6) := by decide
/-- The same with a credit kept for the row of an array. -/
theorem witness_credits : port.domOn domMPT = true ∧ (port.chan 0).wait = [] ∧ (port.chan 0).credits + 1 ≤ (port.chan 0).grant ∧
    (port.chan 0).grant < (port.chan 0).credits + 2 ∧
    (let s : State := { port with mport := { chans := [(0, { credits := 1, grant := 3, got := [5] })] } }
     (s.chan 0).wait = [] ∧ (s.chan 0).credits + (s.chan 0).got.length + 1 ≤ (s.chan 0).grant ∧
       (s.chan 0).grant < (s.chan 0).credits + (s.chan 0).got.length + 2) := by decide
/-- A port whose channels are as reset leaves them has room for every row. -/
theorem portFree_of {s : State} (h : s.mport.chans = []) (who : Nat) : PortFree s who := by
  refine ⟨fun e he => ?_, fun c _ => ?_⟩
  · rw [h] at he
    cases he
  · show (Tbl.get {} s.mport.chans c).full = false
    rw [h]
    exact (by decide : ({} : MemChan).full = false)
end Sys2Proof.Tests

namespace Sys2Proof.Tests
open Sys2Proof.Machine Sys2Proof.Claims

/-! ### Streams, commands and tasks -/

/-- A state with some register fields set: each with its instance and element. -/
def withRegs (s : State) (l : List (FieldSpec × Nat × Nat × Nat)) : State :=
  { s with regs := l.foldl (fun r x => Regs.set r x.1 x.2.1 x.2.2.2 x.2.2.1) s.regs }

/-- An armed engine at a move of 64 bytes from the shared store, or at a handle's arrival. -/
def armed (steps : Nat) (ins : BitVec 32) : Engine :=
  { arm := { armed := true, image := [ins, 0, ins, 0] }, started := true, steps := steps, credit := 64 }

theorem witness_stream_step :
    let m : Move := { src := 1, dst := 3, ssb := 0, dsb := 0, deliv := 0, half := 0, bytes := 64 }
    AtSharedMove (((engined (armed 0 0x00100191#32)).landEarly 3).arr 3) 0 m ∧ Issues (engined (armed 0 0x00100191#32)) 3 always (.sadv 3 always 0 0) ∧
      AtSharedMove ((engined (armed 1 0x00100191#32)).arr 3) 0 m ∧ ({ armed 0 0x00100191#32 with pc := 1 } : Engine).cur = .move m ∧
      (engined (armed 1 0x00100191#32)).arrOn 3 = true ∧ (engined (armed 1 0x00100191#32)).extStop 3 = false := by
  refine ⟨⟨?_, ?_, ?_, ?_, ?_, ?_, ?_⟩, issues_of ?_,
    ⟨?_, ?_, ?_, ?_, ?_, ?_, ?_⟩, ?_, ?_, by decide⟩ <;> decide +kernel
/-- A MOVE of 64 bytes with base registers 0. -/
def moveOf (src dst : Nat) : Move := { src := src, dst := dst, ssb := 0, dsb := 0, deliv := 0, half := 0, bytes := 64 }
/-- A FREE engine at that MOVE, with 64 bytes of credit and `n` bytes in its outbound buffer. -/
def mover (src dst n : Nat) : Engine :=
  let w := BitVec.ofNat 32 (1 + 2 ^ 4 * src + 2 ^ 7 * dst + 2 ^ 20)
  { arm := { armed := true, free := true, image := [w, 0, w, 0] }, started := true, credit := 64, outbound := List.replicate n 1 }
/-- It runs on array 3, for a tenancy with windows, a task, staging room `stg` and a snapshot of sequence 0 on a pool of one plane. -/
def moving (src dst n stg : Nat) : State :=
  { withRegs State.reset [(Reg.TEN_EN, 0, 0, 1), (Reg.TEN_WEN, 0, 0, 1), (Reg.TEN_WLIM_LO, 0, 0, 16), (Reg.MPORT_STG_SIZE, 0, 0, stg),
      (Reg.CACHE_PLANES, 0, 0, 1)] with
    doms := on
    arrs := [(3, { running with task := some 1, engines := [(0, mover src dst n)] })]
    disp := { tasks := [(1, some { task0 with snaps := [{ seq := 0, pool := 0, len := 48, wtop := 33, dlen := 0, pages := [(0, 3)] }] })] } }
theorem atMove_of {s : State} {a e : Nat} {m : Move} (h : s.arrOn a = true ∧ (s.arr a).abandon = none) (k : (s.engine a e).started = true)
    (c : (s.engine a e).cur = .move m) (w : (s.engine a e).halting = false) (f : (s.engine a e).arm.free = true) : AtMove s a e m :=
  ⟨h, k, c, w, .inl f⟩
/-- A MOVE from each source to each destination, along a path of Table 1.3 or none. -/
theorem witness_moves_of_each_path : (∀ x ∈ [(0, 0), (0, 2), (0, 3), (0, 4), (0, 5), (2, 0), (2, 1), (2, 2), (3, 3), (4, 0), (4, 1), (4, 2), (4, 3), (4, 4), (1, 2)],
      Unarmed (moving x.1 x.2 64 1) ∧ AtMove (moving x.1 x.2 64 1) 3 0 (moveOf x.1 x.2)) ∧ movePath 1 2 = false ∧ movePath 0 2 = true := by
  refine ⟨fun x hx => ⟨unarmed_of ?_, atMove_of ?_ ?_ ?_ ?_ ?_⟩, by decide, by decide⟩ <;> revert x <;> decide +kernel
/-- What the clauses on a MOVE from memory, out of the array and to an atomic add ask: windows, half and credit, a slot free and taken,
room in the outbound buffer and none, and staging room and none. -/
theorem witness_move_conditions :
    let s := moving 0 3 64 1
    let A := s.arr 3
    let l := moveTxns s 3 0 0 0 64 fun _ _ (q : Txn) => q
    InWindows s l ∧ l.length = 1 ∧ ((s.engine 3 0).arm.half = if (0 : Nat) % 2 ^ 28 < 0x08000000 then 0 else 1) ∧ 64 ≤ (s.engine 3 0).credit ∧
      ¬ taken (s.engine 3 0).filling (s.engine 3 0).filled 0 ∧ taken [(0, 1)] [] 0 ∧ ¬ taken A.mv.filling A.mv.filled 0 ∧ taken [] [0] 0 ∧
      s.outboundUse 3 0 + 64 ≤ 8192 ∧ 8192 < (moving 2 0 8192 1).outboundUse 3 0 + 64 ∧ (s.arr 3).task = some 1 ∧ (s.task 1).isSome = true ∧
      s.stagedUse 0 false + 2 ≤ 1024 * s.reg Reg.MPORT_STG_SIZE 0 ∧ ¬ (s.stagedUse 0 true + 2 ≤ 1024 * s.reg Reg.MPORT_OVF_SIZE 0) ∧
      ¬ ((moving 2 1 64 0).stagedUse 0 false + 2 ≤ 1024 * (moving 2 1 64 0).reg Reg.MPORT_STG_SIZE 0) ∧ s.spanInWindow 0 0 64 = true := by
  unfold InWindows taken; decide +kernel
/-- A read of a cache source that the task named, of a position with a page, and one of a sequence that it did not name. -/
theorem witness_cache_source :
    let s := moving 3 3 64 1
    let y : Snap := { seq := 0, pool := 0, len := 48, wtop := 33, dlen := 0, pages := [(0, 3)] }
    ((s.task 1).bind fun k => k.snaps.find? fun z => z.seq == 0) = some y ∧ (0 : Nat) < (s.pool y.pool).planes ∧ (s.engine 3 0).offset false = 0 ∧
      y.frame 0 = some 3 ∧ (∀ k, s.task 1 = some k → ∀ z ∈ k.snaps, z.seq ≠ 1) ∧
      (let v : State := { s with arrs := [(3, { running with task := some 1, engines := [(0, mover 3 3 0)], pigeon := [(0, 0, 0, 3)] })] }
       (v.seek 3 0 y 0).2 = true) := by
  refine ⟨by decide +kernel, by decide +kernel, by decide +kernel, by decide +kernel, fun k h => ?_, by decide +kernel⟩
  rw [← Option.some.inj h]
  decide
/-- A post behind a staged add of its engine. -/
theorem witness_post_held :
    let s := { engined { started := false, posts := [(9, 1, 1, 0)] } with mport := { staged := [{ staged0 with rid := 0, eng := 0, no := 0 }] } }
    s.movesDone 3 0 1 = true ∧ (s.mport.staged.filter fun c => c.rid == (s.arr 3).task.getD 0 && !c.ready && c.eng == 0 && decide (c.no < 1)).map (·.order) = [7] := by
  decide
/-- A handle there, and none. -/
theorem witness_nextbase :
    let s := { synced fullBag [] with arrs := [(3, { running with task := some 1, engines := [(0, armed 1 0x000000F4#32)] })] }
    s.arrOn 3 = true ∧ ((s.arr 3).eng 0).cur = .nextBase 7 1 ∧ InRange s (s.tenRunning 3) Reg.TEN_MB_FIRST Reg.TEN_MB_SIZE 1 ∧ MayStep s 3 0 ∧
      (s.bag 1).handles[indexOf (queued (s.bag 1).takers (bagWho 3 0)) (bagWho 3 0)]? = some (5, none) ∧
      ({ armed 1 0x000000F4#32 with pc := 1 } : Engine).cur ≠ .stop ∧ (s.bag 0).handles[indexOf (queued (s.bag 0).takers (bagWho 3 0)) (bagWho 3 0)]? = none := by
  refine ⟨?_, ?_, ⟨?_, .inr ?_⟩, ⟨?_, ?_, ?_, ?_, ?_⟩, ?_, ?_, by decide⟩ <;> decide +kernel

/-- A command's 64 bytes: each value at its first bit. -/
def bits (l : List (Nat × Nat)) : BitVec 512 := BitVec.ofNat 512 (l.foldl (fun n x => n + x.2 * 2 ^ x.1) 0)
/-- A command of queue 2, tenancy 0. -/
def cmd (kind : Nat) (l : List (Nat × Nat)) : Cmd := { cid := 1, queue := 2, agent := 0, bytes := bits ((0, kind) :: l) }
/-- Tenancy 0 serves commands: unit 0, the first 64 KiB of memory, letterboxes 0 to 9, mailbags 0 to 1. -/
def serving (l : List Cmd) : State :=
  { withRegs { State.reset with doms := on } [(Reg.TEN_EN, 0, 0, 1), (Reg.TEN_ARR_UNITS_LO, 0, 0, 1), (Reg.TEN_WEN, 0, 0, 1), (Reg.TEN_WLIM_LO, 0, 0, 16),
      (Reg.TEN_LB_SIZE, 0, 0, 10), (Reg.TEN_MB_SIZE, 0, 0, 2), (Reg.TEN_SS_SIZE, 0, 0, 1)] with disp := { cmds := l } }
theorem onTurn_of {s : State} {q kind : Nat} {c : Cmd} (h : s.turnOf q kind = some c ∧ s.cmd c.cid = some c) : OnTurn s q kind c := ⟨h.1, h.2⟩

theorem witness_simple_commands :
    OnTurn (serving [cmd 0 []]) 2 0x00 (cmd 0 []) ∧ OnTurn (serving [cmd 0x0A []]) 2 0x0A (cmd 0x0A []) ∧ (serving [cmd 0x0A []]).earlierDone (cmd 0x0A []) = true ∧
      (let s := serving [{ cmd 1 [] with cid := 0, queue := 3 }, cmd 0x0A []]
       OnTurn s 2 0x0A (cmd 0x0A []) ∧ s.earlierDone (cmd 0x0A []) = false) ∧
      (let c := { cmd 0x0D [(256, 0xFFFF)] with reading := [1] }
       OnTurn (serving [c]) 2 0x0D c ∧ (serving [c]).spanInWindow 0 0xFFFF 1 = true ∧ (serving [c]).spanInWindow 0 0xFFFF 2 = false) := by
  refine ⟨onTurn_of ?_, onTurn_of ?_, ?_, ⟨onTurn_of ?_, ?_⟩, onTurn_of ?_, ?_, by decide +kernel⟩ <;> decide +kernel

/-- Pool 0 belongs to tenancy 0 and is enabled; sequence 0 is live with two rows, as its descriptor at address 0 says. -/
def pooled (l : List Cmd) : State := { withRegs (serving l) [(Reg.CACHE_EN, 0, 0, 1), (Reg.CACHE_PLANES, 0, 0, 1), (Reg.CACHE_FRAME_COUNT, 0, 0, 8),
    (Reg.CACHE_NODE_COUNT, 0, 0, 4), (Reg.CACHE_FREE_HEAD, 0, 0, 0), (Reg.CACHE_NODE_HEAD, 0, 0, 1), (Reg.CACHE_FREE_FRAMES, 0, 0, 8), (Reg.CACHE_FREE_NODES, 0, 0, 4), (Reg.CACHE_FT_BASE_LO, 0, 0, 0x1000), (Reg.CACHE_FRAME_BASE_LO, 0, 0, 0x2000),
    (Reg.CACHE_NODE_BASE_LO, 0, 0, 0x8000)] with mem := [(0, 1), (4, 2), (8, 2)] }
def isOk {ε α : Type} : Except ε α → Bool | .ok _ => true | .error _ => false
theorem isOk_ex {ε α : Type} {x : Except ε α} (h : isOk x = true) : ∃ w, x = .ok w := by
  cases x with
  | ok w => exact ⟨w, rfl⟩
  | error n => cases h
theorem ok_eq {x : Except Nat Nat} {n : Nat} (h : (match x with | .ok m => decide (m = n) | .error _ => false) = true) : x = .ok n := by
  cases x with
  | ok m => exact congrArg _ (of_decide_eq_true h)
  | error m => cases h
/-- What the statement on cache commands asks of command `c` of kind `k`, computed. -/
def cacheCase (y : Nat × Cmd) : Bool :=
  let s := pooled [y.2]
  decide (s.turnOf 2 y.1 = some y.2) && decide (s.cmd 1 = some y.2) && decide (s.receiptUse 0 < Config.receiptShare) && s.domOn domKVC &&
    !s.forkBad 0 0 y.2.bytes && (match s.poolOf 0 (cmdBits y.2.bytes 0x18 15 0) with | .ok m => decide (m = 0) | .error _ => false) &&
    isOk (s.cacheBody 0 y.2.bytes .ok)
/-- An APPEND to the live sequence, as a draft, and one that opens sequence 1, a FORK, a COMMIT and FREEs. -/
theorem test_cache_case : ∀ y ∈ [(2, cmd 2 [(224, 1), (237, 1)]), (2, cmd 2 [(221, 1), (224, 1), (237, 1)]), (2, cmd 2 [(192, 1), (224, 1), (237, 1)]),
    (3, cmd 3 [(208, 1)]), (4, cmd 4 []), (5, cmd 5 []), (5, cmd 5 [(224, 1)]), (5, cmd 5 [(192, 1)])], cacheCase y = true := by decide +kernel
/-- An APPEND of a row to a live sequence reads its structures and writes the row. -/
theorem witness_cache_errors :
    (match (pooled [cmd 2 [(224, 1), (237, 1)]]).cacheBody 0 (cmd 2 [(224, 1), (237, 1)]).bytes .ok with
      | .ok w => w.reads[0]?.isSome && w.rows[0]?.isSome
      | .error _ => false) = true := by decide +kernel
/-- An APPEND to a sequence that stands open as a draft, which ends after its reads; a line that it had read. -/
theorem witness_cache_stopped :
    let s := { pooled [cmd 2 [(224, 1), (237, 1)]] with mem := [(0, 1), (4, 2), (8, 2), (12, 1)] }
    (match s.cacheBody 0 (cmd 2 [(224, 1), (237, 1)]).bytes .ok with
      | .ok _ => 0
      | .error (n, w) => if w.reads[0]?.isSome then n else 0) ≠ 0 := by decide +kernel
/-- A live sequence whose directory is no node of its pool, and a descriptor outside the windows. -/
theorem witness_cache_window_fault :
    let s := { pooled [cmd 5 []] with mem := [(0, 1), (0x10, 4)] }
    (descriptor s 0 0).live = true ∧ (s.pool 0).nodes ≤ (descriptor s 0 0).dir ∧
      (withRegs (pooled []) [(Reg.CACHE_DESC_BASE_LO, 0, 0, 0x20000)]).spanInWindow 0 ((withRegs (pooled []) [(Reg.CACHE_DESC_BASE_LO, 0, 0, 0x20000)]).pool 0 |>.descAt 0) 64 =
        false := by decide +kernel
/-- A command under way on that pool, with frame 3 held by `r` entries in state `k`. -/
def working (r k : Nat) (regs : List (FieldSpec × Nat × Nat × Nat)) : Work :=
  let s := withRegs (pooled []) regs
  let m := s.mem.putBytes ((s.pool 0).fteAt 3) (leBytes 8 (Fte.toNat { refcnt := r, fstate := k, fenced := false, next := 0 }))
  let s := { s with mem := (m.putBytes ((s.pool 0).entryAt 0 0) (leBytes 8 (1 + 2 ^ 33))).putBytes ((s.pool 0).entryAt 2 0) (leBytes 8 (1 + 3 * 2 ^ 32)) }
  { data := s, pub := s, pool := s.pool 0, seq := 0 }
/-- Frames to take and none; a reference that is not the last, the last, and one too many; a leaf, a node to take and none; a page
with its own frame and with a shared one, and one without. -/
theorem witness_cache_steps :
    let w := working 2 1 []
    let full := working 1 1 [(Reg.CACHE_FREE_HEAD, 0, 0, 8), (Reg.CACHE_NODE_HEAD, 0, 0, 4)]
    let d : Dsc := Dsc.ofNat (w.pub.memLe (w.pool.descAt 0) 64)
    (w.badRead = none ∧ w.pool.p < 16 ∧ d.dir < w.pool.nodes) ∧ w.reg Reg.CACHE_FREE_HEAD < w.pool.frames ∧ full.pool.frames ≤ full.reg Reg.CACHE_FREE_HEAD ∧
      seen w (w.pool.fteAt 0) 8 ∧ seen w (w.pool.fteAt 3) 8 ∧ (frameEntry w 3).refcnt = 2 ∧ (frameEntry full 3).refcnt = 1 ∧
      (frameEntry (working 65535 1 []) 3).refcnt = 65535 ∧ seen w (w.pool.entryAt 3 0) 4 ∧ seen w (w.pool.entryAt 0 0) 8 ∧
      bitOf (w.pub.memLe (w.pool.entryAt 0 0) 8) 0 = true ∧ w.pub.memLe (w.pool.entryAt 0 0) 8 / 2 ^ 32 < w.pool.nodes ∧ seen w (w.pool.entryAt 2 0) 8 ∧
      bitOf (w.pub.memLe (w.pool.entryAt 0 1) 8) 0 = false ∧ w.reg Reg.CACHE_NODE_HEAD < w.pool.nodes ∧ full.pool.nodes ≤ full.reg Reg.CACHE_NODE_HEAD ∧
      seen w (w.pool.entryAt 1 0) 4096 ∧ w.pub.walkPage w.pool 0 0 = (0, 3) ∧ (w.pub.walkPage w.pool 0 1).1 = 4 ∧
      ((frameEntry full 3).fenced = false ∧ full.pool.cow = false) ∧ (w.pub.walkPage w.pool 9 0).1 ≠ 0 ∧ (w.pub.walkPage w.pool 9 0).1 ≠ 4 := by
  unfold seen; decide +kernel
/-- An answer that leaves a range out, and one that names a line of it. -/
theorem witness_answers : LinesOK .ok 0 64 ∧ LinesOK (.error ⟨1, 2, false⟩) 0 64 ∧ ¬ LinesOK (.error ⟨0, 2, false⟩) 0 64 := by
  unfold LinesOK; decide
theorem witness_cache_commands (y : Nat × Cmd) (h : cacheCase y = true) (k : y.2.cid = 1) :
    OnTurn (pooled [y.2]) 2 y.1 y.2 ∧ (pooled [y.2]).receiptUse 0 < Config.receiptShare ∧ (pooled [y.2]).domOn domKVC = true ∧
      (pooled [y.2]).forkBad 0 0 y.2.bytes = false ∧ (pooled [y.2]).poolOf 0 (cmdBits y.2.bytes 0x18 15 0) = .ok 0 ∧
      (∃ w, (pooled [y.2]).cacheBody 0 y.2.bytes .ok = .ok w) ∧ PortFree (pooled [y.2]) unitWho := by
  simp only [cacheCase, Bool.and_eq_true, decide_eq_true_eq, Bool.not_eq_true'] at h
  exact ⟨onTurn_of ⟨h.1.1.1.1.1.1, k ▸ h.1.1.1.1.1.2⟩, h.1.1.1.1.2, h.1.1.1.2, h.1.1.2, ok_eq h.1.2, isOk_ex h.2, portFree_of rfl _⟩
end Sys2Proof.Tests

namespace Sys2Proof.Tests
open Sys2Proof.Machine Sys2Proof.Claims

/-- A Sirtos image with the given profile and one bundle, a WAIT or one whose control slot holds `v`. -/
def image (profile hdr : Nat) (v : Option Nat) : List Byte :=
  leBytes 4 0x53525430 ++ leBytes 4 1 ++ leBytes 4 profile ++ leBytes 4 1 ++ leBytes 4 1 ++ leBytes 4 (if v.isSome then 12 else 4) ++ leBytes 40 0 ++
    leBytes 4 hdr ++ (match v with | some x => leBytes 8 x | none => [])
/-- The control word of END. -/
def endWord : Nat := ((slotWord (.endTask 0 always)).map fun x => x.2.toNat).getD 0
/-- Memory from address 0. -/
def memOf (l : List Byte) : Memory := Memory.putBytes [] 0 l
/-- LOAD_PROGRAM of `n` bytes at address 0 as routine `r`, with a library. -/
def loading (r n : Nat) (m : List Byte) (lib : Tbl Routine) : State × Cmd :=
  let c := cmd 6 [(192, r), (320, n)]
  ({ serving [c] with mem := memOf m, disp := { cmds := [c], lib := lib } }, c)
theorem witness_load_program :
    (∀ x ∈ [loading 255 0 [] [], loading 256 0 [] [(256, { kind := 1, owner := 1 })], loading 256 65537 [] [], loading 256 64 [] [],
        loading 256 76 (image 0 0x40 (some endWord)) [], loading 256 76 (image 1 0x40 (some endWord)) []], OnTurn x.1 2 6 x.2) ∧
      ((loading 256 0 [] []).1.routine 256).kind = 0 ∧ (loading 256 65537 [] []).1.spanInWindow 0 0 65537 = false ∧
      (loading 256 65536 [] []).1.spanInWindow 0 0 65536 = true ∧
      (let x := loading 256 76 (image 1 0x40 (some endWord)) []
       isOk (checkImage (x.1.mem.bytes 0 76)) = true ∧ (x.1.ramFind 256).isSome = true ∧
         (loading 256 76 [] [(257, { kind := 1, base := 0x100000, size := 0x200000 })]).1.ramFind 256 = none) ∧
      (∀ y ∈ [(image 0 0x40 (some endWord), 2), (image 1 0x10040 (some endWord), 3), (image 1 0x80 none, 7), (image 1 0x40 none, 1)],
        (match checkImage y.1 with | .error n => decide (n = y.2) | .ok _ => false) = true) := by
  refine ⟨fun x hx => onTurn_of (by revert x; decide +kernel), ?_, ?_, ?_, ?_, by decide +kernel⟩ <;> decide +kernel

/-- Channel 0 has no credit, and a line of the image is on it; no request of a unit's waits yet. -/
theorem witness_load_waits :
    let x := loading 256 76 [] []
    let s := { x.1 with mport := { chans := [(0, { credits := 0 })] } }
    OnTurn s 2 6 x.2 ∧ s.spanInWindow 0 0 76 = true ∧ (∀ e ∈ s.mport.chans, e.2.asked unitWho = false) ∧
      ∃ l ∈ linesOf 0 76, (s.chan (chanOfAddr l)).full = true :=
  ⟨onTurn_of (by decide +kernel), by decide +kernel, by decide +kernel, 0, by decide +kernel, by decide +kernel⟩
/-- The port is free in the states of the rows that a unit of the block carries out. -/
theorem witness_port_free (l : List Cmd) (who : Nat) : PortFree (serving l) who ∧ PortFree (pooled l) who ∧ (∀ x ∈ [loading 256 64 [] [], loading 256 0 [] []], PortFree x.1 who) := by
  refine ⟨portFree_of rfl _, portFree_of rfl _, fun x hx => ?_⟩
  rcases List.mem_cons.1 hx with h | h
  · exact h ▸ portFree_of rfl _
  · exact List.mem_singleton.1 h ▸ portFree_of rfl _

/-- The arrays of the tenancy can take a load up at once, or all hold tasks. -/
theorem witness_boundary_load :
    let c := cmd 7 [(208, 0x40)]
    let s := serving [c]
    let b := { serving [c] with arrs := (s.usable 0).map fun a => (a, { running with task := some a }) }
    OnTurn s 2 7 c ∧ s.usable 0 = List.range 16 ∧ (∀ a ∈ s.usable 0, Ready s c a) ∧ (∀ a ∈ b.usable 0, (b.arr a).task ≠ none) ∧
      s.spanInWindow 0 0 1152 = true ∧ (serving []).spanInWindow 0 65535 1152 = false := by
  refine ⟨onTurn_of ?_, ?_, fun a ha => ⟨?_, ?_, ?_, ?_⟩, ?_, ?_, by decide +kernel⟩
  any_goals decide +kernel
  all_goals (revert a; decide +kernel)
/-- An image of words that holds a shared-store move, and one that stops at once; reservations that fit and that do not. -/
theorem witness_stream_arm :
    let c := cmd 8 [(195, 1)]
    let s := serving [c]
    let big : Arming := { armed := true, slotCode := 7, rate := 511 }
    OnTurn s 2 8 c ∧ OnTurn (withRegs s [(Reg.TEN_ARR_UNITS_LO, 0, 0, 0)]) 2 8 c ∧ (withRegs s [(Reg.TEN_ARR_UNITS_LO, 0, 0, 0)]).usable 0 = [] ∧
      s.spanInWindow 0 0 320 = true ∧ sharedMove [0x00100191#32] = true ∧ sharedMove [] = false ∧ s.armRange c ≠ [] ∧
      s.armFits (s.armRange c) 0 { armed := true } = true ∧ s.armFits (s.armRange c) 0 big = false ∧ OnTurn (serving [cmd 9 []]) 2 9 (cmd 9 []) := by
  refine ⟨onTurn_of ?_, onTurn_of ?_, ?_, ?_, ?_, ?_, ?_,
    ?_, ?_, onTurn_of ?_⟩ <;> decide +kernel
/-- RUN of an entry routine of the tenancy, of no routine, with a block too long, with no arrays. -/
theorem witness_run :
    let run := fun (len : Nat) (coll : Nat) => cmd 1 [(11, coll), (192, 256), (224, len), (240, 3)]
    let s := fun (c : Cmd) (n : Bool) => { serving [c] with disp := { cmds := [c], lib := [(256, { kind := 1, narrowOk := n })] } }
    OnTurn (s (run 0 0) true) 2 1 (run 0 0) ∧ OnTurn (s (run 4097 1) true) 2 1 (run 4097 1) ∧
      (s (run 0 0) true).routineKind 256 = 1 ∧ (s (run 0 0) true).mayUse 0 256 = true ∧ (s (run 0 0) true).noArrays 0 256 false = false ∧
      ({ s (run 0 1) false with conds := [(3, { applied := some 2 })] } : State).noArrays 0 256 true = true ∧
      (s (run 0 0) true).spanInWindow 0 (entriesOf (parseArgs 256 [])).1 (32 * (entriesOf (parseArgs 256 [])).2) = true ∧
      (s (run 4096 0) true).spanInWindow 0 0 4096 = true ∧ (s (run 0 0) true).spanInWindow 0 65535 2 = false ∧ (serving []).routineKind 256 = 0 := by
  refine ⟨onTurn_of ?_, onTurn_of ?_, ?_, ?_, ?_, ?_,
    ?_, ?_, ?_, by decide +kernel⟩ <;> decide +kernel

/-- RUN of vendor routine `r` with the given argument records, of `len` bytes, at address 0, and one entry at 0x1000: its kind and source,
and its rows of queries and of keys. -/
def vendorRun (r len : Nat) (l : List (Nat × Nat)) (kv rows : Nat) : State × Cmd :=
  let c := cmd 1 [(192, r), (224, len)]
  let m := memOf (l.flatMap fun x => leBytes 8 x.1 ++ leBytes 8 x.2)
  ({ withRegs (pooled [c]) [(Reg.CACHE_DIM, 0, 0, 0), (Reg.CACHE_DESC_BASE_LO, 0, 0, 0xC00)] with mem := m.putBytes 0x1000 (leBytes 8 0 ++ leBytes 8 kv ++ leBytes 4 rows ++ leBytes 4 16 ++ leBytes 8 0) }, c)
/-- The arguments that QUANT needs, those of the forward routine, and with these those of the decode routine. -/
def quantArgs : List (Nat × Nat) := [(0x03, 32), (0x36, 0x2000), (0x85, 0x3000), (0x86, 1), (0x87, 0x4000)]
def forwardArgs (d : Nat) : List (Nat × Nat) := [(0x03, d), (0x05, 0x3F800000), (0x36, 0x2000), (0x60, 0x1000), (0x61, 1)]
def decodeArgs (d : Nat) : List (Nat × Nat) := forwardArgs d ++ [(0x44, 4)]
/-- The arguments as the RUN reads them. -/
def argsOf (x : State × Cmd) : List (Nat × Nat) := parseArgs 256 (x.1.mem.bytes 0 (cmdBits x.2.bytes 0x1C 12 0))
/-- The batch that it forms. -/
def batchOfRun (r : Nat) (x : State × Cmd) (snaps : List Snap) : Batch :=
  { t := 0, routine := r, l := argsOf x, es := entryRecs (x.1.mem.bytes (entriesOf (argsOf x)).1 (32 * (entriesOf (argsOf x)).2)), snaps := snaps }
/-- What every clause on a vendor RUN asks: the routine is there, an array serves, and block and entries lie in the windows. -/
def runsB (r : Nat) (x : State × Cmd) : Bool :=
  decide (x.1.turnOf 2 1 = some x.2) && decide (x.1.cmd 1 = some x.2) && decide (x.1.routineKind r = 1) && x.1.mayUse 0 r && !x.1.noArrays 0 r false &&
    x.1.spanInWindow 0 0 (cmdBits x.2.bytes 0x1C 12 0) && x.1.spanInWindow 0 (entriesOf (argsOf x)).1 (32 * (entriesOf (argsOf x)).2)
/-- Each vendor routine's RUN, a block of no whole number of records, one that lacks parameters, a D that no head has, an entry of no
rows and a source on a plane that the pool lacks. -/
theorem witness_vendor_run :
    (∀ x ∈ [(8, vendorRun 8 80 quantArgs 0 1), (8, vendorRun 8 72 quantArgs 0 1), (8, vendorRun 8 64 quantArgs 0 1), (8, vendorRun 8 80 [(0x03, 33), (0x36, 0x2000), (0x85, 0x3000), (0x86, 1), (0x87, 0x4000)] 0 1),
        (0, vendorRun 0 80 (forwardArgs 32) 0 1), (0, vendorRun 0 80 (forwardArgs 33) 0 1), (0, vendorRun 0 80 (forwardArgs 32) 0 0),
        (0, vendorRun 0 80 (forwardArgs 32) (2 * 2 ^ 60 + 2 ^ 16) 1), (2, vendorRun 2 96 (decodeArgs 32) (2 * 2 ^ 60) 1)], runsB x.1 x.2 = true) ∧
      recordsBad 8 80 (argsOf (vendorRun 8 80 quantArgs 0 1)) = false ∧ recordsBad 8 72 (argsOf (vendorRun 8 72 quantArgs 0 1)) = true ∧
      recordsBad 8 64 (argsOf (vendorRun 8 64 quantArgs 0 1)) = true ∧ argW (argsOf (vendorRun 0 80 (forwardArgs 33) 0 1)) 0x03 0 ∉ [32, 64, 96, 128, 192, 256, 512] ∧
      (let x := vendorRun 8 80 quantArgs 0 1
       vendorBad (batchOfRun 8 x []) x.1 = false ∧ ((batchOfRun 8 x []).plans x.1 (x.1.eligible 0 8)).length = 1) ∧
      (let x := vendorRun 8 80 [(0x03, 33), (0x36, 0x2000), (0x85, 0x3000), (0x86, 1), (0x87, 0x4000)] 0 1
       vendorBad (batchOfRun 8 x []) x.1 = true) := by decide +kernel
/-- The state after the reads of the block and the entries. -/
def formedFrom (x : State × Cmd) : State :=
  ((x.1.unitRead 0 0 (cmdBits x.2.bytes 0x1C 12 0) .ok).1.unitRead 0 (entriesOf (argsOf x)).1 (32 * (entriesOf (argsOf x)).2) .ok).1
/-- A forward RUN with a bitmap, one with a source on a plane that its pool lacks, and a decode RUN: all checks pass but the source's, and
the forming reads the bitmap and the descriptor. -/
theorem witness_vendor_forming :
    (let x := vendorRun 0 112 (forwardArgs 32 ++ [(0x19, 0x5000), (0x1A, 64)]) 0 1
     let b := batchOfRun 0 x []
     runsB 0 x = true ∧ recordsBad 0 112 b.l = false ∧ vendorBad b (formedFrom x) = false ∧ sourcesBad b (formedFrom x) = false ∧
       (answered (.error ⟨0, 2, false⟩) ((memLines (b.formReads (formedFrom x))).filter ((formedFrom x).inWindow 0))).isSome = true ∧
       (b.plans (formedFrom x) (x.1.eligible 0 0)).length = 1) ∧
    (let x := vendorRun 0 80 (forwardArgs 32) (2 * 2 ^ 60 + 2 ^ 16) 1
     let b := batchOfRun 0 x []
     runsB 0 x = true ∧ recordsBad 0 80 b.l = false ∧ vendorBad b (formedFrom x) = false ∧ sourcesBad b (formedFrom x) = true) ∧
    (let x := vendorRun 2 96 (decodeArgs 32) (2 * 2 ^ 60) 1
     let b := batchOfRun 2 x []
     runsB 2 x = true ∧ recordsBad 2 96 b.l = false ∧ vendorBad b (formedFrom x) = false ∧ sourcesBad b (formedFrom x) = false ∧
       (answered (.error ⟨0, 2, false⟩) ((formedFrom x).snapReads 0 (snapNames b.es))).isSome = true) := by decide +kernel
end Sys2Proof.Tests

namespace Sys2Proof.Tests
open Sys2Proof.Machine Sys2Proof.Claims

theorem drop_take_bytes (m : Memory) (a n o k : Nat) (h : o + k ≤ n) : ((m.bytes a n).drop o).take k = m.bytes (a + o) k := by
  apply List.ext_getElem
  · simp [Memory.bytes, Tbl.getMany]; omega
  · intro i h1 h2
    simp [Memory.bytes, Tbl.getMany, Nat.add_assoc]

/-- The header of a parcel of tenancy 0: the number of its arrays, its length and where its parts stand. -/
def headerOf (n len : Nat) (parts : List (Nat × Nat)) : List Byte :=
  leBytes 4 0x5052434C ++ leBytes 4 1 ++ leBytes 4 1 ++ leBytes 4 (n * 2 ^ 16) ++ leBytes 16 0 ++ leBytes 4 len ++ leBytes 4 0 ++
    parts.flatMap fun x => leBytes 4 x.1 ++ leBytes 4 x.2
/-- One with nothing but table images and meter counters. -/
def header : List Byte := headerOf 0 23392 [(128, 23040), (23168, 128), (23296, 0), (23296, 0), (23296, 0), (23296, 64), (23360, 0)]
/-- One with an array, a pool record, a letterbox and a submitter's record too. -/
def fuller : List Byte := headerOf 1 25844 [(128, 23040), (23168, 128), (23296, 64), (23360, 4), (23364, 1344), (24708, 64), (24772, 1040)]
theorem test_parcel_head : parcelHead ((memOf header).bytes 0 23392) = true ∧ parcelHead (((memOf fuller).put 24772 9).bytes 0 25844) = true := by
  have r : List.range 7 = [0, 1, 2, 3, 4, 5, 6] := rfl
  unfold parcelHead
  simp only [r, List.map_cons, List.map_nil]
  simp only [drop_take_bytes, Nat.reduceAdd, Nat.reduceMul, Nat.reduceLeDiff]
  decide +kernel

theorem bytes_length (m : Memory) (a n : Nat) : (m.bytes a n).length = n := by simp [Memory.bytes, Tbl.getMany]
theorem word_of_bytes {m : Memory} {n x : Nat} (h : x + 4 ≤ n) : leNat (((m.bytes 0 n).drop x).take 4) = m.le x 4 := by
  rw [drop_take_bytes _ _ _ _ _ h, Nat.zero_add]
  rfl
/-- A part of a parcel that memory holds from address 0. -/
theorem parcelPart_bytes {m : Memory} {n : Nat} (k o l : Nat) (e : m.le (0x28 + 8 * k) 4 = o ∧ m.le (0x2C + 8 * k) 4 = l) (h : 0x30 + 8 * k ≤ n ∧ o + l ≤ n) :
    parcelPart (m.bytes 0 n) k = m.bytes o l := by
  simp only [parcelPart]
  rw [word_of_bytes (by omega), word_of_bytes (by omega), e.1, e.2, drop_take_bytes _ _ _ _ _ h.2, Nat.zero_add]
/-- A parcel whose last 32 bytes are those of a keyless tenancy's. -/
theorem parcelSealed_of {s : State} {n : Nat} (h : s.acct 0 = {}) (hn : 32 ≤ n) (z : s.mem.bytes (n - 32) 32 = ({} : Account).tag []) :
    s.parcelSealed 0 (s.mem.bytes 0 n) = true := by
  simp only [State.parcelSealed, bytes_length, h, beq_iff_eq]
  refine (List.take_of_length_le (i := 32) ?_).symm.trans ((drop_take_bytes _ _ _ _ _ (by omega)).trans ?_)
  · rw [List.length_drop, bytes_length]
    omega
  · rw [Nat.zero_add]
    exact z
theorem parcelFits_of {s : State} {bs x y : List Byte} (hx : parcelPart bs 2 = x) (hy : parcelPart bs 3 = y)
    (h : (decide (y.length / 4 ≤ s.reg Reg.TEN_LB_SIZE 0) && decide (x.length / 64 ≤ (s.poolsOf 0).length) &&
      ((s.poolsOf 0).take (x.length / 64)).all fun p => !s.flag Reg.CACHE_EN p) = true) : s.parcelFits 0 bs = true := by
  simp only [State.parcelFits, hx, hy]
  exact h

/-- Tenancy 0, with submitter 9, and the parcel in its memory from address 0. -/
def restoring (m : Memory) : State := { withRegs (serving [cmd 0x0C []]) [(Reg.DSP_SUB_EN, 4, 0, 1), (Reg.DSP_SUB_ID, 4, 0, 9)] with mem := m }
/-- RESTORE of a parcel without arrays, and one that waits for a RUN before it. -/
theorem witness_restore :
    let c := cmd 0x0C []
    let r := restoring (memOf header)
    let bs := r.mem.bytes 0 23392
    OnTurn r 2 0x0C c ∧ r.earlierDone c = true ∧ r.mem.le 0x20 4 = 23392 ∧ r.spanInWindow 0 0 128 = true ∧ r.spanInWindow 0 0 23392 = true ∧
      parcelHead bs = true ∧ r.parcelSealed 0 bs = true ∧ r.parcelFits 0 bs = true ∧ (∀ x ∈ allChans, (r.recvChan x.1 x.2).stash = []) ∧
      (let w := serving [{ cmd 1 [] with cid := 0, queue := 3 }, c]
       OnTurn w 2 0x0C c ∧ w.earlierDone c = false) := by
  refine ⟨onTurn_of (by decide +kernel), by decide +kernel, by decide +kernel, by decide +kernel, by decide +kernel, by dsimp only [restoring]; exact test_parcel_head.1,
    parcelSealed_of (by decide +kernel) (by decide) (by decide +kernel),
    parcelFits_of (parcelPart_bytes 2 23296 0 (by decide +kernel) (by decide)) (parcelPart_bytes 3 23296 0 (by decide +kernel) (by decide)) (by decide +kernel),
    by decide +kernel, onTurn_of (by decide +kernel), by decide +kernel⟩
/-- RESTORE of the fuller parcel to a tenancy with an array, a pool that is not enabled, a letterbox and submitter 9. -/
theorem witness_restore_more :
    let r := restoring ((memOf fuller).put 24772 9)
    let bs := r.mem.bytes 0 25844
    OnTurn r 2 0x0C (cmd 0x0C []) ∧ r.spanInWindow 0 0 25844 = true ∧ r.mem.le 0x20 4 = 25844 ∧
      parcelHead bs = true ∧ r.parcelSealed 0 bs = true ∧ r.parcelFits 0 bs = true ∧ (r.usable 0)[0]? = some 0 ∧
      leNat ((bs.drop 0x0C).take 4) / 2 ^ 16 % 2 ^ 11 = 1 ∧ parcelPart bs 2 = r.mem.bytes 23296 64 ∧ (r.poolsOf 0)[0]? = some 0 ∧
      parcelPart bs 6 = r.mem.bytes 24772 1040 ∧ leNat (r.mem.bytes 24772 2) = 9 ∧
      ((r.subsOf 0).find? fun i => r.reg Reg.DSP_SUB_ID i == 9) = some 4 ∧ r.bagOf 0 1 = true ∧ r.bagOf 0 2 = false :=
  ⟨onTurn_of (by decide +kernel), by decide +kernel, by decide +kernel, by dsimp only [restoring]; exact test_parcel_head.2, parcelSealed_of (by decide +kernel) (by decide) (by decide +kernel),
    parcelFits_of (parcelPart_bytes 2 23296 64 (by decide +kernel) (by decide)) (parcelPart_bytes 3 23360 4 (by decide +kernel) (by decide)) (by decide +kernel),
    by decide +kernel, by rw [word_of_bytes (by decide)] <;> decide +kernel, parcelPart_bytes 2 23296 64 (by decide +kernel) (by decide), by decide +kernel,
    parcelPart_bytes 6 24772 1040 (by decide +kernel) (by decide), by decide +kernel, by decide +kernel, by decide +kernel, by decide +kernel⟩

theorem leBytes_len (n v : Nat) : (leBytes n v).length = n := by simp [leBytes]
theorem flatMap_length {α : Type} (l : List α) (f : α → List Byte) (n : Nat) (h : ∀ x, (f x).length = n) : (l.flatMap f).length = n * l.length := by
  induction l with
  | nil => rfl
  | cons x l ih => rw [List.flatMap_cons, List.length_append, ih, h, List.length_cons, Nat.mul_succ, Nat.add_comm]
theorem funcImage_length (f : FuncImage) : f.bytes.length = 1152 := by
  rw [FuncImage.bytes, flatMap_length _ _ 4 fun _ => leBytes_len _ _, List.length_range]
/-- A parcel of a tenancy without arrays, pools, letterboxes and submitters. -/
theorem parcel_length (s : State) (t : Nat) (h : s.usable t = [] ∧ s.poolsOf t = [] ∧ s.subsOf t = [] ∧ s.reg Reg.TEN_LB_SIZE t = 0 ∧ s.acct t = {}) :
    (s.parcel t 0 0).length = 23392 := by
  obtain ⟨a, b, c, d, e⟩ := h
  simp only [State.parcel, State.parcelParts, a, b, c, d, e, Account.tag, List.length_append, leBytes_len, List.length_replicate, List.flatMap_nil,
    List.length_flatten, List.map_cons, List.map_nil, partTable, List.range_zero, List.length_nil,
    flatMap_length _ _ 1152 fun _ => funcImage_length _, flatMap_length _ _ 8 (leBytes_len 8)]
  rfl
/-- SAVE of a tenancy without arrays, with just room enough and with too little. -/
theorem witness_save :
    let c := fun (n : Nat) => cmd 0x0B [(320, n)]
    let s := fun (n : Nat) => withRegs (serving [c n]) ([(Reg.TEN_ARR_UNITS_LO, 0, 0, 0), (Reg.TEN_LB_SIZE, 0, 0, 0)] ++
      (List.range 16).map fun p => (Reg.CACHE_OWNER, p, 0, 1))
    (∀ n ∈ [23391, 23392], OnTurn (s n) 2 0x0B (c n) ∧ (s n).earlierDone (c n) = true ∧ ((s n).parcel 0 0 0).length = 23392) ∧
      (s 0).spanInWindow 0 0 23392 = true ∧ cmdBits (c 23392).bytes 0x28 31 0 = 23392 := by
  refine ⟨fun n hn => ⟨onTurn_of (by revert n; decide +kernel), by revert n; decide +kernel, parcel_length _ _ (by revert n; decide +kernel)⟩, by decide +kernel,
    by decide +kernel⟩
end Sys2Proof.Tests

namespace Sys2Proof.Tests
open Sys2Proof.Machine Sys2Proof.Claims

/-- A queue whose head is a command of submitter 9 with sequence number `n`, and the submitter's record. -/
def queued1 (n kind add : Nat) (r : SubRec) : State :=
  withRegs { serving [] with disp := { queues := [(2, { entries := [(bits [(0, kind), (48, add), (64, n), (112, 9)], 0)] })], subs := [(4, r)] } }
    [(Reg.DSP_SUB_EN, 4, 0, 1), (Reg.DSP_SUB_ID, 4, 0, 9)]
/-- A full window of which entry 7 is DONE. -/
def full : SubRec := { floor := 2, window := (List.range 64).map fun i => { seqno := i + 3, done := decide (i = 4), status := 0 } }
theorem witness_acceptance :
    (∀ s ∈ [queued1 0 0 0 {}, queued1 1 0x0D 0 {}, queued1 1 0x0E 0 {}, queued1 67 0 0 full, queued1 7 0 0 full, queued1 3 0 0 full],
      s.dispatching = true ∧ s.hold = false ∧ s.flag Reg.DSP_DISP_PAUSE = false ∧ s.nextQueue = some 2 ∧ s.submitterRec 9 = some 4 ∧
        s.reg Reg.DSP_SUB_TEN 4 = 0 ∧ s.submitterRec 8 = none) ∧
      (full.window.find? fun e => e.seqno == 7) = some { seqno := 7, done := true, status := 0 } ∧ (full.window.filter fun e => !e.done).length = 63 ∧
      (∀ e ∈ full.window, e.seqno ≠ 67) ∧ (serving []).lbxIn 0 9 = true ∧ (serving []).lbxIn 0 10 = false ∧
      (let w : SubRec := { window := (List.range 64).map fun i => { seqno := i + 3, done := false, status := 0 } }
       64 ≤ (w.window.filter fun e => !e.done).length ∧ ∀ e ∈ w.window, e.seqno ≠ 67) ∧ State.reset.dispatching = false := by decide +kernel

/-- A running command of queue 2 with tasks planned. -/
def planned (plans : List Plan) (snaps : List Snap) : Cmd := { cmd 1 [(192, 256), (224, 4096)] with phase := .running, plans := plans, tasks := 2, routine := 256, snaps := snaps }
/-- A task of it on array 3. -/
def task1 : Task := { cid := 1, ten := 0, queue := 2, index := 0, tasks := 2, routine := 256, version := 0, array := 3, argAddr := 0, argLen := 4097 }
theorem witness_dispatch :
    let c := planned [{ index := 1, array := 3, after := [0] }, { index := 0, array := 3 }] []
    let d := planned [{ index := 0, array := 3 }] [{ seq := 0, pool := 0, len := 0, wtop := 0, dlen := 0 }]
    let s := { serving [c] with disp := { cmds := [c], lib := [(256, { kind := 1, narrowOk := true })] } }
    s.dispatching = true ∧ s.cmd 1 = some c ∧ c.readyPlan = some { index := 0, array := 3 } ∧ s.freeEntry 0 = some 0 ∧
      (match s.takeSnaps 0 c.snaps with | .ok l => l.isEmpty | .error _ => false) = true ∧ s.placeOf c { index := 0, array := 3 } = some 3 ∧
      s.heldBehind c 3 = false ∧ 3 ∈ s.eligible 0 256 ∧ s.resets.ten ≠ some 0 ∧
      (let e := { planned [{ index := 0, array := 3 }] [] with cid := 0 }
       ({ s with disp := { s.disp with cmds := [e, c] } } : State).heldBehind c 3 = true) ∧
      (let k := { c with collective := true }
       ({ s with conds := [(3, { quarantined := true })] } : State).placeOf k { index := 0, array := 3 } = none ∧ s.tasksOf 1 = [] ∧ k.faulted = false) ∧
      (let w := withRegs (pooled [d]) [(Reg.CACHE_DESC_BASE_LO, 0, 0, 0x20000)]
       (match w.takeSnaps 0 d.snaps with | .ok _ => 0 | .error n => n) ≠ 0 ∧ w.tasksOf 1 = [] ∧ d.readyPlan = some { index := 0, array := 3 }) ∧
      (answered (.error ⟨0, 2, false⟩) ((pooled [d]).snapReads 0 d.snaps)).isSome = true := by decide +kernel
/-- Array 3 with the task placed on it, and with its second attempt to come. -/
theorem witness_task_start :
    let s := fun (A : ArrayState) (t : Task) => { serving [planned [] []] with arrs := [(3, A)], disp := { cmds := [planned [] []], tasks := [(1, some t)] } }
    (s { placed := [1] } task1).arrOn 3 = true ∧ (s { placed := [1] } task1).dispatching = true ∧ (s { placed := [1] } task1).extStop 3 = false ∧
      ([1].find? ((s { placed := [1] } task1).mayStart 3)) = some 1 ∧ (s { task := some 1 } { task1 with attempt := 2 }).task 1 = some { task1 with attempt := 2 } ∧
      (s { placed := [1] } task1).flag Reg.FAULT_INJ_ARM = false := by
  decide +kernel
/-- A task that has ended, alone and with another of its command to come; a write of it still out. -/
theorem witness_seal :
    let t := { task1 with state := 2, ended := true }
    let s := fun (plans : List Plan) => { serving [planned plans []] with
      arrs := [(3, { running with task := some 1 })], disp := { cmds := [planned plans []], tasks := [(1, some t)] } }
    (∀ p ∈ [[], [{ index := 1, array := 3 }]], (s p).dispatching = true ∧ (s p).task 1 = some t ∧ (s p).cmd 1 = some (planned p []) ∧ (s p).writesOut 3 = false ∧
      ((s p).arr 3).fail = none ∧ (s p).mport.staged = [] ∧ (∀ e ∈ (s p).arrs, e.2.loads = []) ∧ (s p).cache.fences = [] ∧ Tbl.wf ({} : Mailbag) (s p).disp.mbx = true ∧
      (∀ e ∈ (s p).tasksOf 1, e.1 = 1)) ∧
      ({ s [] with mport := { chans := [(0, { out := [(5, writing)] })] } } : State).writesOut 3 = true := by decide +kernel
/-- The same task with a contribution of its own, and as the last that a frame of pool 0 waits for. -/
theorem witness_seal_more :
    let t := { task1 with state := 2, ended := true }
    let p : List Plan := [{ index := 1, array := 3 }]
    let s := { pooled [planned p []] with arrs := [(3, { running with task := some 1 })], disp := { cmds := [planned p []], tasks := [(1, some t)] } }
    let f := { s with cache := { fences := [{ pool := 0, frame := 2, seq := 0, waits := [1] }] }, mem := Memory.put [] ((s.pool 0).fteAt 2 + 2) 6 }
    let m := { s with mport := { staged := [{ staged0 with rid := 1 }] } }
    m.dispatching = true ∧ m.task 1 = some t ∧ m.cmd 1 = some (planned p []) ∧ m.writesOut 3 = false ∧ (∃ x ∈ m.mport.staged, x.cid = t.cid) ∧ m.cache.fences = [] ∧
      (∀ x ∈ m.mport.staged, x.cid = t.cid → x.idx = t.index → x.rid = 1 ∧ x.spilled = false ∧ x.begun = false ∧ x.released = false) ∧
      f.writesOut 3 = false ∧ f.mport.staged = [] ∧ (planned p []).plans ≠ [] ∧ f.spanInWindow (f.pool 0).t ((f.pool 0).fteAt 2) 8 = true ∧
      (Fte.ofNat (f.mem.le ((f.pool 0).fteAt 2) 8)).fstate = 2 := by
  refine ⟨?_, ?_, ?_, ?_, ⟨_, List.mem_singleton.2 rfl, rfl⟩, rfl, ?_, ?_,
    rfl, ?_, ?_, by decide +kernel⟩ <;> decide +kernel
/-- The fourth failure of a class that counts, with arrays to go to and with none; a class that does not count; a task that waits behind. -/
theorem witness_moves :
    let t := { task1 with state := 3, failed := some 5, attempt := 4 }
    let k := { task1 with index := 1, state := 1 }
    let s := fun (l : List Nat) (u : Nat) => { withRegs (serving [planned [] []]) [(Reg.TEN_ARR_UNITS_LO, 0, 0, u)] with
      arrs := [(3, { task := some 1, abandon := some 0, placed := l })]
      disp := { cmds := [planned [] []], tasks := [(1, some t), (2, some k)], lib := [(256, { kind := 1, narrowOk := true })] } }
    (s [] 1).arrOn 3 = true ∧ (s [] 1).writesOut 3 = false ∧ (s [] 1).dispatching = true ∧ (planned [] []).faulted = false ∧ elsewhere (s [] 1) 3 t ≠ [] ∧
      elsewhere (s [] 0) 3 t = [] ∧ (s [2] 1).task 2 = some k ∧ elsewhere (s [2] 1) 3 k ≠ [] ∧ (s [] 1).cmd t.cid = some (planned [] []) ∧
      (∀ e ∈ (s [] 1).tasksOn 3, ∀ y, (s [] 1).cmd e.2.cid = some y → y.collective = false) ∧ ((s [] 1).arr 3).loads = [] ∧ t.jover = false ∧ t.moved = false := by
  refine ⟨by decide +kernel, ?_, ?_, ?_, by decide +kernel, ?_, ?_, ?_, by decide +kernel, ?_, rfl, rfl, rfl⟩ <;> decide +kernel
/-- The third failure, after which a replay follows. -/
theorem witness_replay :
    let t := { task1 with state := 3, failed := some 7, attempt := 3 }
    let s := { serving [planned [] []] with arrs := [(3, { task := some 1, abandon := some 0 })], disp := { cmds := [planned [] []], tasks := [(1, some t)] } }
    (s.arr 3).abandon = some 0 ∧ s.task 1 = some t ∧ s.cmd 1 = some (planned [] []) ∧ s.arrOn 3 = true ∧ s.writesOut 3 = false ∧ s.dispatching = true ∧
      (s.arr 3).flight = [] ∧ (s.faultPart 0).recs.length < 16 ∧ State.reset.arrOn 3 = false := by decide +kernel
/-- The cursor at a sealed task, and at one that has not sealed. -/
theorem witness_release :
    let c := { planned [] [] with ordered := true, sealedIdx := [0] }
    let d := { planned [] [] with ordered := true, sealedIdx := [1] }
    (serving [c]).releaseTurn 2 = some c ∧ (serving [c]).cmd 1 = some c ∧ (serving [c]).domOn domMPT = true ∧ c.cursor ∈ c.sealedIdx ∧ c.cursor + 1 < c.tasks ∧
      (serving [d]).releaseTurn 2 = some d ∧ d.cursor ∉ d.sealedIdx ∧ MayRelease (serving [c]) 2 c ∧
      Releasing { serving [c] with mport := { staged := [{ ten := 0, cid := 1, idx := 0, rid := 1, order := 0, addr := 64, data := [], ready := true, begun := true, spilled := false }] } } 2 := by
  refine ⟨?_, ?_, ?_, ?_, ?_, ?_, ?_,
    ⟨?_, ⟨[], [], ?_, fun x h => absurd h List.not_mem_nil⟩, ?_, ?_, ?_, ?_, ?_⟩,
    ⟨_, List.mem_singleton.2 rfl, rfl, rfl, _, rfl, ?_, ?_⟩⟩
  any_goals decide +kernel
  rintro ⟨x, h, _⟩
  exact absurd h List.not_mem_nil
/-- A task of a tenancy's routine that has executed END and finished. -/
theorem witness_finished :
    let t := { task1 with state := 2 }
    Finished { serving [] with arrs := [(3, { task := some 1, seq := { state := .ending } })], disp := { tasks := [(1, some t)] } } 3 1 t := by
  refine ⟨?_, rfl, rfl, ?_, rfl, ?_, rfl, ?_, nofun, nofun, nofun⟩ <;> decide +kernel
/-- A task of a vendor routine, QUANT, which needs no handle and stages nothing. -/
theorem witness_vendor_end :
    let t := { task1 with state := 2, routine := 8 }
    let c := { planned [] [] with routine := 8 }
    let s := { serving [c] with arrs := [(3, { running with task := some 1 })], disp := { cmds := [c], tasks := [(1, some t)] } }
    MayEnd s 3 1 t c ∧ (s.batchOf 3 t c).bagsOf t = [] ∧ ((s.batchOf 3 t c).effects s c t).adds = [] ∧ Tbl.wf ({} : Mailbag) s.disp.mbx = true := by
  refine ⟨⟨?_, rfl, rfl, ?_, rfl, ?_, rfl, ?_, unarmed_of ?_, portFree_of rfl _⟩, rfl, rfl, rfl⟩ <;> decide +kernel
/-- The same with a halt point that the array stands at, and with none; a forward task whose results merge with earlier ones, before and
after it has come to its epilogue's reads. -/
theorem witness_vendor_halt_and_merge :
    let A : ArrayState := { running with task := some 1, seq := { state := .running, routine := 8 }, modes := { haltEn := true, haltRoutine := 8, haltPc := 0 } }
    let t := { task1 with state := 2, routine := 0 }
    let c := { planned [] [] with routine := 0 }
    let s := fun (k : Task) => { serving [c] with
      arrs := [(3, { running with task := some 1, store := [(0xFF000, 0x42), (0xFF008, 1)] })], disp := { cmds := [c], tasks := [(1, some k)] } }
    A.meetsHalt = true ∧ ((s t).arr 3).meetsHalt = false ∧ t.prior = none ∧
      (∀ k ∈ [t, { t with prior := some [] }], ((s k).batchOf 3 k c).mergesIn c k.params = true ∧ ((s k).batchOf 3 k c).bagsOf k = []) ∧
      MayEnd (s t) 3 1 t c := by
  refine ⟨?_, ?_, rfl, ?_, ⟨?_, rfl, rfl, ?_, rfl, ?_, rfl, ?_, unarmed_of ?_, portFree_of rfl _⟩⟩ <;> decide +kernel
/-- A FREE engine at a handle's arrival, alone at a mailbag that holds one, and a move after it. -/
theorem witness_handle :
    let x : Engine := { armed 1 0x000000F4#32 with arm := { armed := true, free := true, image := [0x000000F4#32, 0, 0x00100191#32, 0] } }
    let s := { withRegs (synced fullBag []) [(Reg.TEN_EN, 0, 0, 1)] with arrs := [(3, { running with task := some 1, engines := [(0, x)] })] }
    s.arrOn 3 = true ∧ (s.engine 3 0).cur = .nextBase 7 1 ∧ s.tenEn (s.tenRunning 3) = true ∧ 1 < s.reg Reg.TEN_MB_SIZE (s.tenRunning 3) ∧
      (s.bag 1).takers = [] ∧ (s.bag 1).handles = (5, none) :: List.replicate 63 (5, none) ∧
      ({ x with pc := 1, sb := listUpd x.sb 7 fun _ => 5 } : Engine).cur =
        .move { src := 1, dst := 3, ssb := 0, dsb := 0, deliv := 0, half := 0, bytes := 64 } := by decide +kernel
/-- A task that reads page 1 of a snapshot, valid, and page 2, not valid. -/
theorem witness_walk :
    let x : Snap := { seq := 0, pool := 0, len := 48, wtop := 33, dlen := 0, pages := [(0, 3), (0, 4), (4, 0)] }
    let s := { serving [] with arrs := [(3, { running with task := some 1 })], disp := { tasks := [(1, some { task1 with snaps := [x] })] } }
    s.domOn domKVC = true ∧ (({ task1 with snaps := [x] } : Task).snaps.find? fun y => y.seq == 0) = some x ∧ (1 : Nat) < (x.wtop + 15) / 16 ∧ 2 < (x.wtop + 15) / 16 ∧
      lruFind s.cache.second 0 0 1 = none ∧ (s.cache.second.filter fun e => secondSet e == 0).length ≤ 8 ∧ (s.arr 3).task = some 1 := by decide +kernel
/-- A walk in flight whose reads are answered, and one of whose reads meets an error. -/
theorem witness_walk_in_flight :
    let x : Snap := { seq := 0, pool := 0, len := 48, wtop := 33, dlen := 0, pages := [(0, 3), (0, 4), (4, 0)] }
    let w : Walk := { arr := 3, rid := 1, ten := 0, snap := x, page := 1 }
    let s := { pooled [] with arrs := [(3, { running with task := some 1 })], disp := { tasks := [(1, some { task1 with snaps := [x], state := 2 })] }, cache := { walks := [w] } }
    s.domOn domKVC = true ∧ s.flag Reg.FAULT_INJ_ARM = false ∧ (s.cache.walks.find? fun v => v.arr == 3 && v.snap.seq == 0 && v.page == 1) = some w ∧
      answered .ok (s.walkReads x 1) = none ∧ (answered (.error ⟨0, 2, false⟩) (s.walkReads x 1)).isSome = true ∧ (s.arr 3).task = some w.rid ∧
      (s.arr 3).fail = none ∧ (s.arr 3).abandon = none ∧ 0 < max 1 (min (s.reg Reg.WALK_WALK_LIMIT) 64) := by decide +kernel
end Sys2Proof.Tests

namespace Sys2Proof.Tests
open Sys2Proof.Machine Sys2Proof.Claims

/-! ### The control port, the ring, power, monitors and resets -/

/-- Every domain ON; host agent 0, the postmaster, has FID 0, and agent 1 FID 7, bound to tenancy 0. -/
def hosted (l : List Cmd) : State :=
  withRegs (serving l) [(Reg.BLK_HOST_FID, 0, 1, 7), (Reg.BLK_VALID, 0, 1, 1), (Reg.TEN_HOST_MASK, 0, 0, 2)]
/-- The same with EXPERT on a page for both. -/
def expert (n : Nat) : State := { hosted [] with ctl := { expert := [n * 17, n * 17 + 1] } }
theorem pageOn_of {s : State} {n : Nat} (h : (match pageAt n with | some P => s.pageOn P | none => false) = true) : PageOn s n := by
  unfold PageOn
  cases e : pageAt n with
  | none => rw [e] at h; cases h
  | some P => rw [e] at h; exact ⟨P, rfl, h⟩

theorem witness_doorbell :
    let s := hosted []
    let e := withRegs s [(Reg.SUBQ_EN, 2, 0, 1)]
    let f := { e with disp := { queues := [(2, { entries := List.replicate 256 (0, 0) })] } }
    s.dispatching = true ∧ State.reset.dispatching = false ∧ ActsIn s 0 0 ∧ ActsIn s 7 0 ∧ ¬ ActsIn s 7 1 ∧ ¬ ActsIn s 9 0 ∧ s.flag Reg.SUBQ_EN 2 = false ∧
      e.flag Reg.SUBQ_EN 2 = true ∧ (e.queue 2).entries.length < 256 ∧ 256 ≤ (f.queue 2).entries.length ∧
      (0x15080#20).toNat / 4096 = 0x15 ∧ (0x15080#20).toNat % 64 = 0 ∧ (0x15080#20).toNat / 64 % 64 = 2 ∧ (0x15081#20).toNat % 64 ≠ 0 := by
  unfold ActsIn; decide +kernel
theorem witness_register_access :
    brokenBy 0 .narrow = some 1 ∧ brokenBy 2 .word = some 2 ∧ brokenBy 4 .word = none ∧ pageAt 0x32 = some ⟨.stamp, 0⟩ ∧
      State.reset.pageOn ⟨.stamp, 0⟩ = false ∧ (hosted []).pageOn ⟨.stamp, 0⟩ = true ∧ ((hosted []).actor 9).reaches = false ∧ ((hosted []).actor 7).reaches = true ∧
      IsPm (hosted []) 0 ∧ (∃ f ∈ monFields, f.acc = .rw ∧ f.scope = .block ∧ (0x2000 + f.off) % 4 = 0) ∧
      (∀ e ∈ PageKind.wordAt .stamp 0x100, shadowed e.1 = false) := by
  unfold IsPm; decide +kernel
theorem witness_control_port :
    let s := hosted []
    let m : EvtMsg := { kind := 1, fid := 0, payload := [0, 0, 0, 0] }
    let q := { s with ctl := { s.ctl with evq := [(1, { msgs := [m] })], credits := 1, outstanding := 1 } }
    s.pageOn ⟨.stamp, 0⟩ = true ∧ (s.actor 7).reaches = true ∧ IsPm s 0 ∧ ¬ IsPm s 7 ∧ s.mapped 1 = true ∧ s.reg Reg.BLK_HOST_FID 0 1 = 7 ∧ Tbl.wf ({} : ArrayState) s.arrs = true ∧
      (((List.range 16).map fun i => (q.ctl.rr + i) % 16).find? fun j => !(q.agentQ j).msgs.isEmpty) = some 1 ∧ (q.agentQ 1).msgs = [m] ∧ q.maySend 1 m = true ∧
      q.ctl.credits ≠ 0 ∧ q.ctl.outstanding ≠ 0 ∧ ({ s with ctl := { s.ctl with credits := 0 } } : State).ctl.credits = 0 := by
  unfold IsPm; decide +kernel
/-- Words for the postmaster with RW, W1C and W1S fields, and the event words of the postmaster and of a
bound host, where no OUT bit rises and where one does. -/
theorem witness_register_words :
    let s := hosted []
    let r := ((s.setCtx 2 16 { raw := 1 }).setCtx 0x18 0 { raw := 1 })
    PageOn s 2 ∧ PageOn s 0x18 ∧ plainWord s ⟨.mon, 0⟩ 0x120 ∧ plainWord s ⟨.rst, 0⟩ 0x118 ∧
      (∀ x ∈ [(PageKind.mon, 0x100, Access.rw), (.mon, 0x120, .w1c), (.rst, 0x118, .w1s)], ∃ e ∈ PageKind.wordAt x.1 x.2.1, e.1.acc = x.2.2) ∧
      s.hasExpert ⟨.mon, 0⟩ (s.actor 0) = false ∧
      (expert 2).hasExpert ⟨.mon, 0⟩ ((expert 2).actor 0) = true ∧ (s.actor 0).pm = true ∧ (s.actor 7).pm = false ∧ (s.actor 7).ten = some 0 ∧
      (s.actor 7).mayActIn 0 = true ∧ ({ s.ctx 2 16 with en := 1 } : EvtCtx).out &&& ~~~ (s.ctx 2 16).out = 0 ∧
      (∀ x ∈ [(2, 16), (0x18, 0)], ({ r.ctx x.1 x.2 with en := 1 } : EvtCtx).out &&& ~~~ (r.ctx x.1 x.2).out ≠ 0 ∧ (r.ctx x.1 x.2).route.toNat % 16 = 0 ∧
        (r.ctx x.1 x.2).route.getLsbD 4 = false ∧ (r.agentQ 0).msgs.length < 16) := by
  refine ⟨pageOn_of ?_, pageOn_of ?_, trivial, (by decide : (0x118 : Nat) ∉ [0x100, 0x104, 0x108]), ?_, ?_, ?_, ?_, ?_, ?_, ?_, ?_, by decide +kernel⟩ <;> decide +kernel
/-- Every page of the rows is ON, and none of them where every domain is OFF. -/
theorem witness_only_postmaster : ¬ IsPm (hosted []) 7 ∧
    (∀ x ∈ pmRows 7 0 0 0 0, PageOn (hosted []) x.2) ∧ ∀ n ∈ [pgDSP, pgFAULT, pgRING 0], ¬ PageOn State.reset n := by
  have off : ∀ n ∈ [pgDSP, pgFAULT, pgRING 0], (match pageAt n with | some P => State.reset.pageOn P | none => false) = false := by decide +kernel
  refine ⟨by unfold IsPm; decide +kernel, fun x hx => pageOn_of (by revert x; decide +kernel), fun n hn => ?_⟩
  rintro ⟨P, h, k⟩
  have e := off n hn
  rw [h] at e
  exact absurd (e.symm.trans k) (by decide)
/-- A pool whose initialisation is under way, its structures apart and in the windows. -/
theorem witness_init :
    let s := withRegs (pooled []) [(Reg.CACHE_EN, 0, 0, 0), (Reg.CACHE_INIT_BUSY, 0, 0, 1), (Reg.CACHE_SEQ_COUNT, 0, 0, 16)]
    let x := s.pool 0
    IsPm s 0 ∧ s.domOn domKVC = true ∧ s.flag Reg.CACHE_INIT_BUSY 0 = true ∧ x.frames = 8 ∧ x.nodes = 4 ∧ x.stop - x.first = 16 ∧
      s.spanInWindow x.t x.ft 64 = true ∧ s.spanInWindow x.t x.desc 1024 = true ∧ s.spanInWindow x.t x.node 16384 = true ∧
      apart x.ft 64 x.desc 1024 ∧ apart x.ft 64 x.node 16384 ∧ apart x.desc 1024 x.node 16384 ∧ PortFree s unitWho := by
  refine ⟨by unfold IsPm; decide +kernel, ?_, ?_, ?_, ?_, ?_, ?_, ?_, ?_, by unfold apart; decide +kernel,
    by unfold apart; decide +kernel, by unfold apart; decide +kernel, portFree_of rfl _⟩ <;> decide +kernel
theorem witness_messages :
    PageOn (hosted []) 0x18 ∧ ActsIn (hosted []) 7 0 ∧ PageOn (expert 0x14) 0x14 ∧ IsPm (expert 0x14) 0 ∧ Expert (expert 0x14) 0 0x14 ∧ (expert 0x14).dispatching = true ∧
      (expert 0x14).hold = false ∧ ((expert 0x14).actor 7).ten = some 0 ∧ (hosted []).reg Reg.TEN_LB_SIZE 0 = 10 ∧ fullBag.handles.length = 64 := by
  refine ⟨pageOn_of ?_, by unfold ActsIn; decide +kernel, pageOn_of ?_, by unfold IsPm; decide +kernel,
    by unfold Expert; decide +kernel, ?_, ?_, ?_, ?_, by decide +kernel⟩ <;> decide +kernel
theorem witness_arrays_and_logs :
    (∀ n ∈ [pgPROG 0, pgTIME 0, pgFAULT, pgDLOG], PageOn (expert n) n ∧ Expert (expert n) 0 n ∧ Expert (expert n) 7 n) ∧ ActsOn (hosted []) 0 0 ∧
      ActsOn (hosted []) 7 15 ∧ ((hosted []).actor 7).reaches = true ∧ (hosted []).arrs = [] ∧ ActsIn (hosted []) 7 0 :=
  ⟨fun n hn => ⟨pageOn_of (by revert n; decide +kernel), by unfold Expert; revert n; decide +kernel, by unfold Expert; revert n; decide +kernel⟩,
    by unfold ActsOn; decide +kernel, by unfold ActsOn; decide +kernel, by decide +kernel, by decide +kernel, by unfold ActsIn; decide +kernel⟩
/-- A full partition with two entries that wait in the buffer of array 3. -/
theorem witness_dead_letters_wait :
    let e : DeadLetter := { cause := 1, slot := 0, ten := 0, arr := 3, attempt := 1, pc := 0, routine := 256, beat := 0, receipt := 1, word := 0 }
    let s := { hosted [] with arrs := [(3, { dead := [e, e] })], letters := [(0, { recs := List.replicate 64 e })] }
    (s.deadPart 0).recs.length = 64 ∧ Tbl.wf ({} : ArrayState) s.arrs = true ∧ (s.arr 3).dead = e :: [e] ∧ (∀ x ∈ s.arrs, x.2.dead ≠ [] → x.1 = 3) ∧ e.ten = 0 ∧
      ActsIn s 0 0 ∧ chosen s 0 0 Reg.DLOG_DL_SEL = 0 := by unfold ActsIn chosen; decide +kernel
/-- Tenancy 1 not yet enabled, with units free and taken; a pool that clashes and one that does not. -/
theorem witness_configuration :
    let s := withRegs (expert pgWALK) [(Reg.TEN_ARR_UNITS_LO, 1, 0, 2)]
    IsPm s 0 ∧ PageOn s 5 ∧ s.tenEn 1 = false ∧ Nat.land (s.units 1) (s.units 0) = 0 ∧ s.units 1 ≠ 0 ∧ PageOn s 0x28 ∧ PageOn s pgWALK ∧ Expert s 0 pgWALK ∧
      Nat.land ((withRegs s [(Reg.TEN_ARR_UNITS_LO, 1, 0, 1)]).units 1) (s.units 0) ≠ 0 ∧ s.reg Reg.TEN_LB_SIZE 1 = 0 ∧
      s.flag Reg.CACHE_EN 0 = false ∧ (withRegs s [(Reg.CACHE_EN, 1, 0, 1)]).flag Reg.CACHE_EN 1 = true ∧ (s.pool 0).first < (s.pool 1).stop ∧
      s.domOn domKVC = true ∧ (withRegs s [(Reg.CACHE_INIT_BUSY, 3, 0, 1)]).flag Reg.CACHE_INIT_BUSY 3 = true ∧ Tbl.wf ({} : ArrayState) s.arrs = true := by
  refine ⟨by unfold IsPm; decide +kernel, pageOn_of ?_, ?_, ?_, ?_, pageOn_of ?_,
    pageOn_of ?_, by unfold Expert; decide +kernel, ?_, ?_, ?_, ?_, ?_,
    ?_, ?_, by decide +kernel⟩ <;> decide +kernel

/-- A control flit with its CRC. -/
def flit (type : BitVec 4) (seq : BitVec 12) (ringId : BitVec 16) (rtt : Nat) : CtlFlit :=
  let f : CtlFlit := { type := type, seq := seq, credits := List.replicate 16 0, more := List.replicate 40 0, ringId := ringId, ringPos := 3, rtt := rtt, crc := 0 }
  { f with crc := crc32c (flitBytes f) }
theorem witness_link :
    let s := fun (P : Port) => { expert 0x2B with ring := [(0, P)] }
    (s {}).domOn domRNA = true ∧ (s {}).resets.block = false ∧ IsPm (s {}) 0 ∧ Expert (s {}) 0 0x2B ∧ ((s { link := .training, attempts := 2 }).port 0).attempts + 1 = 3 ∧
      (∀ f ∈ [flit 6 0 0 16384, flit 6 0 0 16385, flit 6 0 1 0], crc32c (flitBytes f) = f.crc ∧ NoCredits f) ∧
      (∀ l ∈ [LinkState.up, .retrain, .failed], ((s { link := l }).port 0).link = l) ∧ (s {}).reg Reg.RING_RING_ID 0 = 0 ∧
      max ((s {}).reg Reg.RING_NAK_LIMIT 0) 1 ≤ ((s { link := .up, naks := 255 }).port 0).naks ∧
      ((s { link := .up }).port 0).naks < max ((s {}).reg Reg.RING_NAK_LIMIT 0) 1 := by
  unfold IsPm Expert NoCredits; decide +kernel
/-- Channel 0 of port 0, sending, and its receive channel 16. -/
def channel (l : List (FieldSpec × Nat × Nat × Nat)) (P : Port) : State := { withRegs (hosted []) l with ring := [(0, P)] }
theorem witness_channels :
    let mine := fun (s : State) (fid : Fid) => ∃ t, (s.actor fid.toNat).ten = some t ∧ s.reg Reg.RING_CH_TEN (instance_ 0 0 false) = t
    PageOn (channel [] {}) 0x2B ∧ mine (channel [] {}) 7 ∧ ¬ IsPm (channel [] {}) 7 ∧ IsPm (channel [] {}) 0 ∧ ¬ mine (channel [] {}) 0 ∧
      (channel [] {}).flag Reg.RING_CH_EN 0 = false ∧ (channel [(Reg.RING_CH_EN, 0, 0, 1)] {}).flag Reg.RING_CH_EN 0 = true ∧
      25 < (channel [(Reg.RING_RES_SLOTS, 0, 0, 26)] {}).reg Reg.RING_RES_SLOTS 0 ∧ (channel [] {}).channelFits 25 = true ∧
      chosen (channel [(Reg.RING_CH_SEL, 1, 0, 16)] {}) 7 0 Reg.RING_CH_SEL = 16 ∧ mine (channel [(Reg.RING_CH_EN, 0, 0, 1)] {}) 7 := by
  refine ⟨pageOn_of ?_, ⟨0, ?_, ?_⟩, by unfold IsPm; decide +kernel, by unfold IsPm; decide +kernel, ?_,
    ?_, ?_, ?_, ?_, by unfold chosen; decide +kernel, ⟨0, ?_, ?_⟩⟩
  all_goals decide +kernel

/-- A channel that may send: enabled, with a credit, a handle 64 in its mailbag and a descriptor of 64 bytes there. -/
def sender : State :=
  { channel [(Reg.RING_CH_EN, 0, 0, 1), (Reg.RING_RES_SLOTS, 0, 0, 1)] { link := .up, send := [(0, { credits := 1 })] } with
    disp := { mbx := [(0, { handles := [(64, none)] })] }, shared := [(68, 64)] }
theorem witness_send :
    sender.flag Reg.RING_GATED 0 = true ∧ (withRegs sender [(Reg.RING_GATED, 0, 0, 0)]).flag Reg.RING_GATED 0 = false ∧
      (({ sender with disp := { mbx := [(0, { handles := [(64, some 1)] })] } } : State).bag 0).handles = [(64, some 1)] ∧ sender.linkUp 0 = true ∧ (hosted []).linkUp 0 = false ∧ sender.chanBag 0 0 false = some 0 ∧ sender.chanLbx 0 0 false = some 0 ∧ (sender.bag 0).takers = [] ∧
      (∀ j, j < 64 → sender.inShared 0 ((64 + j) % 2 ^ 28) = true) ∧
      leNat ((List.range 64).map fun j => sender.shared.byte ((64 + j) % 2 ^ 28)) = 64 * 2 ^ 32 ∧
      (let m : SendMsg := { ch := 0, msgId := 0, payload := 0, len := 64, user := 0, hops := 0, srcPos := 0 }
       ({ sender with ring := [(0, { link := .up, msgs := [m], send := [(0, { credits := 1 })] })] } : State).sendable 0 0 = 1) := by decide +kernel

/-- A gated channel with a handle of a task that ended without a seal before one of a task that runs, and between packets of a message. -/
theorem witness_send_gated :
    let g := { sender with disp := { mbx := [(0, { handles := [(64, some unsealedMark), (128, some 1)] })] } }
    let m : SendMsg := { ch := 0, msgId := 0, payload := 0, len := 4160, user := 0, hops := 0, srcPos := 0, next := 1 }
    g.flag Reg.RING_CH_EN 0 = true ∧ (g.port 0).msgs = [] ∧ g.chanBag 0 0 false = some 0 ∧ (g.bag 0).takers = [] ∧
      ((g.bag 0).handles.filter fun e => decide (e.2 ≠ some unsealedMark)) = [(128, some 1)] ∧
      ({ sender with ring := [(0, { link := .up, msgs := [m], send := [(0, { credits := 1 })] })] } : State).sendable 0 0 = 1 ∧ m.next + 1 < pktCount m.len := by decide +kernel

/-- A data packet of 64 bytes, but for its CRC. -/
def packet (seq : BitVec 12) (tag : BitVec 16) : Packet :=
  { type := 1, seq := seq, cls := false, chan := 0, first := true, last := true, tag := tag, msgId := 1, pktIdx := 0, nfl := 0, srcPos := 0, user := 0
    msgLen := 64, hops := 0, payload := List.replicate 64 1, ackSeq := 0, ackV := false, crc := 0 }
theorem packetBytes_crc (m : Packet) (c : BitVec 32) : packetBytes { m with crc := c } = packetBytes m := rfl
/-- A packet with a good CRC: the expected number, one after it, the last ahead, the first behind or a foreign tag; and one with a bad CRC.
-/
theorem witness_packet_crc (seq : BitVec 12) (tag : BitVec 16) :
    (let m := { packet seq tag with crc := crc32c (packetBytes (packet seq tag)) }
     crc32c (packetBytes m) = m.crc) ∧
      (let m := { packet seq tag with crc := crc32c (packetBytes (packet seq tag)) + 1 }
       ¬ crc32c (packetBytes m) = m.crc) := by
  refine ⟨congrArg crc32c (packetBytes_crc (packet seq tag) _), ?_⟩
  dsimp only
  rw [packetBytes_crc]
  intro h
  have k : ∀ x : BitVec 32, x ≠ x + 1 := fun x => by bv_omega
  exact k _ h
/-- A port that is up with the receive channel 0 enabled or not, and the messages its tenancy has consumed. -/
def receiver (en cred : Nat) (r : RecvChan) (retry : List HeldPkt) : State :=
  channel [(Reg.RING_CH_EN, 16, 0, en), (Reg.RING_CRED, 16, 0, cred), (Reg.RING_NBUF, 16, 0, 1), (Reg.RING_HDR_BASE, 16, 0, 0x1000)]
    { link := .up, recv := [(0, r)], retry := retry, txTotal := 4096 }
theorem witness_receive :
    let h : HeldPkt := { pkt := { packet 4095 0 with last := false }, ch := 0 }
    let s := receiver 1 1 { k := 1 } [h]
    s.linkUp 0 = true ∧ s.flag Reg.RING_CH_EN 16 = true ∧ (receiver 0 1 {} []).flag Reg.RING_CH_EN 16 = false ∧
      (s.recvChan 0 0).used + (s.recvChan 0 0).owed < s.reg Reg.RING_CRED 16 ∧ s.mayLand 0 0 = false ∧ (s.recvChan 0 0).stash = [] ∧ (s.port 0).txTotal ≥ 4096 ∧
      (∀ f ∈ [flit 2 4095 0 0, flit 3 4095 0 0, flit 4 0 0 0], crc32c (flitBytes f) = f.crc ∧ ∀ b ∈ f.credits, b = 0) ∧ (s.port 0).retry = [h] ∧
      h.pkt.seq = (flit 2 4095 0 0).seq := by decide +kernel
/-- A middle packet behind its first one, which waits; the acknowledgement of a message's last packet. -/
theorem witness_receive_more :
    let m := { packet 1 0 with first := false, pktIdx := 1 }
    let h : HeldPkt := { pkt := packet 4095 0, ch := 0, no := 5 }
    let x : SendMsg := { ch := 0, msgId := 0, payload := 0, len := 64, user := 0, hops := 0, srcPos := 0, next := 1, no := 5 }
    let s := receiver 1 3 { stash := [{ packet 0 0 with last := false }], used := 1, k := 1 } []
    let t := { receiver 1 1 {} [] with ring := [(0, { link := .up, retry := [h], msgs := [x], txTotal := 4096 })] }
    s.mayLand 0 0 = false ∧ (s.recvChan 0 0).used + (s.recvChan 0 0).owed < s.reg Reg.RING_CRED 16 ∧
      (∀ y ∈ ((s.recvChan 0 0).stash ++ [m]).head?, y.first = true ∧ y.type ≠ 0) ∧
      ((t.port 0).msgs.find? fun y => decide (y.no = h.no)) = some x ∧ h.pkt.last = true ∧ t.chanLbx 0 0 false = some 0 ∧ (t.recvChan 0 0).stash = [] ∧
      (t.lb 0).toNat + 1 < 2 ^ 32 := by decide +kernel
/-- The first, a middle and the last packet of a message of 4,160 bytes, and a packet of a message that is discarded. -/
theorem witness_landing_more :
    let m := fun (i : Nat) => { packet 0 0 with
      msgLen := 4160, pktIdx := BitVec.ofNat 9 i, first := decide (i = 0), last := decide (i = 2), nfl := if i = 2 then 0 else 31, payload := List.replicate (if i = 2 then 64 else 2048) 1 }
    let r := fun (i : Nat) => ({ begun := decide (i ≠ 0), nextPkt := i, msgId := 1, msgLen := 4160, stash := [m i], used := 1 } : RecvChan)
    (∀ i ∈ [0, 1, 2], (r i).consistent (m i) = true ∧ (r i).tail (m i) = false ∧ (r i).isOld 1 = false ∧ (receiver 1 1 (r i) []).mayLand 0 0 = true ∧
        ((receiver 1 1 (r i) []).recvChan 0 0).stash = [m i] ∧ 4160 ≤ (receiver 1 1 (r i) []).bufSize 0 0 * 2) ∧
      ({ r 1 with discard := true } : RecvChan).tail (m 1) = true := by decide +kernel
/-- A message that lands in its buffer at 0, its header at 0x1000. -/
theorem witness_landing :
    let s := receiver 1 1 { stash := [packet 0 0], used := 1 } []
    s.domOn domRNA = true ∧ s.resets.block = false ∧ (s.recvChan 0 0).stash = [packet 0 0] ∧ s.mayLand 0 0 = true ∧ (s.recvChan 0 0).tail (packet 0 0) = false ∧
      (s.recvChan 0 0).consistent (packet 0 0) = true ∧ (s.recvChan 0 0).isOld 1 = false ∧ 64 ≤ s.bufSize 0 0 ∧ s.chanBag 0 0 true = some 0 ∧
      (s.recvChan 0 0).kept = 0 ∧ (∀ x, x < 64 → s.otherBuffer 0 0 x = false) ∧ (packet 0 0).msgId.toNat ∉ (s.recvChan 0 0).lost ∧
      (receiver 1 1 { stash := [{ packet 0 0 with msgLen := 0x10040 }], used := 1 } []).bufSize 0 0 < 0x10040 ∧
      s.chanLbx 0 0 true = some 0 ∧ s.bufAddr 0 0 0 = 0 ∧ s.hdrAddr 0 0 0 = 0x1000 ∧
      (∀ x, x < 64 → s.inShared 0 x = true ∧ s.inShared 0 (0x1000 + x) = true ∧ s.inShared 0 ((0x1000 + x) / 64 * 64) = true) ∧
      (receiver 1 1 { stash := [packet 0 0], k := 1 } []).mayLand 0 0 = false := by decide +kernel

/-- Requests of Table 16.3 that are refused, one for each reason, and one that is not. -/
theorem witness_power :
    RefusedFor State.reset 23 2 4 ∧ RefusedFor State.reset 0 0 3 ∧ RefusedFor State.reset 0 1 2 ∧ RefusedFor (hosted []) 20 2 1 ∧
      (∀ why, ¬ RefusedFor State.reset 18 0 why) ∧ IsPm State.reset 0 ∧ chosen State.reset 0 1 Reg.PWR_DOM_SEL = 0 ∧
      (∀ y ∈ [{ state := .poweringUp, acked := true }, { state := .poweringUp, from_ := .retain }, { state := .poweringDown, req := 1 }, ({} : Domain)],
        ({ State.reset with doms := [(5, y)] } : State).dom 5 = y) ∧ (serving [cmd 0 []]).domWorks 18 = true ∧ (serving []).domWorks 18 = false ∧
      Tbl.wf ({} : ArrayState) State.reset.arrs = true ∧ State.reset.faults = [] ∧ State.reset.letters = [] := by
  refine ⟨?_, ?_, ?_, ?_, ?_, by unfold IsPm; decide +kernel, by unfold chosen; decide +kernel, ?_, ?_, ?_, ?_, rfl, rfl⟩
  any_goals decide +kernel
  · exact ⟨by decide, rfl⟩
  · exact ⟨rfl, 18, by decide, by decide +kernel⟩
  · unfold RefusedFor
    rw [if_neg (by decide), if_neg (by decide), if_pos ⟨rfl, by decide +kernel, by decide +kernel⟩]
  · unfold RefusedFor
    rw [if_neg (by decide), if_neg (by decide), if_neg (by decide)]
    exact ⟨rfl, .inr (.inr (.inr (.inr (.inl ⟨rfl, .inl ⟨0, by decide, by decide +kernel⟩⟩))))⟩
  · intro why h
    unfold RefusedFor at h
    rw [if_neg (by decide), if_pos rfl] at h
    obtain ⟨_, n, hn, _⟩ := h
    exact absurd hn (by rw [show prerequisites 18 = [] by decide]; exact List.not_mem_nil)
end Sys2Proof.Tests

namespace Sys2Proof.Tests
open Sys2Proof.Machine Sys2Proof.Claims

theorem test_wf_packet : (Instr.dataPacket 0 { packet 0 0 with payload := List.replicate 2049 0 }).wf = false ∧ (Instr.dataPacket 0 (packet 0 0)).wf = true := by
  decide +kernel

/-- A sensor above TJ_THROTTLE, all well below it, and one at the border; a rail out of window for 9 and for 10 µs; a VIN that has
recovered. -/
theorem witness_monitors :
    let s := fun (t : BitVec 16) (bad : Nat) (good : Nat) =>
      ({ State.reset with mon := { thermal := List.replicate 64 t, vinBad := bad, vmonBad := [(11, bad)], brownout := true, vinGood := good } } : State)
    let thr := quarters (State.reset.reg Reg.MON_TJ_THROTTLE)
    thr < ((s 0x7FFF 9 0).mon.thermal.getD 3 0).toInt ∧ ((s 0 9 0).mon.thermal.getD 3 0).toInt < thr - 8 ∧
      ((s (BitVec.ofInt 16 thr) 9 0).mon.thermal.getD 3 0).toInt = thr ∧ 10 ≤ Tbl.get 0 (s 0 10 0).mon.vmonBad (2 * 5 + 1) ∧ Tbl.get 0 (s 0 9 0).mon.vmonBad (2 * 5 + 1) < 10 ∧
      3 ≤ (s 0 3 0).mon.vinBad ∧ (s 0 2 0).mon.vinBad < 3 ∧
      (s 0 0 99999).mon.brownout = true ∧ State.reset.reg Reg.MON_HOLD_DWELL ≤ 10 * ((s 0 0 99999).mon.vinGood - 1) ∧ IsPm State.reset 0 := by
  unfold IsPm; decide +kernel
/-- The rails ON with an override, in hold, and with a fast line; a cap window that is over, above, well below and between. -/
theorem witness_governor :
    let s := fun (n m : Nat) => ({ State.reset with doms := on, mon := { paceArr := List.replicate 128 1301, capCount := n, capSum := m } } : State)
    let cap := max 300 (min (State.reset.reg Reg.PWR_POWER_CAP) 1800)
    let w := max (State.reset.reg Reg.PWR_CAP_WINDOW) 1
    (s 0 0).domOn 5 = true ∧ (s 0 0).flag Reg.PWR_V_OVR_EN 5 = false ∧ (withRegs (s 0 0) [(Reg.PWR_V_OVR_EN, 5, 0, 1)]).flag Reg.PWR_V_OVR_EN 5 = true ∧
      (s 0 0).hold = false ∧ (withRegs (s 0 0) [(Reg.PWR_HOLD_REQ, 0, 0, 1)]).hold = true ∧ 1300 < ((s 0 0).mon.paceArr.getD 40 0).toNat ∧
      w ≤ (s w (10 * cap * w + 1)).mon.capCount ∧ 10 * cap * w < (s w (10 * cap * w + 1)).mon.capSum ∧ 100 * (s w 0).mon.capSum < 95 * (10 * cap * w) ∧
      (s (w - 1) 0).mon.capCount < w := by decide +kernel

theorem witness_cold_and_block :
    let s := { hosted [] with resets := { block := true } }
    State.reset.resets.block = false ∧ s.resets.block = true ∧ (∀ t < 16, ¬ WritesLeft s t) ∧ WritesLeft port 0 ∧ IsPm (hosted []) 0 ∧
      Tbl.wf ({} : ArrCond) s.conds = true := by
  refine ⟨rfl, rfl, fun t ht => ?_, .inl (by decide +kernel), by unfold IsPm; decide +kernel, rfl⟩
  unfold WritesLeft
  rintro (h | ⟨c, h, _⟩)
  · exact absurd h (by revert t; decide +kernel)
  · exact absurd h (by show ¬ c ∈ []; exact List.not_mem_nil)
/-- Arrays of an enabled tenancy and of none, quarantined and dead by soft bypass; a tenancy with nothing left. -/
theorem witness_tenancy_and_array :
    let s := hosted []
    let r := { s with conds := [(3, { quarantined := true, rejoin := true })], resets := { ten := some 0 } }
    IsPm s 0 ∧ ¬ ResetRuns s ∧ ResetRuns r ∧ MayReset s 16 ∧ ¬ MayReset s 15 ∧ MayReset r 3 ∧ ¬ WritesLeft r 0 ∧ r.resets.ten = some 0 ∧
      (r.cond 3).rejoin = true ∧ r.dispatching = true ∧ r.tenOfArr 3 = some 0 ∧ r.disp.tasks = [] ∧ r.usable 0 ≠ [] ∧ Tbl.wf ({} : ArrayState) s.arrs = true := by
  refine ⟨by unfold IsPm; decide +kernel, by unfold ResetRuns; decide +kernel, by unfold ResetRuns; decide +kernel, ?_, ?_, ?_, ?_, rfl, ?_, ?_,
    ?_, rfl, ?_, rfl⟩
  any_goals decide +kernel
  · exact ⟨by decide +kernel, .inr (.inr (by decide +kernel))⟩
  · rintro ⟨_, h | h | h⟩
    · exact absurd h (by decide +kernel)
    · exact absurd h.1 (by decide +kernel)
    · exact absurd (h 0 (by decide) (by decide +kernel)) (by decide +kernel)
  · exact ⟨by decide +kernel, .inl (by decide +kernel)⟩
  · unfold WritesLeft
    rintro (h | ⟨c, h, _⟩)
    · exact absurd h (by decide +kernel)
    · exact absurd h (by show ¬ c ∈ []; exact List.not_mem_nil)
theorem witness_debug : State.reset.domOn 22 = false ∧ State.reset.domOn 23 = true ∧ State.reset.flag Reg.RST_DBG_LOCK = false ∧
    (withRegs State.reset [(Reg.RST_DBG_LOCK, 0, 0, 1)]).flag Reg.RST_DBG_LOCK = true ∧ (7 : Arr).toNat / 64 ∈ ({ State.reset with segment := { halts := [0] } } : State).segment.halts := by
  decide +kernel
/-- The invariant holds where stores list bytes, and not where one is listed out of order. -/
theorem witness_canonical : Canonical (pooled []) ∧ Canonical sender ∧ ¬ Canonical { State.reset with mem := [(4, 1), (0, 1)] } := by
  refine ⟨⟨?_, ?_, by intro e he; cases he⟩, ⟨?_, ?_, by intro e he; cases he⟩, fun h => absurd h.mem ?_⟩ <;> decide +kernel
/-- Full queues, windows and credits are within the bounds, and one more is not. -/
theorem witness_bounded :
    let s := fun (n : Nat) => ({ State.reset with
      disp := { queues := [(2, { entries := List.replicate n (0, 0) })], subs := [(4, full)] }
      ring := [(0, { send := [(0, { credits := 2047 })] })]
      mport := { chans := [(0, { credits := 1, grant := 1 })] } } : State)
    Bounded (s 256) ∧ ¬ Bounded (s 257) := by
  refine ⟨⟨?_, ?_, ?_, ?_⟩, fun h => absurd (h.queues _ (List.mem_singleton.2 rfl)) (by rw [List.length_replicate]; decide)⟩
  · intro e he
    rw [List.mem_singleton.1 he]
    exact Nat.le_of_eq List.length_replicate
  · intro e he
    rw [List.mem_singleton.1 he]
    decide +kernel
  · intro e he x hx
    rw [List.mem_singleton.1 he] at hx
    rw [List.mem_singleton.1 hx] <;> decide
  · intro e he
    rw [List.mem_singleton.1 he] <;> decide
/-- A time base that is valid, and one that is not; a queue with nothing waiting. -/
theorem witness_step : State.reset.pending = [] ∧ ({ State.reset with tb := { valid := true } } : State).tb.valid = true ∧ ({ State.reset with tb := { valid := false } } : State).tb.valid = false :=
  ⟨rfl, rfl, rfl⟩
theorem witness_slot_word : ∃ k w, slotWord (.mma 3 always { grp := 7, m16 := true, mhi := true, n16 := true, nhi := true }) = some (k, w) := ⟨_, _, rfl⟩
end Sys2Proof.Tests
end

section
namespace Sys2Proof.Machine

/-- Every command but COLD_RESET keeps what `Keeps` speaks of: the table of `exec` with the law of each command's meaning. -/
theorem OutKeeps.exec (s : State) :
    ∀ i : Instr, (∀ c f, i ≠ .coldReset c f) → OutKeeps s (exec i s)
  | .doorbell fid addr cmd, _ => .execDoorbell fid addr cmd
  | .registerWrite fid addr form v, _ => .execRegisterWrite fid addr form v
  | .loWordRead fid addr form, _ => .execLoWordRead fid addr form
  | .expertUnlock fid page v, _ => .execExpertUnlock fid page v
  | .eventSend, _ => .execEventSend
  | .eventAck, _ => .execEventAck
  | .hostFidWrite fid n v, _ => .execHostFidWrite fid n v
  | .pmXfer fid v, _ => .execPmXfer fid v
  | .nop q, _ => .execNop q
  | .run q ans, _ => .execRun q ans
  | .append q ans, _ => .execAppend q ans
  | .fork q ans, _ => .execFork q ans
  | .commit q ans, _ => .execCommit q ans
  | .free q ans, _ => .execFree q ans
  | .loadProgram q ans, _ => .execLoadProgram q ans
  | .tableLoad q ans, _ => .execTableLoad q ans
  | .streamArm q ans, _ => .execStreamArm q ans
  | .readdress q, _ => .execReaddress q
  | .collect q, _ => .execCollect q
  | .save q ans, _ => .execSave q ans
  | .restore q ans, _ => .execRestore q ans
  | .meterRead q, _ => .execMeterRead q
  | .commandAccept, _ => .execCommandAccept
  | .taskDispatch q ans, _ => .execTaskDispatch q ans
  | .taskStart a ans, _ => .execTaskStart a ans
  | .beat a, _ => .execBeat a
  | .frozenBeatComplete a, _ => .execFrozenBeatComplete a
  | .freezeLong a, _ => .execFreezeLong a
  | .wait a n, _ => .execWait a n
  | .feederRead a p sideB desc kstep, _ => .execFeederRead a p sideB desc kstep
  | .feederDeliver a, _ => .execFeederDeliver a
  | .mma a p f, _ => .execMma a p f
  | .mmaLand a, _ => .execMmaLand a
  | .dot a p f, _ => .execDot a p f
  | .axpy a p f, _ => .execAxpy a p f
  | .mvLand a close, _ => .execMvLand a close
  | .swap a p grp dest, _ => .execSwap a p grp dest
  | .swapLand a, _ => .execSwapLand a
  | .drainRow a, _ => .execDrainRow a
  | .rowscale a p grp vreg, _ => .execRowscale a p grp vreg
  | .rowscaleLand a, _ => .execRowscaleLand a
  | .gload a p grp src, _ => .execGload a p grp src
  | .gloadComplete a, _ => .execGloadComplete a
  | .specialFunctionIssue a p f, _ => .execSpecialFunctionIssue a p f
  | .evalResult a, _ => .execEvalResult a
  | .operationLands a, _ => .execOperationLands a
  | .fadd a p f, _ => .execFadd a p f
  | .fsub a p f, _ => .execFsub a p f
  | .fmul a p f, _ => .execFmul a p f
  | .fma a p f, _ => .execFma a p f
  | .fnma a p f, _ => .execFnma a p f
  | .fdiv a p f, _ => .execFdiv a p f
  | .fmax a p f, _ => .execFmax a p f
  | .fmin a p f, _ => .execFmin a p f
  | .fclt a p f, _ => .execFclt a p f
  | .fsel a p f, _ => .execFsel a p f
  | .cvt a p f, _ => .execCvt a p f
  | .iand a p f, _ => .execIand a p f
  | .ior a p f, _ => .execIor a p f
  | .iadd a p f, _ => .execIadd a p f
  | .iclt a p f, _ => .execIclt a p f
  | .vld a p vd desc, _ => .execVld a p vd desc
  | .vst a p vs desc, _ => .execVst a p vs desc
  | .xsum a p f, _ => .execXsum a p f
  | .bcast a p f, _ => .execBcast a p f
  | .extr a p f, _ => .execExtr a p f
  | .rsumrd a p f, _ => .execRsumrd a p f
  | .rsumwr a p f, _ => .execRsumwr a p f
  | .laneid a p f, _ => .execLaneid a p f
  | .gfrd a p f, _ => .execGfrd a p f
  | .add a p f, _ => .execAdd a p f
  | .sub a p f, _ => .execSub a p f
  | .andW a p f, _ => .execAndW a p f
  | .orW a p f, _ => .execOrW a p f
  | .xorW a p f, _ => .execXorW a p f
  | .shl a p f, _ => .execShl a p f
  | .shr a p f, _ => .execShr a p f
  | .addi a p sd sa imm, _ => .execAddi a p sd sa imm
  | .lli a p sd imm, _ => .execLli a p sd imm
  | .lui a p sd imm, _ => .execLui a p sd imm
  | .mul a p f, _ => .execMul a p f
  | .ptset a p pt sa, _ => .execPtset a p pt sa
  | .ptcfg a p pt level rewind sa, _ => .execPtcfg a p pt level rewind sa
  | .ptrd a p sd pt, _ => .execPtrd a p sd pt
  | .ctset a p ct sa, _ => .execCtset a p ct sa
  | .ctadd a p ct imm, _ => .execCtadd a p ct imm
  | .ctrd a p sd ct, _ => .execCtrd a p sd ct
  | .cmpset a p f, _ => .execCmpset a p f
  | .repeatBody a p body1 csrc count1, _ => .execRepeatBody a p body1 csrc count1
  | .call a p routine, _ => .execCall a p routine
  | .ret a p, _ => .execRet a p
  | .endTask a p, _ => .execEndTask a p
  | .tepoch a p, _ => .execTepoch a p
  | .astg a p f, _ => .execAstg a p f
  | .dset a p desc sa, _ => .execDset a p desc sa
  | .lbpost a p obj sa, _ => .execLbpost a p obj sa
  | .lbwait a p obj sa, _ => .execLbwait a p obj sa
  | .lbread a p obj sd, _ => .execLbread a p obj sd
  | .mbput a p obj sa, _ => .execMbput a p obj sa
  | .mbtake a p obj sd, _ => .execMbtake a p obj sd
  | .collectionArrival a p, _ => .execCollectionArrival a p
  | .resume fid g v, _ => .execResume fid g v
  | .sgo a p e entry, _ => .execSgo a p e entry
  | .sadv a p e n1, _ => .execSadv a p e n1
  | .shalt a p e, _ => .execShalt a p e
  | .sfree a p e slot, _ => .execSfree a p e slot
  | .scopy a p e dsrc ddst, _ => .execScopy a p e dsrc ddst
  | .streamMove a e, _ => .execStreamMove a e
  | .streamNextbase a e, _ => .execStreamNextbase a e
  | .streamPost a e, _ => .execStreamPost a e
  | .sharedStoreDelivery a arrived, _ => .execSharedStoreDelivery a arrived
  | .memoryResponse ch tag status form, _ => .execMemoryResponse ch tag status form
  | .memoryCreditReturn ch n, _ => .execMemoryCreditReturn ch n
  | .respTimeout ch tag, _ => .execRespTimeout ch tag
  | .orderedRelease q, _ => .execOrderedRelease q
  | .translationWalk a seq page, _ => .execTranslationWalk a seq page
  | .taskEnd a, _ => .execTaskEnd a
  | .attemptSeal a, _ => .execAttemptSeal a
  | .abandonmentEnd a, _ => .execAbandonmentEnd a
  | .mbHput fid v, _ => .execMbHput fid v
  | .letterboxSet fid t slot v, _ => .execLetterboxSet fid t slot v
  | .letterboxPost fid t slot v, _ => .execLetterboxPost fid t slot v
  | .dispStep fid v, _ => .execDispStep fid v
  | .tenEnWrite fid t v, _ => .execTenEnWrite fid t v
  | .hostMaskWrite fid t v, _ => .execHostMaskWrite fid t v
  | .poolEnWrite fid v, _ => .execPoolEnWrite fid v
  | .initPool fid v, _ => .execInitPool fid v
  | .initDone pool, _ => .execInitDone pool
  | .softBypWrite fid g v, _ => .execSoftBypWrite fid g v
  | .audClear fid g v, _ => .execAudClear fid g v
  | .flPop fid v, _ => .execFlPop fid v
  | .dlPop fid v, _ => .execDlPop fid v
  | .injArm fid v, _ => .execInjArm fid v
  | .slFlush fid v, _ => .execSlFlush fid v
  | .phFlush fid v, _ => .execPhFlush fid v
  | .keyData fid v, _ => .execKeyData fid v
  | .keyCommit fid v, _ => .execKeyCommit fid v
  | .keyClear fid v, _ => .execKeyClear fid v
  | .linkEn fid p v, _ => .execLinkEn fid p v
  | .forceRetrain fid p v, _ => .execForceRetrain fid p v
  | .retrain p, _ => .execRetrain p
  | .chEnWrite fid p v, _ => .execChEnWrite fid p v
  | .resSlotsWrite fid p v, _ => .execResSlotsWrite fid p v
  | .credWrite fid p v, _ => .execCredWrite fid p v
  | .frameStart p, _ => .execFrameStart p
  | .sendMessageStart p ch, _ => .execSendMessageStart p ch
  | .dataPacket p pkt, _ => .execDataPacket p pkt
  | .controlFlit p flit, _ => .execControlFlit p flit
  | .landingStart p ch, _ => .execLandingStart p ch
  | .retryTimeout p, _ => .execRetryTimeout p
  | .domReqWrite fid v, _ => .execDomReqWrite fid v
  | .powerAck d, _ => .execPowerAck d
  | .domainSramZeroed d, _ => .execDomainSramZeroed d
  | .pwrTimeout d, _ => .execPwrTimeout d
  | .monitorRefresh m, _ => .execMonitorRefresh m
  | .governorStep, _ => .execGovernorStep
  | .meterApportion, _ => .execMeterApportion
  | .capWindowEnd, _ => .execCapWindowEnd
  | .thermalLimitStep g, _ => .execThermalLimitStep g
  | .vmonOut d, _ => .execVmonOut d
  | .vinSample mv, _ => .execVinSample mv
  | .vinLost, _ => .execVinLost
  | .holdExit, _ => .execHoldExit
  | .holdReq fid v, _ => .execHoldReq fid v
  | .tbLost, _ => .execTbLost
  | .coldReset c f, h => absurd rfl (h c f)
  | .blockReset input, _ => .execBlockReset input
  | .blockDone, _ => .execBlockDone
  | .tenancyReset fid v, _ => .execTenancyReset fid v
  | .tenDone, _ => .execTenDone
  | .arrayReset fid v, _ => .execArrayReset fid v
  | .arrDone failCol, _ => .execArrDone failCol
  | .arrayRejoin a, _ => .execArrayRejoin a
  | .unitReset fid page v, _ => .execUnitReset fid page v
  | .bypass, _ => .execBypass
  | .idcode, _ => .execIdcode
  | .ieee1687Access d ins, _ => .execIeee1687Access d ins
  | .timeBaseValidRises, _ => .execTimeBaseValidRises
  | .moduleLaneLoss p, _ => .execModuleLaneLoss p
  | .trainingAttemptIncomplete p, _ => .execTrainingAttemptIncomplete p

/-- With nothing waiting a step is one count of the time base; else it is the front command on the queue's rest. -/
theorem step_eq_next_cases {s t : State} (h : step s = .next t) :
    (s.pending = [] ∧ t = s.tick) ∨ ∃ i r, s.pending = i :: r ∧ exec i { s with pending := r } = .next t := by
  unfold step at h
  split at h
  · next hq =>
    injection h with ht
    exact .inl ⟨hq, ht.symm⟩
  · next i r hq => exact .inr ⟨i, r, hq, h⟩

end Sys2Proof.Machine
end

section
namespace Sys2Proof.Claims
open Sys2Proof.Machine

theorem Canonical.of_keeps {s t : State} (hs : Canonical s) (h : Keeps s t) : Canonical t :=
  ⟨h.mem hs.mem, h.shared hs.shared, h.store hs.stores⟩

/-- No byte store knows of the queue. -/
theorem Canonical.withPending {s : State} (hs : Canonical s) (l : List Instr) : Canonical { s with pending := l } :=
  ⟨hs.mem, hs.shared, hs.stores⟩

/-- COLD reset leaves memory as it is and empties the shared store and the arrays' stores (R388). -/
theorem Canonical.cold {s : State} (hs : Canonical s) (c : Nat) (f : FuseImage) : Canonical (s.cold c f) :=
  ⟨hs.mem, Tbl.wf_nil Memory.blank, fun _ he => absurd he List.not_mem_nil⟩

/-- COLD_RESET is apart because it loads the fuses, which `Keeps` says stay. -/
theorem Canonical.exec {s t : State} (hs : Canonical s) (i : Instr) (h : exec i s = .next t) : Canonical t := by
  by_cases hc : ∃ c f, i = .coldReset c f
  · obtain ⟨c, f, rfl⟩ := hc
    injection h with ht
    exact ht ▸ hs.cold c.toNat f
  · exact hs.of_keeps (OutKeeps.exec s i (fun c f e => hc ⟨c, f, e⟩) t h)

/-- Settles O56: an idle step only counts the time base, COLD_RESET empties the stores it touches, and every other command
writes a store by operations that keep its form. -/
theorem everyStepKeepsStoresCanonical : Obligations.EveryStepKeepsStoresCanonical := by
  intro s t hs h
  obtain ⟨-, rfl⟩ | ⟨i, r, -, hi⟩ := step_eq_next_cases h
  · exact hs.of_keeps (Keeps.refl s).tick
  · exact (hs.withPending r).exec i hi

end Sys2Proof.Claims
end

section
namespace Sys2Proof.Machine

/-! ### Shared-store reads: what they change, and what they read -/

/-- The state with other arrays. -/
def State.withArrs (s : State) (x : Tbl ArrayState) : State := { s with arrs := x }

/-- Event jobs read and write no array. -/
theorem State.runEvts_withArrs (n : Nat) (jobs : List EvtJob) (s : State) (x : Tbl ArrayState) :
    (s.withArrs x).runEvts n jobs = (s.runEvts n jobs).withArrs x := by
  induction n generalizing jobs s with
  | zero => rfl
  | succ n ih =>
    match jobs with
    | [] => rfl
    | .set p c b :: l =>
      have hset : (s.withArrs x).setEvtBits p c b = ((s.setEvtBits p c b).1.withArrs x, (s.setEvtBits p c b).2) := by
        unfold State.setEvtBits
        dsimp only
        by_cases h : ({ s.ctx p c with raw := (s.ctx p c).raw ||| b } : EvtCtx).out &&& ~~~(s.ctx p c).out = 0
        · rw [if_pos h]
          exact if_pos h
        · rw [if_neg h]
          exact if_neg h
      show ((s.withArrs x).setEvtBits p c b).1.runEvts n _ = _
      rw [hset]
      exact ih _ _
    | .send m y :: l =>
      simp only [State.runEvts]
      by_cases h : (s.agentQ m).msgs.length < agentQDepth
      · rw [if_pos h]
        exact (if_pos h).trans (ih _ (s.setAgentQ m { s.agentQ m with msgs := (s.agentQ m).msgs ++ [y] }))
      · rw [if_neg h]
        exact (if_neg h).trans (ih _ ((s.setAgentQ m { s.agentQ m with lost := min ((s.agentQ m).lost + 1) 0xFFFF }).bump Reg.BLK_EVT_LOST_CNT))
    | .drop :: l => exact ih _ (s.bump Reg.BLK_ROUTE_DROP_CNT)

theorem State.raise_withArrs (s : State) (page bit t : Nat) (x : Tbl ArrayState) :
    (s.withArrs x).raise page bit (some t) = (s.raise page bit (some t)).withArrs x := by
  unfold State.raise State.raiseBits
  dsimp only
  rw [State.runEvts_withArrs, State.runEvts_withArrs]

/-- What a read outside the shared-store range counts and records for tenancy `t`, before the event is raised (R342). -/
def State.violRecord (s : State) (t addr : Nat) : State :=
  let s := s.bump Reg.TEN_SV_CNT t
  if s.flag Reg.TEN_VIOL_VALID t then s
  else (((s.setReg Reg.TEN_VIOL_ADDR_LO t addr).setReg Reg.TEN_VIOL_ADDR_HI t (addr / 2 ^ 32)).setReg
    Reg.TEN_VIOL_KIND t 2).setReg Reg.TEN_VIOL_VALID t 1

theorem State.violate_eq_record (s : State) (t addr : Nat) :
    s.violate t addr 2 = (s.violRecord t addr).raise (pgTEN t) 1 (some t) := rfl

theorem State.violRecord_withArrs (s : State) (t addr : Nat) (x : Tbl ArrayState) :
    (s.withArrs x).violRecord t addr = (s.violRecord t addr).withArrs x := by
  unfold State.violRecord
  dsimp only
  by_cases h : (s.bump Reg.TEN_SV_CNT t).flag Reg.TEN_VIOL_VALID t = true
  · rw [if_pos h]
    exact if_pos h
  · rw [if_neg h]
    exact if_neg h

/-- What reading a line does beside giving its bytes: it is charged, or lies outside the range and is recorded (R17, R342). -/
def State.readLine (s : State) (t l : Nat) : State :=
  if s.inShared t l then s.chargeShared l t 64 else s.violate t l 2

theorem State.readLine_withArrs (s : State) (t l : Nat) (x : Tbl ArrayState) :
    (s.withArrs x).readLine t l = (s.readLine t l).withArrs x := by
  unfold State.readLine
  by_cases h : s.inShared t l = true
  · rw [if_pos h]
    exact if_pos h
  · rw [if_neg h]
    refine (if_neg h).trans ?_
    rw [State.violate_eq_record, State.violate_eq_record, State.violRecord_withArrs, State.raise_withArrs]

/-- The lines of the shared store that an access touches. -/
def sharedLines (a n : Nat) : List Nat :=
  (if n = 0 then [] else List.range ((a + n - 1) / 64 + 1 - a / 64)).map fun i => (a / 64 + i) * 64 % 2 ^ 28

theorem State.sharedRead_snd (s : State) (t a n : Nat) :
    (s.sharedRead t a n).2 = (sharedLines a n).foldl (fun (s : State) l => s.readLine t l) s := by
  rw [sharedLines, List.foldl_map]
  rfl

theorem State.readLines_withArrs (s : State) (t : Nat) (l : List Nat) (x : Tbl ArrayState) :
    l.foldl (fun (s : State) l => s.readLine t l) (s.withArrs x) = (l.foldl (fun (s : State) l => s.readLine t l) s).withArrs x := by
  induction l generalizing s with
  | nil => rfl
  | cons k l ih => rw [List.foldl_cons, State.readLine_withArrs, ih, List.foldl_cons]

/-- A read of the shared store reads and writes no array. -/
theorem State.sharedRead_withArrs (s : State) (t a n : Nat) (x : Tbl ArrayState) :
    (s.withArrs x).sharedRead t a n = ((s.sharedRead t a n).1, (s.sharedRead t a n).2.withArrs x) := by
  refine Prod.ext rfl ?_
  rw [State.sharedRead_snd, State.sharedRead_snd, State.readLines_withArrs]

/-- A field that neither a violation record of a tenancy nor an event of it counts in. -/
structure FieldSpec.Settled (f : FieldSpec) : Prop where
  record : f.id < Reg.TEN_WV_CNT.id ∨ Reg.TEN_VIOL_VALID.id < f.id
  lost : f.id ≠ Reg.BLK_EVT_LOST_CNT.id
  dropped : f.id ≠ Reg.BLK_ROUTE_DROP_CNT.id

/-- `u` is `s` but for the accounts of accesses to the shared store. -/
structure Accounted (s u : State) : Prop where
  reg : ∀ f : FieldSpec, f.Settled → ∀ i, i < 2 ^ 32 → u.reg f i = s.reg f i
  doms : u.doms = s.doms
  shared : u.shared = s.shared
  arrs : u.arrs = s.arrs

theorem Accounted.refl (s : State) : Accounted s s := ⟨fun _ _ _ _ => rfl, rfl, rfl, rfl⟩

theorem Accounted.trans {s u v : State} (h : Accounted s u) (k : Accounted u v) : Accounted s v :=
  ⟨fun f hf i hi => (k.reg f hf i hi).trans (h.reg f hf i hi), k.doms.trans h.doms, k.shared.trans h.shared, k.arrs.trans h.arrs⟩

theorem Accounted.arr {s u : State} (h : Accounted s u) (b : Nat) : u.arr b = s.arr b :=
  congrArg (fun x => Tbl.get ({} : ArrayState) x b) h.arrs

theorem Accounted.foldl {β : Type} {g : State → β → State} (hg : ∀ s x, Accounted s (g s x)) (l : List β) (s : State) :
    Accounted s (l.foldl g s) := by
  induction l generalizing s with
  | nil => exact .refl s
  | cons x l ih => exact (hg s x).trans (ih _)

/-- Storing a field of the violation record of a tenancy whose number the keys hold. -/
theorem Accounted.setReg (s : State) (g : FieldSpec) {t : Nat} (v : Nat) (hg : Reg.TEN_WV_CNT.id ≤ g.id ∧ g.id ≤ Reg.TEN_VIOL_VALID.id)
    (ht : t < 2 ^ 32) : Accounted s (s.setReg g t v) := by
  refine ⟨fun f hf i hi => Regs.get_set_id _ ?_ _ hi (by decide) ht (by decide), rfl, rfl, rfl⟩
  have := hf.record
  omega

theorem Accounted.raise (s : State) (page bit : Nat) (t : Option Nat) : Accounted s (s.raise page bit t) := by
  refine ⟨fun f hf i hi => s.raise_reg _ _ _ _ _ _ hi (by decide) hf.lost hf.dropped, ?_, ?_, ?_⟩ <;>
    (obtain ⟨r, c, h⟩ := s.raise_eq page bit t; rw [h])

theorem Accounted.violRecord (s : State) {t : Nat} (addr : Nat) (ht : t < 2 ^ 32) : Accounted s (s.violRecord t addr) := by
  have count : Accounted s (s.bump Reg.TEN_SV_CNT t) := .setReg s _ _ (by decide) ht
  unfold State.violRecord
  dsimp only
  split
  · exact count
  · exact (((count.trans (.setReg _ _ _ (by decide) ht)).trans (.setReg _ _ _ (by decide) ht)).trans
      (.setReg _ _ _ (by decide) ht)).trans (.setReg _ _ _ (by decide) ht)

theorem Accounted.sharedRead (s : State) {t : Nat} (a n : Nat) (ht : t < 2 ^ 32) : Accounted s (s.sharedRead t a n).2 := by
  rw [State.sharedRead_snd]
  refine .foldl (fun s l => ?_) _ s
  unfold State.readLine
  split
  · exact ⟨fun _ _ _ _ => rfl, rfl, rfl, rfl⟩
  · exact (Accounted.violRecord s l ht).trans (.raise _ _ _ _)

theorem Accounted.inShared {s u : State} (h : Accounted s u) {t : Nat} (ht : t < 2 ^ 32) (b : Nat) :
    u.inShared t b = s.inShared t b := by
  have base : ∀ i, i < 2 ^ 32 → u.reg Reg.TEN_SS_BASE i = s.reg Reg.TEN_SS_BASE i :=
    h.reg _ ⟨by decide, by decide, by decide⟩
  have size : ∀ i, i < 2 ^ 32 → u.reg Reg.TEN_SS_SIZE i = s.reg Reg.TEN_SS_SIZE i :=
    h.reg _ ⟨by decide, by decide, by decide⟩
  have en : ∀ i, i < 2 ^ 32 → u.tenEn i = s.tenEn i := fun i hi =>
    congrArg (· == 1) (h.reg Reg.TEN_EN ⟨by decide, by decide, by decide⟩ i hi)
  have opened : ∀ n, u.openTo t Reg.TEN_SS_BASE Reg.TEN_SS_SIZE n = s.openTo t Reg.TEN_SS_BASE Reg.TEN_SS_SIZE n := by
    intro n
    unfold State.openTo
    rw [en t ht]
    congr 2
    rw [Bool.eq_iff_iff, List.any_eq_true, List.any_eq_true]
    refine exists_congr fun v => and_congr_right fun hv => ?_
    have hv : v < 2 ^ 32 := Nat.lt_trans (List.mem_range.1 hv) (by decide)
    rw [en v hv, base v hv, size v hv]
  unfold State.inShared State.domOn State.dom
  rw [base t ht, size t ht, opened, h.doms]

theorem Accounted.sharedRead_fst {s u : State} (h : Accounted s u) {t : Nat} (ht : t < 2 ^ 32) (a n : Nat) :
    (u.sharedRead t a n).1 = (s.sharedRead t a n).1 := by
  unfold State.sharedRead
  simp only [h.inShared ht, h.shared]

theorem Accounted.unarmed {s u : State} (h : Accounted s u) : u.flag Reg.FAULT_INJ_ARM = s.flag Reg.FAULT_INJ_ARM :=
  congrArg (· == 1) (h.reg Reg.FAULT_INJ_ARM ⟨by decide, by decide, by decide⟩ 0 (by decide))

/-- With no failure armed a check passes (R372). -/
theorem State.checkPoint_unarmed {s : State} (h : s.flag Reg.FAULT_INJ_ARM = false) (a cls detail : Nat) :
    s.checkPoint a cls detail = s := by
  unfold State.checkPoint State.injected
  rw [h]
  rfl

end Sys2Proof.Machine

namespace Sys2Proof.Claims
open Sys2Proof.Machine

/-! ### Issue of one operation of a bundle -/

/-- Where some operations in flight come from is all that marking them changes. -/
theorem unmarked_markNew (l : List Flight) (n : Nat) (o : Origin) :
    (l.take n ++ (l.drop n).map fun (f : Flight) => { f with org := o }).map unmarked = l.map unmarked := by
  have h : ((l.drop n).map fun (f : Flight) => { f with org := o }).map unmarked = (l.drop n).map unmarked := by
    rw [List.map_map]; rfl
  rw [List.map_append, h, ← List.map_append, List.take_append_drop]

/-- What is issued with its audit differs from what is issued by the marks alone (R43). -/
theorem marked_issueAudited (L : State) (a k w : Nat) (p : Pred) (i : Instr) :
    Marked L (L.issueOne a w p i) ((L.issueAudited a k w p i).onArr a (·.marked k)) a k := by
  by_cases ha : (L.arr a).modes.audit = true
  · have e : L.issueAudited a k w p i = _ := if_pos ha
    rw [e]
    obtain ⟨r, c, x, hall, hother, log, lost, harr⟩ := (((L.issueOne a w p i).drew 1).markNew a (L.arr a).flight.length
      ((L.arr a).origin k)).auditAll_eq a k (!(L.arr a).seq.heldParts.isEmpty) (L.hazards a w p i)
    refine ⟨fun hf => absurd (ha.symm.trans hf) (by decide), ⟨log, lost, _,
      unmarked_markNew ((L.issueOne a w p i).arr a).flight (L.arr a).flight.length ((L.arr a).origin k), ?_⟩,
      fun b hb => ?_, ?_⟩
    · rw [State.arr_onArr_same, harr, State.markNew, State.arr_onArr_same]
      rfl
    · rw [State.arr_onArr_other _ _ hb, hother b hb, State.markNew, State.arr_onArr_other _ _ hb]
      rfl
    · rw [hall]
      rfl
  · have e : L.issueAudited a k w p i = _ := if_neg ha
    rw [e]
    exact ⟨fun _ => rfl, ⟨_, _, _, rfl, State.arr_onArr_same _ _ _⟩, fun b hb => State.arr_onArr_other _ _ hb, rfl⟩

/-- An operation of a bundle that issues completes with what issuing it in the beat does. -/
theorem Completes.of_issues {s : State} {a : Nat} {p : Pred} {i : Instr} {k : Part} {w : BitVec 32} (h : Issues s a p i)
    (hw : slotWord i = some (k, w)) (hp : predOf w = p) (hx : exec i s = .next (s.issueRow a i)) :
    Completes i s a k ((s.landEarly a).issueInstr a (slotLogWord k w) i) := by
  obtain ⟨⟨k', w', hw', may, first, free⟩, hpred⟩ := h
  obtain ⟨rfl, rfl⟩ : k' = k ∧ w' = w := by simpa [hw'] using hw
  subst hp
  refine ⟨_, hx.trans (congrArg _ (s.issueRow_eq a i hw' may first ?_)), ?_⟩
  · rcases free with hf | hf
    · rw [hf]; rfl
    · exact (congrArg _ hf).trans (Bool.and_false _)
  · have e : (s.landEarly a).issueInstr a (slotLogWord k' w') i = (s.landEarly a).issueOne a (slotLogWord k' w') (predOf w') i :=
      (if_pos hpred).symm
    rw [e]
    exact marked_issueAudited _ _ _ _ _ _
end Sys2Proof.Claims

namespace Sys2Proof.Claims
open Sys2Proof.Machine

/-! ### SCOPY -/

/-- The address of row `i` of a descriptor of either store (R241). -/
def rowAddr (A : ArrayState) (d : Descr) (i : Nat) : Nat :=
  if d.space = 1 then A.eaShared d (i * d.rstride) else A.eaStore d (i * d.rstride)

/-- The bytes of row `i` of a descriptor of array state `A`, as tenancy `t` reads them in `L`. -/
def rowBytes (L : State) (t : Nat) (A : ArrayState) (d : Descr) (i : Nat) : List Byte :=
  if d.space = 1 then (L.sharedRead t (rowAddr A d i) d.rowLen).1 else A.load (rowAddr A d i) d.rowLen

/-- `L` once row `i` of a descriptor has been read. -/
def rowRead (t : Nat) (A : ArrayState) (d : Descr) (L : State) (i : Nat) : State :=
  if d.space = 1 then (L.sharedRead t (rowAddr A d i) d.rowLen).2 else L

/-- What SCOPY sends for row `i`: into the shared store, or as a delivery from there, or from array store to array store (R22, R248). -/
def rowSent (a e no : Nat) (A : ArrayState) (ds dd : Descr) (bs : List Byte) (i : Nat) : Flight :=
  { left := if dd.space = 1 then 1 else if ds.space = 1 then deliveryLatency a (rowAddr A ds i) 0 else 2
    rank := 0, eng := e, no := no
    op := if dd.space = 1 then .shared (rowAddr A dd i) bs
      else if ds.space = 1 then .deliver [a] (rowAddr A dd i) bs none else .bytes [(rowAddr A dd i, bs)] }

theorem deliveryBeats_eq (a addr deliv : Nat) : deliveryBeats a addr deliv = deliveryLatency a addr deliv := by
  unfold deliveryBeats deliveryLatency groupOf
  by_cases h1 : a / 64 < 8 <;> by_cases h2 : addr < 0x08000000 <;> simp [h1, h2]

/-- `scopyRun` row by row: read, checked and sent. -/
theorem scopyRun_eq_foldl (L : State) (a e : Nat) (ds dd : Descr) :
    L.scopyRun a e ds dd = (List.range ds.rows).foldl (fun (u : State) i =>
      let A := L.arr a
      let v := rowRead (L.tenRunning a) A ds u i
      (v.checkPoint a (if ds.space = 1 then 6 else 3) (rowAddr A ds i)).launch a
        (rowSent a e (u.engine a e).txnNo A ds dd (rowBytes u (L.tenRunning a) A ds i) i)) L := by
  unfold State.scopyRun
  dsimp only
  congr 1
  funext u i
  unfold rowRead rowSent rowBytes rowAddr
  by_cases h : ds.space = 1 <;> simp [h, deliveryBeats_eq]

/-- All that SCOPY of engine `e` of array `a` sends in `L`. -/
def rowsSent (L : State) (a e : Nat) (ds dd : Descr) : List Flight :=
  (List.range ds.rows).map fun i => rowSent a e ((L.arr a).eng e).txnNo (L.arr a) ds dd
    (rowBytes L (L.tenRunning a) (L.arr a) ds i) i

/-- `L` once every row of a descriptor of array `a` has been read. -/
def rowsRead (L : State) (a : Nat) (ds : Descr) : State :=
  (List.range ds.rows).foldl (rowRead (L.tenRunning a) (L.arr a) ds) L

/-- `u` is `R` but that array `a`, which `R` has as `A`, has some more operations in flight. -/
structure Sending (R : State) (a : Nat) (A : ArrayState) (fl : List Flight) (u : State) : Prop where
  state : ∃ x, u = R.withArrs x
  here : u.arr a = { A with flight := A.flight ++ fl }
  others : ∀ b, b ≠ a → u.arr b = R.arr b

theorem Sending.start {R : State} (a : Nat) : Sending R a (R.arr a) [] R :=
  ⟨⟨R.arrs, rfl⟩, by rw [List.append_nil], fun _ _ => rfl⟩

theorem Sending.launch {R u : State} {a : Nat} {A : ArrayState} {fl : List Flight} (h : Sending R a A fl u) (f : Flight) :
    Sending R a A (fl ++ [f]) (u.launch a f) := by
  obtain ⟨x, rfl⟩ := h.state
  refine ⟨⟨_, rfl⟩, ?_, fun b hb => (State.arr_onArr_other _ _ hb).trans (h.others b hb)⟩
  rw [State.arr_launch, h.here, List.append_assoc]

theorem rowRead_withArrs (t : Nat) (A : ArrayState) (d : Descr) (R : State) (x : Tbl ArrayState) (i : Nat) :
    rowRead t A d (R.withArrs x) i = (rowRead t A d R i).withArrs x := by
  unfold rowRead
  split
  · rw [State.sharedRead_withArrs]
  · rfl

theorem accounted_rowRead {t : Nat} (ht : t < 2 ^ 32) (A : ArrayState) (d : Descr) (R : State) (i : Nat) :
    Accounted R (rowRead t A d R i) := by
  unfold rowRead
  split
  · exact .sharedRead R _ _ ht
  · exact .refl R

theorem rowBytes_eq {L R : State} (h : Accounted L R) {t : Nat} (ht : t < 2 ^ 32) (A : ArrayState) (d : Descr)
    (x : Tbl ArrayState) (i : Nat) : rowBytes (R.withArrs x) t A d i = rowBytes L t A d i := by
  unfold rowBytes
  rw [State.sharedRead_withArrs, h.sharedRead_fst ht]

theorem Sending.rowRead {R u : State} {a : Nat} {A : ArrayState} {fl : List Flight} (h : Sending R a A fl u) {t : Nat}
    (ht : t < 2 ^ 32) (B : ArrayState) (d : Descr) (i : Nat) :
    Sending (Claims.rowRead t B d R i) a A fl (Claims.rowRead t B d u i) := by
  obtain ⟨x, rfl⟩ := h.state
  have hr := accounted_rowRead ht B d R i
  rw [rowRead_withArrs]
  exact ⟨⟨x, rfl⟩, h.here, fun b hb => (h.others b hb).trans (hr.arr b).symm⟩

/-- SCOPY sends every row, each with the bytes that its issue beat finds, where no failure is armed. -/
theorem sending_scopyRun (L : State) (a e : Nat) (ds dd : Descr) (ht : L.tenRunning a < 2 ^ 32) (hu : Unarmed L) :
    Sending (rowsRead L a ds) a (L.arr a) (rowsSent L a e ds dd) (L.scopyRun a e ds dd) := by
  rw [scopyRun_eq_foldl, rowsRead, rowsSent]
  generalize L.tenRunning a = t at ht
  generalize List.range ds.rows = l
  suffices key : ∀ (R u : State) (fl : List Flight), Accounted L R → Sending R a (L.arr a) fl u →
      Sending (l.foldl (rowRead t (L.arr a) ds) R) a (L.arr a)
        (fl ++ l.map fun i => rowSent a e ((L.arr a).eng e).txnNo (L.arr a) ds dd (rowBytes L t (L.arr a) ds i) i)
        (l.foldl (fun (u : State) i =>
          ((rowRead t (L.arr a) ds u i).checkPoint a (if ds.space = 1 then 6 else 3) (rowAddr (L.arr a) ds i)).launch a
            (rowSent a e (u.engine a e).txnNo (L.arr a) ds dd (rowBytes u t (L.arr a) ds i) i)) u) from
    key L L [] (.refl L) (.start a)
  induction l with
  | nil =>
    intro R u fl _ hs
    rw [List.map_nil, List.append_nil]
    exact hs
  | cons i l ih =>
    intro R u fl hR hs
    have hread := accounted_rowRead ht (L.arr a) ds R i
    have hno : (u.engine a e).txnNo = ((L.arr a).eng e).txnNo := by
      rw [State.engine, hs.here]
      rfl
    have hbytes : rowBytes u t (L.arr a) ds i = rowBytes L t (L.arr a) ds i := by
      obtain ⟨x, rfl⟩ := hs.state
      exact rowBytes_eq hR ht _ _ _ _
    have hnext := hs.rowRead ht (L.arr a) ds i
    have harm : (rowRead t (L.arr a) ds u i).flag Reg.FAULT_INJ_ARM = false := by
      obtain ⟨x, hx⟩ := hnext.state
      rw [hx]
      exact (hR.trans hread).unarmed.trans hu
    rw [List.foldl_cons, List.foldl_cons, List.map_cons, List.append_cons, State.checkPoint_unarmed harm, hno, hbytes]
    exact ih _ _ _ (hR.trans hread) (hnext.launch _)

theorem Sending.engineBecomes {R u : State} {a : Nat} {A : ArrayState} {fl : List Flight} (h : Sending R a A fl u)
    (hA : R.arr a = A) (e : Nat) : EngineBecomes R a e { A with flight := A.flight ++ fl } (A.eng e) u := by
  refine ⟨?_, fun k _ => ?_, ?_, h.others, ?_⟩
  · rw [h.here]; rfl
  · rw [h.here, hA]; rfl
  · rw [h.here]
  · obtain ⟨x, rfl⟩ := h.state; rfl

theorem predOf_streamWord (op : BitVec 6) (p : Pred) (e : BitVec 2) (rest : BitVec 20) : predOf (streamWord op p e rest) = p :=
  predOf_append _ p

/-- SCOPY issues as `scopyRun` between descriptors of the two stores, and as a dead letter BAD_DESC else. -/
theorem scopy_completes {s : State} {a : Arr} {p : Pred} {e : BitVec 2} {dsrc ddst : BitVec 6}
    (h : Issues s a.toNat p (.scopy a p e dsrc ddst)) :
    Completes (.scopy a p e dsrc ddst) s a.toNat 0 ((s.landEarly a.toNat).issueScopy a.toNat
      (streamSlot 5#6 p e (0#8 ++ ddst ++ dsrc)) e dsrc ddst) :=
  .of_issues h rfl (predOf_streamWord _ p _ _) rfl

/-- SCOPY sends every row and reads nothing else, or is skipped as BAD_DESC, for a tenancy whose number fits the keys of the
register fields: all that O17 says but for the numbers that do not (R22, R241, R248). -/
theorem scopy_sendsRows (s : State) (a : Arr) (p : Pred) (e : BitVec 2) (dsrc ddst : BitVec 6) :
    let L := s.landEarly a.toNat
    let A := L.arr a.toNat
    let ds := A.descr dsrc.toNat
    let dd := A.descr ddst.toNat
    L.tenRunning a.toNat < 2 ^ 32 → Unarmed L → Issues s a.toNat p (.scopy a p e dsrc ddst) →
    (A.eng e.toNat).started = true →
    (ds.space < 2 → dd.space < 2 → ∃ u, Completes (.scopy a p e dsrc ddst) s a.toNat 0 u ∧
      EngineBecomes (rowsRead L a.toNat ds) a.toNat e.toNat
        { A with flight := A.flight ++ rowsSent L a.toNat e.toNat ds dd } (A.eng e.toNat) u) ∧
    (2 ≤ ds.space ∨ 2 ≤ dd.space → Completes (.scopy a p e dsrc ddst) s a.toNat 0
      (L.deadLetter a.toNat dlBadDesc 0 (streamSlot 5#6 p e (0#8 ++ ddst ++ dsrc)))) := by
  intro L A ds dd ht hu hi hstarted
  have hdone := scopy_completes hi
  rw [show L.issueScopy _ _ e dsrc ddst = _ from if_pos hstarted] at hdone
  refine ⟨fun h1 h2 => ⟨_, hdone, ?_⟩, fun hbad => ?_⟩
  · rw [show (ite _ _ _ : State) = L.scopyRun a.toNat e.toNat ds dd from if_neg (not_or.2 ⟨Nat.not_le.2 h1, Nat.not_le.2 h2⟩)]
    have hread : Accounted L (rowsRead L a.toNat ds) := .foldl (accounted_rowRead ht A ds) _ L
    exact (sending_scopyRun L _ e.toNat ds dd ht hu).engineBecomes (hread.arr a.toNat) _
  · rwa [if_pos hbad] at hdone

/-! ### O17: a tenancy number that the keys of the register fields do not hold -/

theorem Completes.fail_eq {i : Instr} {s t u : State} {a : Nat} {k : Part} (h : Completes i s a k u)
    (ht : exec i s = .next t) : (t.arr a).fail = (u.arr a).fail := by
  obtain ⟨t', ht', hm⟩ := h
  obtain ⟨_, _, _, -, harr⟩ := hm.logged
  obtain rfl : t' = t := Host.Outcome.next.inj (ht'.symm.trans ht)
  rw [harr]

theorem EngineBecomes.fail_eq {s u : State} {a e : Nat} {B : ArrayState} {y : Engine} (h : EngineBecomes s a e B y u) :
    (u.arr a).fail = B.fail := by
  simpa using congrArg ArrayState.fail h.array

/-- The tenancy number for which TEN_SV_CNT has the storage key of FAULT_INJ_ARM. -/
def clashTen : Nat := (Reg.FAULT_INJ_ARM.id - Reg.TEN_SV_CNT.id) * 2 ^ 32

/-- Array 3 runs a task of that tenancy; descriptor 0 is one row of 32 bytes of the shared store, and no failure is armed, though
FAULT_INJ_ARR names array 3 and FAULT_INJ_CLASS the shared store. -/
def clashCopy : State :=
  { doms := [(0, { state := .run })]
    regs := Regs.set (Regs.set [] Reg.FAULT_INJ_ARR 0 3) Reg.FAULT_INJ_CLASS 0 6
    arrs := [(3, { seq := { state := .running }, task := some 1, engines := [(0, { started := true })]
                   regs := { desc := [(0, 0x10000000#32), (2, 0x01010000#32)] } })]
    disp := { tasks := [(1, some { cid := 0, ten := clashTen, queue := 0, index := 0, tasks := 1, routine := 256, version := 0
                                   array := 3, argAddr := 0, argLen := 0, state := 2 })] } }

/-- The predicate that always holds. -/
def unpredicated : Pred := { pen := false, cmp := 0, neg := false }

theorem clashCopy_issues : Issues clashCopy 3 unpredicated (.scopy 3 unpredicated 0 0 1) :=
  ⟨⟨0, _, rfl, by decide +kernel, by decide +kernel, .inl (by decide +kernel)⟩, by decide +kernel⟩

/-- Counting the violation of the read arms the failure, which the check of the same read meets (R342, R372). -/
theorem clashCopy_fails : ((clashCopy.issueRow 3 (.scopy 3 unpredicated 0 0 1)).arr 3).fail = some (6, 0) := by decide +kernel

/-- Refutes O17: it speaks of states whose task has any number for its tenancy. In `clashCopy` the row read lies outside the
range of such a tenancy, and the count of that violation is stored where FAULT_INJ_ARM is, so that a check of the copy fails and
the array holds a failed check that the statement does not have. With a number below 2^32 SCOPY sends its rows as O17 says
(`scopy_sendsRows`). -/
theorem not_pointCopySendsRows : ¬ Obligations.PointCopySendsRows := by
  unfold Obligations.PointCopySendsRows
  intro h
  have hunarmed : Unarmed (clashCopy.landEarly 3) := by
    unfold Unarmed
    decide +kernel
  obtain ⟨hcopy, -⟩ := h clashCopy 3 unpredicated 0 0 1 hunarmed clashCopy_issues (by decide +kernel)
  obtain ⟨u, hdone, hu⟩ := hcopy (by decide +kernel) (by decide +kernel)
  have hfail := (hdone.fail_eq rfl).trans hu.fail_eq
  exact absurd (clashCopy_fails.symm.trans hfail) (by decide +kernel)

/-! ### O18: a MOVE from the array store to the array store, which is no path of Table 1.3 -/

theorem EngineBecomes.flight_eq {s u : State} {a e : Nat} {B : ArrayState} {y : Engine} (h : EngineBecomes s a e B y u) :
    (u.arr a).flight = B.flight := by
  simpa using congrArg ArrayState.flight h.array

/-- A MOVE of 64 bytes from the array store to the array store. -/
def withinStore : Move := { src := 2, dst := 3, ssb := 0, dsb := 0, deliv := 0, half := 0, bytes := 64 }

/-- Engine 0 of array 3, FREE, stands at that MOVE. -/
def atWithinStore : State :=
  { doms := [(0, { state := .run })]
    arrs := [(3, { engines := [(0, { started := true, arm := { free := true, image := [0x001001A1#32] } })] })] }

theorem atMove_atWithinStore : AtMove atWithinStore 3 0 withinStore :=
  ⟨by decide, by decide, by decide, by decide, .inl (by decide)⟩

/-- The MOVE is skipped, and nothing flies. -/
theorem atWithinStore_flight : ((atWithinStore.moveRow 3 0).arr 3).flight = [] := by decide +kernel

/-- Refutes O18: its clause of a MOVE from the array store into the array store says that the bytes fly to the arrays of the
DELIVER, and asks for no path. No row of Table 1.3 leads from the array store to an array store (R22), so `movePath 2 3` is false
and the engine in `atWithinStore` skips its MOVE, as the statement's own first clause says. -/
theorem not_streamMoveCarriesBytes : ¬ Obligations.StreamMoveCarriesBytes := by
  unfold Obligations.StreamMoveCarriesBytes
  rintro ⟨-, h⟩
  have hunarmed : Unarmed atWithinStore := by
    unfold Unarmed
    decide
  obtain ⟨-, -, -, hout, -⟩ := h atWithinStore 3 0 withinStore hunarmed atMove_atWithinStore
  obtain ⟨-, hstore, -⟩ := hout (.inl rfl)
  obtain ⟨u, hexec, hu⟩ := hstore rfl
  obtain rfl := Host.Outcome.next.inj hexec
  exact absurd (atWithinStore_flight.symm.trans hu.flight_eq) (by simp)

end Sys2Proof.Claims
end

section
namespace Sys2Proof.Machine

/-! ### What the memory port's traffic leaves as it was -/

/-- `u` has the arrays, the dispatcher and the cache unit's own state as `s` has them. -/
structure Traffic (s u : State) : Prop where
  arrs : u.arrs = s.arrs
  disp : u.disp = s.disp
  cache : u.cache = s.cache

theorem Traffic.refl (s : State) : Traffic s s := ⟨rfl, rfl, rfl⟩

theorem Traffic.trans {s u v : State} (h : Traffic s u) (k : Traffic u v) : Traffic s v :=
  ⟨k.arrs.trans h.arrs, k.disp.trans h.disp, k.cache.trans h.cache⟩

theorem Traffic.foldl {β : Type} {g : State → β → State} (hg : ∀ s x, Traffic s (g s x)) (l : List β) (s : State) :
    Traffic s (l.foldl g s) := by
  induction l generalizing s with
  | nil => exact .refl s
  | cons x l ih => exact (hg s x).trans (ih _)

/-- A channel that sends what waits leaves whatever its own state and the meters leave. -/
theorem State.pumpChan_keeps {α : Type} (g : State → α) (hchan : ∀ s k x, g (State.setChan s k x) = g s)
    (hmeter : ∀ s t n, g (State.chargeMem s t n) = g s) (n k : Nat) (s : State) : g (s.pumpChan n k) = g s := by
  induction n generalizing s with
  | zero => rfl
  | succ n ih =>
    unfold State.pumpChan
    dsimp only
    split
    · rfl
    · split
      · exact (ih _).trans ((hmeter _ _ _).trans (hchan _ _ _))
      · rfl

theorem State.submitTxn_keeps {α : Type} (g : State → α) (hchan : ∀ s k x, g (State.setChan s k x) = g s)
    (hmeter : ∀ s t n, g (State.chargeMem s t n) = g s) (s : State) (t : Txn) : g (s.submitTxn t) = g s :=
  (State.pumpChan_keeps g hchan hmeter _ _ _).trans (hchan _ _ _)

theorem Traffic.submitTxn (s : State) (t : Txn) : Traffic s (s.submitTxn t) :=
  ⟨s.submitTxn_keeps State.arrs (fun _ _ _ => rfl) (fun _ _ _ => rfl) t,
    s.submitTxn_keeps State.disp (fun _ _ _ => rfl) (fun _ _ _ => rfl) t,
    s.submitTxn_keeps State.cache (fun _ _ _ => rfl) (fun _ _ _ => rfl) t⟩

/-- A unit's write reaches memory at once, and its transactions are to come (R333 to R335). -/
theorem State.postWrite_mem (s : State) (t a : Nat) (bs : List Byte) : (s.postWrite t a bs).mem = s.mem.putBytes a bs := by
  unfold State.postWrite
  generalize linesOf a bs.length = l
  suffices key : ∀ u : State, (l.foldl (fun (s : State) l =>
      s.submitTxn { kind := 1, addr := l, size := 64, ten := t, cls := 1, owner := .unit, data := s.mem.bytes l 64, done := true }) u).mem =
        u.mem from key _
  induction l with
  | nil => exact fun u => rfl
  | cons x l ih => exact fun u => (ih _).trans (u.submitTxn_keeps State.mem (fun _ _ _ => rfl) (fun _ _ _ => rfl) _)

theorem Traffic.postWrite (s : State) (t a : Nat) (bs : List Byte) : Traffic s (s.postWrite t a bs) := by
  have hmem : Traffic s ({ s with mem := s.mem.putBytes a bs }.noteWritten a bs.length) := ⟨rfl, rfl, rfl⟩
  exact hmem.trans (.foldl (fun s _ => .submitTxn s _) _ _)

theorem Traffic.unitWrite (s : State) (t a : Nat) (bs : List Byte) : Traffic s (s.unitWrite t a bs) := by
  refine .foldl (fun s x => ?_) _ s
  split
  · exact .postWrite s _ _ _
  · exact .refl s

theorem Traffic.chargeMem (s : State) (t n : Nat) : Traffic s (s.chargeMem t n) := ⟨rfl, rfl, rfl⟩

theorem Traffic.spend (s : State) (c : Nat) : Traffic s (s.spend c) := ⟨rfl, rfl, rfl⟩

theorem Traffic.setReg (s : State) (f : FieldSpec) (i v : Nat) : Traffic s (s.setReg f i v) := ⟨rfl, rfl, rfl⟩

theorem Traffic.bump64 (s : State) (lo hi : FieldSpec) (i n : Nat) : Traffic s (s.bump64 lo hi i n) :=
  (Traffic.setReg s lo i _).trans (.setReg _ hi i _)

theorem Traffic.chargeRead (s : State) (t a n : Nat) : Traffic s (s.chargeRead t a n) := by
  refine .foldl (fun s l => ?_) _ s
  have hcount := Traffic.bump64 (s.spend (chanOfAddr l)) Reg.MPORT_RD_BYTES_LO Reg.MPORT_RD_BYTES_HI (chanOfAddr l) 64
  exact ((Traffic.spend s (chanOfAddr l)).trans hcount).trans (.chargeMem _ t 64)

theorem State.mem_chargeMem (s : State) (t n : Nat) : (s.chargeMem t n).mem = s.mem := rfl

/-- Reading memory writes nothing there. -/
theorem State.chargeRead_mem (s : State) (t a n : Nat) : (s.chargeRead t a n).mem = s.mem := by
  unfold State.chargeRead
  generalize linesOf a n = l
  induction l generalizing s with
  | nil => rfl
  | cons x l ih =>
    rw [List.foldl_cons, ih, State.mem_chargeMem, State.bump64, State.setReg_mem, State.setReg_mem]
    rfl

theorem chanOfAddr_lt (a : Nat) : chanOfAddr a < 16 := Nat.xor_lt_two_pow (n := 4) (Nat.mod_lt _ (by decide)) (Nat.mod_lt _ (by decide))

theorem State.reg_chargeMem (s : State) (t n : Nat) (f : FieldSpec) (i j : Nat) : (s.chargeMem t n).reg f i j = s.reg f i j := rfl

/-- Reading memory counts bytes, and no field of the pages before the memory port's. -/
theorem State.chargeRead_reg (s : State) (t a n : Nat) {f : FieldSpec} (hf : f.id < Reg.MPORT_RD_BYTES_LO.id) {i j : Nat}
    (hi : i < 2 ^ 32) (hj : j < 256) : (s.chargeRead t a n).reg f i j = s.reg f i j := by
  unfold State.chargeRead
  generalize linesOf a n = l
  induction l generalizing s with
  | nil => rfl
  | cons x l ih =>
    have hc : chanOfAddr x < 2 ^ 32 := Nat.lt_trans (chanOfAddr_lt x) (by decide)
    have hhi : f.id ≠ Reg.MPORT_RD_BYTES_HI.id := Nat.ne_of_lt (Nat.lt_trans hf (by decide))
    rw [List.foldl_cons, ih, State.reg_chargeMem, State.bump64, State.reg, State.setReg_regs, Regs.get_set_id _ hhi _ hi hj hc (by decide),
      State.setReg_regs, Regs.get_set_id _ (Nat.ne_of_lt hf) _ hi hj hc (by decide)]
    rfl

/-- Reading memory for a tenancy moves no window. -/
theorem State.inWindow_chargeRead {s : State} {t b : Nat} (ht : t < 2 ^ 32) (u a n : Nat) (h : s.inWindow t b = true) :
    (s.chargeRead u a n).inWindow t b = true := by
  unfold State.inWindow at h ⊢
  rw [List.any_eq_true] at h ⊢
  obtain ⟨w, hw, hin⟩ := h
  refine ⟨w, hw, ?_⟩
  have hw : w < 256 := Nat.lt_trans (List.mem_range.1 hw) (by decide)
  unfold State.inWindowNo State.flag at hin ⊢
  rwa [State.chargeRead_reg s u a n (by decide) ht hw, State.chargeRead_reg s u a n (by decide) ht hw,
    State.chargeRead_reg s u a n (by decide) ht hw, State.chargeRead_reg s u a n (by decide) ht hw,
    State.chargeRead_reg s u a n (by decide) ht hw]

/-- Eight bytes at a multiple of 8 lie in one line. -/
theorem cutLines_of_aligned {a : Nat} (ha : a % 8 = 0) {bs : List Byte} (hb : bs.length = 8) : cutLines a bs = [(a, bs)] := by
  have hline : (a + 8 - 1) / 64 + 1 - a / 64 = 1 := by omega
  have hmax : max ((a / 64 + 0) * 64) a = a := by omega
  have hdrop : (a / 64 + 0) * 64 - a = 0 := by omega
  unfold cutLines linesOf
  rw [hb, if_neg (by decide), hline]
  simp only [List.range_one, List.map_cons, List.map_nil, hmax, hdrop, List.drop_zero]
  rw [List.take_of_length_le (by omega)]

/-- A unit's write of 8 bytes within the tenancy's windows. -/
theorem State.unitWrite_mem {s : State} {t a : Nat} {bs : List Byte} (ha : a % 8 = 0) (hb : bs.length = 8)
    (hin : s.inWindow t a = true) : (s.unitWrite t a bs).mem = s.mem.putBytes a bs := by
  unfold State.unitWrite
  rw [cutLines_of_aligned ha hb, List.foldl_cons, List.foldl_nil, if_pos hin, State.postWrite_mem]

theorem leBytes_length (n v : Nat) : (leBytes n v).length = n := by
  rw [leBytes, List.length_map, List.length_range]

/-- Bytes read where they were written. -/
theorem Memory.bytes_putBytes (m : Memory) (a : Nat) (bs : List Byte) : (m.putBytes a bs).bytes a bs.length = bs := by
  apply List.ext_getElem
  · simp [Memory.bytes, Tbl.getMany]
  · intro i _ hi
    have h := Memory.byte_putBytes m a (a + i) bs
    rw [if_pos (by omega), Nat.add_sub_cancel_left, List.getD_eq_getElem?_getD, List.getElem?_eq_getElem hi,
      Option.getD_some] at h
    rw [← h]
    simp [Memory.bytes, Tbl.getMany, Memory.byte]

/-! ### Fences (R220) -/

/-- The entry of a frame whose last fence passes, where the free list begins with `head`. -/
def Fte.passed (e : Fte) (head : Nat) : Nat :=
  if e.fstate = 2 then Fte.toNat { refcnt := 0, fstate := 0, fenced := false, next := head } else Fte.toNat { e with fenced := false }

theorem Traffic.passFrame (s : State) (x : Pool) (f : Nat) : Traffic s (s.passFrame x f) := by
  unfold State.passFrame
  dsimp only
  have hread := Traffic.chargeRead s x.t (x.fteAt f) 8
  split
  · exact .refl s
  · split
    · exact (((hread.trans (.unitWrite _ _ _ _)).trans (.setReg _ _ _ _)).trans (.setReg _ _ _ _)).trans (.setReg _ _ _ _)
    · exact hread.trans (.unitWrite _ _ _ _)

theorem State.pool_of_regs {s u : State} (h : u.regs = s.regs) (p : Nat) : u.pool p = s.pool p :=
  congrArg (fun r => State.pool { s with regs := r } p) h

theorem State.spanInWindow_of_regs {s u : State} (h : u.regs = s.regs) (t a n : Nat) : u.spanInWindow t a n = s.spanInWindow t a n :=
  congrArg (fun r => State.spanInWindow { s with regs := r } t a n) h

theorem State.pool_fteAt_aligned (s : State) (p f : Nat) : (s.pool p).fteAt f % 8 = 0 := by
  unfold State.pool Pool.fteAt
  dsimp only
  omega

theorem State.inWindow_of_span {s : State} {t a n : Nat} (hn : n ≠ 0) (h : s.spanInWindow t a n = true) : s.inWindow t a = true := by
  unfold State.spanInWindow at h
  simp only [Bool.or_eq_true, beq_iff_eq, hn, false_or, Bool.and_eq_true] at h
  exact h.1.1

/-- A frame's last fence passes: its entry in memory, for a pool whose number the keys of the register fields hold. -/
theorem State.passFrame_mem {s : State} {p f : Nat} (hp : p < 2 ^ 32)
    (hspan : s.spanInWindow (s.pool p).t ((s.pool p).fteAt f) 8 = true) :
    (s.passFrame (s.pool p) f).mem = s.mem.putBytes ((s.pool p).fteAt f)
      (leBytes 8 ((Fte.ofNat (s.mem.le ((s.pool p).fteAt f) 8)).passed (s.reg Reg.CACHE_FREE_HEAD p))) := by
  have hten : (s.pool p).t < 2 ^ 32 := Nat.lt_trans (s.reg_lt Reg.CACHE_OWNER p 0) (by decide)
  have hin := State.inWindow_chargeRead hten (s.pool p).t ((s.pool p).fteAt f) 8 (State.inWindow_of_span (by decide) hspan)
  have halign := s.pool_fteAt_aligned p f
  have hhead := s.chargeRead_reg (s.pool p).t ((s.pool p).fteAt f) 8 (f := Reg.CACHE_FREE_HEAD) (by decide) hp (j := 0) (by decide)
  have hwrite := fun v => State.unitWrite_mem halign (leBytes_length 8 v) hin
  unfold State.passFrame
  rw [hspan, Bool.not_true, if_neg Bool.false_ne_true]
  dsimp only
  by_cases hret : (Fte.ofNat (s.memLe ((s.pool p).fteAt f) 8)).fstate = 2
  · rw [if_pos hret, Fte.passed, if_pos (by exact hret), ← hhead]
    exact (hwrite _).trans (by rw [State.chargeRead_mem]; rfl)
  · rw [if_neg hret, Fte.passed, if_neg (by exact hret)]
    exact (hwrite _).trans (by rw [State.chargeRead_mem]; rfl)

/-- A RETIRING frame whose last fence passes is the head of the free list. -/
theorem State.passFrame_freeHead {s : State} {x : Pool} {f : Nat} (hf : f < 2 ^ 32)
    (hspan : s.spanInWindow x.t (x.fteAt f) 8 = true) (hret : (Fte.ofNat (s.mem.le (x.fteAt f) 8)).fstate = 2) :
    (s.passFrame x f).reg Reg.CACHE_FREE_HEAD x.p = f := by
  have hret : (Fte.ofNat (s.memLe (x.fteAt f) 8)).fstate = 2 := hret
  unfold State.passFrame
  rw [hspan, Bool.not_true, if_neg Bool.false_ne_true]
  dsimp only
  rw [if_pos hret]
  unfold State.subReg State.addReg
  rw [State.reg_setReg_other _ (by unfold FieldSpec.key; simp [Reg.CACHE_RETIRING, Reg.CACHE_FREE_HEAD]),
    State.reg_setReg_other _ (by unfold FieldSpec.key; simp [Reg.CACHE_FREE_FRAMES, Reg.CACHE_FREE_HEAD]), State.reg_setReg_same]
  exact Nat.mod_eq_of_lt hf

/-- `s` with other fences. -/
def State.withFences (s : State) (l : List Fence) : State := { s with cache := { s.cache with fences := l } }

theorem Traffic.passFences (s : State) : Traffic (s.withFences (s.cache.fences.filter fun f => !f.waits.isEmpty)) s.passFences :=
  .foldl (fun _ _ => .passFrame _ _ _) _ _

/-- The one fence there is passes where it waits for nothing. -/
theorem State.passFences_single {s : State} {p f seq : Nat}
    (h : s.cache.fences = [{ pool := p, frame := f, seq := seq, waits := [] }]) :
    s.passFences = (s.withFences []).passFrame (s.pool p) f := by
  unfold State.passFences
  rw [h]
  rfl

/-- Some fences once they wait for a task no more (R220). -/
def unfenced (l : List Fence) (rid : Nat) : List Fence := l.map fun f => { f with waits := f.waits.filter fun r => r != rid }

/-- The end of a task moves fences, and else only what the traffic of the frame table moves. -/
theorem Traffic.fenceTaskEnd (s : State) (rid : Nat) :
    Traffic (s.withFences ((unfenced s.cache.fences rid).filter fun f => !f.waits.isEmpty)) (s.fenceTaskEnd rid) :=
  .passFences (s.withFences (unfenced s.cache.fences rid))

theorem State.fenceTaskEnd_arr (s : State) (rid b : Nat) : (s.fenceTaskEnd rid).arr b = s.arr b :=
  congrArg (fun x => Tbl.get ({} : ArrayState) x b) (Traffic.fenceTaskEnd s rid).arrs
theorem State.fenceTaskEnd_disp (s : State) (rid : Nat) : (s.fenceTaskEnd rid).disp = s.disp := (Traffic.fenceTaskEnd s rid).disp
theorem State.fenceTaskEnd_fences (s : State) (rid : Nat) :
    (s.fenceTaskEnd rid).cache.fences = (unfenced s.cache.fences rid).filter fun f => !f.waits.isEmpty :=
  congrArg CacheUnit.fences (Traffic.fenceTaskEnd s rid).cache

/-- The one fence there is waits for one task. -/
def State.FencedBy (s : State) (rid p f : Nat) : Prop :=
  ∃ seq, s.cache.fences = [{ pool := p, frame := f, seq := seq, waits := [rid] }]

/-- The end of the one task that the one fence waits for passes it. -/
theorem State.fenceTaskEnd_single {s : State} {rid p f : Nat} (h : s.FencedBy rid p f) :
    s.fenceTaskEnd rid = (s.withFences []).passFrame (s.pool p) f := by
  obtain ⟨seq, h⟩ := h
  refine State.passFences_single (s := s.withFences (unfenced s.cache.fences rid)) (seq := seq) ?_
  show unfenced s.cache.fences rid = _
  simp [h, unfenced]

/-- What the end of that task leaves in the frame table. -/
theorem State.fenceTaskEnd_entry {s : State} {rid p f : Nat} (h : s.FencedBy rid p f) (hp : p < 2 ^ 32)
    (hspan : s.spanInWindow (s.pool p).t ((s.pool p).fteAt f) 8 = true) :
    (s.fenceTaskEnd rid).mem.bytes ((s.pool p).fteAt f) 8 =
      leBytes 8 ((Fte.ofNat (s.mem.le ((s.pool p).fteAt f) 8)).passed (s.reg Reg.CACHE_FREE_HEAD p)) := by
  have hmem : (s.fenceTaskEnd rid).mem = _ := (congrArg State.mem (State.fenceTaskEnd_single h)).trans
    (State.passFrame_mem (s := s.withFences []) hp hspan)
  have hread := Memory.bytes_putBytes (s.withFences []).mem ((s.pool p).fteAt f)
    (leBytes 8 ((Fte.ofNat (s.mem.le ((s.pool p).fteAt f) 8)).passed (s.reg Reg.CACHE_FREE_HEAD p)))
  rw [leBytes_length] at hread
  rw [hmem]
  exact hread

theorem State.fenceTaskEnd_freeHead {s : State} {rid p f : Nat} (h : s.FencedBy rid p f) (hf : f < 2 ^ 32)
    (hspan : s.spanInWindow (s.pool p).t ((s.pool p).fteAt f) 8 = true)
    (hret : (Fte.ofNat (s.mem.le ((s.pool p).fteAt f) 8)).fstate = 2) : (s.fenceTaskEnd rid).reg Reg.CACHE_FREE_HEAD p = f := by
  rw [State.fenceTaskEnd_single h]
  exact State.passFrame_freeHead (s := s.withFences []) (x := s.pool p) hf hspan hret

/-- The same in the words of a state `s` with the registers and memory of the one in which the task ends. -/
theorem State.fenceTaskEnd_passes {s u : State} (hregs : u.regs = s.regs) (hmem : u.mem = s.mem) {rid p f : Nat} (h : u.FencedBy rid p f)
    (hp : p < 2 ^ 32) (hf : f < 2 ^ 32) (hspan : s.spanInWindow (s.pool p).t ((s.pool p).fteAt f) 8 = true) :
    (u.fenceTaskEnd rid).mem.bytes ((s.pool p).fteAt f) 8 =
        leBytes 8 ((Fte.ofNat (s.mem.le ((s.pool p).fteAt f) 8)).passed (s.reg Reg.CACHE_FREE_HEAD p)) ∧
      ((Fte.ofNat (s.mem.le ((s.pool p).fteAt f) 8)).fstate = 2 → (u.fenceTaskEnd rid).reg Reg.CACHE_FREE_HEAD p = f) := by
  have hpool := State.pool_of_regs hregs p
  have hhead : u.reg Reg.CACHE_FREE_HEAD p = s.reg Reg.CACHE_FREE_HEAD p := congrArg (fun r => Regs.get r Reg.CACHE_FREE_HEAD p) hregs
  rw [← State.spanInWindow_of_regs hregs, ← hpool] at hspan
  rw [← hmem, ← hpool, ← hhead]
  exact ⟨State.fenceTaskEnd_entry h hp hspan, State.fenceTaskEnd_freeHead h hf hspan⟩

theorem State.freeReceipt_of_task {s : State} {rid : Nat} {t : Task} (h : s.task rid = some t) :
    s.freeReceipt rid = ((s.setTask rid none).fenceTaskEnd rid).purgeOld t.ten := by
  unfold State.freeReceipt
  rw [h]

/-! ### The seal of an attempt (R358) -/

/-- With nothing of a command staged no release is issued. -/
theorem State.releaseTask_of_none {s : State} {cid : Nat} (h : ∀ x ∈ s.mport.staged, x.cid ≠ cid) (idx : Nat) :
    s.releaseTask cid idx = s := by
  have hnone : ∀ q : Contribution → Bool, (s.mport.staged.filter fun c => c.cid == cid && q c) = [] := fun q =>
    List.filter_eq_nil_iff.2 fun x hx hc => h x hx (beq_iff_eq.1 (Bool.and_eq_true_iff.1 hc).1)
  have hrelease := hnone fun c => c.idx == idx && c.ready && !c.begun
  have hsend := hnone fun c => c.begun && !c.released
  simp only [← Bool.and_assoc] at hrelease hsend
  unfold State.releaseTask
  rw [hrelease, List.foldl_nil]
  unfold State.sendReleased
  rw [hsend, List.foldl_nil]

/-- With no load waiting nothing is applied. -/
theorem State.applyLoads_of_none {s : State} {a : Nat} (h : (s.arr a).loads = []) : s.applyLoads a = s := by
  unfold State.applyLoads
  rw [h, List.foldl_nil, ite_self]

theorem State.applyAllLoads_of_none {s : State} (h : ∀ b, (s.arr b).loads = []) : s.applyAllLoads = s := by
  unfold State.applyAllLoads
  generalize s.arrs.filter (fun e => !e.2.loads.isEmpty) = l
  induction l with
  | nil => rfl
  | cons e l ih => rw [List.foldl_cons, State.applyLoads_of_none (h e.1), ih]

/-- A command with tasks still to be dispatched goes on. -/
theorem State.settleCmd_of_plans {s : State} {cid : Nat} {c : Cmd} (hcmd : s.cmd cid = some c) (hplans : c.plans ≠ []) :
    s.settleCmd cid = s := by
  have hempty : c.plans.isEmpty = false := by simpa using hplans
  unfold State.settleCmd
  rw [hcmd]
  dsimp only
  rw [hempty, Bool.and_false]
  rfl

theorem State.cmd_of_disp {s u : State} (h : u.disp = s.disp) (cid : Nat) : u.cmd cid = s.cmd cid := by
  unfold State.cmd
  rw [h]

theorem State.cmd_onCmd {s : State} {cid : Nat} {c : Cmd} (hcmd : s.cmd cid = some c) {f : Cmd → Cmd} (hf : ∀ x, (f x).cid = x.cid) :
    (s.onCmd cid f).cmd cid = some (f c) := by
  have hcid : c.cid = cid := by simpa using List.find?_some hcmd
  have hkey : ((fun x : Cmd => x.cid == cid) ∘ fun x => if x.cid == cid then f x else x) = fun x => x.cid == cid := by
    funext x
    simp only [Function.comp_apply]
    split <;> simp [hf]
  unfold State.cmd State.onCmd State.onDisp
  rw [List.find?_map, hkey, show s.disp.cmds.find? (fun x => x.cid == cid) = some c from hcmd, Option.map_some, hcid,
    beq_self_eq_true, if_pos rfl]

/-- The seal before the receipt-log entry is free: handles and contributions are settled, the command has counted the task, and the
array holds it no more (R274, R358). -/
def State.sealing (s : State) (a rid : Nat) (t : Task) : State :=
  (((s.stageReady rid).bagSettle rid true).onCmd t.cid fun c => c.sealOf a t).onArr a ArrayState.idle

theorem State.sealing_regs (s : State) (a rid : Nat) (t : Task) : (s.sealing a rid t).regs = s.regs := by
  rw [State.sealing, State.onArr_regs, State.onCmd_regs]
  rfl
theorem State.sealing_mem (s : State) (a rid : Nat) (t : Task) : (s.sealing a rid t).mem = s.mem := by
  rw [State.sealing, State.onArr_mem, State.onCmd_mem]
  rfl
theorem State.sealing_cache (s : State) (a rid : Nat) (t : Task) : (s.sealing a rid t).cache = s.cache := by
  rw [State.sealing, State.onArr_cache, State.onCmd_cache]
  rfl

theorem State.sealing_cmd {s : State} {t : Task} {c : Cmd} (hcmd : s.cmd t.cid = some c) (a rid : Nat) :
    (s.sealing a rid t).cmd t.cid = some (c.sealOf a t) :=
  State.cmd_onCmd (s := (s.stageReady rid).bagSettle rid true) (f := fun c => c.sealOf a t) hcmd fun _ => rfl

theorem State.sealing_arr (s : State) (a rid : Nat) (t : Task) : (s.sealing a rid t).arr a = (s.arr a).idle := State.arr_onArr_same _ _ _

/-- A seal takes no load from an array and gives it none. -/
theorem State.sealing_loads (s : State) (a rid b : Nat) (t : Task) : ((s.sealing a rid t).arr b).loads = (s.arr b).loads := by
  by_cases hb : b = a
  · subst hb
    rw [State.sealing_arr]
    rfl
  · exact congrArg ArrayState.loads (State.arr_onArr_other _ _ hb)

/-- An attempt may seal: it has ended, no check has failed, and every write is answered (R274, R358). -/
structure MaySeal (s : State) (a rid : Nat) (t : Task) : Prop where
  on : s.dispatching = true
  running : (s.arr a).task = some rid
  found : s.task rid = some t
  ended : t.state = 2 ∧ t.ended = true
  good : t.failed = none ∧ (s.arr a).fail = none
  answered : s.writesOut a = false

/-- An attempt that seals, of a command with nothing staged and more tasks to dispatch, where no load waits. -/
theorem MaySeal.sealTask_eq {s : State} {a rid : Nat} {t : Task} {c : Cmd} (h : MaySeal s a rid t) (hcmd : s.cmd t.cid = some c)
    (hloads : ∀ b, (s.arr b).loads = []) (hstaged : ∀ x ∈ s.mport.staged, x.cid ≠ t.cid) (hplans : c.plans ≠ []) :
    s.sealTask a = (((s.sealing a rid t).setTask rid none).fenceTaskEnd rid).purgeOld t.ten := by
  have hnone : ∀ x ∈ (s.stageReady rid).mport.staged, x.cid ≠ t.cid := by
    intro x hx
    obtain ⟨y, hy, rfl⟩ := List.mem_map.1 hx
    have := hstaged y hy
    split <;> exact this
  have hfree := State.freeReceipt_of_task (s := s.sealing a rid t) h.found
  have hidle : ∀ b, ((((((s.sealing a rid t).setTask rid none).fenceTaskEnd rid).purgeOld t.ten).arr b).loads = []) := fun b =>
    (congrArg ArrayState.loads (State.fenceTaskEnd_arr _ rid b)).trans ((s.sealing_loads a rid b t).trans (hloads b))
  have hcounted : ((((s.sealing a rid t).setTask rid none).fenceTaskEnd rid).purgeOld t.ten).cmd t.cid = some (c.sealOf a t) :=
    (State.cmd_of_disp (State.fenceTaskEnd_disp ((s.sealing a rid t).setTask rid none) rid) t.cid).trans (State.sealing_cmd hcmd a rid)
  have hmay : t.state = 2 ∧ t.ended ∧ t.failed.isNone ∧ (s.arr a).fail.isNone ∧ !s.writesOut a := by
    simp [h.ended, h.good, h.answered]
  unfold State.sealTask
  rw [h.on, Bool.not_true, if_neg Bool.false_ne_true, h.running]
  dsimp only
  rw [h.found]
  dsimp only
  rw [if_pos hmay, State.releaseTask_of_none hnone, ite_self]
  unfold State.sealing at hfree hidle hcounted ⊢
  rw [hfree, State.applyAllLoads_of_none hidle]
  exact State.settleCmd_of_plans hcounted hplans

end Sys2Proof.Machine
end

section
namespace Sys2Proof.Claims
open Sys2Proof.Machine

/-- The fences that a seal passes: what O32 says of them, for a pool whose number the keys of the register fields hold (R220, R358). -/
theorem seal_passesFences (s : State) (a : Arr) (rid : Nat) (t : Task) (c : Cmd) (h : MaySeal s a.toNat rid t)
    (hcmd : s.cmd t.cid = some c) (hloads : ∀ b, (s.arr b).loads = []) (hstaged : ∀ x ∈ s.mport.staged, x.cid ≠ t.cid)
    (hplans : c.plans ≠ []) :
    ∃ u, exec (.attemptSeal a) s = .next u ∧ u.task rid = none ∧ u.arr a.toNat = (s.arr a.toNat).idle ∧
      u.cache.fences = (s.cache.fences.map fun f => { f with waits := f.waits.filter fun r => r != rid }).filter
        (fun f => !f.waits.isEmpty) ∧
      ∀ p f seq, s.cache.fences = [{ pool := p, frame := f, seq := seq, waits := [rid] }] → p < 2 ^ 32 → f < 2 ^ 32 →
        let at_ := (s.pool p).fteAt f
        s.spanInWindow (s.pool p).t at_ 8 = true →
        let e := Fte.ofNat (s.mem.le at_ 8)
        u.mem.bytes at_ 8 = leBytes 8 (if e.fstate = 2 then
            Fte.toNat { refcnt := 0, fstate := 0, fenced := false, next := s.reg Reg.CACHE_FREE_HEAD (s.pool p).p }
          else Fte.toNat { e with fenced := false }) ∧
        (e.fstate = 2 → u.reg Reg.CACHE_FREE_HEAD (s.pool p).p = f) := by
  have hseal := h.sealTask_eq hcmd hloads hstaged hplans
  let v := (s.sealing a.toNat rid t).setTask rid none
  refine ⟨(v.fenceTaskEnd rid).purgeOld t.ten, congrArg Host.Outcome.next hseal, ?_, ?_, ?_, ?_⟩
  · exact (congrArg (fun d : Dispatcher => Tbl.get none d.tasks rid) (State.fenceTaskEnd_disp v rid)).trans (State.task_setTask _ _ _)
  · exact (v.fenceTaskEnd_arr rid a.toNat).trans (s.sealing_arr a.toNat rid t)
  · exact (v.fenceTaskEnd_fences rid).trans (congrArg _ (congrArg (unfenced · rid) (congrArg CacheUnit.fences (s.sealing_cache a.toNat rid t))))
  · intro p f seq hfence hp hf at_ hspan e
    have hfence := (congrArg CacheUnit.fences (s.sealing_cache a.toNat rid t)).trans hfence
    obtain ⟨hentry, hhead⟩ := State.fenceTaskEnd_passes (u := v) (s.sealing_regs a.toNat rid t) (s.sealing_mem a.toNat rid t) ⟨seq, hfence⟩ hp hf hspan
    exact ⟨hentry, hhead⟩

/-! ### O32: a pool number that the keys of the register fields do not hold -/

/-- The pool number for which CACHE_FREE_HEAD has the storage key of MPORT_RD_BYTES_LO of channel 0. -/
def clashPool : Nat := (Reg.MPORT_RD_BYTES_LO.id - Reg.CACHE_FREE_HEAD.id) * 2 ^ 32

/-- A command with a task still to be dispatched. -/
def clashCmd : Cmd := { cid := 0, queue := 0, agent := 0, bytes := 0, phase := .running, plans := [{ index := 1 }] }

/-- A task of it whose attempt on array 3 has ended. -/
def clashTask : Task :=
  { cid := 0, ten := 0, queue := 0, index := 0, tasks := 2, routine := 256, version := 0, array := 3, argAddr := 0, argLen := 0
    state := 2, ended := true }

/-- The fence on frame 0 of pool `p` waits for that task alone, and the frame is RETIRING: bits [17:16] of its entry, at address 0 in
window 0 of tenancy 0, hold 2. -/
def fencedBy (p : Nat) : State :=
  { doms := [(domDSP, { state := .run })]
    regs := Regs.set (Regs.set [] Reg.TEN_WEN 0 1) Reg.TEN_WLIM_LO 0 1
    arrs := [(3, { task := some 1 })]
    disp := { cmds := [clashCmd], tasks := [(1, some clashTask)] }
    cache := { fences := [{ pool := p, frame := 0, seq := 0, waits := [1] }] }
    mem := [(2, 2)] }

theorem fencedBy_maySeal (p : Nat) : MaySeal (fencedBy p) 3 1 clashTask := ⟨rfl, rfl, rfl, ⟨rfl, rfl⟩, ⟨rfl, rfl⟩, rfl⟩

theorem fencedBy_loads (p b : Nat) : ((fencedBy p).arr b).loads = [] :=
  Tbl.get_all (P := fun A : ArrayState => A.loads = []) rfl (by simp [fencedBy])

/-- A pool with a number below 2^32: the freed frame names the head before the seal as its next, and is the head. -/
theorem fencedBy_zero_passes : ∃ u, exec (.attemptSeal 3) (fencedBy 0) = .next u ∧
    u.mem.bytes 0 8 = leBytes 8 (2 ^ 32 * 0xFFFFFFFF) ∧ u.reg Reg.CACHE_FREE_HEAD 0 = 0 := by
  obtain ⟨u, hexec, -, -, -, hpass⟩ := seal_passesFences (fencedBy 0) 3 1 clashTask clashCmd (fencedBy_maySeal 0) rfl (fencedBy_loads 0)
    (fun _ hx => absurd hx List.not_mem_nil) (by decide)
  obtain ⟨hentry, hhead⟩ := hpass 0 0 0 rfl (by decide) (by decide) (by decide +kernel)
  have haddr : ((fencedBy 0).pool 0).fteAt 0 = 0 := by decide +kernel
  rw [haddr] at hentry hhead
  exact ⟨u, hexec, hentry.trans (by decide +kernel), hhead (by decide +kernel)⟩

theorem fencedBy_clashPool_fteAt : ((fencedBy clashPool).pool clashPool).fteAt 0 = 0 := by decide +kernel

/-- Reading the frame's entry counts 64 bytes of channel 0, and that count is the head of the free list which the entry names then. -/
theorem fencedBy_clashPool_entry : ((fencedBy clashPool).sealTask 3).mem.bytes 0 8 = leBytes 8 (2 ^ 32 * 64) := by decide +kernel

/-- Refutes O32: its clause of the fences speaks of a pool of any number. In `fencedBy clashPool` the free head of the fence's pool is
stored where the bytes read through channel 0 are counted, so that the read of the frame's entry moves it, and the freed frame names
as its next 64 instead of the head before the seal (R220). With a pool number below 2^32 the seal passes the fence as O32 says
(`seal_passesFences`). -/
theorem not_sealEndsTheTask : ¬ Obligations.SealEndsTheTask := by
  unfold Obligations.SealEndsTheTask
  intro h
  have hmay := fencedBy_maySeal clashPool
  obtain ⟨-, hseal⟩ := h (fencedBy clashPool) 3 1 clashTask clashCmd hmay.running hmay.found rfl
  obtain ⟨-, -, hfences⟩ := hseal hmay.on hmay.ended.1 hmay.ended.2 hmay.good.1 hmay.good.2 hmay.answered (fencedBy_loads clashPool)
  obtain ⟨u, hexec, -, -, -, hpass⟩ := hfences (fun _ hx => absurd hx List.not_mem_nil) (by decide)
  obtain ⟨hentry, -⟩ := hpass clashPool 0 0 rfl (by decide) (by decide +kernel)
  obtain rfl := Host.Outcome.next.inj hexec
  rw [fencedBy_clashPool_fteAt] at hentry
  exact absurd (fencedBy_clashPool_entry.symm.trans hentry) (by decide +kernel)

end Sys2Proof.Claims
end
